-- ==== Sys2Proof/Word.lean ====
section
/-! DEFINITION. The word types of the DV-8160 (R2, R3): byte, 32-bit register word, 64-bit word, virtual and physical address. -/

namespace Sys2Proof

/-- A byte of memory or of field memory. -/
abbrev Byte := BitVec 8
/-- A window register, a queue word, a team constant (R12). -/
abbrev Word := BitVec 32
/-- An instruction word, a register pair, a control register (R52, R61, R367). -/
abbrev DWord := BitVec 64
/-- A global virtual address (R221). -/
abbrev VAddr := BitVec 57
/-- A physical address (R11). -/
abbrev PAddr := BitVec 52

/-- The byte `k` of a value held little-endian (R2). -/
def byteOf {w : Nat} (v : BitVec w) (k : Nat) : Byte := v.extractLsb' (8 * k) 8

/-- The first `n` bytes of a value, lowest address first (R2). -/
def bytesOf {w : Nat} (v : BitVec w) (n : Nat) : List Byte := (List.range n).map (byteOf v)

/-- The number that bytes hold, lowest address first (R2). -/
def natOfBytes : List Byte → Nat
  | [] => 0
  | b :: bs => b.toNat + 256 * natOfBytes bs

end Sys2Proof
end

