-- ==== Sys2Proof/Config.lean ====
section
/-! DEFINITION. What the spec leaves open: the free values, constants without a body that no proof can see into, and the figures of the package (R8, R12). A free value is drawn with the counter `State.drawn`, or from the operands it depends on. -/

namespace Sys2Proof.Config

/-- Free value: how far the copy of dtime at a source stands ahead of the least copy, taken modulo 3 (R16; DESIGN CHOICE, log 6). -/
opaque skew : Nat → Nat → Nat
/-- Free value: the launch identifier that a new grid is offered (R329; DESIGN CHOICE, log 5). -/
opaque launchId : Nat → Nat
/-- Free value: the team identifier that a new team is offered (R345; DESIGN CHOICE, log 5). -/
opaque teamId : Nat → Nat
/-- Free value: the length in ltime advances of a lease that a home grants, taken modulo 65 (R245; DESIGN CHOICE, log 9). -/
opaque leaseLength : Nat → Nat
/-- Free value: whether a walk uses a kept entry where one is there (R372; DESIGN CHOICE, log 8). -/
opaque useKept : Nat → Bool
/-- Free value: the bytes of a saved image beyond those its header states, by image number (R380; DESIGN CHOICE, log 7). -/
opaque imageBodySize : Nat → Nat
/-- Free value: the body bytes of a saved image (R380; DESIGN CHOICE, log 7). -/
opaque imageBody : Nat → Nat → Byte
/-- Free value: the check value of an image over its other bytes (R380; DESIGN CHOICE, log 7). -/
opaque imageCheck : List Byte → DWord
/-- Free value: the SHA-512 digest of bytes (R21, R398; DESIGN CHOICE, log 7). -/
opaque sha512 : List Byte → BitVec 512
/-- Free value: whether a signature over a digest verifies against the fused firmware key (R398; DESIGN CHOICE, log 7). -/
opaque verifies : BitVec 512 → List Byte → Bool
/-- Free value: the digest of the identity public key (R399; DESIGN CHOICE, log 7). -/
opaque identity : BitVec 512
/-- Free value: the byte of the identity key's signature over a digest (R399; DESIGN CHOICE, log 7). -/
opaque signature : BitVec 512 → Nat → Byte
/-- Free value: the Clover die, taken modulo 16, that runs a command whose routing address has no translation into HBM4E (R265; DESIGN CHOICE, log 8). -/
opaque routeStack : Nat → Nat
/-- Free value: how many bytes an ecopy, named by its place in S, has moved when it begins to read a source byte as it wrote it itself (R275; DESIGN CHOICE, log 24). -/
opaque ownWrite : Nat → Nat → Nat
/-- Free value: the E2M1 nibble, taken modulo 16, that etst writes for a cell that is not a digit of E2M1 (R279; DESIGN CHOICE, log 7). -/
opaque e2m1Of : Nat → Nat
/-- Free value: the core, taken modulo the cores of the die, that a report for no thread comes from (R15, R362, R404, R427; DESIGN CHOICE, log 7). -/
opaque checkSource : Nat → Nat
/-- Free value: the clock step, taken modulo the present one plus 1, that heat still holds a die at once it has cooled (R403; DESIGN CHOICE, log 10). -/
opaque cooled : Nat → Nat
/-- Free value: the clk, taken modulo 17, for which a slot holds a formation at a REGROUP header (R49; DESIGN CHOICE, log 1). -/
opaque regroup : Nat → Nat
/-- Free value: whether ltime advances in a clk (R17; DESIGN CHOICE, log 9). -/
opaque advance : Nat → Bool
/-- Free value: whether a party of the fabric holds a device number at a dtime (R344; DESIGN CHOICE, log 10). -/
opaque holds : Nat → Nat → Bool
/-- Free value: which of two equal keys of a dispatcher's queue goes first (R335 key 6; DESIGN CHOICE, log 8). -/
opaque first : Nat → Bool

/-- Threads, issue slots, arrays, k registers, accumulator rows, barrier objects, channel endpoints and register words of a core (R12). -/
def slots : Nat := 4
def homeGroups : Nat := 32
def arrays : Nat := 32
def kregs : Nat := 64
def accRows : Nat := 256
def barriers : Nat := 256
def endpoints : Nat := 32
def registerWords : Nat := 131072
/-- Bytes of a field array (R12). -/
def arrayBytes : Nat := 16384
/-- Cores of a Sorrel die, and hub cores of Vetch (R8). -/
def cores : Nat := 96
def hubCores : Nat := 8

end Sys2Proof.Config
end

