-- ==== Sys2Proof/Syntax.lean ====
section
/-! DEFINITION. The instructions and the events of the opcode table: one constructor of `Instr` for each row. An instruction carries the fields of its format as the spec lays them out (R52 to R58 and the X layouts); an event carries the names of the objects it acts on. -/

namespace Sys2Proof

/-- The guard of an instruction word: GNEG and GPRED (R52, R53). -/
structure Guard where
  neg  : Bool
  pred : BitVec 3
  deriving DecidableEq, Repr

/-- Format R (R54). -/
structure RF where
  g    : Guard
  d    : Byte
  a    : Byte
  b    : Byte
  c    : Byte
  bta  : Bool
  btb  : Bool
  btc  : Bool
  type : BitVec 4
  rnd  : BitVec 2
  sat  : Bool
  un   : Bool
  cmp  : BitVec 3
  var  : BitVec 2
  deriving DecidableEq, Repr

/-- The modifier layout of cvt in format R (R147). -/
structure CvtF where
  g     : Guard
  d     : Byte
  a     : Byte
  b     : Byte
  c     : Byte
  bta   : Bool
  res   : BitVec 2
  type  : BitVec 4
  rnd   : BitVec 2
  sat   : Bool
  un    : Bool
  stype : BitVec 4
  sun   : Bool
  deriving DecidableEq, Repr

/-- Format I (R56). -/
structure IF where
  g   : Guard
  d   : Byte
  a   : Byte
  imm : Word
  deriving DecidableEq, Repr

/-- Format M (R57). `ctl` is bits [7:4]: REUSE and CLS, or the operation of fatom, atom and red (R195, R257). -/
structure MF where
  g    : Guard
  data : Byte
  base : Byte
  ofs  : BitVec 24
  ctl  : BitVec 4
  sz   : BitVec 4
  deriving DecidableEq, Repr

/-- br and call (R93). -/
structure BrF where
  g    : Guard
  wofs : BitVec 40
  res  : Byte
  deriving DecidableEq, Repr

/-- brc (R94). -/
structure BrcF where
  g    : Guard
  a    : Byte
  b    : Byte
  bta  : Bool
  btb  : Bool
  un   : Bool
  cmp  : BitVec 3
  wofs : BitVec 26
  deriving DecidableEq, Repr

/-- The scale instructions (R164). `r1` to `r4` are the reserved fields from high to low. -/
structure KF where
  g   : Guard
  r1  : BitVec 2
  k1  : BitVec 6
  r2  : BitVec 2
  k2  : BitVec 6
  r3  : BitVec 2
  k3  : BitVec 6
  oa  : Byte
  ob  : Byte
  bta : Bool
  btb : Bool
  var : BitVec 3
  r4  : BitVec 3
  deriving DecidableEq, Repr

/-- ldmx (R173). -/
structure LdmxF where
  g     : Guard
  data  : Byte
  dbase : Byte
  sbase : Byte
  k     : BitVec 6
  sc    : BitVec 2
  reuse : BitVec 2
  cls   : BitVec 2
  res   : BitVec 12
  deriving DecidableEq, Repr

/-- The mma forms (R202). -/
structure MmaF where
  g    : Guard
  arr  : BitVec 5
  half : Bool
  seg  : Bool
  ch   : Bool
  ablk : BitVec 2
  ka   : BitVec 6
  r1   : BitVec 2
  kb   : BitVec 6
  bsel : Bool
  c4   : Bool
  rep  : BitVec 2
  keep : Bool
  r2   : BitVec 19
  deriving DecidableEq, Repr

/-- acrd, acwr and acst (R212). -/
structure AcF where
  g    : Guard
  dr   : Byte
  ra   : Byte
  ca   : Byte
  sc   : Byte
  type : BitVec 4
  cnt  : BitVec 3
  rnd  : BitVec 2
  sce  : Bool
  add  : Bool
  res  : BitVec 5
  deriving DecidableEq, Repr

/-- An X layout made of four operand bytes [47:16] and sixteen low bits: D, A, B, C as each instruction's own table names them (R190, R216 to R218, R330, R340, R348). -/
structure XF where
  g  : Guard
  d  : Byte
  a  : Byte
  b  : Byte
  c  : Byte
  lo : BitVec 16
  deriving DecidableEq, Repr

/-- amode (R191). -/
structure AmodeF where
  g    : Guard
  r1   : BitVec 3
  arr  : BitVec 5
  mode : Bool
  r2   : BitVec 39
  deriving DecidableEq, Repr

/-- The barrier and channel instructions (R299). -/
structure SyncF where
  g   : Guard
  d   : Byte
  a   : Byte
  n   : Byte
  bta : Bool
  res : BitVec 21
  var : BitVec 2
  deriving DecidableEq, Repr

/-- rinv (R346). -/
structure RinvF where
  g    : Guard
  d    : Byte
  a    : Byte
  b    : Byte
  narg : BitVec 4
  pri  : BitVec 2
  res  : BitVec 16
  var  : BitVec 2
  deriving DecidableEq, Repr

/-- trap, and rfe with CODE 0 (R365). -/
structure TrapF where
  g    : Guard
  code : BitVec 4
  res  : BitVec 44
  deriving DecidableEq, Repr

/-- csrr and csrw (R366). -/
structure CsrF where
  g   : Guard
  d   : Byte
  a   : Byte
  csr : BitVec 16
  res : BitVec 16
  deriving DecidableEq, Repr

/-- preq (R376). -/
structure PreqF where
  g    : Guard
  d    : Byte
  a    : Byte
  b    : Byte
  c    : Byte
  e    : Byte
  res  : BitVec 5
  hold : Bool
  var  : BitVec 2
  deriving DecidableEq, Repr

/-- mark (R394). -/
structure MarkF where
  g   : Guard
  a   : Byte
  tag : BitVec 16
  res : BitVec 22
  var : BitVec 2
  deriving DecidableEq, Repr

/-- A decode table (R64): LV3 (R62), LV2 (R65), or a loaded image of 1024 entries of 16 bits. -/
inductive DecodeTable where
  | lv3
  | lv2
  | image (entries : List (BitVec 16))
  deriving DecidableEq, Repr

/-- A core, by die and number on the die: the source number {die, core} of R15. Die 8 is Vetch with hub cores 0 to 7. -/
structure CoreId where
  die : Nat
  num : Nat
  deriving DecidableEq, Repr

/-- A thread, by the TEAM identifier of its team (R345) and its thread number (R75). -/
structure ThreadId where
  team : Nat
  t    : Nat
  deriving DecidableEq, Repr

/-- How far an engine write has landed: for the threads of the issuing team, cluster or die, or of the whole package (R253). -/
inductive Scope where
  | team
  | cluster
  | die
  | package
  deriving DecidableEq, Repr

/-- The kinds of machine check that MCSTAT records for an error outside an access (R404). -/
inductive EccKind where
  | registerFile
  | scaleRegister
  | accumulator
  | arrayStorage
  | l2
  | dram
  | afterExit
  deriving DecidableEq, Repr

/-- What the board and the firmware store supply at a start (R398, R400): the image, its signature and the SPLIT strap (R396). -/
structure StartInput where
  image     : List Byte
  signature : List Byte
  split     : Byte
  deriving DecidableEq, Repr

/-- The instructions and events of the DV-8160: one constructor for each row of the opcode table. -/
inductive Instr where
  -- family A, lane integer (R134)
  | iadd (f : RF) | iaddI (f : IF) | isub (f : RF) | isubI (f : IF) | imul (f : RF) | imulI (f : IF)
  | imulh (f : RF) | imulhI (f : IF) | imad (f : RF) | idiv (f : RF) | idivI (f : IF)
  | irem (f : RF) | iremI (f : IF) | iabs (f : RF) | ineg (f : RF)
  | imin (f : RF) | iminI (f : IF) | imax (f : RF) | imaxI (f : IF)
  | and (f : RF) | andI (f : IF) | or (f : RF) | orI (f : IF) | xor (f : RF) | xorI (f : IF)
  | andn (f : RF) | andnI (f : IF) | not (f : RF)
  | shl (f : RF) | shlI (f : IF) | shr (f : RF) | shrI (f : IF) | sar (f : RF) | sarI (f : IF)
  | rotl (f : RF) | rotlI (f : IF) | popc (f : RF) | clz (f : RF) | ctz (f : RF) | brev (f : RF)
  | bfe (f : RF) | bfi (f : RF) | sel (f : RF) | icmp (f : RF) | icmpI (f : IF) | iaddc (f : RF)
  | add64 (f : RF) | sub64 (f : RF) | lea (f : RF) | leaI (f : IF) | lea64 (f : RF)
  -- family B, float (R141)
  | fadd (f : RF) | faddI (f : IF) | fsub (f : RF) | fsubI (f : IF) | fmul (f : RF) | fmulI (f : IF)
  | ffma (f : RF) | fmin (f : RF) | fminI (f : IF) | fmax (f : RF) | fmaxI (f : IF)
  | fabs (f : RF) | fneg (f : RF) | fcmp (f : RF) | fcmpI (f : IF) | fclass (f : RF)
  | frnd (f : RF) | fscale (f : RF) | rcpe (f : RF) | rsqrte (f : RF) | fsqrt (f : RF)
  | exp2e (f : RF) | log2e (f : RF)
  | hadd2 (f : RF) | hmul2 (f : RF) | hfma2 (f : RF) | bfadd2 (f : RF) | bfmul2 (f : RF) | bffma2 (f : RF)
  -- family C, convert (R147 to R151)
  | cvt (f : CvtF) | pk (f : RF) | upk (f : RF) | alnb (f : RF)
  -- family D, moves and predicates (R124, R127)
  | mov (f : RF) | movi (f : IF) | movh (f : IF) | movc (f : RF) | movs (f : RF)
  | pand (f : RF) | por (f : RF) | pxor (f : RF) | pnot (f : RF) | pmov (f : RF)
  -- family E, control transfer and collectives (R92, R100)
  | br (f : BrF) | brc (f : BrcF) | brx (f : RF) | call (f : BrF) | callx (f : RF) | ret (f : RF)
  | exit (f : RF) | yield (f : RF) | nop (f : RF)
  | shfl (f : RF) | vote (f : RF) | gred (f : RF) | gsync (f : RF)
  -- family F, memory (R192, R236, R257)
  | ld (f : MF) | st (f : MF) | pf (f : MF) | atom (f : MF) | red (f : MF)
  | fld (f : MF) | fst (f : MF) | fatom (f : MF) | feset (f : MF) | feclr (f : MF) | fetest (f : MF)
  -- family G, scale registers (R165, R172, R173)
  | kmov (f : KF) | kset (f : KF) | kmul (f : KF) | kmax (f : KF) | kmin (f : KF) | krcp (f : KF)
  | kcvtf (f : KF) | kcvtk (f : KF) | kbind (f : KF) | ktag (f : KF)
  | kld (f : MF) | kst (f : MF) | kclr (f : KF) | ldmx (f : LdmxF)
  -- family H, matrix (R202, R212, R216 to R218, R190, R191)
  | mmaI4x (f : MmaF) | mmaI4 (f : MmaF) | mmaI8 (f : MmaF) | mmaE4m3 (f : MmaF)
  | mmaE5m2 (f : MmaF) | mmaE2m1 (f : MmaF) | mmaBf16 (f : MmaF)
  | acwin (f : XF) | acrd (f : AcF) | acwr (f : AcF) | aczero (f : XF) | acst (f : AcF)
  | mstat (f : XF) | amode (f : AmodeF) | resize (f : XF)
  -- family I, synchronisation and work (R299, R330, R338, R346, R348, R340, R356, R283)
  | barinit (f : SyncF) | barlink (f : SyncF) | bararr (f : SyncF) | bartry (f : SyncF)
  | barwait (f : SyncF) | bartest (f : SyncF) | bardrop (f : SyncF)
  | chsend (f : SyncF) | chrecv (f : SyncF) | chtry (f : SyncF)
  | launch (f : XF) | spawn (f : XF) | rinv (f : RinvF) | rret (f : XF)
  | hndalloc (f : XF) | hndpass (f : XF) | hndfree (f : XF)
  | kvgive (f : XF) | kvtake (f : XF) | edrain (f : XF)
  -- family J, system (R365, R366, R374, R376, R373, R117, R393, R394)
  | trap (f : TrapF) | rfe (f : TrapF) | csrr (f : CsrF) | csrw (f : CsrF)
  | dtload (f : XF) | preq (f : PreqF) | tlbinv (f : XF) | wspill (f : XF) | wfill (f : XF)
  | brk (f : XF) | mark (f : MarkF)
  -- engine commands: one element of the command in flight `e` is moved (R275, R276, R279 to R282); `at` is the place in S of its read (R252)
  | ecopy (e n at_ : Nat) | etld (e n at_ : Nat) | etst (e n at_ : Nat)
  | egath (e n at_ : Nat) | escat (e n at_ : Nat) | econv (e n at_ : Nat)
  -- events of the engines (R265, R253, R266)
  | enginePushAccepted (e : Nat) | engineWriteLanding (e n : Nat) (upTo : Scope) | engineCompletion (e : Nat)
  -- events of the matrix unit and the arrays (R208, R186, R200, R185, R190, R232)
  | mmaUpdate (c : CoreId) (a : Nat) | computeModeLoadServed (c : CoreId) (a : Nat)
  | accumulatorAccessPerformed (c : CoreId) (n : Nat) | amodeComplete (c : CoreId) (a : Nat)
  | resizeComplete (team : Nat) | class0TieTake (cn n a : Nat)
  -- events of barriers and channels (R294, R290, R295, R306)
  | barrierLinkMessage (n : Nat) | barrierArrivalMessage (n : Nat) | barrierFlipMessage (n : Nat)
  | barrierWaiterWake (c : CoreId) (o : Nat) | channelSlotLanding (n : Nat)
  -- events of the memory path (R238, R241, R245, R234)
  | loadReply (n : Nat) | errorReply (n : Nat) | leaseExpiry (c : CoreId) (line : Nat) | pageCounterEpoch
  -- events of issue (R80, R84, R49, R98, R386)
  | groupFormation (c : CoreId) (slot : Nat) | unitPromotion (c : CoreId) | regroupHoldExpiry (c : CoreId) (slot : Nat)
  | yieldDelayEnd (t : ThreadId) | clk (c : CoreId)
  -- events of work (R77, R91, R335, R337, R334, R343, R348)
  | teamStart (die n : Nat) (c : CoreId) | teamRetire (team : Nat) | dispatchWait1ms (die n : Nat)
  | coresPending100us (lid : Nat) | binTimerExpiry (die bin : Nat)
  | invocationArrival (n : Nat) | replyArrival (n : Nat)
  -- events of ownership (R353, R355)
  | kvgiveClose (n : Nat) | ownershipChange (n : Nat) | kvtakeComplete (t : ThreadId)
  -- events of traps and pre-emption (R360, R377, R378, R382)
  | deferredCauseDelivery (t : ThreadId) | preqDeadline (team : Nat) | teamSaveComplete (team : Nat)
  | teamRestore (die n : Nat) (c : CoreId)
  -- writes of registers that have a row of their own (R333, R382, R401, R321, R367, R388, R390, R389)
  | binload (die : Nat) (v : DWord) | restore (die : Nat) (v : DWord) | dierst (v : DWord) | dieReadmit (die : Nat)
  | mstWrite (die n : Nat) (v : DWord) | ctxidWrite (cn : Nat) (v : DWord) | trsizeWrite (die : Nat) (v : DWord)
  | rpstart (v : DWord) | stepEnter (die : Nat) (v : DWord) | stepStep (die : Nat) (v : DWord)
  | stepLeave (die : Nat) (v : DWord) | stepEnd (team : Nat) | counterSample (c : CoreId) (n : Nat)
  -- events of the host side and of the environment (R397, R256, R399, R396, R400, R403, R404)
  | memoryReadMessage (n : Nat) | memoryWriteMessage (n : Nat) | managementMessage (n : Nat)
  | attestationRequest (nonce : BitVec 512) | retransmitTimeout (n : Nat) | ethernetLinkUp (port : Nat)
  | coldStart (inp : StartInput) | warmStart (inp : StartInput) (clear : Bool)
  | thermalStep (die temp : Nat) | tempFallsBelow96c (die temp : Nat) | packagePowerLimitStep (die step : Nat)
  | uncorrectableError (die : Nat) (kind : EccKind) (t : Option ThreadId) (addr : Nat)
  deriving DecidableEq, Repr

end Sys2Proof
end

