-- ==== Sys2Proof/Machine/Numbers.lean ====
section
/-! DEFINITION. Numbers: the element formats (R22 to R25), the block scale E5M3 (R27, R30), exact values, rounding (R29, R31, R426) and the functions that the estimate instructions name (R145). -/

namespace Sys2Proof.Machine

/-- The rounding modes of R54. -/
inductive RoundMode where
  | rne
  | rtz
  | rup
  | rdn
  deriving DecidableEq, Repr

/-- The mode of an RND field (R54). -/
def roundModeOf (r : BitVec 2) : RoundMode :=
  if r == 0 then .rne else if r == 1 then .rtz else if r == 2 then .rup else .rdn

/-- A floating format (R22): `m` fraction bits, the bias, the magnitude pattern of the largest finite value, that of infinity where it has one, and the canonical NaN. -/
structure FloatFormat where
  width : Nat
  m     : Nat
  bias  : Nat
  max   : Nat
  inf   : Option Nat
  qnan  : Nat
  deriving DecidableEq, Repr

def fp32 : FloatFormat := ⟨32, 23, 127, 0x7F7FFFFF, some 0x7F800000, 0x7FC00000⟩
def fp16 : FloatFormat := ⟨16, 10, 15, 0x7BFF, some 0x7C00, 0x7E00⟩
def bf16 : FloatFormat := ⟨16, 7, 127, 0x7F7F, some 0x7F80, 0x7FC0⟩
def e4m3 : FloatFormat := ⟨8, 3, 7, 0x7E, none, 0x7F⟩
def e5m2 : FloatFormat := ⟨8, 2, 15, 0x7B, some 0x7C, 0x7E⟩
def e2m1 : FloatFormat := ⟨4, 1, 1, 0x7, none, 0x0⟩

/-- An exact value: NaN, an infinity, a signed zero, or the non-zero number mant * 2^exp. -/
inductive Num where
  | nan
  | inf (neg : Bool)
  | zero (neg : Bool)
  | fin (mant exp : Int)
  deriving DecidableEq, Repr

/-- The number mant * 2^exp, +0 where mant is 0. -/
def Num.of (mant exp : Int) : Num := if mant = 0 then .zero false else .fin mant exp
/-- An integer as a value. -/
def Num.ofInt (i : Int) : Num := Num.of i 0

def Num.isNan : Num → Bool
  | .nan => true
  | _ => false

/-- Whether the value's sign is minus; NaN has none. -/
def Num.neg : Num → Bool
  | .nan => false
  | .inf n => n
  | .zero n => n
  | .fin m _ => decide (m < 0)

/-- VAL(b, f) (R29): the value of a bit pattern, of which the low `width` bits are read. -/
def valOf (f : FloatFormat) (b : Nat) : Num :=
  let mag := b % 2 ^ (f.width - 1)
  let neg := b.testBit (f.width - 1)
  if mag = 0 then .zero neg
  else if mag ≤ f.max then
    let e := mag / 2 ^ f.m
    let sig : Nat := if e = 0 then mag else mag % 2 ^ f.m + 2 ^ f.m
    let exp : Int := (if e = 0 then 1 else (e : Int)) - f.bias - f.m
    .fin (if neg then -(sig : Int) else sig) exp
  else if f.inf = some mag then .inf neg
  else .nan

/-- The value of an FP32 register. -/
def valF32 (w : Word) : Num := valOf fp32 w.toNat

/-- The quotient n / d rounded to an integer magnitude under a mode, for a value of the given sign. -/
def roundQuot (mode : RoundMode) (neg : Bool) (n d : Nat) : Nat :=
  let q := n / d
  let r := n % d
  let up := match mode with
    | .rne => d < 2 * r || (2 * r = d && q % 2 = 1)
    | .rtz => false
    | .rup => !neg && r ≠ 0
    | .rdn => neg && r ≠ 0
  if up then q + 1 else q

/-- n * 2^k / d as a quotient of two naturals. -/
def scaleQuot (n d : Nat) (k : Int) : Nat × Nat :=
  if 0 ≤ k then (n * 2 ^ k.toNat, d) else (n, d * 2 ^ (-k).toNat)

/-- EXPO(n / d) = ⌊log2 (n / d)⌋ of a positive quotient (R29). -/
def expoQuot (n d : Nat) : Int :=
  let k : Int := (Nat.log2 n : Int) - (Nat.log2 d : Int)
  let s := scaleQuot 1 1 k
  if s.1 * d ≤ n * s.2 then k else k - 1

/-- The magnitude pattern, not limited in range, of the positive quotient n / d rounded to a format: patterns above `max` have overflowed. -/
def roundMag (f : FloatFormat) (mode : RoundMode) (neg : Bool) (n d : Nat) : Nat :=
  let emin : Int := 1 - (f.bias : Int)
  let e := max (expoQuot n d) emin
  let s := scaleQuot n d ((f.m : Int) - e)
  (e - emin).toNat * 2 ^ f.m + roundQuot mode neg s.1 s.2

/-- A pattern with its sign bit. -/
def withSign (f : FloatFormat) (neg : Bool) (mag : Nat) : Nat :=
  if neg then mag + 2 ^ (f.width - 1) else mag

/-- The pattern of an infinity; the largest finite value in a format without one. -/
def infOf (f : FloatFormat) (neg : Bool) : Nat := withSign f neg (f.inf.getD f.max)

/-- ROUND of a non-zero quotient of the given sign to a format with infinities (R29). -/
def roundRat (f : FloatFormat) (mode : RoundMode) (neg : Bool) (n d : Nat) : Nat :=
  let mag := roundMag f mode neg n d
  if mag ≤ f.max then withSign f neg mag
  else match mode with
    | .rne => infOf f neg
    | .rtz => withSign f neg f.max
    | .rup => if neg then withSign f neg f.max else infOf f neg
    | .rdn => if neg then infOf f neg else withSign f neg f.max

/-- The magnitude of a finite value as a quotient. -/
def quotOf (mant exp : Int) : Nat × Nat := scaleQuot mant.natAbs 1 exp

/-- ROUND(x, f, mode) (R29). -/
def round (f : FloatFormat) (mode : RoundMode) : Num → Nat
  | .nan => f.qnan
  | .inf n => infOf f n
  | .zero n => withSign f n 0
  | .fin m e => let q := quotOf m e; roundRat f mode (decide (m < 0)) q.1 q.2

/-- ROUND to FP32 as a register word. -/
def round32 (mode : RoundMode) (x : Num) : Word := BitVec.ofNat 32 (round fp32 mode x)

/-- NARROW of a non-zero quotient (R31). -/
def narrowRat (f : FloatFormat) (neg : Bool) (n d : Nat) : Nat :=
  withSign f neg (min (roundMag f .rne neg n d) f.max)

/-- NARROW(x, f) for E4M3, E5M2 and E2M1 (R31). -/
def narrow (f : FloatFormat) : Num → Nat
  | .nan => f.qnan
  | .inf n => withSign f n f.max
  | .zero n => withSign f n 0
  | .fin m e => let q := quotOf m e; narrowRat f (decide (m < 0)) q.1 q.2

/-- The value rounded to an integer under a mode (R29); 0 for values that are not numbers. -/
def roundInt (mode : RoundMode) : Num → Int
  | .fin m e =>
    let q := quotOf m e
    let r := roundQuot mode (decide (m < 0)) q.1 q.2
    if m < 0 then -(r : Int) else r
  | _ => 0

/-- EXPO of a finite non-zero value (R29). -/
def expoOf : Num → Option Int
  | .fin m e => let q := quotOf m e; some (expoQuot q.1 q.2)
  | _ => none

/-- CLAMP(x, lo, hi) (R29). -/
def clampInt (x lo hi : Int) : Int := if x < lo then lo else if hi < x then hi else x

/-- The limits of an integer type of `n` bits (R29). -/
def intLo (n : Nat) (un : Bool) : Int := if un then 0 else -(2 ^ (n - 1) : Int)
def intHi (n : Nat) (un : Bool) : Int := if un then 2 ^ n - 1 else 2 ^ (n - 1) - 1

/-- SAT(x, t) for the integer type of `n` bits (R29). -/
def satInt (n : Nat) (un : Bool) (x : Int) : Int := clampInt x (intLo n un) (intHi n un)

/-! Exact arithmetic, with the sign of zero results under R426 -/

/-- The sum of two mantissas at a common exponent. -/
def addFin (m1 e1 m2 e2 : Int) : Int × Int :=
  let e := min e1 e2
  (m1 * 2 ^ (e1 - e).toNat + m2 * 2 ^ (e2 - e).toNat, e)

/-- x + y, exact; the mode fixes the sign of an exact zero (R426). -/
def addNum (mode : RoundMode) (x y : Num) : Num :=
  match x, y with
  | .nan, _ | _, .nan => .nan
  | .inf a, .inf b => if a = b then .inf a else .nan
  | .inf a, _ => .inf a
  | _, .inf b => .inf b
  | .zero a, .zero b => if a = b then .zero a else .zero (mode == .rdn)
  | .zero _, y => y
  | x, .zero _ => x
  | .fin m1 e1, .fin m2 e2 =>
    let s := addFin m1 e1 m2 e2
    if s.1 = 0 then .zero (mode == .rdn) else .fin s.1 s.2

/-- x * y, exact (R426). -/
def mulNum (x y : Num) : Num :=
  match x, y with
  | .nan, _ | _, .nan => .nan
  | .inf _, .zero _ | .zero _, .inf _ => .nan
  | .inf a, y => .inf (a != y.neg)
  | x, .inf b => .inf (x.neg != b)
  | .zero a, y => .zero (a != y.neg)
  | x, .zero b => .zero (x.neg != b)
  | .fin m1 e1, .fin m2 e2 => .fin (m1 * m2) (e1 + e2)

/-- The value with its sign inverted. -/
def negNum : Num → Num
  | .nan => .nan
  | .inf n => .inf (!n)
  | .zero n => .zero (!n)
  | .fin m e => .fin (-m) e

/-- Whether x < y, for values that are not NaN; zeros of either sign are equal. -/
def ltNum (x y : Num) : Bool :=
  match x, y with
  | .nan, _ | _, .nan => false
  | .inf a, .inf b => a && !b
  | .inf a, _ => a
  | _, .inf b => !b
  | .zero _, .zero _ => false
  | .zero _, .fin m _ => decide (0 < m)
  | .fin m _, .zero _ => decide (m < 0)
  | .fin m1 e1, .fin m2 e2 => decide ((addFin m1 e1 (-m2) e2).1 < 0)

/-- Whether x and y are the same number; zeros of either sign are. -/
def eqNum (x y : Num) : Bool := !x.isNan && !y.isNan && !ltNum x y && !ltNum y x

/-- Whether x orders before y with -0 below +0 (R108, R142). -/
def beforeNum (x y : Num) : Bool :=
  match x, y with
  | .zero a, .zero b => a && !b
  | x, y => ltNum x y

/-! The block scale E5M3 -/

/-- E5M3V(b) (R27). -/
def e5m3v (b : Byte) : Num :=
  let n := b.toNat
  if n = 0xFF then .nan
  else if n / 8 = 0 then Num.of (n : Int) (-17)
  else .fin ((n % 8 + 8 : Nat) : Int) ((n / 8 : Nat) - 18)

/-- E5M3 as a format for rounding: codes up to 0xFE. -/
def e5m3Format : FloatFormat := ⟨9, 3, 15, 0xFE, none, 0xFF⟩

/-- E5M3(n / d) of a positive quotient (R30). -/
def e5m3Rat (n d : Nat) : Byte :=
  if n * 2 ^ 17 < d then 0x00
  else BitVec.ofNat 8 (min (roundMag e5m3Format .rne false n d) 0xFE)

/-- E5M3(x) (R30). -/
def e5m3 : Num → Byte
  | .nan => 0xFF
  | .inf n => if n then 0xFF else 0xFE
  | .zero _ => 0x00
  | .fin m e => if m < 0 then 0xFF else let q := quotOf m e; e5m3Rat q.1 q.2

/-- E5M3(1 / v(b)), with 1/0 infinite (R167). -/
def e5m3Rcp (b : Byte) : Byte :=
  match e5m3v b with
  | .nan => 0xFF
  | .fin m e => let q := quotOf m e; e5m3Rat q.2 q.1
  | _ => 0xFE

/-! 4-bit elements -/

/-- The nibble of a two's-complement 4-bit slot. -/
def int4 (n : Nat) : Int := if n % 16 < 8 then (n % 16 : Nat) else (n % 16 : Nat) - 16

/-- The E4M3 byte of an outlier whose partner slot holds `p` (R24). -/
def outlierByte (p : Nat) : Nat := 16 * (p % 16) + 8

/-- What a slot of an I4X pair is (R24, R25). -/
inductive Slot where
  | value (v : Int)
  | outlier (e4m3 : Nat)
  | partner
  | doubleMarker
  deriving DecidableEq, Repr

/-- The slot at bit position `hi` of the byte of a pair (R24, R25). -/
def i4xSlot (byte : Nat) (hi : Bool) : Slot :=
  let own := if hi then byte / 16 % 16 else byte % 16
  let other := if hi then byte % 16 else byte / 16 % 16
  if own = 8 ∧ other = 8 then .doubleMarker
  else if own = 8 then .outlier (outlierByte other)
  else if other = 8 then .partner
  else .value (int4 own)

/-- The value of an I4X slot (R24, R25). -/
def i4xValue (byte : Nat) (hi : Bool) : Num :=
  match i4xSlot byte hi with
  | .value v => Num.ofInt v
  | .outlier b => valOf e4m3 b
  | _ => .zero false

/-! Square roots, and the functions of the estimate instructions -/

/-- The bits of the integer square root, from bit `k - 1` down. -/
def isqrtFrom (n : Nat) : Nat → Nat → Nat
  | 0, acc => acc
  | k + 1, acc => isqrtFrom n k (if (acc + 2 ^ k) * (acc + 2 ^ k) ≤ n then acc + 2 ^ k else acc)

/-- ⌊√n⌋. -/
def isqrt (n : Nat) : Nat := isqrtFrom n (Nat.log2 n / 2 + 1) 0

/-- √(n / d) as a quotient that rounds as the exact root does to any format of at most 60 bits: exact where the root is, otherwise the middle of an interval of width 2^-80 relative to it or less. -/
def sqrtQuot (n d : Nat) : Nat × Nat :=
  let k : Nat := ((200 - expoQuot n d) / 2).toNat
  let x := n * 4 ^ k / d
  let s := isqrt x
  if s * s * d = n * 4 ^ k then (s, 2 ^ k) else (2 * s + 1, 2 ^ (k + 1))

/-- SIG12 of a positive quotient (R145): at most 12 significant bits, ties to even. -/
def sig12 (n d : Nat) : Nat × Nat :=
  let e := expoQuot n d
  let s := scaleQuot n d (11 - e)
  scaleQuot (roundQuot .rne false s.1 s.2) 1 (e - 11)

/-- ROUND(SIG12(n / d), FP32, rne) of a non-zero quotient (R145). -/
def estimate (neg : Bool) (n d : Nat) : Word :=
  let s := sig12 n d
  BitVec.ofNat 32 (roundRat fp32 .rne neg s.1 s.2)

/-- The number of fraction bits of the fixed-point arithmetic below (UNVERIFIED, log 15). -/
def fixBits : Nat := 192

/-- The sum of `n` terms. -/
def sumTerms (f : Nat → Nat) : Nat → Nat
  | 0 => 0
  | n + 1 => sumTerms f n + f n

/-- ln 2 in fixed point, not above it and less than 2^9 units below: the sum of 1 / (k 2^k). -/
def ln2Fix : Nat := sumTerms (fun k => 2 ^ fixBits / ((k + 1) * 2 ^ (k + 1))) 200

/-- The Taylor sum of e^y - 1 in fixed point: `t` is the present term. -/
def expSum (y : Nat) : Nat → Nat → Nat → Nat
  | 0, _, _ => 0
  | n + 1, k, t => let t' := t * y / (k * 2 ^ fixBits); t' + expSum y n (k + 1) t'

/-- 2^f in fixed point for a fraction 0 < f < 1 given in fixed point, within 2^12 units. -/
def exp2Fix (f : Nat) : Nat :=
  2 ^ fixBits + expSum (f * ln2Fix / 2 ^ fixBits) 60 1 (2 ^ fixBits)

/-- The sum of z^(2k+1) / (2k+1) in fixed point: `p` is the present power of z. -/
def atanhSum (z2 : Nat) : Nat → Nat → Nat → Nat
  | 0, _, _ => 0
  | n + 1, k, p => p / (2 * k + 1) + atanhSum z2 n (k + 1) (p * z2 / 2 ^ fixBits)

/-- log2 r in fixed point for 1 < r < 2 given as n / d, within 2^12 units. -/
def log2Fix (n d : Nat) : Nat :=
  let z := (n - d) * 2 ^ fixBits / (n + d)
  2 * atanhSum (z * z / 2 ^ fixBits) 70 0 z * 2 ^ fixBits / ln2Fix

end Sys2Proof.Machine
end

