-- ==== Sys2Proof/Machine/Integer.lean ====
section
/-! DEFINITION. The results of the integer instructions (family A, R135 to R140) on register words. -/

namespace Sys2Proof.Machine

/-- A 32-bit operand as an integer: unsigned under .un, otherwise signed (R135). -/
def intOf {w : Nat} (un : Bool) (x : BitVec w) : Int := if un then x.toNat else x.toInt

/-- The exact result r as a register word: modulo 2^32, or saturated under .sat (R135). -/
def writeInt (sat un : Bool) (r : Int) : Word := BitVec.ofInt 32 (if sat then satInt 32 un r else r)

/-- iadd (R135) -/
def iaddOp (sat un : Bool) (a b : Word) : Word := writeInt sat un (intOf un a + intOf un b)
/-- isub (R135) -/
def isubOp (sat un : Bool) (a b : Word) : Word := writeInt sat un (intOf un a - intOf un b)
/-- imul (R135) -/
def imulOp (sat un : Bool) (a b : Word) : Word := writeInt sat un (intOf un a * intOf un b)
/-- imulh: the high word of the 64-bit product (R135) -/
def imulhOp (un : Bool) (a b : Word) : Word := BitVec.ofInt 32 ((intOf un a * intOf un b) / 2 ^ 32)
/-- imad: one saturation, on the exact sum (R135) -/
def imadOp (sat un : Bool) (a b c : Word) : Word := writeInt sat un (intOf un a * intOf un b + intOf un c)

/-- idiv (R136) -/
def idivOp (sat un : Bool) (a b : Word) : Word :=
  if b = 0 then
    if un then 0xFFFFFFFF else if 0 ≤ a.toInt then 0x7FFFFFFF else 0x80000000
  else if !un && a == 0x80000000 && b == 0xFFFFFFFF then
    if sat then 0x7FFFFFFF else 0x80000000
  else BitVec.ofInt 32 ((intOf un a).tdiv (intOf un b))

/-- irem (R136) -/
def iremOp (un : Bool) (a b : Word) : Word :=
  if b = 0 then a else BitVec.ofInt 32 ((intOf un a).tmod (intOf un b))

/-- iabs (R135) -/
def iabsOp (sat : Bool) (a : Word) : Word := writeInt sat false a.toInt.natAbs
/-- ineg (R135) -/
def inegOp (sat : Bool) (a : Word) : Word := writeInt sat false (-a.toInt)
/-- imin (R135) -/
def iminOp (un : Bool) (a b : Word) : Word := if intOf un b < intOf un a then b else a
/-- imax (R135) -/
def imaxOp (un : Bool) (a b : Word) : Word := if intOf un a < intOf un b then b else a

/-- shl: 0 when the amount is 32 or more (R137) -/
def shlOp (a b : Word) : Word := if 32 ≤ b.toNat then 0 else a <<< b.toNat
/-- shr (R137) -/
def shrOp (a b : Word) : Word := if 32 ≤ b.toNat then 0 else a >>> b.toNat
/-- sar: copies of bit 31 when the amount is 32 or more (R137) -/
def sarOp (a b : Word) : Word := a.sshiftRight (min b.toNat 32)
/-- rotl (R137) -/
def rotlOp (a b : Word) : Word := a.rotateLeft (b.toNat % 32)

/-- The number of 1 bits. -/
def popc {w : Nat} (a : BitVec w) : Nat := (List.range w).countP fun k => a.getLsbD k
/-- popc (R137) -/
def popcOp (a : Word) : Word := BitVec.ofNat 32 (popc a)
/-- clz: 32 for 0 (R137) -/
def clzOp (a : Word) : Word := BitVec.ofNat 32 (if a = 0 then 32 else 31 - Nat.log2 a.toNat)
/-- ctz: 32 for 0 (R137) -/
def ctzOp (a : Word) : Word := BitVec.ofNat 32 (((List.range 32).find? fun k => a.getLsbD k).getD 32)
/-- brev: bit k moves to bit 31 - k (R137) -/
def brevOp (a : Word) : Word := a.reverse

/-- The position and the number of bits of a field of bfe and bfi: pos = min(B, 32), n = min(pos + min(C, 32), 32) - pos (R138). -/
def fieldRange (b c : Word) : Nat × Nat :=
  let pos := min b.toNat 32
  (pos, min (pos + min c.toNat 32) 32 - pos)

/-- bfe (R138) -/
def bfeOp (un : Bool) (a b c : Word) : Word :=
  let r := fieldRange b c
  if r.2 = 0 then 0
  else
    let f := (a.toNat / 2 ^ r.1) % 2 ^ r.2
    if !un && f.testBit (r.2 - 1) then BitVec.ofInt 32 ((f : Int) - 2 ^ r.2) else BitVec.ofNat 32 f

/-- bfi: `d` is the old value of D (R138) -/
def bfiOp (d a b c : Word) : Word :=
  let r := fieldRange b c
  let m : Word := BitVec.ofNat 32 ((2 ^ r.2 - 1) * 2 ^ r.1)
  (d &&& ~~~m) ||| ((a <<< r.1) &&& m)

/-- CMPOP: the condition of a CMP code on an order of the operands (R54). -/
def cmpOp (cmp : BitVec 3) (lt eq : Bool) : Bool :=
  match cmp.toNat with
  | 0 => eq
  | 1 => !eq
  | 2 => lt
  | 3 => lt || eq
  | 4 => !lt && !eq
  | _ => !lt

/-- The outcome of icmp and brc (R95, R139). -/
def icmpOp (cmp : BitVec 3) (un : Bool) (a b : Word) : Bool :=
  cmpOp cmp (decide (intOf un a < intOf un b)) (a == b)

/-- The sum of iaddc and its carry (R139). -/
def iaddcOp (a b : Word) (cin : Bool) : Word × Bool :=
  let s := a.toNat + b.toNat + cin.toNat
  (BitVec.ofNat 32 s, decide (2 ^ 32 ≤ s))

/-- The result of add64 and sub64 (R140). -/
def write64 (sat un : Bool) (r : Int) : DWord := BitVec.ofInt 64 (if sat then satInt 64 un r else r)
/-- add64 (R140) -/
def add64Op (sat un : Bool) (a b : DWord) : DWord := write64 sat un (intOf un a + intOf un b)
/-- sub64 (R140) -/
def sub64Op (sat un : Bool) (a b : DWord) : DWord := write64 sat un (intOf un a - intOf un b)
/-- lea (R140) -/
def leaOp (s : Nat) (a b : Word) : Word := a + (b <<< s)
/-- lea64 (R140) -/
def lea64Op (un : Bool) (s : Nat) (a : DWord) (b : Word) : DWord :=
  a + ((if un then b.zeroExtend 64 else b.signExtend 64) <<< s)

end Sys2Proof.Machine
end

