-- ==== Sys2Proof/WellFormed.lean ====
section
/-! DEFINITION. Which instruction words are instructions: the operand bytes a position admits (R59, R61 and each instruction's own rules) and the modifier sub-fields an instruction reads (R54, R55). A word that breaks the first raises 0x002, one that breaks the second 0x003 (R67, R68). -/

namespace Sys2Proof

/-- A trap or fault cause, 0x000 to 0x1FF (R21, R363). -/
abbrev Cause := BitVec 9

/-- What a position of an instruction holds (R59, R61, R127, R132, R299). -/
inductive Kind where
  /-- not used: 0x58 -/
  | unused
  /-- a 32-bit source -/
  | src
  /-- a 32-bit source of format I or M, where no immediate stands (R59) -/
  | srcNoImm
  /-- a 64-bit source (R61) -/
  | src64
  /-- a window or constant pair -/
  | pair
  /-- a window or constant pair, or zr (R366) -/
  | pairZr
  /-- a 32-bit destination -/
  | dst
  /-- a 64-bit destination: an even window register or zr -/
  | dst64
  /-- a window register or zr -/
  | winZr
  /-- a window register -/
  | win
  /-- an even window register -/
  | winEven
  /-- a predicate selector whose bit 3 inverts -/
  | predInv
  /-- a predicate selector without bit 3 -/
  | pred
  /-- a staging queue q4 to q7 -/
  | queue
  deriving DecidableEq, Repr

/-- Whether a position of kind `k` admits the byte `b`. -/
def Kind.admits (k : Kind) (b : Byte) : Bool :=
  let n := b.toNat
  match k with
  | .unused   => n == 0x58
  | .src      => n < 0x50 || n == 0x51 || (0x53 ≤ n && n ≤ 0x5A) || 0x80 ≤ n
  | .srcNoImm => n < 0x50 || n == 0x51 || (0x53 ≤ n && n ≤ 0x5A)
  | .src64    => (n < 0x50 && n % 2 == 0) || n == 0x58 || 0x80 ≤ n
  | .pair     => n < 0x50 && n % 2 == 0
  | .pairZr   => (n < 0x50 && n % 2 == 0) || n == 0x58
  | .dst      => n < 0x40 || n == 0x50 || n == 0x52 || (0x54 ≤ n && n ≤ 0x58)
  | .dst64    => (n < 0x40 && n % 2 == 0) || n == 0x58
  | .winZr    => n < 0x40 || n == 0x58
  | .win      => n < 0x40
  | .winEven  => n < 0x40 && n % 2 == 0
  | .predInv  => n < 0x10
  | .pred     => n < 0x08
  | .queue    => 0x54 ≤ n && n ≤ 0x57

/-- Whether a block-or-trap bit may be set beside the byte `b` of a position of kind `k`: only for a window register source (R55, R132). -/
def Kind.btOk (k : Kind) (bt : Bool) (b : Byte) : Bool :=
  !bt || ((k == .src || k == .src64 || k == .pair) && b.toNat < 0x40)

/-- The cause of a word: 0x002 when its operands are not admitted, otherwise 0x003 when its modifiers are not, otherwise none (R68). -/
def causeOf (operands modifiers : Bool) : Option Cause :=
  if !operands then some 0x002 else if !modifiers then some 0x003 else none

/-- What an R-format instruction admits (R54, R55). `vars` is how many VAR codes it lists. -/
structure RSpec where
  d     : Kind := .dst
  a     : Kind := .src
  b     : Kind := .unused
  c     : Kind := .unused
  types : List Nat := [0]
  rnd   : Bool := false
  sat   : Bool := false
  un    : Bool := false
  cmp   : Bool := false
  vars  : Nat := 1

/-- The static checks of a format-R word. -/
def RSpec.check (s : RSpec) (f : RF) : Option Cause :=
  causeOf (s.d.admits f.d && s.a.admits f.a && s.b.admits f.b && s.c.admits f.c)
    (s.a.btOk f.bta f.a && s.b.btOk f.btb f.b && s.c.btOk f.btc f.c
      && s.types.contains f.type.toNat && (s.rnd || f.rnd == 0) && (s.sat || !f.sat)
      && (s.un || !f.un) && (if s.cmp then decide (f.cmp.toNat ≤ 5) else f.cmp == 0)
      && decide (f.var.toNat < s.vars))

/-- The static checks of a format-I word with destination kind `d` (R56). -/
def checkI (d : Kind) (f : IF) : Option Cause :=
  causeOf (d.admits f.d && Kind.srcNoImm.admits f.a) true

/-- The number of registers that a global SZ code moves (R57). -/
def szRegs (sz : BitVec 4) : Nat :=
  match sz.toNat with
  | 5 => 2 | 6 => 4 | 7 => 8 | 8 => 16 | _ => 1

/-- A register range of `n` registers from window register `r`: a multiple of `n` that does not pass w63 (R57). -/
def rangeOk (r n : Nat) : Bool := r % n == 0 && r + n ≤ 64

/-- Whether DATA of ld or st is admitted (R57, R236). `const` is whether a constant is, for .w1. -/
def dataOk (store : Bool) (f : MF) : Bool :=
  let n := f.data.toNat
  if n < 0x40 then rangeOk n (szRegs f.sz)
  else if n < 0x50 then store && f.sz.toNat == 4
  else n == 0x58 && f.sz.toNat < 5

/-- Whether DATA of atom or red is admitted (R258). -/
def atomDataOk (isAtom : Bool) (f : MF) : Bool :=
  let n := f.data.toNat
  let cas := isAtom && f.ctl.toNat == 0xA
  let w2 := f.sz.toNat == 5
  let regs := (if w2 then 2 else 1) * (if cas then 2 else 1)
  if n < 0x40 then rangeOk n regs
  else if n < 0x50 then !isAtom && (!w2 || n % 2 == 0)
  else n == 0x58 && !cas

/-- Whether DATA of a field load or store is admitted (R59, R192). -/
def fieldDataOk (store : Bool) (f : MF) : Bool :=
  let n := f.data.toNat
  let even := f.sz.toNat % 4 != 3 || n % 2 == 0
  if n < 0x40 then even else n < 0x50 && store && even

/-- Whether BASE of a global form is admitted: an even window register or an even constant (R57, R59). -/
def baseOk (b : Byte) : Bool := Kind.pair.admits b
/-- Whether BASE of a field form is admitted: a window register or a constant (R59, R192). -/
def fieldBaseOk (b : Byte) : Bool := b.toNat < 0x50

/-- CLS of a format-M word (R57). -/
def MF.cls (f : MF) : BitVec 2 := f.ctl.extractLsb' 0 2
/-- REUSE of a format-M word (R57). -/
def MF.reuse (f : MF) : BitVec 2 := f.ctl.extractLsb' 2 2

/-- The static checks of ld, st, pf, kld and kst: DATA, BASE, and the SZ and CLS codes the instruction admits. -/
def checkM (dataOk : Bool) (szs clss : List Nat) (f : MF) : Option Cause :=
  causeOf (dataOk && baseOk f.base) (szs.contains f.sz.toNat && clss.contains f.cls.toNat)

/-- The static checks of a field form other than fatom: CLS must be 00 (R192). -/
def checkField (dataOk : Bool) (szs : List Nat) (f : MF) : Option Cause :=
  causeOf (dataOk && fieldBaseOk f.base) (szs.contains f.sz.toNat && f.cls == 0)

/-- What a scale instruction uses of the layout of R164. -/
structure KSpec where
  k1   : Bool := false
  k2   : Bool := false
  k3   : Bool := false
  oa   : Kind := .unused
  ob   : Kind := .unused
  vars : Nat := 1

/-- The static checks of a scale instruction: unused fields and operand bytes raise 0x003 (R164). -/
def KSpec.check (s : KSpec) (f : KF) : Option Cause :=
  let byteOk (k : Kind) (b : Byte) := k == .unused || k.admits b
  causeOf (byteOk s.oa f.oa && byteOk s.ob f.ob)
    (f.r1 == 0 && f.r2 == 0 && f.r3 == 0 && f.r4 == 0
      && (s.k1 || f.k1 == 0) && (s.k2 || f.k2 == 0) && (s.k3 || f.k3 == 0)
      && (s.oa != .unused || f.oa == 0x58) && (s.ob != .unused || f.ob == 0x58)
      && s.oa.btOk f.bta f.oa && s.ob.btOk f.btb f.ob && decide (f.var.toNat < s.vars))

/-- The static checks of an mma word; `four` is a 4-bit form, whose KB must be a multiple of 4 (R154, R202). -/
def checkMma (four : Bool) (f : MmaF) : Option Cause :=
  causeOf (!four || f.kb.toNat % 4 == 0) (f.r1 == 0 && f.r2 == 0)

/-- The register count R of acrd, acwr and acst (R212). -/
def AcF.regs (f : AcF) : Nat := 2 ^ f.cnt.toNat

/-- The static checks of acrd, acwr and acst; DR is checked against 2^CNT registers for a reserved CNT too (R212; DESIGN CHOICE, log 22). -/
def checkAc (dr : Bool) (types : List Nat) (rndOk sceOk addOk : Bool) (f : AcF) : Option Cause :=
  causeOf (dr && Kind.src.admits f.ra && Kind.src.admits f.ca && (!(f.sce && sceOk) || Kind.src.admits f.sc))
    (f.res == 0 && types.contains f.type.toNat && decide (f.cnt.toNat ≤ 4)
      && (f.rnd == 0 || (rndOk && f.type.toNat ≤ 6)) && (!f.sce || sceOk) && (f.sce || f.sc == 0x58)
      && (!f.add || addOk))

/-- The variant of an X layout: bits [1:0]. -/
def XF.varBits (f : XF) : Nat := f.lo.toNat % 4

/-- The static checks of an X layout of four operand bytes: a byte the layout does not use is reserved and must be 0, so it is given as none (R58). `lo` bounds the low sixteen bits. -/
def checkX (d a b c : Option Kind) (vars : Nat) (f : XF) : Option Cause :=
  let byteOk (k : Option Kind) (b : Byte) := k.elim true fun k => k.admits b
  let zeroOk (k : Option Kind) (b : Byte) := k.isSome || b == 0
  causeOf (byteOk d f.d && byteOk a f.a && byteOk b f.b && byteOk c f.c)
    (zeroOk d f.d && zeroOk a f.a && zeroOk b f.b && zeroOk c f.c && decide (f.lo.toNat < vars))

/-- The static checks of a barrier or channel instruction (R299). -/
def checkSync (d a : Kind) (channel : Bool) (vars : Nat) (f : SyncF) : Option Cause :=
  causeOf (d.admits f.d && a.admits f.a)
    (f.res == 0 && decide (f.var.toNat < vars) && (!channel || f.n.toNat < 32) && a.btOk f.bta f.a)

/-- The static checks of cvt (R147). -/
def checkCvt (f : CvtF) : Option Cause :=
  let int (t : BitVec 4) := 1 ≤ t.toNat && t.toNat ≤ 3
  let ty (t : BitVec 4) := 1 ≤ t.toNat && t.toNat ≤ 9
  causeOf (Kind.dst.admits f.d && Kind.src.admits f.a && Kind.unused.admits f.b && Kind.unused.admits f.c)
    (f.res == 0 && Kind.src.btOk f.bta f.a && ty f.type && ty f.stype
      && (!f.un || int f.type) && (!f.sun || int f.stype) && (!f.sat || (int f.type && int f.stype))
      && (f.rnd == 0 || !((int f.type && int f.stype) || 7 ≤ f.type.toNat)))

/-- The modifier rules of pk and upk (R149, R150). -/
def packModsOk (f : RF) : Bool :=
  let t := f.type.toNat
  (!f.un || t == 1 || t == 2) && (!f.sat || t == 1 || t == 2 || t == 10) && (f.rnd == 0 || t == 5 || t == 6)

/-- The modifier rules of gred (R108). -/
def gredModsOk (f : RF) : Bool :=
  let fl := f.type.toNat == 4
  let add := f.var.toNat == 0
  (!f.sat || (!fl && add)) && (f.rnd == 0 || (fl && add)) && (!f.un || !fl) && !(fl && f.var.toNat == 3)

/-- A further modifier rule, which gives 0x003 where the checks before it gave no cause. -/
def andMods (c : Option Cause) (ok : Bool) : Option Cause :=
  c.orElse fun _ => if ok then none else some 0x003

/-- The static checks of movs: the selector byte is 0x80 to 0x8F (0x002), the selector is not reserved and VAR is the one its row gives (0x003) (R126). -/
def checkMovs (f : RF) : Option Cause :=
  let sel := f.a.toNat - 0x80
  let pair := sel == 8 || sel == 9
  causeOf ((if f.var.toNat == 1 then Kind.dst64.admits f.d else Kind.dst.admits f.d)
      && 0x80 ≤ f.a.toNat && f.a.toNat ≤ 0x8F && Kind.unused.admits f.b && Kind.unused.admits f.c)
    (!f.bta && !f.btb && !f.btc && f.type == 0 && f.rnd == 0 && !f.sat && !f.un && f.cmp == 0
      && sel ≤ 10 && f.var.toNat == (if pair then 1 else 0))

/-- The static checks of rinv: the operand rules are those of the variants that R346 describes; its reserved variant has none (DEDUCED, log 13). -/
def checkRinv (f : RinvF) : Option Cause :=
  let reply := f.var.toNat == 2
  let n := f.narg.toNat
  causeOf (f.var.toNat == 3
      || (if reply then Kind.unused.admits f.d else Kind.winEven.admits f.d)
      && (if reply then Kind.src64.admits f.a else Kind.src.admits f.a)
      && Kind.win.admits f.b && f.b.toNat + n ≤ 64)
    (f.res == 0 && decide (f.var.toNat < 3) && (if reply then n == 1 && f.pri == 0 else decide (n ≤ 12)))

/-- The types of integer, of FP32 and of packed instructions (R130). -/
def intTypes : List Nat := [0, 3]
def floatTypes : List Nat := [0, 4]
def packTypes : List Nat := [1, 2, 5, 6, 7, 8, 9, 10]

/-- R134: two sources. -/
def ab : RSpec := { b := .src, types := intTypes }
/-- R134: one source. -/
def a1 : RSpec := { types := intTypes }
/-- R141: two FP32 sources. -/
def fab : RSpec := { b := .src, types := floatTypes }

/-- The packed instructions: .lo and .hi keep the other half of D, which must then be a window register or zr (R133, R141). -/
def packed (c : Kind) (f : RF) : Option Cause :=
  RSpec.check { d := if f.var == 1 || f.var == 2 then .winZr else .dst, b := .src, c := c, rnd := true, vars := 3 } f

/-- The static checks of a word that its opcode and format made into `i`: none when it is an instruction, otherwise the cause (R67). An event has no word and no check. Byte A of mstat.wait, of which R218 says nothing, must hold 0x58 as in mstat.get (R54, R218; DESIGN CHOICE, log 21). -/
def Instr.check : Instr → Option Cause
  | .iadd f | .isub f | .imul f | .idiv f => { ab with sat := true, un := true : RSpec }.check f
  | .imulh f | .irem f | .imin f | .imax f => { ab with un := true : RSpec }.check f
  | .imad f => { ab with c := .src, sat := true, un := true : RSpec }.check f
  | .iabs f | .ineg f => { a1 with sat := true : RSpec }.check f
  | .and f | .or f | .xor f | .andn f | .shl f | .shr f | .sar f | .rotl f => ab.check f
  | .not f | .popc f | .clz f | .ctz f | .brev f => a1.check f
  | .bfe f => { ab with c := .src, un := true : RSpec }.check f
  | .bfi f => { ab with d := .winZr, c := .src : RSpec }.check f
  | .sel f => { ab with c := .predInv : RSpec }.check f
  | .icmp f => { ab with d := if f.var == 0 then .pred else .dst, un := true, cmp := true, vars := 2 : RSpec }.check f
  | .iaddc f => { ab with c := .pred : RSpec }.check f
  | .add64 f | .sub64 f => { ab with d := .dst64, a := .src64, b := .src64, sat := true, un := true : RSpec }.check f
  | .lea f => { ab with vars := 4 : RSpec }.check f
  | .lea64 f => { ab with d := .dst64, a := .src64, un := true, vars := 4 : RSpec }.check f
  | .iaddI f | .isubI f | .imulI f | .imulhI f | .idivI f | .iremI f | .iminI f | .imaxI f
  | .andI f | .orI f | .xorI f | .andnI f | .shlI f | .shrI f | .sarI f | .rotlI f | .leaI f
  | .faddI f | .fsubI f | .fmulI f | .fminI f | .fmaxI f => checkI .dst f
  | .icmpI f | .fcmpI f => checkI .pred f
  | .fadd f | .fsub f | .fmul f | .fscale f => { fab with rnd := true : RSpec }.check f
  | .ffma f => { fab with c := .src, rnd := true : RSpec }.check f
  | .fmin f | .fmax f => fab.check f
  | .fabs f | .fneg f | .rcpe f | .rsqrte f | .exp2e f | .log2e f => { a1 with types := floatTypes : RSpec }.check f
  | .fcmp f => { fab with d := if f.var == 0 then .pred else .dst, cmp := true, vars := 2 : RSpec }.check f
  | .fclass f => { a1 with types := [0, 4, 5, 6] : RSpec }.check f
  | .frnd f | .fsqrt f => { a1 with types := floatTypes, rnd := true : RSpec }.check f
  | .hadd2 f | .hmul2 f | .bfadd2 f | .bfmul2 f => packed .unused f
  | .hfma2 f | .bffma2 f => packed .src f
  | .cvt f => checkCvt f
  | .pk f => andMods ({ ab with d := .winZr, types := packTypes, rnd := true, sat := true, un := true : RSpec }.check f) (packModsOk f)
  | .upk f => andMods ({ ab with types := packTypes, un := true : RSpec }.check f) (packModsOk f)
  | .alnb f => { a1 with b := if f.var == 1 then .unused else .src, types := [0, 4, 6, 7, 8], vars := 2 : RSpec }.check f
  | .mov f => RSpec.check { d := if f.var == 1 then .dst64 else .dst, a := if f.var == 1 then .src64 else .src, vars := 2 } f
  | .movc f => RSpec.check { d := if f.var == 1 then .dst64 else .dst, vars := 2 } f
  | .movs f => checkMovs f
  | .movi f => causeOf (Kind.dst.admits f.d && Kind.unused.admits f.a) true
  | .movh f => checkI .winEven f
  | .pand f | .por f | .pxor f => RSpec.check { d := .pred, a := .predInv, b := .predInv } f
  | .pnot f => RSpec.check { d := .pred, a := .predInv } f
  | .pmov f =>
    match f.var.toNat with
    | 0 => RSpec.check { d := .pred, vars := 4 } f
    | 1 => RSpec.check { a := .predInv, vars := 4 } f
    | 2 => RSpec.check { a := .unused, vars := 4 } f
    | _ => RSpec.check { d := .unused, vars := 4 } f
  | .br f | .call f => causeOf true (f.res == 0)
  | .brc f => causeOf (Kind.src.admits f.a && Kind.src.admits f.b)
      (Kind.src.btOk f.bta f.a && Kind.src.btOk f.btb f.b && decide (f.cmp.toNat ≤ 5))
  | .brx f | .callx f => RSpec.check { d := .unused, a := .pair } f
  | .ret f | .exit f | .nop f => RSpec.check { d := .unused, a := .unused } f
  | .yield f | .gsync f => RSpec.check { d := .unused } f
  | .shfl f => RSpec.check { b := .src, c := .src, vars := 4 } f
  | .vote f => RSpec.check { b := .src, vars := 4 } f
  | .gred f => andMods (RSpec.check { b := .src, types := [0, 3, 4], rnd := true, sat := true, un := true, vars := 4 } f) (gredModsOk f)
  | .ld f => checkM (dataOk false f) [0, 1, 2, 3, 4, 5, 6, 7, 8] [0, 1, 2] f
  | .st f => checkM (dataOk true f) [0, 2, 4, 5, 6, 7, 8] [0, 1, 2] f
  | .pf f => checkM (f.data == 0x58) [4] [0, 2] f
  | .kld f => checkM (f.data.toNat < 0x40) [5] [0, 2] f
  | .kst f => checkM (f.data.toNat < 0x40) [5] [0, 1, 2] f
  | .atom f => causeOf (atomDataOk true f && baseOk f.base)
      ([4, 5].contains f.sz.toNat && f.ctl.toNat ≤ 0xA && !(f.ctl == 1 && f.sz == 5))
  | .red f => causeOf (atomDataOk false f && baseOk f.base)
      ([4, 5].contains f.sz.toNat && f.ctl.toNat ≤ 8 && !(f.ctl == 1 && f.sz == 5))
  | .fld f => checkField (fieldDataOk false f) [0, 1, 2, 3, 6, 7, 10, 11] f
  | .fst f => checkField (fieldDataOk true f) [0, 1, 2, 3, 14, 15] f
  | .fatom f => causeOf ((if f.data.toNat < 0x40 then f.ctl.toNat != 0xA || f.data.toNat % 2 == 0
        else f.data == 0x58 && f.ctl.toNat != 0xA) && fieldBaseOk f.base)
      (f.sz.toNat == 2 && f.ctl.toNat ≤ 0xA)
  | .feset f | .feclr f => checkField (f.data == 0x58) [2] f
  | .fetest f => checkField (f.data.toNat < 0x40) [2] f
  | .kmov f | .krcp f => KSpec.check { k1 := true, k2 := true } f
  | .kset f => KSpec.check { k1 := true, oa := if f.var == 0 then .src64 else .src, vars := 2 } f
  | .kmul f | .kmax f | .kmin f => KSpec.check { k1 := true, k2 := true, k3 := true } f
  | .kcvtf f => KSpec.check { k2 := true, oa := .dst, ob := .src } f
  | .kcvtk f => KSpec.check { k1 := true, oa := .src, ob := .src } f
  | .kbind f => KSpec.check { k1 := true, oa := if f.var == 0 then .unused else .src, vars := 4 } f
  | .ktag f => KSpec.check { k2 := true, oa := .dst, vars := 2 } f
  | .kclr f => KSpec.check { k1 := true } f
  | .ldmx f => causeOf (f.data.toNat < 0x40 && f.data.toNat % 16 == 0 && Kind.winEven.admits f.dbase && Kind.winEven.admits f.sbase)
      (f.res == 0 && f.sc != 3 && (f.cls == 0 || f.cls == 2))
  | .mmaI4x f | .mmaI4 f => checkMma true f
  | .mmaI8 f | .mmaE4m3 f | .mmaE5m2 f | .mmaE2m1 f | .mmaBf16 f => checkMma false f
  | .acwin f => checkX none (some .src) (some .src) (some .src) 1 f
  | .acrd f => checkAc (rangeOk f.dr.toNat f.regs) [4, 5, 6, 7, 8] true true false f
  | .acwr f => checkAc (rangeOk f.dr.toNat f.regs) [0, 4] false false true f
  | .acst f => checkAc (Kind.winEven.admits f.dr) [4, 5, 6, 7, 8] true true false f
  | .aczero f => checkX none (some .src) none none 3 f
  | .mstat f => checkX (some .winZr) (some (if f.varBits == 1 || f.varBits == 2 then .src else .unused)) none none 4 f
  | .amode f => causeOf true (f.r1 == 0 && f.r2 == 0)
  | .resize f => checkX (some .winZr) (some .src) none none 2 f
  | .barinit f => checkSync .dst64 .src false 1 f
  | .barlink f => checkSync .unused .pair false 1 f
  | .bararr f => checkSync .winZr .src false 2 f
  | .bartry f => checkSync .pred .src false 2 f
  | .barwait f | .bardrop f => checkSync .unused .unused false 1 f
  | .bartest f => checkSync .pred .unused false 1 f
  | .chsend f => checkSync .unused .queue true 1 f
  | .chrecv f => checkSync .queue .unused true 1 f
  | .chtry f => checkSync .pred .queue true 2 f
  | .launch f => checkX (some .dst64) (some .pair) none none 2 f
  | .spawn f => checkX (some .winZr) (some .pair) (some .win) none 2 f
  | .rinv f => checkRinv f
  | .rret f => checkX (some .winEven) (some .src64) none none 1 f
  | .hndalloc f => checkX (some .winEven) (some .src) none none 1 f
  | .hndpass f | .hndfree f => checkX (some .unused) (some .pair) none none 1 f
  | .kvgive f => checkX (some .pair) (some .src) (some .src) (some .unused) 1 f
  | .kvtake f => checkX (some .pair) (some .src) (some .unused) (some (if f.varBits == 1 then .pred else .unused)) 2 f
  | .edrain f => checkX (some .winZr) none none none 2 f
  | .trap f => causeOf true (f.res == 0)
  | .rfe f => causeOf true (f.code == 0 && f.res == 0)
  | .csrr f => causeOf (Kind.dst64.admits f.d && Kind.unused.admits f.a) (f.res == 0)
  | .csrw f => causeOf (Kind.unused.admits f.d && Kind.pairZr.admits f.a) (f.res == 0)
  | .dtload f => checkX (some (if f.varBits == 0 then .pair else .unused)) none none none 3 f
  | .preq f => causeOf (Kind.winZr.admits f.d && Kind.pair.admits f.a && Kind.src.admits f.b && Kind.src.admits f.c && Kind.pair.admits f.e)
      (f.res == 0 && decide (f.var.toNat < 3))
  | .tlbinv f => checkX (some (if f.varBits == 0 then .pair else .unused)) (some (if f.varBits == 0 then .src else .unused)) none none 3 f
  | .wspill f | .wfill f => checkX (some .winZr) none none none 1 f
  | .brk f => checkX (some .unused) none none none 1 { f with d := 0x58 }
  | .mark f => causeOf (if f.var == 0 then Kind.src.admits f.a else Kind.unused.admits f.a)
      (f.res == 0 && decide (f.var.toNat < 3) && (f.var == 0 || f.tag == 0))
  | _ => none

/-- An instruction is well formed when its word raises none of the causes 0x002 and 0x003 (R67). -/
def Instr.WellFormed (i : Instr) : Bool := i.check.isNone

end Sys2Proof
end

