-- ==== Sys2Proof/Decode.lean ====
section
/-! DEFINITION. Decoding: the decode tables (R62, R64, R65), the fields of an instruction word by layout (R52 to R58), the instruction a word stands for or the cause it raises (R67, R68), the clause header (R46 to R50), and the encoder. -/

namespace Sys2Proof

/-- Why a word is not an instruction (R67). -/
inductive Reject where
  /-- 0x001, an opcode that the decode table leaves unmapped -/
  | illegalInstruction
  /-- 0x004, a format that the opcode does not admit -/
  | reservedFormat
  /-- 0x002, an operand byte that is not admitted in its position -/
  | illegalOperand
  /-- 0x003, a reserved modifier -/
  | reservedModifier
  deriving DecidableEq, Repr

/-- The cause code of a rejection (R67). -/
def Reject.cause : Reject → Cause
  | .illegalInstruction => 0x001
  | .illegalOperand     => 0x002
  | .reservedModifier   => 0x003
  | .reservedFormat     => 0x004

/-- The formats of R52. -/
inductive Format where
  | r
  | i
  | m
  | x
  deriving DecidableEq, Repr

/-- The code of a format in [49:48] (R52). -/
def Format.code : Format → BitVec 2
  | .r => 0 | .i => 1 | .m => 2 | .x => 3

/-- The format that a code names (R52). -/
def formatOf (c : BitVec 2) : Format :=
  if c == 0 then .r else if c == 1 then .i else if c == 2 then .m else .x

/-! The opcode map and the decode tables -/

/-- The bases of the ten families of the LV3 map and how many opcodes each holds (R62). -/
def lv3Families : List (Nat × Nat) :=
  [(0x000, 33), (0x080, 23), (0x0C0, 4), (0x100, 10), (0x140, 13),
   (0x200, 11), (0x240, 14), (0x280, 15), (0x300, 20), (0x340, 11)]

/-- Whether the LV3 table maps opcode `n` (R62). -/
def lv3Mapped (n : Nat) : Bool := lv3Families.any fun f => f.1 ≤ n && n < f.1 + f.2

/-- The operation that the LV2 table gives opcode `n` (R65). -/
def lv2Lookup (n : Nat) : Option Nat :=
  if n == 0x020 || n == 0x0C3 || n == 0x24D then none
  else if 0x280 ≤ n && n < 0x284 then some (n + 1)
  else if 0x284 ≤ n && n < 0x28C then some (n + 2)
  else if 0x28C ≤ n && n < 0x28F then none
  else if n == 0x30C then some 0x313
  else if 0x30D ≤ n && n < 0x314 then none
  else if 0x344 ≤ n && n < 0x34A then some (n + 1)
  else if n == 0x34A then none
  else if lv3Mapped n then some n else none

/-- The LV3 operation that a decode table gives opcode `n`, if it maps it (R64). -/
def DecodeTable.lookup (t : DecodeTable) (n : Nat) : Option Nat :=
  match t with
  | .lv3 => if lv3Mapped n then some n else none
  | .lv2 => lv2Lookup n
  | .image es =>
    let e := es.getD n 0
    if e.getLsbD 15 then some (e.extractLsb' 0 10).toNat else none

/-- Whether an image of a decode table is admitted: no reserved bit set, and every mapped entry names a mapped LV3 opcode (R64). -/
def imageEntryOk (e : BitVec 16) : Bool :=
  e.extractLsb' 10 5 == 0 && (!e.getLsbD 15 || lv3Mapped (e.extractLsb' 0 10).toNat)

/-- The engine classes of a clause header (R46). -/
inductive Class where
  | alu
  | mem
  | mat
  | sys
  deriving DecidableEq, Repr

/-- What the opcode map and R50 say of an operation's place in a clause. -/
inductive OpPlace where
  /-- belongs to one class and may stand anywhere in its clause -/
  | within (c : Class)
  /-- nop: every class -/
  | anyClass
  /-- a control transfer: ends a clause of any class -/
  | transfer
  /-- trap and rfe: SYS, and must end their clause -/
  | sysEnd
  deriving DecidableEq, Repr

/-- The place of LV3 operation `op` (R50, R62). -/
def opPlace (op : Nat) : OpPlace :=
  if op < 0x140 then .within .alu
  else if op < 0x148 then .transfer
  else if op == 0x148 then .anyClass
  else if op < 0x200 then .within .alu
  else if op < 0x240 then .within .mem
  else if op == 0x24A || op == 0x24B || op == 0x24D then .within .mem
  else if op < 0x300 then .within .mat
  else if op == 0x340 || op == 0x341 then .sysEnd
  else .within .sys

/-! The fields of a word -/

/-- The bits `[lo + len - 1 : lo]` of an instruction word. -/
def fieldOf (w : DWord) (lo len : Nat) : BitVec len := w.extractLsb' lo len
/-- One bit of an instruction word. -/
def flagOf (w : DWord) (n : Nat) : Bool := w.extractLsb' n 1 == 1
/-- A flag as a field of one bit. -/
def bitOf (b : Bool) : BitVec 1 := BitVec.ofBool b

/-- OPC of a word (R52). -/
def opcodeField (w : DWord) : Nat := (fieldOf w 54 10).toNat
/-- FMT of a word (R52). -/
def formatField (w : DWord) : Format := formatOf (fieldOf w 48 2)
/-- The guard of a word (R53). -/
def guardField (w : DWord) : Guard := ⟨flagOf w 53, fieldOf w 50 3⟩

/-- A word from its opcode, guard, format and the 48 bits the format lays out (R52). -/
def packWord (op : Nat) (g : Guard) (f : Format) (p : BitVec 48) : DWord :=
  BitVec.ofNat 10 op ++ (bitOf g.neg ++ (g.pred ++ (f.code ++ p)))

def unpackR (w : DWord) : RF where
  g := guardField w
  d := fieldOf w 40 8
  a := fieldOf w 32 8
  b := fieldOf w 24 8
  c := fieldOf w 16 8
  bta := flagOf w 15
  btb := flagOf w 14
  btc := flagOf w 13
  type := fieldOf w 9 4
  rnd := fieldOf w 7 2
  sat := flagOf w 6
  un := flagOf w 5
  cmp := fieldOf w 2 3
  var := fieldOf w 0 2

def RF.payload (f : RF) : BitVec 48 :=
  f.d ++ (f.a ++ (f.b ++ (f.c ++ (bitOf f.bta ++ (bitOf f.btb ++ (bitOf f.btc ++ (f.type ++
    (f.rnd ++ (bitOf f.sat ++ (bitOf f.un ++ (f.cmp ++ f.var)))))))))))

/-- The modifier bits of cvt: TYPE [12:9], RND [8:7], SAT [6], UN [5], STYPE [4:1], SUN [0], and [14:13] zero (R147). -/
def unpackCvt (w : DWord) : CvtF where
  g := guardField w
  d := fieldOf w 40 8
  a := fieldOf w 32 8
  b := fieldOf w 24 8
  c := fieldOf w 16 8
  bta := flagOf w 15
  res := fieldOf w 13 2
  type := fieldOf w 9 4
  rnd := fieldOf w 7 2
  sat := flagOf w 6
  un := flagOf w 5
  stype := fieldOf w 1 4
  sun := flagOf w 0

def CvtF.payload (f : CvtF) : BitVec 48 :=
  f.d ++ (f.a ++ (f.b ++ (f.c ++ (bitOf f.bta ++ (f.res ++ (f.type ++ (f.rnd ++ (bitOf f.sat ++
    (bitOf f.un ++ (f.stype ++ bitOf f.sun))))))))))

def unpackI (w : DWord) : IF := ⟨guardField w, fieldOf w 40 8, fieldOf w 32 8, fieldOf w 0 32⟩
def IF.payload (f : IF) : BitVec 48 := f.d ++ (f.a ++ f.imm)

def unpackM (w : DWord) : MF :=
  ⟨guardField w, fieldOf w 40 8, fieldOf w 32 8, fieldOf w 8 24, fieldOf w 4 4, fieldOf w 0 4⟩
def MF.payload (f : MF) : BitVec 48 := f.data ++ (f.base ++ (f.ofs ++ (f.ctl ++ f.sz)))

/-- The layout of R93. -/
def unpackBr (w : DWord) : BrF :=
  ⟨guardField w, fieldOf w 8 40, fieldOf w 0 8⟩
def BrF.payload (f : BrF) : BitVec 48 :=
  f.wofs ++ (f.res)

/-- The layout of R94. -/
def unpackBrc (w : DWord) : BrcF :=
  ⟨guardField w, fieldOf w 40 8, fieldOf w 32 8, flagOf w 31, flagOf w 30, flagOf w 29, fieldOf w 26 3,
   fieldOf w 0 26⟩
def BrcF.payload (f : BrcF) : BitVec 48 :=
  f.a ++ (f.b ++ (bitOf f.bta ++ (bitOf f.btb ++ (bitOf f.un ++ (f.cmp ++ (f.wofs))))))

/-- The layout of R164. -/
def unpackK (w : DWord) : KF :=
  ⟨guardField w, fieldOf w 46 2, fieldOf w 40 6, fieldOf w 38 2, fieldOf w 32 6, fieldOf w 30 2, fieldOf w 24
   6, fieldOf w 16 8, fieldOf w 8 8, flagOf w 7, flagOf w 6, fieldOf w 3 3, fieldOf w 0 3⟩
def KF.payload (f : KF) : BitVec 48 :=
  f.r1 ++ (f.k1 ++ (f.r2 ++ (f.k2 ++ (f.r3 ++ (f.k3 ++ (f.oa ++ (f.ob ++ (bitOf f.bta ++ (bitOf f.btb ++
    (f.var ++ (f.r4)))))))))))

/-- The layout of R173. -/
def unpackLdmx (w : DWord) : LdmxF :=
  ⟨guardField w, fieldOf w 40 8, fieldOf w 32 8, fieldOf w 24 8, fieldOf w 18 6, fieldOf w 16 2, fieldOf w 14
   2, fieldOf w 12 2, fieldOf w 0 12⟩
def LdmxF.payload (f : LdmxF) : BitVec 48 :=
  f.data ++ (f.dbase ++ (f.sbase ++ (f.k ++ (f.sc ++ (f.reuse ++ (f.cls ++ (f.res)))))))

/-- The layout of R202. -/
def unpackMma (w : DWord) : MmaF :=
  ⟨guardField w, fieldOf w 43 5, flagOf w 42, flagOf w 41, flagOf w 40, fieldOf w 38 2, fieldOf w 32 6,
   fieldOf w 30 2, fieldOf w 24 6, flagOf w 23, flagOf w 22, fieldOf w 20 2, flagOf w 19, fieldOf w 0 19⟩
def MmaF.payload (f : MmaF) : BitVec 48 :=
  f.arr ++ (bitOf f.half ++ (bitOf f.seg ++ (bitOf f.ch ++ (f.ablk ++ (f.ka ++ (f.r1 ++ (f.kb ++ (bitOf f.bsel
    ++ (bitOf f.c4 ++ (f.rep ++ (bitOf f.keep ++ (f.r2))))))))))))

/-- The layout of R212. -/
def unpackAc (w : DWord) : AcF :=
  ⟨guardField w, fieldOf w 40 8, fieldOf w 32 8, fieldOf w 24 8, fieldOf w 16 8, fieldOf w 12 4, fieldOf w 9
   3, fieldOf w 7 2, flagOf w 6, flagOf w 5, fieldOf w 0 5⟩
def AcF.payload (f : AcF) : BitVec 48 :=
  f.dr ++ (f.ra ++ (f.ca ++ (f.sc ++ (f.type ++ (f.cnt ++ (f.rnd ++ (bitOf f.sce ++ (bitOf f.add ++
    (f.res)))))))))

/-- The layout of R58, four operand bytes and sixteen low bits. -/
def unpackX (w : DWord) : XF :=
  ⟨guardField w, fieldOf w 40 8, fieldOf w 32 8, fieldOf w 24 8, fieldOf w 16 8, fieldOf w 0 16⟩
def XF.payload (f : XF) : BitVec 48 :=
  f.d ++ (f.a ++ (f.b ++ (f.c ++ (f.lo))))

/-- The layout of R191. -/
def unpackAmode (w : DWord) : AmodeF :=
  ⟨guardField w, fieldOf w 45 3, fieldOf w 40 5, flagOf w 39, fieldOf w 0 39⟩
def AmodeF.payload (f : AmodeF) : BitVec 48 :=
  f.r1 ++ (f.arr ++ (bitOf f.mode ++ (f.r2)))

/-- The layout of R299. -/
def unpackSync (w : DWord) : SyncF :=
  ⟨guardField w, fieldOf w 40 8, fieldOf w 32 8, fieldOf w 24 8, flagOf w 23, fieldOf w 2 21, fieldOf w 0 2⟩
def SyncF.payload (f : SyncF) : BitVec 48 :=
  f.d ++ (f.a ++ (f.n ++ (bitOf f.bta ++ (f.res ++ (f.var)))))

/-- The layout of R346. -/
def unpackRinv (w : DWord) : RinvF :=
  ⟨guardField w, fieldOf w 40 8, fieldOf w 32 8, fieldOf w 24 8, fieldOf w 20 4, fieldOf w 18 2, fieldOf w 2
   16, fieldOf w 0 2⟩
def RinvF.payload (f : RinvF) : BitVec 48 :=
  f.d ++ (f.a ++ (f.b ++ (f.narg ++ (f.pri ++ (f.res ++ (f.var))))))

/-- The layout of R365. -/
def unpackTrap (w : DWord) : TrapF :=
  ⟨guardField w, fieldOf w 44 4, fieldOf w 0 44⟩
def TrapF.payload (f : TrapF) : BitVec 48 :=
  f.code ++ (f.res)

/-- The layout of R366. -/
def unpackCsr (w : DWord) : CsrF :=
  ⟨guardField w, fieldOf w 40 8, fieldOf w 32 8, fieldOf w 16 16, fieldOf w 0 16⟩
def CsrF.payload (f : CsrF) : BitVec 48 :=
  f.d ++ (f.a ++ (f.csr ++ (f.res)))

/-- The layout of R376. -/
def unpackPreq (w : DWord) : PreqF :=
  ⟨guardField w, fieldOf w 40 8, fieldOf w 32 8, fieldOf w 24 8, fieldOf w 16 8, fieldOf w 8 8, fieldOf w 3 5,
   flagOf w 2, fieldOf w 0 2⟩
def PreqF.payload (f : PreqF) : BitVec 48 :=
  f.d ++ (f.a ++ (f.b ++ (f.c ++ (f.e ++ (f.res ++ (bitOf f.hold ++ (f.var)))))))

/-- The layout of R394. -/
def unpackMark (w : DWord) : MarkF :=
  ⟨guardField w, fieldOf w 40 8, fieldOf w 24 16, fieldOf w 2 22, fieldOf w 0 2⟩
def MarkF.payload (f : MarkF) : BitVec 48 :=
  f.a ++ (f.tag ++ (f.res ++ (f.var)))

/-! The instruction of an operation and a format (R62) -/

/-- The lane integer operations, numbered from their base (R62); none where the operation does not admit the format. -/
def buildInt (k : Nat) (f : Format) (w : DWord) : Option Instr :=
  match k, f with
  | 0, .r => some (.iadd (unpackR w))
  | 0, .i => some (.iaddI (unpackI w))
  | 1, .r => some (.isub (unpackR w))
  | 1, .i => some (.isubI (unpackI w))
  | 2, .r => some (.imul (unpackR w))
  | 2, .i => some (.imulI (unpackI w))
  | 3, .r => some (.imulh (unpackR w))
  | 3, .i => some (.imulhI (unpackI w))
  | 4, .r => some (.imad (unpackR w))
  | 5, .r => some (.idiv (unpackR w))
  | 5, .i => some (.idivI (unpackI w))
  | 6, .r => some (.irem (unpackR w))
  | 6, .i => some (.iremI (unpackI w))
  | 7, .r => some (.iabs (unpackR w))
  | 8, .r => some (.ineg (unpackR w))
  | 9, .r => some (.imin (unpackR w))
  | 9, .i => some (.iminI (unpackI w))
  | 10, .r => some (.imax (unpackR w))
  | 10, .i => some (.imaxI (unpackI w))
  | 11, .r => some (.and (unpackR w))
  | 11, .i => some (.andI (unpackI w))
  | 12, .r => some (.or (unpackR w))
  | 12, .i => some (.orI (unpackI w))
  | 13, .r => some (.xor (unpackR w))
  | 13, .i => some (.xorI (unpackI w))
  | 14, .r => some (.andn (unpackR w))
  | 14, .i => some (.andnI (unpackI w))
  | 15, .r => some (.not (unpackR w))
  | 16, .r => some (.shl (unpackR w))
  | 16, .i => some (.shlI (unpackI w))
  | 17, .r => some (.shr (unpackR w))
  | 17, .i => some (.shrI (unpackI w))
  | 18, .r => some (.sar (unpackR w))
  | 18, .i => some (.sarI (unpackI w))
  | 19, .r => some (.rotl (unpackR w))
  | 19, .i => some (.rotlI (unpackI w))
  | 20, .r => some (.popc (unpackR w))
  | 21, .r => some (.clz (unpackR w))
  | 22, .r => some (.ctz (unpackR w))
  | 23, .r => some (.brev (unpackR w))
  | 24, .r => some (.bfe (unpackR w))
  | 25, .r => some (.bfi (unpackR w))
  | 26, .r => some (.sel (unpackR w))
  | 27, .r => some (.icmp (unpackR w))
  | 27, .i => some (.icmpI (unpackI w))
  | 28, .r => some (.iaddc (unpackR w))
  | 29, .r => some (.add64 (unpackR w))
  | 30, .r => some (.sub64 (unpackR w))
  | 31, .r => some (.lea (unpackR w))
  | 31, .i => some (.leaI (unpackI w))
  | 32, .r => some (.lea64 (unpackR w))
  | _, _ => none

/-- The float operations, numbered from their base (R62); none where the operation does not admit the format. -/
def buildFloat (k : Nat) (f : Format) (w : DWord) : Option Instr :=
  match k, f with
  | 0, .r => some (.fadd (unpackR w))
  | 0, .i => some (.faddI (unpackI w))
  | 1, .r => some (.fsub (unpackR w))
  | 1, .i => some (.fsubI (unpackI w))
  | 2, .r => some (.fmul (unpackR w))
  | 2, .i => some (.fmulI (unpackI w))
  | 3, .r => some (.ffma (unpackR w))
  | 4, .r => some (.fmin (unpackR w))
  | 4, .i => some (.fminI (unpackI w))
  | 5, .r => some (.fmax (unpackR w))
  | 5, .i => some (.fmaxI (unpackI w))
  | 6, .r => some (.fabs (unpackR w))
  | 7, .r => some (.fneg (unpackR w))
  | 8, .r => some (.fcmp (unpackR w))
  | 8, .i => some (.fcmpI (unpackI w))
  | 9, .r => some (.fclass (unpackR w))
  | 10, .r => some (.frnd (unpackR w))
  | 11, .r => some (.fscale (unpackR w))
  | 12, .r => some (.rcpe (unpackR w))
  | 13, .r => some (.rsqrte (unpackR w))
  | 14, .r => some (.fsqrt (unpackR w))
  | 15, .r => some (.exp2e (unpackR w))
  | 16, .r => some (.log2e (unpackR w))
  | 17, .r => some (.hadd2 (unpackR w))
  | 18, .r => some (.hmul2 (unpackR w))
  | 19, .r => some (.hfma2 (unpackR w))
  | 20, .r => some (.bfadd2 (unpackR w))
  | 21, .r => some (.bfmul2 (unpackR w))
  | 22, .r => some (.bffma2 (unpackR w))
  | _, _ => none

/-- The convert operations, numbered from their base (R62); none where the operation does not admit the format. -/
def buildConvert (k : Nat) (f : Format) (w : DWord) : Option Instr :=
  match k, f with
  | 0, .r => some (.cvt (unpackCvt w))
  | 1, .r => some (.pk (unpackR w))
  | 2, .r => some (.upk (unpackR w))
  | 3, .r => some (.alnb (unpackR w))
  | _, _ => none

/-- The moves operations, numbered from their base (R62); none where the operation does not admit the format. -/
def buildMove (k : Nat) (f : Format) (w : DWord) : Option Instr :=
  match k, f with
  | 0, .r => some (.mov (unpackR w))
  | 1, .i => some (.movi (unpackI w))
  | 2, .i => some (.movh (unpackI w))
  | 3, .r => some (.movc (unpackR w))
  | 4, .r => some (.movs (unpackR w))
  | 5, .r => some (.pand (unpackR w))
  | 6, .r => some (.por (unpackR w))
  | 7, .r => some (.pxor (unpackR w))
  | 8, .r => some (.pnot (unpackR w))
  | 9, .r => some (.pmov (unpackR w))
  | _, _ => none

/-- The control operations, numbered from their base (R62); none where the operation does not admit the format. -/
def buildControl (k : Nat) (f : Format) (w : DWord) : Option Instr :=
  match k, f with
  | 0, .x => some (.br (unpackBr w))
  | 1, .x => some (.brc (unpackBrc w))
  | 2, .r => some (.brx (unpackR w))
  | 3, .x => some (.call (unpackBr w))
  | 4, .r => some (.callx (unpackR w))
  | 5, .r => some (.ret (unpackR w))
  | 6, .r => some (.exit (unpackR w))
  | 7, .r => some (.yield (unpackR w))
  | 8, .r => some (.nop (unpackR w))
  | 9, .r => some (.shfl (unpackR w))
  | 10, .r => some (.vote (unpackR w))
  | 11, .r => some (.gred (unpackR w))
  | 12, .r => some (.gsync (unpackR w))
  | _, _ => none

/-- The memory operations, numbered from their base (R62); none where the operation does not admit the format. -/
def buildMemory (k : Nat) (f : Format) (w : DWord) : Option Instr :=
  match k, f with
  | 0, .m => some (.ld (unpackM w))
  | 1, .m => some (.st (unpackM w))
  | 2, .m => some (.pf (unpackM w))
  | 3, .m => some (.atom (unpackM w))
  | 4, .m => some (.red (unpackM w))
  | 5, .m => some (.fld (unpackM w))
  | 6, .m => some (.fst (unpackM w))
  | 7, .m => some (.fatom (unpackM w))
  | 8, .m => some (.feset (unpackM w))
  | 9, .m => some (.feclr (unpackM w))
  | 10, .m => some (.fetest (unpackM w))
  | _, _ => none

/-- The scale operations, numbered from their base (R62); none where the operation does not admit the format. -/
def buildScale (k : Nat) (f : Format) (w : DWord) : Option Instr :=
  match k, f with
  | 0, .x => some (.kmov (unpackK w))
  | 1, .x => some (.kset (unpackK w))
  | 2, .x => some (.kmul (unpackK w))
  | 3, .x => some (.kmax (unpackK w))
  | 4, .x => some (.kmin (unpackK w))
  | 5, .x => some (.krcp (unpackK w))
  | 6, .x => some (.kcvtf (unpackK w))
  | 7, .x => some (.kcvtk (unpackK w))
  | 8, .x => some (.kbind (unpackK w))
  | 9, .x => some (.ktag (unpackK w))
  | 10, .m => some (.kld (unpackM w))
  | 11, .m => some (.kst (unpackM w))
  | 12, .x => some (.kclr (unpackK w))
  | 13, .x => some (.ldmx (unpackLdmx w))
  | _, _ => none

/-- The matrix operations, numbered from their base (R62); none where the operation does not admit the format. -/
def buildMatrix (k : Nat) (f : Format) (w : DWord) : Option Instr :=
  match k, f with
  | 0, .x => some (.mmaI4x (unpackMma w))
  | 1, .x => some (.mmaI4 (unpackMma w))
  | 2, .x => some (.mmaI8 (unpackMma w))
  | 3, .x => some (.mmaE4m3 (unpackMma w))
  | 4, .x => some (.mmaE5m2 (unpackMma w))
  | 5, .x => some (.mmaE2m1 (unpackMma w))
  | 6, .x => some (.mmaBf16 (unpackMma w))
  | 7, .x => some (.acwin (unpackX w))
  | 8, .x => some (.acrd (unpackAc w))
  | 9, .x => some (.acwr (unpackAc w))
  | 10, .x => some (.aczero (unpackX w))
  | 11, .x => some (.acst (unpackAc w))
  | 12, .x => some (.mstat (unpackX w))
  | 13, .x => some (.amode (unpackAmode w))
  | 14, .x => some (.resize (unpackX w))
  | _, _ => none

/-- The synchronisation and work operations, numbered from their base (R62); none where the operation does not admit the format. -/
def buildWork (k : Nat) (f : Format) (w : DWord) : Option Instr :=
  match k, f with
  | 0, .x => some (.barinit (unpackSync w))
  | 1, .x => some (.barlink (unpackSync w))
  | 2, .x => some (.bararr (unpackSync w))
  | 3, .x => some (.bartry (unpackSync w))
  | 4, .x => some (.barwait (unpackSync w))
  | 5, .x => some (.bartest (unpackSync w))
  | 6, .x => some (.bardrop (unpackSync w))
  | 7, .x => some (.chsend (unpackSync w))
  | 8, .x => some (.chrecv (unpackSync w))
  | 9, .x => some (.chtry (unpackSync w))
  | 10, .x => some (.launch (unpackX w))
  | 11, .x => some (.spawn (unpackX w))
  | 12, .x => some (.rinv (unpackRinv w))
  | 13, .x => some (.rret (unpackX w))
  | 14, .x => some (.hndalloc (unpackX w))
  | 15, .x => some (.hndpass (unpackX w))
  | 16, .x => some (.hndfree (unpackX w))
  | 17, .x => some (.kvgive (unpackX w))
  | 18, .x => some (.kvtake (unpackX w))
  | 19, .x => some (.edrain (unpackX w))
  | _, _ => none

/-- The system operations, numbered from their base (R62); none where the operation does not admit the format. -/
def buildSystem (k : Nat) (f : Format) (w : DWord) : Option Instr :=
  match k, f with
  | 0, .x => some (.trap (unpackTrap w))
  | 1, .x => some (.rfe (unpackTrap w))
  | 2, .x => some (.csrr (unpackCsr w))
  | 3, .x => some (.csrw (unpackCsr w))
  | 4, .x => some (.dtload (unpackX w))
  | 5, .x => some (.preq (unpackPreq w))
  | 6, .x => some (.tlbinv (unpackX w))
  | 7, .x => some (.wspill (unpackX w))
  | 8, .x => some (.wfill (unpackX w))
  | 9, .x => some (.brk (unpackX w))
  | 10, .x => some (.mark (unpackMark w))
  | _, _ => none

/-- The instruction that LV3 operation `op` in format `f` makes of a word; none where the operation does not admit the format (R62). -/
def build (op : Nat) (f : Format) (w : DWord) : Option Instr :=
  if op < 0x080 then buildInt op f w
  else if op < 0x0C0 then buildFloat (op - 0x080) f w
  else if op < 0x100 then buildConvert (op - 0x0C0) f w
  else if op < 0x140 then buildMove (op - 0x100) f w
  else if op < 0x200 then buildControl (op - 0x140) f w
  else if op < 0x240 then buildMemory (op - 0x200) f w
  else if op < 0x280 then buildScale (op - 0x240) f w
  else if op < 0x300 then buildMatrix (op - 0x280) f w
  else if op < 0x340 then buildWork (op - 0x300) f w
  else buildSystem (op - 0x340) f w

/-- The instruction that a word is under a decode table, with its checks in the order 0x001, 0x004, 0x002, 0x003 (R64, R67, R68). -/
def decodeWord (t : DecodeTable) (w : DWord) : Except Reject Instr :=
  match t.lookup (opcodeField w) with
  | none => .error .illegalInstruction
  | some op =>
    match build op (formatField w) w with
    | none => .error .reservedFormat
    | some i =>
      match i.check with
      | none => .ok i
      | some c => .error (if c == 0x002 then .illegalOperand else .reservedModifier)

/-- The 64-bit word that eight bytes hold, lowest address first (R2). -/
def wordOfBytes (bs : List Byte) : DWord := BitVec.ofNat 64 (natOfBytes bs)

/-- Decoding from bytes: the instruction and the bytes after it; none of fewer than eight bytes. -/
def decode (t : DecodeTable) (bs : List Byte) : Option (Except Reject Instr × List Byte) :=
  if bs.length < 8 then none else some (decodeWord t (wordOfBytes (bs.take 8)), bs.drop 8)

/-! The encoder -/

/-- The word of an instruction under the LV3 table: its opcode and format from R62, its fields from its layout. An event has no word. -/
def encode : Instr → Option DWord
  | .iadd f => some (packWord 0x000 f.g .r f.payload)
  | .iaddI f => some (packWord 0x000 f.g .i f.payload)
  | .isub f => some (packWord 0x001 f.g .r f.payload)
  | .isubI f => some (packWord 0x001 f.g .i f.payload)
  | .imul f => some (packWord 0x002 f.g .r f.payload)
  | .imulI f => some (packWord 0x002 f.g .i f.payload)
  | .imulh f => some (packWord 0x003 f.g .r f.payload)
  | .imulhI f => some (packWord 0x003 f.g .i f.payload)
  | .imad f => some (packWord 0x004 f.g .r f.payload)
  | .idiv f => some (packWord 0x005 f.g .r f.payload)
  | .idivI f => some (packWord 0x005 f.g .i f.payload)
  | .irem f => some (packWord 0x006 f.g .r f.payload)
  | .iremI f => some (packWord 0x006 f.g .i f.payload)
  | .iabs f => some (packWord 0x007 f.g .r f.payload)
  | .ineg f => some (packWord 0x008 f.g .r f.payload)
  | .imin f => some (packWord 0x009 f.g .r f.payload)
  | .iminI f => some (packWord 0x009 f.g .i f.payload)
  | .imax f => some (packWord 0x00A f.g .r f.payload)
  | .imaxI f => some (packWord 0x00A f.g .i f.payload)
  | .and f => some (packWord 0x00B f.g .r f.payload)
  | .andI f => some (packWord 0x00B f.g .i f.payload)
  | .or f => some (packWord 0x00C f.g .r f.payload)
  | .orI f => some (packWord 0x00C f.g .i f.payload)
  | .xor f => some (packWord 0x00D f.g .r f.payload)
  | .xorI f => some (packWord 0x00D f.g .i f.payload)
  | .andn f => some (packWord 0x00E f.g .r f.payload)
  | .andnI f => some (packWord 0x00E f.g .i f.payload)
  | .not f => some (packWord 0x00F f.g .r f.payload)
  | .shl f => some (packWord 0x010 f.g .r f.payload)
  | .shlI f => some (packWord 0x010 f.g .i f.payload)
  | .shr f => some (packWord 0x011 f.g .r f.payload)
  | .shrI f => some (packWord 0x011 f.g .i f.payload)
  | .sar f => some (packWord 0x012 f.g .r f.payload)
  | .sarI f => some (packWord 0x012 f.g .i f.payload)
  | .rotl f => some (packWord 0x013 f.g .r f.payload)
  | .rotlI f => some (packWord 0x013 f.g .i f.payload)
  | .popc f => some (packWord 0x014 f.g .r f.payload)
  | .clz f => some (packWord 0x015 f.g .r f.payload)
  | .ctz f => some (packWord 0x016 f.g .r f.payload)
  | .brev f => some (packWord 0x017 f.g .r f.payload)
  | .bfe f => some (packWord 0x018 f.g .r f.payload)
  | .bfi f => some (packWord 0x019 f.g .r f.payload)
  | .sel f => some (packWord 0x01A f.g .r f.payload)
  | .icmp f => some (packWord 0x01B f.g .r f.payload)
  | .icmpI f => some (packWord 0x01B f.g .i f.payload)
  | .iaddc f => some (packWord 0x01C f.g .r f.payload)
  | .add64 f => some (packWord 0x01D f.g .r f.payload)
  | .sub64 f => some (packWord 0x01E f.g .r f.payload)
  | .lea f => some (packWord 0x01F f.g .r f.payload)
  | .leaI f => some (packWord 0x01F f.g .i f.payload)
  | .lea64 f => some (packWord 0x020 f.g .r f.payload)
  | .fadd f => some (packWord 0x080 f.g .r f.payload)
  | .faddI f => some (packWord 0x080 f.g .i f.payload)
  | .fsub f => some (packWord 0x081 f.g .r f.payload)
  | .fsubI f => some (packWord 0x081 f.g .i f.payload)
  | .fmul f => some (packWord 0x082 f.g .r f.payload)
  | .fmulI f => some (packWord 0x082 f.g .i f.payload)
  | .ffma f => some (packWord 0x083 f.g .r f.payload)
  | .fmin f => some (packWord 0x084 f.g .r f.payload)
  | .fminI f => some (packWord 0x084 f.g .i f.payload)
  | .fmax f => some (packWord 0x085 f.g .r f.payload)
  | .fmaxI f => some (packWord 0x085 f.g .i f.payload)
  | .fabs f => some (packWord 0x086 f.g .r f.payload)
  | .fneg f => some (packWord 0x087 f.g .r f.payload)
  | .fcmp f => some (packWord 0x088 f.g .r f.payload)
  | .fcmpI f => some (packWord 0x088 f.g .i f.payload)
  | .fclass f => some (packWord 0x089 f.g .r f.payload)
  | .frnd f => some (packWord 0x08A f.g .r f.payload)
  | .fscale f => some (packWord 0x08B f.g .r f.payload)
  | .rcpe f => some (packWord 0x08C f.g .r f.payload)
  | .rsqrte f => some (packWord 0x08D f.g .r f.payload)
  | .fsqrt f => some (packWord 0x08E f.g .r f.payload)
  | .exp2e f => some (packWord 0x08F f.g .r f.payload)
  | .log2e f => some (packWord 0x090 f.g .r f.payload)
  | .hadd2 f => some (packWord 0x091 f.g .r f.payload)
  | .hmul2 f => some (packWord 0x092 f.g .r f.payload)
  | .hfma2 f => some (packWord 0x093 f.g .r f.payload)
  | .bfadd2 f => some (packWord 0x094 f.g .r f.payload)
  | .bfmul2 f => some (packWord 0x095 f.g .r f.payload)
  | .bffma2 f => some (packWord 0x096 f.g .r f.payload)
  | .cvt f => some (packWord 0x0C0 f.g .r f.payload)
  | .pk f => some (packWord 0x0C1 f.g .r f.payload)
  | .upk f => some (packWord 0x0C2 f.g .r f.payload)
  | .alnb f => some (packWord 0x0C3 f.g .r f.payload)
  | .mov f => some (packWord 0x100 f.g .r f.payload)
  | .movi f => some (packWord 0x101 f.g .i f.payload)
  | .movh f => some (packWord 0x102 f.g .i f.payload)
  | .movc f => some (packWord 0x103 f.g .r f.payload)
  | .movs f => some (packWord 0x104 f.g .r f.payload)
  | .pand f => some (packWord 0x105 f.g .r f.payload)
  | .por f => some (packWord 0x106 f.g .r f.payload)
  | .pxor f => some (packWord 0x107 f.g .r f.payload)
  | .pnot f => some (packWord 0x108 f.g .r f.payload)
  | .pmov f => some (packWord 0x109 f.g .r f.payload)
  | .br f => some (packWord 0x140 f.g .x f.payload)
  | .brc f => some (packWord 0x141 f.g .x f.payload)
  | .brx f => some (packWord 0x142 f.g .r f.payload)
  | .call f => some (packWord 0x143 f.g .x f.payload)
  | .callx f => some (packWord 0x144 f.g .r f.payload)
  | .ret f => some (packWord 0x145 f.g .r f.payload)
  | .exit f => some (packWord 0x146 f.g .r f.payload)
  | .yield f => some (packWord 0x147 f.g .r f.payload)
  | .nop f => some (packWord 0x148 f.g .r f.payload)
  | .shfl f => some (packWord 0x149 f.g .r f.payload)
  | .vote f => some (packWord 0x14A f.g .r f.payload)
  | .gred f => some (packWord 0x14B f.g .r f.payload)
  | .gsync f => some (packWord 0x14C f.g .r f.payload)
  | .ld f => some (packWord 0x200 f.g .m f.payload)
  | .st f => some (packWord 0x201 f.g .m f.payload)
  | .pf f => some (packWord 0x202 f.g .m f.payload)
  | .atom f => some (packWord 0x203 f.g .m f.payload)
  | .red f => some (packWord 0x204 f.g .m f.payload)
  | .fld f => some (packWord 0x205 f.g .m f.payload)
  | .fst f => some (packWord 0x206 f.g .m f.payload)
  | .fatom f => some (packWord 0x207 f.g .m f.payload)
  | .feset f => some (packWord 0x208 f.g .m f.payload)
  | .feclr f => some (packWord 0x209 f.g .m f.payload)
  | .fetest f => some (packWord 0x20A f.g .m f.payload)
  | .kmov f => some (packWord 0x240 f.g .x f.payload)
  | .kset f => some (packWord 0x241 f.g .x f.payload)
  | .kmul f => some (packWord 0x242 f.g .x f.payload)
  | .kmax f => some (packWord 0x243 f.g .x f.payload)
  | .kmin f => some (packWord 0x244 f.g .x f.payload)
  | .krcp f => some (packWord 0x245 f.g .x f.payload)
  | .kcvtf f => some (packWord 0x246 f.g .x f.payload)
  | .kcvtk f => some (packWord 0x247 f.g .x f.payload)
  | .kbind f => some (packWord 0x248 f.g .x f.payload)
  | .ktag f => some (packWord 0x249 f.g .x f.payload)
  | .kld f => some (packWord 0x24A f.g .m f.payload)
  | .kst f => some (packWord 0x24B f.g .m f.payload)
  | .kclr f => some (packWord 0x24C f.g .x f.payload)
  | .ldmx f => some (packWord 0x24D f.g .x f.payload)
  | .mmaI4x f => some (packWord 0x280 f.g .x f.payload)
  | .mmaI4 f => some (packWord 0x281 f.g .x f.payload)
  | .mmaI8 f => some (packWord 0x282 f.g .x f.payload)
  | .mmaE4m3 f => some (packWord 0x283 f.g .x f.payload)
  | .mmaE5m2 f => some (packWord 0x284 f.g .x f.payload)
  | .mmaE2m1 f => some (packWord 0x285 f.g .x f.payload)
  | .mmaBf16 f => some (packWord 0x286 f.g .x f.payload)
  | .acwin f => some (packWord 0x287 f.g .x f.payload)
  | .acrd f => some (packWord 0x288 f.g .x f.payload)
  | .acwr f => some (packWord 0x289 f.g .x f.payload)
  | .aczero f => some (packWord 0x28A f.g .x f.payload)
  | .acst f => some (packWord 0x28B f.g .x f.payload)
  | .mstat f => some (packWord 0x28C f.g .x f.payload)
  | .amode f => some (packWord 0x28D f.g .x f.payload)
  | .resize f => some (packWord 0x28E f.g .x f.payload)
  | .barinit f => some (packWord 0x300 f.g .x f.payload)
  | .barlink f => some (packWord 0x301 f.g .x f.payload)
  | .bararr f => some (packWord 0x302 f.g .x f.payload)
  | .bartry f => some (packWord 0x303 f.g .x f.payload)
  | .barwait f => some (packWord 0x304 f.g .x f.payload)
  | .bartest f => some (packWord 0x305 f.g .x f.payload)
  | .bardrop f => some (packWord 0x306 f.g .x f.payload)
  | .chsend f => some (packWord 0x307 f.g .x f.payload)
  | .chrecv f => some (packWord 0x308 f.g .x f.payload)
  | .chtry f => some (packWord 0x309 f.g .x f.payload)
  | .launch f => some (packWord 0x30A f.g .x f.payload)
  | .spawn f => some (packWord 0x30B f.g .x f.payload)
  | .rinv f => some (packWord 0x30C f.g .x f.payload)
  | .rret f => some (packWord 0x30D f.g .x f.payload)
  | .hndalloc f => some (packWord 0x30E f.g .x f.payload)
  | .hndpass f => some (packWord 0x30F f.g .x f.payload)
  | .hndfree f => some (packWord 0x310 f.g .x f.payload)
  | .kvgive f => some (packWord 0x311 f.g .x f.payload)
  | .kvtake f => some (packWord 0x312 f.g .x f.payload)
  | .edrain f => some (packWord 0x313 f.g .x f.payload)
  | .trap f => some (packWord 0x340 f.g .x f.payload)
  | .rfe f => some (packWord 0x341 f.g .x f.payload)
  | .csrr f => some (packWord 0x342 f.g .x f.payload)
  | .csrw f => some (packWord 0x343 f.g .x f.payload)
  | .dtload f => some (packWord 0x344 f.g .x f.payload)
  | .preq f => some (packWord 0x345 f.g .x f.payload)
  | .tlbinv f => some (packWord 0x346 f.g .x f.payload)
  | .wspill f => some (packWord 0x347 f.g .x f.payload)
  | .wfill f => some (packWord 0x348 f.g .x f.payload)
  | .brk f => some (packWord 0x349 f.g .x f.payload)
  | .mark f => some (packWord 0x34A f.g .x f.payload)
  | _ => none

/-- The bytes of an instruction's word, lowest address first (R2). -/
def encodeBytes (i : Instr) : List Byte :=
  match encode i with
  | some w => bytesOf w 8
  | none => []

/-- The instruction that the LV3 table reads from a word given as a number; every word has 64 bits. -/
def decodeTableWord (nbits w : Nat) : Option Instr :=
  if nbits ≤ 64 then (decodeWord .lv3 (BitVec.ofNat 64 w)).toOption else none

/-! Clause headers -/

/-- A clause header (R46). -/
structure Header where
  cls     : BitVec 4
  count   : BitVec 4
  qwait   : Byte
  wwait   : Byte
  regroup : Bool
  res     : BitVec 39
  deriving DecidableEq, Repr

/-- The fields of a header word (R46). -/
def headerOf (w : DWord) : Header :=
  ⟨fieldOf w 60 4, fieldOf w 56 4, fieldOf w 48 8, fieldOf w 40 8, flagOf w 39, fieldOf w 0 39⟩

/-- The number of instructions of a clause (R46). -/
def Header.length (h : Header) : Nat := h.count.toNat + 1

/-- The cause that a header word alone raises: 0x008 before 0x009 (R67, R68). -/
def Header.cause (h : Header) : Option Cause :=
  if 4 ≤ h.cls.toNat then some 0x008
  else if h.res != 0 || h.qwait.getLsbD 0 || h.qwait.getLsbD 2 then some 0x009
  else none

/-- Whether a word has the form of a header (R46, R51). -/
def Header.valid (h : Header) : Bool := h.cause.isNone

/-- The class that a valid header names (R46). -/
def Header.engineClass (h : Header) : Class :=
  if h.cls == 0 then .alu else if h.cls == 1 then .mem else if h.cls == 2 then .mat else .sys

/-- The cause of one word's class and place in its clause (R50, R68): 0x00A before 0x00B. `alone` says the clause has one instruction; `last` that the word ends it. An unmapped opcode passes. -/
def placeCause (c : Class) (alone last : Bool) (op : Option Nat) : Option Cause :=
  match op.map opPlace with
  | none | some .anyClass => none
  | some (.within k) => if k == c then none else some 0x00A
  | some .transfer => if last || alone then none else some 0x00B
  | some .sysEnd => if c != .sys then some 0x00A else if last then none else some 0x00B

/-- The lowest offending instruction of a clause and its cause (R68). `k` is the index of the first word of the list, from 1; a word that could not be fetched is none and passes. -/
def clauseCause (t : DecodeTable) (c : Class) (alone : Bool) : List (Option DWord) → Nat → Option (Cause × Nat)
  | [], _ => none
  | w :: ws, k =>
    match placeCause c alone ws.isEmpty (w.bind fun w => t.lookup (opcodeField w)) with
    | some cause => some (cause, k)
    | none => clauseCause t c alone ws (k + 1)

end Sys2Proof
end

