-- ==== Sys2Proof/Machine/Maps.lean ====
section
/-! DEFINITION. The containers the state is made of: a sparse array of words that reads 0 where nothing is listed (in one canonical form), a table of keyed records, and a set of numbers. -/

namespace Sys2Proof.Machine

/-! Sparse arrays: addresses strictly rising, no entry equal to 0 -/

/-- A sparse array of `w`-bit values. With `w = 8` it is a list of `Host.Cell`. -/
abbrev Sparse (w : Nat) := List (Nat × BitVec w)

/-- The canonical form: keys strictly rising and above `lo`, and no value 0. -/
def Sparse.wfFrom {w : Nat} (lo : Nat) : Sparse w → Bool
  | [] => true
  | (k, v) :: xs => decide (lo ≤ k) && v != 0 && Sparse.wfFrom (k + 1) xs

/-- The canonical form of a sparse array. -/
def Sparse.wf {w : Nat} (m : Sparse w) : Bool := Sparse.wfFrom 0 m

/-- The value at a key; 0 where nothing is listed. -/
def Sparse.get {w : Nat} : Sparse w → Nat → BitVec w
  | [], _ => 0
  | (k, v) :: xs, a => if a = k then v else if a < k then 0 else Sparse.get xs a

/-- The array with the value at `a` replaced by `v`; a canonical form stays canonical, and the reads at other keys stay as they are in any list. -/
def Sparse.set {w : Nat} : Sparse w → Nat → BitVec w → Sparse w
  | [], a, v => if v = 0 then [] else [(a, v)]
  | (k, u) :: xs, a, v =>
    if a < k then (if v = 0 then (k, u) :: xs else (a, v) :: (k, u) :: xs)
    else if a = k then (if v = 0 then xs.dropWhile fun e => decide (e.1 ≤ a) else (a, v) :: xs)
    else (k, u) :: Sparse.set xs a v

/-- Consecutive values written from key `a` on. -/
def Sparse.setList {w : Nat} (m : Sparse w) (a : Nat) : List (BitVec w) → Sparse w
  | [] => m
  | v :: vs => Sparse.setList (m.set a v) (a + 1) vs

/-- `n` consecutive values from key `a`. -/
def Sparse.getList {w : Nat} (m : Sparse w) (a n : Nat) : List (BitVec w) :=
  (List.range n).map fun k => m.get (a + k)

/-- The array with every key in `[a, a + n)` at 0. -/
def Sparse.clear {w : Nat} : Sparse w → Nat → Nat → Sparse w
  | [], _, _ => []
  | (k, u) :: xs, a, n =>
    if k < a then (k, u) :: Sparse.clear xs a n else ((k, u) :: xs).dropWhile fun e => decide (e.1 < a + n)

/-- The number that `n` bytes from key `a` hold, lowest address first (R2). -/
def Sparse.num (m : Sparse 8) (a n : Nat) : Nat := natOfBytes (m.getList a n)

/-- The array with the low `n` bytes of a number stored from key `a` (R2). -/
def Sparse.setNum (m : Sparse 8) (a n v : Nat) : Sparse 8 :=
  m.setList a ((List.range n).map fun k => BitVec.ofNat 8 (v / 256 ^ k))

/-- Memory: a sparse array of bytes by physical address, each entry a `Host.Cell` (R11). -/
abbrev Memory := Sparse 8
/-- The canonical form of memory: addresses strictly rising, no entry 0. -/
def Memory.wf (m : Memory) : Bool := Sparse.wf m

/-! Tables of keyed records -/

/-- A table: a key has at most one record. -/
abbrev Table (κ ν : Type) := List (κ × ν)

section
variable {κ ν : Type} [DecidableEq κ]

/-- The record of a key. -/
def Table.find (t : Table κ ν) (k : κ) : Option ν :=
  match t with
  | [] => none
  | (k', v) :: xs => if k' = k then some v else Table.find xs k

/-- The record of a key, or a default. -/
def Table.findD (t : Table κ ν) (k : κ) (d : ν) : ν := (Table.find t k).getD d

/-- The table with the record of a key replaced, or added at the end. -/
def Table.put (t : Table κ ν) (k : κ) (v : ν) : Table κ ν :=
  match t with
  | [] => [(k, v)]
  | (k', v') :: xs => if k' = k then (k, v) :: xs else (k', v') :: Table.put xs k v

/-- The table without a key. -/
def Table.drop (t : Table κ ν) (k : κ) : Table κ ν := t.filter fun e => decide (e.1 ≠ k)

/-- The table with the record of a key changed, where it has one. -/
def Table.alter (t : Table κ ν) (k : κ) (f : ν → ν) : Table κ ν :=
  match Table.find t k with
  | some v => Table.put t k (f v)
  | none => t

/-- The keys of a table. -/
def Table.keys (t : Table κ ν) : List κ := t.map Prod.fst
/-- The records of a table. -/
def Table.vals (t : Table κ ν) : List ν := t.map Prod.snd
end

/-! Sets of numbers: strictly rising lists -/

/-- A set of numbers, listed in rising order. -/
abbrev NatSet := List Nat

/-- The set with a number added. -/
def NatSet.add : NatSet → Nat → NatSet
  | [], a => [a]
  | x :: xs, a => if a < x then a :: x :: xs else if a = x then x :: xs else x :: NatSet.add xs a

/-- The set without a number. -/
def NatSet.remove (m : NatSet) (a : Nat) : NatSet := m.filter fun x => decide (x ≠ a)

/-- The set with several numbers added. -/
def NatSet.addAll (m : NatSet) (as : List Nat) : NatSet := as.foldl NatSet.add m

/-- The bits of a mask below `n` that are 1, in rising order. -/
def bitsOf (m n : Nat) : List Nat := (List.range n).filter fun k => m.testBit k

/-- The mask whose 1 bits are the listed numbers. -/
def maskOf (l : List Nat) : Nat := l.foldl (fun a k => a ||| 2 ^ k) 0

end Sys2Proof.Machine
end

