-- ==== Sys2Proof/Machine/State.lean ====
section
/-! DEFINITION. The state of the package: threads, teams, formed groups, cores, dies, memory, messages in flight, grids and the registers of system code; the reasons a step can stop; the state at the end of a cold start. -/

namespace Sys2Proof.Machine

/-! Threads -/

/-- A cause waiting to be delivered, or being delivered, with its faulting PC and its auxiliary words (R360, R361). -/
structure Trap where
  cause : Cause
  pc    : VAddr
  aux   : List DWord
  deriving DecidableEq, Repr

/-- One word of a fetched clause: the word, or the cause that its fetch met (R69). -/
inductive Fetched where
  | word (w : DWord)
  | fail (cause : Cause) (aux : List DWord)
  deriving DecidableEq, Repr

/-- A clause as a header fetch brought it in, with the decode table then active and its header's class (R50, R66). -/
structure Clause where
  header : VAddr
  words  : List Fetched
  table  : DecodeTable
  cls    : Class
  deriving DecidableEq, Repr

/-- The state of a thread (R78). A thread of a group is `member`; a thread held at a rendezvous is a member whose group is held. -/
inductive Status where
  /-- its PC names a header and it is not yet eligible; `until` is the clk at which a yield delay ends -/
  | waiting (until_ : Nat)
  /-- eligible, with its arrival stamp (R82) -/
  | eligible (stamp : Int)
  /-- a member of the formed group -/
  | member (group : Nat)
  /-- a handler entry that waits for the writes in flight to w56 to w63, with TRET (R361) -/
  | entering (t : Trap) (ret : VAddr)
  /-- stopped (R362); `at_` is the clause and the index of the brk that stopped it (R393) -/
  | stopped (at_ : Option (Clause × Nat))
  /-- it has executed exit -/
  | exited
  deriving DecidableEq, Repr

/-- The registration of a thread at a barrier object (R287). -/
inductive Registration where
  | armed
  | flipped
  deriving DecidableEq, Repr

/-- A scalar thread (R18, R75). -/
structure Thread where
  /-- words of the register stack, by stack word number (R111) -/
  regs        : Sparse 32
  /-- the stack words that are empty (R119) -/
  empties     : NatSet
  /-- p0 to p7; bit 0 always reads as 1 (R12) -/
  preds       : BitVec 8
  pc          : VAddr
  status      : Status
  /-- its latest arrival stamp (R82), and whether its age of 4096 clk has been counted (R84) -/
  stamp       : Int
  aged        : Bool
  depth       : Nat
  /-- o, the oldest resident frame (R115) -/
  oldest      : Nat
  /-- the hidden link word of each frame (R95) -/
  links       : Sparse 57
  /-- q1, q3 and q4 to q7, oldest word first, and the assemblies of q0 and q2 (R263, R264) -/
  queues      : Table Nat (List Word)
  /-- completion words pending, by completion queue 1 or 3 (R266) -/
  pending     : Table Nat Nat
  /-- engine commands failed (R274) -/
  failures    : Word
  /-- IN and PRIV (R361) -/
  inHandler   : Bool
  priv        : Nat
  savedPriv   : Nat
  ctxSel      : BitVec 12
  savedCtxSel : BitVec 12
  tcause      : Cause
  tpc         : VAddr
  tret        : VAddr
  taux        : Sparse 64
  edepth      : Nat
  /-- TSHW0 to TSHW7 and TSHP (R361) -/
  tshw        : Sparse 64
  tshp        : DWord
  /-- the position inside a clause that a trap kept: the clause and the index of the instruction (R361) -/
  resume      : Option (Clause × Nat)
  /-- whether TRET was written since entry (R365) -/
  tretWritten : Bool
  /-- the brk that the thread passes once as nop (R393) -/
  brkPass     : Option VAddr
  /-- deferred causes in order of arrival (R360) -/
  deferred    : List Trap
  /-- registrations by object of the team (R287) -/
  regd        : Table Nat Registration
  /-- the lease timestamp, and the place in S after which a copy must have been filled to serve the thread (R245) -/
  ts          : BitVec 48
  lastWrite   : Nat
  /-- the place in S of the last fence point (R252), and those of the latest landings of the thread's commands: 0 its copy engine, 1 + k the engines of stack k (R268) -/
  fence       : Nat
  landings    : Table Nat Nat
  /-- the replay signature (R392) -/
  sig         : DWord
  deriving DecidableEq, Repr

/-! Teams -/

/-- A role of a team (R75, R113, R326): `kind` 0 copy, 1 matrix, 2 epilogue, 3 general; `t0` its first thread and `n` its threads. -/
structure Role where
  kind : Nat
  t0   : Nat
  n    : Nat
  q    : Nat
  s    : Nat
  spb  : DWord
  deriving DecidableEq, Repr

/-- A channel declaration (R304). -/
structure ChanDecl where
  src  : Nat
  dst  : Nat
  sw   : Nat
  ns   : Nat
  ring : Nat
  deriving DecidableEq, Repr

/-- The fields of a launch record (R326). -/
structure Record where
  entry  : DWord
  report : DWord
  gx     : Nat
  gy     : Nat
  gz     : Nat
  cr     : Nat
  cc     : Nat
  flags  : Word
  fm     : Word
  nacc   : Nat
  nk     : Nat
  cb     : Nat
  nbar   : Nat
  nch    : Nat
  range  : DWord
  nrange : Nat
  /-- THREADS, REGS, STACK and SPB of the four roles -/
  roles  : List (Nat × Nat × Nat × DWord)
  consts : List Word
  aff    : List DWord
  perm   : List Nat
  chans  : List ChanDecl
  deriving DecidableEq, Repr

/-- A pending collective rendezvous (R101): its PC, home group, operation, mask, and the values each arrived lane supplied (A, B) with its destination byte. -/
structure Rendezvous where
  pc      : VAddr
  hg      : Nat
  mask    : Word
  arrived : Table Nat (Word × Word)
  deriving DecidableEq, Repr

/-- A reply slot of a team (R345, R348). `claim` is the thread and destination register words of the rret that claimed it, with the PC of the rret. -/
structure ReplySlot where
  serial : Byte
  taken  : Bool
  claim  : Option (Nat × List Nat × VAddr)
  reply  : Option (Word × Word × Nat)
  deriving DecidableEq, Repr

/-- What a pre-emption under way does (R377, R378, R383). -/
structure Preempt where
  /-- 0 drain, 1 discard, 2 save: the CHOICE codes of R378 -/
  choice   : Nat
  auto     : Bool
  hold     : Bool
  missed   : Bool
  /-- the clk at which a drained team is chosen again -/
  deadline : Nat
  /-- the VA of the outcome record and the context it is written in (R427) -/
  record   : DWord
  cn       : Nat
  /-- the die whose context store area takes the images, and where this team's image goes there with how many bytes (R379, R380) -/
  die      : Nat
  pa       : Nat
  size     : Nat
  deriving DecidableEq, Repr

/-- A resize, hndpass or hndfree under way (R190, R340): the thread, what it does (0 grow, 1 shrink, 2 pass, 3 free), its arrays and the stack word of its status. -/
structure Resizing where
  t      : Nat
  kind   : Nat
  arrays : NatSet
  dest   : Option Nat
  deriving DecidableEq, Repr

/-- Where a team stands with the stepping unit (R389). -/
inductive StepMode where
  | none
  /-- in step mode, stopped -/
  | stopped
  /-- a step runs; `limit` is the clk at which it ends, `reached` the threads at their step points -/
  | running (limit : Option Nat) (reached : NatSet)
  deriving DecidableEq, Repr

/-- A team (R18, R75, R76). -/
structure Team where
  lid       : Nat
  cn        : Nat
  /-- linear index b, and x, y, z (R322) -/
  b         : Nat
  x         : Nat
  y         : Nat
  z         : Nat
  core      : CoreId
  /-- the home-group places on the core, one for each home group of the team (R76) -/
  places    : List Nat
  roles     : List Role
  entry     : VAddr
  consts    : List Word
  /-- FM, the field role (R178) -/
  fm        : NatSet
  accBase   : Nat
  nacc      : Nat
  kBase     : Nat
  nk        : Nat
  barBase   : Nat
  nbar      : Nat
  /-- cluster number within the grid and position within the cluster (R327) -/
  cluster   : Nat
  pos       : Nat
  pri       : Nat
  /-- accumulator windows by home group: BASE, LIM (R199) -/
  windows   : Table Nat (Nat × Nat)
  /-- ATE, FMTANOM, ANALOG (R218) -/
  ate       : Bool
  fmtanom   : Bool
  analog    : Bool
  rendezvous : List Rendezvous
  /-- resize, hndpass and hndfree under way -/
  resizing  : List Resizing
  replies   : Table Nat ReplySlot
  /-- tokens of records that this team took and has not answered (R347) -/
  owed      : List DWord
  gate      : Bool
  prgtot    : DWord
  prog      : Nat
  /-- PROG at the last clk of the window the estimator looks back over: (clk, PROG), newest first (R377) -/
  progHist  : List (Nat × Nat)
  /-- the clk of the latest start or restore, and the resident clk of earlier residencies (R377) -/
  since     : Nat
  elapsed   : Nat
  preempt   : Option Preempt
  stepMode  : StepMode
  /-- the records of the bin that formed it: die, bin, record bytes (R334) -/
  records   : List (List Byte)
  bin       : Option (Nat × Nat)
  deriving DecidableEq, Repr

/-! Formed groups -/

/-- Why a group is held (R81). Each reason names what ends it. -/
inductive Hold where
  /-- registers of a thread are empty (R120, R121) -/
  | words (t : ThreadId) (ws : List Nat)
  /-- a queue holds fewer than `n` words (R60, R307) -/
  | pop (t : ThreadId) (q n : Nat)
  /-- a staging queue has fewer than `n` free entries (R263, R307) -/
  | push (t : ThreadId) (q n : Nat)
  /-- a member's execution is under way elsewhere: a parked field access (R182), a pending rendezvous (R101), an arrival that is refused (R292), a link message (R294), a resize (R190), a kvgive or a kvtake (R357) -/
  | engaged
  /-- a mode request is pending, which an access waits for (R184) -/
  | mode (c : CoreId) (a req : Nat)
  /-- the group's own mode request is pending (R191) -/
  | amode (c : CoreId) (a req : Nat)
  /-- four mma are outstanding on an array (R206) -/
  | array (c : CoreId) (a : Nat)
  /-- a write is in flight to k registers (R159) -/
  | kregs (c : CoreId) (ks : List Nat)
  /-- accumulator stores of the thread are not yet performed (R215) -/
  | stores (t : ThreadId)
  /-- mma of the team with numbers below `upto` are not yet updated; then the status goes to register `d` (R218) -/
  | updates (team upto : Nat) (d : Byte)
  /-- messages that the rendezvous of a send follows are on their way between two cores, those to the second older than `n` (R314) -/
  | sync (a b : CoreId) (n : Nat)
  /-- a channel accepts no send, or holds no landed slot (R307) -/
  | channel (t : ThreadId) (ch q : Nat) (send : Bool)
  /-- the commands of a thread are not all landed (R283, R354) -/
  | drain (t : ThreadId)
  /-- the core's spawn rate (R336) -/
  | spawn (c : CoreId) (until_ : Nat)
  /-- accesses that have been translated in a context, or in any, have not been performed (R373) -/
  | landing (cn : Option Nat)
  /-- a page range is closed (R353) -/
  | closed (cn page : Nat)
  deriving DecidableEq, Repr

/-- What threads form a candidate: the team, the role, the header, and whether they run their handlers. A handler runs in a group of its own, apart from threads that are in none; threads that have trapped alike may form one group in it (R80, R87, R406; DEDUCED, log 18). -/
structure CandidateKey where
  team    : Nat
  role    : Nat
  pc      : VAddr
  handler : Bool
  deriving DecidableEq, Repr

/-- An mma that a group has issued and that waits for a compute request: its array, and the request (R184). -/
structure Asked where
  array : Nat
  req   : Nat
  deriving DecidableEq, Repr

/-- A formed group (R79, R81). -/
structure Group where
  team    : Nat
  role    : Nat
  core    : CoreId
  slot    : Nat
  clause  : Clause
  /-- the number of instructions of the clause already executed -/
  idx     : Nat
  /-- member threads, in ascending home-lane order -/
  members : List Nat
  /-- members for which the present instruction has executed -/
  done    : List Nat
  /-- members whose execution of it is under way elsewhere: parked, at a rendezvous, or awaiting an answer -/
  engaged : List Nat
  hold    : Option Hold
  /-- whether the present instruction has been counted as issued (R386, R387), and the members that have left by a trap or an exit (R386) -/
  counted : Bool
  left    : List Nat
  /-- the mma of the present instruction that has issued and waits for a compute request: it goes on once that request has completed, whatever request follows (R184) -/
  asked   : Option Asked
  deriving DecidableEq, Repr

/-! Core resources -/

/-- The tile formats of R36. -/
inductive TileFormat where
  | i4x
  | i4
  | i8
  | e4m3
  | e5m2
  | e2m1
  | bf16
  deriving DecidableEq, Repr

/-- A mode request on an array (R184, R191): the mode asked for; what issued before it must be performed first (engine commands, parked accesses, groups held for an earlier request, mma, compute-mode loads); `due` the clk at which it completes once they are (R185). -/
structure ModeReq where
  id      : Nat
  compute : Bool
  cmds    : List Nat
  waits   : List Nat
  groups  : List Nat
  mmas    : List Nat
  loads   : List Nat
  due     : Option Nat
  deriving DecidableEq, Repr

/-- What a field instruction does at its address (R192 to R196). -/
inductive FieldOp where
  | load
  | store
  /-- fatom, with its operation and the compare value of .cas -/
  | atomic (op : Nat) (cmp : Word)
  /-- feset and feclr -/
  | put (full : Bool)
  | test
  deriving DecidableEq, Repr

/-- A field access of a thread, in an array (R192): its offset and size in bytes; `mode` 0 plain, 1 .f, 2 .fe, 3 .e; `data` what it stores; `dest` the stack words that receive its result. One that waits has a number of its own, and `req` is the storage request that it is held for (R184); with none it is parked at its words (R182). -/
structure Waiter where
  n     : Nat
  t     : ThreadId
  op    : FieldOp
  off   : Nat
  size  : Nat
  mode  : Nat
  data  : DWord
  dest  : List Nat
  req   : Option Nat
  deriving DecidableEq, Repr

/-- The A row, scales and place of one thread of an mma, as captured at issue (R206). -/
structure MmaRow where
  t        : Nat
  lane     : Nat
  row      : Nat
  arow     : List Word
  sidecars : List Int
  scales   : List Byte
  deriving DecidableEq, Repr

/-- An mma that has issued and not yet performed its update (R206 to R210). -/
structure Mma where
  id     : Nat
  team   : Nat
  array  : Nat
  format : TileFormat
  half   : Bool
  seg    : Bool
  ch     : Bool
  c4     : Bool
  rep    : Nat
  rows   : List MmaRow
  /-- the B scale bytes captured at issue, by register of the group and byte (R160) -/
  bscales : List (List Byte)
  pc     : VAddr
  /-- the clk still to run, once the array has started it -/
  left   : Option Nat
  /-- the conversions of this mma that noise disturbs: number of the conversion, and what is added to it (R44) -/
  noise  : List (Nat × Int)
  deriving DecidableEq, Repr

/-- A load that saw compute mode and waits to be served (R186). -/
structure ComputeLoad where
  n     : Nat
  t     : ThreadId
  dest  : List Nat
  value : DWord
  deriving DecidableEq, Repr

/-- A field array (R177 to R189). The array is in the cache role when it has no owner, no tie and is not passed. -/
structure FieldArray where
  /-- the team whose field role it is in -/
  owner    : Option Nat
  /-- the context of a class-0 tie in force (R187) -/
  tie      : Option Nat
  /-- a passed result buffer: the context of its producer (R339), and the pending team that has claimed it (R341) -/
  passed   : Option Nat
  claim    : Option Nat
  /-- the mode that the latest completed request reached: true compute (R184) -/
  compute  : Bool
  requests : List ModeReq
  cells    : Sparse 8
  /-- the field words that are empty (R181) -/
  empties  : NatSet
  waiters  : List Waiter
  /-- words that an instruction has made full or empty, whose waiters are served when all its accesses are made (R182, R194) -/
  walk     : List (Nat × Bool)
  /-- words with an uncorrectable error, and what a scrub will read there (R185, R404) -/
  bad      : Table Nat Word
  /-- format records of half 0 and half 1 (R180) -/
  fmt0     : Option TileFormat
  fmt1     : Option TileFormat
  /-- sidecars, by 256 * half + 128 * s + n, as 16-bit two's complement (R34) -/
  sidecars : Sparse 16
  /-- whether a block holds a NaN or infinite element, by 256 * half + 128 * s + n: 1 (R35) -/
  odd      : Sparse 8
  /-- outlier record of an I4X tile: the byte of an outlier pair as etld read it, by 128 * row + byte; 0 none (R24, R180) -/
  outliers : Sparse 8
  /-- buffer serial and the team that owns it as a buffer (R339) -/
  serial   : Byte
  buffer   : Bool
  mmas     : List Mma
  loads    : List ComputeLoad
  deriving DecidableEq, Repr

/-- An object whose generation the core counts (R155): a register block (home-group place, block), an array half, a whole array. -/
inductive GenObject where
  | block (place m : Nat)
  | half (a h : Nat)
  | whole (a : Nat)
  deriving DecidableEq, Repr

/-- The tag of a k register; no tag is kind none (R155). Kind A names a block, kind B a half or a whole array. -/
structure Tag where
  obj : GenObject
  gen : BitVec 12
  deriving DecidableEq, Repr

/-- An entry of the reuse latch (R207). -/
structure Latch where
  row      : List Word
  block    : Nat
  format   : TileFormat
  sidecars : List Int
  gen      : BitVec 12
  deriving DecidableEq, Repr

/-- An effect on accumulator rows that waits its turn (R200). Rows are physical rows of the core. -/
inductive AccEffect where
  /-- the update of an mma on these rows -/
  | update (mma : Nat) (rows : List Nat)
  /-- acrd: the row, first column, element type, count, rounding, scale, and the stack words that receive the result -/
  | read (t : ThreadId) (row col type regs rnd : Nat) (scale : Option Word) (dest : List Nat)
  /-- acwr and aczero: the values and whether they are added -/
  | write (team row col : Nat) (vals : List Word) (add : Bool)
  /-- acst: as a read, with the address of the store, translated at issue -/
  | store (t : ThreadId) (row col type regs rnd : Nat) (scale : Option Word) (va : VAddr) (pa : Nat) (pc : VAddr)
  deriving DecidableEq, Repr

/-- A handle of a barrier object (R288). -/
structure Handle where
  dev  : Nat
  core : CoreId
  obj  : Nat
  deriving DecidableEq, Repr

/-- An arrival that waits for refusal to end (R290, R292): of a thread, with its count, whether it arms, whether it drops, the stack word its index goes to and the queue that its source pops; or of a child, with a drop when R293 applies. -/
inductive Arrival where
  | thread (t : ThreadId) (n : Nat) (arm drop : Bool) (dest pop : Option Nat)
  | child (h : Handle) (drop : Bool)
  deriving DecidableEq, Repr

/-- A barrier object (R287). -/
structure Barrier where
  exp    : Nat
  cnt    : Nat
  ph     : Bool
  waitp  : Bool
  wreg   : Nat
  unobs  : Nat
  drops  : Nat
  parent : Option Handle
  child  : List Handle
  broken : Bool
  /-- arrivals that wait, in order (R290, R292) -/
  queue  : List Arrival
  /-- children whose arrival in the present phase carried a drop (R293) -/
  dropped : List Handle
  /-- threads held in barwait (R302), and those held in barlink with the parent that has still to answer, in order (R294) -/
  sleepers : List ThreadId
  linking : List (Handle × ThreadId)
  deriving DecidableEq, Repr

/-- A sector of a lease copy: the place in S at which it was filled or renewed from its home, the place whose bytes it holds, later where a store of its core has updated it, its write timestamp, its lease, and the ltime that each core of its die had at the fill, 0 where none is noted (R224, R245). -/
structure Copy where
  filled : Nat
  shown  : Nat
  wts    : BitVec 48
  lease  : BitVec 48
  since  : Table CoreId (BitVec 48)
  deriving DecidableEq, Repr

/-- A line in L1, in a die's L2 or in an LLC slice (R224, R226). `line` is PA[51:8]. -/
structure CacheLine where
  line    : Nat
  way     : Nat
  sectors : BitVec 4
  dirty   : BitVec 4
  rrpv    : Nat
  /-- locked by class 1 in L2, protected by class 2 or 0 in the LLC (R231): the context and the page VA[56:16] that it is kept for -/
  kept    : Option (Nat × Nat)
  /-- the copies of its sectors, in an L1 and in the L2 of a die that is not its home (R225, R245) -/
  copies  : Table Nat Copy
  /-- the partition that filled it, and the residency class, context and page VA[56:16] of the access that filled or last wrote it (R227, R229, R231) -/
  part    : Nat
  cls     : Option Nat
  origin  : Nat × Nat
  /-- translation entries of a page table homed on another die, which serve no load (R224) -/
  trans   : Bool
  deriving DecidableEq, Repr

/-- What a counter has met in a clk (R387): whether it owes a sample, the rank of the event that the sample names, and the LID, b and t of that name. Rank 32 * slot + lane is an event that a thread caused in a slot's turn, 128 + lane one that a thread caused otherwise, 160 one of no thread. -/
structure Sample where
  owed : Bool
  rank : Nat
  lid  : Nat
  b    : Nat
  t    : Nat
  deriving DecidableEq, Repr

/-- A core (R12), with its issue slots (R83), its own clk, its memories and its observation registers (R385). -/
structure Core where
  clk      : Nat
  /-- lease time (R17) -/
  ltime    : BitVec 48
  /-- the slot that chooses in this clk, which the slots below it have done: slots choose in the order 0, 1, 2, 3 (R83) -/
  turn     : Nat
  /-- slots that have issued in this clk, and the groups formed in it whose first instructions they have still to issue (R83) -/
  issued   : NatSet
  opening  : Table Nat Nat
  /-- consecutive clk in which each slot issued from formed groups (R83) -/
  streak   : Table Nat Nat
  /-- regroup holds by candidate: the slot that began the hold, and the clk at which it ends, 0 once it has (R49) -/
  regroup  : Table CandidateKey (Nat × Nat)
  arrays   : Table Nat FieldArray
  gens     : Table GenObject (BitVec 12)
  /-- objects whose generation stepped in this clk (R156) -/
  stepped  : List GenObject
  /-- objects whose generation a tag write or a check has read in this clk: they do not step in it afterwards (R156, R159) -/
  checked  : List GenObject
  /-- bytes of the k registers, by 256 * k + byte (R152) -/
  kbytes   : Sparse 8
  ktags    : Table Nat Tag
  /-- accumulator values, by 256 * row + column (R198) -/
  acc      : Sparse 32
  accq     : List (Nat × AccEffect)
  /-- the reuse latch, by 32 * place + lane (R207) -/
  latch    : Table Nat Latch
  barriers : Table Nat Barrier
  l1       : List CacheLine
  /-- the clk from which the core may issue a further spawn (R336) -/
  spawnAt  : Nat
  /-- the timestamp that accesses to field memory have reached: it orders the leases of threads that meet there (R244, R245) -/
  fieldTs  : BitVec 48
  /-- ECSEL0-3, ECNT0-3, OBSCTL, LCBASE, LCLIM, LCIDLE, LCCNT by register number (R385) -/
  obs      : Sparse 64
  /-- what each counter has met in this clk; and the counters that have emitted their samples (R387) -/
  samples  : Table Nat Sample
  /-- what each count of this core has risen by in this clk, by register number (R386, R387) -/
  accrued  : Sparse 64
  sampled  : NatSet
  deriving DecidableEq, Repr

/-! Dies -/

/-- A translation entry that walk caches keep (R372). -/
structure Kept where
  cn    : Nat
  addr  : Nat
  entry : DWord
  deriving DecidableEq, Repr

/-- A record that a bin holds (R334): its bytes, its dtime of arrival, the pending team it is assigned to, and the token of a remote record that owes a reply. -/
structure BinRecord where
  bytes    : List Byte
  arrived  : Nat
  assigned : Option Nat
  owed     : Option DWord
  spawned  : Bool
  deriving DecidableEq, Repr

/-- A spawn bin (R332, R334). -/
structure Bin where
  v      : Bool
  entry  : DWord
  tmpl   : DWord
  store  : DWord
  timer  : Nat
  cap    : Nat
  rsv    : Nat
  rs     : Nat
  coalm  : Nat
  pri    : Nat
  depth  : Nat
  hofs   : Nat
  cn     : Nat
  record : Option Record
  held   : List BinRecord
  deriving DecidableEq, Repr

/-- What a pending team starts from (R335). -/
inductive Origin where
  /-- linear index b of a grid -/
  | grid (lid b : Nat)
  /-- the next team of a bin, with its pending number -/
  | bin (bin : Nat)
  /-- a team restarted after a discard, kept whole until it starts -/
  | restart (t : Team)
  /-- the positions `ps` of the cluster that begins at linear index b0, which a warm reset of their die removed while the others remain (R325, R401) -/
  | part (lid b0 : Nat) (ps : List Nat)
  /-- a saved image at a PA -/
  | image (pa : Nat)
  deriving DecidableEq, Repr

/-- A team in the queue of a die (R335), or a cluster that starts as one unit. -/
structure Pending where
  n      : Nat
  origin : Origin
  pri    : Nat
  depth  : Nat
  /-- key 4: the dtime of the grid's acceptance or of the bin's readiness; and the dtime since which it has waited -/
  entered : Nat
  since   : Nat
  /-- the order in which it reached 1 ms, if it has -/
  aged   : Option Nat
  key    : Nat
  deriving DecidableEq, Repr

/-- A die: 0 to 7 Sorrel, 8 Vetch (R8). -/
structure Die where
  /-- under warm reset, and the phase that its latest warm reset has reached (R401) -/
  out      : Bool
  phase    : Nat
  mst      : Sparse 64
  mststat  : Byte
  bins     : Table Nat Bin
  binErr   : Bool
  lbin     : Byte
  hwm      : BitVec 24
  lwm      : BitVec 24
  df       : Bool
  queue    : List Pending
  csbase   : DWord
  cssize   : DWord
  reststat : DWord
  trbase   : DWord
  trsize   : DWord
  trhead   : DWord
  stepteam : DWord
  stepstat : DWord
  pwrctl   : DWord
  /-- TEMP, and the clock steps that heat and the package power limit hold the die at (R403) -/
  temp     : Nat
  heat     : Nat
  limited  : Nat
  mcstat   : DWord
  /-- write latches of the register window by source core (R223) -/
  latch    : Table CoreId Word
  l2       : List CacheLine
  /-- the timestamp of a line homed on the die that nothing has read or written since cold start (R247) -/
  untouched : BitVec 48
  kept     : List Kept
  deriving DecidableEq, Repr

/-- What a team that has retired leaves: its threads, the arrays of its field role and its barrier objects as they stood, which hold until another team comes to its core (R425). -/
structure Remains where
  team     : Team
  threads  : Table Nat Thread
  arrays   : Table Nat FieldArray
  barriers : Table Nat Barrier
  deriving DecidableEq, Repr

/-! Package -/

/-- A context (R64, R230, R367). -/
structure Context where
  v      : Bool
  sys    : Bool
  part   : Nat
  hvec   : DWord
  ptroot : DWord
  table  : DecodeTable
  /-- RCBASE n at n, RCLIM n at 16 + n, RCARR n at 32 + n -/
  rc     : Sparse 64
  deriving DecidableEq, Repr

/-- A load, atomic or store whose reply has not arrived (R238, R241): what it writes to registers (stack word, value) or to k register bytes, whether an error reply comes, and the address. -/
structure Access where
  t     : ThreadId
  core  : CoreId
  words : List (Nat × Word)
  kreg  : Option Nat
  kdata : List (Nat × Byte)
  err   : Option Cause
  pc    : VAddr
  va    : VAddr
  pa    : Nat
  /-- an atomic result, which the replay signature takes in (R392) -/
  atomic : Bool
  /-- the register block that an ldmx names, whose generation its own data does not step again (R156) -/
  own    : Option Nat
  deriving DecidableEq, Repr

/-- A write of an engine command that has not landed for every thread (R253). -/
structure EngineWrite where
  n     : Nat
  pa    : Nat
  va    : VAddr
  byte  : Byte
  /-- its landings short of the package so far, the oldest first: for whom, and the place in S -/
  lands : List (Scope × Nat)
  deriving DecidableEq, Repr

/-- A landing of an engine write for the threads of a scope of its issuing thread before it landed for the package: the places in S of the two (R252, R253). -/
structure Landing where
  pa    : Nat
  byte  : Byte
  t     : ThreadId
  core  : CoreId
  upTo  : Scope
  first : Nat
  last  : Nat
  deriving DecidableEq, Repr

/-- An engine command in flight (R251 to R255, R265). -/
structure Command where
  t      : ThreadId
  core   : CoreId
  cn     : Nat
  /-- the engine: the core's own, or the Clover die of a stack -/
  stack  : Option Nat
  words  : List Word
  /-- I(E) and F(E) in S -/
  issued : Nat
  fence  : Nat
  /-- elements whose move has been made -/
  moved  : NatSet
  /-- the bytes of global memory read, with the place of S of the read (R252) -/
  reads  : List (Nat × Nat)
  /-- bytes of global memory at which a write of the command has landed for some thread: the place of S of the first landing, and the byte (R253, R275) -/
  landings : Table Nat (Nat × Byte)
  writes : List EngineWrite
  /-- field bytes still to land: element, array, offset, byte -/
  field  : List (Nat × Nat × Nat × Byte)
  /-- the field words that the command cleared at issue and has not yet filled: array, word -/
  targets : List (Nat × Nat)
  /-- raw rows that etld has read, by 256 * row + byte -/
  rows   : Sparse 8
  /-- the scale bytes that etst captured at issue, by register (R279) -/
  scales : List (List Byte)
  /-- the format record that etst found at issue -/
  format : Option TileFormat
  /-- the status of the first fault, 0 without one (R274) -/
  status : Nat
  /-- whether D(E) has been pushed -/
  completed : Bool
  deriving DecidableEq, Repr

/-- A last push that waits for room in its engine, with what its instruction still does when it is accepted: the queues it pops, its predicates, and FMTANOM (R265). -/
structure HeldPush where
  t     : ThreadId
  core  : CoreId
  queue : Nat
  word  : Word
  stack : Option Nat
  clk   : Nat
  slot  : Nat
  pops  : List Nat
  /-- the predicates that its instruction writes -/
  preds : List (Nat × Bool)
  anomaly : Bool
  /-- whether PROG has counted the instruction -/
  counted : Bool
  deriving DecidableEq, Repr

/-- A channel of a cluster (R304, R305). -/
structure Channel where
  src    : Nat
  dst    : Nat
  sw     : Nat
  ns     : Nat
  ring   : Nat
  free   : Nat
  next   : Nat
  /-- reserved and filled slots in order: slot, words, landed -/
  slots  : List (Nat × List Word × Bool)
  srcGone : Bool
  dstGone : Bool
  /-- threads whose send or receive waits, in order of issue (R305); a send with the number that the next message had at its issue (R314) -/
  senders   : Table ThreadId Nat
  receivers : List ThreadId
  deriving DecidableEq, Repr

/-- What a management message asks (R397). -/
inductive Request where
  /-- the SPLIT strap of the next warm start (R396, R400) -/
  | straps (split : Byte)
  | coldStart (i : StartInput)
  | warmStart (i : StartInput) (clear : Bool)
  | dieReset (die : Nat)
  | powerLimit (watts : Nat)
  | attest (nonce : BitVec 512)
  | bind (conn cn : Nat)
  deriving DecidableEq, Repr

/-- The five classes of message (R313). -/
inductive MsgClass where
  | request
  | reply
  | sync
  | engine
  | fabric
  deriving DecidableEq, Repr

/-- An end of a message's path: a core, another device, or Vetch (R312, R256). -/
inductive Agent where
  | core (c : CoreId)
  | device (dev : Nat)
  | vetch
  deriving DecidableEq, Repr

/-- A message in flight (R294, R290, R306, R343, R345, R256, R397). -/
inductive Msg where
  /-- a child asks to be linked -/
  | link (parent child : Handle)
  | unlink (parent child : Handle)
  | arrival (parent child : Handle) (drop : Bool)
  /-- a flip for a child; `last` removes its link (R293) -/
  | flip (child parent : Handle) (last : Bool)
  /-- the answer of another device to a link -/
  | linkReply (child parent : Handle) (ok : Bool)
  /-- the parent's team is gone: the child's link is broken (R296) -/
  | broken (child parent : Handle)
  /-- words of a channel slot on their way: cluster key, channel, slot, and the cores of the two ends -/
  | slot (lid cluster ch slot : Nat) (src dst : CoreId)
  /-- an invocation: device of the sender, handler, priority, wants a result, token, arguments -/
  | invocation (dev handler pri : Nat) (res : Bool) (token : DWord) (args : List Byte)
  /-- a reply, and the agent that sends it -/
  | reply (src : Agent) (token : DWord) (status value : Word) (reason : Nat)
  /-- a read of `len` bytes at a VA, with the bytes read so far; a write of what is still to be written from a VA on -/
  | memRead (conn : Nat) (va : VAddr) (len : Nat) (got : List Byte)
  | memWrite (conn : Nat) (va : VAddr) (bytes : List Byte)
  /-- a peer acknowledges a packet of a connection -/
  | ack (conn seq : Nat)
  | management (r : Request)
  deriving DecidableEq, Repr

/-- What the device sends to parties outside (R256, R343, R397, R399). -/
inductive Out where
  | reply (token : DWord) (status value : Word) (reason : Nat)
  | invocation (dev handler pri : Nat) (res : Bool) (token : DWord) (args : List Byte)
  | arrival (parent child : Handle) (drop : Bool)
  | flip (child parent : Handle) (last : Bool)
  | link (parent child : Handle)
  | unlink (parent child : Handle)
  | linkReply (child parent : Handle) (ok : Bool)
  | broken (child parent : Handle)
  | data (conn : Nat) (bytes : List Byte)
  | done (conn : Nat)
  | error (conn : Nat) (cause : Cause)
  | rejected
  | attestation (bytes : List Byte)
  /-- a Vurek packet of a connection with its sequence number (R397) -/
  | packet (conn : Nat) (seq : BitVec 32) (o : Out)
  /-- the acknowledgement of a packet received (R397) -/
  | ack (conn : Nat) (seq : BitVec 32)
  deriving DecidableEq, Repr

/-- A report to the hub cores (R362, R404). -/
structure Report where
  src   : CoreId
  lid   : Nat
  b     : Nat
  t     : Nat
  trap  : Trap
  deriving DecidableEq, Repr

/-- A live grid (R329). -/
structure Grid where
  cn      : Nat
  record  : Record
  /-- teams not yet retired or removed -/
  left    : Nat
  failed  : Bool
  /-- teams started so far, and the tokens of those who wait for it (R342) -/
  started : Nat
  waiters : List DWord
  accepted : Nat
  /-- a co-resident grid that has been pending for 100 µs (R337) -/
  blocking : Bool
  /-- the replay pass that the grid is -/
  pass    : Option Nat
  bin     : Bool
  /-- the TEAM identifiers of its teams by linear index -/
  teams   : Table Nat Nat
  deriving DecidableEq, Repr

/-- A saved team (R378, R380). What it held on its core is numbered from 0: k registers and rows from their bases, home-group places by their order, barrier objects from theirs. -/
structure Image where
  die     : Nat
  size    : Nat
  /-- the number that its body is drawn with, and its header -/
  num     : Nat
  head    : List Byte
  /-- the launch record of its grid -/
  record  : Record
  team    : Team
  teamId  : Nat
  threads : List (Nat × Thread)
  groups  : Table Nat Group
  arrays  : Table Nat FieldArray
  kbytes  : Sparse 8
  ktags   : Table Nat Tag
  gens    : Table GenObject (BitVec 12)
  acc     : Sparse 32
  latch   : Table Nat Latch
  barriers : Table Nat Barrier
  /-- CORE of its header, and whether it waits in a die's queue -/
  core    : Bool
  queued  : Bool
  clk     : Nat
  /-- replies and barrier messages kept for it (R298, R345) -/
  kept    : List Msg
  /-- the addresses of the images of its block (R379) -/
  block   : List Nat
  deriving DecidableEq, Repr

/-- The replay session (R390 to R392). -/
structure Replay where
  /-- the fields of the descriptor -/
  lrec    : DWord
  wsbuf   : Nat
  wspages : Nat
  npass   : Nat
  te      : Bool
  cn      : Nat
  res     : DWord
  ev      : List Nat
  pass   : Nat
  lid    : Nat
  /-- the launch identifiers of the passes so far -/
  lids   : List Nat
  began  : Nat
  /-- captured pages in order, and the signatures that pass 0 kept by team -/
  pages  : List Nat
  sigs   : Table Nat DWord
  mismatches : Nat
  isOver   : Bool
  mismatch : Bool
  deriving DecidableEq, Repr

/-- A kvgive under way (R353, R357): the thread, its range, the new owner and whether the range is closed. -/
structure Give where
  t      : ThreadId
  cn     : Nat
  va     : Nat
  pages  : Nat
  owner  : Nat
  /-- the addresses of the leaves of the range -/
  leaves : List Nat
  closed : Bool
  deriving DecidableEq, Repr

/-- A packet that is not acknowledged: how often it has been sent, when last, and what it carries (R397). -/
structure Packet where
  sent : Nat
  last : Nat
  out  : Out
  deriving DecidableEq, Repr

/-- A Vurek connection (R397): the context bound to it, whether it is lost, the sequence number of its next packet, the packets that are not acknowledged by theirs, the sequence number that the peer's next packet has, and those of its packets that have come before their turn. -/
structure Connection where
  cn       : Option Nat
  lost     : Bool
  next     : BitVec 32
  packets  : Table Nat Packet
  expected : BitVec 32
  early    : Table Nat Msg
  deriving DecidableEq, Repr

/-- One turn of the schedule: a slot of a core issues, an event happens, a nanosecond passes, a message comes from outside, or a soft error strikes (DESIGN CHOICE, log 1). -/
inductive Turn where
  | slot (c : CoreId) (k : Nat)
  | event (i : Instr)
  /-- device time advances by a tick (R16) -/
  | tick
  | arrive (m : Msg)
  /-- a Vurek packet comes, with its connection and its sequence number (R397) -/
  | packet (conn : Nat) (seq : BitVec 32) (m : Msg)
  /-- the data of a 64-byte sector becomes uncorrectable (R241, R404) -/
  | spoil (sector : Nat)
  /-- ECC corrects an error on a die (R404) -/
  | correct (die : Nat)
  /-- a word of a field array becomes uncorrectable; a scrub reads `v` there (R185, R404) -/
  | strike (c : CoreId) (a w : Nat) (v : Word)
  deriving DecidableEq, Repr

/-- The state of the package. -/
structure State where
  threads  : Table ThreadId Thread
  teams    : Table Nat Team
  groups   : Table Nat Group
  cores    : Table CoreId Core
  dies     : Table Nat Die
  contexts : Table Nat Context
  grids    : Table Nat Grid
  /-- HBM4E by physical address (R11); a byte that nothing has written is 0 (R400) -/
  mem      : Memory
  /-- places of S taken so far, and what each later write overwrote: place, address, old byte, newest first (R243, R244) -/
  seq      : Nat
  hist     : List (Nat × Nat × Byte)
  /-- engine writes that landed for some threads first -/
  past     : List Landing
  /-- write timestamp and greatest lease granted of each line (R245) -/
  leases   : Table Nat (BitVec 48 × BitVec 48)
  /-- the greatest write timestamp taken so far (R245) -/
  wmax     : BitVec 48
  /-- bytes whose sector holds uncorrectable data (R241) -/
  poison   : NatSet
  /-- device time, one tick a nanosecond (R16) -/
  dtime    : Nat
  llc      : Table Nat (List CacheLine)
  /-- page home mode and counters by PA[51:16]: replicated, RDC, WRC (R233, R234) -/
  pages    : Table Nat (Bool × Nat × Nat)
  /-- the dtime of the last boundary at which the page counters were halved (R234) -/
  epochAt  : Nat
  pwm      : Sparse 64
  pgmode   : DWord
  accesses : Table Nat Access
  commands : Table Nat Command
  /-- last pushes that wait for room, by order of their first attempts (R265) -/
  heldPushes : Table Nat HeldPush
  channels : Table (Nat × Nat × Nat) Channel
  msgs     : Table Nat Msg
  /-- what has left the device, and what waits for a port (R19, R396) -/
  outbox   : List Out
  unsent   : List Out
  reports  : List Report
  images   : Table Nat Image
  /-- the last image of each team that a restore has used up, whose bytes may still stand in memory (R382) -/
  restored : List Image
  gives    : Table Nat Give
  /-- what teams that have retired leave, by team identifier (R425; DESIGN CHOICE, log 25) -/
  remains  : Table Nat Remains
  /-- the place of S of the latest change of owner of a page, by PA[51:16] (R353) -/
  gave     : Table Nat Nat
  replay   : Option Replay
  rpstat   : DWord
  htbase   : DWord
  htsize   : DWord
  netcfg   : DWord
  devnum   : DWord
  /-- the die of the latest warm reset request (R401) -/
  lastReset : Nat
  /-- SPLIT and EN that each port came up with (R396) -/
  ports    : Table Nat DWord
  /-- connections, by 4 * the peer's device number + the class of their messages: 0 invocations, 1 replies, 2 memory messages, 3 management (R397) -/
  conns    : Table Nat Connection
  /-- package power limit in watts (R403) -/
  limit    : Nat
  /-- the firmware measurement, the one last verified, and whether the firmware was rejected (R398, R400) -/
  measured : BitVec 512
  verified : Option (BitVec 512)
  rejected : Bool
  /-- the SPLIT strap (R396) -/
  strap    : Byte
  /-- the model's own fields: numbers and free values drawn so far, the group whose instruction runs or that is being formed, the disturbed conversions, the turns to come (DESIGN CHOICE, log 1, log 3, log 4) -/
  fresh    : Nat
  drawn    : Nat
  cur      : Option Nat
  noise    : List (Nat × Int)
  sched    : List Turn
  deriving DecidableEq, Repr

/-! Defaults: what an object of the machine is before anything has touched it -/

def FieldArray.init : FieldArray where
  owner := none
  tie := none
  passed := none
  claim := none
  compute := false
  requests := []
  cells := []
  empties := []
  waiters := []
  walk := []
  bad := []
  fmt0 := none
  fmt1 := none
  sidecars := []
  odd := []
  outliers := []
  serial := 0
  buffer := false
  mmas := []
  loads := []

def Connection.init : Connection := ⟨none, false, 0, [], 0, []⟩

def Barrier.init : Barrier := ⟨0, 0, false, false, 0, 0, 0, none, [], false, [], [], [], []⟩

def Core.init : Core where
  clk := 0
  ltime := 0
  turn := 0
  issued := []
  opening := []
  streak := []
  regroup := []
  arrays := []
  gens := []
  stepped := []
  checked := []
  kbytes := []
  ktags := []
  acc := []
  accq := []
  latch := []
  barriers := []
  l1 := []
  spawnAt := 0
  fieldTs := 0
  obs := []
  samples := []
  accrued := []
  sampled := []

/-- A die after reset: no bin, no queue, HWM and LWM at 0xFF_FFFF (R333), every other register 0 (R319, R367, R389, R403, R404). -/
def Die.init : Die where
  out := false
  phase := 0
  mst := []
  mststat := 0
  bins := []
  binErr := false
  lbin := 0
  hwm := 0xFFFFFF
  lwm := 0xFFFFFF
  df := false
  queue := []
  csbase := 0
  cssize := 0
  reststat := 0
  trbase := 0
  trsize := 0
  trhead := 0
  stepteam := 0
  stepstat := 0
  pwrctl := 0
  temp := 0
  heat := 0
  limited := 0
  mcstat := 0
  latch := []
  l2 := []
  untouched := 0
  kept := []

/-- The PWM registers at reset: LLCW 0xFFFF and L2W 0x3FFF for p at most 62; LLCW 0 and L2W 0xC000 for p = 63 (R228). -/
def pwmReset : Sparse 64 := ((List.range 63).map fun p => (p, (0xFFFF3FFF : DWord))) ++ [(63, 0xC000)]

/-- Why a step stops. -/
inductive Fault where
  /-- raised by a meaning of an instruction that is run while no formed group is current: no step of the machine does this, since a turn of the schedule runs an instruction only for a group; safe -/
  | noGroup
  deriving DecidableEq, Repr

/-- Why an instruction has no meaning. -/
inductive Refusal where
  /-- raised by the dispatch for a row of the opcode table that has no meaning yet; safe -/
  | notModelled (mnemonic : String)
  deriving DecidableEq, Repr

/-- The state at the end of a cold start (R400): every die admitted, no context, no team, memory clear, every register at its Reset value; a register that the spec gives no reset value is 0 (DESIGN CHOICE, log 2). -/
def State.reset : State where
  threads := []
  teams := []
  groups := []
  cores := []
  dies := []
  contexts := []
  grids := []
  mem := []
  seq := 0
  hist := []
  past := []
  leases := []
  wmax := 0
  poison := []
  dtime := 0
  llc := []
  pages := []
  epochAt := 0
  pwm := pwmReset
  pgmode := 0x0000140040021001
  accesses := []
  commands := []
  heldPushes := []
  channels := []
  msgs := []
  outbox := []
  unsent := []
  reports := []
  images := []
  restored := []
  gives := []
  remains := []
  gave := []
  replay := none
  rpstat := 0
  htbase := 0
  htsize := 16
  netcfg := 0x000059D8000100FF
  devnum := 0
  lastReset := 0
  ports := (List.range 8).map fun p => (p, (0x000059D8000100FF : DWord))
  conns := []
  limit := 15000
  measured := 0
  verified := none
  rejected := false
  strap := 0
  fresh := 0
  drawn := 0
  cur := none
  noise := []
  sched := []

end Sys2Proof.Machine
end

