-- ==== Sys2Proof/Machine/Ops.lean ====
section
/-! DEFINITION. The named operations on the state: the objects of the machine by name, registers and predicates of a thread, generations, event counters and trace records, the places of S, taking an exception and returning from one. -/

namespace Sys2Proof

/-- The 12-bit source number of a core (R15). -/
def CoreId.source (c : CoreId) : Nat := c.die * 256 + c.num
/-- Whether a source number names a core of a Sorrel die (R15). -/
def CoreId.isSorrel (c : CoreId) : Bool := decide (c.die < 8 ∧ c.num < Config.cores)

end Sys2Proof

namespace Sys2Proof.Machine

/-- What a step or a meaning answers. -/
abbrev Result := Host.Outcome State Fault Refusal

/-! Objects by name -/

def State.thread (s : State) (t : ThreadId) : Option Thread := Table.find s.threads t
def State.setThread (s : State) (t : ThreadId) (x : Thread) : State :=
  { s with threads := Table.put s.threads t x }
def State.alterThread (s : State) (t : ThreadId) (f : Thread → Thread) : State :=
  { s with threads := Table.alter s.threads t f }
def State.team (s : State) (n : Nat) : Option Team := Table.find s.teams n
def State.alterTeam (s : State) (n : Nat) (f : Team → Team) : State :=
  { s with teams := Table.alter s.teams n f }
def State.group (s : State) (n : Nat) : Option Group := Table.find s.groups n
def State.alterGroup (s : State) (n : Nat) (f : Group → Group) : State :=
  { s with groups := Table.alter s.groups n f }
def State.core (s : State) (c : CoreId) : Core := Table.findD s.cores c Core.init
def State.setCore (s : State) (c : CoreId) (x : Core) : State := { s with cores := Table.put s.cores c x }
def State.alterCore (s : State) (c : CoreId) (f : Core → Core) : State := s.setCore c (f (s.core c))
def State.die (s : State) (d : Nat) : Die := Table.findD s.dies d Die.init
def State.setDie (s : State) (d : Nat) (x : Die) : State := { s with dies := Table.put s.dies d x }
def State.alterDie (s : State) (d : Nat) (f : Die → Die) : State := s.setDie d (f (s.die d))
def State.array (s : State) (c : CoreId) (a : Nat) : FieldArray := Table.findD (s.core c).arrays a FieldArray.init
def State.setArray (s : State) (c : CoreId) (a : Nat) (x : FieldArray) : State :=
  s.alterCore c fun k => { k with arrays := Table.put k.arrays a x }
def State.alterArray (s : State) (c : CoreId) (a : Nat) (f : FieldArray → FieldArray) : State :=
  s.setArray c a (f (s.array c a))
def State.barrier (s : State) (c : CoreId) (o : Nat) : Barrier := Table.findD (s.core c).barriers o Barrier.init
def State.setBarrier (s : State) (c : CoreId) (o : Nat) (b : Barrier) : State :=
  s.alterCore c fun k => { k with barriers := Table.put k.barriers o b }

/-- A live context; none where CTXID.V is 0. -/
def State.context (s : State) (cn : Nat) : Option Context :=
  match Table.find s.contexts cn with
  | some x => if x.v then some x else none
  | none => none
def State.alterContext (s : State) (cn : Nat) (f : Context → Context) : State :=
  { s with contexts := Table.alter s.contexts cn f }

/-- The team of a thread. -/
def State.teamOf (s : State) (t : ThreadId) : Option Team := s.team t.team
/-- The core that a thread's team is on. -/
def State.coreOf (s : State) (t : ThreadId) : CoreId := ((s.teamOf t).map Team.core).getD ⟨0, 0⟩
/-- The context number of a thread (R351). -/
def State.cnOf (s : State) (t : ThreadId) : Nat := ((s.teamOf t).map Team.cn).getD 0
/-- A number that no object of the state has. -/
def State.newId (s : State) : Nat := s.fresh
def State.bump (s : State) : State := { s with fresh := s.fresh + 1 }
/-- A further draw of free values. -/
def State.draw (s : State) : State := { s with drawn := s.drawn + 1 }

/-- The core that a source number names (R15). -/
def coreOfSource (n : Nat) : CoreId := ⟨n / 256 % 16, n % 256⟩
/-- The copy of dtime that a source holds (R16; DESIGN CHOICE, log 6). -/
def State.dtimeAt (s : State) (c : CoreId) : Nat := s.dtime + Config.skew c.source s.dtime % 3

/-! Threads -/

/-- The home lane of a thread (R75). -/
def laneOf (t : Nat) : Nat := t % 32
/-- The home group of a thread within its team (R75). -/
def homeGroupOf (t : Nat) : Nat := t / 32

/-- The role that a thread belongs to (R75). -/
def Team.roleOf (x : Team) (t : Nat) : Option Role := x.roles.find? fun r => r.t0 ≤ t && t < r.t0 + r.n
/-- The number of threads of a team (R75). -/
def Team.size (x : Team) : Nat := (x.roles.map Role.n).foldl (· + ·) 0
/-- Whether a team stands under a discard or a save, when nothing passes between teams of its cluster (R379). -/
def Team.frozen (m : Team) : Bool := match m.preempt with | some p => p.choice != 0 | none => false

/-- Whether a team forms no group and issues nothing: stopped by the stepping unit, or under a discard or a save (R378, R389). -/
def Team.halted (m : Team) : Bool :=
  m.stepMode == .stopped || m.frozen

/-- Whether another team of a team's cluster is saved or waits to restart, while which it does not run (R76, R401). -/
def State.apart (s : State) (m : Team) : Bool :=
  (s.images.any fun e => decide (e.2.team.lid = m.lid ∧ e.2.team.cluster = m.cluster))
    || s.dies.any fun e => e.2.queue.any fun p => match p.origin with
      | .part lid b0 _ => decide (lid = m.lid) && (Table.find s.grids lid).any fun g => b0 == m.cluster * (g.record.cr * g.record.cc)
      | _ => false

/-- Whether a team forms no group and issues nothing (R76, R378, R389). -/
def State.halted (s : State) (m : Team) : Bool := m.halted || s.apart m

/-- The home-group place on the core of a thread's home group (R76). -/
def Team.placeOf (x : Team) (t : Nat) : Nat := x.places.getD (homeGroupOf t) 0
/-- The home group of a thread within its role, the g of an A-scale position (R153). -/
def Team.scaleGroup (x : Team) (t : Nat) : Nat :=
  homeGroupOf t - (match x.roleOf t with | some r => homeGroupOf r.t0 | none => 0)

/-- The stack word of window register `r` (R111). -/
def Thread.word (x : Thread) (r : Nat) : Nat := 56 * x.depth + r
/-- The value of window register `r`. -/
def Thread.reg (x : Thread) (r : Nat) : Word := x.regs.get (x.word r)
/-- Whether window register `r` is full (R119). -/
def Thread.full (x : Thread) (r : Nat) : Bool := !x.empties.contains (x.word r)
/-- Whether the registers `r` to `r + n - 1` are full. -/
def Thread.fullRange (x : Thread) (r n : Nat) : Bool := (List.range n).all fun k => x.full (r + k)
/-- The stack words of registers `r` to `r + n - 1`. -/
def Thread.words (x : Thread) (r n : Nat) : List Nat := (List.range n).map fun k => x.word (r + k)
/-- The pair of registers `r`, `r + 1`, low word first (R61). -/
def Thread.pair (x : Thread) (r : Nat) : DWord := x.reg (r + 1) ++ x.reg r
/-- Predicate `n`; p0 is true (R12). -/
def Thread.pred (x : Thread) (n : Nat) : Bool := n == 0 || x.preds.getLsbD n
/-- Predicate `n` written; a write to p0 is discarded (R128). -/
def Thread.setPred (x : Thread) (n : Nat) (v : Bool) : Thread :=
  if n = 0 then x
  else { x with preds := if v then x.preds ||| (1#8 <<< n) else x.preds &&& ~~~(1#8 <<< n) }
/-- The predicate that a selector names, inverted under bit 3 (R127, R132). -/
def Thread.select (x : Thread) (b : Byte) : Bool := x.pred (b.toNat % 8) != b.getLsbD 3
/-- Stack words marked empty (R119). -/
def Thread.markEmpty (x : Thread) (ws : List Nat) : Thread := { x with empties := NatSet.addAll x.empties ws }
/-- Stack words written and full. -/
def Thread.fill (x : Thread) (ws : List (Nat × Word)) : Thread :=
  { x with
    regs := ws.foldl (fun m w => m.set w.1 w.2) x.regs
    empties := x.empties.filter fun e => !(ws.map Prod.fst).contains e }
/-- Whether the guard of an instruction holds (R53). -/
def Thread.guard (x : Thread) (g : Guard) : Bool := x.pred g.pred.toNat != g.neg
/-- A queue's words, oldest first (R263). -/
def Thread.queue (x : Thread) (q : Nat) : List Word := Table.findD x.queues q []
def Thread.setQueue (x : Thread) (q : Nat) (ws : List Word) : Thread :=
  { x with queues := Table.put x.queues q ws }
/-- The replay signature with a value taken in (R392). -/
def Thread.sign (x : Thread) (v : DWord) : Thread := { x with sig := x.sig.rotateLeft 1 ^^^ v }
/-- Whether a thread has exited. -/
def Thread.gone (x : Thread) : Bool := match x.status with | .exited => true | _ => false

/-- The least privilege test of R364. -/
def Thread.mayDo (x : Thread) (p : Nat) : Bool := decide (p ≤ x.priv)

/-! Places of S and memory bytes -/

/-- A further event of S (R243). -/
def State.place (s : State) : State := { s with seq := s.seq + 1 }

/-- The byte of memory at a physical address, as of now (R11). -/
def State.byte (s : State) (pa : Nat) : Byte := s.mem.get pa

/-- The byte that a cell held at place `p` of S: what the earliest later write overwrote, otherwise what it holds now (R244). The history lists the newest write first. -/
def byteAt (now : Byte) (p key : Nat) (hist : List (Nat × Nat × Byte)) : Byte :=
  hist.foldl (fun b h => if p < h.1 ∧ h.2.1 = key then h.2.2 else b) now

def State.byteAt (s : State) (p pa : Nat) : Byte := Machine.byteAt (s.mem.get pa) p pa s.hist

/-- One byte of memory written, with what it overwrote kept for reads at earlier places of S. -/
def State.putByte (s : State) (pa : Nat) (b : Byte) : State :=
  { s with mem := s.mem.set pa b, hist := (s.seq, pa, s.mem.get pa) :: s.hist }

/-- Consecutive bytes of memory written. -/
def State.putBytes (s : State) (pa : Nat) : List Byte → State
  | [] => s
  | b :: bs => (s.putByte pa b).putBytes (pa + 1) bs

/-- `n` bytes of memory from a physical address. -/
def State.bytes (s : State) (pa n : Nat) : List Byte := s.mem.getList pa n

/-! Timestamps (R245 to R247) -/

/-- Whether timestamp `a` lies before `b`: the sign of their difference modulo 2^48 (R247). -/
def tsBefore (a b : BitVec 48) : Bool := decide (0 < (b - a).toInt)
/-- The later of two timestamps. -/
def tsMax (a b : BitVec 48) : BitVec 48 := if tsBefore a b then b else a

/-- A thread's timestamp raised past another (R245). -/
def State.raise (s : State) (t : ThreadId) (ts : BitVec 48) : State :=
  s.alterThread t fun x => { x with ts := tsMax x.ts ts }

/-- A thread ordered after every write performed so far: an acquire (R103, R251, R297, R309, R355). -/
def State.acquire (s : State) (t : ThreadId) : State := s.raise t s.wmax

/-- A field access of a thread as an event of S: the timestamps of those who meet in the field memory of a core go on together (R194, R243, R245). -/
def State.fieldPlace (s : State) (t : ThreadId) : State :=
  let s := s.place
  match s.thread t with
  | none => s
  | some x =>
    let c := s.coreOf t
    let ts := tsMax x.ts (s.core c).fieldTs
    (s.alterCore c fun k => { k with fieldTs := ts }).raise t ts

/-! Registers written, and the generations they step -/

/-- The generation counter of an object (R155). -/
def State.gen (s : State) (c : CoreId) (o : GenObject) : BitVec 12 := Table.findD (s.core c).gens o 0

/-- One generation stepped, at most once a clk; a step from 0xFFF to 0 removes every tag that names the object (R156, R157). -/
def stepGen (k : Core) (o : GenObject) : Core :=
  if k.stepped.contains o then k
  else
    let g := Table.findD k.gens o 0
    { k with
      gens := Table.put k.gens o (g + 1)
      stepped := o :: k.stepped
      ktags := if g = 0xFFF then k.ktags.filter fun e => decide (e.2.obj ≠ o) else k.ktags }

/-- Several generations stepped. -/
def State.stepGens (s : State) (c : CoreId) (os : List GenObject) : State :=
  if os = [] then s else s.alterCore c fun k => os.foldl stepGen k

/-- Generations read by a tag write or a check in this clk. -/
def State.noteChecked (s : State) (c : CoreId) (os : List GenObject) : State :=
  s.alterCore c fun k => { k with checked := k.checked ++ os.filter fun o => !k.checked.contains o && !k.stepped.contains o }

/-- Whether a generation that a tag write or a check has read in this clk has stepped since: an increment counts as performed before every tag write and check of its clk, so what would step it does not happen in this clk any more (R156, R159). -/
def State.clash (s : State) : Bool := s.cores.any fun e => e.2.stepped.any fun o => e.2.checked.contains o

/-- What an event leaves, unless it would step a generation that a check of the same clk has read: then it has still to happen, in a later clk (R156, R159). -/
def State.orLater (s u : State) : State := if u.clash && !s.clash then s else u

/-- The window registers that stack words are, in the present window. -/
def Thread.shown (x : Thread) (ws : List Nat) : List Nat :=
  (ws.filter fun w => x.word 0 ≤ w && w < x.word 0 + 64).map fun w => w - x.word 0

/-- The register blocks that stack words of a thread touch in its present window (R156). -/
def State.blocksOf (s : State) (t : ThreadId) (ws : List Nat) : List GenObject :=
  match s.thread t, s.teamOf t with
  | some x, some m => ((x.shown ws).map fun r => GenObject.block (m.placeOf t.t) (r / 16)).eraseDups
  | _, _ => []

/-- Stack words of a thread written and full, stepping the generations of the blocks they show (R121, R156). -/
def State.fillWords (s : State) (t : ThreadId) (ws : List (Nat × Word)) : State :=
  (s.alterThread t fun x => x.fill ws).stepGens (s.coreOf t) (s.blocksOf t (ws.map Prod.fst))

/-- Window registers of a thread written. -/
def State.writeRegs (s : State) (t : ThreadId) (rs : List (Nat × Word)) : State :=
  match s.thread t with
  | some x => s.fillWords t (rs.map fun r => (x.word r.1, r.2))
  | none => s

/-- Window registers of a thread marked empty (R119). -/
def State.emptyRegs (s : State) (t : ThreadId) (r n : Nat) : State :=
  s.alterThread t fun x => x.markEmpty (x.words r n)

/-! Observation -/

/-- The name of R384 that an event carries: LID, b and t; no thread is t = 0xFFFF. -/
structure Name where
  lid : Nat
  b   : Nat
  t   : Nat
  deriving DecidableEq, Repr

/-- The name of an event that no single thread caused (R384). -/
def Name.none : Name := ⟨0, 2 ^ 64 - 1, 0xFFFF⟩

/-- The logical name of a thread (R384). -/
def State.nameOf (s : State) (t : ThreadId) : Name :=
  match s.teamOf t with
  | some x => ⟨x.lid, x.b, t.t⟩
  | none => Name.none

/-- The bytes of a trace record (R388). -/
def recordBytes (dtime src : Nat) (n : Name) (pc : VAddr) (kind : Nat) (data : DWord) : List Byte :=
  bytesOf (BitVec.ofNat 64 dtime) 8 ++ bytesOf (BitVec.ofNat 64 n.b) 8 ++ bytesOf (BitVec.ofNat 32 n.lid) 4
    ++ bytesOf (BitVec.ofNat 16 n.t) 2 ++ bytesOf (BitVec.ofNat 16 src) 2
    ++ bytesOf (pc.zeroExtend 64) 8 ++ [BitVec.ofNat 8 kind] ++ List.replicate 7 0 ++ bytesOf data 8

/-- Bytes written outside S, as the trace units do (R388). -/
def State.rawBytes (s : State) (pa : Nat) (bs : List Byte) : State := { s with mem := s.mem.setList pa bs }

/-- A trace record emitted by a source, into the ring of its die; discarded while TRSIZE is 0 (R388). A record may run past the end of the ring, where it goes on at its start. -/
def State.trace (s : State) (c : CoreId) (n : Name) (pc : VAddr) (kind : Nat) (data : DWord) : State :=
  let d := s.die c.die
  let size := d.trsize.toNat % 2 ^ 24 * 65536
  if size = 0 then s
  else
    let bs := recordBytes (s.dtimeAt c) c.source n pc kind data
    let base := d.trbase.toNat % 2 ^ 52
    let s := (List.range 48).foldl
      (fun (s : State) k => s.rawBytes (base + (d.trhead.toNat + k) % size) [bs.getD k 0]) s
    s.setDie c.die { d with trhead := d.trhead + 48 }

/-- Whether counter `n` of a core counts an event of a grid and a team with the given gate (R387). -/
def countsEvent (sel : DWord) (code lid : Nat) (gate : Bool) : Bool :=
  let ev := sel.toNat % 256
  ev == code && ev != 0 && (sel.toNat / 2 ^ 32 == 0 || sel.toNat / 2 ^ 32 == lid) && (!sel.getLsbD 25 || gate)

/-- An event of a counter noted for the sample of this clk, which names the event of the least rank, the first of its rank; `crossed`, whether the count has passed a multiple of 2^PEXP (R387). -/
def noteSample (x : Core) (n : Nat) (who : Name) (rank : Nat) (crossed : Bool) : Core :=
  let new : Sample := ⟨crossed, rank, who.lid, who.b, who.t⟩
  let y : Sample := match Table.find x.samples n with
    | none => new
    | some y => if rank < y.rank then { new with owed := y.owed || crossed } else { y with owed := y.owed || crossed }
  { x with samples := Table.put x.samples n y }

/-- The rank of an event on a core: in a slot's turn that of the slot whose group runs or is being formed, and of the lane of the thread (R83, R387). -/
def State.rankOf (s : State) (c : CoreId) (who : Name) : Nat :=
  if who.t = 0xFFFF then 160
  else
    let slot := match s.cur with
      | some g => ((s.group g).map Group.slot).getD (s.core c).turn
      | none => Config.slots
    32 * slot + who.t % 32

/-- A count of a core risen by `k` (R386, R387). -/
def Core.add (x : Core) (r k : Nat) : Core :=
  { x with
    obs := x.obs.set r (x.obs.get r + BitVec.ofNat 64 k)
    accrued := x.accrued.set r (x.accrued.get r + BitVec.ofNat 64 k) }

/-- PEXP of a counter (R387). -/
def Core.pexp (x : Core) (n : Nat) : Nat := (x.obs.get n).toNat / 2 ^ 26 % 64

/-- Whether a count that rises by `k` passes a multiple of 2^p (R387). -/
def crosses (p : Nat) (old : DWord) (k : Nat) : Bool := decide ((old.toNat + k) / 2 ^ p ≠ old.toNat / 2 ^ p)

/-- One counter advanced by `k` events (R387). -/
def State.countOne (s : State) (c : CoreId) (n : Nat) (k : Nat) (who : Name) : State :=
  s.alterCore c fun x =>
    if x.pexp n = 0 then x.add (4 + n) k
    else noteSample (x.add (4 + n) k) n who (s.rankOf c who) (crosses (x.pexp n) (x.obs.get (4 + n)) k)

/-- The kind-4 record of a counter that owes one, once a clk (R387, R388). -/
def State.sample (s : State) (c : CoreId) (n : Nat) : State :=
  let x := s.core c
  match Table.find x.samples n with
  | none => s
  | some o =>
    if !o.owed || x.sampled.contains n then s
    else
      let v := (x.obs.get (4 + n)).toNat
      (s.setCore c { x with sampled := x.sampled.add n }).trace c ⟨o.lid, o.b, o.t⟩ 0 4 (BitVec.ofNat 64 (n + v / 4 * 4))

/-- `k` events of a code on a core, of a grid and a team, counted in the four counters (R387). -/
def State.count (s : State) (c : CoreId) (code k : Nat) (who : Name) (gate : Bool) : State :=
  (List.range 4).foldl
    (fun (s : State) n => if k ≠ 0 && countsEvent ((s.core c).obs.get n) code who.lid gate then s.countOne c n k who else s) s

/-- Events that a thread causes. -/
def State.countFor (s : State) (t : ThreadId) (code k : Nat) : State :=
  s.count (s.coreOf t) code k (s.nameOf t) ((s.teamOf t).map Team.gate |>.getD false)

/-- FMTANOM or ANALOG set in a team's matrix status (R43, R218). -/
def State.setAnomaly (s : State) (t : ThreadId) : State :=
  (s.alterTeam t.team fun x => { x with fmtanom := true }).countFor t 0x0B 1

/-! Formed groups -/

/-- The address of instruction `k` of a clause, counted from 0 (R47). -/
def Clause.address (x : Clause) (k : Nat) : VAddr := x.header + BitVec.ofNat 57 (8 * (k + 1))
/-- NEXT: the header that follows the clause (R47, R95). -/
def Clause.next (x : Clause) : VAddr := x.header + BitVec.ofNat 57 (8 * (x.words.length + 1))
/-- The address of the instruction that a group executes. -/
def Group.pc (g : Group) : VAddr := g.clause.address g.idx

/-- A thread taken out of its formed group, with its held push and its place among the waiting sends and receives; a group without members is gone (R79). -/
def State.leaveGroup (s : State) (t : ThreadId) : State :=
  match s.thread t with
  | some x =>
    match x.status with
    | .member n =>
      match s.group n with
      | some g =>
        let g' := { g with members := g.members.filter (· ≠ t.t), done := g.done.filter (· ≠ t.t), engaged := g.engaged.filter (· ≠ t.t), left := g.left ++ [t.t] }
        let s := { s with
          heldPushes := s.heldPushes.filter fun e => decide (e.2.t ≠ t)
          channels := s.channels.map fun (e : (Nat × Nat × Nat) × Channel) =>
            (e.1, { e.2 with senders := Table.drop e.2.senders t, receivers := e.2.receivers.filter (· ≠ t) }) }
        if g'.members = [] then { s with groups := Table.drop s.groups n }
        else { s with groups := Table.put s.groups n g' }
      | none => s
    | _ => s
  | none => s

/-- A thread whose PC names a header: it waits there, and becomes eligible when the header's waits hold (R78). -/
def State.arrive (s : State) (t : ThreadId) (pc : VAddr) : State :=
  (s.leaveGroup t).alterThread t fun x => { x with pc := pc, status := .waiting 0 }

/-! Taking an exception -/

/-- A report to the hub cores about a thread (R362). -/
def State.report (s : State) (t : ThreadId) (x : Trap) : State :=
  let n := s.nameOf t
  { s with reports := s.reports ++ [⟨s.coreOf t, n.lid, n.b, n.t, x⟩] }

/-- A report of a core for no thread, counted on that core (R362, R384, R387). -/
def State.reportNone (s : State) (c : CoreId) (n : Name) (x : Trap) : State :=
  let s := s.count c 0x0E 1 n false
  { s with reports := s.reports ++ [⟨c, n.lid, n.b, n.t, x⟩] }

/-- The four auxiliary words, 0 where unused (R361). -/
def auxWords (l : List DWord) : List DWord := (List.range 4).map fun k => l.getD k 0

/-- A thread stopped: it leaves its group, issues nothing more and keeps all its state (R362). -/
def State.stop (s : State) (t : ThreadId) (at_ : Option (Clause × Nat)) : State :=
  (s.leaveGroup t).alterThread t fun x => { x with status := .stopped at_ }

/-- The stop of R362, with its report: a precise cause in a handler is reported as 0x1E2. -/
def State.stopFor (s : State) (t : ThreadId) (x : Trap) (inHandler : Bool) : State :=
  let x' : Trap :=
    if inHandler then ⟨0x1E2, x.pc, x.cause.zeroExtend 64 :: (auxWords x.aux).take 3⟩
    else { x with aux := auxWords x.aux }
  (s.report t x').stop t none

/-- HVEC of a thread's context (R361). -/
def State.hvecOf (s : State) (t : ThreadId) : DWord := ((Table.find s.contexts (s.cnOf t)).map Context.hvec).getD 0

/-- The handler entry of R361: the shadow registers, the cause, the PC and the auxiliary words saved, IN and PRIV set, and the PC at HVEC. `keep` is the clause position that only an rfe to an unchanged TRET uses. -/
def Thread.enterHandler (x : Thread) (tr : Trap) (ret hvec : VAddr) : Thread :=
  { x with
    tshw := (List.range 8).foldl (fun m k => m.set k ((x.reg (56 + k)).zeroExtend 64)) x.tshw
    tshp := (x.preds &&& 0xFE).zeroExtend 64
    savedPriv := x.priv
    savedCtxSel := x.ctxSel
    tcause := tr.cause
    tpc := tr.pc
    taux := (List.range 4).foldl (fun m k => m.set k (tr.aux.getD k 0)) x.taux
    tret := ret
    edepth := x.depth
    inHandler := true
    priv := max x.priv 1
    ctxSel := 0
    tretWritten := false
    pc := hvec
    status := .waiting 0 }

/-- Whether no write is in flight to w56 to w63 (R361). -/
def Thread.shadowReady (x : Thread) : Bool := x.fullRange 56 8

/-- A cause delivered to a thread with IN = 0 and HVEC not 0: the thread leaves its group and enters the handler, at once or when the writes in flight to w56 to w63 are done (R361). -/
def State.deliver (s : State) (t : ThreadId) (tr : Trap) (ret : VAddr) (keep : Option (Clause × Nat)) : State :=
  let hvec : VAddr := (s.hvecOf t).truncate 57
  (s.leaveGroup t).alterThread t fun x =>
    let x := { x with resume := keep }
    if x.shadowReady then x.enterHandler tr ret hvec else { x with status := .entering tr ret }

/-- TAKING AN EXCEPTION, the one operation for it: a cause raised in a thread. `ret` is TRET and `keep` the clause position. A precise cause in a handler, and any cause while HVEC is 0, stops the thread and is reported (R362); otherwise the thread enters its handler (R361). -/
def State.takeTrap (s : State) (t : ThreadId) (tr : Trap) (ret : VAddr) (keep : Option (Clause × Nat)) : State :=
  match s.thread t with
  | none => s
  | some x =>
    let s := s.countFor t 0x0E 1
    if x.inHandler then s.stopFor t tr true
    else if s.hvecOf t = 0 then s.stopFor t tr false
    else s.deliver t tr ret keep

/-- A precise cause at instruction `k` of a clause: TRET is the faulting PC, or NEXT for trap (R361). -/
def State.trapAt (s : State) (t : ThreadId) (x : Clause) (k : Nat) (cause : Cause) (aux : List DWord) : State :=
  if 0x1F0 ≤ cause.toNat then s.takeTrap t ⟨cause, x.address k, aux⟩ x.next none
  else s.takeTrap t ⟨cause, x.address k, aux⟩ (x.address k) (some (x, k))

/-- A precise cause whose faulting PC names a header (R68, R69). -/
def State.trapHeader (s : State) (t : ThreadId) (header : VAddr) (cause : Cause) (aux : List DWord) : State :=
  s.takeTrap t ⟨cause, header, aux⟩ header none

/-- STEP: the clock step of a die (R403). -/
def Die.step (d : Die) : Nat := max (d.pwrctl.toNat % 16) (max d.heat d.limited)
/-- PWRSTAT: TEMP, WHY and STEP (R403). -/
def Die.pwrstat (d : Die) : DWord :=
  let why := (if d.pwrctl.toNat % 16 = 0 then 0 else 1) + (if d.heat = 0 then 0 else 2) + (if d.limited = 0 then 0 else 4)
  BitVec.ofNat 64 (d.temp % 256 * 2 ^ 32 + why * 2 ^ 8 + d.step)

/-- A machine check recorded in MCSTAT of a die: KIND and MC (R404). -/
def State.machineCheck (s : State) (d kind : Nat) : State :=
  s.alterDie d fun x => { x with mcstat := (x.mcstat &&& 0xFFFFFFFFFFFF00FF) ||| BitVec.ofNat 64 (kind * 256 + 1) }

/-- The core that a report of a die for no thread comes from (R15; DESIGN CHOICE, log 7). -/
def checkCore (die : Nat) : CoreId :=
  ⟨die, Config.checkSource die % (if die < 8 then Config.cores else Config.hubCores)⟩

/-- An error found after its thread has exited: machine check 0x1E0 of KIND 7, reported for no thread (R241, R362, R404). -/
def State.lateError (s : State) (c : CoreId) : State := (s.machineCheck c.die 7).reportNone c Name.none ⟨0x1E0, 0, auxWords []⟩

/-- Whether a deferred cause is the error reply of an access (R241). -/
def isErrorReply (c : Cause) : Bool := c == 0x086 || c == 0x0E2

/-- Whether a pre-emption has stopped a thread at a boundary outside a handler: a cause that is raised then is never raised (R378, R383). -/
def State.stoppedOutside (s : State) (t : ThreadId) (x : Thread) : Bool :=
  (s.teamOf t).any Team.frozen && !x.inHandler &&
    match x.status with
    | .waiting _ => true
    | .eligible _ => true
    | .member n => (s.group n).any fun g => !g.engaged.contains t.t
    | _ => false

/-- A deferred cause queued for a thread, in order of arrival, unless a pre-emption has stopped it before (R383); for a thread that has exited an error reply is a machine check. The spec names no outcome for another cause of such a thread, 0x109 or 0x184, and nothing is raised (R43, R241, R348, R360, R404; DESIGN CHOICE, log 20). -/
def State.defer (s : State) (t : ThreadId) (tr : Trap) : State :=
  match s.thread t with
  | some x =>
    if x.gone then (if isErrorReply tr.cause then s.lateError (s.coreOf t) else s)
    else if s.stoppedOutside t x then s
    else s.alterThread t fun x => { x with deferred := x.deferred ++ [tr] }
  | none => s

/-- The return from a handler: w56 to w63, p1 to p7, PRIV and CTXSEL restored, IN clear (R365). -/
def Thread.leaveHandler (x : Thread) : Thread :=
  let x := x.fill ((List.range 8).map fun k => (x.word (56 + k), (x.tshw.get k).truncate 32))
  { x with
    preds := (x.tshp.truncate 8 &&& 0xFE) ||| 1
    priv := x.savedPriv
    ctxSel := x.savedCtxSel
    inHandler := false }

/-- RETURN FROM AN EXCEPTION: the registers of the handler entry restored; the blocks of w56 to w63 written (R156, R365). -/
def State.returnTrap (s : State) (t : ThreadId) : State :=
  match s.thread t with
  | some x => (s.setThread t x.leaveHandler).stepGens (s.coreOf t) (s.blocksOf t (x.words 56 8))
  | none => s

end Sys2Proof.Machine
end

