-- ==== Sys2Proof/Machine/Operands.lean ====
section
/-! DEFINITION. Operands: every form of source and destination (R59 to R61), what a source reads, when a source or a destination blocks or traps (R120, R121, R263), and what an instruction writes. -/

namespace Sys2Proof.Machine

/-- A source position of an instruction. -/
inductive Src where
  /-- a 32-bit operand byte with its block-or-trap bit -/
  | one (b : Byte) (bt : Bool)
  /-- a 64-bit operand byte (R61) -/
  | pair (b : Byte) (bt : Bool)
  /-- `n` window registers from register `r`, which always block -/
  | regs (r n : Nat)
  deriving DecidableEq, Repr

/-- A destination of an instruction. -/
inductive Dst where
  | one (b : Byte)
  | pair (b : Byte)
  | regs (r n : Nat)
  deriving DecidableEq, Repr

/-- The queue that an operand byte names, 0 to 7 (R59). -/
def queueOf (b : Byte) : Option Nat :=
  if 0x50 ≤ b.toNat ∧ b.toNat ≤ 0x57 then some (b.toNat - 0x50) else none

/-- The 7-bit two's-complement value of an inline immediate (R59). -/
def immOf (b : Byte) : Word := (b.truncate 7).signExtend 32

/-- What a 32-bit source operand byte reads in a thread, where `skip` words of its queue are taken already (R59, R60). -/
def readOne (m : Team) (x : Thread) (t : Nat) (skip : Nat) (b : Byte) : Word :=
  let n := b.toNat
  if n < 0x40 then x.reg n
  else if n < 0x50 then m.consts.getD (n - 0x40) 0
  else if n = 0x59 then BitVec.ofNat 32 (laneOf t)
  else if n = 0x5A then BitVec.ofNat 32 (homeGroupOf t)
  else if 0x80 ≤ n then immOf b
  else match queueOf b with
    | some q => (x.queue q).getD skip 0
    | none => 0

/-- What a 64-bit source operand byte reads (R61). -/
def readPair (m : Team) (x : Thread) (b : Byte) : DWord :=
  let n := b.toNat
  if n < 0x40 then x.pair n
  else if n < 0x50 then m.consts.getD (n - 0x3F) 0 ++ m.consts.getD (n - 0x40) 0
  else if 0x80 ≤ n then (immOf b).signExtend 64
  else 0

/-- The queue that a source pops (R60). -/
def Src.pops : Src → Option Nat
  | .one b _ => queueOf b
  | _ => none

/-- How many of the sources listed pop a queue. -/
def popsOf (l : List Src) (q : Nat) : Nat := (l.filter fun s => s.pops == some q).length

/-- The value of a source; `before` are the sources read before it (R60). Register ranges read as 0 here. -/
def Src.value (m : Team) (x : Thread) (t : Nat) (before : List Src) : Src → DWord
  | .one b _ => (readOne m x t (match queueOf b with | some q => popsOf before q | none => 0) b).zeroExtend 64
  | .pair b _ => readPair m x b
  | .regs _ _ => 0

/-- The values of the sources, in the order A, B, C (R60). -/
def valuesFrom (m : Team) (x : Thread) (t : Nat) (before : List Src) : List Src → List DWord
  | [] => []
  | s :: ss => s.value m x t before :: valuesFrom m x t (before ++ [s]) ss

/-- The thread's queues without the words that the sources pop (R60). -/
def Thread.popAll (x : Thread) (l : List Src) : Thread :=
  l.foldl (fun x s => match s.pops with | some q => x.setQueue q ((x.queue q).drop 1) | none => x) x

/-- Why an instruction cannot execute yet for a thread: it must wait, or it traps (R120). -/
inductive Block where
  | wait (h : Hold)
  | trap (cause : Cause) (aux : List DWord)
  deriving DecidableEq, Repr

/-- An empty register as a source: it holds the group, or raises 0x040 with the position and the register under a set block-or-trap bit (R120). Of a pair it is the first register that is empty, for the spec says only 'the register number' (DESIGN CHOICE, log 21). -/
def emptySource (t : ThreadId) (x : Thread) (pos r n : Nat) (bt : Bool) : Option Block :=
  match (List.range n).find? fun k => !x.full (r + k) with
  | none => none
  | some k =>
    if bt then some (.trap 0x040 [BitVec.ofNat 64 pos, BitVec.ofNat 64 (r + k)])
    else some (.wait (.words t (x.words r n)))

/-- Whether a source blocks or traps; `before` are the sources read before it (R60, R120). -/
def Src.block (t : ThreadId) (x : Thread) (pos : Nat) (before : List Src) : Src → Option Block
  | .one b bt =>
    if b.toNat < 0x40 then emptySource t x pos b.toNat 1 bt
    else match queueOf b with
      | some q => if popsOf before q < (x.queue q).length then none else some (.wait (.pop t q (popsOf before q + 1)))
      | none => none
  | .pair b bt => if b.toNat < 0x40 then emptySource t x pos b.toNat 2 bt else none
  | .regs r n => emptySource t x pos r n false

/-- The first source, in the order A, B, C, that blocks or traps: where one is empty without its block-or-trap bit and another with it, the first of them decides (R120; DESIGN CHOICE, log 21). -/
def blockFrom (t : ThreadId) (x : Thread) (before : List Src) : List Src → Option Block
  | [] => none
  | s :: ss =>
    match s.block t x before.length before with
    | some b => some b
    | none => blockFrom t x (before ++ [s]) ss

/-- Whether a destination must be waited for: an empty register (R121), or a full staging queue (R263); `pops` are the sources, which pop first (R60). -/
def Dst.block (t : ThreadId) (x : Thread) (pops : List Src) : Dst → Option Block
  | .one b =>
    if b.toNat < 0x40 then emptySource t x 0 b.toNat 1 false
    else match queueOf b with
      | some q =>
        if q < 4 ∨ (x.queue q).length < 16 + popsOf pops q then none else some (.wait (.push t q 1))
      | none => none
  | .pair b => if b.toNat < 0x40 then emptySource t x 0 b.toNat 2 false else none
  | .regs r n => emptySource t x 0 r n false

/-- The first destination that must be waited for. -/
def blockDsts (t : ThreadId) (x : Thread) (pops : List Src) (l : List Dst) : Option Block :=
  l.findSome? fun d => d.block t x pops

/-- LEN of a command header (R267). -/
def cmdLen (h : Word) : Nat := h.toNat / 2 ^ 24 % 16

/-- Whether a word pushed to a destination issues an engine command: it is the last of the assembly in q0 or q2 (R264). -/
def Dst.issues (x : Thread) : Dst → Bool
  | .one b =>
    match queueOf b with
    | some q => decide (q < 4) && ((x.queue q).head?.any fun h => (x.queue q).length == cmdLen h)
    | none => false
  | _ => false

/-- What an instruction of the lane families writes in its thread: registers, predicates, words pushed, and whether it sets FMTANOM (R133). -/
structure Effect where
  regs    : List (Nat × Word) := []
  preds   : List (Nat × Bool) := []
  pushes  : List (Nat × Word) := []
  anomaly : Bool := false
  deriving DecidableEq, Repr

/-- A 32-bit destination operand byte written: a register, a queue, or nothing for zr (R59). -/
def writeDst (d : Byte) (v : Word) : Effect :=
  if d.toNat < 0x40 then { regs := [(d.toNat, v)] }
  else match queueOf d with
    | some q => { pushes := [(q, v)] }
    | none => {}

/-- A register pair written, low word first; nothing for zr (R61). -/
def writePair (d : Byte) (v : DWord) : Effect :=
  if d.toNat < 0x40 then { regs := [(d.toNat, v.truncate 32), (d.toNat + 1, (v >>> 32).truncate 32)] } else {}

/-- A predicate written; the selector names it in bits [2:0] (R127). -/
def writePred (d : Byte) (v : Bool) : Effect := { preds := [(d.toNat % 8, v)] }

/-- The predicates of an effect written to a thread. -/
def Thread.setPreds (x : Thread) (l : List (Nat × Bool)) : Thread := l.foldl (fun x p => x.setPred p.1 p.2) x

/-- A value of a list of source values, as a 32-bit word. -/
def arg (vs : List DWord) (k : Nat) : Word := (vs.getD k 0).truncate 32
/-- A value of a list of source values, as 64 bits. -/
def arg64 (vs : List DWord) (k : Nat) : DWord := vs.getD k 0

end Sys2Proof.Machine
end

