-- ==== Sys2Proof/Machine/Driver.lean ====
section
/-! DEFINITION. How a formed group executes one instruction: every member in ACTIVE in ascending home-lane order, held as a whole while a member must block, left by members that trap (R53, R81). -/

namespace Sys2Proof.Machine

/-- What an instruction reads and writes before its own meaning: its guard, its sources in order, its destinations, and whether it makes an event of S (R120, R121, R215). -/
structure Shape where
  guard : Guard
  srcs  : List Src := []
  dsts  : List Dst := []
  inS   : Bool := false
  deriving DecidableEq, Repr

/-- What came of one thread's execution of an instruction. -/
inductive Attempt where
  /-- executed -/
  | done (s : State)
  /-- it must wait and will be tried again; nothing has been popped -/
  | wait (h : Hold) (s : State)
  /-- it is under way elsewhere, and what finishes it marks the thread done -/
  | engage (s : State)
  /-- it is held elsewhere and has had no effect yet: nothing has been popped -/
  | park (s : State)
  /-- it has stopped the thread, which has left the group; nothing has been popped or counted -/
  | left (s : State)
  /-- a cause, with no effect in the thread -/
  | trap (cause : Cause) (aux : List DWord) (s : State)

/-- The formed group of a thread. -/
def State.groupOf (s : State) (t : ThreadId) : Option Group :=
  match (s.thread t).map Thread.status with
  | some (.member n) => s.group n
  | _ => none
/-- Whether an accumulator store of the thread waits to be performed (R215). -/
def State.storePending (s : State) (t : ThreadId) : Bool :=
  (s.core (s.coreOf t)).accq.any fun e => match e.2 with | .store u .. => decide (u = t) | _ => false

/-- Why an instruction of a shape cannot execute yet for a thread: its sources in order, then its destinations, then the store that an event of S must follow, the issue of a command among them (R215, R251). -/
def State.blockOf (s : State) (sh : Shape) (t : ThreadId) : Option Block :=
  match s.thread t with
  | none => none
  | some x =>
    match blockFrom t x [] sh.srcs with
    | some b => some b
    | none =>
      match blockDsts t x sh.srcs sh.dsts with
      | some b => some b
      | none => if (sh.inS || sh.dsts.any (Dst.issues x)) && s.storePending t then some (.wait (.stores t)) else none

/-- The values of an instruction's sources in a thread. -/
def State.valuesOf (s : State) (sh : Shape) (t : ThreadId) : List DWord :=
  match s.thread t, s.teamOf t with
  | some x, some m => valuesFrom m x t.t [] sh.srcs
  | _, _ => []

/-- The end of a clause: every member goes on at NEXT and the group is gone (R47, R81). -/
def State.endClause (s : State) (n : Nat) (g : Group) : State :=
  let s := g.members.foldl
    (fun (s : State) t => s.alterThread ⟨g.team, t⟩ fun x => { x with pc := g.clause.next, status := .waiting 0 }) s
  { s with groups := Table.drop s.groups n }

/-- The group passes to its next instruction when the present one has executed for every member (R81). -/
def State.passOn (s : State) (n : Nat) : State :=
  match s.group n with
  | none => s
  | some g =>
    if g.members.all fun t => g.done.contains t then
      if g.idx + 1 < g.clause.words.length then
        s.alterGroup n fun g => { g with idx := g.idx + 1, done := [], engaged := [], hold := none, counted := false, asked := none }
      else s.endClause n g
    else s

/-- A member marked as having executed the present instruction. -/
def State.markDone (s : State) (n t : Nat) : State :=
  s.alterGroup n fun g =>
    { g with done := if g.members.contains t then g.done ++ [t] else g.done, engaged := g.engaged.filter (· ≠ t) }

/-- An execution that was under way elsewhere ends for a thread: its group goes on when that was the last (R81). -/
def State.finish (s : State) (t : ThreadId) : State :=
  match (s.thread t).map Thread.status with
  | some (.member n) => (s.markDone n t.t).passOn n
  | _ => s

/-- One instruction executed by a thread in ACTIVE, as PROG counts it (R367; DEDUCED, log 16). -/
def State.progress (s : State) (t : ThreadId) : State :=
  s.alterTeam t.team fun m => { m with prog := m.prog + 1 }

/-- The trap of a thread at the instruction that its group executes. -/
def State.trapIn (s : State) (g : Group) (t : Nat) (cause : Cause) (aux : List DWord) : State :=
  s.trapAt ⟨g.team, t⟩ g.clause g.idx cause aux

/-- Whether sources pop a completion word: the pop follows its D(E), and so every landing before that (R60, R251, R253). -/
def acquires (srcs : List Src) : Bool := srcs.any fun x => x.pops == some 1 || x.pops == some 3

/-- A thread ordered after what a completion word that it has popped follows; `w` is the timestamp of the latest write (R245, R253). -/
def Thread.caughtUp (x : Thread) (srcs : List Src) (w : BitVec 48) : Thread := if acquires srcs then { x with ts := tsMax x.ts w } else x

/-- The words that an instruction's sources pop leave their queues (R60, R253). -/
def State.popFor (s : State) (t : ThreadId) (srcs : List Src) : State := s.alterThread t fun x => (x.popAll srcs).caughtUp srcs s.wmax

/-- The same for an instruction that takes effect after its turn (R60, R265, R310). -/
def State.popQueues (s : State) (t : ThreadId) (pops : List Nat) : State :=
  let s := s.alterThread t fun x => pops.foldl (fun x q => x.setQueue q ((x.queue q).drop 1)) x
  if pops.any fun q => q == 1 || q == 3 then s.acquire t else s

/-- One thread's turn at the group's instruction, and what it must wait for. -/
def State.attempt (s : State) (n : Nat) (g : Group) (sh : Shape) (body : State → ThreadId → List DWord → Attempt) (t : Nat) :
    State × Option Hold :=
  let id : ThreadId := ⟨g.team, t⟩
  match body s id (s.valuesOf sh id) with
  | .done s' => (((s'.popFor id sh.srcs).progress id).markDone n t, none)
  | .wait h s' => (s', some h)
  | .engage s' =>
    (((s'.popFor id sh.srcs).progress id).alterGroup n fun g =>
      { g with engaged := g.engaged ++ [t], hold := some (g.hold.getD .engaged) }, none)
  | .park s' => (s'.alterGroup n fun g => { g with engaged := g.engaged ++ [t], hold := some (g.hold.getD .engaged) }, none)
  | .left s' => (s', none)
  | .trap c aux s' => (s'.trapIn g t c aux, none)

/-- The members that have still to execute the present instruction and whose guards hold. -/
def State.activeOf (s : State) (g : Group) (guard : Guard) : List Nat :=
  g.members.filter fun t => !g.done.contains t && !g.engaged.contains t
    && (match s.thread ⟨g.team, t⟩ with | some x => x.guard guard | none => false)

/-- The members outside ACTIVE marked as done: an instruction does nothing in them (R53). -/
def State.skipOthers (s : State) (n : Nat) (active : List Nat) : State :=
  s.alterGroup n fun g =>
    { g with done := g.done ++ g.members.filter fun t => !g.done.contains t && !g.engaged.contains t && !active.contains t }

/-- The threads of ACTIVE that an empty source makes trap, with cause and auxiliary words (R120). -/
def State.trapsOf (s : State) (g : Group) (sh : Shape) (active : List Nat) : List (Nat × Cause × List DWord) :=
  active.filterMap fun t =>
    match s.blockOf sh ⟨g.team, t⟩ with
    | some (.trap c aux) => some (t, c, aux)
    | _ => none

/-- The first reason for which a thread of ACTIVE must block (R81). -/
def State.waitOf (s : State) (g : Group) (sh : Shape) (active : List Nat) : Option Hold :=
  active.findSome? fun t =>
    match s.blockOf sh ⟨g.team, t⟩ with
    | some (.wait h) => some h
    | _ => none

/-- Whether a member that must wait leaves the members of lower lanes without effect too, so that the accesses of one instruction stay consecutive in S and a clause is left by all of its members at once (R79, R81, R238, R259). A spawn and a channel transfer are given to one member after the other (R305, R336). -/
def Hold.undoes : Hold → Bool
  | .spawn _ _ => false
  | .channel _ _ _ _ => false
  | .sync _ _ _ => false
  | _ => true

/-- The threads of ACTIVE in ascending home-lane order, up to the first that must wait: a thread that an empty source makes trap, or a turn at the instruction (R6, R81, R120). -/
def State.attemptAll (n : Nat) (g : Group) (sh : Shape) (body : State → ThreadId → List DWord → Attempt)
    (traps : List (Nat × Cause × List DWord)) : List Nat → State → State × Option Hold
  | [], s => (s, none)
  | t :: ts, s =>
    match traps.find? fun x => x.1 == t with
    | some x => State.attemptAll n g sh body traps ts (s.trapIn g t x.2.1 x.2.2)
    | none =>
      match s.attempt n g sh body t with
      | (s, none) => State.attemptAll n g sh body traps ts s
      | (s, some h) => (s, some h)

/-- The group held for a reason, unless it is held already. -/
def State.holdGroup (s : State) (n : Nat) (h : Hold) : State := s.alterGroup n fun g => { g with hold := some (g.hold.getD h) }

/-- Every trap of an empty source taken. -/
def State.trapEach (s : State) (g : Group) (traps : List (Nat × Cause × List DWord)) : State :=
  traps.foldl (fun (s : State) x => s.trapIn g x.1 x.2.1 x.2.2) s

/-- The group's instruction executed for its members: a member whose source or destination must wait holds the whole group, and nothing of the instruction happens yet; otherwise the threads of ACTIVE execute, or trap for an empty source with its BT bit set, in ascending home-lane order (R6, R81, R120; DESIGN CHOICE, log 21). -/
def State.runIn (s : State) (n : Nat) (g : Group) (sh : Shape) (body : State → ThreadId → List DWord → Attempt) : State :=
  let active := s.activeOf g sh.guard
  let traps := s.trapsOf g sh active
  let held := s.waitOf g sh (active.filter fun t => !(traps.map Prod.fst).contains t)
  let s := (s.skipOthers n active).alterGroup n fun g => { g with hold := if g.engaged = [] then none else some .engaged }
  match held with
  | some h => (s.alterGroup n fun g => { g with hold := some h }).passOn n
  | none =>
    match State.attemptAll n g sh body traps active s with
    | (s', none) => s'.passOn n
    | (s', some h) => ((if h.undoes then s else s').holdGroup n h).passOn n

/-- The current group's instruction executed (R81). -/
def runGroup (s : State) (sh : Shape) (body : State → ThreadId → List DWord → Attempt) : Result :=
  match s.cur with
  | none => .fault .noGroup
  | some n =>
    match s.group n with
    | none => .fault .noGroup
    | some g => .next (s.runIn n g sh body)

/-- An instruction that acts once for all of ACTIVE together: `body` answers the new state after marking what it must. -/
def runWhole (s : State) (sh : Shape) (body : State → Nat → Group → List Nat → State) : Result :=
  match s.cur with
  | none => .fault .noGroup
  | some n =>
    match s.group n with
    | none => .fault .noGroup
    | some g =>
      let active := s.activeOf g sh.guard
      let traps := s.trapsOf g sh active
      let rest := active.filter fun t => !(traps.map Prod.fst).contains t
      let held := s.waitOf g sh rest
      let s := (s.skipOthers n active).alterGroup n fun g => { g with hold := if g.engaged = [] then none else some .engaged }
      match held with
      | some h => .next ((s.alterGroup n fun g => { g with hold := some h }).passOn n)
      | none => .next ((body (s.trapEach g traps) n g rest).passOn n)

/-- A privilege check of R364 before a body: 0x1E1 with TAUX0 the register number, or 0. -/
def needPriv (p csr : Nat) (body : State → ThreadId → List DWord → Attempt) : State → ThreadId → List DWord → Attempt :=
  fun s t vs =>
    match s.thread t with
    | some x => if x.mayDo p then body s t vs else .trap 0x1E1 [BitVec.ofNat 64 csr] s
    | none => .done s

end Sys2Proof.Machine
end

