-- ==== Sys2Proof/Machine/Memory.lean ====
section
/-! DEFINITION. Global memory: physical regions (R11, R222), translation (R368 to R372) with the checks of R237, residency classes (R230), the caches (R224 to R232), page home modes (R233, R234), leases (R245 to R247), and the reads and writes of memory by threads and by the device. -/

namespace Sys2Proof.Machine

/-! Regions -/

/-- The stack of a physical address of HBM4E (R11). -/
def stackOf (pa : Nat) : Nat := pa / 2 ^ 36 % 16
/-- The die that owns a stack (R9, R11). -/
def dieOfStack (k : Nat) : Nat := if k ≤ 3 then k else 4 + (k - 4) / 3
/-- The home die of an address (R11). -/
def homeDie (pa : Nat) : Nat := dieOfStack (stackOf pa)
/-- Whether an address lies in HBM4E (R222). -/
def inHbm (pa : Nat) : Bool := decide (pa < 2 ^ 40)
/-- The register window that an address lies in, with the offset (R222). -/
def windowOf (pa : Nat) : Option (Nat × Nat) :=
  let r := pa / 2 ^ 40
  if 0xFF0 ≤ r ∧ r ≤ 0xFF8 ∧ pa % 2 ^ 40 ≤ 0xFFFFFF then some (r - 0xFF0, pa % 2 ^ 40) else none

/-- The physical address of a place in a register window (R222). -/
def windowAddr (d off : Nat) : Nat := (0xFF0 + d) * 2 ^ 40 + off

/-- Where a translated access goes. -/
inductive Target where
  | hbm (pa : Nat)
  | window (die offset : Nat)
  /-- nowhere: a read of the walk met an error reply, which answers the access too (R241, R363) -/
  | failed (c : Cause)
  deriving DecidableEq, Repr

/-- What an access needs and may do (R222, R370). -/
structure Need where
  r : Bool := false
  w : Bool := false
  x : Bool := false
  /-- the access may reach a register window: a 4-byte load or store of a thread, a piece of 4 bytes of a memory message -/
  window : Bool := false
  deriving DecidableEq, Repr

def needLoad (size : Nat) : Need := { r := true, window := size == 4 }
def needStore (size : Nat) : Need := { w := true, window := size == 4 }
def needAtomic : Need := { r := true, w := true }
def needFetch : Need := { x := true }
def needRead : Need := { r := true }
def needWrite : Need := { w := true }

/-! Page table entries (R369) -/

/-- A bit of a page table entry. -/
def entryBit (e : DWord) (n : Nat) : Bool := e.getLsbD n
/-- OWN of an entry (R351). -/
def entryOwn (e : DWord) : Nat := (e.extractLsb' 52 12).toNat

/-- A level of the walk: the low VA bit and the number of bits of its index (R368). -/
structure Level where
  lo   : Nat
  bits : Nat
  deriving DecidableEq, Repr

/-- The levels from L5 down to L1 (R368). -/
def levels : List Level := [⟨49, 8⟩, ⟨33, 16⟩, ⟨28, 5⟩, ⟨21, 7⟩, ⟨16, 5⟩]

/-- Whether an entry of a level is malformed; `rest` are the levels below (R371). -/
def malformed (e : DWord) (l : Level) (rest : List Level) (top : Bool) : Bool :=
  if (e.toNat / 2) % 4 ≠ 0 then true
  else if entryBit e 3 then
    top || (e.toNat / 256) % 256 ≠ 0 || (e.toNat / 2 ^ 16 % 2 ^ 36 * 2 ^ 16) % 2 ^ l.lo ≠ 0
  else
    e.toNat / 2 ^ 52 ≠ 0 || (e.toNat / 16) % 16 ≠ 0
      || match rest with
         | [] => true
         | n :: _ => (e.toNat / 2 ^ 8 % 2 ^ 44 * 2 ^ 8) % 2 ^ (n.bits + 3) ≠ 0

/-- What a walk finds. -/
inductive Walk where
  /-- a leaf: its entry, the address it was read at, the log of its page size -/
  | leaf (e : DWord) (addr log : Nat)
  | cause (c : Cause)
  /-- a read of an entry met an error reply with this cause (R241) -/
  | error (c : Cause)
  deriving DecidableEq, Repr

/-- The entry of memory at an address. -/
def State.entryAt (s : State) (addr : Nat) : DWord := BitVec.ofNat 64 (s.mem.num addr 8)

/-! Caches -/

/-- How an access uses the caches (R226, R227). -/
inductive CacheUse where
  /-- normal class with REUSE -/
  | normal (reuse : Nat)
  | str
  /-- .vol access or atomic -/
  | vol
  /-- engine access, translation entry, context store -/
  | engine
  deriving DecidableEq, Repr

/-- REUSE, and 2 for an access that has none: engine accesses, translation entries and context stores (R227); .vol accesses and atomics, which no row of R227 names (DESIGN CHOICE, log 19). -/
def CacheUse.reuse : CacheUse → Nat
  | .normal r => r
  | _ => 2

/-- The insertion value of a fill in L1 and L2, and whether the L2 line is locked (R227). A line that stands unlocked when an access of class 1 meets it stays so, and likewise an unprotected one: both are decided at allocation (R231; DESIGN CHOICE, log 19). -/
def insertion (u : CacheUse) (cls : Option Nat) (l2 : Bool) : Nat × Bool :=
  if cls = some 3 ∨ u = .str then (3, false)
  else if cls = some 1 ∧ l2 then (0, true)
  else (u.reuse, false)

/-- The insertion value of a fill in the LLC and whether it is protected; none where it is not allocated (R227). -/
def insertionLlc (u : CacheUse) (cls : Option Nat) : Option (Nat × Bool) :=
  if cls = some 3 ∨ u = .str then none
  else if cls = some 2 ∨ cls = some 0 then some (0, true)
  else some (2, false)

/-- A way freed in its set for a new line, with the line it held; none where no way may be taken (R226, R227, R235). `protect` says that kept lines are protected and not locked. Every eligible unlocked line ages, until one that may be the victim has RRPV 3; a protected line that is none stays at 3 (R226; DESIGN CHOICE, log 19). -/
def placeLine (setOf : Nat → Nat) (ways : List Nat) (protect : Bool) (lines : List CacheLine) (new : CacheLine) :
    Option (List CacheLine × Option CacheLine) :=
  let inSet := lines.filter fun l => setOf l.line == setOf new.line
  match ways.find? fun w => !(inSet.map CacheLine.way).contains w with
  | some w => some ({ new with way := w } :: lines, none)
  | none =>
    let eligible := inSet.filter fun l => ways.contains l.way && (protect || l.kept.isNone)
    let plain := eligible.filter fun l => l.kept.isNone
    let cand := if plain = [] then eligible else plain
    if cand = [] then none
    else
      let top := (cand.map CacheLine.rrpv).foldl max 0
      let ways3 := (cand.filter fun l => l.rrpv == top).map CacheLine.way
      let victim := ways3.foldl min (ways3.headD 0)
      let among (x : List CacheLine) (l : CacheLine) := setOf l.line == setOf new.line && (x.map CacheLine.way).contains l.way
      let isVictim (l : CacheLine) := among cand l && l.way == victim
      some ({ new with way := victim } ::
        ((lines.filter fun l => !isVictim l).map fun l =>
          if among eligible l then { l with rrpv := min 3 (l.rrpv + (3 - top)) } else l),
        lines.find? isVictim)

/-- The sector of an address in its line (R13). -/
def sectorOf (pa : Nat) : Nat := pa / 64 % 4
def sectorMask (pa : Nat) : BitVec 4 := 1#4 <<< sectorOf pa

/-- The sets of the three levels (R224). -/
def setL1 (line : Nat) : Nat := line % 64
def setL2 (line : Nat) : Nat := line % 32768 % 24576
def setLlc (line : Nat) : Nat := line % 32768

/-- The arrays of a core that are in the cache role (R177). -/
def FieldArray.isCache (x : FieldArray) : Bool := x.owner.isNone && x.tie.isNone && x.passed.isNone
def State.cacheArrays (s : State) (c : CoreId) : List Nat :=
  (List.range Config.arrays).filter fun a => (s.array c a).isCache

/-- The ways of a mask (R228). -/
def waysOf (mask : Nat) : List Nat := bitsOf mask 16

/-- The line of a level with a number, and the same where it holds a sector. -/
def findLine (lines : List CacheLine) (line : Nat) : Option CacheLine := lines.find? fun l => l.line == line
def findSector (lines : List CacheLine) (pa : Nat) : Option CacheLine :=
  (findLine lines (pa / 256)).filter fun l => l.sectors &&& sectorMask pa ≠ 0

/-- RRPV at a hit: 0, but for .str. R226 names normal accesses and pf; a hit by a .vol access, an atomic, an engine access or a translation read counts as theirs, and so does an access that finds its line without the sector or with a lapsed copy of it (DESIGN CHOICE, log 19). -/
def touchLine (u : CacheUse) (lines : List CacheLine) (line : Nat) : List CacheLine :=
  if u = .str then lines else lines.map fun l => if l.line = line then { l with rrpv := 0 } else l

/-- A line changed in place. -/
def changeLine (lines : List CacheLine) (line : Nat) (f : CacheLine → CacheLine) : List CacheLine :=
  lines.map fun l => if l.line = line then f l else l

/-- Who asks, for the caches: the core, the context with its partition, the page of the address, the thread named in counters, and whether the counters of the core count the access. -/
structure Asker where
  core : CoreId
  cn   : Nat
  page : Nat
  part : Nat
  name : Name
  gate : Bool
  counts : Bool
  deriving DecidableEq, Repr

/-- An event of the caches counted for who asks (R387). -/
def State.tally (s : State) (a : Asker) (code : Nat) : State := if a.counts then s.count a.core code 1 a.name a.gate else s

/-- The line of an address as a fill brings it in, with the sector asked for. -/
def Asker.lineOf (a : Asker) (pa : Nat) (cls : Option Nat) : CacheLine :=
  ⟨pa / 256, 0, sectorMask pa, 0, 0, none, [], a.part, cls, (a.cn, a.page), false⟩

/-- A sector of a lease copy that joins those its line holds (R224). -/
def CacheLine.join (l : CacheLine) (pa : Nat) (y : Copy) : CacheLine :=
  { l with sectors := l.sectors ||| sectorMask pa, copies := Table.put l.copies (sectorOf pa) y }

/-- The copy of the sector of an address that a level holds. -/
def copyIn (lines : List CacheLine) (pa : Nat) : Option Copy := (findSector lines pa).bind fun l => Table.find l.copies (sectorOf pa)

/-- Sectors of a line brought or written back into its LLC slice: where the slice holds the line they join it, otherwise they are allocated with an insertion value, or not at all; a dirty victim goes to the stack (R224, R226, R227, R229, R235). -/
def State.putLlc (s : State) (new : CacheLine) (u : CacheUse) (ins : Option (Nat × Bool)) : State :=
  let k := stackOf (new.line * 256)
  let lines := Table.findD s.llc k []
  match findLine lines new.line, ins with
  | some _, _ =>
    { s with llc := Table.put s.llc k (changeLine (touchLine u lines new.line) new.line fun l =>
        { l with sectors := l.sectors ||| new.sectors, dirty := l.dirty ||| new.dirty }) }
  | none, none => s
  | none, some (r, prot) =>
    match placeLine setLlc (waysOf ((s.pwm.get new.part).toNat / 65536)) true lines
        { new with rrpv := r, kept := if prot then some new.origin else none } with
    | some (ls, _) => { s with llc := Table.put s.llc k ls }
    | none => s

/-- The dirty sectors of a line that leaves an L2 written back into its LLC slice; those of a class 3 line go straight to DRAM (R224, R226, R227). A line allocated so takes the row of its class, else 2, in the ways of the partition that filled the L2 line (DESIGN CHOICE, log 19). -/
def State.writeBack (s : State) (v : CacheLine) : State :=
  if v.dirty = 0 ∨ v.cls = some 3 then s
  else s.putLlc { v with sectors := v.dirty } .str (insertionLlc .engine v.cls)

/-- A line allocated in the L2 of a die, in a way of its partition; where every eligible way is locked it is not, which event 0x08 counts (R226, R229, R231, R235). -/
def State.putL2 (s : State) (die : Nat) (a : Asker) (new : CacheLine) : State :=
  let ways := waysOf ((s.pwm.get a.part).toNat % 65536)
  match placeLine setL2 ways false (s.die die).l2 new with
  | some (ls, v) =>
    let s := s.alterDie die fun d => { d with l2 := ls }
    match v with
    | some v => s.writeBack v
    | none => s
  | none => if ways = [] then s else s.tally a 0x08

/-- A new line of an L2 with its insertion value and its lock (R227, R231). -/
def CacheLine.inserted (l : CacheLine) (u : CacheUse) : CacheLine :=
  let i := insertion u l.cls true
  { l with rrpv := i.1, kept := if i.2 then some l.origin else none }

/-- A request at the L2 of the home die: a hit in the sector, or a fill with the LLC behind it; a write makes the sector dirty (R224, R225, R226, R227, R235). -/
def State.useHome (s : State) (a : Asker) (pa : Nat) (u : CacheUse) (cls : Option Nat) (write : Bool) : State :=
  let h := homeDie pa
  let new := a.lineOf pa cls
  let mark (l : CacheLine) : CacheLine :=
    if write then { l with sectors := l.sectors ||| new.sectors, dirty := l.dirty ||| new.sectors, cls := cls, origin := new.origin }
    else { l with sectors := l.sectors ||| new.sectors }
  let l2 := (s.die h).l2
  match findLine l2 new.line with
  | some l =>
    let s' := s.setDie h { s.die h with l2 := changeLine (touchLine u l2 new.line) new.line mark }
    if l.sectors &&& new.sectors ≠ 0 then s' else (s'.tally a 0x07).putLlc new u (insertionLlc u cls)
  | none => ((s.tally a 0x07).putLlc new u (insertionLlc u cls)).putL2 h a (mark (new.inserted u))

/-- A lease copy brought into the L2 of a die that is not its home; a line of translation entries there becomes a line of copies (R224, R225, R233). -/
def State.useRemote (s : State) (die : Nat) (a : Asker) (pa : Nat) (u : CacheUse) (cls : Option Nat) (copy : Copy) : State :=
  let l2 := (s.die die).l2
  let new := (a.lineOf pa cls).join pa copy
  let s := if (findSector l2 pa).isSome then s else s.tally a 0x07
  match findLine l2 new.line with
  | some _ =>
    let join (l : CacheLine) : CacheLine := if l.trans then { new with way := l.way, rrpv := l.rrpv } else l.join pa copy
    s.setDie die { s.die die with l2 := changeLine (touchLine u l2 new.line) new.line join }
  | none => s.putL2 die a (new.inserted u)

/-- A translation entry read by a walk of a die for a context: it passes through the home L2, and is kept in the L2 ways of the context's partition on the walking die (R224, R227, R229, R235, R372). -/
def State.walkRead (s : State) (die cn addr : Nat) : State :=
  if !inHbm addr then s
  else
    let a : Asker := ⟨⟨die, 0⟩, cn, 0, ((s.context cn).map Context.part).getD 0, Name.none, false, false⟩
    let s := s.useHome a addr .engine none false
    if die = homeDie addr ∨ 8 ≤ die then s
    else
      let l2 := (s.die die).l2
      match findLine l2 (addr / 256) with
      | some _ => s.setDie die { s.die die with l2 := touchLine .engine l2 (addr / 256) }
      | none => s.putL2 die a { (a.lineOf addr none).inserted .engine with trans := true }

/-! Translation (R368 to R372) -/

/-- The error that an access performed at the home of an address meets: the home die under warm reset, or uncorrectable data in its sector (R241). -/
def State.errorAt (s : State) (pa : Nat) : Option Cause :=
  if (s.die (homeDie pa)).out then some 0x0E2
  else if s.poison.contains (pa / 64) then some 0x086
  else none

/-- How the read of an entry ends a walk: 0x083 where the address that PTROOT or a table entry gives lies outside HBM4E (R222), or an error reply (R241, R401; DEDUCED, log 20). -/
def State.entryFails (s : State) (addr : Nat) : Option Walk := if inHbm addr then (s.errorAt addr).map .error else some (.cause 0x083)

/-- An entry read at its home by a walk of a die: it passes through the caches, and is kept where V = 1; otherwise how the walk ends (R371, R372). -/
def State.readEntry (s : State) (die cn addr : Nat) : Except Walk DWord × State :=
  match s.entryFails addr with
  | some w => (.error w, s)
  | none =>
    let e := s.entryAt addr
    let s := s.walkRead die cn addr
    let d := s.die die
    let others := d.kept.filter fun k => !decide (k.cn = cn ∧ k.addr = addr)
    (.ok e, s.setDie die { d with kept := if entryBit e 0 then ⟨cn, addr, e⟩ :: others else others })

/-- The entry that a walk of a die uses: what memory holds; where the die keeps an entry that memory holds no more, either of the two (R372; DESIGN CHOICE, log 8). -/
def State.walkEntry (s : State) (die cn addr : Nat) : Except Walk DWord × State :=
  match (s.die die).kept.find? fun k => decide (k.cn = cn ∧ k.addr = addr) with
  | some k =>
    if k.entry = s.entryAt addr then (.ok k.entry, s)
    else if Config.useKept s.drawn then (.ok k.entry, s.draw)
    else s.draw.readEntry die cn addr
  | none => s.readEntry die cn addr

/-- The walk of R371 over the levels that are left, from a table base. -/
def walkFrom (die cn va : Nat) : List Level → Bool → Nat → State → Walk × State
  | [], _, _, s => (.cause 0x084, s)
  | l :: ls, top, base, s =>
    let addr := base + 8 * (va / 2 ^ l.lo % 2 ^ l.bits)
    match s.walkEntry die cn addr with
    | (.error w, s) => (w, s)
    | (.ok e, s) =>
      if !entryBit e 0 then (.cause 0x081, s)
      else if malformed e l ls top then (.cause 0x084, s)
      else if entryBit e 3 then (.leaf e addr l.lo, s)
      else walkFrom die cn va ls false (e.toNat / 2 ^ 8 % 2 ^ 44 * 2 ^ 8) s

/-- The walk of a virtual address in a context, by the translation unit of a die (R368). -/
def State.walk (s : State) (die cn : Nat) (va : VAddr) : Walk × State :=
  match s.context cn with
  | some x => walkFrom die cn va.toNat levels true (x.ptroot.toNat / 2 ^ 11 % 2 ^ 41 * 2 ^ 11) s
  | none => (.cause 0x081, s)

/-- The same walk over the entries as memory holds them now (R357). -/
def walkNowFrom (s : State) (va : Nat) : List Level → Bool → Nat → Walk
  | [], _, _ => .cause 0x084
  | l :: ls, top, base =>
    let addr := base + 8 * (va / 2 ^ l.lo % 2 ^ l.bits)
    let e := s.entryAt addr
    match s.entryFails addr with
    | some w => w
    | none =>
      if !entryBit e 0 then .cause 0x081
      else if malformed e l ls top then .cause 0x084
      else if entryBit e 3 then .leaf e addr l.lo
      else walkNowFrom s va ls false (e.toNat / 2 ^ 8 % 2 ^ 44 * 2 ^ 8)

/-- What the walk of a virtual address in a context finds in memory at this moment (R357). -/
def State.walkNow (s : State) (cn : Nat) (va : VAddr) : Walk :=
  match s.context cn with
  | some x => walkNowFrom s va.toNat levels true (x.ptroot.toNat / 2 ^ 11 % 2 ^ 41 * 2 ^ 11)
  | none => .cause 0x081

/-- The physical address that a leaf gives a virtual address. -/
def leafAddr (e : DWord) (log : Nat) (va : VAddr) : Nat :=
  e.toNat / 2 ^ 16 % 2 ^ 36 * 2 ^ 16 + va.toNat % 2 ^ log

/-- What comes of a translation: a place, a cause, or a closed range to wait for (R353). -/
inductive Translation where
  | ok (t : Target)
  | cause (c : Cause)
  | closed
  deriving DecidableEq, Repr

/-- Whether a register window decodes an offset of a die: the control registers that R223 places there. -/
def decodedCsr (die n : Nat) : Bool :=
  if die = 8 then (0x610 ≤ n && n ≤ 0x611) || (0x620 ≤ n && n ≤ 0x621) || (0x630 ≤ n && n ≤ 0x631) || (0x710 ≤ n && n ≤ 0x712)
  else
    (0x400 ≤ n && n ≤ 0x43F) || n == 0x480 || n == 0x490 || n == 0x491 || (0x500 ≤ n && n ≤ 0x508)
      || (0x600 ≤ n && n ≤ 0x603) || (0x700 ≤ n && n ≤ 0x703) || (0x710 ≤ n && n ≤ 0x712)
      || (0x720 ≤ n && n ≤ 0x722) || n == 0x740 || n == 0x741 || n == 0x750
      || (0x8000 ≤ n && n < 0x8000 + 0x100 * Config.cores
          && (let r := n % 0x100; r ≤ 0x08 || (0x10 ≤ r && r ≤ 0x1F) || (0x20 ≤ r && r ≤ 0x30) || (0x40 ≤ r && r ≤ 0x83)))

/-- The checks of a leaf in the order 0x082, 0x083, ownership (R222, R237, R352). -/
def leafCheck (s : State) (cn : Nat) (need : Need) (e : DWord) (addr log : Nat) (va : VAddr) : Translation :=
  let pa := leafAddr e log va
  let dev := entryBit e 7
  if (need.r && !entryBit e 4) || (need.w && !entryBit e 5) || (need.x && !entryBit e 6) then .cause 0x082
  else
    let target : Option Target :=
      if inHbm pa then (if dev then none else some (.hbm pa))
      else match windowOf pa with
        | some (d, off) => if dev && log == 16 && need.window && decodedCsr d (off / 8) then some (.window d off) else none
        | none => none
    match target with
    | none => .cause 0x083
    | some t =>
      if s.gives.any fun g => g.2.closed && g.2.leaves.contains addr then .closed
      else if entryOwn e ≠ 0 ∧ entryOwn e ≠ cn then .cause 0x09A
      else .ok t

/-- Translation of an access with its checks after alignment: 0x081, 0x084, 0x082, 0x083, ownership (R237, R371). A walk that an error reply ends gives no address, and the error is the access's own (R241, R363; DEDUCED, log 20). -/
def State.translate (s : State) (die cn : Nat) (need : Need) (va : VAddr) : Translation × State :=
  match s.walk die cn va with
  | (.cause c, s) => (.cause c, s)
  | (.error c, s) => (.ok (.failed c), s)
  | (.leaf e addr log, s) => (leafCheck s cn need e addr log va, s)

/-! Residency classes (R230) -/

/-- The range register n of a context, as BASE, LIMIT, CORE, CLASS, ARRMASK, where it is in force and breaks no "must be 0" rule. -/
def Context.range (x : Context) (n : Nat) : Option (Nat × Nat × Nat × Nat × Nat) :=
  let b := (x.rc.get n).toNat
  let l := (x.rc.get (16 + n)).toNat
  let a := (x.rc.get (32 + n)).toNat % 2 ^ 32
  let core := b / 16 % 2 ^ 12
  let cls := b / 4 % 4
  if b % 2 = 0 then none
  else if cls ≠ 0 ∧ (core ≠ 0 ∨ a ≠ 0) then none
  else if cls = 0 ∧ (coreOfSource core).isSorrel = false then none
  else some (b / 2 ^ 16 % 2 ^ 41, l / 2 ^ 16 % 2 ^ 41, core, cls, a)

/-- The residency class of a virtual address in a context: that of the lowest range that matches (R230). -/
def Context.classOf (x : Context) (va : VAddr) : Option Nat :=
  (List.range 16).findSome? fun n =>
    match x.range n with
    | some (b, l, _, cls, _) => if b ≤ va.toNat / 65536 ∧ va.toNat / 65536 ≤ l then some cls else none
    | none => none

/-! Page home modes (R233, R234) -/

/-- A request from another die counted at the home of a page, with the switch of mode it may cause (R234). -/
def State.countPage (s : State) (from_ pa : Nat) (write : Bool) : State :=
  if from_ = homeDie pa then s
  else
    let p := pa / 65536
    let (rep, rd, wr) := Table.findD s.pages p (false, 0, 0)
    let rd := if write then rd else min (rd + 1) 255
    let wr := if write then min (wr + 1) 255 else wr
    let m := s.pgmode.toNat
    let new : Bool × Nat × Nat :=
      if m % 2 = 1 ∧ !rep ∧ m / 2 ^ 24 % 256 ≤ rd ∧ wr ≤ m / 2 ^ 16 % 256 then (true, 0, 0)
      else if m % 2 = 1 ∧ rep ∧ m / 2 ^ 8 % 256 ≤ wr then (false, 0, 0)
      else (rep, rd, wr)
    { s with pages := Table.put s.pages p new }

/-- Whether a page is in replicated mode (R233). -/
def State.replicated (s : State) (pa : Nat) : Bool := (Table.findD s.pages (pa / 65536) (false, 0, 0)).1

/-! Leases (R245 to R247) -/

/-- Whether a copy has lapsed for a core: its lease lies behind the core's ltime, or it has served for 64 advances of it since it was fetched (R245). -/
def Copy.lapsed (y : Copy) (c : CoreId) (ltime : BitVec 48) : Bool :=
  tsBefore y.lease ltime || decide (64 < (ltime - Table.findD y.since c 0).toNat)

/-- Whether a copy may serve a load of a thread on a core (R245). -/
def Copy.serves (y : Copy) (c : CoreId) (ltime ts : BitVec 48) (lastWrite : Nat) : Bool :=
  !y.lapsed c ltime && !tsBefore y.lease ts && decide (lastWrite ≤ y.filled)

/-- A timestamp that stands more than 2^46 behind an ltime rewritten to 2^46 behind (R247). -/
def floorTs (ltime t : BitVec 48) : BitVec 48 :=
  if tsBefore t ltime ∧ 2 ^ 46 < (ltime - t).toNat then ltime - (2 ^ 46 : BitVec 48) else t

/-- The stamps of a copy rewritten as the ltime of a core advances, so that a lapsed copy stays lapsed across a wrap (R247). -/
def Copy.floor (c : CoreId) (ltime : BitVec 48) (y : Copy) : Copy :=
  let t := Table.findD y.since c 0
  { y with
    wts := floorTs ltime y.wts
    lease := floorTs ltime y.lease
    since := if floorTs ltime t = t then y.since else Table.put y.since c (floorTs ltime t) }

/-- The same for the copies of a line. -/
def CacheLine.floor (c : CoreId) (ltime : BitVec 48) (l : CacheLine) : CacheLine :=
  { l with copies := l.copies.map fun e => (e.1, e.2.floor c ltime) }

def Thread.floor (ltime : BitVec 48) (x : Thread) : Thread := { x with ts := floorTs ltime x.ts }

/-- A line's write timestamp and greatest lease at its home (R245, R247). -/
def State.leaseOf (s : State) (pa : Nat) : BitVec 48 × BitVec 48 :=
  Table.findD s.leases (pa / 256) ((s.die (homeDie pa)).untouched, (s.die (homeDie pa)).untouched)

/-- The stamps that the homes of a die store, and those of images saved there, rewritten as its ltime advances: that of core 0 (R247; DESIGN CHOICE, log 9). -/
def State.floorHomes (s : State) (die : Nat) (ltime : BitVec 48) : State :=
  let s := if floorTs ltime (s.die die).untouched = (s.die die).untouched then s
    else s.alterDie die fun d => { d with untouched := floorTs ltime d.untouched }
  { s with
    wmax := floorTs ltime s.wmax
    leases := s.leases.map fun (e : Nat × (BitVec 48 × BitVec 48)) =>
      if homeDie (e.1 * 256) = die then (e.1, floorTs ltime e.2.1, floorTs ltime e.2.2) else e
    images := s.images.map fun (e : Nat × Image) =>
      if e.2.die = die then (e.1, { e.2 with threads := e.2.threads.map fun (u : Nat × Thread) => (u.1, u.2.floor ltime) }) else e }

/-- The stamps that a core's threads, its field memory and the copies it may use carry, rewritten as its ltime advances; for core 0 of a die those of its homes too (R247). -/
def State.floorStamps (s : State) (c : CoreId) (ltime : BitVec 48) : State :=
  let s := s.alterCore c fun k => { k with fieldTs := floorTs ltime k.fieldTs, l1 := k.l1.map (CacheLine.floor c ltime) }
  let s := { s with
    dies := s.dies.map fun (e : Nat × Die) => if e.1 = c.die then (e.1, { e.2 with l2 := e.2.l2.map (CacheLine.floor c ltime) }) else e
    threads := s.threads.map fun (e : ThreadId × Thread) => if s.coreOf e.1 = c then (e.1, e.2.floor ltime) else e }
  if c.num = 0 then s.floorHomes c.die ltime else s

/-- A line read at its home at a timestamp, past which every later write to it goes (R245). -/
def State.readAt (s : State) (pa : Nat) (ts : BitVec 48) : State :=
  let x := s.leaseOf pa
  { s with leases := Table.put s.leases (pa / 256) (x.1, tsMax x.2 ts) }

/-- A lease granted by the home on a line to a thread of timestamp `ts`: a copy as of now, whose lease reaches beyond the ltime of the core and beyond `ts` (R245; DESIGN CHOICE, log 9). -/
def State.grant (s : State) (a : Asker) (pa : Nat) (ts : BitVec 48) : Copy × State :=
  let ltime := (s.core a.core).ltime
  let x := s.leaseOf pa
  let lease := tsMax x.2 (tsMax ltime (tsMax ts x.1) + BitVec.ofNat 48 (Config.leaseLength s.drawn % 65))
  let since := (s.cores.filter fun e => decide (e.1.die = a.core.die)).map fun e => (e.1, e.2.ltime)
  (⟨s.seq, s.seq, x.1, lease, since⟩, s.draw.readAt pa lease)

/-! Engine writes that have landed for some threads (R253) -/

/-- Whether a landing scope of a command of thread `u` on a core covers a thread (R253). -/
def State.covers (s : State) (u : ThreadId) (c : CoreId) (upTo : Scope) (t : ThreadId) : Bool :=
  match upTo with
  | .package => true
  | .die => decide ((s.coreOf t).die = c.die)
  | .team => decide (t.team = u.team)
  | .cluster =>
    match s.teamOf t, s.teamOf u with
    | some a, some b => decide (a.lid = b.lid ∧ a.cluster = b.cluster)
    | _, _ => decide (t.team = u.team)

/-- What a landing of a thread's command at package scope leaves: later commands with ORD on the same engine read after the landing (R268). `stack` is the command's engine. -/
def State.noteLanding (s : State) (x : Command) : State :=
  let key := match x.stack with | none => 0 | some k => k + 1
  let s := s.alterThread x.t fun y => { y with landings := Table.put y.landings key s.seq }
  { s with commands := s.commands.map fun e =>
      if e.2.t = x.t ∧ e.2.stack = x.stack ∧ x.issued < e.2.issued ∧ (e.2.words.getD 0 0).getLsbD 19 then
        (e.1, { e.2 with fence := max e.2.fence s.seq }) else e }

/-- The place in S of an engine write's first landing for any thread; writes to one byte stand in the order of theirs for every observer (R253; DEDUCED, log 12). -/
def EngineWrite.first (w : EngineWrite) : Nat := ((w.lands.head?).map Prod.snd).getD 0

/-- Whether a write of a command has landed for a thread by place `p` of S (R253). -/
def State.landedFor (s : State) (x : Command) (w : EngineWrite) (p : Nat) (t : ThreadId) : Bool :=
  w.lands.any fun l => decide (l.2 ≤ p) && s.covers x.t x.core l.1 t

/-- The latest engine write to a byte that has landed for a thread by place `p` of S and not yet for the package. -/
def State.overlay (s : State) (t : ThreadId) (p pa : Nat) : Option Byte :=
  (s.commands.foldl (fun r e => e.2.writes.foldl (fun (r : Option (Nat × Byte)) w =>
    if w.pa = pa ∧ s.landedFor e.2 w p t ∧ (r.map Prod.fst).getD 0 ≤ w.first then some (w.first, w.byte) else r) r) none).map Prod.snd

/-- The same for a write that has landed for the package since, where `p` lies between its two landings. -/
def State.overlayPast (s : State) (t : ThreadId) (p pa : Nat) : Option Byte :=
  (s.past.filter fun l => decide (l.pa = pa ∧ l.first ≤ p ∧ p < l.last) && s.covers l.t l.core l.upTo t).getLast?.map Landing.byte

/-- A byte as a load of a thread placed at `p` of S returns it (R244, R252, R253). -/
def State.byteFor (s : State) (t : ThreadId) (p pa : Nat) : Byte :=
  match s.overlay t p pa with
  | some b => b
  | none => (s.overlayPast t p pa).getD (s.byteAt p pa)

/-- A byte as a thread's load returns it: what has landed for the thread, otherwise the byte of place `p` of S or the present one (R244, R253). -/
def State.seenByte (s : State) (t : ThreadId) (p : Option Nat) (pa : Nat) : Byte :=
  match s.overlay t s.seq pa with
  | some b => b
  | none => match p with
    | some p => s.byteAt p pa
    | none => s.byte pa

/-! The replay write set (R391) -/

/-- The bytes of a page copied, outside S. -/
def Sparse.copyRange (m : Sparse 8) (src dst n : Nat) : Sparse 8 :=
  (m.filter fun e => src ≤ e.1 && e.1 < src + n).foldl (fun x e => x.set (dst + (e.1 - src)) e.2) (m.clear dst n)

/-- What a write by a grid does for the replay session: pass 0 captures the page before its first write; a later pass marks a page that pass 0 did not capture (R391). The copy is lost where the buffer is homed on a die under warm reset (R401; DESIGN CHOICE, log 20). -/
def State.capture (s : State) (lid pa : Nat) : State :=
  match s.replay with
  | none => s
  | some r =>
    if lid ≠ r.lid ∨ !inHbm pa then s
    else
      let page := pa / 65536
      if r.pages.contains page then s
      else if r.pass ≠ 0 then { s with replay := some { r with mismatch := true } }
      else if r.pages.length < r.wspages then
        let to_ := r.wsbuf + r.pages.length * 65536
        { s with mem := if (s.die (homeDie to_)).out then s.mem else Sparse.copyRange s.mem (page * 65536) to_ 65536
                 replay := some { r with pages := r.pages ++ [page] } }
      else { s with replay := some { r with isOver := true } }

/-! Writes at the home -/

/-- Bytes written at their home at the present place of S, with a timestamp past every other (R245). -/
def State.homeBytes (s : State) (pa : Nat) (bs : List Byte) : State :=
  let l := s.leaseOf pa
  let ts := tsMax (tsMax l.1 l.2) s.wmax + 1
  { s with leases := Table.put s.leases (pa / 256) (ts, ts), wmax := ts }.putBytes pa bs

/-- An engine write that lands for every thread: the replay session takes note, the byte is written at its home, and the threads for which it had landed before see no older copy any more (R253, R391). -/
def State.performWrite (s : State) (x : Command) (w : EngineWrite) : State :=
  let s := ((s.capture (s.nameOf x.t).lid w.pa).homeBytes w.pa [w.byte]).noteLanding x
  { s with
    past := s.past ++ w.lands.map fun l => ⟨w.pa, w.byte, x.t, x.core, l.1, l.2, s.seq⟩
    threads := s.threads.map fun e => (e.1, if s.landedFor x w s.seq e.1 then { e.2 with ts := tsMax e.2.ts s.wmax } else e.2) }

/-- A write put among others in the order of their first landings. -/
def insertLanding (e : Command × EngineWrite) : List (Command × EngineWrite) → List (Command × EngineWrite)
  | [] => [e]
  | f :: fs => if e.2.first ≤ f.2.first then e :: f :: fs else f :: insertLanding e fs

/-- Engine writes to a byte that have landed for some threads land for all of them, which another write to the byte makes happen first (R253; DEDUCED, log 12). -/
def State.settleByte (s : State) (pa : Nat) : State :=
  let isMine (w : EngineWrite) : Bool := w.pa == pa && !w.lands.isEmpty
  match s.commands.any fun e => e.2.writes.any isMine with
  | false => s
  | true =>
    let mine := s.commands.flatMap fun e => (e.2.writes.filter isMine).map fun w => (e.2, w)
    let s := { s with commands := s.commands.map fun e => (e.1, { e.2 with writes := e.2.writes.filter fun w => !isMine w }) }
    (mine.foldr insertLanding []).foldl (fun s e => s.performWrite e.1 e.2) s

/-- The same for `n` bytes. -/
def State.settle (s : State) (pa n : Nat) : State := (List.range n).foldl (fun (s : State) k => s.settleByte (pa + k)) s

/-! Accesses -/

/-- The asker that a thread is. -/
def State.asker (s : State) (t : ThreadId) (va : VAddr) : Asker :=
  ⟨s.coreOf t, s.cnOf t, va.toNat / 65536, ((s.context (s.cnOf t)).map Context.part).getD 0, s.nameOf t, ((s.teamOf t).map Team.gate).getD false, true⟩

/-- The class of a virtual address in a context, and in a thread's. -/
def State.classIn (s : State) (cn : Nat) (va : VAddr) : Option Nat := (s.context cn).bind fun x => x.classOf va
def State.classFor (s : State) (t : ThreadId) (va : VAddr) : Option Nat := s.classIn (s.cnOf t) va

/-- A fill of L1 with a copy, under the class of the access: ways are the arrays in the cache role (R224, R227). -/
def State.fillL1 (s : State) (a : Asker) (pa : Nat) (u : CacheUse) (cls : Option Nat) (copy : Copy) : State :=
  let k := s.core a.core
  let new := (a.lineOf pa cls).join pa copy
  match findLine k.l1 new.line with
  | some _ => s.setCore a.core { k with l1 := changeLine (touchLine u k.l1 new.line) new.line fun l => l.join pa copy }
  | none =>
    match placeLine setL1 (s.cacheArrays a.core) false k.l1 { new with rrpv := (insertion u cls false).1 } with
    | some (ls, _) => s.setCore a.core { k with l1 := ls }
    | none => s

/-- A copy updated by a store of its core at place `p` of S, of timestamp `ts`, to a line that `wts` was the last write of. Where the copy was up to date it holds the sector as of the store, within the limits that its fill gave it; where another write has come between, its bytes would be of two places of S, and it serves no more. R224 says that the line is updated and no more (DESIGN CHOICE, log 9). -/
def Copy.stored (y : Copy) (p : Nat) (wts ts ltime : BitVec 48) : Copy :=
  if y.wts = wts then { y with shown := p, wts := ts } else { y with lease := ltime - 1 }

/-- A store of a core's thread that meets its line in L1 updates the sector where it stands there; it brings in none (R224, R226). -/
def State.storeL1 (s : State) (c : CoreId) (pa : Nat) (u : CacheUse) (wts ts : BitVec 48) : State :=
  match u with
  | .normal _ | .str =>
    let k := s.core c
    s.setCore c { k with l1 := changeLine (touchLine u k.l1 (pa / 256)) (pa / 256) fun l =>
      { l with copies := Table.alter l.copies (sectorOf pa) fun y => y.stored s.seq wts ts k.ltime } }
  | _ => s

/-- The remote copy that may serve a load in the L2 of its own die; a page that is memory-side again keeps serving from it (R233, R234). -/
def State.nearCopy (s : State) (die pa : Nat) : Option Copy :=
  if die = homeDie pa ∨ 8 ≤ die then none else copyIn (s.die die).l2 pa

/-- A sector that leaves a line, which leaves its level with its last. -/
def dropSector (lines : List CacheLine) (pa : Nat) : List CacheLine :=
  (changeLine lines (pa / 256) fun l =>
    { l with sectors := l.sectors &&& ~~~ sectorMask pa, copies := Table.drop l.copies (sectorOf pa) }).filter fun l => l.sectors != 0

/-- A copy of a page in memory-side mode that has lapsed leaves the L2 of a die that is not its home (R234). -/
def State.dropLapsed (s : State) (c : CoreId) (pa : Nat) : State :=
  match s.nearCopy c.die pa with
  | some y =>
    if y.lapsed c (s.core c).ltime ∧ !s.replicated pa then s.alterDie c.die fun d => { d with l2 := dropSector d.l2 pa } else s
  | none => s

/-- The place of S of the latest change of owner of the page of an address (R353). -/
def State.gaveAt (s : State) (pa : Nat) : Nat := Table.findD s.gave (pa / 65536) 0

/-- Whether a copy serves a load of a thread on a core, and under `renew` has been brought in by the same event (R243, R245). -/
def State.copyServes (s : State) (a : Asker) (y : Copy) (ts : BitVec 48) (lastWrite : Nat) (renew : Bool) : Bool :=
  (!renew || y.filled == s.seq) && y.serves a.core (s.core a.core).ltime ts lastWrite

/-- A copy fetched for a thread of a core: from the L2 of its own die where one there may serve it, but not for the renewal of one `held` in L1, and otherwise from the home, whose error reply is the other answer; a copy that L1 or that L2 held is renewed there (R225, R233, R241, R245, R387). The read whose count makes a page replicated fills the L2 of its die too (R234; DESIGN CHOICE, log 19). -/
def State.fetchCopy (s : State) (a : Asker) (pa : Nat) (u : CacheUse) (cls : Option Nat) (ts : BitVec 48) (lastWrite : Nat) (held renew : Bool) :
    Except Cause Copy × State :=
  let d := a.core.die
  let near := s.nearCopy d pa
  match near.filter fun y => !held && s.copyServes a y ts lastWrite renew with
  | some y => (.ok y, s.alterDie d fun d => { d with l2 := touchLine u d.l2 (pa / 256) })
  | none =>
    let s := s.dropLapsed a.core pa
    match s.errorAt pa with
    | some c => (.error c, s)
    | none =>
      let s := if held || near.isSome then s.tally a 0x09 else s
      let (copy, s) := (s.countPage d pa false).grant a pa ts
      let s := s.useHome a pa u cls false
      (.ok copy, if d ≠ homeDie pa ∧ d < 8 ∧ s.replicated pa then s.useRemote d a pa u cls copy else s)

/-- A copy of the sector of an address for a thread: the one in L1 where it serves and `renew` does not refuse it, otherwise one fetched into L1, a renewal where L1 held one; none serves that was filled before the page's latest change of owner (R225, R245, R353, R387). -/
def State.copyFor (s : State) (a : Asker) (x : Thread) (pa : Nat) (u : CacheUse) (cls : Option Nat) (renew : Bool) :
    Except Cause Copy × State :=
  let k := s.core a.core
  let held := copyIn k.l1 pa
  let from_ := max x.lastWrite (s.gaveAt pa)
  match held.filter fun y => s.copyServes a y x.ts from_ renew with
  | some y => (.ok y, s.setCore a.core { k with l1 := touchLine u k.l1 (pa / 256) })
  | none =>
    match (s.tally a 0x06).fetchCopy a pa u cls x.ts from_ held.isSome renew with
    | (.ok copy, s) => (.ok copy, s.fillL1 a pa u cls copy)
    | (.error c, s) => (.error c, s)

/-- The cache side of a load of the normal or .str class: the place of S whose bytes the load returns, none for the present one, or the cause of an error reply; a copy that still serves meets no error (R225, R239, R241, R245, R246, R402). -/
def State.loadCached (s : State) (t : ThreadId) (va : VAddr) (pa : Nat) (u : CacheUse) (cls : Option Nat) (renew : Bool) :
    Except Cause (Option Nat) × State :=
  match s.thread t with
  | none => (.ok none, s)
  | some x =>
    match s.copyFor (s.asker t va) x pa u cls renew with
    | (.ok y, s) => (.ok (some y.shown), s.raise t y.wts)
    | (.error c, s) => (.error c, s)

/-- A .vol read at the home, a fence point of its thread (R225, R239, R252). -/
def State.loadHome (s : State) (t : ThreadId) (va : VAddr) (pa : Nat) : State :=
  let a := s.asker t va
  let s := (s.countPage a.core.die pa true).useHome a pa .vol (s.classFor t va) false
  let s := s.raise t (s.leaseOf pa).1
  s.readAt pa (((s.thread t).map Thread.ts).getD 0)

/-- The fence point of a .vol access (R252). -/
def State.fenceHere (s : State) (t : ThreadId) : State := s.alterThread t fun x => { x with fence := s.seq }

/-- The bytes of a load of a thread that lies in HBM4E: one event of S; zeros and the cause where an error reply will come. `u` none is a .vol access, performed at the home (R238, R239, R241, R244). -/
def State.loadBytes (s : State) (t : ThreadId) (va : VAddr) (pa n : Nat) (u : Option CacheUse) : List Byte × Option Cause × State :=
  let s := s.place
  match u with
  | some u =>
    match s.loadCached t va pa u (s.classFor t va) false with
    | (.ok p, s) =>
      let p := if s.hist.any fun h => decide (p.getD 0 < h.1) then p else none
      ((List.range n).map fun k => s.seenByte t p (pa + k), none, s)
    | (.error c, s) => (List.replicate n 0, some c, s)
  | none =>
    let s := s.fenceHere t
    match s.errorAt pa with
    | some c => (List.replicate n 0, some c, s)
    | none =>
      let s := s.loadHome t va pa
      ((List.range n).map fun k => s.seenByte t none (pa + k), none, s)

/-- The home side of a write: a timestamp past every lease of the line, the L2 line dirty, the line of the core's own L1, the page counters (R224, R225, R234, R245). -/
def State.homeWrite (s : State) (t : ThreadId) (va : VAddr) (pa : Nat) (u : CacheUse) : State :=
  match s.thread t with
  | none => s
  | some x =>
    let a := s.asker t va
    let l := s.leaseOf pa
    let ts := tsMax x.ts (tsMax l.1 l.2 + 1)
    let s := ((s.countPage a.core.die pa true).useHome a pa u (s.classFor t va) true).storeL1 a.core pa u l.1 ts
    { (s.alterThread t fun x => { x with ts := ts, lastWrite := s.seq }) with
      leases := Table.put s.leases (pa / 256) (ts, ts)
      wmax := tsMax s.wmax ts }

/-- Bytes written by a thread at the present place of S, where the engine writes to them have been settled. -/
def State.writeHere (s : State) (t : ThreadId) (va : VAddr) (pa : Nat) (bs : List Byte) (u : CacheUse) : State :=
  ((s.capture (s.nameOf t).lid pa).homeWrite t va pa u).putBytes pa bs

/-- Bytes stored by a thread, one event of S (R238). -/
def State.storeBytes (s : State) (t : ThreadId) (va : VAddr) (pa : Nat) (bs : List Byte) (u : CacheUse) : State :=
  (s.place.settle pa bs.length).writeHere t va pa bs u

/-- Bytes written by the device on its own account or for a party outside, one event of S at the home (R256, R427). The writes that the device makes on its own account neither use the home's L2 nor count in WRC, and no rule says whether they do (R234; DESIGN CHOICE, log 19). -/
def State.deviceStore (s : State) (pa : Nat) (bs : List Byte) : State := (s.place.settle pa bs.length).homeBytes pa bs

/-- A .vol access of a party outside, by Vetch and in a context, at the home of an address (R225, R229, R230, R234, R256). -/
def State.outsideUse (s : State) (cn : Nat) (va : VAddr) (pa : Nat) (write : Bool) : State :=
  let a : Asker := ⟨⟨8, 0⟩, cn, va.toNat / 65536, ((s.context cn).map Context.part).getD 0, Name.none, false, false⟩
  ((s.countPage 8 pa true).useHome a pa .vol (s.classIn cn va) write).readAt pa (if write then 0 else s.wmax)

/-- A load, store or atomic issued, whose reply is still to come (R238, R241). -/
def State.issueAccess (s : State) (x : Access) : State :=
  { s.bump with accesses := Table.put s.accesses s.fresh x }

end Sys2Proof.Machine
end

