-- ==== Sys2Proof/Machine/Command.lean ====
section
/-! DEFINITION. The engine command words (R267, R269): their fields, the checks that need no state (R270), the addresses a command touches and how many elements it moves. -/

namespace Sys2Proof.Machine

/-- The fields of a command header (R267). -/
def cmdType (ws : List Word) : Nat := (ws.getD 0 0).toNat / 2 ^ 28
def cmdFlag (ws : List Word) (n : Nat) : Bool := (ws.getD 0 0).getLsbD n
def cmdFlags (ws : List Word) (lo n : Nat) : Nat := (ws.getD 0 0).toNat / 2 ^ lo % 2 ^ n
def cmdAcq (ws : List Word) : Bool := cmdFlag ws 23
def cmdRel (ws : List Word) : Bool := cmdFlag ws 22
def cmdScope (ws : List Word) : Scope :=
  match cmdFlags ws 20 2 with
  | 0 => .team
  | 1 => .cluster
  | 2 => .die
  | _ => .package
def cmdOrd (ws : List Word) : Bool := cmdFlag ws 19
def cmdTag (ws : List Word) : Nat := cmdFlags ws 8 8

/-- A word of a command, and the 64-bit value of two words, low first (R269). -/
def cmdWord (ws : List Word) (k : Nat) : Nat := (ws.getD k 0).toNat
def cmdAddr (ws : List Word) (k : Nat) : Nat := cmdWord ws k + 2 ^ 32 * cmdWord ws (k + 1)
def cmdInt (ws : List Word) (k : Nat) : Int := (ws.getD k 0).toInt

/-- LEN of a TYPE; none for a reserved TYPE (R269). -/
def typeLen (t : Nat) : Option Nat :=
  match t with
  | 0 => some 11
  | 1 | 2 => some 6
  | 3 | 4 | 5 => some 7
  | _ => none

/-- The FLAGS bits that a TYPE reserves (R269). -/
def reservedFlags (t : Nat) : Nat :=
  match t with
  | 0 => 0xFC
  | 1 => 0xE0
  | 2 => 0xFE
  | 3 => 0xF0
  | 4 => 0xE0
  | _ => 0xF8

/-- The check at the push of the header: 0x140, then 0x141 for a TYPE pushed to the wrong queue (R270). -/
def headerCause (q : Nat) (h : Word) : Option Cause :=
  let t := h.toNat / 2 ^ 28
  match typeLen t with
  | none => some 0x140
  | some n =>
    if cmdLen h ≠ n ∨ h.toNat / 2 ^ 16 % 8 ≠ 0 ∨ h.toNat % 256 &&& reservedFlags t ≠ 0 then some 0x140
    else if (q = 0) ≠ (t < 3) then some 0x141
    else none

/-- DIR of ecopy: whether the source and the destination are field addresses. -/
def copySrcField (ws : List Word) : Bool := decide (cmdFlags ws 0 2 ≥ 2)
def copyDstField (ws : List Word) : Bool := decide (cmdFlags ws 0 2 % 2 = 1)

/-- The target word of etld and etst (R269). -/
def targetWord (ws : List Word) : Nat := cmdWord ws 6
def targetArr (ws : List Word) : Nat := targetWord ws % 32
def targetHalf (ws : List Word) : Nat := targetWord ws / 32 % 2
def targetKb (ws : List Word) : Nat := targetWord ws / 256 % 64
def targetConst (ws : List Word) : Byte := BitVec.ofNat 8 (targetWord ws / 65536)

/-- The FMT of etld (R269). -/
def loadFormat (ws : List Word) : TileFormat :=
  match cmdFlags ws 0 4 with
  | 0 => .i4x
  | 1 => .i4
  | 2 => .i8
  | 3 => .e4m3
  | 4 => .e5m2
  | 5 => .e2m1
  | _ => .bf16
def TileFormat.four (f : TileFormat) : Bool := f == .i4x || f == .i4
def cmdSconst (ws : List Word) : Bool := cmdFlag ws 4

/-- The element sizes of egath and escat (R269, R271). -/
def gathSize (ws : List Word) : Nat := 2 ^ cmdFlags ws 1 3
def scatType (ws : List Word) : Nat := cmdFlags ws 2 2
def scatSize (ws : List Word) : Nat := if scatType ws = 2 then 2 else 4
def gathField (ws : List Word) : Bool := cmdFlag ws 0
def scatField (ws : List Word) : Bool := cmdFlag ws 4
/-- The count: word 5, and word 7 of econv (R269). -/
def cmdCount (ws : List Word) : Nat := cmdWord ws (if cmdType ws = 5 then 7 else 5)

/-- The reserved values that the last push checks: FMT 7 to 15, ESZ 7, OP 11, ET 11, reserved target bits, a field high word not 0 (R269, R270). -/
def lastReserved (ws : List Word) : Bool :=
  match cmdType ws with
  | 0 => (copySrcField ws && cmdWord ws 2 != 0) || (copyDstField ws && cmdWord ws 4 != 0)
  | 1 =>
    let used := if cmdSconst ws then 0xFF3F3F else 0x003F3F
    decide (7 ≤ cmdFlags ws 0 4) || targetWord ws &&& (0xFFFFFFFF ^^^ used) != 0
  | 2 => targetWord ws &&& (0xFFFFFFFF ^^^ 0x003F3F) != 0
  | 3 => cmdFlags ws 1 3 == 7 || (gathField ws && cmdWord ws 7 != 0)
  | 4 => cmdFlags ws 0 2 == 3 || scatType ws == 3 || (scatField ws && cmdWord ws 7 != 0)
  | _ => false

/-- The rows of an ecopy: X, Y, Z. -/
def copyX (ws : List Word) : Nat := cmdWord ws 5
def copyY (ws : List Word) : Nat := cmdWord ws 6
def copyZ (ws : List Word) : Nat := cmdWord ws 9

/-- The offset of linear index n of an ecopy under a row and a plane stride (R275). -/
def copyOffset (ws : List Word) (row plane : Nat) (n : Nat) : Int :=
  let x := n % copyX ws
  let y := n / copyX ws % copyY ws
  let z := n / (copyX ws * copyY ws)
  x + y * cmdInt ws row + z * cmdInt ws plane
def copySrc (ws : List Word) (n : Nat) : Int := cmdAddr ws 1 + copyOffset ws 7 10 n
def copyDst (ws : List Word) (n : Nat) : Int := cmdAddr ws 3 + copyOffset ws 8 11 n

/-- The lowest and the highest byte of an ecopy operand (R271). -/
def copySpan (ws : List Word) (base row plane : Nat) : Int × Int :=
  let r := ((copyY ws : Int) - 1) * cmdInt ws row
  let p := ((copyZ ws : Int) - 1) * cmdInt ws plane
  (cmdWord ws base + min 0 r + min 0 p, cmdWord ws base + (copyX ws : Int) - 1 + max 0 r + max 0 p)

/-- The field bytes that a command can touch, lowest and highest, for each field operand (R271). -/
def fieldSpans (ws : List Word) : List (Int × Int) :=
  match cmdType ws with
  | 0 => (if copySrcField ws then [copySpan ws 1 7 10] else []) ++ (if copyDstField ws then [copySpan ws 3 8 11] else [])
  | 3 => if gathField ws then [((cmdWord ws 6 : Int), (cmdWord ws 6 : Int) + cmdCount ws * gathSize ws - 1)] else []
  | 4 => if scatField ws then [((cmdWord ws 6 : Int), (cmdWord ws 6 : Int) + cmdCount ws * scatSize ws - 1)] else []
  | 1 | 2 => [((targetArr ws * 16384 : Nat), (targetArr ws * 16384 + 16383 : Nat))]
  | _ => []

/-- The arrays of a span; a span that leaves the 32 bits of a field address has an array that no team owns (R271). -/
def spanArrays (l : Int × Int) : List Nat :=
  if l.1 < 0 ∨ 2 ^ 32 ≤ l.2 then [32]
  else if 2 ^ 19 ≤ l.2 then [32]
  else (List.range 32).filter fun a => (a * 16384 : Nat) ≤ l.2 && l.1 < ((a + 1) * 16384 : Nat)

/-- The arrays that a command concerns, as source or as target. -/
def cmdArrays (ws : List Word) : List Nat := (fieldSpans ws).flatMap spanArrays

/-- The arrays between the lowest and the highest field byte that a command can touch, whichever operand it belongs to (R271). -/
def limitArrays (ws : List Word) : List Nat :=
  match fieldSpans ws with
  | [] => []
  | l :: ls => spanArrays (ls.foldl (fun (a b : Int × Int) => (min a.1 b.1, max a.2 b.2)) l)

/-- Whether a command writes field memory. -/
def writesField (ws : List Word) : Bool :=
  match cmdType ws with
  | 0 => copyDstField ws
  | 1 => true
  | 3 => gathField ws
  | _ => false

/-- The arrays that the rows of an ecopy write. -/
def copyArrays (ws : List Word) : List Nat :=
  ((List.range (copyZ ws)).flatMap fun z => (List.range (copyY ws)).flatMap fun y =>
    let d := copyDst ws (copyX ws * (y + copyY ws * z))
    spanArrays (d, d + copyX ws - 1)).eraseDups

/-- The arrays that a command writes. -/
def writeArrays (ws : List Word) : List Nat :=
  match cmdType ws with
  | 0 => if copyDstField ws then copyArrays ws else []
  | 1 => [targetArr ws]
  | 3 => cmdArrays ws
  | _ => []

/-- The data rows of a tile (R276). -/
def tileRows (f : TileFormat) : Nat := if f.four then 128 else 64
/-- The bytes of a data row in memory (R276). -/
def rowBytes (f : TileFormat) : Nat :=
  match f with
  | .e2m1 => 64
  | .bf16 => 256
  | _ => 128
/-- The scale registers of a tile (R276). -/
def tileRegs (f : TileFormat) : Nat := if f.four then 4 else 1

/-- The number of elements that a command moves: bytes of an ecopy, rows and scale registers of a tile, elements and blocks of the others. `fmt` is the format record that etst found. -/
def elements (ws : List Word) (fmt : Option TileFormat) : Nat :=
  match cmdType ws with
  | 0 => copyX ws * copyY ws * copyZ ws
  | 1 => tileRows (loadFormat ws) + tileRegs (loadFormat ws)
  | 2 =>
    match fmt with
    | some f => tileRows f + tileRegs f + (if cmdFlag ws 0 then 1 else 0)
    | none => 0
  | _ => cmdCount ws

/-- The limits of R271 that need no state. -/
def limitsOk (ws : List Word) : Bool :=
  match cmdType ws with
  | 0 => 1 ≤ copyX ws && copyX ws ≤ 2 ^ 24 && 1 ≤ copyY ws && copyY ws ≤ 65536 && 1 ≤ copyZ ws && copyZ ws ≤ 65536
  | 1 => cmdWord ws 1 % 64 == 0 && cmdWord ws 3 % 64 == 0
      && (!(loadFormat ws).four || (targetHalf ws == 0 && targetKb ws % 4 == 0))
  | 2 => cmdWord ws 1 % 64 == 0 && cmdWord ws 3 % 64 == 0
  | 3 => cmdWord ws 3 % 4 == 0 && cmdWord ws 1 % gathSize ws == 0 && cmdWord ws 6 % gathSize ws == 0
      && 1 ≤ cmdCount ws && cmdCount ws ≤ 65536
  | 4 => cmdWord ws 3 % 4 == 0 && cmdWord ws 1 % scatSize ws == 0 && cmdWord ws 6 % scatSize ws == 0
      && 1 ≤ cmdCount ws && cmdCount ws ≤ 65536
  | _ => cmdWord ws 1 % (if cmdFlag ws 0 then 2 else 4) == 0 && 1 ≤ cmdCount ws && cmdCount ws ≤ 65536

/-- The routing address of a Clover command: the table base, or the data destination of econv (R269). -/
def routeAddr (ws : List Word) : VAddr := BitVec.ofNat 57 (if cmdType ws = 5 then cmdAddr ws 3 else cmdAddr ws 1)

/-- The completion word (R273). -/
def completionWord (ws : List Word) (status : Nat) : Word :=
  BitVec.ofNat 32 (cmdType ws * 2 ^ 28 + status * 2 ^ 24 + cmdTag ws * 2 ^ 8)

/-- The status of a cause that an access of a command meets (R273, R274). -/
def statusOf (c : Cause) : Nat :=
  match c.toNat with
  | 0x081 => 1
  | 0x082 => 2
  | 0x083 => 3
  | 0x09A => 4
  | 0x086 => 5
  | 0x0E2 => 6
  | _ => 8

end Sys2Proof.Machine
end

