-- ==== Sys2Proof/Machine/Field.lean ====
section
/-! DEFINITION. Field arrays: addresses, full/empty words and waiters, modes and mode requests, preparation (R177 to R191), and the operations that the field instructions and the engines use. -/

namespace Sys2Proof.Machine

/-- The array that a field address names, and the byte offset within it (R179). -/
def fieldArrayOf (x : Nat) : Nat := x / 16384
def fieldOffset (x : Nat) : Nat := x % 16384
/-- Whether an array is in a team's field role (R178). -/
def Team.inField (m : Team) (a : Nat) : Bool := m.fm.contains a

/-- The mode that an access issued now sees: the target of the latest request (R184). -/
def FieldArray.sees (x : FieldArray) : Bool :=
  match x.requests.getLast? with
  | some r => r.compute
  | none => x.compute
/-- The pending storage request that an access must wait for (R184). -/
def FieldArray.storagePending (x : FieldArray) : Option Nat :=
  match x.requests.getLast? with
  | some r => if r.compute then none else some r.id
  | none => none
/-- The pending compute request that an mma must wait for (R184, R206). -/
def FieldArray.computePending (x : FieldArray) : Option Nat :=
  match x.requests.getLast? with
  | some r => if r.compute then some r.id else none
  | none => none

/-- Whether field word `w` is full (R179). -/
def FieldArray.full (x : FieldArray) (w : Nat) : Bool := !x.empties.contains w
def FieldArray.setFull (x : FieldArray) (ws : List Nat) : FieldArray :=
  { x with empties := x.empties.filter fun e => !ws.contains e }
def FieldArray.setEmpty (x : FieldArray) (ws : List Nat) : FieldArray :=
  { x with empties := NatSet.addAll x.empties ws }
/-- The words that `n` bytes from an offset touch. -/
def touchedWords (off n : Nat) : List Nat := (List.range ((off % 4 + n + 3) / 4)).map fun k => off / 4 + k

/-- The first field word of an access, and whether it is a 64-bit access. -/
def Waiter.word (w : Waiter) : Nat := w.off / 4
def Waiter.wide (w : Waiter) : Bool := w.size == 8
/-- The words of a waiter. -/
def Waiter.words (w : Waiter) : List Nat := if w.wide then [w.word, w.word + 1] else [w.word]

/-- Whether the words meet a waiter's mode: .f and .fe full, .e empty (R182). -/
def FieldArray.meets (x : FieldArray) (w : Waiter) : Bool :=
  if w.mode = 3 then w.words.all fun k => !x.full k else w.words.all fun k => x.full k

/-- The value that a waiting load returns. -/
def FieldArray.loadValue (x : FieldArray) (w : Waiter) : DWord :=
  BitVec.ofNat 64 (x.cells.num (4 * w.word) (if w.wide then 8 else 4))

/-- A waiter served: .f takes the value, .fe also empties its words, .e writes its data and fills them (R182). -/
def FieldArray.serve (x : FieldArray) (w : Waiter) : FieldArray :=
  if w.mode = 1 then x
  else if w.mode = 2 then x.setEmpty w.words
  else { x with cells := x.cells.setList (4 * w.word) (bytesOf w.data (if w.wide then 8 else 4)) }.setFull w.words

/-- The walks that changes of word states start (R182): each entry is a word that became full or empty. An access that is held for a storage request stands in the lists, since it has issued, and is passed over (R184). The list of the lower word of a 64-bit access is walked first (DESIGN CHOICE, log 21). Each waiter served comes with what its words held before. `fuel` bounds the walks: every walk that serves takes a waiter off. -/
def FieldArray.walks : Nat → FieldArray → List (Nat × Bool) → List (Waiter × DWord) → FieldArray × List (Waiter × DWord)
  | 0, x, _, served => (x, served)
  | _ + 1, x, [], served => (x, served)
  | fuel + 1, x, (w, full) :: rest, served =>
    match x.waiters.find? fun v => v.req.isNone && v.words.contains w && ((v.mode != 3) == full) && x.meets v with
    | none => FieldArray.walks fuel x rest served
    | some v =>
      let value := x.loadValue v
      let x' := { x.serve v with waiters := x.waiters.filter fun u => decide (u.n ≠ v.n) }
      let more := match v.mode with
        | 1 => (w, true) :: rest
        | 2 => v.words.map (fun k => (k, false)) ++ rest
        | _ => v.words.map (fun k => (k, true)) ++ rest
      FieldArray.walks fuel x' more (served ++ [(v, value)])

/-- The array after words changed state, with the waiters served in order. -/
def FieldArray.settle (x : FieldArray) (changed : List (Nat × Bool)) : FieldArray × List (Waiter × DWord) :=
  x.walks (4 * x.waiters.length + changed.length + 4) changed []

/-- The halves that bytes of an array lie in, as objects whose generations a write steps (R156). -/
def halvesOf (a off n : Nat) : List GenObject :=
  ((if off < 8192 then [GenObject.half a 0] else []) ++ (if 8192 < off + n then [GenObject.half a 1] else [])) ++ [.whole a]

/-- The words of a 64-bit value. -/
def splitWords (ws : List Nat) (v : DWord) : List (Nat × Word) :=
  (List.range ws.length).map fun k => (ws.getD k 0, (v >>> (32 * k)).truncate 32)

/-- The key of a field byte in the history of S: above every physical address. -/
def fieldKey (c : CoreId) (a off : Nat) : Nat := 2 ^ 52 + (c.source * 32 + a) * 16384 + off

/-- What field bytes hold, kept in the history of S before a write to them. -/
def State.keepCells (s : State) (c : CoreId) (a off n : Nat) : State :=
  { s with hist := ((List.range n).map fun k => (s.seq, fieldKey c a (off + k), (s.array c a).cells.get (off + k))) ++ s.hist }

/-- A field byte as it was at place `p` of S (R252). -/
def State.fieldByteAt (s : State) (c : CoreId) (a off p : Nat) : Byte :=
  Machine.byteAt ((s.array c a).cells.get off) p (fieldKey c a off) s.hist

/-- A served waiter completes, one event of S: its cells or its registers are written, its group goes on (R182, R193, R194, R243). -/
def State.completeWaiter (s : State) (c : CoreId) (a : Nat) (w : Waiter) (v : DWord) : State :=
  let n := if w.wide then 8 else 4
  let s := s.fieldPlace w.t
  let s := if w.mode = 3 then
      { s with hist := ((List.range n).map fun k => (s.seq, fieldKey c a (4 * w.word + k), byteOf v k)) ++ s.hist }.stepGens c
        (halvesOf a (4 * w.word) n)
    else s.fillWords w.t (splitWords w.dest v)
  s.finish w.t

/-- The walks of an array that changed words have started (R182). -/
def State.walkArray (s : State) (c : CoreId) (a : Nat) : State :=
  let x := s.array c a
  if x.walk = [] then s
  else
    let r := { x with walk := [] }.settle x.walk
    r.2.foldl (fun (s : State) e => s.completeWaiter c a e.1 e.2) (s.setArray c a r.1)

/-- The walks of every array of a core, which follow an instruction that has changed words (R182, R194). -/
def State.walkCore (s : State) (c : CoreId) : State :=
  ((s.core c).arrays.map Prod.fst).foldl (fun (s : State) a => s.walkArray c a) s

/-- An array replaced, with the words that changed noted for their walks. -/
def State.noteWords (s : State) (c : CoreId) (a : Nat) (x : FieldArray) (changed : List (Nat × Bool)) : State :=
  s.setArray c a { x with walk := x.walk ++ changed }

/-- Cells written and their words full: the generations step, and the walks are noted (R156, R181). -/
def State.writeCells (s : State) (c : CoreId) (a off : Nat) (bs : List Byte) : State :=
  let x := s.array c a
  let ws := touchedWords off bs.length
  let x := { x with cells := x.cells.setList off bs }.setFull ws
  ((s.keepCells c a off bs.length).stepGens c (halvesOf a off bs.length)).noteWords c a x (ws.map fun w => (w, true))

/-- Words of an array set full or empty, with their walks noted (R196). -/
def State.setWords (s : State) (c : CoreId) (a : Nat) (ws : List Nat) (full : Bool) : State :=
  let x := s.array c a
  s.noteWords c a (if full then x.setFull ws else x.setEmpty ws) (ws.map fun w => (w, full))

/-- An array prepared: the lines held in it leave L1, every byte is 0 and every word full, storage mode, no format record (R178). The buffer serial goes on. -/
def State.prepare (s : State) (c : CoreId) (a : Nat) : State :=
  let s := s.alterCore c fun k => { k with l1 := k.l1.filter fun l => l.way ≠ a }
  s.alterArray c a fun x => { FieldArray.init with serial := x.serial }

/-- An array given to a team. -/
def State.own (s : State) (c : CoreId) (a team : Nat) : State := s.alterArray c a fun x => { x with owner := some team }

/-- An array that leaves a team's field role for the cache role: storage mode, its generations step (R156, R188, R190). -/
def State.releaseArray (s : State) (c : CoreId) (a : Nat) : State :=
  (s.alterArray c a fun x => { FieldArray.init with serial := x.serial, tie := x.tie }).stepGens c
    [.half a 0, .half a 1, .whole a]

/-! Mode requests (R184, R185, R191) -/

/-- Whether a command in flight reads or writes an array. -/
def Command.usesArray (x : Command) (a : Nat) : Bool := (cmdArrays x.words).contains a

/-- Whether a command has read and written an array as far as it will (R185). -/
def Command.doneWith (x : Command) (a : Nat) : Bool :=
  x.completed || ((x.status ≠ 0 && x.status ≠ 7 || x.moved.length == elements x.words x.format)
    && !(x.targets.any fun w => w.1 == a) && !(x.field.any fun f => f.2.1 == a))

/-- Whether a group still has an mma on an array to issue for which it is held (R184). -/
def State.groupHolds (s : State) (n a : Nat) : Bool :=
  match s.group n with
  | some g => g.asked.any fun e => e.array == a
  | none => false

/-- Whether everything that a request waits for is performed (R185). -/
def State.requestReady (s : State) (a : Nat) (x : FieldArray) (r : ModeReq) : Bool :=
  (r.groups.all fun n => !s.groupHolds n a)
    && (r.loads.all fun n => !x.loads.any fun l => l.n == n)
    && (r.cmds.all fun n => match Table.find s.commands n with | some y => y.doneWith a | none => true)
    && (r.waits.all fun n => !x.waiters.any fun w => w.n == n)
    && (r.mmas.all fun n => !x.mmas.any fun m => m.id == n)

/-- The clk that a request costs after its last wait: 264 to compute, 8 to storage, 0 to the mode already reached (R185). -/
def requestCost (x : FieldArray) (r : ModeReq) : Nat :=
  if x.compute = r.compute then 0 else if r.compute then 264 else 8

/-- The clk of completion set for the oldest request of an array once its waits have ended (R185). -/
def State.dueRequest (s : State) (c : CoreId) (a : Nat) : State :=
  let x := s.array c a
  match x.requests with
  | r :: rs =>
    if r.due.isNone && s.requestReady a x r then
      s.setArray c a { x with requests := { r with due := some ((s.core c).clk + requestCost x r) } :: rs }
    else s
  | [] => s

/-- The scrub of an array: a word that it cannot correct keeps what it read, and is a machine check (R185, R404). -/
def State.scrub (s : State) (c : CoreId) (a : Nat) : State :=
  let x := s.array c a
  if x.bad = [] then s
  else
    let cells := x.bad.foldl (fun m e => m.setList (4 * e.1) (bytesOf e.2 4)) x.cells
    ((s.setArray c a { x with cells := cells, bad := [] }).machineCheck c.die 4).reportNone c Name.none ⟨0x1E0, 0, auxWords []⟩

/-- The oldest request of an array completes when its clk have passed, with the scrub of a switch to compute mode (R185). -/
def State.completeRequest (s : State) (c : CoreId) (a : Nat) : State :=
  let s := s.dueRequest c a
  let x := s.array c a
  match x.requests with
  | r :: rs =>
    match r.due with
    | some d =>
      if d ≤ (s.core c).clk then
        let s := if r.compute && !x.compute then s.scrub c a else s
        s.alterArray c a fun x => { x with requests := rs, compute := r.compute }
      else s
    | none => s
  | [] => s

/-- A switch request made on an array, with what it waits for of what has issued by now: to compute mode every access, full/empty operation, engine command and landing; to storage mode every mma and every load that saw compute mode, a parked fld.f among them (R184, R185). -/
def State.requestMode (s : State) (c : CoreId) (a : Nat) (compute : Bool) : State :=
  let x := s.array c a
  let cmds := (s.commands.filter fun e => decide (e.2.core = c) && e.2.usesArray a && !e.2.completed).map Prod.fst
  let groups := (s.groups.filter fun e => !compute && decide (e.2.core = c) && e.2.asked.any fun g => g.array == a).map Prod.fst
  let parked := if compute || x.sees then x.waiters.map Waiter.n else []
  let r : ModeReq := ⟨s.newId, compute, if compute then cmds else [], parked, groups, if compute then [] else x.mmas.map Mma.id, x.loads.map ComputeLoad.n, none⟩
  (s.setArray c a { x with requests := x.requests ++ [r] }).bump

/-- A group's mma held for a compute request of an array (R184). -/
def State.askMode (s : State) (n a r : Nat) : State := s.alterGroup n fun g => { g with asked := some ⟨a, r⟩ }

/-- The mma of a group has issued: the requests on its array wait for it no longer as for a group (R184, R185). -/
def State.answerMode (s : State) (n : Nat) (c : CoreId) (a : Nat) : State :=
  (s.alterGroup n fun g => { g with asked := none }).alterArray c a fun x =>
    { x with requests := x.requests.map fun r => { r with groups := r.groups.filter (· ≠ n) } }

/-- Whether a request is still pending on an array. -/
def State.requestPending (s : State) (c : CoreId) (a n : Nat) : Bool :=
  (s.array c a).requests.any fun r => r.id == n

end Sys2Proof.Machine
end

