-- ==== Sys2Proof/Machine/Float.lean ====
section
/-! DEFINITION. The results of the floating-point instructions (family B, R142 to R146) and of the conversions (family C, R148 to R151) on register words. -/

namespace Sys2Proof.Machine

/-- QNAN(FP32). -/
def qnan32 : Word := 0x7FC00000

/-- fadd (R142) -/
def faddOp (m : RoundMode) (a b : Word) : Word := round32 m (addNum m (valF32 a) (valF32 b))
/-- fsub (R142) -/
def fsubOp (m : RoundMode) (a b : Word) : Word := round32 m (addNum m (valF32 a) (negNum (valF32 b)))
/-- fmul (R142) -/
def fmulOp (m : RoundMode) (a b : Word) : Word := round32 m (mulNum (valF32 a) (valF32 b))
/-- The fused x * y + z (R142). -/
def fmaNum (m : RoundMode) (x y z : Num) : Num := addNum m (mulNum x y) z
/-- ffma (R142) -/
def ffmaOp (m : RoundMode) (a b c : Word) : Word := round32 m (fmaNum m (valF32 a) (valF32 b) (valF32 c))

/-- The choice of fmin and fmax: the other operand beside one NaN, QNAN for two (R142). -/
def pickOp (max : Bool) (a b : Word) : Word :=
  let x := valF32 a
  let y := valF32 b
  if x.isNan && y.isNan then qnan32
  else if x.isNan then b
  else if y.isNan then a
  else if max then (if beforeNum x y then b else a) else (if beforeNum y x then b else a)

/-- fabs (R142) -/
def fabsOp (a : Word) : Word := if (valF32 a).isNan then qnan32 else a &&& 0x7FFFFFFF
/-- fneg (R142) -/
def fnegOp (a : Word) : Word := if (valF32 a).isNan then qnan32 else a ^^^ 0x80000000

/-- The outcome of fcmp (R143). -/
def fcmpOp (cmp : BitVec 3) (a b : Word) : Bool :=
  let x := valF32 a
  let y := valF32 b
  if x.isNan || y.isNan then cmp == 1 else cmpOp cmp (ltNum x y) (eqNum x y)

/-- The format that a TYPE of fclass names: f16, bf16, otherwise FP32 (R143). -/
def classFormat (t : BitVec 4) : FloatFormat := if t == 5 then fp16 else if t == 6 then bf16 else fp32

/-- The class bit of a pattern (R143). -/
def fclassBit (f : FloatFormat) (b : Nat) : Nat :=
  let mag := b % 2 ^ (f.width - 1)
  let neg := b.testBit (f.width - 1)
  match valOf f b with
  | .nan => if mag.testBit (f.m - 1) then 9 else 8
  | .inf _ => if neg then 0 else 7
  | .zero _ => if neg then 3 else 4
  | .fin _ _ => if mag < 2 ^ f.m then (if neg then 2 else 5) else (if neg then 1 else 6)

/-- fclass (R143) -/
def fclassOp (t : BitVec 4) (a : Word) : Word := BitVec.ofNat 32 (2 ^ fclassBit (classFormat t) a.toNat)

/-- frnd: the integral value, with the sign of a when it is zero (R144). -/
def frndOp (m : RoundMode) (a : Word) : Word :=
  match valF32 a with
  | .fin s e =>
    let r := roundInt m (.fin s e)
    round32 m (if r = 0 then .zero (decide (s < 0)) else .fin r 0)
  | x => round32 m x

/-- fscale: ROUND(a * 2^b). A shift beyond 1000 either way rounds as one of 1000 does (R144). -/
def fscaleOp (m : RoundMode) (a b : Word) : Word :=
  match valF32 a with
  | .fin s e => round32 m (.fin s (e + clampInt b.toInt (-1000) 1000))
  | x => round32 m x

/-- fsqrt (R142) -/
def fsqrtOp (m : RoundMode) (a : Word) : Word :=
  match valF32 a with
  | .fin s e =>
    if s < 0 then qnan32
    else
      let q := quotOf s e
      let r := sqrtQuot q.1 q.2
      BitVec.ofNat 32 (roundRat fp32 m false r.1 r.2)
  | .inf n => if n then qnan32 else a
  | .zero _ => a
  | .nan => qnan32

/-- An infinity or a zero of FP32. -/
def inf32 (neg : Bool) : Word := BitVec.ofNat 32 (infOf fp32 neg)
def zero32 (neg : Bool) : Word := BitVec.ofNat 32 (withSign fp32 neg 0)

/-- rcpe (R145): a magnitude below 2^-128 has an infinite reciprocal. -/
def rcpeOp (a : Word) : Word :=
  match valF32 a with
  | .fin s e =>
    let q := quotOf s e
    if q.1 * 2 ^ 128 < q.2 then inf32 (decide (s < 0)) else estimate (decide (s < 0)) q.2 q.1
  | .inf n => zero32 n
  | .zero n => inf32 n
  | .nan => qnan32

/-- rsqrte (R145) -/
def rsqrteOp (a : Word) : Word :=
  match valF32 a with
  | .fin s e =>
    if s < 0 then qnan32
    else
      let q := quotOf s e
      let r := sqrtQuot q.2 q.1
      estimate false r.1 r.2
  | .inf n => if n then qnan32 else 0
  | .zero n => inf32 n
  | .nan => qnan32

/-- exp2e of the finite number mant * 2^exp (R145): exact where it is an integer, otherwise from the fixed-point function. -/
def exp2Finite (mant exp : Int) : Word :=
  let q := quotOf mant exp
  let neg := decide (mant < 0)
  if !neg && 128 * q.2 ≤ q.1 then inf32 false
  else if neg && 300 * q.2 ≤ q.1 then 0
  else
    let i : Int := if neg then -((q.1 + q.2 - 1) / q.2 : Nat) else (q.1 / q.2 : Nat)
    let r : Nat := if neg then (q.2 - q.1 % q.2) % q.2 else q.1 % q.2
    let f := if r = 0 then 2 ^ fixBits else exp2Fix (r * 2 ^ fixBits / q.2)
    let s := scaleQuot f (2 ^ fixBits) i
    estimate false s.1 s.2

/-- exp2e (R145) -/
def exp2eOp (a : Word) : Word :=
  match valF32 a with
  | .fin s e => exp2Finite s e
  | .inf n => if n then 0 else a
  | .zero _ => 0x3F800000
  | .nan => qnan32

/-- log2e of the positive number n / d (R145). -/
def log2Finite (n d : Nat) : Word :=
  let i := expoQuot n d
  let s := scaleQuot n d (-i)
  let f : Int := if s.1 = s.2 then 0 else log2Fix s.1 s.2
  let v : Int := i * 2 ^ fixBits + f
  if v = 0 then 0 else estimate (decide (v < 0)) v.natAbs (2 ^ fixBits)

/-- log2e (R145) -/
def log2eOp (a : Word) : Word :=
  match valF32 a with
  | .fin s e => if s < 0 then qnan32 else let q := quotOf s e; log2Finite q.1 q.2
  | .inf n => if n then qnan32 else a
  | .zero _ => inf32 true
  | .nan => qnan32

/-! Packed halves (R146) -/

/-- One half of a register. -/
def halfOf (w : Word) (hi : Bool) : Nat := if hi then w.toNat / 65536 else w.toNat % 65536

/-- A packed operation: VAR 0 both halves, 1 .lo, 2 .hi; a half not selected keeps what `d` held (R146). -/
def packedOp (f : FloatFormat) (m : RoundMode) (var : BitVec 2) (op : Num → Num → Num → Num) (d a b c : Word) : Word :=
  let half (hi : Bool) : Nat := round f m (op (valOf f (halfOf a hi)) (valOf f (halfOf b hi)) (valOf f (halfOf c hi)))
  let lo := if var == 2 then halfOf d false else half false
  let hi := if var == 1 then halfOf d true else half true
  BitVec.ofNat 32 (hi * 65536 + lo)

/-- The operations of the packed instructions. -/
def add2 (m : RoundMode) (x y _z : Num) : Num := addNum m x y
def mul2 (x y _z : Num) : Num := mulNum x y

/-! Conversions -/

/-- What a TYPE code of R55 names. -/
inductive ElemType where
  | int (bits : Nat)
  | float (f : FloatFormat)
  | i4x
  deriving DecidableEq, Repr

/-- The type of a code 1 to 10 (R55). -/
def elemType (t : BitVec 4) : ElemType :=
  match t.toNat with
  | 1 => .int 8
  | 2 => .int 16
  | 3 => .int 32
  | 5 => .float fp16
  | 6 => .float bf16
  | 7 => .float e4m3
  | 8 => .float e5m2
  | 9 => .float e2m1
  | 10 => .i4x
  | _ => .float fp32

/-- The low `n` bits of a word as an integer, sign- or zero-extended. -/
def lowInt (n : Nat) (un : Bool) (a : Nat) : Int :=
  let v := a % 2 ^ n
  if !un && v.testBit (n - 1) then (v : Int) - 2 ^ n else v

/-- An integer of `n` bits written to a register, extended by sign or, under .un, by zero (R148). -/
def extendInt (n : Nat) (un : Bool) (v : Int) : Word := BitVec.ofInt 32 (lowInt n un (v % 2 ^ n).toNat)

/-- Whether a format is narrowed with NARROW and not rounded with ROUND (R31). -/
def FloatFormat.narrow? (f : FloatFormat) : Bool := decide (f.width ≤ 8)

/-- The pattern of a value in a floating format: NARROW for the 8- and 4-bit formats, ROUND otherwise (R148, R149). -/
def toFloat (f : FloatFormat) (m : RoundMode) (x : Num) : Nat :=
  if f.narrow? then narrow f x else round f m x

/-- Whether narrowing a value sets FMTANOM (R31). -/
def narrowAnomaly (f : FloatFormat) (x : Num) : Bool := f == e2m1 && x.isNan

/-- A float as an integer of `n` bits (R148). -/
def floatToInt (n : Nat) (un : Bool) (m : RoundMode) (x : Num) : Int :=
  match x with
  | .nan => 0
  | .inf neg => if neg then intLo n un else intHi n un
  | x => satInt n un (roundInt m x)

/-- cvt: the result and whether it sets FMTANOM (R148). -/
def cvtOp (dst src : ElemType) (sat un sun : Bool) (m : RoundMode) (a : Word) : Word × Bool :=
  match src, dst with
  | .int sn, .int n =>
    let v := lowInt sn sun a.toNat
    (extendInt n un (if sat then satInt n un v else v), false)
  | .int sn, .float f => (BitVec.ofNat 32 (toFloat f m (Num.ofInt (lowInt sn sun a.toNat))), false)
  | .float sf, .int n => (extendInt n un (floatToInt n un m (valOf sf a.toNat)), false)
  | .float sf, .float f =>
    (BitVec.ofNat 32 (toFloat f m (valOf sf a.toNat)), narrowAnomaly f (valOf sf a.toNat))
  | _, _ => (0, false)

/-- The width of a subfield of pk and upk (R149). -/
def ElemType.bits : ElemType → Nat
  | .int n => n
  | .float f => f.width
  | .i4x => 4

/-- The subfield that pk writes, and whether it sets FMTANOM (R149). -/
def pkElem (t : ElemType) (sat un : Bool) (m : RoundMode) (a : Word) : Nat × Bool :=
  match t with
  | .int n => (((if sat then satInt n un (intOf un a) else a.toNat) % 2 ^ n).toNat, false)
  | .i4x => (((if sat then clampInt a.toInt (-7) 7 else a.toInt) % 16).toNat, false)
  | .float f => (toFloat f m (valF32 a), narrowAnomaly f (valF32 a))

/-- pk: `d` is the old value of D (R149) -/
def pkOp (t : ElemType) (sat un : Bool) (m : RoundMode) (d a b : Word) : Word × Bool :=
  let w := t.bits
  let k := b.toNat % (32 / w)
  let s := pkElem t sat un m a
  let mask : Word := BitVec.ofNat 32 ((2 ^ w - 1) * 2 ^ (w * k))
  ((d &&& ~~~mask) ||| BitVec.ofNat 32 (s.1 * 2 ^ (w * k)), s.2)

/-- upk (R150) -/
def upkOp (t : ElemType) (un : Bool) (a b : Word) : Word :=
  let w := t.bits
  let k := b.toNat % (32 / w)
  let s := a.toNat / 2 ^ (w * k) % 2 ^ w
  match t with
  | .int n => extendInt n un (lowInt n un s)
  | .float f => round32 .rne (valOf f s)
  | .i4x => round32 .rne (i4xValue (a.toNat / 2 ^ (8 * (k / 2)) % 256) (k % 2 == 1))

/-- The format of A of alnb: FP32, or the narrow type that TYPE names (R151). -/
def alnbFormat (t : BitVec 4) : FloatFormat :=
  match elemType t with
  | .float f => f
  | _ => fp32

/-- q of R33: CLAMP(RNE(v * 2^(6 - e)), -127, 127), 0 for NaN and infinities. A shift beyond 1000 either way gives what one of 1000 does. -/
def alignQ (v : Num) (e : Int) : Int :=
  match v with
  | .fin m x => clampInt (roundInt .rne (.fin m (x + clampInt (6 - e) (-1000) 1000))) (-127) 127
  | _ => 0

/-- alnb.q (R151) -/
def alnbQOp (t : BitVec 4) (a b : Word) : Word := BitVec.ofInt 32 (alignQ (valOf (alnbFormat t) a.toNat) b.toInt)
/-- alnb.exp (R151) -/
def alnbExpOp (t : BitVec 4) (a : Word) : Word :=
  match expoOf (valOf (alnbFormat t) a.toNat) with
  | some e => BitVec.ofInt 32 e
  | none => 0x80000000

end Sys2Proof.Machine
end

