-- ==== Sys2Proof/Machine/Tile.lean ====
section
/-! DEFINITION. Tiles: the elements of a data row by format (R23, R24), shared exponents and digits (R33, R36), and the format records, sidecars and outlier records of an array (R34, R180, R276). -/

namespace Sys2Proof.Machine

/-- emax of a block: the largest EXPO of its finite non-zero elements, 0 without one (R33). -/
def emaxOf (vs : List Num) : Int :=
  match vs.filterMap expoOf with
  | [] => 0
  | e :: es => es.foldl max e

/-- Whether an element is NaN or infinite (R35). -/
def oddNum : Num → Bool
  | .nan => true
  | .inf _ => true
  | _ => false

/-- The nibble `k` of a list of bytes (R23). -/
def nibbleOf (bs : List Byte) (k : Nat) : Nat := (bs.getD (k / 2) 0).toNat / 16 ^ (k % 2) % 16

/-- The value of element `k` of a row of an 8-bit format, as stored in memory (R22, R23). -/
def elemValue (f : TileFormat) (bs : List Byte) (k : Nat) : Num :=
  match f with
  | .i4x => i4xValue (bs.getD (k / 2) 0).toNat (k % 2 == 1)
  | .i4 => Num.ofInt (int4 (nibbleOf bs k))
  | .i8 => Num.ofInt (bs.getD k 0).toInt
  | .e4m3 => valOf Machine.e4m3 (bs.getD k 0).toNat
  | .e5m2 => valOf Machine.e5m2 (bs.getD k 0).toNat
  | .e2m1 => valOf Machine.e2m1 (nibbleOf bs k)
  | .bf16 => valOf Machine.bf16 ((bs.getD (2 * k) 0).toNat + 256 * (bs.getD (2 * k + 1) 0).toNat)

/-- Whether the digits of a format share a block exponent (R33). -/
def TileFormat.blocked (f : TileFormat) : Bool := f == .e4m3 || f == .e5m2 || f == .bf16

/-- Twice the value of an E2M1 nibble, which is an integer (R36). -/
def e2m1Digit (n : Nat) : Int := roundInt .rne (mulNum (valOf Machine.e2m1 n) (Num.ofInt 2))

/-- The cells of a data row of a format without block exponents (R276): an outlier pair and a double marker become 0. -/
def plainCells (f : TileFormat) (bs : List Byte) : List Byte :=
  match f with
  | .i4x => bs.map fun b => if b.toNat % 16 = 8 ∨ b.toNat / 16 = 8 then 0 else b
  | .e2m1 => (List.range 128).map fun k => BitVec.ofInt 8 (e2m1Digit (nibbleOf bs k))
  | _ => bs

/-- The elements of column n in the 32 rows of a block, from the rows as etld read them. -/
def blockColumn (f : TileFormat) (rows : List (List Byte)) (n : Nat) : List Num := rows.map fun r => elemValue f r n

/-- The cells of the rows of a block of a format with block exponents: q of R33. -/
def blockCells (f : TileFormat) (rows : List (List Byte)) : List (List Byte) :=
  let es := (List.range 128).map fun n => emaxOf (blockColumn f rows n)
  rows.map fun r => (List.range 128).map fun n => BitVec.ofInt 8 (alignQ (elemValue f r n) (es.getD n 0))

/-- Whether a row of I4X holds a double marker (R25). -/
def doubleMarker (bs : List Byte) : Bool := bs.any fun b => b == 0x88

/-- Whether a byte of I4X is an outlier pair: exactly one marker (R24). -/
def outlierPair (b : Byte) : Bool := (b.toNat % 16 == 8) != (b.toNat / 16 == 8)

/-- Whether a column of an I4X tile has more than 8 outliers in a block (R277). `row k` is row k as etld read it. -/
def tooDense (row : Nat → List Byte) : Bool :=
  (List.range 256).any fun n => (List.range 4).any fun s =>
    decide (8 < ((List.range 32).filter fun k =>
      let b := (row (32 * s + k)).getD (n / 2) 0
      outlierPair b && (b.toNat / 16 ^ (n % 2) % 16 == 8)).length)

/-- The sidecars and the odd marks of a half, by 128 s + n (R34, R35). -/
def halfSidecars (f : TileFormat) (row : Nat → List Byte) : List (Int × Bool) :=
  (List.range 2).flatMap fun s => (List.range 128).map fun n =>
    let vs := blockColumn f ((List.range 32).map fun k => row (32 * s + k)) n
    (emaxOf vs, vs.any oddNum)

/-- The array when a tile has landed: the format record with its sidecars and outlier record (R276, R277). -/
def FieldArray.record (x : FieldArray) (f : TileFormat) (half : Nat) (row : Nat → List Byte) : FieldArray :=
  if f.four then
    let dense := f == .i4x && tooDense row
    let outs := if f == .i4x then
        (List.range 128).flatMap fun r => (row r).map fun b => if outlierPair b then b else 0
      else []
    { x with
      fmt0 := if dense then none else some f
      fmt1 := if dense then none else some f
      sidecars := []
      odd := []
      outliers := Sparse.setList [] 0 outs }
  else
    let sc := if f.blocked then halfSidecars f row else List.replicate 256 (0, false)
    { x with
      fmt0 := if half = 0 then some f else x.fmt0
      fmt1 := if half = 1 then some f else x.fmt1
      sidecars := x.sidecars.setList (256 * half) (sc.map fun e => BitVec.ofInt 16 e.1)
      odd := x.odd.setList (256 * half) (sc.map fun e => if e.2 then 1 else 0)
      outliers := x.outliers.clear (8192 * half) 8192 }

/-- The format record that an etst goes by: that of the named half. Where it is a 4-bit format the whole array is stored in it, whatever the other half records; R271 asks for both halves only when both hold a 4-bit format, which they then record alike or differently (R271, R279; DESIGN CHOICE, log 24). -/
def FieldArray.formatFor (x : FieldArray) (half : Nat) : Option TileFormat := if half = 0 then x.fmt0 else x.fmt1

/-- The E2M1 nibble of a cell that holds twice its value; a free value where the cell is no such digit (R279). -/
def e2m1Nibble (b : Byte) : Nat :=
  match (List.range 16).find? fun n => n != 8 && BitVec.ofInt 8 (e2m1Digit n) == b with
  | some n => n
  | none => Config.e2m1Of b.toNat % 16

/-- Bytes that hold nibbles two to a byte (R23). -/
def packNibbles (ns : List Nat) : List Byte :=
  (List.range (ns.length / 2)).map fun k => BitVec.ofNat 8 (ns.getD (2 * k) 0 + 16 * ns.getD (2 * k + 1) 0)

/-- The bytes that etst writes for a row of cells; `outs` are the bytes of the outlier record (R279). -/
def storedRow (f : TileFormat) (cells outs : List Byte) : List Byte :=
  match f with
  | .i4x => (List.range cells.length).map fun k => if outs.getD k 0 = 0 then cells.getD k 0 else outs.getD k 0
  | .e2m1 => packNibbles (cells.map e2m1Nibble)
  | _ => cells

/-! econv (R282) -/

/-- Qmax of the target of an econv: E4M3, E5M2, E2M1, I4X. -/
def convMax (dst : Nat) : Nat :=
  match dst with
  | 0 => 448
  | 1 => 57344
  | 2 => 6
  | _ => 7

/-- The greatest magnitude of a block as a quotient with a power of two below, none when it is infinite; NaN elements do not count. -/
def blockMax (vs : List Num) : Option (Nat × Nat) :=
  vs.foldl (fun r v =>
    match r, v with
    | none, _ => none
    | _, .inf _ => none
    | some a, .fin m e => let q := quotOf m e; if a.1 * q.2 < q.1 * a.2 then some q else some a
    | r, _ => r) (some (0, 1))

/-- The scale byte of a block (R282). -/
def convScale (dst : Nat) (vs : List Num) : Byte :=
  match blockMax vs with
  | none => 0xFE
  | some a => if a.1 = 0 then 0 else e5m3Rat a.1 (a.2 * convMax dst)

/-- v / E5M3V(sc), as sign and quotient, for a finite v and a scale that is not 0 (R282). -/
def divScale (m e : Int) (sc : Byte) : Nat × Nat :=
  match e5m3v sc with
  | .fin m2 e2 => let q := quotOf m e; let r := quotOf m2 e2; (q.1 * r.2, q.2 * r.1)
  | _ => (0, 1)

/-- The format of a floating target of econv. -/
def convFormat (dst : Nat) : FloatFormat :=
  match dst with
  | 0 => Machine.e4m3
  | 1 => Machine.e5m2
  | _ => Machine.e2m1

/-- The code of an element (R282). -/
def convElem (dst : Nat) (sc : Byte) (v : Num) : Nat :=
  if sc = 0 then 0
  else if dst = 3 then
    match v with
    | .fin m e =>
      let q := divScale m e sc
      let r : Int := roundQuot .rne false q.1 q.2
      (clampInt (if m < 0 then -r else r) (-7) 7 % 16).toNat
    | .inf n => if n then 9 else 7
    | _ => 0
  else
    match v with
    | .fin m e => let q := divScale m e sc; narrowRat (convFormat dst) (decide (m < 0)) q.1 q.2
    | v => narrow (convFormat dst) v

/-- The elements of a block: FP32 or BF16 (R282). -/
def convValues (bf : Bool) (bs : List Byte) : List Num :=
  (List.range 32).map fun k =>
    if bf then elemValue .bf16 bs k else valF32 (BitVec.ofNat 32 (natOfBytes ((bs.drop (4 * k)).take 4)))

/-- The data bytes of a converted block, packed under R23 (R282). -/
def convBytes (dst : Nat) (sc : Byte) (vs : List Num) : List Byte :=
  let cs := vs.map (convElem dst sc)
  if dst < 2 then cs.map (BitVec.ofNat 8) else packNibbles cs

/-! escat (R281) -/

/-- The new value of a table element: OP 0 add, 1 max, 2 min; ET 0 i32, 1 f32, 2 bf16 (R281, R426). -/
def scatterOp (op et : Nat) (old v : Nat) : Nat :=
  if et = 0 then
    let a : Word := BitVec.ofNat 32 old
    let b : Word := BitVec.ofNat 32 v
    (match op with | 0 => a + b | 1 => imaxOp false a b | _ => iminOp false a b).toNat
  else
    let f := if et = 1 then fp32 else Machine.bf16
    let x := valOf f old
    let y := valOf f v
    if op = 0 then round f .rne (addNum .rne x y)
    else if x.isNan || y.isNan then f.qnan
    else if op = 1 then (if beforeNum x y then v else old) else (if beforeNum y x then v else old)

end Sys2Proof.Machine
end

