-- ==== Sys2Proof/Machine/Engine.lean ====
section
/-! DEFINITION. The copy engines and the Clover engines: pushes of command words (R263 to R271), what issue does (R272), the moves of elements (R275 to R282), landings (R253), completion (R266, R273, R274) and edrain (R283). -/

namespace Sys2Proof.Machine

/-! The fields a command writes -/

/-- The array half of a tile command, as the row of the array that data row 0 takes (R276). -/
def tileRow0 (ws : List Word) (f : TileFormat) : Nat := if f.four then 0 else 64 * targetHalf ws

/-- The field words that `n` bytes from a field address touch: array and word. -/
def wordsAt (addr n : Nat) : List (Nat × Nat) :=
  (touchedWords (fieldOffset addr) n).map fun w => (fieldArrayOf addr, w)

/-- The field words that depend on element `n` of a command that writes field memory: the words it writes; for a tile with block exponents, those of the whole block, since they land when its exponent is known (R33, R276). -/
def elementWords (ws : List Word) (n : Nat) : List (Nat × Nat) :=
  match cmdType ws with
  | 0 => if copyDstField ws then wordsAt ((copyDst ws n) % 2 ^ 32).toNat 1 else []
  | 1 =>
    let f := loadFormat ws
    if n < tileRows f then
      let r0 := tileRow0 ws f
      if f.blocked then wordsAt (targetArr ws * 16384 + 128 * (r0 + n / 32 * 32)) 4096
      else wordsAt (targetArr ws * 16384 + 128 * (r0 + n)) 128
    else []
  | 3 => if gathField ws then wordsAt (cmdWord ws 6 + n * gathSize ws) (gathSize ws) else []
  | _ => []

/-- Every field word that a command writes (R272). -/
def targetWords (ws : List Word) : List (Nat × Nat) :=
  if writesField ws then
    (List.range (elements ws none)).foldl (fun l n => l ++ (elementWords ws n).filter fun w => !l.contains w) []
  else []

/-- The halves of an array that words lie in, as objects whose generations step (R156). -/
def wordHalves (a : Nat) (ws : List Nat) : List GenObject :=
  (if ws.any fun w => decide (w < 2048) then [GenObject.half a 0] else [])
    ++ (if ws.any fun w => decide (2048 ≤ w) then [GenObject.half a 1] else []) ++ [.whole a]

/-- Whether a command has met a fault that stops it; status 7 does not (R274). -/
def Command.failed (x : Command) : Bool := x.status != 0 && x.status != 7

/-! k registers with writes in flight (R159) -/

/-- The physical k registers that an etld still has to write. -/
def Command.kPending (x : Command) (base : Nat) : List Nat :=
  if cmdType x.words = 1 ∧ !x.completed ∧ !x.failed then
    let f := loadFormat x.words
    ((List.range (tileRegs f)).filter fun k => !x.moved.contains (tileRows f + k)).map fun k => base + targetKb x.words + k
  else []

/-- Whether a write is in flight to a physical k register of a core (R159). -/
def State.kInFlight (s : State) (c : CoreId) (k : Nat) : Bool :=
  (s.commands.any fun e => decide (e.2.core = c)
      && (e.2.kPending (((s.team e.2.t.team).map Team.kBase).getD 0)).contains k)
    || s.accesses.any fun e => decide (e.2.core = c ∧ e.2.kreg = some k)

/-- The 256 bytes of a physical k register (R152). -/
def State.kregBytes (s : State) (c : CoreId) (k : Nat) : List Byte := (s.core c).kbytes.getList (256 * k) 256

/-! Pushes to q0 and q2 -/

/-- The stack whose Clover die runs a command of q2 (R265, R269). -/
def State.routeStack (s : State) (t : ThreadId) (ws : List Word) : Nat :=
  match (s.walk (s.coreOf t).die (s.cnOf t) (routeAddr ws)).1 with
  | .leaf e _ log =>
    let pa := leafAddr e log (routeAddr ws)
    if inHbm pa then stackOf pa else Config.routeStack s.drawn % 16
  | _ => Config.routeStack s.drawn % 16

/-- The engine of a command: none is the core's copy engine, otherwise the stack of its Clover die. -/
def State.engineFor (s : State) (t : ThreadId) (q : Nat) (ws : List Word) : Option Nat :=
  if q = 0 then none else some (s.routeStack t ws)

/-- The cause of the last push of a command, in the order of R270; `pops` are the queues that the pushing instruction pops, whose words are taken by then (R60, R266). -/
def State.lastCause (s : State) (t : ThreadId) (q : Nat) (ws : List Word) (pops : List Nat) : Option Cause :=
  match s.thread t, s.teamOf t with
  | some x, some m =>
    let arrays := limitArrays ws
    let fmt := (s.array m.core (targetArr ws)).formatFor (targetHalf ws)
    let storeOk := cmdType ws != 2 || (match fmt with
      | some f => !f.four || (targetHalf ws == 0 && targetKb ws % 4 == 0)
      | none => false)
    let regs := if cmdType ws = 1 then tileRegs (loadFormat ws) else if cmdType ws = 2 then tileRegs (fmt.getD .i8) else 0
    if lastReserved ws then some 0x140
    else if !(limitsOk ws && arrays.all m.inField && storeOk) then some 0x142
    else if regs ≠ 0 ∧ m.nk < targetKb ws + regs then some 0x103
    else if (writeArrays ws).any fun a => (s.array m.core a).sees then some 0x10A
    else if 16 ≤ Table.findD x.pending (q + 1) 0 + (x.queue (q + 1)).length - pops.count (q + 1) then some 0x143
    else none
  | _, _ => none

/-- Commands issued and not completed on an engine (R265). -/
def State.engineLoad (s : State) (c : CoreId) (stack : Option Nat) : Nat :=
  (s.commands.filter fun e => !e.2.completed && decide (e.2.stack = stack) && (stack.isSome || decide (e.2.core = c))).length

/-- Whether held push `a` goes before held push `b`: the order of first attempts; on one core in one clk by slot and then by home lane (R265). -/
def HeldPush.before (i j : Nat) (a b : HeldPush) : Bool :=
  if a.core = b.core ∧ a.clk = b.clk then
    decide (a.slot < b.slot ∨ (a.slot = b.slot ∧ (laneOf a.t.t < laneOf b.t.t ∨ (laneOf a.t.t = laneOf b.t.t ∧ i < j))))
  else decide (i < j)

/-- Whether two held pushes wait for one engine. -/
def HeldPush.sameEngine (a b : HeldPush) : Bool := decide (a.stack = b.stack) && (a.stack.isSome || decide (a.core = b.core))

/-- Whether a held push can be accepted: its team is not stopped (R378, R389). -/
def State.pushRuns (s : State) (h : HeldPush) : Bool := ((s.team h.t.team).map fun m => !s.halted m).getD false

/-- Whether a held push is the first of its engine and the engine has room; the pushes of stopped teams keep their places and hold no other back (R265; DESIGN CHOICE, log 21). -/
def State.pushReady (s : State) (n : Nat) (h : HeldPush) : Bool :=
  s.pushRuns h && decide (s.engineLoad h.core h.stack < 64)
    && s.heldPushes.all fun e => decide (e.1 = n) || !e.2.sameEngine h || !s.pushRuns e.2 || h.before n e.1 e.2

/-- Whether a push is accepted at once: room, and no earlier push held for the engine (R265). -/
def State.roomNow (s : State) (c : CoreId) (stack : Option Nat) : Bool :=
  decide (s.engineLoad c stack < 64)
    && !s.heldPushes.any fun e => s.pushRuns e.2 && decide (e.2.stack = stack) && (stack.isSome || decide (e.2.core = c))

/-- The tags that etld writes at issue: in each of its B-scale registers, with the generation after its own increment (R158). -/
def State.tagTile (s : State) (c : CoreId) (base : Nat) (ws : List Word) : State :=
  if cmdType ws = 1 then
    let f := loadFormat ws
    let o := if f.four then GenObject.whole (targetArr ws) else .half (targetArr ws) (targetHalf ws)
    let g := s.gen c o
    (s.noteChecked c [o]).alterCore c fun k =>
      { k with ktags := (List.range (tileRegs f)).foldl (fun l r => Table.put l (base + targetKb ws + r) ⟨o, g⟩) k.ktags }
  else s

/-- A command issued: I(E) takes its place in S, its target words are emptied, the generations of the halves it writes step, its tags are written, etst captures its scales, and a completion word is pending (R156, R158, R181, R251, R266, R272, R279). An etst does not wait for writes in flight to its k registers, and captures what they hold (R279; DESIGN CHOICE, log 24). -/
def State.issueCommand (s : State) (t : ThreadId) (q : Nat) (ws : List Word) (stack : Option Nat) : State :=
  match s.thread t, s.teamOf t with
  | some x, some m =>
    let c := m.core
    let s := s.place
    let fence := if cmdAcq ws then s.seq else x.fence
    let fmt := (s.array c (targetArr ws)).formatFor (targetHalf ws)
    let targets := targetWords ws
    let as := (targets.map Prod.fst).eraseDups
    let of (a : Nat) : List Nat := (targets.filter fun w => w.1 == a).map Prod.snd
    let e : Command := {
      t := t, core := c, cn := m.cn, stack := stack, words := ws, issued := s.seq, moved := []
      fence := if cmdOrd ws then max fence (Table.findD x.landings ((stack.map (· + 1)).getD 0) 0) else fence
      reads := [], landings := [], writes := [], field := [], targets := targets, rows := []
      scales := if cmdType ws = 2 then
          (List.range (tileRegs (fmt.getD .i8))).map fun k => s.kregBytes c (m.kBase + targetKb ws + k)
        else []
      format := if cmdType ws = 2 then fmt else none
      status := 0, completed := false }
    let n := s.newId
    let s := { s.bump with commands := Table.put s.commands n e }
    let s := s.alterThread t fun x =>
      { x with
        fence := fence
        queues := Table.put x.queues q []
        pending := Table.put x.pending (q + 1) (Table.findD x.pending (q + 1) 0 + 1) }
    let s := (s.stepGens c (as.flatMap fun a => wordHalves a (of a))).tagTile c m.kBase ws
    (as.foldl (fun (s : State) a => (s.setWords c a (of a) false).walkArray c a) s).countFor t 0x0C 1
  | _, _ => s

/-- What came of a push to q0 or q2. -/
inductive Pushed where
  | ok (s : State)
  | trap (cause : Cause) (s : State)
  | full (stack : Option Nat) (s : State)

/-- A word pushed to q0 or q2 by an instruction that pops some queues (R264 to R270). A failing check discards the assembly. -/
def State.pushCommand (s : State) (t : ThreadId) (q : Nat) (w : Word) (pops : List Nat) : Pushed :=
  match s.thread t with
  | none => .ok s
  | some x =>
    let ws := x.queue q ++ [w]
    let drop := s.alterThread t fun x => x.setQueue q []
    if x.queue q = [] then
      match headerCause q w with
      | some c => .trap c drop
      | none => .ok (s.alterThread t fun x => x.setQueue q ws)
    else if ws.length < cmdLen (ws.getD 0 0) + 1 then .ok (s.alterThread t fun x => x.setQueue q ws)
    else
      match s.lastCause t q ws pops with
      | some c => .trap c drop
      | none =>
        let stack := s.engineFor t q ws
        let s := if stack.isSome then s.draw else s
        if s.roomNow (s.coreOf t) stack then .ok (s.issueCommand t q ws stack) else .full stack s

/-- A last push held for its engine, with the slot and the clk of its first attempt (R265). -/
def State.holdPush (s : State) (t : ThreadId) (q : Nat) (w : Word) (stack : Option Nat) (pops : List Nat) (preds : List (Nat × Bool))
    (anomaly counted : Bool) : State :=
  let c := s.coreOf t
  let slot := match s.cur with | some n => ((s.group n).map Group.slot).getD 0 | none => 0
  { s.bump with heldPushes := Table.put s.heldPushes s.newId ⟨t, c, q, w, stack, (s.core c).clk, slot, pops, preds, anomaly, counted⟩ }

/-- A held push accepted: its command issues and its thread goes on; a check that fails by now raises its cause instead (R265, R270). -/
def State.acceptPush (s : State) (n : Nat) (h : HeldPush) : State :=
  match s.thread h.t with
  | none => s
  | some x =>
    let ws := x.queue h.queue ++ [h.word]
    let s := { s with heldPushes := Table.drop s.heldPushes n }
    match s.lastCause h.t h.queue ws h.pops with
    | some c =>
      let s := s.alterThread h.t fun x => x.setQueue h.queue []
      match x.status with
      | .member n => match s.group n with | some g => (s.trapIn g h.t.t c []).passOn n | none => s
      | _ => s
    | none =>
      let s := s.issueCommand h.t h.queue ws h.stack
      let s := (s.popQueues h.t h.pops).alterThread h.t fun x => x.setPreds h.preds
      let s := if h.anomaly then s.setAnomaly h.t else s
      (if h.counted then s else s.progress h.t).finish h.t

/-- ENGINE_PUSH_ACCEPTED (R265) -/
def execEnginePushAccepted (n : Nat) (s : State) : Result :=
  match Table.find s.heldPushes n with
  | some h => .next (if s.pushReady n h then s.orLater (s.acceptPush n h) else s)
  | none => .next s

/-! Moves -/

def State.alterCommand (s : State) (e : Nat) (f : Command → Command) : State :=
  { s with commands := Table.alter s.commands e f }

/-- The die whose translation unit an engine uses (R368). -/
def Command.die (x : Command) : Nat :=
  match x.stack with
  | none => x.core.die
  | some k => dieOfStack k

/-- Whether a command has landed everything it writes (R268). -/
def Command.landed (x : Command) : Bool :=
  (x.failed || x.moved.length == elements x.words x.format) && x.writes.isEmpty && x.field.isEmpty

/-- Whether ORD lets a command read and write: every earlier command of its thread on its engine has landed (R268). -/
def State.ordOk (s : State) (x : Command) : Bool :=
  !cmdOrd x.words
    || s.commands.all fun e => decide (e.2.t ≠ x.t ∨ e.2.stack ≠ x.stack ∨ x.issued ≤ e.2.issued) || e.2.landed

/-- The places of S at which a command may read now: `fence` is I(E) with acquire, and not before the landings that ORD waits for (R252, R268). -/
def State.placeOk (s : State) (x : Command) (p : Nat) : Bool :=
  decide (x.fence ≤ p ∧ p ≤ s.seq)

/-- What came of a part of a move: its value with the command and the state, a fault's status, or nothing that can happen now. -/
inductive Moved (α : Type) where
  | ok (v : α) (x : Command) (s : State)
  | fault (status : Nat) (s : State)
  | later

/-- One part of a move after another. -/
def Moved.andThen {α β : Type} (m : Moved α) (f : α → Command → State → Moved β) : Moved β :=
  match m with
  | .ok v x s => f v x s
  | .fault n s => .fault n s
  | .later => .later

/-- Who asks the caches for an engine. -/
def State.engineAsker (s : State) (x : Command) (va : VAddr) : Asker :=
  ⟨x.core, x.cn, va.toNat / 65536, ((s.context x.cn).map Context.part).getD 0, s.nameOf x.t, ((s.team x.t.team).map Team.gate).getD false, true⟩

/-- The physical address of an engine access within one sector, with its use of the caches of the home under the class of the range that holds it (R230, R231, R237, R274); a later write to a line that was read takes a later timestamp (R245). -/
def State.engineAt (s : State) (x : Command) (need : Need) (va : VAddr) : Moved Nat :=
  match s.translate x.die x.cn need va with
  | (.ok (.hbm pa), s) =>
    match s.errorAt pa with
    | some c => .fault (statusOf c) s
    | none =>
      let a := s.engineAsker x va
      let s := s.countPage x.die pa need.w
      let s := s.useHome a pa .engine (s.classIn x.cn va) need.w
      .ok pa x (if need.r then s.readAt pa s.wmax else s)
  | (.ok (.window _ _), s) => .fault 3 s
  | (.ok (.failed c), s) => .fault (statusOf c) s
  | (.cause c, s) => .fault (statusOf c) s
  | (.closed, _) => .later

/-- The runs of `n` bytes from an address that lie each in one sector: offset and length. `fuel` is a bound on their number. -/
def sectorRuns : Nat → Nat → Nat → Nat → List (Nat × Nat)
  | 0, _, _, _ => []
  | fuel + 1, addr, done, n =>
    if n ≤ done then []
    else
      let k := min (n - done) (64 - (addr + done) % 64)
      (done, k) :: sectorRuns fuel addr (done + k) n

/-- A byte of global memory that a command has itself written, landed or not: the latest value. -/
def Command.wrote (x : Command) (pa : Nat) : Option Byte :=
  match (x.writes.filter fun w => w.pa == pa).getLast? with
  | some w => some w.byte
  | none => (Table.find x.landings pa).map Prod.snd

/-- Whether an ecopy reads a byte after its own write of it, and what it reads then: from some element moved on, it does (R275; DESIGN CHOICE, log 24). -/
def Command.readsOwn (x : Command) (pa : Nat) : Option Byte :=
  match x.wrote pa with
  | some b => if cmdType x.words = 0 ∧ Config.ownWrite x.issued pa ≤ x.moved.length then some b else none
  | none => none

/-- A byte as an engine reads it at place p of S: as its thread would there, or as the command itself wrote it (R252, R275). -/
def State.engineByte (s : State) (x : Command) (p pa : Nat) : Byte :=
  match x.readsOwn pa with
  | some b => b
  | none => if p = s.seq then s.seenByte x.t none pa else s.byteFor x.t p pa

/-- Whether a command may read a byte at place p of S: not earlier than it read that byte before, not before the latest change of the page's owner, since the read's check passes after that, and before the landing of every write of the command at the byte, unless it reads what it wrote there or the owner has changed since (R252, R253, R353; DESIGN CHOICE, log 24). -/
def State.readableAt (s : State) (x : Command) (p pa : Nat) : Bool :=
  let g := s.gaveAt pa
  decide (g ≤ p) && (x.readsOwn pa).isSome
    || decide (g ≤ p) && (x.reads.all fun q => decide (q.1 ≠ pa ∨ q.2 ≤ p))
      && match Table.find x.landings pa with
         | some l => decide (p < l.1 ∨ l.1 ≤ g)
         | none => true

/-- Bytes of global memory read by an engine at place p of S, each where it may be read there (R252). -/
def engineReadRuns (va : VAddr) (p : Nat) : List (Nat × Nat) → Command → State → Moved (List Byte)
  | [], x, s => .ok [] x s
  | r :: rs, x, s =>
    (s.engineAt x needRead (va + BitVec.ofNat 57 r.1)).andThen fun pa x s =>
      if (List.range r.2).any fun k => !s.readableAt x p (pa + k) then .later
      else
        let bs := (List.range r.2).map fun k => s.engineByte x p (pa + k)
        (engineReadRuns va p rs { x with reads := ((List.range r.2).map fun k => (pa + k, p)) ++ x.reads } s).andThen
          fun cs x s => .ok (bs ++ cs) x s

/-- `n` bytes read by an engine at a global or a field address (R252, R275). -/
def engineRead (field : Bool) (addr : Int) (n p : Nat) (x : Command) (s : State) : Moved (List Byte) :=
  if field then
    let at_ (k : Nat) : Nat := ((addr + k) % 2 ^ 32).toNat
    let key (k : Nat) : Nat := fieldKey x.core (fieldArrayOf (at_ k)) (fieldOffset (at_ k))
    if (List.range n).any fun k => x.reads.any fun q => decide (q.1 = key k ∧ p < q.2) then .later
    else .ok ((List.range n).map fun k => s.fieldByteAt x.core (fieldArrayOf (at_ k)) (fieldOffset (at_ k)) p)
      { x with reads := ((List.range n).map fun k => (key k, p)) ++ x.reads } s
  else
    let va : VAddr := BitVec.ofInt 57 addr
    engineReadRuns va p (sectorRuns (n / 64 + 2) va.toNat 0 n) x s

/-- Bytes of global memory that an engine writes: they join the writes that have still to land (R253). -/
def engineWriteRuns (va : VAddr) (n : Nat) (bs : List Byte) : List (Nat × Nat) → Command → State → Moved Unit
  | [], x, s => .ok () x s
  | r :: rs, x, s =>
    let a := va + BitVec.ofNat 57 r.1
    (s.engineAt x needWrite a).andThen fun pa x s =>
      let new := (List.range r.2).map fun k =>
        (⟨n, pa + k, a + BitVec.ofNat 57 k, bs.getD (r.1 + k) 0, []⟩ : EngineWrite)
      engineWriteRuns va n bs rs { x with writes := x.writes ++ new } s

/-- Bytes of element `n` written by an engine to a global or a field address (R253, R275). -/
def engineWrite (field : Bool) (addr : Int) (n : Nat) (bs : List Byte) (x : Command) (s : State) : Moved Unit :=
  if field then
    .ok () { x with field := x.field ++ (List.range bs.length).map fun k =>
      let a := ((addr + k) % 2 ^ 32).toNat
      (n, fieldArrayOf a, fieldOffset a, bs.getD k 0) } s
  else
    let va : VAddr := BitVec.ofInt 57 addr
    engineWriteRuns va n bs (sectorRuns (bs.length / 64 + 2) va.toNat 0 bs.length) x s

/-- A fault of a command: it starts nothing further, and keeps the status of the first fault (R274). Status 7 stops nothing and gives way to a fault that comes after it (R274, R277; DESIGN CHOICE, log 24). -/
def Command.fail (x : Command) (status : Nat) : Command := { x with status := if x.failed then x.status else status }

/-- One element of a command of a type moved: not again, not after a fault, not before ORD allows it, and reading at a place that R252 allows. All reads of one element are made at one place, though R252 lets each take its own (DESIGN CHOICE, log 24). -/
def moveElement (type e n p : Nat) (body : Command → State → Moved Unit) (s : State) : Result :=
  match Table.find s.commands e with
  | none => .next s
  | some x =>
    if cmdType x.words ≠ type ∨ x.completed ∨ x.failed ∨ x.moved.contains n
        ∨ elements x.words x.format ≤ n ∨ !s.ordOk x ∨ !s.placeOk x p then .next s
    else
      match body x s with
      | .ok _ y s => .next (s.alterCommand e fun _ => { y with moved := NatSet.add y.moved n })
      | .fault st s => .next (s.alterCommand e fun x => x.fail st)
      | .later => .next s

/-- ECOPY: byte n copied (R275). -/
def execEcopy (e n p : Nat) (s : State) : Result :=
  moveElement 0 e n p (fun x s =>
    (engineRead (copySrcField x.words) (copySrc x.words n) 1 p x s).andThen fun bs x s =>
      engineWrite (copyDstField x.words) (copyDst x.words n) n bs x s) s

/-- A raw row of a tile that etld has read. -/
def Command.row (x : Command) (f : TileFormat) (k : Nat) : List Byte := x.rows.getList (256 * k) (rowBytes f)

/-- The cells of data row n of a tile, and of its block once the block is read (R33, R276). -/
def tileField (x : Command) (f : TileFormat) (n : Nat) : List (Nat × Nat × Nat × Byte) :=
  let put (r : Nat) (bs : List Byte) : List (Nat × Nat × Nat × Byte) :=
    (List.range 128).map fun k => (r, targetArr x.words, 128 * (tileRow0 x.words f + r) + k, bs.getD k 0)
  if f.blocked then
    let b := n / 32 * 32
    if (List.range 32).all fun k => b + k = n || x.moved.contains (b + k) then
      let cs := blockCells f ((List.range 32).map fun k => x.row f (b + k))
      (List.range 32).flatMap fun k => put (b + k) (cs.getD k [])
    else []
  else put n (plainCells f (x.row f n))

/-- Bytes of a physical k register written. -/
def State.writeKreg (s : State) (c : CoreId) (k from_ : Nat) (bs : List Byte) : State :=
  s.alterCore c fun x => { x with kbytes := x.kbytes.setList (256 * k + from_) bs }

/-- ETLD: data row n, or scale register n less the number of rows (R276). -/
def execEtld (e n p : Nat) (s : State) : Result :=
  moveElement 1 e n p (fun x s =>
    let f := loadFormat x.words
    let ws := x.words
    if n < tileRows f then
      (engineRead false (cmdAddr ws 1 + n * cmdInt ws 3) (rowBytes f) p x s).andThen fun bs x s =>
        let x := { x with rows := x.rows.setList (256 * n) bs }
        let s := if f == .i4x && doubleMarker bs then s.setAnomaly x.t else s
        .ok () { x with field := x.field ++ tileField x f n } s
    else
      let k := n - tileRows f
      let base := ((s.team x.t.team).map Team.kBase).getD 0
      let reg := base + targetKb ws + k
      if cmdSconst ws then .ok () x (s.writeKreg x.core reg 0 (List.replicate 256 (targetConst ws)))
      else
        (engineRead false (cmdAddr ws 4 + 256 * k) 256 p x s).andThen fun bs x s => .ok () x (s.writeKreg x.core reg 0 bs)) s

/-- The sidecars of a half as etst writes them, zeros for a format without them (R279). -/
def sidecarBytes (a : FieldArray) (f : TileFormat) (half : Nat) : List Byte :=
  (List.range 256).flatMap fun k =>
    let v : BitVec 16 := if f.blocked then a.sidecars.get (256 * half + k) else 0
    [byteOf v 0, byteOf v 1]

/-- ETST: data row n, then the scale registers, then the sidecars (R279). -/
def execEtst (e n p : Nat) (s : State) : Result :=
  moveElement 2 e n p (fun x s =>
    let ws := x.words
    let f := x.format.getD .i8
    let a := targetArr ws
    if n < tileRows f then
      let r := tileRow0 ws f + n
      (engineRead true ((a * 16384 + 128 * r : Nat) : Int) 128 p x s).andThen fun cells x s =>
        let outs := (s.array x.core a).outliers.getList (128 * r) 128
        engineWrite false (cmdAddr ws 1 + n * cmdInt ws 3) n (storedRow f cells outs) x s
    else if n < tileRows f + tileRegs f then
      let k := n - tileRows f
      engineWrite false (cmdAddr ws 4 + 256 * k) n (x.scales.getD k []) x s
    else engineWrite false (cmdAddr ws 4 + 256) n (sidecarBytes (s.array x.core a) f (targetHalf ws)) x s) s

/-- The index of element n of an egath or escat. -/
def readIndex (x : Command) (n p : Nat) (s : State) : Moved Nat :=
  (engineRead false (cmdAddr x.words 3 + 4 * n) 4 p x s).andThen fun bs x s => .ok (natOfBytes bs) x s

/-- EGATH: element n (R280). -/
def execEgath (e n p : Nat) (s : State) : Result :=
  moveElement 3 e n p (fun x s =>
    (readIndex x n p s).andThen fun i x s =>
      let w := gathSize x.words
      (engineRead false (cmdAddr x.words 1 + i * w) w p x s).andThen fun bs x s =>
        engineWrite (gathField x.words) (cmdAddr x.words 6 + n * w) n bs x s) s

/-- ESCAT: the reduction of element n, after those before it (R254, R281). -/
def execEscat (e n p : Nat) (s : State) : Result :=
  moveElement 4 e n p (fun x s =>
    if x.moved.length ≠ n then .later
    else
      (readIndex x n p s).andThen fun i x s =>
        let w := scatSize x.words
        (engineRead (scatField x.words) (cmdAddr x.words 6 + n * w) w p x s).andThen fun v x s =>
          let va : VAddr := BitVec.ofNat 57 (cmdAddr x.words 1 + i * w)
          (s.engineAt x needAtomic va).andThen fun pa x s =>
            let s := s.place.settle pa w
            let new := scatterOp (cmdFlags x.words 0 2) (scatType x.words) (natOfBytes (s.bytes pa w)) (natOfBytes v)
            .ok () x (((s.capture (s.nameOf x.t).lid pa).homeBytes pa (bytesOf (BitVec.ofNat 32 new) w)).noteLanding x)) s

/-- ECONV: block n (R282). -/
def execEconv (e n p : Nat) (s : State) : Result :=
  moveElement 5 e n p (fun x s =>
    let ws := x.words
    let bf := cmdFlag ws 0
    let dst := cmdFlags ws 1 2
    let size : Nat := if bf then 64 else 128
    (engineRead false (cmdAddr ws 1 + size * n : Nat) size p x s).andThen fun bs x s =>
      let vs := convValues bf bs
      let sc := convScale dst vs
      let out := convBytes dst sc vs
      let s := if 2 ≤ dst ∧ vs.any Num.isNan then s.setAnomaly x.t else s
      (engineWrite false (cmdAddr ws 3 + out.length * n) n out x s).andThen fun _ x s =>
        engineWrite false (cmdAddr ws 5 + n) n [sc] x s) s

/-! Landings -/

/-- Whether a write with these landings has landed for every thread that a scope covers: it landed for that scope, or for one that holds it. A team is part of its cluster and of its core's die; a cluster need not lie in one die (R253, R325). -/
def reaches (lands : List (Scope × Nat)) (want : Scope) : Bool :=
  lands.any fun l => decide (l.1 = .package ∨ l.1 = want ∨ want = .team)

/-- The physical address of a virtual address in a context as memory maps it now. -/
def State.nowAt (s : State) (cn : Nat) (va : VAddr) : Option Nat :=
  match s.walkNow cn va with
  | .leaf e _ log => some (leafAddr e log va)
  | _ => none

/-- Whether write `w`, at position `i` of the list of its command, may land as far as `to`: the writes that the engine makes earlier to that byte have landed as far. For an ecopy those are the ones of smaller elements, moved or still to be moved; for the others, those that stand before it (R253, R275). -/
def State.mayLand (s : State) (x : Command) (i : Nat) (w : EngineWrite) (upTo : Scope) : Bool :=
  if cmdType x.words = 0 then
    (x.writes.all fun v => v.pa != w.pa || w.n ≤ v.n || reaches v.lands upTo)
      && (x.failed || (List.range w.n).all fun k =>
        x.moved.contains k || s.nowAt x.cn (BitVec.ofInt 57 (copyDst x.words k)) != some w.pa)
  else (x.writes.take i).all fun v => v.pa != w.pa || reaches v.lands upTo

/-- Whether element n of a command has global writes that may land as far as `to`. -/
def State.landable (s : State) (x : Command) (n : Nat) (upTo : Scope) : Bool :=
  (List.range x.writes.length).all fun i =>
    match x.writes[i]? with
    | some w => w.n != n || reaches w.lands upTo || s.mayLand x i w upTo
    | none => true

/-- A write of a command noted as landed for some thread, at the present place of S unless one at its byte landed before (R253). -/
def Command.noteLanded (x : Command) (p : Nat) (w : EngineWrite) : Command :=
  { x with landings := Table.put x.landings w.pa ((Table.find x.landings w.pa).map Prod.fst |>.getD p, w.byte) }

/-- A write that an error reply refuses: the command fails, and one that has pushed its completion word already counts among the failures all the same (R274). -/
def State.refuseWrite (s : State) (e : Nat) (status : Nat) : State :=
  let late := match Table.find s.commands e with | some x => if x.completed ∧ x.status = 0 then some x.t else none | none => none
  let s := s.alterCommand e fun x => x.fail status
  match late with
  | some t => s.alterThread t fun t => { t with failures := if t.failures = 0xFFFFFFFF then t.failures else t.failures + 1 }
  | none => s

/-- One write of a command lands for the package: it is performed at the home after the earlier landings at its byte. A write to a die under warm reset is refused (R253, R274). -/
def State.landWrite (s : State) (e : Nat) (x : Command) (w : EngineWrite) : State :=
  let s := s.place
  if (s.die (homeDie w.pa)).out then
    (s.alterCommand e fun x => { x with writes := x.writes.filter fun v => decide (v ≠ w) }).refuseWrite e 6
  else
    let s := (s.settleByte w.pa).alterCommand e fun x => x.noteLanded s.seq w
    if !w.lands.isEmpty then s
    else (s.alterCommand e fun x => { x with writes := x.writes.filter fun v => decide (v ≠ w) }).performWrite x w

/-- The global writes of element n land as far as a scope; at package scope they are performed at the home (R253). -/
def State.landGlobal (s : State) (e : Nat) (x : Command) (n : Nat) (upTo : Scope) : State :=
  if upTo = .package then (x.writes.filter fun w => w.n == n).foldl (fun (s : State) w => s.landWrite e x w) s
  else
    let s := s.place
    s.alterCommand e fun x =>
      (x.writes.filter fun w => w.n == n && !reaches w.lands upTo).foldl (fun (x : Command) w => x.noteLanded s.seq w)
        { x with writes := x.writes.map fun w => if w.n = n ∧ !reaches w.lands upTo then { w with lands := w.lands ++ [(upTo, s.seq)] } else w }

/-- Whether a storage request made before a command issued still holds its writes to an array; numbers are given out in order, so its own is below the command's (R184). -/
def State.landingHeld (s : State) (e : Nat) (x : Command) (a : Nat) : Bool :=
  (s.array x.core a).requests.any fun r => !r.compute && decide (r.id < e)

/-- Whether a field word of a command may land: every element that it depends on has moved, or the command has failed (R181, R272). -/
def Command.wordReady (x : Command) (a w : Nat) : Bool :=
  x.targets.contains (a, w)
    && (x.failed || (List.range (elements x.words x.format)).all fun n =>
      x.moved.contains n || !(elementWords x.words n).contains (a, w))

/-- The byte of the larger element. -/
def laterByte (r : Option (Nat × Nat × Nat × Byte)) (f : Nat × Nat × Nat × Byte) : Option (Nat × Nat × Nat × Byte) :=
  match r with
  | some g => if g.1 ≤ f.1 then some f else some g
  | none => some f

/-- The bytes of a field word that a command lands, the larger element last (R275). -/
def Command.wordBytes (x : Command) (a w : Nat) : List (Nat × Nat × Nat × Byte) :=
  let mine := x.field.filter fun f => f.2.1 == a && f.2.2.1 / 4 == w
  (List.range 4).filterMap fun k =>
    (mine.filter fun f => f.2.2.1 == 4 * w + k).foldl laterByte none

/-- The tile of an etld recorded in its array, when its last data word has landed (R276, R277). -/
def State.recordTile (s : State) (x : Command) : State :=
  let f := loadFormat x.words
  s.alterArray x.core (targetArr x.words) fun a => a.record f (targetHalf x.words) (fun k => x.row f k)

/-- Whether an etld finds its tile too dense (R277). -/
def Command.dense (x : Command) : Bool := loadFormat x.words == .i4x && tooDense (fun k => x.row .i4x k)

/-- The field memory of a core ordered after every write so far, as a landing of an engine makes it (R244, R251). -/
def State.meetField (s : State) (c : CoreId) : State := s.alterCore c fun k => { k with fieldTs := tsMax k.fieldTs s.wmax }

/-- A field word of a command lands: its bytes are written and it becomes full, its waiters are served; the last word of a half of an ecopy or egath steps the generations, the last word of a tile makes its format record (R156, R181, R251, R276). -/
def State.landWord (s : State) (e : Nat) (x : Command) (a w : Nat) : State :=
  let c := x.core
  let bs := x.wordBytes a w
  let y := { x with
    targets := x.targets.filter fun t => t != (a, w)
    field := x.field.filter fun f => !(f.2.1 == a && f.2.2.1 / 4 == w) }
  let s := ((s.alterCommand e fun _ => y).place.meetField c).noteLanding x
  let s := bs.foldl (fun (s : State) (f : Nat × Nat × Nat × Byte) => s.keepCells c a f.2.2.1 1) s
  let ar := s.array c a
  let ar := { ar with cells := bs.foldl (fun m (f : Nat × Nat × Nat × Byte) => m.set f.2.2.1 f.2.2.2) ar.cells }.setFull [w]
  let s := (s.noteWords c a ar [(w, true)]).walkArray c a
  let half := w / 2048
  let lastOfHalf := !y.targets.any fun t => t.1 == a && t.2 / 2048 == half
  let s := if lastOfHalf ∧ cmdType x.words ≠ 1 then s.stepGens c [.half a half, .whole a] else s
  if cmdType x.words = 1 ∧ y.targets = [] ∧ !y.failed then
    let s := s.recordTile y
    if y.dense then s.alterCommand e fun x => x.fail 7 else s
  else s

/-- Whether a command writes field memory and has words to land. -/
def Command.toField (x : Command) : Bool := writesField x.words

/-- A command that is complete and has landed everywhere is gone. -/
def State.forget (s : State) (e : Nat) : State :=
  match Table.find s.commands e with
  | some x => if x.completed ∧ x.writes = [] then { s with commands := Table.drop s.commands e } else s
  | none => s

/-- ENGINE_WRITE_LANDING: the global writes of element n land as far as `to`; for a command that writes field memory, n is 4096 times the array plus the word that lands (R251, R253). -/
def execEngineWriteLanding (e n : Nat) (upTo : Scope) (s : State) : Result :=
  match Table.find s.commands e with
  | none => .next s
  | some x =>
    if x.toField then
      let a := n / 4096
      let w := n % 4096
      .next (if x.wordReady a w && !s.landingHeld e x a && !x.completed then s.orLater (s.landWord e x a w) else s)
    else .next (if s.landable x n upTo then (s.landGlobal e x n upTo).forget e else s)

/-- Whether a command may complete: every element moved or a fault met, every field word landed, every write landed as far as its release says (R253, R266). -/
def Command.mayComplete (x : Command) : Bool :=
  !x.completed && (x.failed || x.moved.length == elements x.words x.format) && x.field.isEmpty
    && (x.failed || x.targets.isEmpty)
    && (!cmdRel x.words || x.writes.all fun w => reaches w.lands (cmdScope x.words))

/-- The target words that a fault has left empty set full, with what follows a last landing in their halves (R156, R274). -/
def State.fillTargets (s : State) (x : Command) : State :=
  let as := (x.targets.map Prod.fst).eraseDups
  as.foldl (fun (s : State) a =>
    let mine := (x.targets.filter fun w => w.1 == a).map Prod.snd
    let ws := mine.filter fun w => !(s.array x.core a).full w
    let s := (s.setWords x.core a ws true).walkArray x.core a
    if cmdType x.words = 1 then s else s.stepGens x.core (wordHalves a mine)) s

/-- D(E): the completion word is pushed; a status other than 0 adds 1 to the failure count (R251, R266, R273, R274). -/
def State.complete (s : State) (e : Nat) (x : Command) : State :=
  let q := if cmdType x.words < 3 then 1 else 3
  let s := (s.place.meetField x.core).fillTargets x
  let s := if cmdType x.words = 1 ∧ !x.failed then s.recordTile x else s
  let s := s.alterCommand e fun x => { x with completed := true, targets := [] }
  let s := s.alterThread x.t fun t =>
    let t := t.setQueue q (t.queue q ++ [completionWord x.words x.status])
    { t with
      pending := Table.put t.pending q (Table.findD t.pending q 0 - 1)
      failures := if x.status ≠ 0 ∧ t.failures ≠ 0xFFFFFFFF then t.failures + 1 else t.failures }
  s.forget e

/-- ENGINE_COMPLETION (R251, R266, R273, R274) -/
def execEngineCompletion (e : Nat) (s : State) : Result :=
  match Table.find s.commands e with
  | none => .next s
  | some x => .next (if x.mayComplete then s.orLater (s.complete e x) else s)

/-! edrain -/

/-- Whether a thread has commands that have not completed or not landed everywhere (R255, R283). -/
def State.undrained (s : State) (t : ThreadId) : Bool := s.commands.any fun e => decide (e.2.t = t)

end Sys2Proof.Machine
end

