-- ==== Sys2Proof/Machine/Lane.lean ====
section
/-! DEFINITION. The lane families: integer (family A, R134 to R140), floating point (family B, R141 to R146), conversions (family C, R147 to R151), moves and predicates (family D, R123 to R128). -/

namespace Sys2Proof.Machine

/-- The words that an effect pushes to staging queues. -/
def Thread.pushAll (x : Thread) (l : List (Nat × Word)) : Thread :=
  l.foldl (fun x p => x.setQueue p.1 (x.queue p.1 ++ [p.2])) x

/-- The registers, predicates and staging words of an effect written in its thread, with FMTANOM (R121, R133). -/
def State.applyEffect (s : State) (t : ThreadId) (e : Effect) : State :=
  let s := if e.regs = [] then s else s.writeRegs t e.regs
  let s := s.alterThread t fun x => (x.setPreds e.preds).pushAll (e.pushes.filter fun p => decide (4 ≤ p.1))
  if e.anomaly then s.setAnomaly t else s

/-- An effect applied in a thread: a word for q0 or q2 goes to the command assembly, whose checks come first (R264, R270). `pops` are the queues still to pop, `counted` whether PROG has counted the instruction. -/
def State.attemptEffect (s : State) (t : ThreadId) (pops : List Nat) (counted : Bool) (e : Effect) : Attempt :=
  match e.pushes.find? fun p => decide (p.1 < 4) with
  | none => .done (s.applyEffect t e)
  | some p =>
    match s.pushCommand t p.1 p.2 pops with
    | .ok s => .done (s.applyEffect t e)
    | .trap c s => .trap c [] s
    | .full stack s => .park (s.holdPush t p.1 p.2 stack pops e.preds e.anomaly counted)

/-- One thread's execution of an instruction with an effect. -/
def laneBody (sh : Shape) (eff : State → ThreadId → Team → Thread → List DWord → Effect) (s : State) (t : ThreadId) (vs : List DWord) : Attempt :=
  match s.thread t, s.teamOf t with
  | some x, some m => s.attemptEffect t (sh.srcs.filterMap Src.pops) false (eff s t m x vs)
  | _, _ => .done s

/-- An instruction of the lane families (R133). -/
def runLane (sh : Shape) (eff : State → ThreadId → Team → Thread → List DWord → Effect) (s : State) : Result :=
  runGroup s sh (laneBody sh eff)

/-- The sources A, B and C of format R. -/
def srcA (f : RF) : Src := .one f.a f.bta
def srcB (f : RF) : Src := .one f.b f.btb
def srcC (f : RF) : Src := .one f.c f.btc

/-- One, two and three 32-bit sources, and a 32-bit destination. -/
def lane1 (f : RF) (op : Word → Word) : State → Result :=
  runLane { guard := f.g, srcs := [srcA f], dsts := [.one f.d] } fun _ _ _ _ vs => writeDst f.d (op (arg vs 0))
def lane2 (f : RF) (op : Word → Word → Word) : State → Result :=
  runLane { guard := f.g, srcs := [srcA f, srcB f], dsts := [.one f.d] } fun _ _ _ _ vs => writeDst f.d (op (arg vs 0) (arg vs 1))
def lane3 (f : RF) (op : Word → Word → Word → Word) : State → Result :=
  runLane { guard := f.g, srcs := [srcA f, srcB f, srcC f], dsts := [.one f.d] } fun _ _ _ _ vs =>
    writeDst f.d (op (arg vs 0) (arg vs 1) (arg vs 2))
/-- Format I: IMM in the place of B (R131). -/
def laneI (f : IF) (op : Word → Word → Word) : State → Result :=
  runLane { guard := f.g, srcs := [.one f.a false], dsts := [.one f.d] } fun _ _ _ _ vs => writeDst f.d (op (arg vs 0) f.imm)

/-- What a destination that keeps old bits held; zr reads as 0 (R133). -/
def oldD (x : Thread) (d : Byte) : Word := if d.toNat < 0x40 then x.reg d.toNat else 0

/-- A comparison: VAR 0 writes the predicate, VAR 1 writes 1 or 0 to D (R139). -/
def laneCompare (f : RF) (test : Word → Word → Bool) : State → Result :=
  if f.var = 1 then lane2 f fun a b => if test a b then 1 else 0
  else runLane { guard := f.g, srcs := [srcA f, srcB f] } fun _ _ _ _ vs => writePred f.d (test (arg vs 0) (arg vs 1))
/-- A comparison of format I: .eq to a predicate (R131). -/
def laneCompareI (f : IF) (test : Word → Word → Bool) : State → Result :=
  runLane { guard := f.g, srcs := [.one f.a false] } fun _ _ _ _ vs => writePred f.d (test (arg vs 0) f.imm)

/-- A packed operation (R146). -/
def lanePacked (f : RF) (three : Bool) (fmt : FloatFormat) (op : Num → Num → Num → Num) : State → Result :=
  runLane { guard := f.g, srcs := if three then [srcA f, srcB f, srcC f] else [srcA f, srcB f], dsts := [.one f.d] } fun _ _ _ x vs =>
    writeDst f.d (packedOp fmt (roundModeOf f.rnd) f.var op (oldD x f.d) (arg vs 0) (arg vs 1) (arg vs 2))

/-- Two 64-bit sources and a 64-bit destination (R140). -/
def lane64 (f : RF) (op : DWord → DWord → DWord) : State → Result :=
  runLane { guard := f.g, srcs := [.pair f.a f.bta, .pair f.b f.btb], dsts := [.pair f.d] } fun _ _ _ _ vs =>
    writePair f.d (op (arg64 vs 0) (arg64 vs 1))

/-- iadd (R135) -/
def execIadd (f : RF) (s : State) : Result := lane2 f (iaddOp f.sat f.un) s

/-- iadd with IMM (R131, R135) -/
def execIaddI (f : IF) (s : State) : Result := laneI f (iaddOp false false) s

/-- isub (R135) -/
def execIsub (f : RF) (s : State) : Result := lane2 f (isubOp f.sat f.un) s

/-- isub with IMM (R131, R135) -/
def execIsubI (f : IF) (s : State) : Result := laneI f (isubOp false false) s

/-- imul (R135) -/
def execImul (f : RF) (s : State) : Result := lane2 f (imulOp f.sat f.un) s

/-- imul with IMM (R131, R135) -/
def execImulI (f : IF) (s : State) : Result := laneI f (imulOp false false) s

/-- imulh (R135) -/
def execImulh (f : RF) (s : State) : Result := lane2 f (imulhOp f.un) s

/-- imulh with IMM (R131, R135) -/
def execImulhI (f : IF) (s : State) : Result := laneI f (imulhOp false) s

/-- imad (R135) -/
def execImad (f : RF) (s : State) : Result := lane3 f (imadOp f.sat f.un) s

/-- idiv (R136) -/
def execIdiv (f : RF) (s : State) : Result := lane2 f (idivOp f.sat f.un) s

/-- idiv with IMM (R131, R136) -/
def execIdivI (f : IF) (s : State) : Result := laneI f (idivOp false false) s

/-- irem (R136) -/
def execIrem (f : RF) (s : State) : Result := lane2 f (iremOp f.un) s

/-- irem with IMM (R131, R136) -/
def execIremI (f : IF) (s : State) : Result := laneI f (iremOp false) s

/-- iabs (R135) -/
def execIabs (f : RF) (s : State) : Result := lane1 f (iabsOp f.sat) s

/-- ineg (R135) -/
def execIneg (f : RF) (s : State) : Result := lane1 f (inegOp f.sat) s

/-- imin (R135) -/
def execImin (f : RF) (s : State) : Result := lane2 f (iminOp f.un) s

/-- imin with IMM (R131, R135) -/
def execIminI (f : IF) (s : State) : Result := laneI f (iminOp false) s

/-- imax (R135) -/
def execImax (f : RF) (s : State) : Result := lane2 f (imaxOp f.un) s

/-- imax with IMM (R131, R135) -/
def execImaxI (f : IF) (s : State) : Result := laneI f (imaxOp false) s

/-- and (R137) -/
def execAnd (f : RF) (s : State) : Result := lane2 f (fun a b => a &&& b) s

/-- and with IMM (R131, R137) -/
def execAndI (f : IF) (s : State) : Result := laneI f (fun a b => a &&& b) s

/-- or (R137) -/
def execOr (f : RF) (s : State) : Result := lane2 f (fun a b => a ||| b) s

/-- or with IMM (R131, R137) -/
def execOrI (f : IF) (s : State) : Result := laneI f (fun a b => a ||| b) s

/-- xor (R137) -/
def execXor (f : RF) (s : State) : Result := lane2 f (fun a b => a ^^^ b) s

/-- xor with IMM (R131, R137) -/
def execXorI (f : IF) (s : State) : Result := laneI f (fun a b => a ^^^ b) s

/-- andn (R137) -/
def execAndn (f : RF) (s : State) : Result := lane2 f (fun a b => a &&& ~~~b) s

/-- andn with IMM (R131, R137) -/
def execAndnI (f : IF) (s : State) : Result := laneI f (fun a b => a &&& ~~~b) s

/-- not (R137) -/
def execNot (f : RF) (s : State) : Result := lane1 f (fun a => ~~~a) s

/-- shl (R137) -/
def execShl (f : RF) (s : State) : Result := lane2 f shlOp s

/-- shl with IMM (R131, R137) -/
def execShlI (f : IF) (s : State) : Result := laneI f shlOp s

/-- shr (R137) -/
def execShr (f : RF) (s : State) : Result := lane2 f shrOp s

/-- shr with IMM (R131, R137) -/
def execShrI (f : IF) (s : State) : Result := laneI f shrOp s

/-- sar (R137) -/
def execSar (f : RF) (s : State) : Result := lane2 f sarOp s

/-- sar with IMM (R131, R137) -/
def execSarI (f : IF) (s : State) : Result := laneI f sarOp s

/-- rotl (R137) -/
def execRotl (f : RF) (s : State) : Result := lane2 f rotlOp s

/-- rotl with IMM (R131, R137) -/
def execRotlI (f : IF) (s : State) : Result := laneI f rotlOp s

/-- popc (R137) -/
def execPopc (f : RF) (s : State) : Result := lane1 f popcOp s

/-- clz (R137) -/
def execClz (f : RF) (s : State) : Result := lane1 f clzOp s

/-- ctz (R137) -/
def execCtz (f : RF) (s : State) : Result := lane1 f ctzOp s

/-- brev (R137) -/
def execBrev (f : RF) (s : State) : Result := lane1 f brevOp s

/-- bfe (R138) -/
def execBfe (f : RF) (s : State) : Result := lane3 f (bfeOp f.un) s

/-- bfi (R138) -/
def execBfi (f : RF) (s : State) : Result :=
  runLane { guard := f.g, srcs := [srcA f, srcB f, srcC f], dsts := [.one f.d] } (fun _ _ _ x vs =>
    writeDst f.d (bfiOp (oldD x f.d) (arg vs 0) (arg vs 1) (arg vs 2))) s

/-- sel: C selects a predicate (R132, R139) -/
def execSel (f : RF) (s : State) : Result :=
  runLane { guard := f.g, srcs := [srcA f, srcB f], dsts := [.one f.d] } (fun _ _ _ x vs =>
    writeDst f.d (if x.select f.c then arg vs 0 else arg vs 1)) s

/-- icmp (R139) -/
def execIcmp (f : RF) (s : State) : Result := laneCompare f (icmpOp f.cmp f.un) s

/-- icmp with IMM: .eq to a predicate (R131, R139) -/
def execIcmpI (f : IF) (s : State) : Result := laneCompareI f (icmpOp 0 false) s

/-- iaddc: the carry is read from and written to the predicate of C (R139) -/
def execIaddc (f : RF) (s : State) : Result :=
  runLane { guard := f.g, srcs := [srcA f, srcB f], dsts := [.one f.d] } (fun _ _ _ x vs =>
    let r := iaddcOp (arg vs 0) (arg vs 1) (x.pred (f.c.toNat % 8))
    { writeDst f.d r.1 with preds := [(f.c.toNat % 8, r.2)] }) s

/-- add64 (R140) -/
def execAdd64 (f : RF) (s : State) : Result := lane64 f (add64Op f.sat f.un) s

/-- sub64 (R140) -/
def execSub64 (f : RF) (s : State) : Result := lane64 f (sub64Op f.sat f.un) s

/-- lea (R140) -/
def execLea (f : RF) (s : State) : Result := lane2 f (leaOp f.var.toNat) s

/-- lea with IMM: .s1 (R131, R140) -/
def execLeaI (f : IF) (s : State) : Result := laneI f (leaOp 0) s

/-- lea64 (R140) -/
def execLea64 (f : RF) (s : State) : Result :=
  runLane { guard := f.g, srcs := [.pair f.a f.bta, srcB f], dsts := [.pair f.d] } (fun _ _ _ _ vs =>
    writePair f.d (lea64Op f.un f.var.toNat (arg64 vs 0) (arg vs 1))) s

/-! Family B -/

/-- fadd (R142) -/
def execFadd (f : RF) (s : State) : Result := lane2 f (faddOp (roundModeOf f.rnd)) s

/-- fadd with IMM (R131, R142) -/
def execFaddI (f : IF) (s : State) : Result := laneI f (faddOp .rne) s

/-- fsub (R142) -/
def execFsub (f : RF) (s : State) : Result := lane2 f (fsubOp (roundModeOf f.rnd)) s

/-- fsub with IMM (R131, R142) -/
def execFsubI (f : IF) (s : State) : Result := laneI f (fsubOp .rne) s

/-- fmul (R142) -/
def execFmul (f : RF) (s : State) : Result := lane2 f (fmulOp (roundModeOf f.rnd)) s

/-- fmul with IMM (R131, R142) -/
def execFmulI (f : IF) (s : State) : Result := laneI f (fmulOp .rne) s

/-- ffma (R142) -/
def execFfma (f : RF) (s : State) : Result := lane3 f (ffmaOp (roundModeOf f.rnd)) s

/-- fmin (R142) -/
def execFmin (f : RF) (s : State) : Result := lane2 f (pickOp false) s

/-- fmin with IMM (R131, R142) -/
def execFminI (f : IF) (s : State) : Result := laneI f (pickOp false) s

/-- fmax (R142) -/
def execFmax (f : RF) (s : State) : Result := lane2 f (pickOp true) s

/-- fmax with IMM (R131, R142) -/
def execFmaxI (f : IF) (s : State) : Result := laneI f (pickOp true) s

/-- fabs (R142) -/
def execFabs (f : RF) (s : State) : Result := lane1 f fabsOp s

/-- fneg (R142) -/
def execFneg (f : RF) (s : State) : Result := lane1 f fnegOp s

/-- fcmp (R143) -/
def execFcmp (f : RF) (s : State) : Result := laneCompare f (fcmpOp f.cmp) s

/-- fcmp with IMM: .eq to a predicate (R131, R143) -/
def execFcmpI (f : IF) (s : State) : Result := laneCompareI f (fcmpOp 0) s

/-- fclass (R143) -/
def execFclass (f : RF) (s : State) : Result := lane1 f (fclassOp f.type) s

/-- frnd (R144) -/
def execFrnd (f : RF) (s : State) : Result := lane1 f (frndOp (roundModeOf f.rnd)) s

/-- fscale (R144) -/
def execFscale (f : RF) (s : State) : Result := lane2 f (fscaleOp (roundModeOf f.rnd)) s

/-- rcpe (R145) -/
def execRcpe (f : RF) (s : State) : Result := lane1 f rcpeOp s

/-- rsqrte (R145) -/
def execRsqrte (f : RF) (s : State) : Result := lane1 f rsqrteOp s

/-- fsqrt (R142) -/
def execFsqrt (f : RF) (s : State) : Result := lane1 f (fsqrtOp (roundModeOf f.rnd)) s

/-- exp2e (R145) -/
def execExp2e (f : RF) (s : State) : Result := lane1 f exp2eOp s

/-- log2e (R145) -/
def execLog2e (f : RF) (s : State) : Result := lane1 f log2eOp s

/-- hadd2 (R146) -/
def execHadd2 (f : RF) (s : State) : Result := lanePacked f false fp16 (add2 (roundModeOf f.rnd)) s

/-- hmul2 (R146) -/
def execHmul2 (f : RF) (s : State) : Result := lanePacked f false fp16 mul2 s

/-- hfma2 (R146) -/
def execHfma2 (f : RF) (s : State) : Result := lanePacked f true fp16 (fmaNum (roundModeOf f.rnd)) s

/-- bfadd2 (R146) -/
def execBfadd2 (f : RF) (s : State) : Result := lanePacked f false bf16 (add2 (roundModeOf f.rnd)) s

/-- bfmul2 (R146) -/
def execBfmul2 (f : RF) (s : State) : Result := lanePacked f false bf16 mul2 s

/-- bffma2 (R146) -/
def execBffma2 (f : RF) (s : State) : Result := lanePacked f true bf16 (fmaNum (roundModeOf f.rnd)) s

/-! Family C -/

/-- cvt (R147, R148) -/
def execCvt (f : CvtF) (s : State) : Result :=
  runLane { guard := f.g, srcs := [.one f.a f.bta], dsts := [.one f.d] } (fun _ _ _ _ vs =>
    let r := cvtOp (elemType f.type) (elemType f.stype) f.sat f.un f.sun (roundModeOf f.rnd) (arg vs 0)
    { writeDst f.d r.1 with anomaly := r.2 }) s

/-- pk (R149) -/
def execPk (f : RF) (s : State) : Result :=
  runLane { guard := f.g, srcs := [srcA f, srcB f], dsts := [.one f.d] } (fun _ _ _ x vs =>
    let r := pkOp (elemType f.type) f.sat f.un (roundModeOf f.rnd) (oldD x f.d) (arg vs 0) (arg vs 1)
    { writeDst f.d r.1 with anomaly := r.2 }) s

/-- upk (R150) -/
def execUpk (f : RF) (s : State) : Result := lane2 f (upkOp (elemType f.type) f.un) s

/-- alnb (R151) -/
def execAlnb (f : RF) (s : State) : Result :=
  if f.var = 1 then lane1 f (alnbExpOp f.type) s else lane2 f (alnbQOp f.type) s

/-! Family D -/

/-- mov (R125) -/
def execMov (f : RF) (s : State) : Result :=
  if f.var = 1 then
    runLane { guard := f.g, srcs := [.pair f.a f.bta], dsts := [.pair f.d] } (fun _ _ _ _ vs => writePair f.d (arg64 vs 0)) s
  else lane1 f (fun a => a) s

/-- movi (R125) -/
def execMovi (f : IF) (s : State) : Result :=
  runLane { guard := f.g, dsts := [.one f.d] } (fun _ _ _ _ _ => writeDst f.d f.imm) s

/-- movh (R125) -/
def execMovh (f : IF) (s : State) : Result :=
  runLane { guard := f.g, srcs := [.one f.a false], dsts := [.pair f.d] } (fun _ _ _ _ vs => writePair f.d (f.imm ++ arg vs 0)) s

/-- movc (R123, R125) -/
def execMovc (f : RF) (s : State) : Result :=
  if f.var = 1 then
    runLane { guard := f.g, srcs := [srcA f], dsts := [.pair f.d] } (fun _ _ m _ vs =>
      let i := 2 * ((arg vs 0).toNat % 8)
      writePair f.d (m.consts.getD (i + 1) 0 ++ m.consts.getD i 0)) s
  else
    runLane { guard := f.g, srcs := [srcA f], dsts := [.one f.d] } (fun _ _ m _ vs =>
      writeDst f.d (m.consts.getD ((arg vs 0).toNat % 16) 0)) s

/-- SPECIAL(sel) (R126). -/
def special (s : State) (t : ThreadId) (m : Team) (x : Thread) (sel : Nat) : DWord :=
  match sel with
  | 0 => BitVec.ofNat 64 t.t
  | 1 => BitVec.ofNat 64 m.size
  | 2 => BitVec.ofNat 64 m.x
  | 3 => BitVec.ofNat 64 m.y
  | 4 => BitVec.ofNat 64 m.z
  | 5 => BitVec.ofNat 64 ((m.roleOf t.t).map Role.kind |>.getD 0)
  | 6 => BitVec.ofNat 64 m.core.source
  | 7 => BitVec.ofNat 64 x.depth
  | 8 => BitVec.ofNat 64 (s.dtimeAt m.core)
  | 9 => (s.core m.core).ltime.zeroExtend 64
  | _ => BitVec.ofNat 64 m.lid

/-- movs (R125, R126) -/
def execMovs (f : RF) (s : State) : Result :=
  let sel := f.a.toNat % 16
  if f.var = 1 then runLane { guard := f.g, dsts := [.pair f.d] } (fun s t m x _ => writePair f.d (special s t m x sel)) s
  else runLane { guard := f.g, dsts := [.one f.d] } (fun s t m x _ => writeDst f.d ((special s t m x sel).truncate 32)) s

/-- A logical operation on predicates (R128). -/
def lanePred (f : RF) (op : Bool → Bool → Bool) : State → Result :=
  runLane { guard := f.g } fun _ _ _ x _ => writePred f.d (op (x.select f.a) (x.select f.b))

/-- pand (R128) -/
def execPand (f : RF) (s : State) : Result := lanePred f (fun a b => a && b) s

/-- por (R128) -/
def execPor (f : RF) (s : State) : Result := lanePred f (fun a b => a || b) s

/-- pxor (R128) -/
def execPxor (f : RF) (s : State) : Result := lanePred f (fun a b => a != b) s

/-- pnot (R128) -/
def execPnot (f : RF) (s : State) : Result :=
  runLane { guard := f.g } (fun _ _ _ x _ => writePred f.d (!x.select f.a)) s

/-- pmov: .in, .out, .getall, .setall (R128) -/
def execPmov (f : RF) (s : State) : Result :=
  match f.var.toNat with
  | 0 => runLane { guard := f.g, srcs := [srcA f] } (fun _ _ _ _ vs => writePred f.d (arg vs 0 != 0)) s
  | 1 => runLane { guard := f.g, dsts := [.one f.d] } (fun _ _ _ x _ => writeDst f.d (if x.select f.a then 1 else 0)) s
  | 2 => runLane { guard := f.g, dsts := [.one f.d] } (fun _ _ _ x _ =>
      writeDst f.d (BitVec.ofNat 32 (maskOf ((List.range 8).filter x.pred)))) s
  | _ => runLane { guard := f.g, srcs := [srcA f] } (fun _ _ _ _ vs =>
      { preds := (List.range 7).map fun k => (k + 1, (arg vs 0).getLsbD (k + 1)) }) s

end Sys2Proof.Machine
end

