-- ==== Sys2Proof/Machine/Sync.lean ====
section
/-! DEFINITION. Barrier objects and dataflow channels (R286 to R309): arrivals, flips, links, registrations, sends, receives and landings, and the instructions of the chapter. -/

namespace Sys2Proof.Machine

/-! Messages -/

/-- The fabric device number of this device (R288). -/
def State.deviceNumber (s : State) : Nat := s.devnum.toNat % 65536

/-- A message put on its way within the package. -/
def State.send (s : State) (m : Msg) : State := { s.bump with msgs := Table.put s.msgs s.newId m }
/-- Whether a port is up and enabled (R19, R396). -/
def State.portUp (s : State) : Bool := s.ports.any fun e => e.2.getLsbD e.1
/-- What the security core answers, which needs no device number (R397). -/
def Out.ofManagement : Out → Bool
  | .attestation _ => true
  | .rejected => true
  | .ack conn _ => conn % 4 == 3
  | _ => false
/-- Whether Vetch can send something now: a port is up, and the device has its number unless it is an answer to a management message (R19, R396). -/
def State.sends (s : State) (o : Out) : Bool := s.portUp && (o.ofManagement || s.deviceNumber != 0)
/-- Something sent to a party outside, through the ports of Vetch; until it can be sent it waits (R19, R396, R397). -/
def State.emit (s : State) (o : Out) : State :=
  if s.sends o then { s with outbox := s.outbox ++ [o] } else { s with unsent := s.unsent ++ [o] }
/-- What waited and can be sent now (R19, R396). -/
def State.flush (s : State) : State :=
  { s with outbox := s.outbox ++ s.unsent.filter s.sends, unsent := s.unsent.filter fun o => !s.sends o }

/-- A message to the core of a handle: over the fabric when it is on another device (R295). -/
def State.sendTo (s : State) (h : Handle) (m : Msg) (o : Out) : State :=
  if h.dev = s.deviceNumber then s.send m else s.emit o

/-- The two ends of a barrier message: the object that sends it and the object that it is for. -/
def Msg.ends : Msg → Option (Handle × Handle)
  | .link p c => some (c, p)
  | .unlink p c => some (c, p)
  | .arrival p c _ => some (c, p)
  | .flip c p _ => some (p, c)
  | .linkReply c p _ => some (p, c)
  | .broken c p => some (p, c)
  | _ => none

/-- The object that a barrier message is for. -/
def Msg.object (m : Msg) : Option Handle := m.ends.map Prod.snd

/-- The class of a message in flight: barrier messages within the package and channel slots are sync, what crosses the fabric is fabric (R313). Messages of the request, reply and engine classes are no objects of the state: accesses and commands take their places in S on their own (R315). -/
def State.classOf (s : State) (m : Msg) : MsgClass :=
  match m with
  | .slot .. => .sync
  | m => match m.ends with
    | some (a, b) => if a.dev = s.deviceNumber ∧ b.dev = s.deviceNumber then .sync else .fabric
    | none => .fabric

/-- The agent that an object is at (R312). -/
def State.agentOf (s : State) (h : Handle) : Agent := if h.dev = s.deviceNumber then .core h.core else .device h.dev

/-- The team identifier that a reply token names (R345). -/
def tokenTeam (t : DWord) : Nat := t.toNat / 2 ^ 8 % 2 ^ 24

/-- The queue that a message in flight stands in: its class, source agent and destination agent (R314, R320); between devices the pair of devices (R256, R295); of a reply the core of its team, or Vetch while that is saved (R345). None for what Vetch orders itself: invocations, and the messages of a connection (R343, R397). -/
def State.pathOf (s : State) (m : Msg) : Option (MsgClass × Agent × Agent) :=
  match m with
  | .slot _ _ _ _ a b => some (.sync, .core a, .core b)
  | .reply src token .. => some (.fabric, src, ((s.team (tokenTeam token)).map fun m => Agent.core m.core).getD .vetch)
  | m => m.ends.map fun e =>
    match s.classOf m with
    | .sync => (.sync, s.agentOf e.1, s.agentOf e.2)
    | k => (k, .device e.1.dev, .device e.2.dev)

/-! Barrier objects -/

/-- The resident team that a physical object of a core is allotted to, with its number (R286). -/
def State.objectOwner (s : State) (c : CoreId) (o : Nat) : Option (Nat × Team) :=
  s.teams.find? fun e => decide (e.2.core = c ∧ e.2.barBase ≤ o ∧ o < e.2.barBase + e.2.nbar)

/-- The handle of an object of this device (R288). -/
def State.handleOf (s : State) (c : CoreId) (o : Nat) : Handle := ⟨s.deviceNumber, c, o⟩

/-- A handle as a 64-bit value (R288). -/
def Handle.bits (h : Handle) : DWord := BitVec.ofNat 64 (h.dev * 2 ^ 32 + h.core.source * 2 ^ 8 + h.obj)

/-- The handle that a 64-bit value names; none where a field that must be 0 is not, or SRC is no Sorrel core (R288, R294). -/
def handleOfBits (v : DWord) : Option Handle :=
  let c := coreOfSource (v.toNat / 256 % 4096)
  if v.toNat / 2 ^ 48 ≠ 0 ∨ v.toNat / 2 ^ 20 % 4096 ≠ 0 ∨ !c.isSorrel then none
  else some ⟨v.toNat / 2 ^ 32 % 65536, c, v.toNat % 256⟩

/-- An object is idle (R287). -/
def Barrier.idle (b : Barrier) : Bool := b.cnt == 0 && !b.waitp && b.wreg == 0 && b.unobs == 0 && b.drops == 0
/-- refused(o) (R290); an object with a broken link refuses nothing (R296). -/
def Barrier.refused (b : Barrier) : Bool := !b.broken && (decide (0 < b.unobs) || b.waitp)

/-- RG of a thread for object `k` of its team (R287). -/
def Thread.regOf (x : Thread) (k : Nat) : Option Registration := Table.find x.regd k
def Thread.setReg (x : Thread) (k : Nat) (r : Option Registration) : Thread :=
  { x with regd := match r with | some v => Table.put x.regd k v | none => Table.drop x.regd k }

/-- flip(o): the phase ends, armed threads become flipped, the children are told (R290, R293). -/
def State.flip (s : State) (c : CoreId) (o : Nat) : State :=
  let b := s.barrier c o
  let s := match s.objectOwner c o with
    | some (n, m) =>
      let k := o - m.barBase
      { s with threads := s.threads.map fun (e : ThreadId × Thread) =>
          if e.1.team = n ∧ e.2.regOf k = some Registration.armed then (e.1, e.2.setReg k (some .flipped)) else e }
    | none => s
  let s := s.setBarrier c o { b with
    ph := !b.ph, cnt := 0, waitp := false, unobs := b.wreg, wreg := 0
    exp := b.exp - b.drops, drops := 0
    child := b.child.filter fun h => !b.dropped.contains h, dropped := [] }
  b.child.foldl (fun (s : State) h =>
    let own := s.handleOf c o
    s.sendTo h (.flip h own (b.dropped.contains h)) (.flip h own (b.dropped.contains h))) s

/-- complete(o): a root flips; a linked object waits for its parent, and its arrival carries a drop when its EXP - DROPS is 0 (R290, R293). -/
def State.completePhase (s : State) (c : CoreId) (o : Nat) : State :=
  let b := s.barrier c o
  match b.parent with
  | none => s.flip c o
  | some p =>
    let h := s.handleOf c o
    let drop := decide (b.exp - b.drops = 0)
    (s.setBarrier c o { b with waitp := true }).sendTo p (.arrival p h drop) (.arrival p h drop)

/-- accept(o, n): the arrival counted, which may complete the phase (R290). -/
def State.countArrival (s : State) (c : CoreId) (o n : Nat) : State :=
  let b := s.barrier c o
  let s := s.setBarrier c o { b with cnt := b.cnt + n }
  if b.cnt + n = b.exp then s.completePhase c o else s

/-- The step point of a thread whose team runs a step (R389). -/
def State.reachStep (s : State) (t : ThreadId) : State :=
  s.alterTeam t.team fun m => match m.stepMode with
    | .running l r => { m with stepMode := .running l (NatSet.add r t.t) }
    | _ => m

/-- The arrival of a thread accepted: it arms, drops, and receives the count before it (R291, R293, R301). -/
def State.acceptThread (s : State) (c : CoreId) (o k : Nat) (t : ThreadId) (n : Nat) (arm drop : Bool) (dest : Option Nat) : State :=
  let b := s.barrier c o
  let s := if arm then
      (s.alterThread t fun x => x.setReg k (some .armed)).setBarrier c o { b with wreg := b.wreg + 1 }
    else s
  let s := if drop then s.setBarrier c o { s.barrier c o with drops := b.drops + 1 } else s
  let s := match dest with
    | some w => s.fillWords t [(w, BitVec.ofNat 32 b.cnt)]
    | none => s
  (s.reachStep t).countArrival c o n

/-- A cause raised in a thread at the instruction that its group executes. -/
def State.trapThread (s : State) (t : ThreadId) (cause : Cause) (aux : List DWord) : State :=
  match (s.thread t).map Thread.status with
  | some (.member n) =>
    match s.group n with
    | some g => (s.trapIn g t.t cause aux).passOn n
    | none => s
  | _ => s

/-- Arrivals that waited are taken in order, as long as the object does not refuse (R290, R292). `fuel` bounds their number. -/
def State.acceptWaiting (c : CoreId) (o : Nat) : Nat → State → State
  | 0, s => s
  | fuel + 1, s =>
    let b := s.barrier c o
    match b.queue with
    | [] => s
    | a :: rest =>
      if b.refused then s
      else
        let s := s.setBarrier c o { b with queue := rest }
        let base := ((s.objectOwner c o).map fun e => e.2.barBase).getD 0
        let s := match a with
          | .child h drop =>
            if b.broken then s
            else
              let s := if drop then
                  s.setBarrier c o { s.barrier c o with drops := b.drops + 1, dropped := h :: b.dropped }
                else s
              s.countArrival c o 1
          | .thread t n arm drop dest pop =>
            if b.broken then s.trapThread t 0x14B []
            else if b.exp < b.cnt + n then s.trapThread t 0x147 []
            else (((s.popQueues t pop.toList).acceptThread c o (o - base) t n arm drop dest).progress t).finish t
        State.acceptWaiting c o fuel s

/-- The object after something that may end its refusal. -/
def State.settleBarrier (s : State) (c : CoreId) (o : Nat) : State :=
  State.acceptWaiting c o ((s.barrier c o).queue.length) s

/-- A thread observes the flip of object `k` of its team: RG none, UNOBS less 1, and what every arriver did is before what it does (R291, R297). -/
def State.observe (s : State) (t : ThreadId) (k : Nat) : State :=
  match s.teamOf t with
  | none => s
  | some m =>
    let o := m.barBase + k
    let b := s.barrier m.core o
    let s := (s.alterThread t fun x => x.setReg k none).setBarrier m.core o { b with unobs := b.unobs - 1 }
    (s.acquire t).settleBarrier m.core o

/-- The registration of a thread withdrawn, at an exit or a bardrop (R296, R303). -/
def State.withdraw (s : State) (t : ThreadId) (k : Nat) : State :=
  match s.thread t, s.teamOf t with
  | some x, some m =>
    let o := m.barBase + k
    let b := s.barrier m.core o
    let s := s.alterThread t fun x => x.setReg k none
    match x.regOf k with
    | some .armed => s.setBarrier m.core o { b with wreg := b.wreg - 1 }
    | some .flipped => (s.setBarrier m.core o { b with unobs := b.unobs - 1 }).settleBarrier m.core o
    | none => s
  | _, _ => s

/-- Every registration of an exiting thread withdrawn (R296). -/
def State.withdrawAll (s : State) (t : ThreadId) : State :=
  match s.thread t with
  | some x => (Table.keys x.regd).foldl (fun (s : State) k => s.withdraw t k) s
  | none => s

/-- The link of a child broken: its held waiters raise 0x14B at once, and what waits to arrive is accepted no more (R296). -/
def State.breakBarrier (s : State) (c : CoreId) (o : Nat) : State :=
  let b := s.barrier c o
  let s := s.setBarrier c o { b with broken := true, sleepers := [] }
  (b.sleepers.foldl (fun (s : State) t => s.trapThread t 0x14B []) s).settleBarrier c o

/-- The checks that every barrier instruction but barinit makes of its object first: the allotment, then a broken link (R286, R296). The body receives the core, the physical object, its number in the team and its state. -/
def withBarrier (n : Nat) (initial : Bool) (body : State → ThreadId → CoreId → Nat → Barrier → List DWord → Attempt) :
    State → ThreadId → List DWord → Attempt :=
  fun s t vs =>
    match s.teamOf t with
    | none => .done s
    | some m =>
      if m.nbar ≤ n then .trap 0x145 [] s
      else
        let o := m.barBase + n
        let b := s.barrier m.core o
        if b.broken && !initial then .trap 0x14B [] s else body s t m.core o b vs

/-- An object that a barinit names: with a broken link it is cleared of that link, before anything else (R296). -/
def Barrier.mended (b : Barrier) : Barrier := if b.broken then { b with broken := false, parent := none, child := [] } else b

/-- barinit (R296, R300) -/
def execBarinit (f : SyncF) (s : State) : Result :=
  runGroup s { guard := f.g, srcs := [.one f.a f.bta], dsts := [.pair f.d] }
    (withBarrier f.n.toNat true fun s t c o b vs =>
      let count := (arg vs 0).toNat
      let s := if b.broken then s.setBarrier c o b.mended else s
      let b := b.mended
      if count = 0 ∨ 65535 < count then .trap 0x147 [] s
      else if !b.idle then .trap 0x146 [] s
      else
        let s := s.setBarrier c o { b with exp := count, cnt := 0, ph := false, waitp := false, wreg := 0, unobs := 0, drops := 0, dropped := [] }
        let h := (s.handleOf c o).bits
        .done (if f.d.toNat < 0x40 then s.writeRegs t (writePair f.d h).regs else s))

/-- barlink (R294): the thread is held until the parent answers; no parent removes the link. -/
def execBarlink (f : SyncF) (s : State) : Result :=
  runGroup s { guard := f.g, srcs := [.pair f.a f.bta] }
    (withBarrier f.n.toNat false fun s t c o b vs =>
      let v := arg64 vs 0
      let own := s.handleOf c o
      if !b.idle then .trap 0x146 [] s
      else if v = 0xFFFFFFFFFFFFFFFF then
        let s := s.setBarrier c o { b with parent := none }
        .done (match b.parent with
          | some p => s.sendTo p (.unlink p own) (.unlink p own)
          | none => s)
      else
        match handleOfBits v with
        | none => .trap 0x14A [] s
        | some p =>
          if p = own then .trap 0x14A [] s
          else .engage ((s.setBarrier c o { b with linking := b.linking ++ [(p, t)] }).sendTo p (.link p own) (.link p own)))

/-- The steps 3 to 5 of R301 after an observation: the arrival is refused, and waits with the queue that its source pops, or exceeds EXP, or is accepted. -/
def arrive (t : ThreadId) (c : CoreId) (o k n : Nat) (arm drop : Bool) (dest pop : Option Nat) (s : State) : Attempt :=
  let b := s.barrier c o
  if b.refused then
    .park (s.setBarrier c o { b with queue := b.queue ++ [.thread t n arm drop dest pop] })
  else if b.exp < b.cnt + n then .trap 0x147 [] s
  else .done (s.acceptThread c o k t n arm drop dest)

/-- The stack word of a destination register. -/
def Thread.destWord (x : Thread) (d : Byte) : Option Nat := if d.toNat < 0x40 then some (x.word d.toNat) else none

/-- bararr (R301) -/
def execBararr (f : SyncF) (s : State) : Result :=
  runGroup s { guard := f.g, srcs := [.one f.a f.bta], dsts := [.one f.d] }
    (withBarrier f.n.toNat false fun s t c o b vs =>
      match s.thread t with
      | none => .done s
      | some x =>
        let n := (arg vs 0).toNat
        let k := f.n.toNat
        let arm := f.var = 0
        if b.exp = 0 ∨ n = 0 then .trap 0x147 [] s
        else if arm ∧ x.regOf k = some Registration.armed then .trap 0x149 [] s
        else
          let s := if x.regOf k = some Registration.flipped then s.observe t k else s
          arrive t c o k n arm false (x.destWord f.d) (Src.pops (.one f.a f.bta)) s)

/-- bartry (R301): a refused arrival writes false and has no further effect. -/
def execBartry (f : SyncF) (s : State) : Result :=
  runGroup s { guard := f.g, srcs := [.one f.a f.bta] }
    (withBarrier f.n.toNat false fun s t c o b vs =>
      match s.thread t with
      | none => .done s
      | some x =>
        let n := (arg vs 0).toNat
        let k := f.n.toNat
        let arm := f.var = 0
        let put (v : Bool) (s : State) : State := s.alterThread t fun x => x.setPred (f.d.toNat % 8) v
        if b.exp = 0 ∨ n = 0 then .trap 0x147 [] s
        else if arm ∧ x.regOf k = some Registration.armed then .trap 0x149 [] s
        else
          let s := if x.regOf k = some Registration.flipped then s.observe t k else s
          let b := s.barrier c o
          if b.refused then .done (put false s)
          else if b.exp < b.cnt + n then .trap 0x147 [] s
          else .done (put true (s.acceptThread c o k t n arm false none)))

/-- barwait (R302) -/
def execBarwait (f : SyncF) (s : State) : Result :=
  runGroup s { guard := f.g }
    (withBarrier f.n.toNat false fun s t c o b _ =>
      match (s.thread t).bind fun x => x.regOf f.n.toNat with
      | none => .trap 0x148 [] s
      | some .flipped => .done (s.observe t f.n.toNat)
      | some .armed => .park (s.setBarrier c o { b with sleepers := b.sleepers ++ [t] }))

/-- bartest (R302) -/
def execBartest (f : SyncF) (s : State) : Result :=
  runGroup s { guard := f.g }
    (withBarrier f.n.toNat false fun s t _ _ _ _ =>
      let put (v : Bool) (s : State) : State := s.alterThread t fun x => x.setPred (f.d.toNat % 8) v
      match (s.thread t).bind fun x => x.regOf f.n.toNat with
      | none => .trap 0x148 [] s
      | some .flipped => .done (put true (s.observe t f.n.toNat))
      | some .armed => .done (put false s))

/-- bardrop (R293, R303). Under 0x147 the observation of a flip stands, as R301 has it for bararr and bartry, and the withdrawal of an armed thread has no effect (R310; DESIGN CHOICE, log 16). -/
def execBardrop (f : SyncF) (s : State) : Result :=
  runGroup s { guard := f.g }
    (withBarrier f.n.toNat false fun s t c o b _ =>
      match s.thread t with
      | none => .done s
      | some x =>
        let k := f.n.toNat
        match x.regOf k with
        | some .flipped => arrive t c o k 1 false true none none (s.observe t k)
        | some .armed =>
          if !b.refused ∧ b.exp < b.cnt + 1 then .trap 0x147 [] s
          else arrive t c o k 1 false true none none (s.withdraw t k)
        | none => arrive t c o k 1 false true none none s)

/-! Messages of barriers -/

/-- A message taken out of those in flight. -/
def State.take (s : State) (n : Nat) : State := { s with msgs := Table.drop s.msgs n }

/-- The number in a saved team of an object it was saved with, if it was. -/
def Image.objectOf (i : Image) (h : Handle) : Option Nat :=
  if i.team.core = h.core ∧ i.team.barBase ≤ h.obj ∧ h.obj < i.team.barBase + i.team.nbar then some (h.obj - i.team.barBase) else none

/-- Whether an object is linked to another, as parent or child. -/
def Barrier.knows (b : Barrier) (h : Handle) : Bool := b.parent == some h || b.child.contains h

/-- The saved team that holds an object, where a message from a peer is kept until its restore: no resident team has the object, or the saved one is linked to the peer (R298). -/
def State.savedOwner (s : State) (h peer : Handle) : Option Nat :=
  (s.images.find? fun e => match e.2.objectOf h with
    | some k => (s.objectOwner h.core h.obj).isNone || (Table.findD e.2.barriers k Barrier.init).knows peer
    | none => false).map Prod.fst

/-- A message for an object whose team is saved, kept with it (R298). -/
def State.keepFor (s : State) (n : Nat) (m : Msg) : State :=
  { s with images := Table.alter s.images n fun i => { i with kept := i.kept ++ [m] } }

/-- Whether a die can be reached: it is not under warm reset (R295). -/
def State.reachable (s : State) (c : CoreId) : Bool := !(s.die c.die).out

/-- The parent's answer to a link at the child: PARENT is set, or 0x14A is raised, in the first thread that asked for that parent (R294). -/
def State.takeAnswer (s : State) (child parent : Handle) (ok : Bool) : State :=
  let b := s.barrier child.core child.obj
  match b.linking.find? fun e => e.1 == parent with
  | none => s
  | some e =>
    let s := s.setBarrier child.core child.obj
      { b with linking := b.linking.erase e, parent := if ok then some parent else b.parent }
    if ok then s.finish e.2 else s.trapThread e.2 0x14A []

/-- A link request at the parent: its object allotted to a resident team and fewer than 16 children. The answer is a message to the child, behind what the parent has sent it before (R294, R314). A child that CHILD holds already gets a second entry, which counts towards the 16 and gets a flip of its own (DESIGN CHOICE, log 16). -/
def State.applyLink (s : State) (parent child : Handle) : State :=
  let b := s.barrier parent.core parent.obj
  let ok := (s.objectOwner parent.core parent.obj).isSome && decide (b.child.length < 16)
  let s := if ok then s.setBarrier parent.core parent.obj { b with child := b.child ++ [child] } else s
  s.sendTo child (.linkReply child parent ok) (.linkReply child parent ok)

/-- An arrival of a child applied at its parent: it waits in order while the parent refuses (R290). -/
def State.applyArrival (s : State) (p c : Handle) (drop : Bool) : State :=
  let b := s.barrier p.core p.obj
  if b.broken then s
  else (s.setBarrier p.core p.obj { b with queue := b.queue ++ [.child c drop] }).settleBarrier p.core p.obj

/-- A flip applied at a child (R290, R293). -/
def State.applyFlip (s : State) (c : Handle) (last : Bool) : State :=
  let s := s.flip c.core c.obj
  let s := if last then s.setBarrier c.core c.obj { s.barrier c.core c.obj with parent := none } else s
  s.settleBarrier c.core c.obj

/-- A barrier message applied at its object. An arrival of an object that is not among the children, and a flip or a break from one that is not the parent, are left over from a link that has ended and do nothing (R296; DEDUCED, log 16). -/
def State.applyBarrierMsg (s : State) (m : Msg) : State :=
  match m with
  | .link p c => s.applyLink p c
  | .unlink p c =>
    let b := s.barrier p.core p.obj
    if b.child.contains c then s.setBarrier p.core p.obj { b with child := b.child.filter (· ≠ c) } else s
  | .linkReply c p ok => s.takeAnswer c p ok
  | .broken c p => if (s.barrier c.core c.obj).parent = some p then s.breakBarrier c.core c.obj else s
  | .arrival p c drop => if (s.barrier p.core p.obj).child.contains c then s.applyArrival p c drop else s
  | .flip c p last => if (s.barrier c.core c.obj).parent = some p then s.applyFlip c last else s
  | _ => s

/-- The resident team at a position of a cluster. -/
def State.clusterTeam (s : State) (lid cluster pos : Nat) : Option (Nat × Team) :=
  s.teams.find? fun e => decide (e.2.lid = lid ∧ e.2.cluster = cluster ∧ e.2.pos = pos)

/-- Whether a message that has come to its target waits there: the target's die is under warm reset, its team stops, or the receiver of a slot is saved (R295, R308, R379). -/
def State.waitsAtTarget (s : State) (m : Msg) : Bool :=
  match m with
  | .slot lid cluster ch _ _ _ =>
    match Table.find s.channels (lid, cluster, ch) with
    | none => false
    | some h => match s.clusterTeam lid cluster h.dst with
      | some e => e.2.frozen
      | none => !h.dstGone
  | m => match m.object with
    | some h => h.dev == s.deviceNumber && (!s.reachable h.core || (s.objectOwner h.core h.obj).any fun e => e.2.frozen)
    | none => false

/-- Whether a message is the next of its queue: every older one of the same class, source and destination has been applied, or waits at its target (R314). -/
def State.firstInLine (s : State) (n : Nat) (m : Msg) : Bool :=
  s.msgs.all fun e => decide (n ≤ e.1 ∨ s.pathOf e.2 ≠ s.pathOf m) || s.waitsAtTarget e.2

/-- A barrier message delivered in its turn: kept for a saved team, otherwise applied; a register that an accepted arrival writes counts in the clk (R156, R290, R294, R298, R314). -/
def State.deliverBarrier (s : State) (n : Nat) (m : Msg) : State :=
  match m.ends with
  | none => s
  | some (peer, h) =>
    if s.waitsAtTarget m || !s.firstInLine n m then s
    else match s.savedOwner h peer with
      | some i => (s.take n).keepFor i m
      | none => s.orLater ((s.take n).applyBarrierMsg m)

/-- BARRIER_LINK_MESSAGE: a link, an unlink, or what another device answers or breaks (R294, R296) -/
def execBarrierLinkMessage (n : Nat) (s : State) : Result :=
  match Table.find s.msgs n with
  | some (.link p c) => .next (s.deliverBarrier n (.link p c))
  | some (.unlink p c) => .next (s.deliverBarrier n (.unlink p c))
  | some (.linkReply c p ok) => .next (s.deliverBarrier n (.linkReply c p ok))
  | some (.broken c p) => .next (s.deliverBarrier n (.broken c p))
  | _ => .next s

/-- BARRIER_ARRIVAL_MESSAGE (R290) -/
def execBarrierArrivalMessage (n : Nat) (s : State) : Result :=
  match Table.find s.msgs n with
  | some (.arrival p c d) => .next (s.deliverBarrier n (.arrival p c d))
  | _ => .next s

/-- BARRIER_FLIP_MESSAGE (R290) -/
def execBarrierFlipMessage (n : Nat) (s : State) : Result :=
  match Table.find s.msgs n with
  | some (.flip c p l) => .next (s.deliverBarrier n (.flip c p l))
  | _ => .next s

/-- BARRIER_WAITER_WAKE: the threads held in barwait on an object whose flip has come observe it and go on (R295, R302) -/
def execBarrierWaiterWake (c : CoreId) (o : Nat) (s : State) : Result :=
  match s.objectOwner c o with
  | none => .next s
  | some (_, m) =>
    let k := o - m.barBase
    let b := s.barrier c o
    let up := b.sleepers.filter fun t => ((s.thread t).bind fun x => x.regOf k) = some Registration.flipped
    let u := s.setBarrier c o { b with sleepers := b.sleepers.filter fun t => !up.contains t }
    .next (s.orLater (up.foldl (fun (s : State) t => ((s.observe t k).progress t).finish t) u))

/-! Channels -/

/-- The key of channel `c` of a team's cluster. -/
def Team.channelKey (m : Team) (c : Nat) : Nat × Nat × Nat := (m.lid, m.cluster, c)

def State.alterChannel (s : State) (k : Nat × Nat × Nat) (f : Channel → Channel) : State :=
  { s with channels := Table.alter s.channels k f }

/-- Whether the receiver of a channel accepts a send now: a free slot, its team resident, and its ring's array neither in compute mode nor asked to be (R305, R306, R308). -/
def State.acceptsSend (s : State) (m : Team) (h : Channel) : Bool :=
  match s.clusterTeam m.lid m.cluster h.dst with
  | some e =>
    let x := s.array e.2.core (fieldArrayOf h.ring)
    decide (0 < h.free) && !x.compute && x.requests.all fun r => !r.compute
  | none => false

/-- The checks of a channel instruction: declared, its own end (R307). -/
def withChannel (c : Nat) (send : Bool) (body : State → ThreadId → Team → Channel → Attempt) :
    State → ThreadId → List DWord → Attempt :=
  fun s t _ =>
    match s.teamOf t with
    | none => .done s
    | some m =>
      match Table.find s.channels (m.channelKey c) with
      | none => .trap 0x14C [] s
      | some h => if (if send then h.src else h.dst) = m.pos then body s t m h else .trap 0x14D [] s

/-- The core of the receiver of a channel of a team's cluster, while it is resident. -/
def State.receiverCore (s : State) (m : Team) (h : Channel) : Option CoreId := (s.clusterTeam m.lid m.cluster h.dst).map fun e => e.2.core

/-- A send performed: SW words popped, a slot reserved in ring order, the words on their way (R305, R307). -/
def State.sendSlot (s : State) (t : ThreadId) (m : Team) (c q : Nat) (h : Channel) : State :=
  let ws := ((s.thread t).map fun x => (x.queue q).take h.sw).getD []
  let s := s.alterThread t fun x => x.setQueue q ((x.queue q).drop h.sw)
  let s := s.alterChannel (m.channelKey c) fun h =>
    { h with
      free := h.free - 1
      next := (h.next + 1) % h.ns
      slots := h.slots ++ [(h.next, ws, false)]
      senders := Table.drop h.senders t }
  s.send (.slot m.lid m.cluster c h.next m.core ((s.receiverCore m h).getD m.core))

/-- The words that the cells of a slot hold now (R306). -/
def State.slotWords (s : State) (core : CoreId) (h : Channel) (slot : Nat) : List Word :=
  let a := h.ring + 4 * h.sw * slot
  (List.range h.sw).map fun k => BitVec.ofNat 32 ((s.array core (fieldArrayOf a)).cells.num (fieldOffset a + 4 * k) 4)

/-- A receive performed: the oldest slot's words pushed, the slot freed, and what the sender did before is before what the receiver does (R305, R307, R309). -/
def State.receiveSlot (s : State) (t : ThreadId) (m : Team) (c q slot : Nat) (h : Channel) : State :=
  let ws := s.slotWords m.core h slot
  let s := s.alterThread t fun x => x.setQueue q (x.queue q ++ ws)
  let s := s.alterChannel (m.channelKey c) fun h =>
    { h with free := h.free + 1, slots := h.slots.drop 1, receivers := h.receivers.filter (· ≠ t) }
  s.acquire t

/-- Whether a thread stands first among those that wait. -/
def firstOf (l : List ThreadId) (t : ThreadId) : Bool :=
  match l with
  | [] => true
  | u :: _ => decide (u = t)

/-- Whether the sync messages from one core to another with numbers below `n` have arrived (R314). -/
def State.pathClear (s : State) (a b : CoreId) (n : Nat) : Bool :=
  s.msgs.all fun e => decide (n ≤ e.1 ∨ s.pathOf e.2 ≠ some (.sync, .core a, .core b)) || s.waitsAtTarget e.2

/-- Whether a rendezvous from one core to another can be made: the request follows what the first core sent before it, and the answer all that the second has sent (R314, R315). -/
def State.pathsClear (s : State) (a b : CoreId) (n : Nat) : Bool := s.pathClear a b n && s.pathClear b a s.fresh

/-- Whether the rendezvous of a thread's send can be made, by what is on its way between the two cores (R314). -/
def State.lineClear (s : State) (t : ThreadId) (m : Team) (h : Channel) : Bool :=
  match s.receiverCore m h with
  | some c => s.pathsClear m.core c (Table.findD h.senders t s.fresh)
  | none => true

/-- Whether a send can take effect now (R305, R307, R314). -/
def State.sendReady (s : State) (t : ThreadId) (m : Team) (q : Nat) (h : Channel) : Bool :=
  decide (h.sw ≤ ((s.thread t).map fun x => (x.queue q).length).getD 0) && s.acceptsSend m h
    && firstOf (Table.keys h.senders) t && s.lineClear t m h
/-- The slot that a receive can take now (R305, R307). -/
def State.recvReady (s : State) (t : ThreadId) (q : Nat) (h : Channel) : Option Nat :=
  match h.slots with
  | (slot, _, true) :: _ =>
    if ((s.thread t).map fun x => (x.queue q).length).getD 0 + h.sw ≤ 16 ∧ firstOf h.receivers t then some slot else none
  | _ => none

/-- The threads of a group that have still to execute a channel instruction: its executions were issued together, in the order of lanes (R305). -/
def State.restOf (s : State) (t : ThreadId) (g : Guard) : List ThreadId :=
  match s.groupOf t with
  | some x => (s.activeOf x g).map fun u => ⟨x.team, u⟩
  | none => [t]

/-- Threads put behind those whose sends wait already, with the number of the next message. -/
def joinSenders (l : Table ThreadId Nat) (more : List ThreadId) (n : Nat) : Table ThreadId Nat :=
  l ++ (more.filter fun t => (Table.find l t).isNone).map fun t => (t, n)

/-- Threads put behind those that wait already. -/
def joinLine (l more : List ThreadId) : List ThreadId := l ++ more.filter fun t => !l.contains t

/-- A queue's number from its operand byte. -/
def queueNumber (b : Byte) : Nat := b.toNat - 0x50

/-- chsend (R307, R308) -/
def execChsend (f : SyncF) (s : State) : Result :=
  runGroup s { guard := f.g } (withChannel f.n.toNat true fun s t m h =>
    let q := queueNumber f.a
    if h.dstGone then .trap 0x14E [] s
    else if s.sendReady t m q h then .done (s.sendSlot t m f.n.toNat q h)
    else .wait (.channel t f.n.toNat q true)
      (s.alterChannel (m.channelKey f.n.toNat) fun h => { h with senders := joinSenders h.senders (s.restOf t f.g) s.fresh }))

/-- Whether a receive finds the channel closed: nothing filled or on its way, and the source retired (R308). -/
def Channel.closedForRecv (h : Channel) : Bool := h.slots.isEmpty && h.srcGone

/-- chrecv (R307, R308) -/
def execChrecv (f : SyncF) (s : State) : Result :=
  runGroup s { guard := f.g } (withChannel f.n.toNat false fun s t m h =>
    let q := queueNumber f.d
    if h.closedForRecv then .trap 0x14E [] s
    else
      match s.recvReady t q h with
      | some slot => .done (s.receiveSlot t m f.n.toNat q slot h)
      | none => .wait (.channel t f.n.toNat q false)
          (s.alterChannel (m.channelKey f.n.toNat) fun h => { h with receivers := joinLine h.receivers (s.restOf t f.g) }))

/-- chtry (R307, R308): the test of a send goes to the receiver behind what its core has sent before (R314). -/
def execChtry (f : SyncF) (s : State) : Result :=
  let q := queueNumber f.a
  let put (t : ThreadId) (v : Bool) (s : State) : State := s.alterThread t fun x => x.setPred (f.d.toNat % 8) v
  if f.var = 0 then
    runGroup s { guard := f.g } (withChannel f.n.toNat true fun s t m h =>
      if h.dstGone then .trap 0x14E [] s
      else match (s.receiverCore m h).filter fun _ => !s.lineClear t m h with
        | some c => .wait (.sync m.core c s.fresh) s
        | none => if s.sendReady t m q h then .done (put t true (s.sendSlot t m f.n.toNat q h)) else .done (put t false s))
  else
    runGroup s { guard := f.g } (withChannel f.n.toNat false fun s t m h =>
      if h.closedForRecv then .trap 0x14E [] s
      else match s.recvReady t q h with
        | some slot => .done (put t true (s.receiveSlot t m f.n.toNat q slot h))
        | none => .done (put t false s))

/-- The words of a slot landed on a core: the cells written, the words full, and those who wait for them served (R306). -/
def State.landSlot (s : State) (key : Nat × Nat × Nat) (h : Channel) (core : CoreId) (slot : Nat) : State :=
  let at_ := h.ring + 4 * h.sw * slot
  let a := fieldArrayOf at_
  let ws := ((h.slots.find? fun x => x.1 == slot).map fun x => x.2.1).getD []
  let s := s.alterChannel key fun h =>
    { h with slots := h.slots.map fun x => if x.1 = slot then (x.1, x.2.1, true) else x }
  let ar := s.array core a
  let cells := ar.cells.setList (fieldOffset at_) (ws.flatMap fun w => bytesOf w 4)
  let fw := touchedWords (fieldOffset at_) (4 * h.sw)
  let s := s.keepCells core a (fieldOffset at_) (4 * h.sw)
  (s.noteWords core a ({ ar with cells := cells }.setFull fw) (fw.map fun w => (w, true))).walkArray core a

/-- CHANNEL_SLOT_LANDING: the slot's cells are written and its words become full; no place in S, no generation of the array (R306). It comes in its turn, and waits while the receiving team stops or is saved (R308, R314); a register that a waiter receives counts in the clk (R156). -/
def execChannelSlotLanding (n : Nat) (s : State) : Result :=
  match Table.find s.msgs n with
  | some (.slot lid cluster ch slot src dst) =>
    if s.waitsAtTarget (.slot lid cluster ch slot src dst) || !s.firstInLine n (.slot lid cluster ch slot src dst) then .next s
    else match Table.find s.channels (lid, cluster, ch), (Table.find s.channels (lid, cluster, ch)).bind fun h => s.clusterTeam lid cluster h.dst with
      | some h, some e => .next (s.orLater ((s.take n).landSlot (lid, cluster, ch) h e.2.core slot))
      | _, _ => .next (s.take n)
  | _ => .next s

end Sys2Proof.Machine
end

