-- ==== Sys2Proof/Machine/Control.lean ====
section
/-! DEFINITION. Fetching words (R47, R69, R370) and control transfer (family E, R92 to R99): targets, the window moves of call and ret (R111 to R115), exit, yield and nop. -/

namespace Sys2Proof.Machine

/-! Fetch -/

/-- What a fetch of one word answers: the word, its cause, or a closed range to wait for (R69, R353). -/
inductive Fetch where
  | got (f : Fetched) (s : State)
  | closed (s : State)

/-- The word that a thread sees at an address of memory as of a place of S. -/
def State.seenWord (s : State) (t : ThreadId) (p : Option Nat) (pa : Nat) : DWord :=
  wordOfBytes ((List.range 8).map fun k => s.seenByte t p (pa + k))

/-- One word fetched for a thread at an 8-byte-aligned address, as a normal load with permission X, with the address of memory and the place of S that it was read at; a cause carries the address in TAUX0 and bit 0 of TAUX1 (R69, R363, R370). REUSE is .rd2 (R227; DESIGN CHOICE, log 19). `renew` uses no copy fetched before. The place of the event is its caller's. -/
def State.fetchAt (s : State) (t : ThreadId) (va : VAddr) (renew : Bool) : Fetch × Option (Nat × Option Nat) :=
  let c := s.coreOf t
  let aux : List DWord := [va.zeroExtend 64, 1]
  match s.translate c.die (s.cnOf t) needFetch va with
  | (.ok (.hbm pa), s) =>
    match s.loadCached t va pa (.normal 2) (s.classFor t va) renew with
    | (.error cause, s) => (.got (.fail cause aux) s, none)
    | (.ok p, s) => (.got (.word (s.seenWord t p pa)) s, some (pa, p))
  | (.ok (.window _ _), s) => (.got (.fail 0x083 aux) s, none)
  | (.ok (.failed cause), s) => (.got (.fail cause aux) s, none)
  | (.cause cause, s) => (.got (.fail cause aux) s, none)
  | (.closed, s) => (.closed s, none)

/-- One word fetched for a thread. -/
def State.fetchWord (s : State) (t : ThreadId) (va : VAddr) : Fetch := (s.fetchAt t va false).1

/-- The words of a clause from an index on, those that could not be fetched fetched again; none where one lies in a closed range. `left` counts the words. -/
def State.refetchFrom (s : State) (t : ThreadId) (x : Clause) (k : Nat) : Nat → Option (Clause × State)
  | 0 => some (x, s)
  | left + 1 =>
    match x.words[k]? with
    | some (.fail _ _) =>
      match s.place.fetchWord t (x.address k) with
      | .closed _ => none
      | .got f s => s.refetchFrom t { x with words := x.words.set k f } (k + 1) left
    | _ => s.refetchFrom t x (k + 1) left

/-- A clause that a thread resumes at index k: a word from there on that could not be fetched is fetched again, since the cause of R69 has been handled (R69, R87). -/
def State.refetch (s : State) (t : ThreadId) (x : Clause) (k : Nat) : Option (Clause × State) :=
  s.refetchFrom t x k (x.words.length - k)

/-- The words of a clause that were fetched. -/
def Fetched.word? : Fetched → Option DWord
  | .word w => some w
  | .fail _ _ => none

/-- The checks of the classes and places of a clause's instructions, as far as their words have been fetched; a word that is fetched only when the clause resumes is checked then (R68; DEDUCED, log 18). -/
def Clause.late (x : Clause) : Option (Cause × Nat) := clauseCause x.table x.cls (x.words.length == 1) (x.words.map Fetched.word?) 1

/-! Targets -/

/-- What the checks of a target answer (R51, R68). -/
inductive TargetCheck where
  | ok (s : State)
  | trap (cause : Cause) (aux : List DWord) (s : State)
  | closed (s : State)

/-- The checks of a target: 0x00D, the fetch of the target word, 0x00C (R51, R68). -/
def State.checkTarget (s : State) (t : ThreadId) (va : VAddr) : TargetCheck :=
  if va.toNat % 8 ≠ 0 then .trap 0x00D [va.zeroExtend 64] s
  else match s.fetchWord t va with
    | .closed s => .closed s
    | .got (.fail c aux) s => .trap c aux s
    | .got (.word w) s => if (headerOf w).valid then .ok s else .trap 0x00C [va.zeroExtend 64] s

/-- The hold of an access to a closed page range (R353). -/
def State.closedHold (s : State) (t : ThreadId) (va : VAddr) : Hold := .closed (s.cnOf t) (va.toNat / 65536)

/-- A transfer to a checked target; `move` is what the transfer does beside it. -/
def State.transfer (s : State) (t : ThreadId) (va : VAddr) (move : State → State) : Attempt :=
  match s.checkTarget t va with
  | .ok s => .done ((move s).arrive t va)
  | .trap c aux s => .trap c aux s
  | .closed s => .wait (s.closedHold t va) s

/-- The address of the instruction that a thread's group executes. -/
def State.pcAt (s : State) (t : ThreadId) : VAddr := ((s.groupOf t).map Group.pc).getD 0
/-- NEXT for a thread's group (R95). -/
def State.nextAt (s : State) (t : ThreadId) : VAddr := ((s.groupOf t).map fun g => g.clause.next).getD 0

/-- The target of a word offset from the address of the instruction (R94). -/
def offsetTarget {n : Nat} (pc : VAddr) (wofs : BitVec n) : VAddr := pc + BitVec.ofInt 57 (8 * wofs.toInt)

/-- A 64-bit value as an address: modulo 2^57 (R95). -/
def addressOf (v : DWord) : VAddr := v.truncate 57

/-- br (R95) -/
def execBr (f : BrF) (s : State) : Result :=
  runGroup s { guard := f.g } fun s t _ => s.transfer t (offsetTarget (s.pcAt t) f.wofs) id

/-- brc (R95): the outcome enters the replay signature (R392). -/
def execBrc (f : BrcF) (s : State) : Result :=
  runGroup s { guard := f.g, srcs := [.one f.a f.bta, .one f.b f.btb] } fun s t vs =>
    let taken := icmpOp f.cmp f.un (arg vs 0) (arg vs 1)
    let sign (s : State) : State := s.alterThread t fun x => x.sign (if taken then 1 else 0)
    if taken then s.transfer t (offsetTarget (s.pcAt t) f.wofs) sign else .done (sign s)

/-- brx (R95, R392) -/
def execBrx (f : RF) (s : State) : Result :=
  runGroup s { guard := f.g, srcs := [.pair f.a f.bta] } fun s t vs =>
    let va := addressOf (arg64 vs 0)
    s.transfer t va fun s => s.alterThread t fun x => x.sign (va.zeroExtend 64)

/-! Windows -/

/-- Q, S and F of a thread's role (R113). -/
def Role.frames (r : Role) : Nat := (r.q - 8) / 56
/-- The role of a thread. -/
def State.roleOf (s : State) (t : ThreadId) : Option Role := (s.teamOf t).bind fun m => m.roleOf t.t

/-- The generations of the four blocks of a thread's home group (R156). -/
def State.stepBlocks (s : State) (t : ThreadId) : State :=
  match s.teamOf t with
  | some m => s.stepGens m.core ((List.range 4).map fun k => .block (m.placeOf t.t) k)
  | none => s

/-- d and o, the auxiliary words of the window causes (R115). -/
def Thread.windowAux (x : Thread) : List DWord := [BitVec.ofNat 64 x.depth, BitVec.ofNat 64 x.oldest]

/-- PUSHFRAME: the window moves on by 56 registers, the link is kept, the callee's w8 to w63 are 0 and full (R95, R112). -/
def Thread.pushFrame (x : Thread) (link : VAddr) : Thread :=
  let y := { x with depth := x.depth + 1, links := x.links.set (x.depth + 1) link }
  y.fill ((y.words 8 56).map fun w => (w, 0))

/-- POPFRAME: the window moves back (R95, R112). -/
def Thread.popFrame (x : Thread) : Thread := { x with depth := x.depth - 1 }

/-- The window checks of call and callx: 0x046, then 0x044 (R115). -/
def State.callCause (s : State) (t : ThreadId) : Option (Cause × List DWord) :=
  match s.thread t, s.roleOf t with
  | some x, some r =>
    if x.depth = r.s then some (0x046, x.windowAux)
    else if x.depth - x.oldest + 1 = r.frames then some (0x044, x.windowAux)
    else none
  | _, _ => none

/-- A call to a target: the target checks, then the window checks, then the transfer (R68, R95, R115). -/
def State.callTo (s : State) (t : ThreadId) (va : VAddr) (sign : State → State) : Attempt :=
  match s.checkTarget t va with
  | .trap c aux s => .trap c aux s
  | .closed s => .wait (s.closedHold t va) s
  | .ok s =>
    match s.callCause t with
    | some (c, aux) => .trap c aux s
    | none =>
      let next := s.nextAt t
      .done (((sign (s.alterThread t fun x => x.pushFrame next)).stepBlocks t).arrive t va)

/-- call (R95) -/
def execCall (f : BrF) (s : State) : Result :=
  runGroup s { guard := f.g } fun s t _ => s.callTo t (offsetTarget (s.pcAt t) f.wofs) id

/-- callx (R95, R392) -/
def execCallx (f : RF) (s : State) : Result :=
  runGroup s { guard := f.g, srcs := [.pair f.a f.bta] } fun s t vs =>
    let va := addressOf (arg64 vs 0)
    s.callTo t va fun s => s.alterThread t fun x => x.sign (va.zeroExtend 64)

/-- ret (R95, R96, R112, R115): the checks 0x04B and 0x045, then the wait for writes in flight to w8 to w63, then the target checks of the link. -/
def execRet (f : RF) (s : State) : Result :=
  runGroup s { guard := f.g } fun s t _ =>
    match s.thread t with
    | none => .done s
    | some x =>
      if x.depth = 0 then .trap 0x04B [] s
      else if x.oldest = x.depth then .trap 0x045 x.windowAux s
      else if !x.fullRange 8 56 then .wait (.words t (x.words 8 56)) s
      else s.transfer t (x.links.get x.depth) fun s => (s.alterThread t Thread.popFrame).stepBlocks t

/-! exit, yield, nop -/

/-- The rendezvous that a thread's exit ends: every held member raises 0x048 (R104). -/
def State.breakRendezvous (s : State) (t : ThreadId) : State :=
  match s.teamOf t with
  | none => s
  | some m =>
    let hit (r : Rendezvous) : Bool := r.hg == homeGroupOf t.t && r.mask.getLsbD (laneOf t.t)
    let gone := m.rendezvous.filter hit
    let s := s.alterTeam t.team fun m => { m with rendezvous := m.rendezvous.filter fun r => !hit r }
    gone.foldl (fun (s : State) r =>
      (Table.keys r.arrived).foldl (fun (s : State) l => s.trapThread ⟨t.team, 32 * r.hg + l⟩ 0x048 []) s) s

/-- A thread exits: its registrations are withdrawn, it leaves its group, collectives that name it end, and each error reply that it still had queued is a machine check (R90, R97, R104, R241, R296). -/
def State.exitThread (s : State) (t : ThreadId) : State :=
  let s := s.withdrawAll t
  let left := ((s.thread t).map Thread.deferred).getD []
  let s := (s.leaveGroup t).alterThread t fun x => { x with status := .exited, deferred := [] }
  let s := (left.filter fun x => isErrorReply x.cause).foldl (fun (s : State) _ => s.lateError (s.coreOf t)) s
  s.breakRendezvous t

/-- exit (R97) -/
def execExit (f : RF) (s : State) : Result :=
  runGroup s { guard := f.g } fun s t _ => .done (s.exitThread t)

/-- yield (R98): the thread waits for the delay, at most 4095 clk, and then at NEXT. -/
def execYield (f : RF) (s : State) : Result :=
  runGroup s { guard := f.g, srcs := [srcA f] } fun s t vs =>
    let until_ := (s.core (s.coreOf t)).clk + min (arg vs 0).toNat 4095
    let next := s.nextAt t
    .done ((s.leaveGroup t).alterThread t fun x => { x with pc := next, status := .waiting until_ })

/-- nop (R99) -/
def execNop (f : RF) (s : State) : Result :=
  runGroup s { guard := f.g } fun s _ _ => .done s

/-- YIELD_DELAY_END: the delay of a yield has ended (R98). -/
def execYieldDelayEnd (t : ThreadId) (s : State) : Result :=
  match (s.thread t).map Thread.status with
  | some (.waiting u) =>
    .next (if 0 < u ∧ u ≤ (s.core (s.coreOf t)).clk then s.alterThread t fun x => { x with status := .waiting 0 } else s)
  | _ => .next s

end Sys2Proof.Machine
end

