-- ==== Sys2Proof/Machine/Collective.lean ====
section
/-! DEFINITION. Collectives among the threads of a home group (R100 to R109): arrival, the checks of R102, and the completion of a rendezvous. -/

namespace Sys2Proof.Machine

/-- What each member of a complete rendezvous is given: by the mask, the members' lanes and values, and the receiver's lane; none where nothing is written (R106 to R109). -/
abbrev Combine := Word → Table Nat (Word × Word) → Nat → Option Word

/-- The value A that a lane supplied. -/
def valueA (r : Table Nat (Word × Word)) (l : Nat) : Word := ((Table.find r l).map Prod.fst).getD 0
/-- The value B that a lane supplied. -/
def valueB (r : Table Nat (Word × Word)) (l : Nat) : Word := ((Table.find r l).map Prod.snd).getD 0

/-- shfl (R106) -/
def shuffle (var : BitVec 2) : Combine := fun mask r l =>
  let b := valueB r l
  let s : Int := match var.toNat with
    | 0 => (b.toNat % 32 : Nat)
    | 1 => (l : Int) - b.toNat
    | 2 => (l : Int) + b.toNat
    | _ => (l ^^^ (b.toNat % 32) : Nat)
  some (if 0 ≤ s ∧ s ≤ 31 ∧ mask.getLsbD s.toNat then valueA r s.toNat else valueA r l)

/-- vote (R107) -/
def votes (var : BitVec 2) : Combine := fun _ r _ =>
  let yes := (Table.keys r).filter fun l => valueA r l != 0
  some (match var.toNat with
    | 0 => BitVec.ofNat 32 yes.length
    | 1 => BitVec.ofNat 32 (maskOf yes)
    | 2 => match yes with
      | [] => 0xFFFFFFFF
      | l :: ls => BitVec.ofNat 32 (ls.foldl min l)
    | _ => match Table.keys r with
      | [] => 1
      | l :: ls => if ls.all fun k => valueA r k == valueA r l then 1 else 0)

/-- The least or greatest of values under an order. -/
def pickBy (before : Word → Word → Bool) : List Word → Word
  | [] => 0
  | v :: vs => vs.foldl (fun a b => if before b a then b else a) v

/-- gred (R108) -/
def reduction (var : BitVec 2) (type : BitVec 4) (un sat : Bool) (m : RoundMode) : Combine := fun _ r _ =>
  let vs := (Table.keys r).map (valueA r)
  some (if type = 4 then
    let xs := vs.map valF32
    match var.toNat with
    | 0 => match xs with
      | [] => 0
      | x :: xs => round32 m (xs.foldl (addNum m) x)
    | 1 => if xs.any Num.isNan then qnan32 else pickBy (fun a b => beforeNum (valF32 a) (valF32 b)) vs
    | _ => if xs.any Num.isNan then qnan32 else pickBy (fun a b => beforeNum (valF32 b) (valF32 a)) vs
  else
    match var.toNat with
    | 0 => writeInt sat un ((vs.map (intOf un)).foldl (· + ·) 0)
    | 1 => pickBy (fun a b => decide (intOf un a < intOf un b)) vs
    | 2 => pickBy (fun a b => decide (intOf un b < intOf un a)) vs
    | _ => vs.foldl (· ||| ·) 0)

/-- The first check of an arriving thread that fails, in the order of R102. -/
def State.collectiveCause (s : State) (t : ThreadId) (m : Team) (pc : VAddr) (mask : Word) : Option Cause :=
  let hg := homeGroupOf t.t
  let gone (l : Nat) : Bool := ((s.thread ⟨t.team, 32 * hg + l⟩).map Thread.gone).getD false
  if !mask.getLsbD (laneOf t.t) then some 0x049
  else if (bitsOf mask.toNat 32).any gone then some 0x048
  else if m.rendezvous.any fun r =>
      decide (r.pc = pc) && r.hg == hg && r.mask != mask && (Table.keys r.arrived).any fun l => mask.getLsbD l then some 0x04A
  else none

/-- A member other than the one that arrives last receives its result, and its held state ends (R101). -/
def State.giveResult (s : State) (u : ThreadId) (e : Effect) : State :=
  match s.attemptEffect u [] true e with
  | .done s => s.finish u
  | .trap c aux s => s.trapThread u c aux
  | .wait _ s => s
  | .engage s => s
  | .park s => s
  | .left s => s

/-- The completion of a rendezvous is an event of S and a fence point of its members; what any of them did before its arrival is before what any does after it (R103, R252). -/
def State.joinMembers (s : State) (us : List ThreadId) : State :=
  let s := s.place
  us.foldl (fun (s : State) u => (s.alterThread u fun x => { x with fence := s.seq }).acquire u) s

/-- A thread arrives at a rendezvous, which its arrival may complete (R101 to R103). -/
def State.meet (s : State) (t : ThreadId) (m : Team) (d : Option Byte) (pops : List Nat) (a b mask : Word) (f : Combine) : Attempt :=
  let pc := s.pcAt t
  let hg := homeGroupOf t.t
  match s.collectiveCause t m pc mask with
  | some c => .trap c [] s
  | none =>
    let same (r : Rendezvous) : Bool := decide (r.pc = pc) && r.hg == hg && r.mask == mask
    let r := (m.rendezvous.find? same).getD ⟨pc, hg, mask, []⟩
    let r := { r with arrived := Table.put r.arrived (laneOf t.t) (a, b) }
    let others := m.rendezvous.filter fun r => !same r
    if (bitsOf mask.toNat 32).all fun l => (Table.find r.arrived l).isSome then
      let s := s.alterTeam t.team fun m => { m with rendezvous := others }
      let us : List ThreadId := (bitsOf mask.toNat 32).map fun l => ⟨t.team, 32 * hg + l⟩
      let s := (s.joinMembers us).countFor t 0x0F 1
      let result (u : ThreadId) : Effect := match d, f mask r.arrived (laneOf u.t) with
        | some d, some v => writeDst d v
        | _, _ => {}
      let s := (us.filter (· ≠ t)).foldl (fun (s : State) u => s.giveResult u (result u)) s
      s.attemptEffect t pops false (result t)
    else .engage (s.alterTeam t.team fun m => { m with rendezvous := others ++ [r] })

/-- A collective: its sources, its destination, the values A and B, the mask, and what each member is given. -/
def runCollective (sh : Shape) (d : Option Byte) (a b mask : Nat) (f : Combine) (s : State) : Result :=
  runGroup s sh fun s t vs =>
    match s.teamOf t with
    | none => .done s
    | some m => s.meet t m d (sh.srcs.filterMap Src.pops) (arg vs a) (arg vs b) (arg vs mask) f

/-- shfl (R106) -/
def execShfl (f : RF) (s : State) : Result :=
  runCollective { guard := f.g, srcs := [srcA f, srcB f, srcC f], dsts := [.one f.d] } (some f.d) 0 1 2 (shuffle f.var) s
/-- vote (R107) -/
def execVote (f : RF) (s : State) : Result :=
  runCollective { guard := f.g, srcs := [srcA f, srcB f], dsts := [.one f.d] } (some f.d) 0 0 1 (votes f.var) s
/-- gred (R108) -/
def execGred (f : RF) (s : State) : Result :=
  runCollective { guard := f.g, srcs := [srcA f, srcB f], dsts := [.one f.d] } (some f.d) 0 0 1
    (reduction f.var f.type f.un f.sat (roundModeOf f.rnd)) s
/-- gsync (R109) -/
def execGsync (f : RF) (s : State) : Result :=
  runCollective { guard := f.g, srcs := [srcA f] } none 0 0 0 (fun _ _ _ => none) s

end Sys2Proof.Machine
end

