-- ==== Sys2Proof/Machine/FieldInstr.lean ====
section
/-! DEFINITION. The field instructions (R192 to R196), compute-mode loads (R186), amode (R191) and the completion of mode requests (R185). -/

namespace Sys2Proof.Machine

/-- A reply still to come for a thread that writes `words` (stack word, value); it carries no error. -/
def replyFor (t : ThreadId) (c : CoreId) (words : List (Nat × Word)) (pc : VAddr) (atomic : Bool) : Access :=
  ⟨t, c, words, none, [], none, pc, 0, 0, atomic, none⟩

/-- The size in bytes and the mode of a field SZ code (R57): 0 plain, 1 .f, 2 .fe, 3 .e. -/
def fieldSize (sz : BitVec 4) : Nat := 2 ^ (sz.toNat % 4)
def fieldMode (sz : BitVec 4) : Nat := sz.toNat / 4

/-- The effective field address: modulo 2^32 (R57, R192). -/
def fieldAddr (base : Word) (ofs : BitVec 24) : Nat := (base + ofs.signExtend 32).toNat

/-- Whether a field access changes its array, cells or full/empty state, which the compute mode forbids (R184). -/
def Waiter.changes (w : Waiter) : Bool :=
  match w.op with
  | .load => w.mode == 2
  | .test => false
  | _ => true

/-- Whether a field access has to wait for the state of its words (R182). -/
def FieldArray.keepsWaiting (x : FieldArray) (w : Waiter) : Bool := w.mode != 0 && !x.meets w

/-- The registers that a field access fills with a reply are empty from its issue on: those of fld and fatom (R119). -/
def Waiter.empties (w : Waiter) : List Nat :=
  match w.op with
  | .load => w.dest
  | .atomic _ _ => w.dest
  | _ => []

/-- A value on its way to registers that are marked empty (R119, R193). -/
def State.loadInFlight (s : State) (t : ThreadId) (words : List Nat) (v : DWord) (atomic : Bool) : State :=
  if words = [] then s
  else
    let pc := s.pcAt t
    (s.alterThread t fun x => x.markEmpty words).issueAccess (replyFor t (s.coreOf t) (splitWords words v) pc atomic)

/-- The new word of an atomic operation on 32 bits, with compare value `cmp` (R195, R257). -/
def atomicNew {w : Nat} (op : Nat) (old v cmp : BitVec w) : BitVec w :=
  match op with
  | 0 => old + v
  | 1 => BitVec.ofNat w (round fp32 .rne (addNum .rne (valOf fp32 old.toNat) (valOf fp32 v.toNat)))
  | 2 => if v.toInt < old.toInt then v else old
  | 3 => if v.toNat < old.toNat then v else old
  | 4 => if old.toInt < v.toInt then v else old
  | 5 => if old.toNat < v.toNat then v else old
  | 6 => old &&& v
  | 7 => old ||| v
  | 8 => old ^^^ v
  | 9 => v
  | _ => if old = cmp then v else old

/-- A field access performed, one event of S; `sees`, whether it sees compute mode, in which a load waits to be served (R184, R186, R193 to R196). -/
def State.performField (s : State) (c : CoreId) (a : Nat) (w : Waiter) (sees : Bool) : State :=
  let x := s.array c a
  let s := s.fieldPlace w.t
  match w.op with
  | .load =>
    let v : DWord := BitVec.ofNat 64 (x.cells.num w.off w.size)
    if w.mode = 2 then (s.loadInFlight w.t w.dest v false).setWords c a w.words false
    else if sees then
      let s := s.alterThread w.t fun y => y.markEmpty w.dest
      (s.alterArray c a fun y => { y with loads := y.loads ++ [⟨s.newId, w.t, w.dest, v⟩] }).bump
    else s.loadInFlight w.t w.dest v false
  | .store => s.writeCells c a w.off (bytesOf w.data w.size)
  | .atomic op cmp =>
    let old : Word := BitVec.ofNat 32 (x.cells.num w.off 4)
    let s := (s.keepCells c a w.off 4).alterArray c a fun y =>
      { y with cells := y.cells.setList w.off (bytesOf (atomicNew op old (w.data.truncate 32) cmp) 4) }
    (s.stepGens c (halvesOf a w.off 4)).loadInFlight w.t w.dest (old.zeroExtend 64) true
  | .put full => s.setWords c a [w.word] full
  | .test => s.fillWords w.t (w.dest.map fun d => (d, if x.full w.word then 1 else 0))

/-- An access that has issued and waits, in the order of issue (R119, R182, R184). -/
def State.enqueue (s : State) (c : CoreId) (a : Nat) (w : Waiter) : State :=
  ((s.alterArray c a fun x => { x with waiters := x.waiters ++ [{ w with n := s.newId }] }).alterThread w.t fun y =>
    y.markEmpty w.empties).bump

/-- A thread parked on an array (R182), as event 0x0D counts (R387). -/
def State.parkOn (s : State) (c : CoreId) (a : Nat) (w : Waiter) : State := (s.enqueue c a w).countFor w.t 0x0D 1

/-- One thread's field access: the checks of R192 in their order; it is held until a pending storage request has completed, parks while its words do not meet its mode, and is performed otherwise (R182, R184, R192). -/
def fieldTurn (size : Nat) (ofs : BitVec 24) (access : Thread → List DWord → Waiter) (s : State) (t : ThreadId) (vs : List DWord) : Attempt :=
  match s.teamOf t, s.thread t with
  | some m, some x =>
    let addr := fieldAddr (arg vs 0) ofs
    let a := fieldArrayOf addr
    let f := s.array m.core a
    let w := { access x vs with t := t, off := fieldOffset addr, size := size }
    if addr % size ≠ 0 then .trap 0x106 [] s
    else if !m.inField a then .trap 0x107 [] s
    else if w.changes && f.sees then .trap 0x108 [] s
    else match f.storagePending with
      | some r => .engage (s.enqueue m.core a { w with req := some r })
      | none => if f.keepsWaiting w then .engage (s.parkOn m.core a w) else .done (s.performField m.core a w f.sees)
  | _, _ => .done s

/-- A field instruction of the current group; the walks of the core's arrays follow its last access (R182, R192, R194). -/
def runField (size : Nat) (ofs : BitVec 24) (sh : Shape) (access : Thread → List DWord → Waiter) (s : State) : Result :=
  match runGroup s sh (fieldTurn size ofs access) with
  | .next u => .next (match s.cur.bind s.group with | some g => u.walkCore g.core | none => u)
  | r => r

/-- The stack words that a field load writes: one register, or a pair for 64 bits; none for zr. -/
def Thread.loadWords (x : Thread) (data : Byte) (size : Nat) : List Nat :=
  if data.toNat < 0x40 then x.words data.toNat (if size = 8 then 2 else 1) else []

/-- The destination of a load as a register range. -/
def loadDst (data : Byte) (size : Nat) : List Dst :=
  if data.toNat < 0x40 then [.regs data.toNat (if size = 8 then 2 else 1)] else []

/-- A field access with its operation, mode, data and destination; where it stands is the turn's to say. -/
def fieldAccess (op : FieldOp) (mode : Nat) (data : DWord) (dest : List Nat) : Waiter :=
  ⟨0, ⟨0, 0⟩, op, 0, 0, mode, data, dest, none⟩

/-- fld: plain, .f and .fe (R193); a load that sees compute mode waits to be served (R186). -/
def execFld (f : MF) (s : State) : Result :=
  runField (fieldSize f.sz) f.ofs
    { guard := f.g, srcs := [.one f.base false], dsts := loadDst f.data (fieldSize f.sz), inS := true }
    (fun x _ => fieldAccess .load (fieldMode f.sz) 0 (x.loadWords f.data (fieldSize f.sz))) s

/-- The mma that an array runs, made longer by 1 clk (R186, R209). -/
def lengthenRunning : List Mma → List Mma
  | [] => []
  | m :: ms =>
    match m.left with
    | some 0 => m :: lengthenRunning ms
    | l => { m with left := l.map (· + 1) } :: ms

/-- COMPUTE_MODE_LOAD_SERVED: the oldest load waiting on an array is served; its data is on its way, and the mma that runs is longer by 1 clk (R186). -/
def execComputeModeLoadServed (c : CoreId) (a : Nat) (s : State) : Result :=
  let ar := s.array c a
  match ar.loads with
  | [] => .next s
  | l :: ls =>
    let mmas := lengthenRunning ar.mmas
    let s := s.setArray c a { ar with loads := ls, mmas := mmas }
    .next (if l.dest = [] then s else s.issueAccess (replyFor l.t c (splitWords l.dest l.value) 0 false))

/-- fst: plain and .e (R193). -/
def execFst (f : MF) (s : State) : Result :=
  let data : Src := if fieldSize f.sz = 8 then .pair f.data false else .one f.data false
  runField (fieldSize f.sz) f.ofs { guard := f.g, srcs := [.one f.base false, data], inS := true }
    (fun _ vs => fieldAccess .store (fieldMode f.sz) (arg64 vs 1) []) s

/-- fatom (R195): the old word goes to DATA; the full/empty bit stays. -/
def execFatom (f : MF) (s : State) : Result :=
  let r := f.data.toNat
  let data : List Src := if r < 0x40 then [.regs r (if f.ctl = 0xA then 2 else 1)] else []
  runField 4 f.ofs { guard := f.g, srcs := .one f.base false :: data, dsts := loadDst f.data 4, inS := true }
    (fun x _ => fieldAccess (.atomic f.ctl.toNat (x.reg (r + 1))) 0 ((if r < 0x40 then x.reg r else 0).zeroExtend 64) (x.loadWords f.data 4)) s

/-- feset and feclr: the bit of the word set or cleared, its waiters served (R196). -/
def fieldBit (full : Bool) (f : MF) (s : State) : Result :=
  runField 4 f.ofs { guard := f.g, srcs := [.one f.base false], inS := true } (fun _ _ => fieldAccess (.put full) 0 0 []) s

/-- feset (R196) -/
def execFeset (f : MF) (s : State) : Result := fieldBit true f s
/-- feclr (R196) -/
def execFeclr (f : MF) (s : State) : Result := fieldBit false f s

/-- fetest (R196) -/
def execFetest (f : MF) (s : State) : Result :=
  runField 4 f.ofs { guard := f.g, srcs := [.one f.base false], dsts := [.one f.data], inS := true }
    (fun x _ => fieldAccess .test 0 0 [x.word f.data.toNat]) s

/-! amode -/

/-- amode: one switch request for a non-empty ACTIVE, whose threads are held until it completes (R191). -/
def execAmode (f : AmodeF) (s : State) : Result :=
  runWhole s { guard := f.g } fun s n g active =>
    match s.team g.team with
    | none => s
    | some m =>
      let a := f.arr.toNat
      if active = [] then s
      else if !m.inField a then active.foldl (fun (s : State) t => s.trapIn g t 0x107 []) s
      else
        let r := s.newId
        let s := s.requestMode m.core a f.mode
        let s := active.foldl (fun (s : State) t => s.progress ⟨g.team, t⟩) s
        s.alterGroup n fun g => { g with engaged := g.engaged ++ active, hold := some (.amode m.core a r) }

/-- The members of groups that are held by a completed amode go on. -/
def State.wakeAmode (s : State) (c : CoreId) (a r : Nat) : State :=
  s.groups.foldl (fun (s : State) e =>
    match e.2.hold with
    | some (.amode c' a' r') =>
      if c' = c ∧ a' = a ∧ r' = r then e.2.engaged.foldl (fun (s : State) t => s.finish ⟨e.2.team, t⟩) s else s
    | _ => s) s

/-- An access whose storage request has completed: it parks where its words do not meet its mode, and is performed otherwise (R182, R184). -/
def State.letGo (s : State) (c : CoreId) (a : Nat) (w : Waiter) : State :=
  if (s.array c a).keepsWaiting w then
    (s.alterArray c a fun x => { x with waiters := x.waiters.map fun v => if v.n = w.n then { v with req := none } else v }).countFor w.t 0x0D 1
  else
    ((s.alterArray c a fun x => { x with waiters := x.waiters.filter fun v => decide (v.n ≠ w.n) }).performField c a w false).finish w.t

/-- The accesses that a storage request has held go on in the order of their issue; the walks follow the last access of each instruction (R182, R184, R194). -/
def State.letGoAll (c : CoreId) (a : Nat) : List Waiter → State → State
  | [], s => s
  | w :: ws, s =>
    let at_ (v : Waiter) : Option Status := (s.thread v.t).map Thread.status
    let u := s.letGo c a w
    State.letGoAll c a ws (if ws.head?.any fun v => at_ v == at_ w then u else u.walkCore c)

/-- What a completed request lets go on: the accesses that it has held, and the threads of its amode (R184, R191). -/
def State.wakeMode (s : State) (c : CoreId) (a r : Nat) : State :=
  (State.letGoAll c a ((s.array c a).waiters.filter fun w => w.req == some r) s).wakeAmode c a r

/-- AMODE_COMPLETE: the oldest request of an array completes once its waits have ended and its clk have passed (R185). -/
def execAmodeComplete (c : CoreId) (a : Nat) (s : State) : Result :=
  match (s.array c a).requests with
  | [] => .next s
  | r :: _ =>
    let u := s.completeRequest c a
    .next (if u.requestPending c a r.id then u else s.orLater (u.wakeMode c a r.id))

end Sys2Proof.Machine
end

