-- ==== Sys2Proof/Machine/Scale.lean ====
section
/-! DEFINITION. The scale instructions that act on registers (R152 to R171): slices, single scales, tags and bindings. -/

namespace Sys2Proof.Machine

/-- The physical k register of a plain name; none outside the allotment (R152, R153). -/
def Team.kreg (m : Team) (n : Nat) : Option Nat := if n < m.nk then some (m.kBase + n) else none
/-- The physical k register of a name in an A-scale position (R153). -/
def Team.kregA (m : Team) (t n : Nat) : Option Nat := m.kreg (n + m.scaleGroup t)

/-- A byte of a physical k register. -/
def State.kbyte (s : State) (c : CoreId) (k b : Nat) : Byte := (s.core c).kbytes.get (256 * k + b)

/-- The tag of a physical k register written; none is kind none (R155, R158). -/
def State.setTag (s : State) (c : CoreId) (k : Nat) (tag : Option Tag) : State :=
  s.alterCore c fun x =>
    { x with ktags := match tag with | some g => Table.put x.ktags k g | none => Table.drop x.ktags k }
/-- The tag of a physical k register. -/
def State.tagOf (s : State) (c : CoreId) (k : Nat) : Option Tag := Table.find (s.core c).ktags k

/-- The threads of a group whose guard holds (R53). -/
def State.guarded (s : State) (g : Group) (guard : Guard) : List Nat :=
  g.members.filter fun t => match s.thread ⟨g.team, t⟩ with | some x => x.guard guard | none => false

/-- Whether ACTIVE of the current instruction of a thread's group holds all 32 lanes (R158). -/
def State.allLanes (s : State) (t : ThreadId) (guard : Guard) : Bool :=
  match s.groupOf t with
  | some g => (s.guarded g guard).length == 32
  | none => false

/-- The checks of an instruction on its k registers: inside the allotment, then no write in flight; the spec has an instruction wait for its k sources, and here it waits for the register it writes too (R153, R166; DESIGN CHOICE, log 21). The body receives the core and the physical registers. -/
def withKregs (ks : List Nat) (body : State → ThreadId → CoreId → List Nat → List DWord → Attempt) :
    State → ThreadId → List DWord → Attempt :=
  fun s t vs =>
    match s.teamOf t with
    | none => .done s
    | some m =>
      match ks.mapM m.kreg with
      | none => .trap 0x103 [] s
      | some ps =>
        if ps.any (s.kInFlight m.core) then .wait (.kregs m.core ps) s else body s t m.core ps vs

/-- A slice written: bytes 8L to 8L + 7 of a physical k register (R166). -/
def State.writeSlice (s : State) (c : CoreId) (k : Nat) (t : ThreadId) (v : Nat → Byte) : State :=
  s.writeKreg c k (8 * laneOf t.t) ((List.range 8).map v)

/-- A slice instruction on k sources: byte b of the result from byte b of each source; the written register's kind becomes none (R158, R167). -/
def sliceOp (g : Guard) (ks : List Nat) (op : List Byte → Byte) (s : State) : Result :=
  runGroup s { guard := g } (withKregs ks fun s t c ps _ =>
    let out := ps.headD 0
    let srcs := ps.drop 1
    .done ((s.writeSlice c out t fun b => op (srcs.map fun k => s.kbyte c k (8 * laneOf t.t + b))).setTag c out none))

/-- kmov (R158, R167): the source's tag goes along when ACTIVE holds all 32 lanes. -/
def execKmov (f : KF) (s : State) : Result :=
  runGroup s { guard := f.g } (withKregs [f.k1.toNat, f.k2.toNat] fun s t c ps _ =>
    let dst := ps.headD 0
    let src := ps.getD 1 0
    let tag := if s.allLanes t f.g then s.tagOf c src else none
    .done ((s.writeSlice c dst t fun b => s.kbyte c src (8 * laneOf t.t + b)).setTag c dst tag))

/-- kset: .pair and .bcast (R167) -/
def execKset (f : KF) (s : State) : Result :=
  let src : Src := if f.var = 0 then .pair f.oa f.bta else .one f.oa f.bta
  runGroup s { guard := f.g, srcs := [src] } (withKregs [f.k1.toNat] fun s t c ps vs =>
    let k := ps.headD 0
    let v := arg64 vs 0
    .done ((s.writeSlice c k t fun b => byteOf v (if f.var = 0 then b else 0)).setTag c k none))

/-- The scale arithmetic of R167: 0xFF where an operand is 0xFF. -/
def scaleOp2 (op : Byte → Byte → Byte) (l : List Byte) : Byte :=
  match l with
  | [a, b] => if a = 0xFF ∨ b = 0xFF then 0xFF else op a b
  | _ => 0

/-- kmul (R167) -/
def execKmul (f : KF) (s : State) : Result :=
  sliceOp f.g [f.k1.toNat, f.k2.toNat, f.k3.toNat] (scaleOp2 fun a b => e5m3 (mulNum (e5m3v a) (e5m3v b))) s
/-- kmax (R167) -/
def execKmax (f : KF) (s : State) : Result :=
  sliceOp f.g [f.k1.toNat, f.k2.toNat, f.k3.toNat] (scaleOp2 fun a b => if a.toNat < b.toNat then b else a) s
/-- kmin (R167) -/
def execKmin (f : KF) (s : State) : Result :=
  sliceOp f.g [f.k1.toNat, f.k2.toNat, f.k3.toNat] (scaleOp2 fun a b => if b.toNat < a.toNat then b else a) s
/-- krcp (R167) -/
def execKrcp (f : KF) (s : State) : Result :=
  sliceOp f.g [f.k1.toNat, f.k2.toNat] (fun l => e5m3Rcp (l.headD 0)) s

/-- A scale byte as an FP32 pattern (R168). -/
def scaleF32 (b : Byte) : Word := if b = 0xFF then qnan32 else round32 .rne (e5m3v b)

/-- kcvtf (R168); OB is operand B, and OA is a destination (R54, R164). -/
def execKcvtf (f : KF) (s : State) : Result :=
  let sh : Shape := { guard := f.g, srcs := [.one 0x58 false, .one f.ob f.btb], dsts := [.one f.oa] }
  runGroup s sh (withKregs [f.k2.toNat] fun s t c ps vs =>
    s.attemptEffect t (sh.srcs.filterMap Src.pops) false
      (writeDst f.oa (scaleF32 (s.kbyte c (ps.headD 0) ((arg vs 1).toNat % 256)))))

/-- kcvtk (R168) -/
def execKcvtk (f : KF) (s : State) : Result :=
  runGroup s { guard := f.g, srcs := [.one f.oa f.bta, .one f.ob f.btb] } (withKregs [f.k1.toNat] fun s _ c ps vs =>
    let k := ps.headD 0
    .done ((s.writeKreg c k ((arg vs 1).toNat % 256) [e5m3 (valF32 (arg vs 0))]).setTag c k none))

/-! Instructions on the whole register: once for each home group with a thread in ACTIVE (R166) -/

/-- The home groups of a list of threads, ascending. -/
def homeGroups (ts : List Nat) : List Nat := (ts.map homeGroupOf).foldl NatSet.add []

/-- A thread of a whole-register instruction done, with what it receives. -/
def State.giveWhole (s : State) (n : Nat) (g : Group) (t : Nat) (srcs : List Src) (e : Effect) : State :=
  let id : ThreadId := ⟨g.team, t⟩
  match s.attemptEffect id (srcs.filterMap Src.pops) false e with
  | .done s => ((s.popFor id srcs).progress id).markDone n t
  | .trap c aux s => s.trapIn g t c aux
  | .park s => s.alterGroup n fun g => { g with engaged := g.engaged ++ [t], hold := some .engaged }
  | .wait _ s => s
  | .engage s => s
  | .left s => s

/-- What a whole-register instruction does for one home group: a cause for all its threads in ACTIVE, a wait, or the new state with what its threads receive. -/
inductive Whole where
  | cause (c : Cause) (aux : List DWord)
  | wait (h : Hold)
  | ok (s : State) (e : Effect)

/-- A whole-register instruction: `src` is OA, read in the lowest home lane of each home group; a home group that must wait holds the group before any acts (R166). -/
def runKwhole (sh : Shape) (src : Option Src) (body : State → Team → Nat → ThreadId → DWord → Whole) (s : State) : Result :=
  runWhole s sh fun s n g active =>
    match s.team g.team with
    | none => s
    | some m =>
      let hgs := homeGroups active
      let mine (h : Nat) : List Nat := active.filter fun t => homeGroupOf t == h
      let leader (h : Nat) : ThreadId := ⟨g.team, (mine h).headD 0⟩
      let lsh : Shape := { guard := sh.guard, srcs := src.toList }
      let ask (s : State) (h : Nat) : Whole :=
        match s.blockOf lsh (leader h) with
        | some (.trap c aux) => .cause c aux
        | some (.wait w) => .wait w
        | none => body s m h (leader h) (arg64 (s.valuesOf lsh (leader h)) 0)
      match hgs.findSome? fun h => match ask s h with | .wait w => some w | _ => none with
      | some w => s.alterGroup n fun g => { g with hold := some w }
      | none =>
        hgs.foldl (fun (s : State) h =>
          match ask s h with
          | .cause c aux => (mine h).foldl (fun (s : State) t => s.trapIn g t c aux) s
          | .wait _ => s
          | .ok s e => (mine h).foldl (fun (s : State) t =>
              s.giveWhole n g t (if (⟨g.team, t⟩ : ThreadId) = leader h then lsh.srcs else []) e) s) s

/-- A whole-register instruction on one k register: the allotment, then no write in flight. -/
def wholeK (k : Option Nat) (c : CoreId) (s : State) (waits : Bool) (f : Nat → Whole) : Whole :=
  match k with
  | none => .cause 0x103 []
  | some p => if waits && s.kInFlight c p then .wait (.kregs c [p]) else f p

/-- kclr (R169) -/
def execKclr (f : KF) (s : State) : Result :=
  runKwhole { guard := f.g } none (fun s m _ _ _ =>
    wholeK (m.kreg f.k1.toNat) m.core s true fun k =>
      .ok ((s.writeKreg m.core k 0 (List.replicate 256 0)).setTag m.core k none) {}) s

/-- The object that kbind binds to; none for an invalid value of a or an array outside the field role (R171). -/
def bindObject (m : Team) (var : Nat) (h : Nat) (a : Word) : Option GenObject :=
  let arr := a.toNat % 32
  match var with
  | 1 => some (.block (m.places.getD h 0) (a.toNat % 4))
  | 2 => if a.toNat / 64 ≠ 0 ∨ !m.inField arr then none else some (.half arr (a.toNat / 32 % 2))
  | _ => if a.toNat / 32 ≠ 0 ∨ !m.inField arr then none else some (.whole arr)

/-- kbind (R171) -/
def execKbind (f : KF) (s : State) : Result :=
  let var := f.var.toNat
  runKwhole { guard := f.g } (if var = 0 then none else some (.one f.oa f.bta)) (fun s m h t v =>
    let k := if var = 1 then m.kregA t.t f.k1.toNat else m.kreg f.k1.toNat
    wholeK k m.core s false fun k =>
      if var = 0 then .ok (s.setTag m.core k none) {}
      else match bindObject m var h (v.truncate 32) with
        | none => .cause 0x104 []
        | some o => .ok ((s.noteChecked m.core [o]).setTag m.core k (some ⟨o, s.gen m.core o⟩)) {}) s

/-- A tag in the layout of ktag, with team-relative home groups (R170). -/
def tagBits (m : Team) (tag : Option Tag) : Word :=
  match tag with
  | none => 0
  | some g =>
    let o : Nat := match g.obj with
      | .block p b => 1 * 2 ^ 30 + (m.places.idxOf p) * 2 ^ 18 + b * 2 ^ 16
      | .half a h => 2 * 2 ^ 30 + a * 2 ^ 18 + h * 2 ^ 16
      | .whole a => 2 * 2 ^ 30 + a * 2 ^ 18 + 2 * 2 ^ 16
    BitVec.ofNat 32 (o + g.gen.toNat)

/-- ktag (R170) -/
def execKtag (f : KF) (s : State) : Result :=
  runKwhole { guard := f.g, dsts := [.one f.oa] } none (fun s m _ _ _ =>
    wholeK (m.kreg f.k2.toNat) m.core s true fun k =>
      let tag := s.tagOf m.core k
      let live := match tag with | some g => s.gen m.core g.obj == g.gen | none => false
      .ok s (writeDst f.oa (if f.var = 0 then tagBits m tag else if live then 1 else 0))) s

end Sys2Proof.Machine
end

