-- ==== Sys2Proof/Machine/Access.lean ====
section
/-! DEFINITION. Accesses of threads to global memory: the address and its checks (R237, R259), the issue of loads, stores and atomics that lie in HBM4E (R238, R241, R257 to R261), and the replies of loads. -/

namespace Sys2Proof.Machine

/-- The effective global address of format M, modulo 2^57 (R57, R238). -/
def globalAddr (base : DWord) (ofs : BitVec 24) : VAddr := addressOf (base + ofs.signExtend 64)

/-- An address and what follows its checks: misalignment with cause `mis`, then the translation, each with the address in TAUX0; a closed range is waited for (R237, R353). -/
def State.withGlobal (s : State) (t : ThreadId) (va : VAddr) (size : Nat) (mis : Cause) (need : Need) (body : State → Target → Attempt) : Attempt :=
  let aux : List DWord := [va.zeroExtend 64]
  if va.toNat % size ≠ 0 then .trap mis aux s
  else match s.translate (s.coreOf t).die (s.cnOf t) need va with
    | (.ok g, s) => body s g
    | (.cause c, s) => .trap c aux s
    | (.closed, s) => .wait (s.closedHold t va) s

/-- What an access of memory goes on with: its address in HBM4E, or the cause of the error reply that its walk met. -/
abbrev Place := Except Cause Nat

/-- The same where the access cannot reach a register window, which the checks then refuse. -/
def State.withMemory (s : State) (t : ThreadId) (va : VAddr) (size : Nat) (mis : Cause) (need : Need) (body : State → Place → Attempt) : Attempt :=
  s.withGlobal t va size mis need fun s g =>
    match g with
    | .hbm pa => body s (.ok pa)
    | .failed c => body s (.error c)
    | .window _ _ => .trap 0x083 [va.zeroExtend 64] s

/-- The error reply that an access meets: at the home of its address, or in its walk (R241, R363). -/
def State.errorOf (s : State) : Place → Option Cause
  | .ok pa => s.errorAt pa
  | .error c => some c

/-- The address of a place; where the walk gave none, the virtual one, which lies in the same sector of its line. -/
def placeAddr (va : VAddr) : Place → Nat
  | .ok pa => pa
  | .error _ => va.toNat

/-- The bytes of a load; zeros and the cause where an error reply will come (R238, R241). -/
def State.loadPlace (s : State) (t : ThreadId) (va : VAddr) (p : Place) (n : Nat) (u : Option CacheUse) : List Byte × Option Cause × State :=
  match p with
  | .ok pa => s.loadBytes t va pa n u
  | .error c => (List.replicate n 0, some c, if u.isNone then s.place.fenceHere t else s.place)

/-- The auxiliary words of an error reply: the virtual address and the number of its sector, which the spec does not define: its place 0 to 3 in its line, as R13 divides it (R241; DESIGN CHOICE, log 19). -/
def errorAux (va : VAddr) (pa : Nat) : List DWord := [va.zeroExtend 64, BitVec.ofNat 64 (sectorOf pa)]

/-- The words that bytes hold, four to a word (R2). -/
def wordsOfBytes (bs : List Byte) : List Word :=
  (List.range (bs.length / 4)).map fun k => BitVec.ofNat 32 (natOfBytes ((bs.drop (4 * k)).take 4))

/-- What ld gives a register from the bytes of its size: extended for the sizes below 4 bytes (R57, R238). -/
def loadValues (sz : Nat) (bs : List Byte) : List Word :=
  let v := natOfBytes bs
  match sz with
  | 0 => [BitVec.ofNat 32 v]
  | 1 => [(BitVec.ofNat 8 v).signExtend 32]
  | 2 => [BitVec.ofNat 32 v]
  | 3 => [(BitVec.ofNat 16 v).signExtend 32]
  | _ => wordsOfBytes bs

/-- The access size of an SZ code (R237). -/
def accessSize (sz : Nat) : Nat :=
  match sz with
  | 0 | 1 => 1
  | 2 | 3 => 2
  | n => 4 * 2 ^ (n - 4)

/-- The cache use that REUSE and CLS select; none is .vol (R57, R239). -/
def useOf (reuse cls : Nat) : Option CacheUse :=
  match cls with
  | 0 => some (.normal reuse)
  | 1 => none
  | _ => some .str
def cacheUse (f : MF) : Option CacheUse := useOf f.reuse.toNat f.cls.toNat

/-- A load of HBM4E issued: its event of S, its destination words empty, its reply to come (R238). -/
def State.issueLoad (s : State) (t : ThreadId) (va : VAddr) (p : Place) (n : Nat) (u : Option CacheUse) (dest : List Nat) (values : List Byte → List Word) (own : Option Nat) : State :=
  let (bs, err, s) := s.loadPlace t va p n u
  let pc := s.pcAt t
  if dest = [] ∧ err.isNone then s
  else
    (s.alterThread t fun x => x.markEmpty dest).issueAccess
      ⟨t, s.coreOf t, dest.zip (values bs), none, [], err, pc, va, placeAddr va p, false, own⟩

/-- A store to HBM4E issued and performed: under an error reply its bytes are unchanged (R238, R241). -/
def State.issueStore (s : State) (t : ThreadId) (va : VAddr) (p : Place) (bs : List Byte) (u : Option CacheUse) (pc : VAddr) : State :=
  match s.errorOf p with
  | some c =>
    let s := s.place
    (if u.isNone then s.fenceHere t else s).issueAccess ⟨t, s.coreOf t, [], none, [], some c, pc, va, placeAddr va p, false, none⟩
  | none =>
    let s := s.storeBytes t va (placeAddr va p) bs (u.getD .vol)
    if u.isNone then s.fenceHere t else s

/-! pf -/

/-- The sector of an address fetched into L1 as pf does: no place in S, no register, no cause; a closed range is waited for, and a fetch that fails is dropped (R240, R353). -/
def State.prefetch (s : State) (t : ThreadId) (va : VAddr) (u : CacheUse) : Attempt :=
  match s.translate (s.coreOf t).die (s.cnOf t) needRead va, s.thread t with
  | (.ok (.hbm pa), s), some x => .done (s.copyFor (s.asker t va) x pa u (s.classFor t va) false).2
  | (.closed, s), _ => .wait (s.closedHold t va) s
  | (_, s), _ => .done s

/-- pf (R240) -/
def execPf (f : MF) (s : State) : Result :=
  runGroup s { guard := f.g, srcs := [.pair f.base false] } fun s t vs =>
    s.prefetch t (globalAddr (arg64 vs 0) f.ofs) ((cacheUse f).getD .str)

/-! atom and red -/

/-- A read-modify-write of `n` bytes at the home: one event of S, with the old value (R244, R259). -/
def State.atomicAt (s : State) (t : ThreadId) (va : VAddr) (pa n op v cmp : Nat) : Nat × State :=
  let s := s.place.settle pa n
  let old := s.mem.num pa n
  let new := if n = 4 then (atomicNew op (BitVec.ofNat 32 old) (BitVec.ofNat 32 v) (BitVec.ofNat 32 cmp)).toNat
    else (atomicNew op (BitVec.ofNat 64 old) (BitVec.ofNat 64 v) (BitVec.ofNat 64 cmp)).toNat
  (old, s.writeHere t va pa (bytesOf (BitVec.ofNat 64 new) n) .vol)

/-- An atomic issued: the old value, or zeros under an error reply, on its way to `dest` (R241, R259, R261). -/
def State.issueAtomic (s : State) (t : ThreadId) (va : VAddr) (p : Place) (n op v cmp : Nat) (dest : List Nat) : State :=
  let pc := s.pcAt t
  let pa := placeAddr va p
  match s.errorOf p with
  | some c =>
    (s.place.alterThread t fun x => x.markEmpty dest).issueAccess
      ⟨t, s.coreOf t, dest.map fun w => (w, 0), none, [], some c, pc, va, pa, true, none⟩
  | none =>
    let (old, s) := s.atomicAt t va pa n op v cmp
    if dest = [] then s
    else (s.alterThread t fun x => x.markEmpty dest).issueAccess
      ⟨t, s.coreOf t, splitWords dest (BitVec.ofNat 64 old), none, [], none, pc, va, pa, true, none⟩

/-- atom (R257 to R261) -/
def execAtom (f : MF) (s : State) : Result :=
  let size := accessSize f.sz.toNat
  let n := size / 4
  let r := f.data.toNat
  let isReg := r < 0x40
  let data : List Src := if isReg then [.regs r (if f.ctl = 0xA then 2 * n else n)] else []
  let dsts : List Dst := if isReg then [.regs r n] else []
  runGroup s { guard := f.g, srcs := .pair f.base false :: data, dsts := dsts, inS := true } fun s t vs =>
    let va := globalAddr (arg64 vs 0) f.ofs
    s.withMemory t va size 0x080 needAtomic fun s p =>
      match s.thread t with
      | none => .done s
      | some x =>
        let value (r : Nat) : Nat := if isReg then (if n = 1 then (x.reg r).toNat else (x.pair r).toNat) else 0
        .done (s.issueAtomic t va p size f.ctl.toNat (value r) (value (r + n)) (if isReg then x.words r n else []))

/-- red (R257 to R261) -/
def execRed (f : MF) (s : State) : Result :=
  let size := accessSize f.sz.toNat
  let data : Src := if size = 8 then .pair f.data false else .one f.data false
  runGroup s { guard := f.g, srcs := [.pair f.base false, data], inS := true } fun s t vs =>
    let va := globalAddr (arg64 vs 0) f.ofs
    s.withMemory t va size 0x080 needAtomic fun s p => .done (s.issueAtomic t va p size f.ctl.toNat (arg64 vs 1).toNat 0 [])

/-! kld and kst -/

/-- Scale bytes on their way to a physical k register, from byte `at_` (R172, R174). -/
def State.issueScaleLoad (s : State) (t : ThreadId) (va : VAddr) (p : Place) (n : Nat) (u : Option CacheUse) (k at_ : Nat) : State :=
  let (bs, err, s) := s.loadPlace t va p n u
  s.issueAccess ⟨t, s.coreOf t, [], some k, (List.range n).map fun j => (at_ + j, bs.getD j 0), err, s.pcAt t, va, placeAddr va p, false, none⟩

/-- kld (R172). The spec does not order 0x103 and the address causes for kld and kst: 0x103 goes first, as R174 has it for ldmx. Neither kld nor ldmx waits for an earlier write in flight to its k register, and replies land in any order (DESIGN CHOICE, log 21). -/
def execKld (f : MF) (s : State) : Result :=
  runGroup s { guard := f.g, srcs := [.pair f.base false], inS := true } fun s t vs =>
    match (s.teamOf t).bind fun m => m.kreg f.data.toNat with
    | none => .trap 0x103 [] s
    | some k =>
      let va := globalAddr (arg64 vs 0) f.ofs
      s.withMemory t va 8 0x080 needRead fun s p =>
        .done ((s.setTag (s.coreOf t) k none).issueScaleLoad t va p 8 (cacheUse f) k (8 * laneOf t.t))

/-- kst (R172); 0x103 goes before the address causes (DESIGN CHOICE, log 21). -/
def execKst (f : MF) (s : State) : Result :=
  runGroup s { guard := f.g, srcs := [.pair f.base false], inS := true }
    (withKregs [f.data.toNat] fun s t c ps vs =>
      let va := globalAddr (arg64 vs 0) f.ofs
      s.withMemory t va 8 0x080 needWrite fun s p =>
        let bs := (List.range 8).map fun b => s.kbyte c (ps.headD 0) (8 * laneOf t.t + b)
        .done (s.issueStore t va p bs (cacheUse f) (s.pcAt t)))

/-! Replies -/

/-- What a reply writes: registers, which become full, and k register bytes. The data of an ldmx steps no generation of the block it names, but that of a block that a call has since made its words (R156). A thread that has exited receives no register; the bytes of a k register, which is not its own, still land (R90, R121, R238; DESIGN CHOICE, log 20). -/
def State.landAccess (s : State) (a : Access) : State :=
  let alive := ((s.thread a.t).map fun x => !x.gone).getD false
  let steps := (s.blocksOf a.t (a.words.map Prod.fst)).filter fun o => match o with | .block _ m => a.own != some m | _ => true
  let s := if alive ∧ a.words ≠ [] then (s.alterThread a.t fun x => x.fill a.words).stepGens (s.coreOf a.t) steps else s
  match a.kreg with
  | some k => a.kdata.foldl (fun (s : State) e => s.writeKreg a.core k e.1 [e.2]) s
  | none => s

/-- The value that the replay signature takes in (R392). -/
def Access.value (a : Access) : DWord :=
  match a.words.map Prod.snd with
  | [w] => w.zeroExtend 64
  | [lo, hi] => hi ++ lo
  | _ => 0

/-- A reply delivered: what it writes, the signature of an atomic's result, and the deferred cause of an error reply (R238, R241, R392). -/
def State.reply (s : State) (n : Nat) (a : Access) : State :=
  let s := { s with accesses := Table.drop s.accesses n }
  let s := s.landAccess a
  let s := if a.atomic ∧ a.words ≠ [] then s.alterThread a.t fun x => if x.gone then x else x.sign a.value else s
  match a.err with
  | some c => s.defer a.t ⟨c, a.pc, errorAux a.va a.pa⟩
  | none => s

/-- LOAD_REPLY (R238) -/
def execLoadReply (n : Nat) (s : State) : Result :=
  match Table.find s.accesses n with
  | some a => .next (if a.err.isNone then s.orLater (s.reply n a) else s)
  | none => .next s

/-- ERROR_REPLY (R241) -/
def execErrorReply (n : Nat) (s : State) : Result :=
  match Table.find s.accesses n with
  | some a => .next (if a.err.isSome then s.orLater (s.reply n a) else s)
  | none => .next s

/-! Leases and page counters -/

/-- LEASE_EXPIRY: the copies of a line's sectors in L1 whose leases lie behind the core's ltime, or that have served for 64 advances of it, serve no more and are renewed at the next access (R245). -/
def execLeaseExpiry (c : CoreId) (line : Nat) (s : State) : Result :=
  .next (s.alterCore c fun k =>
    { k with l1 := changeLine k.l1 line fun l =>
        { l with copies := l.copies.map fun e => if e.2.lapsed c k.ltime then (e.1, { e.2 with lease := k.ltime - 1 }) else e } })

/-- The length of an epoch in ns of dtime; exponents below 10 act as 10 (R234). -/
def State.epochLength (s : State) : Nat := 2 ^ max 10 (s.pgmode.toNat / 2 ^ 40 % 256)

/-- PAGE_COUNTER_EPOCH: at each boundary of an epoch every RDC and WRC is halved (R234). -/
def execPageCounterEpoch (s : State) : Result :=
  let next := (s.epochAt / s.epochLength + 1) * s.epochLength
  .next (if next ≤ s.dtime then
      { s with epochAt := next, pages := s.pages.map fun (e : Nat × (Bool × Nat × Nat)) => (e.1, e.2.1, e.2.2.1 / 2, e.2.2.2 / 2) }
    else s)

end Sys2Proof.Machine
end

