-- ==== Sys2Proof/Machine/Matrix.lean ====
section
/-! DEFINITION. Matrix instructions (R198 to R211): the operands of an mma, its checks and the reuse latch, its occupancy, and its update by the analog result model (R36 to R45). -/

namespace Sys2Proof.Machine

/-! Formats -/

/-- NB of a format (R36). -/
def TileFormat.bits (f : TileFormat) : Nat := if f.four then 4 else 8
/-- The segments of an mma's K span (R36). -/
def TileFormat.segments (f : TileFormat) : Nat := if f.four then 4 else if f == .bf16 then 1 else 2
/-- The output columns of an mma (R205). -/
def TileFormat.columns (f : TileFormat) : Nat := if f.four then 256 else 128

/-- The emax of each block of an A row, for a format that has them (R34). -/
def rowSidecars (f : TileFormat) (bs : List Byte) : List Int :=
  if f.blocked then
    (List.range f.segments).map fun s => emaxOf ((List.range 32).map fun k => elemValue f bs (32 * s + k))
  else []

/-- The digit of element k of an A row (R36). -/
def rowDigit (f : TileFormat) (bs : List Byte) (sidecars : List Int) (k : Nat) : Int :=
  match f with
  | .i4x => let b := bs.getD (k / 2) 0; if outlierPair b || b == 0x88 then 0 else int4 (nibbleOf bs k)
  | .i4 => int4 (nibbleOf bs k)
  | .i8 => (bs.getD k 0).toInt
  | .e2m1 => e2m1Digit (nibbleOf bs k)
  | f => alignQ (elemValue f bs k) (sidecars.getD (k / 32) 0)

/-- The outlier pairs of a block of an I4X row (R209). -/
def outlierCount (bs : List Byte) (s : Nat) : Nat :=
  ((List.range 16).filter fun k => outlierPair (bs.getD (16 * s + k) 0)).length

/-! Conversions (R37, R38) -/

/-- Six conversions at most: the first value that appears twice, with the number of conversions taken; otherwise the third smallest, and the fall-back (R38). -/
def firstTwice (v : Nat → Int) : Int × Nat × Bool :=
  match (List.range 5).find? fun t => (List.range (t + 1)).any fun u => v u == v (t + 1) with
  | some t => (v (t + 1), t + 2, false)
  | none => ((((List.range 6).map v).mergeSort (fun a b => decide (a ≤ b))).getD 2 0, 6, true)

/-- n times the value that the converter returns for the ideal count c, where n is the number of conversions under .c4 and 1 under .c6; and whether it fell back. `d t` is what noise adds to conversion t (R37, R38, R44). -/
def convert (c4 : Bool) (rep c : Nat) (d : Nat → Int) : Int × Bool :=
  if c4 then
    let n := 2 ^ rep
    (((List.range n).map fun t => ((4 * ((n * c + 4 * t) / (4 * n)) : Nat) : Int) + d t).foldl (· + ·) 0, false)
  else if rep = 0 then ((c : Int) + d 0, false)
  else let r := firstTwice fun t => (c : Int) + d t; (r.1, r.2.2)

/-- The exponent that undoes the factor n of `convert`. -/
def convertExp (c4 : Bool) (rep : Nat) : Int := if c4 then -(rep : Int) else 0

/-- WT(i) 2^i (R40). -/
def weight (nb i : Nat) : Int := if i + 1 = nb then -(2 ^ i : Int) else 2 ^ i

/-- Bit i of a digit (R36). -/
def digitBit (d : Int) (i : Nat) : Bool := (d % 256).toNat.testBit i

/-- The ideal count of two columns of digits, bit i of the A digits with bit j of the B digits (R37). -/
def idealCount (as bs : List Int) (i j : Nat) : Nat :=
  ((as.zip bs).filter fun p => digitBit p.1 i && digitBit p.2 j).length

/-- The numbers of the conversions of one mma: of slot L, segment s, pass i, bit-column q (1024 data columns, then the 16 reference columns) and conversion t. -/
def convNumber (slot seg pass q t : Nat) : Nat := ((((slot * 4 + seg) * 8 + pass) * 1040) + q) * 6 + t
/-- How many conversion numbers an mma has. -/
def convCount : Nat := 32 * 4 * 8 * 1040 * 6

/-- What noise adds to conversion number k of an mma (R44). -/
def noiseAt (noise : List (Nat × Int)) (k : Nat) : Int := ((noise.filter fun e => e.1 == k).map Prod.snd).foldl (· + ·) 0

/-! Occupancy (R209) -/

/-- The clk of one pass without additions. -/
def passCost (c4 : Bool) (rep : Nat) : Nat := if c4 then 2 ^ rep else 2 * 2 ^ rep

/-- The further conversions that the most demanding converter of a pass needs under .c6.x2 (R209). -/
def furtherOf (noise : List (Nat × Int)) (segments slot pass : Nat) : Nat :=
  (noise.map fun e =>
    let base := e.1 / 6
    if base / 1040 % 8 = pass ∧ base / 1040 / 32 = slot ∧ base / 1040 / 8 % 4 < segments then
      (firstTwice fun t => noiseAt noise (6 * base + t)).2.1 - 2
    else 0).foldl max 0

/-- The occupancy of an mma (R209). -/
def Mma.occupancy (m : Mma) : Nat :=
  let nb := m.format.bits
  let passes := 32 * nb * passCost m.c4 m.rep
  let extra := if !m.c4 && m.rep == 1 && m.noise ≠ [] then
      ((List.range 32).flatMap fun l => (List.range nb).map fun i => 2 * furtherOf m.noise m.format.segments l i).foldl (· + ·) 0
    else 0
  let outs := if m.format == .i4x then
      (m.rows.flatMap fun r => (List.range 4).map fun s => outlierCount (r.arow.flatMap fun w => bytesOf w 4) s - 2).foldl (· + ·) 0
    else 0
  passes + extra + outs

/-- The first mma of an array that has not started, where those before it have ended. -/
def startable : List Mma → Bool
  | [] => false
  | m :: ms => match m.left with
    | none => true
    | some 0 => startable ms
    | some _ => false

/-- The mma of an array with the next one started, which takes its noise. -/
def startNext (noise : List (Nat × Int)) : List Mma → List Mma
  | [] => []
  | m :: ms =>
    match m.left with
    | none =>
      let m := { m with noise := noise.filter fun e => decide (e.1 < convCount) }
      { m with left := some m.occupancy } :: ms
    | some 0 => m :: startNext noise ms
    | some _ => m :: ms

/-- An array's next mma started when it can (R209). Noise comes from the tape of the machine, one stretch of it for each mma (DESIGN CHOICE, log 4). -/
def State.startMma (s : State) (c : CoreId) (a : Nat) : State :=
  let x := s.array c a
  if startable x.mmas then
    { s.setArray c a { x with mmas := startNext s.noise x.mmas } with
      noise := (s.noise.filter fun e => decide (convCount ≤ e.1)).map fun e => (e.1 - convCount, e.2) }
  else s

/-- One clk of the arrays of a core: the mma that run are shorter by one, and those that can start do (R209). -/
def State.tickArrays (s : State) (c : CoreId) : State :=
  let as := (s.core c).arrays.filterMap fun e => if e.2.mmas = [] then none else some e.1
  as.foldl (fun (s : State) a =>
    (s.alterArray c a fun x => { x with mmas := x.mmas.map fun m => { m with left := m.left.map (· - 1) } }).startMma c a) s

/-! Issue -/

/-- The window of a home group (R199). -/
def Team.window (m : Team) (hg : Nat) : Nat × Nat := Table.findD m.windows hg (0, 0)

/-- The format, the fields and the names of an mma. -/
structure MmaOp where
  format : TileFormat
  f      : MmaF
  deriving DecidableEq, Repr

/-- The combinations of R203. -/
def MmaOp.reserved (o : MmaOp) : Bool :=
  let rep := o.f.rep.toNat
  rep == 3 || (!o.f.c4 && rep == 2) || (o.format.four && (o.f.half || o.f.ch || o.f.bsel)) || (o.f.seg && o.format != .bf16)

/-- The half number of an mma; a 4-bit form names the whole array. -/
def MmaOp.half (o : MmaOp) : Nat := if o.f.half then 1 else 0

/-- The names of the B-scale registers (R202). -/
def MmaOp.bNames (o : MmaOp) : List Nat := if o.format.four then (List.range 4).map (o.f.kb.toNat + ·) else [o.f.kb.toNat]

/-- The object that the B-scale tags must hold (R159). -/
def MmaOp.bObject (o : MmaOp) : GenObject := if o.format.four then .whole o.f.arr.toNat else .half o.f.arr.toNat o.half

/-- The reuse latch entry of a thread that this mma can use (R207). -/
def State.latchFor (s : State) (m : Team) (t : Nat) (o : MmaOp) : Option Latch :=
  (Table.find (s.core m.core).latch (32 * m.placeOf t + laneOf t)).filter fun e =>
    e.block == o.f.ablk.toNat && e.format == o.format

/-- The mode request that an mma waits for: the one that it has been held for already, or the pending compute request (R184). -/
def State.mmaRequest (s : State) (m : Team) (asked : Option Asked) (a : Nat) : Option Nat :=
  match asked with
  | some q => if s.requestPending m.core a q.req then some q.req else none
  | none => if m.inField a then (s.array m.core a).computePending else none

/-- The first wait of R206 that has not ended. -/
def State.mmaWait (s : State) (m : Team) (team : Nat) (asked : Option Asked) (o : MmaOp) (active : List Nat) : Option Hold :=
  let a := o.f.arr.toNat
  let x := s.array m.core a
  let mine := m.inField a
  let ks := (active.filterMap fun t => m.kregA t o.f.ka.toNat) ++ o.bNames.filterMap m.kreg
  match s.mmaRequest m asked a with
  | some r => some (.mode m.core a r)
  | none =>
    if ks.any (s.kInFlight m.core) then some (.kregs m.core ks.eraseDups)
    else
      let regs := active.findSome? fun t =>
        if (s.latchFor m t o).isSome then none
        else match s.thread ⟨team, t⟩ with
          | some th => if th.fullRange (16 * o.f.ablk.toNat) 16 then none else some (Hold.words ⟨team, t⟩ (th.words (16 * o.f.ablk.toNat) 16))
          | none => none
      match regs with
      | some h => some h
      | none => if mine && 4 ≤ x.mmas.length then some (.array m.core a) else none

/-- The check of a scale register's tag: none where it matches, otherwise the auxiliary words (R159). -/
def State.tagCheck (s : State) (m : Team) (k : Nat) (want : Tag) : Option (List DWord) :=
  let held := s.tagOf m.core k
  if held = some want then none
  else some [BitVec.ofNat 64 k, (tagBits m held).zeroExtend 64, (tagBits m (some want)).zeroExtend 64]

/-- The checks of R206 for one thread, in order; `granted`, whether the mma has been held for a compute request, whose mode it sees (R184). -/
def State.mmaCheck (s : State) (m : Team) (granted : Bool) (t : Nat) (o : MmaOp) : Option (Cause × List DWord) :=
  let a := o.f.arr.toNat
  let x := s.array m.core a
  if o.reserved then some (0x100, [])
  else match m.kregA t o.f.ka.toNat, o.bNames.mapM m.kreg with
    | some ka, some kb =>
      if !granted && (!m.inField a || !x.sees) then some (0x10C, [])
      else if (if o.format.four then x.fmt0 ≠ some o.format ∨ x.fmt1 ≠ some o.format
          else (if o.half = 0 then x.fmt0 else x.fmt1) ≠ some o.format) then some (0x10D, [])
      else
        let w := m.window (homeGroupOf t)
        if w.2 ≤ w.1 + laneOf t then some (0x10E, [])
        else
          let obj : GenObject := .block (m.placeOf t) o.f.ablk.toNat
          let gen := ((s.latchFor m t o).map Latch.gen).getD (s.gen m.core obj)
          match s.tagCheck m ka ⟨obj, gen⟩ with
          | some aux => some (0x101, aux)
          | none =>
            match kb.findSome? fun k => s.tagCheck m k ⟨o.bObject, s.gen m.core o.bObject⟩ with
            | some aux => some (0x102, aux)
            | none => none
    | _, _ => some (0x103, [])

/-- The A-scale bytes that a thread's row uses, by segment (R205). -/
def State.aScales (s : State) (m : Team) (t : Nat) (o : MmaOp) : List Byte :=
  match m.kregA t o.f.ka.toNat with
  | none => []
  | some k =>
    let base := 4 * laneOf t + (if o.format.four then 0 else if o.f.bsel then 2 else 0) + (if o.format == .bf16 && o.f.seg then 1 else 0)
    (List.range o.format.segments).map fun i => s.kbyte m.core k (base + i)

/-- A thread's A row with the reuse latch applied: the row as captured, and the latch entry afterwards (R206, R207). -/
def State.captureRow (s : State) (m : Team) (team t : Nat) (o : MmaOp) : MmaRow × Option Latch :=
  let used := s.latchFor m t o
  let row := match used with
    | some e => e.row
    | none => ((s.thread ⟨team, t⟩).map fun x => (List.range 16).map fun k => x.reg (16 * o.f.ablk.toNat + k)).getD []
  let sidecars := match used with
    | some e => e.sidecars
    | none => rowSidecars o.format (row.flatMap fun w => bytesOf w 4)
  let gen := match used with
    | some e => e.gen
    | none => s.gen m.core (.block (m.placeOf t) o.f.ablk.toNat)
  (⟨t, laneOf t, m.accBase + (m.window (homeGroupOf t)).1 + laneOf t, row, sidecars, s.aScales m t o⟩,
   if o.f.keep then some ⟨row, o.f.ablk.toNat, o.format, sidecars, gen⟩ else none)

/-- The latch entry of a thread replaced (R207). -/
def State.setLatch (s : State) (m : Team) (t : Nat) (e : Option Latch) : State :=
  s.alterCore m.core fun x =>
    let k := 32 * m.placeOf t + laneOf t
    { x with latch := match e with | some v => Table.put x.latch k v | none => Table.drop x.latch k }

/-- The mma that the threads that passed form: captured, in its array's order and in the order of its rows; double markers of A rows set FMTANOM (R200, R206, R211). -/
def State.formMma (s : State) (m : Team) (g : Group) (o : MmaOp) (passed : List Nat) : State :=
  let caps := passed.map fun t => (t, s.captureRow m g.team t o)
  let rows := caps.map fun c => c.2.1
  let a := o.f.arr.toNat
  let id := s.newId
  let bscales := o.bNames.map fun n => match m.kreg n with | some k => s.kregBytes m.core k | none => []
  let new : Mma := ⟨id, g.team, a, o.format, o.f.half, o.f.seg, o.f.ch, o.f.c4, o.f.rep.toNat, rows, bscales, g.pc, none, []⟩
  let s := caps.foldl (fun (s : State) c => s.setLatch m c.1 c.2.2) s
  let join (r : ModeReq) : ModeReq := match s.cur with
    | some n => if r.groups.contains n then { r with mmas := r.mmas ++ [id] } else r
    | none => r
  let s := (s.alterArray m.core a fun x => { x with mmas := x.mmas ++ [new], requests := x.requests.map join }).bump
  let s := s.alterCore m.core fun x => { x with accq := x.accq ++ [(id, .update id (rows.map MmaRow.row))] }
  let s := (s.startMma m.core a).countFor ⟨g.team, passed.headD 0⟩ 0x0A 1
  rows.foldl (fun (s : State) r =>
    if o.format == .i4x && doubleMarker (r.arow.flatMap fun w => bytesOf w 4) then s.setAnomaly ⟨g.team, r.t⟩ else s) s

/-- An mma form: the waits, then the checks of each thread, then one mma of the threads that pass (R206). -/
def runMma (o : MmaOp) (s : State) : Result :=
  runWhole s { guard := o.f.g } fun s n g active =>
    match s.team g.team with
    | none => s
    | some m =>
      match if active = [] then none else s.mmaWait m g.team g.asked o active with
      | some h =>
        let s := match h with | .mode _ a r => s.askMode n a r | _ => s
        s.holdGroup n h
      | none =>
        let checks := active.map fun t => (t, s.mmaCheck m g.asked.isSome t o)
        let s := if active = [] then s
          else s.noteChecked m.core (o.bObject :: active.map fun t => .block (m.placeOf t) o.f.ablk.toNat)
        let passed := checks.filterMap fun c => match c.2 with | none => some c.1 | some _ => none
        let s := if passed = [] then s else s.formMma m g o passed
        let s := checks.foldl (fun (s : State) c => match c.2 with | some x => s.trapIn g c.1 x.1 x.2 | none => s) s
        (passed.foldl (fun (s : State) t => (s.progress ⟨g.team, t⟩).markDone n t) (s.answerMode n m.core o.f.arr.toNat))

/-- mma.i4x (R202) -/
def execMmaI4x (f : MmaF) (s : State) : Result := runMma ⟨.i4x, f⟩ s
/-- mma.i4 (R202) -/
def execMmaI4 (f : MmaF) (s : State) : Result := runMma ⟨.i4, f⟩ s
/-- mma.i8 (R202) -/
def execMmaI8 (f : MmaF) (s : State) : Result := runMma ⟨.i8, f⟩ s
/-- mma.e4m3 (R202) -/
def execMmaE4m3 (f : MmaF) (s : State) : Result := runMma ⟨.e4m3, f⟩ s
/-- mma.e5m2 (R202) -/
def execMmaE5m2 (f : MmaF) (s : State) : Result := runMma ⟨.e5m2, f⟩ s
/-- mma.e2m1 (R202) -/
def execMmaE2m1 (f : MmaF) (s : State) : Result := runMma ⟨.e2m1, f⟩ s
/-- mma.bf16 (R202) -/
def execMmaBf16 (f : MmaF) (s : State) : Result := runMma ⟨.bf16, f⟩ s

/-! The update (R40, R41, R208) -/

/-- What an mma reads of its tile. -/
structure Tile where
  cells    : Sparse 8
  outliers : Sparse 8
  sidecars : Sparse 16
  odd      : Sparse 8

/-- The first tile row of segment s of an mma (R205). -/
def Mma.firstRow (m : Mma) (s : Nat) : Nat :=
  if m.format.four then 32 * s
  else 64 * (if m.half then 1 else 0) + 32 * (if m.format == .bf16 then (if m.seg then 1 else 0) else s)

/-- The number of segment s among the blocks of its half. -/
def Mma.blockOf (m : Mma) (s : Nat) : Nat := if m.format == .bf16 then (if m.seg then 1 else 0) else s

/-- The digit of tile row r, column n (R36). -/
def Tile.digit (x : Tile) (four : Bool) (r n : Nat) : Int :=
  if four then int4 ((x.cells.get (128 * r + n / 2)).toNat / 16 ^ (n % 2)) else (x.cells.get (128 * r + n)).toInt

/-- The value of a cell of an I4X tile (R24, R276). -/
def Tile.valueI4x (x : Tile) (r n : Nat) : Num :=
  let o := x.outliers.get (128 * r + n / 2)
  if o = 0 then Num.ofInt (x.digit true r n) else i4xValue o.toNat (n % 2 == 1)

/-- SIDE of a segment of mma.i4x: the products of the values less those of the digits (R40). -/
def sideOf (x : Tile) (bs : List Byte) (r0 k0 n : Nat) : Num :=
  (List.range 32).foldl (fun acc k =>
    let va := elemValue .i4x bs (k0 + k)
    let vb := x.valueI4x (r0 + k) n
    let d := Num.ofInt (-(rowDigit .i4x bs [] (k0 + k) * x.digit true (r0 + k) n))
    addNum .rne acc (addNum .rne (mulNum va vb) d)) (.zero false)

/-- X of a block: that of the format, or emax - 6 (R36). -/
def blockExp (f : TileFormat) (emax : Int) : Int :=
  match f with
  | .e2m1 => -1
  | f => if f.blocked then emax - 6 else 0

/-- The segment partial of R40, and the segments whose converters fell back. `slot` is the lane of the row. -/
def Mma.partialSum (m : Mma) (x : Tile) (slot : Nat) (bs : List Byte) (as : List Int) (s n : Nat) : Num × Bool :=
  let nb := m.format.bits
  let b := (List.range 32).map fun k => x.digit m.format.four (m.firstRow s + k) n
  let pairs := (List.range nb).flatMap fun i => (List.range nb).map fun j => (i, j)
  let cs := pairs.map fun (p : Nat × Nat) =>
    (p, convert m.c4 m.rep (idealCount as b p.1 p.2) fun t => noiseAt m.noise (convNumber slot s p.1 (nb * n + p.2) t))
  let sum := cs.foldl (fun (acc : Int) c => acc + weight nb c.1.1 * weight nb c.1.2 * c.2.1) 0
  let side := if m.format == .i4x then sideOf x bs (m.firstRow s) (32 * s) n else .zero false
  (addNum .rne (Num.of sum (convertExp m.c4 m.rep)) side, cs.any fun c => c.2.2)

/-- The new value of one column of a row, and whether a converter fell back (R41). -/
def Mma.column (m : Mma) (x : Tile) (r : MmaRow) (bs : List Byte) (digits : List (List Int)) (oddRow : Bool) (n : Nat) (acc : Word) : Word × Bool :=
  let segs := List.range m.format.segments
  let hb := if m.half then 256 else 0
  let sb (s : Nat) : Byte := if m.format.four then (m.bscales.getD s []).getD n 0 else (m.bscales.getD 0 []).getD (128 * m.blockOf s + n) 0
  let sa (s : Nat) : Byte := r.scales.getD s 0
  let oddCol := !m.format.four && segs.any fun s => x.odd.get (hb + 128 * m.blockOf s + n) != 0
  let parts := segs.map fun s => (s, m.partialSum x r.lane bs (digits.getD s []) s n)
  let fell := parts.any fun p => p.2.2
  if (segs.any fun s => sa s == 0xFF || sb s == 0xFF) || oddRow || oddCol || (valF32 acc).isNan then (0x7FC00000, fell)
  else
    let t := parts.foldl (fun (t : Num) p =>
      let s := p.1
      let e := blockExp m.format (r.sidecars.getD s 0) + blockExp m.format (x.sidecars.get (hb + 128 * m.blockOf s + n)).toInt
      addNum .rne t (mulNum (mulNum p.2.1 (mulNum (e5m3v (sa s)) (e5m3v (sb s)))) (Num.of 1 e))) (.zero false)
    (round32 .rne (addNum .rne (valF32 acc) t), fell)

/-- The columns of one row of the accumulator after an mma, and whether a data conversion fell back (R41, R205). -/
def Mma.rowUpdate (m : Mma) (x : Tile) (acc : Sparse 32) (r : MmaRow) : Sparse 32 × Bool :=
  let bs := r.arow.flatMap fun w => bytesOf w 4
  let segs := List.range m.format.segments
  let digits := segs.map fun s => (List.range 32).map fun k => rowDigit m.format bs r.sidecars (32 * s + k)
  let oddRow := m.format.blocked && (List.range (32 * m.format.segments)).any fun k => oddNum (elemValue m.format bs k)
  let c0 := if m.format.four then 0 else if m.ch then 128 else 0
  (List.range m.format.columns).foldl (fun (a : Sparse 32 × Bool) n =>
    let key := 256 * r.row + c0 + n
    let v := m.column x r bs digits oddRow n (acc.get key)
    (a.1.set key v.1, a.2 || v.2)) (acc, false)

/-- Whether noise makes a reference column of a slot miscompare, or fall back (R38, R42). -/
def Mma.miscompares (m : Mma) (slot : Nat) : Bool :=
  m.noise.any fun e =>
    let base := e.1 / 6
    let q := base % 1040
    let seg := base / 1040 / 8 % 4
    decide (1024 ≤ q ∧ base / 1040 / 32 = slot ∧ seg < m.format.segments ∧ base / 1040 % 8 < m.format.bits)
      && (let c := 2 * (q - 1024) + 1
          let r := convert m.c4 m.rep c fun t => noiseAt m.noise (6 * base + t)
          r.2 || r.1 != (convert m.c4 m.rep c fun _ => 0).1)

/-- ANALOG set for a team, with the deferred cause 0x109 of the thread that observed it under the trap enable (R43, R211). -/
def State.analogEvent (s : State) (team : Nat) (pc : VAddr) (t : Option Nat) : State :=
  let ate := ((s.team team).map Team.ate).getD false
  let s := s.alterTeam team fun x => { x with analog := true }
  let s := s.countFor ⟨team, t.getD 0⟩ 0x0B 1
  match t with
  | some u => if ate then s.defer ⟨team, u⟩ ⟨0x109, pc, []⟩ else s
  | none => s

/-- The update of an mma: every row in ascending home-lane order, then the ANALOG events of its slots (R208, R211). -/
def State.updateMma (s : State) (c : CoreId) (m : Mma) : State :=
  let x := s.array c m.array
  let tile : Tile := ⟨x.cells, x.outliers, x.sidecars, x.odd⟩
  let r := m.rows.foldl (fun (a : Sparse 32 × List (Nat × Bool)) row =>
    let v := m.rowUpdate tile a.1 row
    (v.1, a.2 ++ [(row.lane, v.2)])) ((s.core c).acc, [])
  let s := s.alterCore c fun k => { k with acc := r.1 }
  (List.range 32).foldl (fun (s : State) l =>
    let thread := (m.rows.find? fun row => row.lane == l).map MmaRow.t
    if m.miscompares l || r.2.any fun e => e.1 == l && e.2 then s.analogEvent m.team m.pc thread else s) s

/-! The order of accumulator effects (R200) -/

/-- The physical rows of an effect. -/
def AccEffect.rows : AccEffect → List Nat
  | .update _ rs => rs
  | .read _ r .. => [r]
  | .write _ r .. => [r]
  | .store _ r .. => [r]

/-- Whether an effect is the oldest on each of its rows (R200). -/
def accFirst (q : List (Nat × AccEffect)) (n : Nat) : Bool :=
  match Table.find q n with
  | none => false
  | some e => ((q.takeWhile fun x => x.1 != n).all fun x => !x.2.rows.any fun r => e.rows.contains r)

/-- The image of a team's matrix status (R218). -/
def State.mstatImage (s : State) (n : Nat) : Word :=
  match s.team n with
  | none => 0
  | some m =>
    let pend := ((s.core m.core).arrays.map fun e => (e.2.mmas.filter fun x => x.team == n).length).foldl (· + ·) 0
    BitVec.ofNat 32 ((if m.ate then 2 ^ 16 else 0) + min pend 255 * 256 + (if m.fmtanom then 2 else 0) + (if m.analog then 1 else 0))

/-- Whether an mma of a team with a number below `upto` has not performed its update (R218). -/
def State.mmaBefore (s : State) (team upto : Nat) : Bool :=
  match s.team team with
  | none => false
  | some m => (s.core m.core).arrays.any fun e => e.2.mmas.any fun x => x.team == team && decide (x.id < upto)

/-- The groups that mstat.wait holds go on when the mma before it are updated, with the image in their threads (R218). -/
def State.wakeUpdates (s : State) : State :=
  s.groups.foldl (fun (s : State) e =>
    match e.2.hold with
    | some (.updates team upto d) =>
      if s.mmaBefore team upto then s
      else e.2.engaged.foldl (fun (s : State) t =>
        let v := s.mstatImage team
        ((if d.toNat < 0x40 then s.writeRegs ⟨team, t⟩ [(d.toNat, v)] else s)).finish ⟨team, t⟩) s
    | _ => s) s

/-- MMA_UPDATE: an mma of an array whose occupancy has ended and that is first on all its rows performs its update (R208, R210). -/
def execMmaUpdate (c : CoreId) (a : Nat) (s : State) : Result :=
  let x := s.array c a
  match x.mmas.find? fun m => m.left == some 0 && accFirst (s.core c).accq m.id with
  | none => .next s
  | some m =>
    let u := s.updateMma c m
    let u := u.alterArray c a fun x => { x with mmas := x.mmas.filter fun y => y.id != m.id }
    let u := u.alterCore c fun k => { k with accq := Table.drop k.accq m.id }
    .next (s.orLater u.wakeUpdates)

end Sys2Proof.Machine
end

