-- ==== Sys2Proof/Machine/Accum.lean ====
section
/-! DEFINITION. Accumulator instructions (R212 to R217) and the matrix status (R218, R219). -/

namespace Sys2Proof.Machine

/-- The elements that a register holds (R212). -/
def perRegister (type : Nat) : Nat := if type = 4 ∨ type = 0 then 1 else if type = 5 ∨ type = 6 then 2 else 4

/-- The row and column checks of R212: the physical row, or a cause. -/
def Team.accRow (m : Team) (t : Nat) (r : Word) : Except Cause Nat :=
  let w := m.window (homeGroupOf t)
  if w.2 ≤ w.1 + r.toNat then .error 0x10E else .ok (m.accBase + w.1 + r.toNat)

/-- The column range check: c a multiple of E with c + E at most 256. -/
def columnsOk (c e : Nat) : Bool := c % e == 0 && decide (c + e ≤ 256)

/-- An effect on accumulator rows put in the core's order of issue (R200). -/
def State.queueAcc (s : State) (c : CoreId) (e : AccEffect) : State :=
  (s.alterCore c fun x => { x with accq := x.accq ++ [(s.newId, e)] }).bump

/-- One element of acrd (R213). -/
def accElement (type rnd : Nat) (scale : Option Word) (x : Word) : Nat :=
  let mode := roundModeOf (BitVec.ofNat 2 rnd)
  let y := match scale with
    | some s => mulNum (valF32 x) (valF32 s)
    | none => valF32 x
  match type with
  | 4 => if scale.isNone then x.toNat else round fp32 mode y
  | 5 => round fp16 mode y
  | 6 => round bf16 mode y
  | 7 => narrow e4m3 y
  | _ => narrow e5m2 y

/-- The bytes of the elements that an acrd or acst reads (R23, R213). -/
def State.accBytes (s : State) (c : CoreId) (row col type regs rnd : Nat) (scale : Option Word) : List Byte :=
  let p := perRegister type
  (List.range (regs * p)).flatMap fun i =>
    bytesOf (BitVec.ofNat 32 (accElement type rnd scale ((s.core c).acc.get (256 * row + col + i)))) (4 / p)

/-- The sources of an accumulator instruction in order: row, column, scale. -/
def acSources (f : AcF) : List Src := [.one f.ra false, .one f.ca false] ++ if f.sce then [.one f.sc false] else []
/-- The scale of an accumulator instruction. -/
def acScale (f : AcF) (vs : List DWord) : Option Word := if f.sce then some (arg vs 2) else none

/-- The row and the columns of a thread's accumulator access, checked in the order of R212. -/
def withAcc (e : Nat) (body : State → ThreadId → Team → Nat → Nat → List DWord → Attempt) : State → ThreadId → List DWord → Attempt :=
  fun s t vs =>
    match s.teamOf t with
    | none => .done s
    | some m =>
      match m.accRow t.t (arg vs 0) with
      | .error c => .trap c [] s
      | .ok row =>
        let c := (arg vs 1).toNat
        if columnsOk c e then body s t m row c vs else .trap 0x10F [] s

/-- acrd: the registers are empty from issue until the read is performed (R213). -/
def execAcrd (f : AcF) (s : State) : Result :=
  runGroup s { guard := f.g, srcs := acSources f, dsts := [.regs f.dr.toNat f.regs] }
    (withAcc (f.regs * perRegister f.type.toNat) fun s t m row c vs =>
      match s.thread t with
      | none => .done s
      | some x =>
        let ws := x.words f.dr.toNat f.regs
        .done ((s.emptyRegs t f.dr.toNat f.regs).queueAcc m.core
          (.read t row c f.type.toNat f.regs f.rnd.toNat (acScale f vs) ws)))

/-- acwr: the values are read at issue (R214). -/
def execAcwr (f : AcF) (s : State) : Result :=
  runGroup s { guard := f.g, srcs := acSources f ++ [.regs f.dr.toNat f.regs] }
    (withAcc f.regs fun s t m row c _ =>
      match s.thread t with
      | none => .done s
      | some x => .done (s.queueAcc m.core (.write t.team row c ((List.range f.regs).map fun k => x.reg (f.dr.toNat + k)) f.add)))

/-- acst: translated at issue, where an error reply that the walk met answers it, performed under R200, a store of the thread at its place in program order (R215). -/
def execAcst (f : AcF) (s : State) : Result :=
  runGroup s { guard := f.g, srcs := .pair f.dr false :: acSources f, inS := true } fun s t vs =>
    withAcc (f.regs * perRegister f.type.toNat) (fun s t m row c ws =>
      let va := addressOf (arg64 vs 0)
      s.withGlobal t va (min (4 * f.regs) 64) 0x080 (needStore (4 * f.regs)) fun s g =>
        let queued (pa : Nat) : Attempt :=
          .done (s.queueAcc m.core (.store t row c f.type.toNat f.regs f.rnd.toNat (acScale f ws) va pa (s.pcAt t)))
        match g with
        | .hbm pa => queued pa
        | .window d off => queued (windowAddr d off)
        | .failed cause => .done (s.issueStore t va (.error cause) [] (some (.normal 2)) (s.pcAt t))) s t (vs.drop 1)

/-- aczero (R216) -/
def execAczero (f : XF) (s : State) : Result :=
  runGroup s { guard := f.g, srcs := [.one f.a false] } fun s t vs =>
    match s.teamOf t with
    | none => .done s
    | some m =>
      match m.accRow t.t (arg vs 0) with
      | .error c => .trap c [] s
      | .ok row =>
        let c := if f.lo = 2 then 128 else 0
        let n := if f.lo = 0 then 256 else 128
        .done (s.queueAcc m.core (.write t.team row c (List.replicate n 0) false))

/-- acwin (R217) -/
def execAcwin (f : XF) (s : State) : Result :=
  runGroup s { guard := f.g, srcs := [.one f.a false, .one f.b false, .one f.c false] } fun s t vs =>
    match s.teamOf t with
    | none => .done s
    | some m =>
      let g := (arg vs 0).toNat
      let b := (arg vs 1).toNat
      let l := (arg vs 2).toNat
      if t.t ≠ 0 then .trap 0x110 [] s
      else if m.size ≤ 32 * g ∨ l < b ∨ m.nacc < l then .trap 0x111 [] s
      else .done (s.alterTeam t.team fun m => { m with windows := Table.put m.windows g (b, l) })

/-! The matrix status -/

/-- The image given to a thread, and what the instruction then does to the status (R218). -/
def mstatStep (f : XF) (then_ : Team → Word → Team) (s : State) : Result :=
  let useA := f.lo == 1 || f.lo == 2
  runGroup s { guard := f.g, srcs := if useA then [.one f.a false] else [], dsts := [.one f.d] } fun s t vs =>
    if f.lo = 2 ∧ t.t ≠ 0 then .trap 0x110 [] s
    else
      let v := s.mstatImage t.team
      let s := if f.d.toNat < 0x40 then s.writeRegs t [(f.d.toNat, v)] else s
      .done (s.alterTeam t.team fun m => then_ m (arg vs 0))

/-- mstat.wait: the group is held until the mma of the team issued before it are updated (R218). -/
def mstatWait (f : XF) (s : State) : Result :=
  runWhole s { guard := f.g, dsts := [.one f.d] } fun s n g active =>
    let upto := s.newId
    if s.mmaBefore g.team upto && active ≠ [] then
      let s := active.foldl (fun (s : State) t => s.progress ⟨g.team, t⟩) s
      s.alterGroup n fun g => { g with engaged := g.engaged ++ active, hold := some (.updates g.team upto f.d) }
    else
      active.foldl (fun (s : State) t =>
        let v := s.mstatImage g.team
        ((if f.d.toNat < 0x40 then s.writeRegs ⟨g.team, t⟩ [(f.d.toNat, v)] else s).progress ⟨g.team, t⟩).markDone n t) s

/-- mstat (R218, R219) -/
def execMstat (f : XF) (s : State) : Result :=
  if f.lo = 3 then mstatWait f s
  else mstatStep f (fun m a =>
    if f.lo = 1 then { m with analog := m.analog && !a.getLsbD 0, fmtanom := m.fmtanom && !a.getLsbD 1 }
    else if f.lo = 2 then { m with ate := a.getLsbD 16 }
    else m) s

end Sys2Proof.Machine
end

