-- ==== Sys2Proof/Machine/FieldRole.lean ====
section
/-! DEFINITION. Arrays that enter and leave the field role while a team runs: resize (R190), the class-0 ties (R187, R232), and result buffers (R339, R340). -/

namespace Sys2Proof.Machine

/-- The arrays that a mask names. -/
def maskArrays (v : Word) : NatSet := bitsOf v.toNat 32

/-- Whether everything of a team on an array is performed: accesses, engine commands, amode, mma and compute-mode loads (R190). -/
def State.arrayIdle (s : State) (c : CoreId) (a team : Nat) : Bool :=
  let x := s.array c a
  x.waiters.isEmpty && x.requests.isEmpty && x.mmas.isEmpty && x.loads.isEmpty
    && !(s.commands.any fun e => decide (e.2.core = c ∧ e.2.t.team = team) && e.2.usesArray a && !e.2.completed)
    && !(s.groups.any fun e => decide (e.2.team = team) && e.2.asked.any fun g => g.array == a)

/-- A resize, hndpass or hndfree begun: its thread waits for RESIZE_COMPLETE. -/
def State.beginResize (s : State) (team : Nat) (r : Resizing) : State :=
  s.alterTeam team fun m => { m with resizing := m.resizing ++ [r] }

/-- A status written at once to the destination of resize. -/
def State.resizeStatus (s : State) (t : ThreadId) (d : Byte) (v : Word) : State :=
  if d.toNat < 0x40 then s.writeRegs t [(d.toNat, v)] else s

/-- resize.grow and resize.shrink (R190): refused at once, or under way until RESIZE_COMPLETE. -/
def execResize (f : XF) (s : State) : Result :=
  runGroup s { guard := f.g, srcs := [.one f.a false], dsts := [.one f.d] } fun s t vs =>
    match s.teamOf t, s.thread t with
    | some m, some x =>
      let dest := x.destWord f.d
      let mask := maskArrays (arg vs 0)
      if t.t ≠ 0 then .trap 0x10B [] s
      else if f.lo = 0 then
        let g := mask.filter fun a => !m.inField a
        let cache := s.cacheArrays m.core
        if (g.any fun a => !cache.contains a) || decide (cache.length < g.length + 2) then .done (s.resizeStatus t f.d 1)
        else
          let s := g.foldl (fun (s : State) a => (s.prepare m.core a).own m.core a t.team) s
          .engage (s.beginResize t.team ⟨t.t, 0, g, dest⟩)
      else
        let g := mask.filter m.inField
        if g.any fun a => (s.array m.core a).tie.isSome then .done (s.resizeStatus t f.d 2)
        else
          let s := s.alterTeam t.team fun m => { m with fm := m.fm.filter fun a => !g.contains a }
          .engage (s.beginResize t.team ⟨t.t, 1, g, dest⟩)
    | _, _ => .done s

/-- What a completed resize, hndpass or hndfree does to its arrays (R190, R340). -/
def State.applyResize (s : State) (m : Team) (r : Resizing) : State :=
  match r.kind with
  | 0 => s
  | 2 =>
    r.arrays.foldl (fun (s : State) a =>
      (s.alterArray m.core a fun x => { x with owner := none, passed := some m.cn }).stepGens m.core [.half a 0, .half a 1, .whole a]) s
  | _ => r.arrays.foldl (fun (s : State) a => s.releaseArray m.core a) s

/-- RESIZE_COMPLETE: the oldest resize of a team whose waits have ended completes, and its thread goes on (R190, R340). -/
def execResizeComplete (team : Nat) (s : State) : Result :=
  match s.team team with
  | none => .next s
  | some m =>
    match m.resizing.find? fun r => r.kind == 0 || r.arrays.all fun a => s.arrayIdle m.core a team with
    | none => .next s
    | some r =>
      let u := (s.applyResize m r).alterTeam team fun m =>
        { m with
          resizing := m.resizing.filter fun q => decide (q ≠ r)
          fm := if r.kind = 0 then NatSet.addAll m.fm r.arrays else m.fm }
      let t : ThreadId := ⟨team, r.t⟩
      let u := match r.dest with | some w => u.fillWords t [(w, 0)] | none => u
      .next (s.orLater (u.finish t))

/-! Class-0 ties -/

/-- Whether a context ties array `a` of a core by range register `n` (R230, R232). -/
def Context.tiesBy (x : Context) (c : CoreId) (a n : Nat) : Bool :=
  match x.range n with
  | some (_, _, core, 0, mask) => decide (coreOfSource core = c) && mask.testBit a
  | _ => false
/-- Whether a context ties array `a` of a core by any range register. -/
def Context.ties (x : Context) (c : CoreId) (a : Nat) : Bool := (List.range 16).any fun n => x.tiesBy c a n

/-- A pending tie of a context by a range register takes an array, if the array is in the cache role and at least two others stay there; the array is prepared (R232). -/
def State.takeTie (s : State) (cn n a : Nat) : State :=
  match (s.context cn).bind fun x => (x.range n).map fun r => (x, r.2.2.1) with
  | none => s
  | some (x, src) =>
    let c := coreOfSource src
    if x.tiesBy c a n && (s.array c a).isCache && decide (a < Config.arrays ∧ 2 < (s.cacheArrays c).length) then
      (s.prepare c a).alterArray c a fun y => { y with tie := some cn }
    else s

/-- A context put among others in the order of their numbers. -/
def insertByNumber (e : Nat × Context) : List (Nat × Context) → List (Nat × Context)
  | [] => [e]
  | f :: fs => if e.1 ≤ f.1 then e :: f :: fs else f :: insertByNumber e fs

/-- The ties that the range registers of the live contexts ask for: context, register, array, the lower context first. -/
def State.tiesWanted (s : State) : List (Nat × Nat × Nat) :=
  (s.contexts.foldr insertByNumber []).flatMap fun e => (List.range 16).flatMap fun n =>
    match if e.2.v then e.2.range n else none with
    | some (_, _, _, 0, mask) => (bitsOf mask 32).map fun a => (e.1, n, a)
    | _ => []

/-- Every tie that can take its array takes it: a tie does so at the first moment its conditions hold, and the machine looks for them at the end of each step. Of two contexts that wait for one array the lower number goes first (R232; DESIGN CHOICE, log 21). -/
def State.takeTies (s : State) : State := s.tiesWanted.foldl (fun s e => s.takeTie e.1 e.2.1 e.2.2) s

/-- CLASS0_TIE_TAKE (R232) -/
def execClass0TieTake (cn n a : Nat) (s : State) : Result := .next (s.takeTie cn n a)

/-- The ties of a context that no range register of it makes any more end: the array returns to the cache role as soon as no resident team names it (R187, R231). -/
def State.endTies (s : State) (cn : Nat) : State :=
  let live (c : CoreId) (a : Nat) : Bool := match s.context cn with | some x => x.ties c a | none => false
  { s with cores := s.cores.map fun (e : CoreId × Core) =>
      (e.1, { e.2 with arrays := e.2.arrays.map fun (y : Nat × FieldArray) =>
        (y.1, if y.2.tie = some cn ∧ !live e.1 y.1 then
            (if y.2.owner.isSome then { y.2 with tie := none } else { FieldArray.init with serial := y.2.serial })
          else y.2) }) }

/-! Result buffers -/

/-- The handle of a result buffer (R339). -/
def bufferHandle (gen : Byte) (c : CoreId) (a : Nat) : DWord := BitVec.ofNat 64 (gen.toNat * 2 ^ 56 + c.source * 256 + a)

/-- The core, array and serial that a handle names; none where a field that is 0 is not (R339). -/
def bufferOf (h : DWord) : Option (CoreId × Nat × Byte) :=
  if h.toNat / 2 ^ 20 % 2 ^ 36 ≠ 0 ∨ h.toNat / 32 % 8 ≠ 0 then none
  else some (coreOfSource (h.toNat / 256 % 4096), h.toNat % 32, BitVec.ofNat 8 (h.toNat / 2 ^ 56))

/-- hndalloc (R340) -/
def execHndalloc (f : XF) (s : State) : Result :=
  runGroup s { guard := f.g, srcs := [.one f.a false], dsts := [.pair f.d] } fun s t vs =>
    match s.teamOf t with
    | none => .done s
    | some m =>
      let a := (arg vs 0).toNat
      let x := s.array m.core a
      if !m.inField a || x.tie.isSome || x.compute || x.requests ≠ [] || x.buffer then .trap 0x182 [] s
      else
        let s := s.alterArray m.core a fun x => { x with serial := x.serial + 1, buffer := true }
        .done (s.writeRegs t (writePair f.d (bufferHandle (x.serial + 1) m.core a)).regs)

/-- Whether a handle names a buffer of the team, or a passed one on its core of its context (R340). -/
def State.bufferNamed (s : State) (m : Team) (h : DWord) (passedToo : Bool) : Option (Nat × Bool) :=
  match bufferOf h with
  | none => none
  | some (c, a, gen) =>
    let x := s.array c a
    if c ≠ m.core ∨ !x.buffer ∨ x.serial ≠ gen then none
    else if m.inField a then some (a, false)
    else if passedToo && x.passed == some m.cn && x.claim.isNone then some (a, true)
    else none

/-- hndpass and hndfree begin as resize.shrink does: from its issue on the team cannot reach the array, and a passed buffer that is freed cannot be claimed or freed again (R340). -/
def handOver (kind : Nat) (f : XF) (s : State) : Result :=
  runGroup s { guard := f.g, srcs := [.pair f.a false] } fun s t vs =>
    match s.teamOf t with
    | none => .done s
    | some m =>
      match s.bufferNamed m (arg64 vs 0) (kind == 3) with
      | none => .trap 0x182 [] s
      | some (a, isPassed) =>
        let s := s.alterTeam t.team fun m => { m with fm := m.fm.filter fun b => decide (b ≠ a) }
        let s := if isPassed then s.alterArray m.core a fun x => { x with buffer := false } else s
        .engage (s.beginResize t.team ⟨t.t, kind, [a], none⟩)

/-- hndpass (R340) -/
def execHndpass (f : XF) (s : State) : Result := handOver 2 f s
/-- hndfree (R340) -/
def execHndfree (f : XF) (s : State) : Result := handOver 3 f s

end Sys2Proof.Machine
end

