-- ==== Sys2Proof/Machine/Launch.lean ====
section
/-! DEFINITION. Launch records (R326, R327): how they are read, what makes one refused (R328), the dies of the teams (R322), the curves (R324), and the device's own writes to global memory (R427). -/

namespace Sys2Proof.Machine

/-! Fields of an image -/

/-- The number that `n` bytes of an image hold from byte `a` (R2). -/
def field (bs : List Byte) (a n : Nat) : Nat := natOfBytes ((bs.drop a).take n)
/-- Whether `n` bytes of an image from byte `a` are 0. -/
def zeroField (bs : List Byte) (a n : Nat) : Bool := ((bs.drop a).take n).all (· == 0)

/-- The declarations of channels in a record (R326). -/
def chanOf (bs : List Byte) (i : Nat) : ChanDecl :=
  let a := 280 + 12 * i
  ⟨field bs a 1, field bs (a + 1) 1, field bs (a + 2) 1, field bs (a + 4) 2, field bs (a + 8) 4⟩

/-- The record that an image holds (R326). -/
def recordOf (bs : List Byte) : Record where
  entry := BitVec.ofNat 64 (field bs 0 8)
  report := BitVec.ofNat 64 (field bs 8 8)
  gx := field bs 16 2
  gy := field bs 18 2
  gz := field bs 20 2
  cr := field bs 22 1
  cc := field bs 23 1
  flags := BitVec.ofNat 32 (field bs 24 4)
  fm := BitVec.ofNat 32 (field bs 28 4)
  nacc := field bs 32 2
  nk := field bs 34 1
  cb := field bs 35 1
  nbar := field bs 36 2
  nch := field bs 38 1
  range := BitVec.ofNat 64 (field bs 40 8)
  nrange := field bs 48 2
  roles := (List.range 4).map fun j =>
    (field bs (56 + 16 * j) 2, field bs (58 + 16 * j) 2, field bs (60 + 16 * j) 2, BitVec.ofNat 64 (field bs (64 + 16 * j) 8))
  consts := (List.range 16).map fun k => BitVec.ofNat 32 (field bs (120 + 4 * k) 4)
  aff := (List.range 4).map fun k => BitVec.ofNat 64 (field bs (184 + 8 * k) 8)
  perm := (List.range 64).map fun k => field bs (216 + k) 1
  chans := (List.range (field bs 38 1)).map (chanOf bs)

/-! FLAGS (R326) -/
def Record.flag (r : Record) (lo n : Nat) : Nat := r.flags.toNat / 2 ^ lo % 2 ^ n
def Record.cor (r : Record) : Bool := r.flag 0 1 == 1
def Record.rst (r : Record) : Bool := r.flag 1 1 == 1
def Record.xdie (r : Record) : Bool := r.flag 2 1 == 1
def Record.pri (r : Record) : Nat := r.flag 3 2
/-- SRCSEL = 1: a range table is supplied. -/
def Record.srcsel (r : Record) : Bool := r.flag 5 1 == 1
def Record.curve (r : Record) : Nat := r.flag 6 2
def Record.stitch (r : Record) : Nat := r.flag 8 3
def Record.part (r : Record) : Nat := r.flag 16 6
/-- CT, the teams of a cluster (R327). -/
def Record.ct (r : Record) : Nat := r.cr * r.cc
/-- The teams of the grid. -/
def Record.teams (r : Record) : Nat := r.gx * r.gy * r.gz
/-- The threads of a team. -/
def Record.threads (r : Record) : Nat := (r.roles.map fun x => x.1).foldl (· + ·) 0
/-- The register words of a team (R113). -/
def Record.words (r : Record) : Nat := (r.roles.map fun x => x.1 * x.2.1).foldl (· + ·) 0
/-- The arrays of the field mask (R178). -/
def Record.arrays (r : Record) : NatSet := bitsOf r.fm.toNat 32
/-- NK rounded up to a multiple of 4 (R152). -/
def Record.nk4 (r : Record) : Nat := (r.nk + 3) / 4 * 4
/-- The channel endpoints of the team at a position (R304). -/
def Record.endpoints (r : Record) (pos : Nat) : Nat :=
  (r.chans.filter fun c => c.src == pos).length + (r.chans.filter fun c => c.dst == pos).length

/-- The must-be-0 fields of a record (R326). -/
def recordZeros (bs : List Byte) : Bool :=
  let fl := field bs 24 4
  decide (field bs 0 8 < 2 ^ 57 ∧ fl / 2 ^ 11 % 32 = 0 ∧ fl / 2 ^ 22 = 0 ∧ (fl / 32 % 2 = 1 ∨ field bs 48 2 = 0))
    && zeroField bs 39 1 && zeroField bs 50 6
    && ((List.range 4).all fun j => zeroField bs (62 + 16 * j) 2)
    && ((List.range (field bs 38 1)).all fun i => zeroField bs (283 + 12 * i) 1 && zeroField bs (286 + 12 * i) 2)

/-! Reading -/

/-- What a read of one piece, or of several, answers. -/
inductive Piece where
  | got (bs : List Byte) (s : State)
  | bad (s : State)
  | closed (s : State)

/-- Consecutive pieces of at most 8 bytes read with a reader of one piece; `fuel` bounds their number. -/
def readPieces (one : State → VAddr → Nat → Piece) : Nat → VAddr → Nat → State → Piece
  | 0, _, _, s => .got [] s
  | fuel + 1, va, n, s =>
    if n = 0 then .got [] s
    else
      match one s va (min n 8) with
      | .got bs s =>
        match readPieces one fuel (va + 8) (n - 8) s with
        | .got rest s => .got (bs ++ rest) s
        | r => r
      | r => r

/-- The reader that a thread is: loads of the normal class in its order of S (R331). -/
def readAsThread (t : ThreadId) (s : State) (va : VAddr) (n : Nat) : Piece :=
  match s.translate (s.coreOf t).die (s.cnOf t) needRead va with
  | (.ok (.hbm pa), s) =>
    match s.loadBytes t va pa n (some (.normal 2)) with
    | (bs, none, s) => .got bs s
    | (_, some _, s) => .bad s
  | (.closed, s) => .closed s
  | (_, s) => .bad s

/-- The device's own translations pass an open or a closed range alike: they take their place before its close (R353, R427). -/
def State.deviceTranslate (s : State) (die cn : Nat) (need : Need) (va : VAddr) : Translation × State :=
  let gives := s.gives
  let r := { s with gives := [] }.translate die cn need va
  (r.1, { r.2 with gives := gives })

/-- Whether one of the sectors that consecutive bytes lie in gives an error reply (R241). -/
def State.anyError (s : State) (pa n : Nat) : Bool :=
  (List.range (n / 64 + 2)).any fun k => decide (pa / 64 * 64 + 64 * k < pa + n) && (s.errorAt (pa / 64 * 64 + 64 * k)).isSome

/-- The reader that the device is, in a context, through the translation unit of a die (R342, R333, R390). -/
def readAsDevice (die cn : Nat) (s : State) (va : VAddr) (n : Nat) : Piece :=
  match s.deviceTranslate die cn needRead va with
  | (.ok (.hbm pa), s) => if s.anyError pa n then .bad s else .got (s.bytes pa n) (s.place.readAt pa s.wmax)
  | (_, s) => .bad s

/-- What reading a launch record answers: its bytes and the range table's, status 1, or a closed range. -/
inductive RecordRead where
  | ok (bs range : List Byte) (s : State)
  | unreadable (s : State)
  | closed (s : State)

/-- A launch record read with its channel declarations and its supplied range table (status 1 of R328). -/
def readRecord (one : State → VAddr → Nat → Piece) (va : VAddr) (s : State) : RecordRead :=
  let get (va : VAddr) (n : Nat) (s : State) : Piece := readPieces one (n / 8 + 1) va n s
  if va.toNat % 8 ≠ 0 then .unreadable s
  else match get va 280 s with
    | .bad s => .unreadable s
    | .closed s => .closed s
    | .got bs s =>
      match get (va + 280) (12 * field bs 38 1) s with
      | .bad s => .unreadable s
      | .closed s => .closed s
      | .got cs s =>
        let bs := bs ++ cs
        let r := recordOf bs
        if !r.srcsel then .ok bs [] s
        else if r.range.toNat % 8 ≠ 0 then .unreadable s
        else match get (addressOf r.range) (8 * r.nrange) s with
          | .bad s => .unreadable s
          | .closed s => .closed s
          | .got ts s => .ok bs ts s

/-! Range tables (R323) -/

/-- An entry of a range table: FIRST, COUNT and DIE. -/
structure RangeEntry where
  first : Nat
  count : Nat
  die   : Nat
  deriving DecidableEq, Repr

/-- The entries of a range table. -/
def rangeEntries (bs : List Byte) : List RangeEntry :=
  (List.range (bs.length / 8)).map fun k =>
    let v := field bs (8 * k) 8
    ⟨v % 2 ^ 32, v / 2 ^ 32 % 2 ^ 28, v / 2 ^ 60⟩

/-- Whether each entry begins where the one before ends, from `at_` to `stop`. -/
def rangesJoin (stop : Nat) : Nat → List RangeEntry → Bool
  | at_, [] => at_ == stop
  | at_, e :: es => e.first == at_ && decide (1 ≤ e.count ∧ e.die < 8) && rangesJoin stop (at_ + e.count) es

/-- The die that a table gives a linear index. -/
def rangeDie (es : List RangeEntry) (b : Nat) : Nat :=
  ((es.find? fun e => decide (e.first ≤ b ∧ b < e.first + e.count)).map RangeEntry.die).getD 0

/-- Whether two dies are neighbours (R10). -/
def diesAdjacent (a b : Nat) : Bool :=
  decide ((a / 4 = b / 4 ∧ (a + 1 = b ∨ b + 1 = a)) ∨ (a % 4 = b % 4 ∧ (a + 4 = b ∨ b + 4 = a)))

/-- Whether a supplied table is well formed for a record (R323). -/
def rangeOk (r : Record) (es : List RangeEntry) : Bool :=
  decide (1 ≤ es.length ∧ es.length ≤ 256) && rangesJoin r.teams 0 es
    && ((List.range (r.teams / r.ct)).all fun m =>
      let ds := ((List.range r.ct).map fun p => rangeDie es (m * r.ct + p)).eraseDups
      match ds with
      | [_] => true
      | [a, b] => r.xdie && diesAdjacent a b
      | _ => false)

/-! Validation (R328), but for the checks of status 12 and 13 -/

/-- Status 2: a malformed record. -/
def Record.malformed (r : Record) (zeros : Bool) : Bool :=
  !zeros || r.gx == 0 || r.gy == 0 || r.gz == 0 || r.cr == 0 || r.cc == 0 || decide (12 < r.ct) || r.teams % r.ct != 0
    || r.part == 63 || r.entry.toNat % 8 != 0 || decide (4 ≤ r.stitch) || (r.xdie && r.ct == 1)

/-- Status 3: roles invalid (R113, R116). -/
def Record.rolesBad (r : Record) : Bool :=
  let on := r.roles.filter fun x => x.1 != 0
  on.isEmpty || (on.any fun x => x.1 % 32 != 0) || decide (1024 < r.threads)
    || on.any fun x =>
      let q := x.2.1
      x.2.2.2.toNat % 256 != 0 || q % 8 != 0 || decide (q < 64 ∨ 4096 < q) || (decide (1 ≤ x.2.2.1) && decide (q < 120))

/-- Status 9: channels invalid (R304). -/
def Record.chansBad (r : Record) : Bool :=
  decide (32 < r.nch)
    || (r.chans.any fun c =>
      let a := fieldArrayOf c.ring
      let bytes := 4 * c.sw * c.ns
      decide (r.ct ≤ c.src ∨ r.ct ≤ c.dst ∨ c.sw < 1 ∨ 16 < c.sw ∨ c.ns < 1 ∨ 256 < c.ns)
        || c.ring % 4 != 0 || !r.arrays.contains a || decide (16384 < fieldOffset c.ring + bytes))
    || (List.range r.ct).any fun p => decide (Config.endpoints < r.endpoints p)

/-- The status of the checks 2 to 11, in their order; 0 where they pass (R328). -/
def Record.check (r : Record) (zeros : Bool) (ranges : List RangeEntry) : Nat :=
  if r.malformed zeros then 2
  else if r.rolesBad then 3
  else if Config.registerWords < r.words then 4
  else if 30 < r.arrays.length then 5
  else if 256 < r.nacc ∨ r.nacc % 8 ≠ 0 then 6
  else if 64 < r.nk then 7
  else if 256 < r.nbar ∨ 4 < r.cb ∨ r.nbar < r.cb then 8
  else if r.chansBad then 9
  else if r.srcsel && !rangeOk r ranges then 10
  else if r.curve = 3 ∧ (List.range 64).any (fun k => !r.perm.contains k) then 11
  else 0

/-! Dies and keys of the units of a grid (R322, R324) -/

/-- x, y and z of a linear index (R322). -/
def Record.coords (r : Record) (b : Nat) : Nat × Nat × Nat := (b % r.gx, b / r.gx % r.gy, b / r.gx / r.gy)

/-- The least k with 2^k at least n. -/
def log2Ceil (n : Nat) : Nat := if n ≤ 1 then 0 else Nat.log2 (n - 1) + 1

/-- The bits of two numbers interleaved, `n` of each, the first in the even places (R324). -/
def morton (x y : Nat) : Nat → Nat
  | 0 => 0
  | n + 1 => morton x y n + (x / 2 ^ n % 2) * 2 ^ (2 * n) + (y / 2 ^ n % 2) * 2 ^ (2 * n + 1)

/-- H of R324: `k` counts s = 2^(k-1) down. -/
def hilbert (n : Nat) : Nat → Nat → Nat → Nat → Nat
  | 0, _, _, d => d
  | k + 1, x, y, d =>
    let s := 2 ^ k
    let rx := if x / s % 2 = 1 then 1 else 0
    let ry := if y / s % 2 = 1 then 1 else 0
    let d := d + s * s * ((3 * rx) ^^^ ry)
    if ry = 0 then
      if rx = 1 then hilbert n k (n - 1 - y) (n - 1 - x) d else hilbert n k y x d
    else hilbert n k x y d

/-- The curve key of a team (R324). -/
def Record.key (r : Record) (b : Nat) : Nat :=
  let (x, y, z) := r.coords b
  let k := log2Ceil (max r.gx r.gy)
  match r.curve with
  | 0 => b
  | 1 => z * 4 ^ k + morton x y k
  | 2 => z * 4 ^ k + hilbert (2 ^ k) k x y 0
  | _ => 64 * (b / 64) + r.perm.getD (b % 64) 0

/-- The affinity address of a team (R322). -/
def Record.affinity (r : Record) (b : Nat) : VAddr :=
  let (x, y, z) := r.coords b
  let a (k : Nat) : Nat := (r.aff.getD k 0).toNat
  BitVec.ofNat 57 (a 0 + x * a 1 + y * a 2 + z * a 3)

/-- The die of a unit whose position-0 team has index b; the walk has no permission and no owner check (R322). -/
def State.unitDie (s : State) (die cn : Nat) (r : Record) (ranges : List RangeEntry) (b : Nat) : Nat × State :=
  if r.srcsel then (rangeDie ranges b, s)
  else
    let va := r.affinity b
    match s.walk die cn va with
    | (.leaf e _ log, s) => let pa := leafAddr e log va; (if inHbm pa then homeDie pa else b % 8, s)
    | (_, s) => (b % 8, s)

/-- The dies of the units 0 to n - 1 of a grid. -/
def State.unitDies (s : State) (die cn : Nat) (r : Record) (ranges : List RangeEntry) : Nat → List Nat × State
  | 0 => ([], s)
  | n + 1 =>
    let (ds, s) := s.unitDies die cn r ranges n
    let (d, s) := s.unitDie die cn r ranges (n * r.ct)
    (ds ++ [d], s)

/-- The range table that the dispatcher builds: consecutive indices of one die merged (R322). -/
def buildRanges (ct : Nat) : Nat → List Nat → List RangeEntry
  | _, [] => []
  | b, d :: ds =>
    match buildRanges ct (b + ct) ds with
    | e :: es => if e.die = d then ⟨b, e.count + ct, d⟩ :: es else ⟨b, ct, d⟩ :: e :: es
    | [] => [⟨b, ct, d⟩]

/-- The bytes of a range table entry (R323). -/
def RangeEntry.bytes (e : RangeEntry) : List Byte :=
  bytesOf (BitVec.ofNat 64 (e.first % 2 ^ 32 + e.count % 2 ^ 28 * 2 ^ 32 + e.die * 2 ^ 60)) 8

/-! The device's own writes (R427) -/

/-- A piece that was not written: MCSTAT of the die with KIND 9, and a report of 0x1E0 for no thread with the LID and the address (R427). -/
def State.pieceFailed (s : State) (die lid : Nat) (va : VAddr) : State :=
  (s.machineCheck die 9).reportNone (checkCore die) { Name.none with lid := lid }
    ⟨0x1E0, 0, auxWords [BitVec.ofNat 64 lid, va.zeroExtend 64]⟩

/-- One piece written by the device in a context; an error reply for any of its sectors is the failure of the piece (R427). -/
def State.devicePiece (s : State) (die cn lid : Nat) (va : VAddr) (bs : List Byte) : State :=
  match s.deviceTranslate die cn needWrite va with
  | (.ok (.hbm pa), s) => if s.anyError pa bs.length then s.pieceFailed die lid va else s.deviceStore pa bs
  | (_, s) => s.pieceFailed die lid va

/-- The pieces of consecutive bytes: the part in each 64 KiB page, for each page has a translation of its own (R427; DEDUCED, log 14). `fuel` bounds the further pages. -/
def pageParts (va : VAddr) (bs : List Byte) : Nat → List (VAddr × List Byte)
  | 0 => [(va, bs)]
  | fuel + 1 =>
    let room := 65536 - va.toNat % 65536
    if bs.length ≤ room then [(va, bs)]
    else (va, bs.take room) :: pageParts (va + BitVec.ofNat 57 room) (bs.drop room) fuel

/-- Runs of bytes written in order, each at its offset from a base. -/
def State.devicePieces (s : State) (die cn lid : Nat) (base : VAddr) (ps : List (Nat × List Byte)) : State :=
  (ps.flatMap fun p => pageParts (base + BitVec.ofNat 57 p.1) p.2 (p.2.length / 65536 + 1)).foldl (fun (s : State) p => s.devicePiece die cn lid p.1 p.2) s

/-- Consecutive bytes written by the device, a line of 256 at a time, each one event of S; a line that meets an error reply is not written (R241, R401; DESIGN CHOICE, log 20). `fuel` bounds the lines. -/
def State.deviceLines (s : State) (pa : Nat) : Nat → List Byte → State
  | 0, _ => s
  | fuel + 1, bs =>
    if bs.isEmpty then s
    else
      let s := if s.anyError pa (min 256 bs.length) then s else s.deviceStore pa (bs.take 256)
      s.deviceLines (pa + 256) fuel (bs.drop 256)

end Sys2Proof.Machine
end

