-- ==== Sys2Proof/Machine/Place.lean ====
section
/-! DEFINITION. Room for teams: what a core's resident teams hold, the allotment of a new team (R76, R113, R152, R178, R198, R286, R304), and the cores of a unit (R321, R324, R325). -/

namespace Sys2Proof.Machine

/-! Room on one core -/

/-- The resident teams of a core. -/
def State.teamsOn (s : State) (c : CoreId) : List Team := (s.teams.filter fun e => decide (e.2.core = c)).map Prod.snd

/-- The register words of a team (R113). -/
def Team.words (m : Team) : Nat := (m.roles.map fun r => r.n * r.q).foldl (· + ·) 0

/-- The least multiple of `step` from which `n` consecutive numbers below `limit` are free of the intervals taken. -/
def firstFit (limit step n : Nat) (taken : List (Nat × Nat)) : Option Nat :=
  if n = 0 then some 0
  else ((List.range (limit / step + 1)).map (step * ·)).find? fun b =>
    decide (b + n ≤ limit) && taken.all fun t => t.2 == 0 || decide (b + n ≤ t.1 ∨ t.1 + t.2 ≤ b)

/-- What the dispatcher allots a team on a core. -/
structure Allot where
  core    : CoreId
  places  : List Nat
  accBase : Nat
  kBase   : Nat
  barBase : Nat
  deriving DecidableEq, Repr

/-- The channel endpoints that the teams of a core use (R304). -/
def State.endpointsOn (s : State) (c : CoreId) : Nat :=
  ((s.teamsOn c).map fun m => match Table.find s.grids m.lid with
    | some g => g.record.endpoints m.pos
    | none => 0).foldl (· + ·) 0

/-- The arrays that a team would take from the cache role, where it may have every array it names: those in the cache role, or class-0 arrays of its own context that no resident team names (R178). -/
def State.takeable (s : State) (c : CoreId) (cn : Nat) (fm : NatSet) : Option NatSet :=
  let ok (a : Nat) : Bool :=
    let x := s.array c a
    x.isCache || (x.tie == some cn && x.owner.isNone)
  if fm.all ok then some (fm.filter fun a => (s.array c a).isCache) else none

/-- What a team needs of a core. `bar` is the base that its barrier objects must have, where links bind them (R298). -/
structure Demand where
  cn        : Nat
  threads   : Nat
  words     : Nat
  fm        : NatSet
  spare     : Nat
  nacc      : Nat
  nk4       : Nat
  nbar      : Nat
  endpoints : Nat
  bar       : Option Nat
  deriving DecidableEq, Repr

/-- The demand of a team of a record at a cluster position, with `spare` further arrays to take from the cache role. -/
def Record.demand (r : Record) (cn pos spare : Nat) : Demand :=
  ⟨cn, r.threads, r.words, r.arrays, spare, r.nacc, r.nk4, r.nbar, r.endpoints pos, none⟩

/-- Whether an interval is free of the intervals taken. -/
def intervalFree (b n : Nat) (taken : List (Nat × Nat)) : Bool :=
  n == 0 || taken.all fun t => t.2 == 0 || decide (b + n ≤ t.1 ∨ t.1 + t.2 ≤ b)

/-- The allotment of a team on a core; none without room. The lowest free numbers are taken (DESIGN CHOICE, log 8). -/
def State.allotFor (s : State) (c : CoreId) (d : Demand) : Option Allot :=
  let ms := s.teamsOn c
  let used := ms.flatMap Team.places
  let free := (List.range Config.homeGroups).filter fun p => !used.contains p
  let n := d.threads / 32
  let words := (ms.map Team.words).foldl (· + ·) 0
  let bars := ms.map fun m => (m.barBase, m.nbar)
  match s.takeable c d.cn d.fm,
        firstFit Config.accRows 1 d.nacc (ms.map fun m => (m.accBase, m.nacc)),
        firstFit Config.kregs 4 d.nk4 (ms.map fun m => (m.kBase, (m.nk + 3) / 4 * 4)),
        (match d.bar with
          | some b => if intervalFree b d.nbar bars then some b else none
          | none => firstFit Config.barriers 1 d.nbar bars) with
  | some taken, some a, some k, some b =>
    if c.isSorrel && !(s.die c.die).out && decide (n ≤ free.length ∧ words + d.words ≤ Config.registerWords
        ∧ s.endpointsOn c + d.endpoints ≤ Config.endpoints
        ∧ taken.length + d.spare + 2 ≤ (s.cacheArrays c).length) then some ⟨c, free.take n, a, k, b⟩
    else none
  | _, _, _, _ => none

/-- The allotment of a team of a record on a core. -/
def State.allot (s : State) (c : CoreId) (cn : Nat) (r : Record) (pos spare : Nat) : Option Allot :=
  s.allotFor c (r.demand cn pos spare)

/-! The cores of a unit -/

/-- The mesh position of a core: package row and column (R311). -/
def meshOf (c : CoreId) : Nat × Nat := (8 * (c.die / 4) + c.num / 12, 12 * (c.die % 4) + c.num % 12)
/-- The core at a mesh position. -/
def coreAt (row col : Nat) : CoreId := ⟨4 * (row / 8) + col / 12, 12 * (row % 8) + col % 12⟩

/-- The cores of a rectangle in row-major order from its top-left position; none where it leaves the mesh. -/
def rectangle (row col rows cols : Nat) : Option (List CoreId) :=
  if row + rows ≤ 16 ∧ col + cols ≤ 48 then
    some ((List.range rows).flatMap fun i => (List.range cols).map fun j => coreAt (row + i) (col + j))
  else none

/-- The dies of a list of cores. -/
def diesOf (cs : List CoreId) : List Nat := (cs.map CoreId.die).eraseDups

/-- The candidate rectangles of a unit on a die in the order of their top-left cores: within the die (R324), or across one die boundary with the die among its two (R325; DESIGN CHOICE, log 8). -/
def candidates (r : Record) (die : Nat) : List (List CoreId) :=
  if r.xdie then
    (List.range 16).flatMap fun i => (List.range 48).filterMap fun j =>
      (rectangle i j r.cr r.cc).filter fun cs =>
        match diesOf cs with
        | [a, b] => (a == die || b == die) && diesAdjacent a b
        | _ => false
  else
    (List.range Config.cores).filterMap fun n =>
      if n / 12 + r.cr ≤ 8 ∧ n % 12 + r.cc ≤ 12 then
        (rectangle (meshOf ⟨die, n⟩).1 (meshOf ⟨die, n⟩).2 r.cr r.cc)
      else none

/-! Stitched regions (R319 to R321) -/

/-- A stitch register's fields. -/
structure Region where
  row0  : Nat
  col0  : Nat
  rows  : Nat
  cols  : Nat
  shape : Nat
  en    : Bool
  deriving DecidableEq, Repr

/-- The region that a register value names (R319). -/
def regionOf (v : DWord) : Region :=
  let n := v.toNat
  ⟨n / 2 ^ 29 % 8, n / 2 ^ 25 % 16, n / 2 ^ 22 % 8 + 1, n / 2 ^ 18 % 16 + 1, n / 2 ^ 16 % 4, n % 2 = 1⟩

/-- The cores of a region on a die, in row-major order (R320). -/
def Region.cores (x : Region) (die : Nat) : List CoreId :=
  (List.range x.rows).flatMap fun i => (List.range x.cols).map fun j => ⟨die, 12 * (x.row0 + i) + x.col0 + j⟩

/-- The enabled regions of a die in the order of their registers. -/
def State.regions (s : State) (die : Nat) : List Region :=
  ((List.range 8).map fun n => regionOf ((s.die die).mst.get n)).filter Region.en

/-- The SHAPE that a STITCH code requires (R326). -/
def stitchShape (code : Nat) : Nat := code - 1

/-- The regions of a die that meet a record's STITCH (R321, status 12). -/
def State.stitched (s : State) (die : Nat) (r : Record) : List Region :=
  (s.regions die).filter fun x => x.shape == stitchShape r.stitch && decide (r.ct ≤ x.rows * x.cols)

/-- The first list of cores on which every position has room. -/
def State.firstRoom (s : State) (cn : Nat) (r : Record) (cs : List (List CoreId)) : Option (List Allot) :=
  cs.findSome? fun l => (List.range r.ct).mapM fun p => (l[p]?).bind fun c => s.allot c cn r p 0

/-! The cores of saved teams (R379, R382) -/

/-- Whether links bind a saved team's barrier objects (R298). -/
def Image.linked (i : Image) : Bool := i.barriers.any fun e => e.2.parent.isSome || !e.2.child.isEmpty

/-- The demand of a saved team: what it held, with the arrays of its field role (R189, R382). -/
def Image.demand (i : Image) : Demand :=
  let m := i.team
  ⟨m.cn, m.size, m.words, m.fm, 0, m.nacc, (m.nk + 3) / 4 * 4, m.nbar,
   i.record.endpoints m.pos, if i.linked then some m.barBase else none⟩

/-- The lists of cores that a unit of a record may be placed on by position, in order: regions of its shape, or rectangles (R321, R324, R325). -/
def State.coresFor (s : State) (die : Nat) (r : Record) : List (List CoreId) :=
  if r.stitch ≠ 0 then (s.stitched die r).map fun x => x.cores die else candidates r die

/-- The allotments of the teams of a unit on a die, by position (R321, R324, R325). -/
def State.placeUnit (s : State) (die cn : Nat) (r : Record) : Option (List Allot) := s.firstRoom cn r (s.coresFor die r)

/-- The cores of a cluster by position, as a team of it that stays resident shows them (R325, R327). -/
def Team.clusterCores (m : Team) (r : Record) : List CoreId :=
  let p := meshOf m.core
  (rectangle (p.1 - m.pos / r.cc) (p.2 - m.pos % r.cc) r.cr r.cc).getD []

/-- The allotments of some positions of a cluster: beside the teams of it that remain, otherwise wherever a unit may be placed (R325, R401). -/
def State.placePart (s : State) (die cn : Nat) (r : Record) (lid cluster : Nat) (ps : List Nat) : Option (List (Nat × Allot)) :=
  let on (l : List CoreId) : Option (List (Nat × Allot)) := ps.mapM fun p => (l[p]?).bind fun c => (s.allot c cn r p 0).map fun a => (p, a)
  match s.teams.find? fun e => decide (e.2.lid = lid ∧ e.2.cluster = cluster) with
  | some e => on (e.2.clusterCores r)
  | none => (s.coresFor die r).findSome? on

/-- The allotments of the images of one dispatch on a die: on their saved cores where any is bound to its core; otherwise each at its cluster position on a rectangle or region of the cluster's shape (R379, R382). -/
def State.placeImages (s : State) (die : Nat) (is : List Image) : Option (List Allot) :=
  let on (c : CoreId) (i : Image) : Option Allot := s.allotFor c i.demand
  match is.head? with
  | none => none
  | some i =>
    if is.any Image.core then is.mapM fun i => on i.team.core i
    else if i.record.xdie then none
    else (s.coresFor die i.record).findSome? fun l => is.mapM fun i => (l[i.team.pos]?).bind fun c => on c i

/-- The images of the block that begins at a PA, each with its place: they are restored together (R379). -/
def State.placesAt (s : State) (pa : Nat) : List (Nat × Image) :=
  match Table.find s.images pa with
  | none => []
  | some i => i.block.filterMap fun p => (Table.find s.images p).map fun x => (p, x)
def State.blockAt (s : State) (pa : Nat) : List Image := (s.placesAt pa).map Prod.snd

end Sys2Proof.Machine
end

