-- ==== Sys2Proof/Machine/Start.lean ====
section
/-! DEFINITION. Teams that start (R77, R114, R289, R334, R341): the state of a new team and its threads, the units of grids and the teams of bins, and the order of a die's queue (R335, R337). -/

namespace Sys2Proof.Machine

/-! Identifiers -/

/-- A launch identifier that no live grid holds and no earlier pass of a replay session held, at least 0x100 (R329, R391; DESIGN CHOICE, log 5). -/
def State.newLid (s : State) : Nat × State :=
  let v := Config.launchId s.drawn % 2 ^ 32
  let used := Table.keys s.grids ++ (s.teams.map fun e => e.2.lid) ++ (s.images.map fun e => e.2.team.lid)
    ++ ((s.replay.map Replay.lids).getD [])
  let ok (v : Nat) : Bool := decide (0x100 ≤ v) && !used.contains v
  ((if ok v then v else ((List.range (used.length + 1)).map (0x100 + ·)).find? ok |>.getD 0x100), s.draw)

/-- A team identifier of 24 bits that no live team holds, resident or saved (R345; DESIGN CHOICE, log 5). -/
def State.newTeamId (s : State) : Nat × State :=
  let v := Config.teamId s.drawn % 2 ^ 24
  let used := Table.keys s.teams ++ s.images.map fun e => e.2.teamId
  let ok (v : Nat) : Bool := !used.contains v
  ((if ok v then v else (List.range (used.length + 1)).find? ok |>.getD 0), s.draw)

/-! A new team -/

/-- The roles of a record, each with its range of threads, in the order copy, matrix, epilogue, general (R75). -/
def rolesFrom : Nat → Nat → List (Nat × Nat × Nat × DWord) → List Role
  | _, _, [] => []
  | kind, t0, x :: xs =>
    if x.1 = 0 then rolesFrom (kind + 1) t0 xs
    else ⟨kind, t0, x.1, x.2.1, x.2.2.1, x.2.2.2⟩ :: rolesFrom (kind + 1) (t0 + x.1) xs
def Record.roleList (r : Record) : List Role := rolesFrom 0 0 r.roles

/-- A thread at team start (R77, R114, R123, R263, R361, R392). -/
def Thread.start (entry : VAddr) (sys : Bool) (ts : BitVec 48) (fence : Nat) : Thread where
  regs := []
  empties := []
  preds := 1
  pc := entry
  status := .waiting 0
  stamp := 0
  aged := false
  depth := 0
  oldest := 0
  links := []
  queues := []
  pending := []
  failures := 0
  inHandler := false
  priv := if sys then 2 else 0
  savedPriv := 0
  ctxSel := 0
  savedCtxSel := 0
  tcause := 0
  tpc := 0
  tret := 0
  taux := []
  edepth := 0
  tshw := []
  tshp := 0
  resume := none
  tretWritten := false
  brkPass := none
  deferred := []
  regd := []
  ts := ts
  lastWrite := 0
  landings := []
  fence := fence
  sig := 0

/-- What a team is started as. -/
structure Birth where
  id      : Nat
  lid     : Nat
  cn      : Nat
  b       : Nat
  coords  : Nat × Nat × Nat
  cluster : Nat
  pos     : Nat
  entry   : VAddr
  consts  : List Word
  pri     : Nat
  records : List (List Byte)
  owed    : List DWord
  bin     : Option (Nat × Nat)

/-- A team at its start (R77, R199, R218, R395). -/
def Birth.team (x : Birth) (a : Allot) (r : Record) (clk : Nat) : Team where
  lid := x.lid
  cn := x.cn
  b := x.b
  x := x.coords.1
  y := x.coords.2.1
  z := x.coords.2.2
  core := a.core
  places := a.places
  roles := r.roleList
  entry := x.entry
  consts := x.consts
  fm := r.arrays
  accBase := a.accBase
  nacc := r.nacc
  kBase := a.kBase
  nk := r.nk
  barBase := a.barBase
  nbar := r.nbar
  cluster := x.cluster
  pos := x.pos
  pri := x.pri
  windows := []
  ate := false
  fmtanom := false
  analog := false
  rendezvous := []
  resizing := []
  replies := []
  owed := x.owed
  gate := false
  prgtot := 0
  prog := 0
  progHist := []
  since := clk
  elapsed := 0
  preempt := none
  stepMode := .none
  records := x.records
  bin := x.bin

/-- The core's resources of a team at their state of team start: register blocks at generation 0, rows and k registers at 0, objects new, latches invalid (R152, R155, R198, R207, R287). -/
def clearCore (m : Team) (k : Core) : Core :=
  let blocks := m.places.flatMap fun p => (List.range 4).map fun b => GenObject.block p b
  let ks := (List.range ((m.nk + 3) / 4 * 4)).map (m.kBase + ·)
  let bars := (List.range m.nbar).map (m.barBase + ·)
  let slots := m.places.flatMap fun p => (List.range 32).map (32 * p + ·)
  { k with
    gens := k.gens.filter fun e => !blocks.contains e.1
    acc := k.acc.clear (256 * m.accBase) (256 * m.nacc)
    kbytes := k.kbytes.clear (256 * m.kBase) (256 * ((m.nk + 3) / 4 * 4))
    ktags := k.ktags.filter fun e => !ks.contains e.1
    latch := k.latch.filter fun e => !slots.contains e.1
    barriers := k.barriers.filter fun e => !bars.contains e.1 }

/-- An array that a team takes at its start: prepared from the cache role with generations 0, or a class-0 array as it stands (R155, R178). -/
def State.takeArray (s : State) (c : CoreId) (team a : Nat) : State :=
  if (s.array c a).tie.isSome then s.own c a team
  else
    ((s.prepare c a).own c a team).alterCore c fun k =>
      { k with gens := k.gens.filter fun e => !([GenObject.half a 0, .half a 1, .whole a].contains e.1) }

/-- A team started on its allotment (R77). -/
def State.startTeam (s : State) (x : Birth) (a : Allot) (r : Record) : State :=
  let m := x.team a r (s.core a.core).clk
  let sys := ((s.context x.cn).map Context.sys).getD false
  let th := Thread.start x.entry sys s.wmax s.seq
  let s := { s with
    teams := Table.put s.teams x.id m
    threads := s.threads ++ (List.range m.size).map fun t => ((⟨x.id, t⟩ : ThreadId), th) }
  let s := s.alterCore a.core (clearCore m)
  let s := m.fm.foldl (fun (s : State) f => s.takeArray a.core x.id f) s
  { s with grids := Table.alter s.grids x.lid fun g => { g with started := g.started + 1, teams := Table.put g.teams x.b x.id } }

/-! Cluster barriers and channels (R289, R304) -/

/-- EXP, PARENT and CHILD of object `i` of the team at position `p` of a cluster with these allotments (R289). -/
def clusterBarrier (dev n i p : Nat) (as : List Allot) : Barrier :=
  let die (q : Nat) : Nat := ((as[q]?).map fun a => a.core.die).getD 0
  let all := List.range as.length
  let on (d : Nat) : List Nat := all.filter fun q => die q == d
  let root (d : Nat) : Nat := (on d).headD 0
  let handle (q : Nat) : Handle := ((as[q]?).map fun a => (⟨dev, a.core, a.barBase + i⟩ : Handle)).getD ⟨dev, ⟨0, 0⟩, 0⟩
  let d := die p
  let r := root d
  let r0 := root (die 0)
  let others := (all.map die).eraseDups.filter fun e => e != die 0
  if p ≠ r then { Barrier.init with exp := n, parent := some (handle r) }
  else
    let mine := (on d).filter fun q => q != p
    if p = r0 then
      { Barrier.init with exp := n + mine.length + others.length, child := (mine ++ others.map root).map handle }
    else { Barrier.init with exp := n + mine.length, parent := some (handle r0), child := mine.map handle }

/-- The cluster barriers of a unit built (R289). -/
def State.buildBarriers (s : State) (r : Record) (as : List Allot) : State :=
  (List.range as.length).foldl (fun (s : State) p =>
    match as[p]? with
    | none => s
    | some a => (List.range r.cb).foldl (fun (s : State) i =>
        s.setBarrier a.core (a.barBase + i) (clusterBarrier s.deviceNumber r.threads i p as)) s) s

/-- Whether the team of a position of a cluster has retired: its grid no longer counts it, as it counts one that is saved or waits to start again (R308, R329). -/
def State.hasRetired (s : State) (lid b : Nat) : Bool := !((Table.find s.grids lid).any fun g => (Table.find g.teams b).isSome)

/-- The channels of a cluster that have an end at one of some positions, as they stand at the start of those teams, and those of the declarations that stand no more; an end whose team has retired is closed (R304, R305, R308). -/
def State.buildChannels (s : State) (lid cluster : Nat) (r : Record) (ps : List Nat) : State :=
  let gone (p : Nat) : Bool := !ps.contains p && s.hasRetired lid (cluster * r.ct + p)
  (List.range r.chans.length).foldl (fun (s : State) c =>
    match r.chans[c]? with
    | none => s
    | some d =>
      let new : Channel := ⟨d.src, d.dst, d.sw, d.ns, d.ring, d.ns, 0, [], gone d.src, gone d.dst, [], []⟩
      if ps.contains d.src || ps.contains d.dst || (Table.find s.channels (lid, cluster, c)).isNone then { s with channels := Table.put s.channels (lid, cluster, c) new } else s) s

/-- Teams of a cluster started on their allotments by position, with their barriers and channels (R76, R77, R289). -/
def State.startUnit (s : State) (lid b0 : Nat) (g : Grid) (as : List (Nat × Allot)) : State :=
  let r := g.record
  let cluster := b0 / r.ct
  let s := as.foldl (fun (s : State) e =>
    let (id, s) := s.newTeamId
    s.startTeam ⟨id, lid, g.cn, b0 + e.1, r.coords (b0 + e.1), cluster, e.1, addressOf r.entry, r.consts, r.pri, [], [], none⟩ e.2 r) s
  (s.buildBarriers r (as.map Prod.snd)).buildChannels lid cluster r (as.map Prod.fst)

/-! Bins -/

/-- The records of a die's bins: OCC (R333). -/
def Die.occ (d : Die) : Nat := (d.bins.map fun e => e.2.held.length).foldl (· + ·) 0

/-- DF after a change of OCC or of the watermarks (R336). -/
def State.updateDf (s : State) (die : Nat) : State :=
  s.alterDie die fun d => { d with df := if d.hwm.toNat < d.occ then true else if d.occ < d.lwm.toNat then false else d.df }

def State.alterBin (s : State) (die bin : Nat) (f : Bin → Bin) : State :=
  s.alterDie die fun d => { d with bins := Table.alter d.bins bin f }

/-- Whether a bin is ready: COALM + 1 unassigned records, or its timer run out with one (R334). -/
def Bin.ready (b : Bin) (dtime : Nat) : Bool :=
  match b.held.filter fun r => r.assigned.isNone with
  | [] => false
  | r :: rs => decide (b.coalm + 1 ≤ rs.length + 1) || (b.timer ≠ 0 && decide (r.arrived + 1000 * b.timer ≤ dtime))

/-- The passed buffer that a spawned record names at HOFS, on the bin's die and of its context (R341). -/
def State.recordBuffer (s : State) (die : Nat) (b : Bin) (r : BinRecord) : Option (CoreId × Nat) :=
  if b.hofs = 0xFF ∨ !r.spawned then none
  else match bufferOf (BitVec.ofNat 64 (field r.bytes b.hofs 8)) with
    | none => none
    | some (c, a, gen) =>
      let x := s.array c a
      if c.die = die ∧ x.passed = some b.cn ∧ x.buffer ∧ x.serial = gen then some (c, a) else none

/-- The dtime at which a ready bin became ready: as its count was reached, or as its timer ran out (R334, R335). -/
def Bin.readyAt (b : Bin) (dtime : Nat) : Nat :=
  match b.held.filter fun r => r.assigned.isNone with
  | [] => dtime
  | r :: rs => if b.coalm + 1 ≤ rs.length + 1 then dtime else min dtime (r.arrived + 1000 * b.timer)

/-- A ready bin forms one pending team of its oldest unassigned records, which claims the buffers that they name (R334, R341). -/
def State.formBinTeam (s : State) (die bin : Nat) (b : Bin) : State :=
  let n := s.newId
  let un := b.held.filter fun r => r.assigned.isNone
  let k := min (b.coalm + 1) un.length
  let claims := (un.take k).filterMap fun r => s.recordBuffer die b r
  let mark (x : List BinRecord × Nat) (r : BinRecord) : List BinRecord × Nat :=
    if r.assigned.isNone && decide (0 < x.2) then (x.1 ++ [{ r with assigned := some n }], x.2 - 1) else (x.1 ++ [r], x.2)
  let s := claims.foldl (fun (s : State) c => s.alterArray c.1 c.2 fun x => { x with claim := some (x.claim.getD n) }) s
  let s := s.alterBin die bin fun b => { b with held := (b.held.foldl mark ([], k)).1 }
  let at_ := b.readyAt s.dtime
  let p : Pending := ⟨n, .bin bin, b.pri, b.depth, at_, at_, none, 0⟩
  (s.alterDie die fun d => { d with queue := d.queue ++ [p] }).bump

/-- A bin forms teams while it stays ready (R334). `fuel` bounds their number. -/
def State.formTeams (die bin : Nat) : Nat → State → State
  | 0, s => s
  | fuel + 1, s =>
    match Table.find (s.die die).bins bin with
    | none => s
    | some b => if b.v && b.ready s.dtime then State.formTeams die bin fuel (s.formBinTeam die bin b) else s

/-- A bin after something that may make it ready. -/
def State.settleBin (s : State) (die bin : Nat) : State :=
  let n := ((Table.find (s.die die).bins bin).map fun b => b.held.length).getD 0
  State.formTeams die bin n s

/-- The bins of a die whose timers have run out form their teams (R334). -/
def State.settleBins (s : State) (die : Nat) : State :=
  (Table.keys (s.die die).bins).foldl (fun (s : State) n => s.settleBin die n) s

/-- A record appended to a bin, which has formed the teams that it was ready for before (R334, R338, R343). -/
def State.appendRecord (s : State) (die bin : Nat) (bytes : List Byte) (owed : Option DWord) (spawned : Bool) : State :=
  let s := s.settleBin die bin
  ((s.alterBin die bin fun b => { b with held := b.held ++ [⟨bytes, s.dtime, none, owed, spawned⟩] }).settleBin die bin).updateDf die

/-- Whether a bin refuses a record of a priority (R338, R343). -/
def Bin.full (b : Bin) (pri : Nat) : Bool :=
  decide (b.cap ≤ b.held.length) || (decide (pri < 3) && decide (b.cap - b.rsv ≤ b.held.length))

/-- The records that a pending team takes. -/
def Bin.taken (b : Bin) (n : Nat) : List BinRecord := b.held.filter fun r => r.assigned == some n

/-- The claimed buffers of a pending team, by record (R341). -/
def State.claimsOf (s : State) (die n : Nat) (b : Bin) : List (Option (CoreId × Nat)) :=
  (b.taken n).map fun r => (s.recordBuffer die b r).filter fun c => (s.array c.1 c.2).claim == some n

/-- The allotment of a bin team: the core of the handle in record 0 where the team fits there, otherwise the first core that R321 and R324 give it; each buffer elsewhere needs an array of the cache role to spare (R341). -/
def State.placeBin (s : State) (die n : Nat) (b : Bin) (r : Record) : Option Allot :=
  let claims := (s.claimsOf die n b).filterMap id
  let spare (c : CoreId) : Nat := (claims.filter fun x => decide (x.1 ≠ c)).eraseDups.length
  let try_ (c : CoreId) : Option Allot := s.allot c b.cn r 0 (spare c)
  let cores := (s.coresFor die r).filterMap List.head?
  let first := match (s.claimsOf die n b).head? with
    | some (some (c, a)) => if r.arrays.contains a || !cores.contains c then none else try_ c
    | _ => none
  match first with
  | some a => some a
  | none => cores.findSome? try_

/-- A claimed buffer joins the field role of a team, in storage mode and with generations 0: in place on its core, or moved into an array of the cache role, whose handle is the answer (R155, R341). -/
def State.claimBuffer (s : State) (team : Nat) (fm : NatSet) (core c : CoreId) (a : Nat) : Nat × Option DWord × State :=
  let zero (n : Nat) (s : State) : State := s.alterCore core fun k =>
    { k with gens := k.gens.filter fun e => !([GenObject.half n 0, .half n 1, .whole n].contains e.1) }
  if c = core then
    (a, none, zero a (s.alterArray c a fun x => { x with owner := some team, passed := none, claim := none, compute := false }))
  else
    let old := s.array c a
    let new := ((s.cacheArrays core).find? fun k => !fm.contains k).getD 0
    let serial := (s.array core new).serial + 1
    let s := (s.prepare core new).alterArray core new fun x =>
      { x with owner := some team, cells := old.cells, empties := old.empties, serial := serial, buffer := true }
    (new, some (bufferHandle serial core new), zero new (s.releaseArray c a))

/-- The buffers of a bin team claimed, each once: where each went, with the handle of one that moved (R341). -/
def State.claimAll (s : State) (team : Nat) (fm : NatSet) (core : CoreId) :
    List (CoreId × Nat) → List ((CoreId × Nat) × Nat × Option DWord) × State
  | [] => ([], s)
  | (c, a) :: rest =>
    let (n, h, s) := s.claimBuffer team fm core c a
    let r := State.claimAll s team fm core rest
    (((c, a), n, h) :: r.1, r.2)

/-- A record with the handle of a buffer that moved rewritten (R341). -/
def rewriteHandle (hofs : Nat) (went : List ((CoreId × Nat) × Nat × Option DWord)) (claim : Option (CoreId × Nat)) (bs : List Byte) : List Byte :=
  match claim.bind fun c => (went.find? fun e => e.1 == c).bind fun e => e.2.2 with
  | some v => bs.take hofs ++ bytesOf v 8 ++ bs.drop (hofs + 8)
  | none => bs

/-- The constants of a bin team (R334). -/
def binConsts (die bin depth rs : Nat) (addr : Nat) (records : List (List Byte)) : List Word :=
  let first := (records.headD []).take (min rs 48)
  [BitVec.ofNat 32 records.length, BitVec.ofNat 32 addr, BitVec.ofNat 32 rs,
   BitVec.ofNat 32 (die * 2 ^ 16 + depth * 2 ^ 8 + bin)]
    ++ (List.range 12).map fun k => BitVec.ofNat 32 (field first (4 * k) 4)

/-- The records of a bin team written to the array that they start in, each word full (R334). -/
def State.writeRecords (s : State) (c : CoreId) (fm : NatSet) (rs : Nat) (records : List (List Byte)) : State :=
  match fm with
  | [] => s
  | a :: _ => (List.range records.length).foldl (fun (s : State) i =>
      s.alterArray c a fun x =>
        { x with cells := x.cells.setList (i * rs) ((records.getD i []).take rs) }.setFull (touchedWords (i * rs) rs)) s

/-- The field address at which a bin team's records start. -/
def recordsAddr (fm : NatSet) : Nat := match fm with | [] => 0 | a :: _ => a * 16384

/-- The arrays among which a bin team's records start: its field role with the buffers it claims, none where TMPL's FM is empty (R334, R341). -/
def recordArrays (r : Record) (fm : NatSet) : NatSet := if r.arrays = [] then [] else fm

/-- The grid of one team that a bin team is, without co-residency (R334). -/
def binGrid (cn : Nat) (r : Record) (accepted : Nat) : Grid := ⟨cn, { r with report := 0, range := 0, flags := r.flags &&& 0xFFFFFFFE }, 1, false, 0, [], accepted, false, none, true, []⟩

/-- A bin team started with its records (R334). -/
def State.startBin (s : State) (die bin : Nat) (p : Pending) (b : Bin) (r : Record) (a : Allot) : State :=
  let recs := b.taken p.n
  let claims := s.claimsOf die p.n b
  let (lid, s) := s.newLid
  let (id, s) := s.newTeamId
  let s := { s with grids := Table.put s.grids lid (binGrid b.cn r p.entered) }
  let x : Birth := ⟨id, lid, b.cn, 0, (0, 0, 0), 0, 0, addressOf b.entry, [], p.pri, [], recs.filterMap BinRecord.owed, some (die, bin)⟩
  let s := s.startTeam x a r
  let (went, s) := s.claimAll id r.arrays a.core (claims.filterMap fun c => c).eraseDups
  let bytes := (claims.zip (recs.map BinRecord.bytes)).map fun e => rewriteHandle b.hofs went e.1 e.2
  let fm := NatSet.addAll r.arrays (went.map fun e => e.2.1)
  let s := (s.buildBarriers r [a]).buildChannels lid 0 r [0]
  let s := s.alterTeam id fun m =>
    { m with
      fm := fm
      records := bytes
      consts := binConsts die bin b.depth b.rs (recordsAddr (recordArrays r fm)) bytes }
  let s := s.writeRecords a.core (recordArrays r fm) b.rs bytes
  (s.alterBin die bin fun b => { b with held := b.held.filter fun q => q.assigned != some p.n }).updateDf die

/-- A bin team that was discarded started again with the records that the dispatcher kept; the buffers it had claimed and the replies it owed are gone (R347, R378). -/
def State.restartBin (s : State) (t : Team) (g : Grid) (a : Allot) : State :=
  let (id, s) := s.newTeamId
  let r := g.record
  let consts := t.consts.set 1 (BitVec.ofNat 32 (recordsAddr r.arrays))
  let x : Birth := ⟨id, t.lid, t.cn, 0, (0, 0, 0), 0, 0, t.entry, consts, t.pri, t.records, [], t.bin⟩
  let s := s.startTeam x a r
  let rs := ((t.consts[2]?).map BitVec.toNat).getD 0
  ((s.buildBarriers r [a]).buildChannels t.lid 0 r [0]).writeRecords a.core r.arrays rs t.records

/-! The queue of a die (R335) -/

/-- The grid that a pending team belongs to. -/
def State.lidOf (s : State) (p : Pending) : Option Nat :=
  match p.origin with
  | .grid lid _ => some lid
  | .bin _ => none
  | .restart t => some t.lid
  | .part lid _ _ => some lid
  | .image pa => (Table.find s.images pa).map fun i => i.team.lid

/-- The dtime at which a pending team reached 1 ms of waiting, once it has (key 1 of R335). -/
def Pending.reached (p : Pending) (dtime : Nat) : Option Nat :=
  if p.aged.isSome || decide (p.since + 1000000 ≤ dtime) then some (p.since + 1000000) else none

/-- The order of two pending teams by keys 2 to 5 (R335). -/
def State.keysBefore (s : State) (df : Bool) (p q : Pending) : Bool :=
  if p.pri ≠ q.pri then decide (q.pri < p.pri)
  else if p.depth ≠ q.depth then (if df then decide (q.depth < p.depth) else decide (p.depth < q.depth))
  else if p.entered ≠ q.entered then decide (p.entered < q.entered)
  else (s.lidOf p).isSome && s.lidOf p == s.lidOf q && decide (p.key < q.key)

/-- Whether one pending team goes before another (R335). -/
def State.goesBefore (s : State) (df : Bool) (p q : Pending) : Bool :=
  match p.reached s.dtime, q.reached s.dtime with
  | some a, some b => decide (a < b) || (a == b && s.keysBefore df p q)
  | some _, none => true
  | none, some _ => false
  | none, none => s.keysBefore df p q

/-- A unit of a grid taken out of its die's queue and started where it fits; the core of its position 0 is the answer. -/
def State.startPending (s : State) (die : Nat) (p : Pending) : Option (CoreId × State) :=
  let out (s : State) : State := s.alterDie die fun d => { d with queue := d.queue.filter fun q => q.n != p.n }
  match p.origin with
  | .grid lid b0 =>
    match Table.find s.grids lid with
    | none => none
    | some g => (s.placeUnit die g.cn g.record).map fun as =>
        (((as.head?).map Allot.core).getD ⟨die, 0⟩, (out s).startUnit lid b0 g ((List.range as.length).zip as))
  | .part lid b0 ps =>
    match Table.find s.grids lid with
    | none => none
    | some g => (s.placePart die g.cn g.record lid (b0 / g.record.ct) ps).map fun as =>
        (((as.head?).map fun e => e.2.core).getD ⟨die, 0⟩, (out s).startUnit lid b0 g as)
  | .bin bin =>
    match Table.find (s.die die).bins bin with
    | none => none
    | some b =>
      match b.record with
      | none => none
      | some r => (s.placeBin die p.n b r).map fun a => (a.core, (out s).startBin die bin p b r a)
  | .restart t =>
    match Table.find s.grids t.lid with
    | none => none
    | some g => (s.placeUnit die t.cn g.record).bind fun as => (as.head?).map fun a => (a.core, (out s).restartBin t g a)
  | .image _ => none

/-- The package with nothing resident or pending, for the checks of R328 and R337. -/
def State.emptied (s : State) : State :=
  { s with
    threads := []
    teams := []
    groups := []
    cores := []
    dies := s.dies.map fun (e : Nat × Die) => (e.1, { e.2 with queue := [], out := false })
    grids := [] }

/-- Every unit of a co-resident grid started in one dispatch, or none (R337). -/
def startUnits : List (Nat × Pending) → State → Option State
  | [], s => some s
  | (d, p) :: rest, s => (s.startPending d p).bind fun r => startUnits rest r.2

/-- The pending units of a grid, by die and key. -/
def State.unitsOf (s : State) (lid : Nat) : List (Nat × Pending) :=
  (List.range 9).flatMap fun d =>
    ((((s.die d).queue.filter fun p => match p.origin with | .grid l _ => l == lid | .part l _ _ => l == lid | _ => false).mergeSort
      fun a b => decide (a.key ≤ b.key)).map fun p => (d, p))

/-- The dies that a pending unit needs: the die it waits at, and where its images are bound to their cores the dies of those. -/
def State.diesFor (s : State) (die : Nat) (p : Pending) : List Nat :=
  match p.origin with
  | .image pa => let is := s.blockAt pa; die :: if is.any Image.core then is.map fun i => i.team.core.die else []
  | _ => [die]

/-- The dies that the placement of the pending units of a grid needs: those they wait at, and for clusters across dies those of their placement on an otherwise empty package (R325, R337; DESIGN CHOICE, log 8). -/
def State.neededDies (s : State) (lid : Nat) : List Nat :=
  let here := (List.range 9).flatMap fun d => ((s.die d).queue.filter fun p => s.lidOf p == some lid).flatMap fun p => s.diesFor d p
  match Table.find s.grids lid with
  | none => here
  | some g =>
    if g.record.xdie then
      match startUnits (s.unitsOf lid) { s.emptied with grids := [(lid, g)] } with
      | some u => here ++ u.teams.map fun e => e.2.core.die
      | none => here
    else here

/-- The dtime since which a unit counts as pending for R337: a saved team from its save on (R383). -/
def State.pendingSince (s : State) (p : Pending) : Nat :=
  match p.origin with
  | .image pa => ((Table.find s.images pa).map fun i => min p.since (field i.head 32 8)).getD p.since
  | _ => p.since

/-- Whether a grid has units that have been pending for 100 µs (R337, R383). -/
def State.longPending (s : State) (lid : Nat) : Bool :=
  s.dies.any fun e => e.2.queue.any fun p => s.lidOf p == some lid && decide (s.pendingSince p + 100000 ≤ s.dtime)

/-- Whether R337 keeps a pending team of a die from starting: a co-resident grid that has waited for 100 µs needs the die. -/
def State.blocked (s : State) (die : Nat) (p : Pending) : Bool :=
  s.grids.any fun g => (g.2.blocking || (g.2.record.cor && s.longPending g.1)) && s.lidOf p != some g.1 && decide (p.pri ≤ g.2.record.pri)
    && (s.neededDies g.1).contains die

/-- Whether units of a grid wait in a queue. -/
def State.waits (s : State) (lid : Nat) : Bool := (List.range 9).any fun d => (s.die d).queue.any fun p => s.lidOf p == some lid

/-- A grid none of whose units waits any more holds nobody back (R337). -/
def State.endBlocking (s : State) (lid : Nat) : State :=
  if s.waits lid then s else { s with grids := Table.alter s.grids lid fun g => { g with blocking := false } }

/-- The linear index of the first team of a pending unit. -/
def Origin.index : Origin → Nat
  | .grid _ b0 => b0
  | .part _ b0 ps => b0 + ps.headD 0
  | .restart t => t.b
  | _ => 0

/-- A pending team started, with its whole grid when that is co-resident (R337); the core of its position 0 is the answer. -/
def State.tryStart (s : State) (die : Nat) (p : Pending) : Option (CoreId × State) :=
  let cor := ((s.lidOf p).bind fun l => Table.find s.grids l).any fun g => g.record.cor
  match s.lidOf p, cor, p.origin with
  | _, _, .image _ => none
  | some lid, true, _ =>
    match startUnits (s.unitsOf lid) s with
    | some u =>
      let core := ((u.teams.find? fun e => decide (e.2.lid = lid ∧ e.2.b = p.origin.index)).map fun e => e.2.core).getD ⟨die, 0⟩
      some (core, u.endBlocking lid)
    | none => none
  | _, _, _ => s.startPending die p

/-- Whether a pending team, or the images of a saved one, fit now. -/
def State.fitsNow (s : State) (die : Nat) (p : Pending) : Bool :=
  match p.origin with
  | .image pa => (s.placeImages die (s.blockAt pa)).isSome
  | _ => (s.tryStart die p).isSome

/-- The dies on which the start of a pending team starts teams: those of its co-resident grid or of its cluster, too (R325, R337). -/
def State.startDies (s : State) (die : Nat) (p : Pending) : List Nat :=
  match p.origin with
  | .image _ => s.diesFor die p
  | _ =>
    match s.tryStart die p with
    | some (_, u) => die :: (u.teams.filter fun e => (s.team e.1).isNone).map fun e => e.2.core.die
    | none => [die]

/-- Whether R337 keeps a pending team from starting, on its own die or on one that starts with it. -/
def State.heldBack (s : State) (die : Nat) (p : Pending) : Bool :=
  (s.grids.any fun g => g.2.blocking || g.2.record.cor) && (s.startDies die p).any fun d => s.blocked d p

/-- Whether nothing that R337 lets start goes before a pending team of a die and fits; `own` counts the teams of its own grid too (R335). -/
def State.isNext (s : State) (die : Nat) (p : Pending) (own : Bool) : Bool :=
  let d := s.die die
  !(d.queue.any fun o => (own || s.lidOf o != s.lidOf p) && s.goesBefore d.df o p && !s.heldBack die o && s.fitsNow die o)

/-- The pending units that start together with a pending team: those of its co-resident grid, by die (R337). -/
def State.together (s : State) (p : Pending) : List (Nat × Pending) :=
  match s.lidOf p, p.origin with
  | _, .image _ => []
  | some lid, _ => if (Table.find s.grids lid).any fun g => g.record.cor then s.unitsOf lid else []
  | none, _ => []

/-- Whether a pending team's turn has come, on its own die and, where others start with it, on theirs (R335, R337); a device whose firmware was rejected starts none (R398). -/
def State.turnOf (s : State) (die : Nat) (p : Pending) : Bool :=
  !s.rejected && !s.heldBack die p && s.isNext die p true && (s.together p).all fun e => s.isNext e.1 e.2 false

/-- TEAM_START: the first team of a die's queue that fits on a core starts there; bins that have become ready are in the queue by then (R77, R334, R335, R337). -/
def execTeamStart (die n : Nat) (c : CoreId) (s : State) : Result :=
  let s := s.settleBins die
  let q := (s.die die).queue
  match q.find? fun p => p.n == n with
  | none => .next s
  | some p =>
    if !s.turnOf die p then .next s
    else match s.tryStart die p with
      | some (core, s') => .next (if core = c then s' else s)
      | none => .next s

/-- DISPATCH_WAIT_1MS: a team that has waited 1 ms goes first from then on, in the order of reaching it (R335). -/
def execDispatchWait1ms (die n : Nat) (s : State) : Result :=
  let due (p : Pending) : Bool := p.n == n && decide (p.since + 1000000 ≤ s.dtime)
  .next (s.alterDie die fun d => { d with queue := d.queue.map fun p => if due p then { p with aged := some (p.since + 1000000) } else p })

/-- CORES_PENDING_100US: a co-resident grid that has been pending for 100 µs holds back teams of equal or lower priority (R337, R383). -/
def execCoresPending100us (lid : Nat) (s : State) : Result :=
  .next { s with grids := Table.alter s.grids lid fun g => { g with blocking := g.blocking || (g.record.cor && s.longPending lid) } }

/-- BIN_TIMER_EXPIRY: the timer of a bin has run out with unassigned records, and the bin forms a team (R334). -/
def execBinTimerExpiry (die bin : Nat) (s : State) : Result := .next (s.settleBin die bin)

end Sys2Proof.Machine
end

