-- ==== Sys2Proof/Machine/Work.lean ====
section
/-! DEFINITION. Work handed to the dispatcher and between teams: launch (R328 to R331), spawn (R338), the loading of bins (R332, R333), remote invocation with its replies (R342 to R348), and edrain (R283). -/

namespace Sys2Proof.Machine

/-! Acceptance of a grid -/

/-- A grid as it is accepted (R329). -/
def gridOf (cn : Nat) (r : Record) (dtime : Nat) (pass : Option Nat) : Grid := ⟨cn, r, r.teams, false, 0, [], dtime, false, pass, false, []⟩

/-- The units of a grid with their dies, by position of the unit. -/
def Record.unitsOn (r : Record) (ds : List Nat) : List (Nat × Nat) := (List.range ds.length).map fun k => (k * r.ct, ds.getD k 0)

/-- Whether all the teams of a grid can be placed at once on an otherwise empty package (status 13 of R328). -/
def State.coResident (s : State) (cn : Nat) (r : Record) (ds : List Nat) : Bool :=
  let e := s.emptied
  let e := { e with grids := [(0, gridOf cn r s.dtime none)] }
  let ps := (r.unitsOn ds).map fun u => (u.2, (⟨u.1, .grid 0 u.1, r.pri, 0, 0, 0, none, r.key u.1⟩ : Pending))
  let sorted := ps.mergeSort fun a b => decide (a.1 < b.1 ∨ (a.1 = b.1 ∧ a.2.key ≤ b.2.key))
  (startUnits sorted e).isSome

/-- Whether a stitch is impossible (status 12 of R328). -/
def State.stitchBad (s : State) (r : Record) : Bool :=
  r.stitch != 0 && (r.xdie || (List.range 8).all fun d => (s.stitched d r).isEmpty)

/-- The status of a record that has been read, with the dies of its units, translated by a die (R328). -/
def State.judge (s : State) (die cn : Nat) (bs range : List Byte) : Nat × List Nat × State :=
  let r := recordOf bs
  let es := rangeEntries range
  let st := r.check (recordZeros bs) es
  if st ≠ 0 then (st, [], s)
  else if s.stitchBad r then (12, [], s)
  else
    let (ds, s) := s.unitDies die cn r es (r.teams / r.ct)
    if r.cor && !s.coResident cn r ds then (13, [], s) else (0, ds, s)

/-- The pending units of an accepted grid put into the queues of their dies (R335). -/
def State.queueUnits (s : State) (lid : Nat) (r : Record) (us : List (Nat × Nat)) : State :=
  us.foldl (fun (s : State) u =>
    let p : Pending := ⟨s.newId, .grid lid u.1, r.pri, 0, s.dtime, s.dtime, none, r.key u.1⟩
    (s.alterDie u.2 fun d => { d with queue := d.queue ++ [p] }).bump) s

/-- A grid accepted: its LID, the partition of its context, the range table written, its units queued (R322, R327, R329). -/
def State.acceptGrid (s : State) (die cn : Nat) (r : Record) (ds : List Nat) (pass : Option Nat) : Nat × State :=
  let (lid, s) := s.newLid
  let s := { s with grids := Table.put s.grids lid (gridOf cn r s.dtime pass) }
  let s := s.alterContext cn fun x => { x with part := r.part }
  let es := buildRanges r.ct 0 ds
  let s := if r.srcsel ∨ r.range = 0 then s
    else s.devicePieces die cn lid (addressOf r.range) [(0, es.flatMap RangeEntry.bytes)]
  (lid, s.queueUnits lid r (r.unitsOn ds))

/-- A launch by a reader: none while it meets a closed range; otherwise the status and the LID (R328, R331). -/
def State.launchBy (s : State) (one : State → VAddr → Nat → Piece) (die cn : Nat) (va : VAddr) (pass : Option Nat) : Option (Nat × Nat × State) :=
  match readRecord one va s with
  | .closed _ => none
  | .unreadable s => some (1, 0, s)
  | .ok bs range s =>
    let (st, ds, s) := s.judge die cn bs range
    if st ≠ 0 then some (st, 0, s)
    else
      let (lid, s) := s.acceptGrid die cn (recordOf bs) ds pass
      some (0, lid, s)

/-- launch (R330, R331): the reads of the record are loads of the thread, and the group is held while they meet a closed range. -/
def execLaunch (f : XF) (s : State) : Result :=
  runGroup s { guard := f.g, srcs := [.pair f.a false], dsts := [.pair f.d], inS := true } fun s t vs =>
    let va := arg64 vs 0
    let put (v : DWord) (s : State) : State := s.writeRegs t (writePair f.d v).regs
    let st : Option (Nat × Nat × State) :=
      if va.toNat % 8 ≠ 0 then some (1, 0, s)
      else s.launchBy (readAsThread t) (s.coreOf t).die (s.cnOf t) (addressOf va) none
    match st with
    | none => .wait (s.closedHold t (addressOf va)) s
    | some (st, lid, s) =>
      if st ≠ 0 ∧ f.lo.getLsbD 0 then .trap 0x180 [BitVec.ofNat 64 st] s
      else .done (put (BitVec.ofNat 64 (st + lid * 2 ^ 32)) s)

/-! spawn -/

/-- The bin of a die that serves an entry address in a context (R338). -/
def Die.binFor (d : Die) (cn : Nat) (entry : VAddr) : Option (Nat × Bin) :=
  d.bins.find? fun e => e.2.v && decide (e.2.cn = cn ∧ e.2.entry = entry.zeroExtend 64)

/-- spawn (R336, R338): bounded by the core's rate; the record's registers must be full once a bin is found that they fit. -/
def execSpawn (f : XF) (s : State) : Result :=
  runGroup s { guard := f.g, srcs := [.pair f.a false], dsts := [.one f.d], inS := true } fun s t vs =>
    match s.thread t, s.teamOf t with
    | some x, some m =>
      let k := s.core m.core
      let d := s.die m.core.die
      let b := f.b.toNat
      let paid := s.setCore m.core { k with spawnAt := k.clk + (if d.df then 8 else 4) }
      let refuse (st : Nat) : Attempt :=
        if f.lo.getLsbD 0 then .trap 0x181 [BitVec.ofNat 64 st] paid
        else .done (paid.writeRegs t (writeDst f.d (BitVec.ofNat 32 st)).regs)
      if k.clk < k.spawnAt then .wait (.spawn m.core k.spawnAt) s
      else match d.binFor m.cn (addressOf (arg64 vs 0)) with
        | none => refuse 2
        | some (n, bin) =>
          if 64 < b + bin.rs / 4 then refuse 3
          else if !x.fullRange b (bin.rs / 4) then .wait (.words t (x.words b (bin.rs / 4))) s
          else if bin.full m.pri then refuse 1
          else
            let bytes := (List.range (bin.rs / 4)).flatMap fun j => bytesOf (x.reg (b + j)) 4
            .done ((paid.appendRecord m.core.die n bytes none true).writeRegs t (writeDst f.d 0).regs)
    | _, _ => .done s

/-! edrain -/

/-- edrain (R255, R283): the wait for the thread's engine commands, then the failure count. -/
def execEdrain (f : XF) (s : State) : Result :=
  runGroup s { guard := f.g, dsts := [.one f.d], inS := true } fun s t _ =>
    match s.thread t with
    | none => .done s
    | some x =>
      if s.undrained t then .wait (.drain t) s
      else
        let s := s.place
        let s := (s.fenceHere t).acquire t
        if f.lo.getLsbD 0 ∧ x.failures ≠ 0 then .trap 0x144 [x.failures.zeroExtend 64] s
        else .done ((s.alterThread t fun x => { x with failures := 0 }).writeRegs t (writeDst f.d x.failures).regs)

/-! Replies -/

/-- A reply token (R345). -/
def tokenOf (gen : Byte) (dev team slot : Nat) : DWord :=
  BitVec.ofNat 64 (gen.toNat * 2 ^ 56 + dev % 2 ^ 16 * 2 ^ 32 + team % 2 ^ 24 * 2 ^ 8 + slot % 64)
def tokenDev (t : DWord) : Nat := t.toNat / 2 ^ 32 % 2 ^ 16
def tokenSlot (t : DWord) : Nat := t.toNat % 64

/-- The connection with a device for a class of messages: 0 invocations, 1 replies, 2 memory messages, 3 management (R397). -/
def connKey (dev cls : Nat) : Nat := 4 * dev + cls

/-- A packet sent on a connection, which is made with the first; on one that is lost nothing is sent any more (R397). -/
def State.packet (s : State) (conn : Nat) (o : Out) : State :=
  let c := Table.findD s.conns conn Connection.init
  if c.lost then s
  else
    let d : Connection := { c with next := c.next + 1, packets := Table.put c.packets c.next.toNat ⟨1, s.dtime, o⟩ }
    { s with conns := Table.put s.conns conn d }.emit (.packet conn c.next o)

/-- A reply that an agent of the package sends to the device that a token names (R345). -/
def State.answerFrom (s : State) (src : Agent) (token : DWord) (status : Nat) (value : Word) (reason : Nat) : State :=
  if tokenDev token = s.deviceNumber then s.send (.reply src token (BitVec.ofNat 32 status) value reason)
  else s.packet (connKey (tokenDev token) 1) (.reply token (BitVec.ofNat 32 status) value reason)

/-- A reply that Vetch sends (R343, R347). -/
def State.answer (s : State) (token : DWord) (status : Nat) (value : Word) (reason : Nat) : State := s.answerFrom .vetch token status value reason

/-- The slot of a team that a token names: taken, with its serial (R345, R348). -/
def Team.slotFor (m : Team) (dev team : Nat) (token : DWord) : Option ReplySlot :=
  (Table.find m.replies (tokenSlot token)).filter fun r => r.taken && tokenOf r.serial dev team (tokenSlot token) == token

/-- A reply written by its claimed rret, and the slot freed: the status, the result, the signature, and 0x184 for status 4 (R348, R392). -/
def State.landReply (s : State) (team slot : Nat) (t : Nat) (dest : List Nat) (pc : VAddr) (status value : Word) (reason : Nat) : State :=
  let id : ThreadId := ⟨team, t⟩
  let value := if status = 0 then value else 0
  let s := s.alterTeam team fun m => { m with replies := Table.alter m.replies slot fun r => { r with taken := false, claim := none, reply := none } }
  let live := ((s.thread id).map fun x => !x.gone).getD false
  let s := if live then
      ((s.fillWords id (dest.zip [status, value])).acquire id).alterThread id fun x => x.sign (value ++ status)
    else s
  if status = 4 then s.defer id ⟨0x184, pc, [BitVec.ofNat 64 reason]⟩ else s

/-- A reply that reaches its resident team: written when an rret has claimed its slot, otherwise kept there (R348). -/
def State.takeReply (s : State) (team : Nat) (token : DWord) (status value : Word) (reason : Nat) : State :=
  match (s.team team).bind fun m => m.slotFor (tokenDev token) team token with
  | none => s
  | some r =>
    match r.claim with
    | some (t, dest, pc) => s.landReply team (tokenSlot token) t dest pc status value reason
    | none => s.alterTeam team fun m =>
        { m with replies := Table.alter m.replies (tokenSlot token) fun r => { r with reply := some (r.reply.getD (status, value, reason)) } }

/-- rret (R348) -/
def execRret (f : XF) (s : State) : Result :=
  runGroup s { guard := f.g, srcs := [.pair f.a false], dsts := [.pair f.d] } fun s t vs =>
    match s.thread t, s.teamOf t with
    | some x, some m =>
      let token := arg64 vs 0
      let slot := tokenSlot token
      let pc := s.pcAt t
      let dest := x.words f.d.toNat 2
      match (m.slotFor s.deviceNumber t.team token).filter fun r => r.claim.isNone with
      | none => .trap 0x185 [] s
      | some r =>
        let s := s.alterThread t fun x => x.markEmpty dest
        let s := s.alterTeam t.team fun m => { m with replies := Table.put m.replies slot { r with claim := some (t.t, dest, pc) } }
        .done (match r.reply with
          | some (st, v, why) => s.landReply t.team slot t.t dest pc st v why
          | none => s)
    | _, _ => .done s

/-! Invocations -/

/-- Whether an invocation of a device cannot be connected, since one of the two has no number or no party holds it, or its connection is lost (R344, R397). -/
def State.unconnected (s : State) (dev : Nat) : Bool :=
  s.deviceNumber == 0 || dev == 0 || (dev != s.deviceNumber && !Config.holds dev s.dtime) || (Table.find s.conns (connKey dev 0)).any Connection.lost

/-- An invocation sent (R344, R347). -/
def State.invoke (s : State) (dev handler pri : Nat) (res : Bool) (token : DWord) (args : List Byte) : State :=
  if s.unconnected dev then s.send (.reply .vetch token 3 0 0)
  else if dev = s.deviceNumber then s.send (.invocation dev handler pri res token args)
  else s.packet (connKey dev 0) (.invocation dev handler pri res token args)

/-- The lowest free reply slot of a team (R347). -/
def Team.freeSlot (m : Team) : Option Nat :=
  (List.range 64).find? fun k => ((Table.find m.replies k).map fun r => !r.taken).getD true

/-- rinv.ack and rinv.res (R346, R347) -/
def rinvSend (f : RinvF) (s : State) : Result :=
  runGroup s { guard := f.g, srcs := [.one f.a false, .regs f.b.toNat f.narg.toNat], dsts := [.pair f.d], inS := true } fun s t vs =>
    match s.thread t, s.teamOf t with
    | some x, some m =>
      match m.freeSlot with
      | none => .trap 0x186 [] s
      | some k =>
        let gen := ((Table.find m.replies k).map ReplySlot.serial).getD 0 + 1
        let token := tokenOf gen s.deviceNumber t.team k
        let receiver := (arg vs 0).toNat
        let args := (List.range f.narg.toNat).flatMap fun j => bytesOf (x.reg (f.b.toNat + j)) 4
        let s := s.alterTeam t.team fun m => { m with replies := Table.put m.replies k ⟨gen, true, none, none⟩ }
        let s := s.writeRegs t (writePair f.d token).regs
        .done (s.invoke (receiver / 2 ^ 16) (receiver % 2 ^ 16) f.pri.toNat (f.var == 1) token args)
    | _, _ => .done s

/-- rinv.reply (R347) -/
def rinvReply (f : RinvF) (s : State) : Result :=
  runGroup s { guard := f.g, srcs := [.pair f.a false, .regs f.b.toNat 1], inS := true } fun s t vs =>
    match s.thread t, s.teamOf t with
    | some x, some m =>
      let token := arg64 vs 0
      if m.owed.contains token then
        .done ((s.alterTeam t.team fun m => { m with owed := m.owed.erase token }).answerFrom (.core (s.coreOf t)) token 0 (x.reg f.b.toNat) 0)
      else .trap 0x187 [] s
    | _, _ => .done s

/-- rinv (R346, R347) -/
def execRinv (f : RinvF) (s : State) : Result := if f.var = 2 then rinvReply f s else rinvSend f s

/-- What an entry of the handler table names, or the reason of its error reply (R342, R343). -/
inductive Handler where
  | bin (die bin : Nat)
  | service (n : Nat)
  | error (reason : Nat)
  deriving DecidableEq, Repr

/-- The entries 0 to 15 of the handler table as firmware installs them at start: 0 and 1 valid with DIE 8, each naming the service of its number, the others with V = 0; software does not change them (R342). -/
def firmwareEntry (h : Nat) : Nat := if h ≤ 1 then 0x88 * 2 ^ 56 + h * 2 ^ 48 else 0

/-- What an entry of the table names (R342, R343). -/
def handlerOf (e : Nat) : Handler :=
  let die := e / 2 ^ 56 % 16
  let bin := e / 2 ^ 48 % 256
  if e / 2 ^ 63 = 0 ∨ e / 2 ^ 60 % 8 ≠ 0 ∨ e % 2 ^ 48 ≠ 0 ∨ 8 < die then .error 2
  else if die = 8 then (if bin ≤ 1 then .service bin else .error 2)
  else .bin die bin

/-- The entry of a handler; one that meets an error reply is not valid (R241, R342, R343; DESIGN CHOICE, log 11). -/
def State.handler (s : State) (h : Nat) : Handler :=
  let pa := s.htbase.toNat + 8 * h
  if s.htsize.toNat ≤ h then .error 1
  else if h < 16 then handlerOf (firmwareEntry h)
  else if !inHbm pa ∨ (s.errorAt pa).isSome then .error 2
  else handlerOf (s.mem.num pa 8)

/-- The reply to an invocation that wants a result, or 0 to one that wants none (R348). -/
def State.result (s : State) (res : Bool) (token : DWord) (v : Nat) : State :=
  s.answer token 0 (if res then BitVec.ofNat 32 v else 0) 0

/-- Service 0: a launch; the result is the LID, or the status of a refusal (R342). -/
def State.serveLaunch (s : State) (res : Bool) (token : DWord) (args : List Byte) : State :=
  let cn := field args 0 4
  let va := field args 8 8
  match (if va % 8 ≠ 0 then some (1, 0, s) else s.launchBy (readAsDevice 8 cn) 8 cn (BitVec.ofNat 57 va) none) with
  | some (0, lid, s) => s.result res token lid
  | some (st, _, s) => s.result res token st
  | none => s.result res token 1

/-- Service 1: a grid wait; the result comes when the grid completes, or 2 at once where none is live (R342). -/
def State.serveWait (s : State) (res : Bool) (token : DWord) (args : List Byte) : State :=
  let lid := field args 0 4
  match Table.find s.grids lid with
  | none => s.result res token 2
  | some _ =>
    if res then { s with grids := Table.alter s.grids lid fun g => { g with waiters := g.waiters ++ [token] } }
    else s.result false token 0

/-- A record appended for an invocation, or its error or refusal (R343). -/
def State.serveBin (s : State) (die bin dev pri : Nat) (res : Bool) (token : DWord) (args : List Byte) : State :=
  match (Table.find (s.die die).bins bin).filter Bin.v with
  | none => s.answer token 4 0 3
  | some b =>
    if b.rs < 16 + args.length then s.answer token 4 0 4
    else if b.full pri then s.answer token 1 0 0
    else
      let bytes := args ++ List.replicate (b.rs - 16 - args.length) 0 ++ bytesOf token 8
        ++ bytesOf (BitVec.ofNat 16 dev) 2 ++ [BitVec.ofNat 8 pri] ++ List.replicate 5 0
      let s := s.appendRecord die bin bytes (if res then some token else none) false
      if res then s else s.answer token 0 0 0

/-- The die that an invocation is for; Vetch where it names no bin. -/
def State.handlerDie (s : State) (h : Nat) : Nat := match s.handler h with | .bin d _ => d | _ => 8

/-- Whether an invocation is the next one that Vetch serves: none of its sender and priority came before it, and none waits for its die with a higher priority, or with the same and earlier (R343, R344). -/
def State.nextInvocation (s : State) (n dev h pri : Nat) : Bool :=
  !s.msgs.any fun e => match e.2 with
    | .invocation dev' h' pri' .. =>
      (decide (e.1 < n) && dev' == dev && pri' == pri)
        || (s.handlerDie h' == s.handlerDie h && (decide (pri < pri') || (pri' == pri && decide (e.1 < n))))
    | _ => false

/-- An invocation served (R342, R343); it waits while its die is under warm reset. -/
def State.serve (s : State) (n dev h pri : Nat) (res : Bool) (token : DWord) (args : List Byte) : State :=
  let t := s.take n
  if s.deviceNumber = 0 then t.answer token 3 0 0
  else match s.handler h with
    | .error why => t.answer token 4 0 why
    | .service 0 => t.serveLaunch res token args
    | .service _ => t.serveWait res token args
    | .bin d b => if (s.die d).out then s else t.serveBin d b dev pri res token args

/-- INVOCATION_ARRIVAL (R343); a device whose firmware was rejected serves none (R398). -/
def execInvocationArrival (n : Nat) (s : State) : Result :=
  match Table.find s.msgs n with
  | some (.invocation dev h pri res token args) =>
    .next (if !s.rejected && s.nextInvocation n dev h pri then s.serve n dev h pri res token args else s)
  | _ => .next s

/-- REPLY_ARRIVAL: a reply in its turn, delivered to the resident team of the token, kept with its saved image, or discarded (R314, R345, R348). -/
def execReplyArrival (n : Nat) (s : State) : Result :=
  match Table.find s.msgs n with
  | some (.reply src token status value reason) =>
    let t := s.take n
    let team := tokenTeam token
    if !s.firstInLine n (.reply src token status value reason) then .next s
    else if (s.team team).isSome then .next (s.orLater (t.takeReply team token status value reason))
    else match s.images.find? fun e => e.2.teamId == team with
      | some e => .next (t.keepFor e.1 (.reply src token status value reason))
      | none => .next t
  | _ => .next s

/-! A connection that is lost -/

/-- The device that the latest invocation with a token was sent to. -/
def sentTo (token : DWord) (out : List Out) : Option Nat :=
  out.foldl (fun r o => match o with | .packet _ _ (.invocation dev _ _ _ tk _) => if tk = token then some dev else r | _ => r) none

/-- The tokens of a team whose invocations of a device have no reply yet. -/
def Team.unanswered (m : Team) (own team dev : Nat) (out : List Out) : List DWord :=
  m.replies.filterMap fun e =>
    let token := tokenOf e.2.serial own team e.1
    if e.2.taken && e.2.reply.isNone && sentTo token out == some dev then some token else none

/-- Every token of the device whose invocation of another device has no reply yet. -/
def State.unanswered (s : State) (dev : Nat) : List DWord :=
  let out := s.outbox ++ s.unsent
  (s.teams.flatMap fun e => e.2.unanswered s.deviceNumber e.1 dev out)
    ++ s.images.flatMap fun e => e.2.team.unanswered s.deviceNumber e.2.teamId dev out

/-- Whether something sent is a packet of a connection. -/
def Out.isOn (conn : Nat) : Out → Bool
  | .packet c _ _ => c == conn
  | _ => false

/-- A connection declared lost: what still waited to be sent on it is not, and of one for invocations, every invocation without an answer gets status 3 (R344, R397). -/
def State.loseConnection (s : State) (n : Nat) (c : Connection) : State :=
  let s := { s with conns := Table.put s.conns n { c with lost := true } }
  let gone := { s with unsent := s.unsent.filter fun o => !o.isOn n }
  if n % 4 ≠ 0 then gone
  else (s.unanswered (n / 4)).foldl (fun (s : State) t => s.send (.reply .vetch t 3 0 0)) gone

/-- Whether a packet has gone unacknowledged for 20 µs since it was last sent (R397). -/
def Packet.due (p : Packet) (dtime : Nat) : Bool := decide (p.last + 20000 ≤ dtime)

/-- A packet of a connection sent again; one that has still to leave for want of a port is not put twice into what waits (R396, R397). -/
def State.resend (s : State) (n : Nat) (seq : Nat) (p : Packet) : State :=
  let o : Out := .packet n (BitVec.ofNat 32 seq) p.out
  let s := { s with conns := Table.alter s.conns n fun c => { c with packets := Table.put c.packets seq { p with sent := p.sent + 1, last := s.dtime } } }
  if s.unsent.contains o then s else s.emit o

/-- RETRANSMIT_TIMEOUT: every packet of a connection that has gone unacknowledged for 20 µs is sent again; where one has been sent 8 times the connection is lost (R344, R397; DEDUCED, log 17). -/
def execRetransmitTimeout (n : Nat) (s : State) : Result :=
  match Table.find s.conns n with
  | none => .next s
  | some c =>
    let due := c.packets.filter fun e => e.2.due s.dtime
    .next (if c.lost then s
      else if due.any fun e => decide (8 ≤ e.2.sent) then s.loseConnection n c
      else due.foldl (fun (s : State) e => s.resend n e.1 e.2) s)

/-! BINLOAD -/

/-- The bin that an image holds (R332). -/
def binOf (bs : List Byte) (r : Option Record) : Bin where
  v := field bs 35 1 % 2 == 1
  entry := BitVec.ofNat 64 (field bs 0 8)
  tmpl := BitVec.ofNat 64 (field bs 8 8)
  store := BitVec.ofNat 64 (field bs 16 8)
  timer := field bs 24 4
  cap := field bs 28 2
  rsv := field bs 30 2
  rs := field bs 32 1
  coalm := field bs 33 1
  pri := field bs 34 1 % 4
  depth := field bs 34 1 / 4
  hofs := field bs 36 1
  cn := field bs 40 4
  record := r
  held := []

/-- The must-be-0 bytes of a bin image (R332). -/
def binZeros (bs : List Byte) : Bool := decide (field bs 35 1 < 2) && zeroField bs 37 3 && zeroField bs 44 4

/-- Whether the other fields of a bin image keep to R332. -/
def Bin.fieldsOk (b : Bin) : Bool :=
  decide (1 ≤ b.cap ∧ b.rsv < b.cap ∧ b.rs % 4 = 0 ∧ 4 ≤ b.rs ∧ b.rs ≤ 64) && (b.hofs == 0xFF || decide (b.hofs % 8 = 0 ∧ b.hofs + 8 ≤ b.rs))

/-- The template record of a bin, read in its context and passing R328, with a grid and a cluster of one team; none where a bin is refused for it (R332, R333). -/
def State.template (s : State) (die : Nat) (b : Bin) : Option (Record × State) :=
  if b.tmpl.toNat % 8 ≠ 0 then none
  else match readRecord (readAsDevice die b.cn) (addressOf b.tmpl) s with
    | .ok bs range s =>
      let (st, _, s) := s.judge die b.cn bs range
      let r := recordOf bs
      if st = 0 ∧ r.gx = 1 ∧ r.gy = 1 ∧ r.gz = 1 ∧ r.cr = 1 ∧ r.cc = 1 then some (r, s) else none
    | _ => none

/-- Whether bin `n` of a die holds records, or a team that has not yet started (R333). -/
def State.binBusy (s : State) (die n : Nat) : Bool :=
  ((Table.find (s.die die).bins n).any fun b => b.held != []) || (s.die die).queue.any fun p => p.origin == .bin n

/-- The bin that a BINLOAD installs; none where it is refused (R333). -/
def State.binImage (s : State) (die n pa : Nat) : Option (Bin × State) :=
  if pa % 64 ≠ 0 ∨ !inHbm pa ∨ (s.errorAt pa).isSome then none
  else
    let bs := s.bytes pa 48
    let s := s.place
    let b := binOf bs none
    if !binZeros bs || s.binBusy die n then none
    else if !b.v then some (b, s)
    else if !b.fieldsOk || (s.die die).bins.any (fun e => decide (e.1 ≠ n) && e.2.v && e.2.entry == b.entry) then none
    else match s.template die b with
      | none => none
      | some (r, s) =>
        if 16384 < b.coalm * b.rs ∨ (r.arrays = [] ∧ (0 < b.coalm ∨ 48 < b.rs)) then none
        else some ({ b with record := some r }, s)

/-- A write of BINLOAD of a die (R333). -/
def State.loadBin (s : State) (die : Nat) (v : DWord) : State :=
  let n := v.toNat / 2 ^ 56
  match s.binImage die n (v.toNat % 2 ^ 52) with
  | some (b, s) => s.alterDie die fun d => { d with bins := Table.put d.bins n b }
  | none => s.alterDie die fun d => { d with binErr := true, lbin := BitVec.ofNat 8 n }

/-- BINLOAD (R333) -/
def execBinload (die : Nat) (v : DWord) (s : State) : Result := .next (s.loadBin die v)

end Sys2Proof.Machine
end

