-- ==== Sys2Proof/Machine/Session.lean ====
section
/-! DEFINITION. The replay session (R390 to R392): its descriptor, the start and the end of a pass, and the signatures of teams. -/

namespace Sys2Proof.Machine

/-- RPSTAT: STATUS, the R328 status and the pass (R390). -/
def rpstatOf (status refused pass : Nat) : DWord := BitVec.ofNat 64 (status + refused * 2 ^ 8 + pass * 2 ^ 16)

/-- The session over with a status. -/
def State.endSession (s : State) (status refused pass : Nat) : State := { s with replay := none, rpstat := rpstatOf status refused pass }

/-- ECSEL0 to 3 and ECNT0 to 3 of a core as a pass sets them, with what these counts have risen by in this clk and the samples they owe; the other counts go on (R386, R387, R391). -/
def passCounters (ev : List Nat) (pass lid : Nat) (k : Core) : Core :=
  let set (m : Sparse 64) (n : Nat) : Sparse 64 := (m.set n (BitVec.ofNat 64 (ev.getD (4 * pass + n) 0 + lid * 2 ^ 32))).set (4 + n) 0
  { k with obs := (List.range 4).foldl set k.obs, accrued := k.accrued.filter fun e => !(4 ≤ e.1 && e.1 < 8), samples := [] }

/-- The cores of the Sorrel dies. -/
def sorrelCores : List CoreId := (List.range 8).flatMap fun d => (List.range Config.cores).map fun n => ⟨d, n⟩

/-- A pass begun: its grid launched, its counters set; a refusal ends the session with STATUS 3 (R391). -/
def State.beginPass (s : State) (r : Replay) (p : Nat) : State :=
  let l := if r.lrec.toNat % 8 ≠ 0 then some (1, 0, s) else s.launchBy (readAsDevice 8 r.cn) 8 r.cn (addressOf r.lrec) (some p)
  match l with
  | some (0, lid, s) =>
    let s := sorrelCores.foldl (fun (s : State) c => s.alterCore c (passCounters r.ev p lid)) s
    { s with
      replay := some { r with pass := p, lid := lid, lids := lid :: r.lids, began := s.dtime, mismatches := 0, mismatch := false }
      rpstat := rpstatOf 1 0 p }
  | some (st, _, s) => s.endSession 3 st p
  | none => s.endSession 3 1 p

/-- Whether consecutive bytes lie in HBM4E and are read without an error reply (R241). -/
def State.readable (s : State) (pa n : Nat) : Bool :=
  n == 0 || (inHbm pa && inHbm (pa + n - 1)
    && (List.range (n / 64 + 2)).all fun k => decide (pa + n ≤ pa / 64 * 64 + 64 * k) || (s.errorAt (pa / 64 * 64 + 64 * k)).isNone)

/-- The descriptor of a session at a PA; none where it cannot be read or a field is outside R390. -/
def State.descriptor (s : State) (pa : Nat) : Option Replay :=
  let n := field (s.bytes pa 48) 20 1
  if pa % 8 ≠ 0 ∨ !s.readable pa 48 ∨ !s.readable pa (48 + 4 * n) then none
  else
    let bs := s.bytes pa (48 + 4 * n)
    if n < 1 ∨ 16 < n ∨ field bs 21 1 ≥ 2 ∨ !zeroField bs 22 2 ∨ !zeroField bs 28 4 ∨ !zeroField bs 40 8
        ∨ field bs 8 8 % 65536 ≠ 0 then none
    else some {
      lrec := BitVec.ofNat 64 (field bs 0 8)
      wsbuf := field bs 8 8
      wspages := field bs 16 4
      npass := n
      te := field bs 21 1 == 1
      cn := field bs 24 4
      res := BitVec.ofNat 64 (field bs 32 8)
      ev := (List.range (4 * n)).map fun k => field bs (48 + k) 1
      pass := 0
      lid := 0
      lids := []
      began := 0
      pages := []
      sigs := []
      mismatches := 0
      isOver := false
      mismatch := false }

/-- A write of RPSTART: a session begins, or the write finds one running (R390). -/
def State.startReplay (s : State) (v : DWord) : State :=
  if s.replay.isSome then { s with rpstat := (s.rpstat &&& 0xFFFFFFFFFFFFFF00) ||| 6 }
  else match s.descriptor (v.toNat % 2 ^ 52) with
    | none => { s with rpstat := rpstatOf 5 0 0 }
    | some r => s.place.beginPass r 0

/-- RPSTART (R390) -/
def execRpstart (v : DWord) (s : State) : Result := .next (s.startReplay v)

/-- A team's signature: the sum of its threads' (R392). -/
def State.signature (s : State) (team : Nat) : DWord :=
  (s.threads.filter fun e => decide (e.1.team = team)).foldl (fun v e => v + e.2.sig) 0

/-- The signature of a retiring team of the session's grid kept, or compared with that of pass 0 (R392). -/
def State.noteSignature (s : State) (team : Nat) (m : Team) : State :=
  match s.replay with
  | none => s
  | some r =>
    if m.lid ≠ r.lid then s
    else
      let sig := s.signature team
      if r.pass = 0 then { s with replay := some { r with sigs := Table.put r.sigs m.b sig } }
      else if Table.findD r.sigs m.b 0 = sig then s
      else
        let s := { s with replay := some { r with mismatch := true, mismatches := r.mismatches + 1 } }
        if r.te then s.reportNone m.core { Name.none with lid := m.lid } ⟨0x1C4, 0, auxWords []⟩ else s

/-- The signatures of pass 0 kept after the captured pages, where there is room for them (R392), but not on a die under warm reset (R401; DESIGN CHOICE, log 20). -/
def State.keepSignatures (s : State) (r : Replay) (teams : Nat) : State :=
  let base := r.wsbuf + 65536 * r.pages.length
  if 65536 * r.wspages < 65536 * r.pages.length + 8 * teams then { s with replay := some { r with isOver := true } }
  else if (s.die (homeDie base)).out then s
  else (List.range teams).foldl (fun (s : State) b => s.rawBytes (base + 8 * b) (bytesOf (Table.findD r.sigs b 0) 8)) s

/-- The counts of counter `n` summed over the cores. -/
def State.sumCounter (s : State) (n : Nat) : DWord := s.cores.foldl (fun v e => if e.1.isSorrel then v + e.2.obs.get (4 + n) else v) 0

/-- The result of a pass written, FLAGS last, and the kind-5 record emitted (R391); its source is hub core 0 (DESIGN CHOICE, log 23). -/
def State.passResult (s : State) (r : Replay) : State :=
  let flags := 1 + (if r.mismatch then 2 else 0) + (if r.isOver then 4 else 0)
  let ps := [(0, (List.range 4).flatMap fun n => bytesOf (s.sumCounter n) 8),
    (36, bytesOf (BitVec.ofNat 32 r.mismatches) 4 ++ bytesOf (BitVec.ofNat 64 (s.dtime - r.began)) 8), (32, bytesOf (BitVec.ofNat 32 flags) 4)]
  (s.devicePieces 8 r.cn r.lid (addressOf r.res + BitVec.ofNat 57 (48 * r.pass)) ps).trace ⟨8, 0⟩
    { Name.none with lid := r.lid } 0 5 (BitVec.ofNat 64 r.pass)

/-- Every cache of the package empty, as memory holds what they held (R391, R400). -/
def State.dropCaches (s : State) : State :=
  { s with
    cores := s.cores.map fun (e : CoreId × Core) => (e.1, { e.2 with l1 := [] })
    dies := s.dies.map fun (e : Nat × Die) => (e.1, { e.2 with l2 := [] })
    llc := [] }

/-- Every kept translation dropped (R373, R391). -/
def State.dropKept (s : State) : State := { s with dies := s.dies.map fun (e : Nat × Die) => (e.1, { e.2 with kept := [] }) }

/-- The captured pages written back from the write-set buffer (R391), but for those whose copies a die under warm reset holds (R401; DESIGN CHOICE, log 20). -/
def State.restorePages (s : State) (r : Replay) : State :=
  (List.range r.pages.length).foldl (fun (s : State) i =>
    if (s.die (homeDie (r.wsbuf + 65536 * i))).out then s
    else s.deviceLines (65536 * r.pages.getD i 0) 256 (s.bytes (r.wsbuf + 65536 * i) 65536)) s

/-- ECNT0 to 3 of every core zeroed before a later pass is launched (R391). -/
def State.zeroCounts (s : State) : State :=
  { s with cores := s.cores.map fun (e : CoreId × Core) => (e.1, { e.2 with
      obs := (List.range 4).foldl (fun (m : Sparse 64) n => m.set (4 + n) 0) e.2.obs
      accrued := e.2.accrued.filter fun x => !(4 ≤ x.1 && x.1 < 8)
      samples := [] }) }

/-- The end of a pass, when its grid completes: its result, then the next pass or the end of the session (R391). -/
def State.endPass (s : State) (teams : Nat) : State :=
  match s.replay with
  | none => s
  | some r =>
    let s := if r.pass = 0 then s.keepSignatures r teams else s
    let r := s.replay.getD r
    let s := s.passResult r
    if r.isOver then s.endSession 4 0 r.pass
    else if r.pass + 1 < r.npass then ((s.restorePages r).dropCaches.dropKept.zeroCounts).beginPass r (r.pass + 1)
    else s.endSession 2 0 r.pass

end Sys2Proof.Machine
end

