-- ==== Sys2Proof/Machine/Held.lean ====
section
/-! DEFINITION. When what holds a formed group has ended (R81), when a group can go on, when the waits of a header hold (R48), and when a deferred cause can be delivered (R360). -/

namespace Sys2Proof.Machine

/-- Whether the words that a thread waits for are full. -/
def State.wordsFull (s : State) (t : ThreadId) (ws : List Nat) : Bool :=
  match s.thread t with | some x => ws.all fun w => !x.empties.contains w | none => true

/-- The length of a thread's queue. -/
def State.queueLength (s : State) (t : ThreadId) (q : Nat) : Nat := ((s.thread t).map fun x => (x.queue q).length).getD 0

/-- Whether a send or a receive that waits at a channel can go on, or finds it closed (R307, R308). -/
def State.channelReady (s : State) (t : ThreadId) (ch q : Nat) (send : Bool) : Bool :=
  match s.teamOf t with
  | none => true
  | some m =>
    match Table.find s.channels (m.channelKey ch) with
    | none => true
    | some h =>
      if send then h.dstGone || s.sendReady t m q h || (Table.find h.senders t).isNone
      else h.closedForRecv || (s.recvReady t q h).isSome || !h.receivers.contains t

/-- Whether a page of a context lies in a closed range (R353). -/
def State.pageClosed (s : State) (cn page : Nat) : Bool :=
  match s.walkNow cn (BitVec.ofNat 57 (page * 65536)) with
  | .leaf _ addr _ => s.gives.any fun g => g.2.closed && g.2.leaves.contains addr
  | _ => false

/-- Whether the fetch of a clause at a header would meet a closed range (R353). -/
def State.fetchClosed (s : State) (cn : Nat) (pc : VAddr) : Bool :=
  s.gives.any (fun g => g.2.closed) && (s.pageClosed cn (pc.toNat / 65536) || s.pageClosed cn ((pc + 136).toNat / 65536))

/-- Whether accesses that have been translated in a context, or in any, are still to be performed: engine writes, and the stores of acst (R215, R373). -/
def State.landingIn (s : State) (cn : Option Nat) : Bool :=
  (s.commands.any fun e => (cn == none || cn == some e.2.cn) && !e.2.writes.isEmpty)
    || s.cores.any fun e => e.2.accq.any fun q => match q.2 with
      | .store t .. => cn == none || cn == some (s.cnOf t)
      | _ => false

/-- Whether a hold has ended (R81). The holds that something else ends by finishing a member last as long as a member is engaged. -/
def Hold.ended (s : State) (g : Group) : Hold → Bool
  | .words t ws => s.wordsFull t ws
  | .pop t q n => decide (n ≤ s.queueLength t q)
  | .push t q n => decide (s.queueLength t q + n ≤ 16)
  | .engaged => g.engaged.isEmpty
  | .mode c a req => !s.requestPending c a req
  | .amode _ _ _ => g.engaged.isEmpty
  | .array c a => decide ((s.array c a).mmas.length < 4)
  | .kregs c ks => ks.all fun k => !s.kInFlight c k
  | .stores t => !s.storePending t
  | .updates _ _ _ => g.engaged.isEmpty
  | .sync a b n => s.pathsClear a b n
  | .channel t ch q send => s.channelReady t ch q send
  | .drain t => !s.undrained t
  | .spawn c until_ => decide (until_ ≤ (s.core c).clk)
  | .landing cn => !s.landingIn cn
  | .closed cn page => !s.pageClosed cn page

/-- The thread that a hold is about. -/
def Hold.about : Hold → Option ThreadId
  | .words t _ => some t
  | .pop t _ _ => some t
  | .push t _ _ => some t
  | .stores t => some t
  | .channel t _ _ _ => some t
  | .drain t => some t
  | _ => none

/-- Whether a group's hold is over, or is about a thread that has left the group. -/
def State.holdOver (s : State) (n : Nat) (g : Group) : Bool :=
  match g.hold with
  | none => true
  | some h =>
    h.ended s g ||
      match h.about with
      | some t => (s.thread t).map Thread.status != some (.member n)
      | none => false

/-- Whether a group can issue its next instruction: it is not held, and a member has still to execute it elsewhere than where it is under way (R81, R83). -/
def State.canIssue (s : State) (n : Nat) (g : Group) : Bool :=
  s.holdOver n g && g.members.any fun t => !g.done.contains t && !g.engaged.contains t

/-- The instruction that a group executes. -/
def Group.instr (g : Group) : Option Instr :=
  match g.clause.words[g.idx]? with
  | some (.word w) => (decodeWord g.clause.table w).toOption
  | _ => none

/-- The instruction that a thread's group executes. -/
def State.presentInstr (s : State) (t : ThreadId) : Option Instr := (s.groupOf t).bind Group.instr

/-! What a thread at a boundary can do next -/

/-- The header that a thread's PC names, as a fetch would find it now; none where it cannot be fetched or is not valid. -/
def State.peekHeader (s : State) (t : ThreadId) (pc : VAddr) : Option Header :=
  if pc.toNat % 8 ≠ 0 then none
  else match s.fetchWord t pc with
    | .got (.word w) _ => if (headerOf w).valid then some (headerOf w) else none
    | _ => none

/-- Whether the waits of a header hold for a thread (R48). -/
def Thread.waitsHold (x : Thread) (h : Header) : Bool :=
  (List.range 8).all fun n => (!h.qwait.getLsbD n || x.queue n != []) && (!h.wwait.getLsbD n || x.full n)

/-- Whether a thread stands at an instruction boundary outside a handler with a cause to deliver (R360). -/
def State.deliverable (s : State) (t : ThreadId) : Bool :=
  match s.thread t with
  | none => false
  | some x =>
    !x.inHandler && x.deferred != [] &&
      match x.status with
      | .waiting _ => true
      | .eligible _ => true
      | .member n => (s.group n).any fun g => !g.engaged.contains t.t
      | _ => false

/-- Whether a handler entry of a thread waits for writes in flight (R361). -/
def Thread.isEntering (x : Thread) : Bool := match x.status with | .entering _ _ => true | _ => false

/-- The boundary that a member of a group stands at, with its place in the clause: before the present instruction, or after it where the member has executed it already (R81, R361). -/
def Group.boundary (g : Group) (t : Nat) : VAddr × Option (Clause × Nat) :=
  if !g.done.contains t then (g.pc, some (g.clause, g.idx))
  else if g.idx + 1 < g.clause.words.length then (g.clause.address (g.idx + 1), some (g.clause, g.idx + 1))
  else (g.clause.next, none)

/-- The oldest queued cause delivered at a boundary, whose PC is TRET (R360, R361). -/
def State.deliverDeferred (s : State) (t : ThreadId) (x : Thread) (tr : Trap) : State :=
  let s := s.setThread t { x with deferred := x.deferred.drop 1 }
  match x.status with
  | .member n =>
    match s.group n with
    | some g => (s.takeTrap t tr (g.boundary t.t).1 (g.boundary t.t).2).passOn n
    | none => s
  | _ => s.takeTrap t tr x.pc none

end Sys2Proof.Machine
end

