-- ==== Sys2Proof/Machine/Pause.lean ====
section
/-! DEFINITION. Teams that stop (R378, R389): which teams form and issue nothing, how threads that wait elsewhere are unwound (R183, R298, R307), groups that resume inside a clause (R87), and the stepping unit. -/

namespace Sys2Proof.Machine

/-- The threads that have reached their step points (R389). -/
def Team.reached (m : Team) : NatSet := match m.stepMode with | .running _ r => r | _ => []

/-- A member whose execution of its instruction ends without effect: it will execute the instruction again. -/
def State.disengage (s : State) (t : ThreadId) : State :=
  match (s.thread t).map Thread.status with
  | some (.member n) => s.alterGroup n fun g =>
      let e := g.engaged.filter fun u => decide (u ≠ t.t)
      { g with engaged := e, hold := if e = [] then none else some .engaged }
  | _ => s

/-- The threads of a team that are parked at field words, asleep at barrier objects, or held in kvtake (R182, R302, R358). -/
def State.unwindable (s : State) (team : Nat) (m : Team) : List ThreadId :=
  let k := s.core m.core
  let parked := k.arrays.flatMap fun e => e.2.waiters.map Waiter.t
  let asleep := k.barriers.flatMap fun e => e.2.sleepers
  let taking := s.groups.flatMap fun e => match e.2.instr with
    | some (.kvtake _) => e.2.engaged.map fun t => (⟨e.2.team, t⟩ : ThreadId)
    | _ => []
  (parked ++ asleep ++ taking).filter fun t => decide (t.team = team)

/-- What a core keeps of threads that wait there, without those that satisfy a test. -/
def Core.without (k : Core) (out : ThreadId → Bool) : Core :=
  { k with
    arrays := k.arrays.map fun (e : Nat × FieldArray) => (e.1, { e.2 with waiters := e.2.waiters.filter fun w => !out w.t })
    barriers := k.barriers.map fun (e : Nat × Barrier) => (e.1, { e.2 with sleepers := e.2.sleepers.filter fun t => !out t }) }

/-- Channels without the places of threads that satisfy a test among those that wait. -/
def State.channelsWithout (s : State) (out : ThreadId → Bool) : Table (Nat × Nat × Nat) Channel :=
  s.channels.map fun (e : (Nat × Nat × Nat) × Channel) =>
    (e.1, { e.2 with senders := e.2.senders.filter (fun u => !out u.1), receivers := e.2.receivers.filter fun t => !out t })

/-- The registers that a waiting field access has marked empty are full again with the values that they had: its instruction has had no effect, and PROG has not counted it (R121, R183). -/
def State.takeBack (s : State) (w : Waiter) : State :=
  (s.alterThread w.t fun x => { x with empties := x.empties.filter fun e => !w.empties.contains e }).alterTeam w.t.team fun m =>
    { m with prog := m.prog - 1 }

/-- The field accesses that wait on a core, of threads that satisfy a test. -/
def Core.waitersOf (k : Core) (out : ThreadId → Bool) : List Waiter := k.arrays.flatMap fun e => e.2.waiters.filter fun w => out w.t

/-- A team unwound: its threads leave the lists of field words and of barrier objects and the queues of channels, and will execute the same instructions again; pending rendezvous, waiting arrivals and the places of held pushes stay (R105, R183, R265, R298, R307). -/
def State.unwind (s : State) (team : Nat) : State :=
  match s.team team with
  | none => s
  | some m =>
    let out (t : ThreadId) : Bool := decide (t.team = team)
    let ts := s.unwindable team m
    let s := ((s.core m.core).waitersOf out).foldl (fun (s : State) w => s.takeBack w) s
    let s := s.alterCore m.core fun k => k.without out
    let s := { s with
      channels := s.channelsWithout out
      groups := s.groups.map fun (e : Nat × Group) => if e.2.team = team then (e.1, { e.2 with asked := none }) else e }
    ts.foldl (fun (s : State) t => s.disengage t) s

/-- The held pushes of a team that is saved or discarded: the instructions have not executed (R265, R378). A collective whose rendezvous has completed and whose push of D still waits for room in its engine is executed again after the restore: R105 speaks of pending rendezvous only (DESIGN CHOICE, log 18). -/
def State.dropPushes (s : State) (team : Nat) : State :=
  let mine := (s.heldPushes.filter fun e => decide (e.2.t.team = team)).map Prod.snd
  let s := { s with heldPushes := s.heldPushes.filter fun e => decide (e.2.t.team ≠ team) }
  let s := s.alterTeam team fun m => { m with prog := m.prog - (mine.filter HeldPush.counted).length }
  mine.foldl (fun (s : State) h => s.disengage h.t) s

/-- One thread taken out of everything that it waits in, its pending rendezvous and its waiting arrival included, before it is stopped from outside (R362). -/
def State.abandon (s : State) (t : ThreadId) : State :=
  match s.teamOf t with
  | none => s
  | some m =>
    let out (u : ThreadId) : Bool := decide (u = t)
    let late (a : Arrival) : Bool := match a with | .thread u .. => out u | _ => false
    let s := ((s.core m.core).waitersOf out).foldl (fun (s : State) w => s.takeBack w) s
    let s := s.alterCore m.core fun k =>
      let k := k.without out
      { k with barriers := k.barriers.map fun (e : Nat × Barrier) =>
          (e.1, { e.2 with queue := e.2.queue.filter (fun a => !late a), linking := e.2.linking.filter fun l => !out l.2 }) }
    let mine (r : Rendezvous) : Rendezvous :=
      if r.hg = homeGroupOf t.t then { r with arrived := r.arrived.filter fun e => decide (e.1 ≠ laneOf t.t) } else r
    s.alterTeam t.team fun m => { m with rendezvous := (m.rendezvous.map mine).filter fun r => r.arrived != [] }

/-! Groups of one thread -/

/-- A thread that goes on inside a clause in a group of its own (R87). -/
def State.resumeAlone (s : State) (t : ThreadId) (x : Clause) (k slot : Nat) : State :=
  match s.teamOf t with
  | none => s
  | some m =>
    let n := s.newId
    let role := ((m.roleOf t.t).map Role.kind).getD 0
    let g : Group := ⟨t.team, role, m.core, slot, x, k, [t.t], [], [], none, false, [], none⟩
    (({ s with groups := Table.put s.groups n g }).alterThread t fun y => { y with status := .member n, pc := x.header }).bump

/-- The threads of a team that brk stopped go on, each passing its brk once as nop (R393). No rule names the slot of their groups: the model gives them slot 0 (R87; DESIGN CHOICE, log 18). -/
def State.releaseBrk (s : State) (team : Nat) : State :=
  s.threads.foldl (fun (s : State) e =>
    if e.1.team = team then
      match e.2.status with
      | .stopped (some (x, k)) => (s.alterThread e.1 fun y => { y with brkPass := some (x.address k) }).resumeAlone e.1 x k 0
      | _ => s
    else s) s

/-! The stepping unit (R389) -/

/-- STEPSTAT with a status and BUSY. -/
def stepstatOf (status : Nat) (busy : Bool) : DWord := BitVec.ofNat 64 (status * 2 ^ 8 + (if busy then 1 else 0))

/-- The resident team that a step command of a die names. -/
def State.stepTarget (s : State) (die : Nat) (v : DWord) : Option (Nat × Team) :=
  let b := (s.die die).stepteam.toNat
  s.teams.find? fun e => decide (e.2.core.die = die ∧ e.2.lid = v.toNat / 2 ^ 32 ∧ e.2.b = b)

/-- Whether a step of a team of a die runs (R389). -/
def State.stepping (s : State) (die : Nat) : Bool :=
  s.teams.any fun e => e.2.core.die == die && match e.2.stepMode with | .running _ _ => true | _ => false

/-- STEPSTAT with the STATUS of a command, and BUSY while a step of any team runs (R389). -/
def State.stepStatus (s : State) (die status : Nat) : State :=
  s.alterDie die fun d => { d with stepstat := stepstatOf status (s.stepping die) }

/-- enter: the team stops, unwound in place (R389). -/
def State.stepEnter (s : State) (die : Nat) (v : DWord) : State :=
  match s.stepTarget die v with
  | none => s.stepStatus die 1
  | some (n, m) =>
    if m.stepMode ≠ .none then s.stepStatus die 3
    else ((s.unwind n).alterTeam n fun m => { m with stepMode := .stopped }).stepStatus die 0

/-- A step ends: the team stops again and a kind-3 record is emitted (R388, R389). -/
def State.endStep (s : State) (n : Nat) : State :=
  match s.team n with
  | none => s
  | some m =>
    match m.stepMode with
    | .running _ r =>
      let s := (s.unwind n).alterTeam n fun m => { m with stepMode := .stopped }
      let s := s.stepStatus m.core.die ((s.die m.core.die).stepstat.toNat / 256 % 256)
      s.trace m.core { Name.none with lid := m.lid } 0 3 (BitVec.ofNat 64 r.length)
    | _ => s

/-- step: the team runs until every thread stands at its step point, or the bound ends it; where a pre-emption has stopped every thread the step ends at once, and the team resumes stopped (R378, R389). -/
def State.stepStep (s : State) (die : Nat) (v : DWord) : State :=
  match s.stepTarget die v with
  | none => s.stepStatus die 1
  | some (n, m) =>
    match m.stepMode with
    | .none => s.stepStatus die 2
    | .running _ _ => s
    | .stopped =>
      let limit := v.toNat / 2 ^ 16 % 2 ^ 16
      let end_ := if limit = 0 then none else some ((s.core m.core).clk + 1024 * limit)
      let s := s.alterTeam n fun m => { m with stepMode := .running end_ [] }
      if m.frozen then (s.stepStatus die 0).endStep n else (s.releaseBrk n).stepStatus die 0

/-- leave: the team issues normally again (R389). -/
def State.stepLeave (s : State) (die : Nat) (v : DWord) : State :=
  match s.stepTarget die v with
  | none => s.stepStatus die 1
  | some (n, m) =>
    if m.stepMode = .none then s.stepStatus die 2
    else ((s.alterTeam n fun m => { m with stepMode := .none }).releaseBrk n).stepStatus die 0

/-- A write of STEPCMD (R389). -/
def State.stepCommand (s : State) (die : Nat) (v : DWord) : State :=
  match v.toNat % 4 with
  | 1 => s.stepEnter die v
  | 2 => s.stepStep die v
  | 3 => s.stepLeave die v
  | _ => s

/-- Whether something of a team is under way that may release a thread of it: an access, a command, an mma, an accumulator access, an arrival of words, a resize or a yield delay. -/
def State.underWay (s : State) (n : Nat) (m : Team) : Bool :=
  (s.accesses.any fun e => decide (e.2.t.team = n))
    || (s.commands.any fun e => decide (e.2.t.team = n))
    || ((s.core m.core).arrays.any fun e => (e.2.mmas.any fun x => decide (x.team = n)) || (e.2.loads.any fun x => decide (x.t.team = n)))
    || ((s.core m.core).accq.any fun e => match e.2 with
        | .read t .. => decide (t.team = n)
        | .write t .. => decide (t = n)
        | .store t .. => decide (t.team = n)
        | .update _ _ => false)
    || !m.resizing.isEmpty || (s.gives.any fun e => decide (e.2.t.team = n))

/-- Whether words that a team sent through channels are still on their way (R91). -/
def State.sending (s : State) (m : Team) : Bool :=
  s.msgs.any fun e => match e.2 with
    | .slot lid cluster ch _ _ _ => lid == m.lid && cluster == m.cluster &&
        (Table.find s.channels (lid, cluster, ch)).any fun h => h.src == m.pos
    | _ => false

/-- Whether something else of a team is still to release a thread of it: a mode request, a wake of a thread whose phase has flipped, a message of its objects, or a slot that it sent (R389). -/
def State.stirring (s : State) (n : Nat) (m : Team) : Bool :=
  let k := s.core m.core
  (k.arrays.any fun e => e.2.owner == some n && !e.2.requests.isEmpty)
    || (k.barriers.any fun e => decide (m.barBase ≤ e.1 ∧ e.1 < m.barBase + m.nbar) &&
        e.2.sleepers.any fun t => ((s.thread t).bind fun x => x.regOf (e.1 - m.barBase)) == some Registration.flipped)
    || (s.msgs.any fun e => e.2.ends.any fun h =>
        h.1.dev == s.deviceNumber && (s.objectOwner h.1.core h.1.obj).any fun o => o.1 == n)
    || s.sending m

/-- Whether only a spawn of the core holds a group, which time ends (R336). -/
def Group.spawning (g : Group) : Bool := match g.hold with | some (.spawn _ _) => true | _ => false

/-- Whether a thread of a stepped team can do nothing more in this step: it has reached its step point, has exited, is stopped, or is waiting or held, be it at a header whose page range is closed (R353, R389). -/
def State.settled (s : State) (n : Nat) (m : Team) (t : Nat) (x : Thread) : Bool :=
  m.reached.contains t || !s.deliverable ⟨n, t⟩ &&
    match x.status with
    | .exited => true
    | .stopped _ => true
    | .waiting u => u == 0 && (s.peekHeader ⟨n, t⟩ x.pc).any fun h => !x.waitsHold h
    | .member k => match s.group k with
      | some g => (!s.canIssue k g && !g.spawning) || g.members.any fun u => m.reached.contains u
      | none => true
    | .eligible _ => s.apart m || s.fetchClosed m.cn x.pc
    | .entering _ _ => false

/-- STEP_END: every thread of the team has settled, or the bound of the step has passed (R389). -/
def execStepEnd (n : Nat) (s : State) : Result :=
  match s.team n with
  | none => .next s
  | some m =>
    match m.stepMode with
    | .running limit _ =>
      let late := match limit with | some l => decide (l ≤ (s.core m.core).clk) | none => false
      let still := (s.threads.all fun e => decide (e.1.team ≠ n) || s.settled n m e.1.t e.2) && !s.underWay n m && !s.stirring n m
      .next (if late || still then s.endStep n else s)
    | _ => .next s

/-- STEP_ENTER (R389) -/
def execStepEnter (die : Nat) (v : DWord) (s : State) : Result := .next (s.stepEnter die v)
/-- STEP_STEP (R389) -/
def execStepStep (die : Nat) (v : DWord) (s : State) : Result := .next (s.stepStep die v)
/-- STEP_LEAVE (R389) -/
def execStepLeave (die : Nat) (v : DWord) (s : State) : Result := .next (s.stepLeave die v)

end Sys2Proof.Machine
end

