-- ==== Sys2Proof/Machine/Retire.lean ====
section
/-! DEFINITION. Retirement (R91): what a team waits for, what is freed (R188, R296, R308, R347), the completion of a grid (R329), and the outcome record of a pre-emption (R378). -/

namespace Sys2Proof.Machine

/-- Whether a team can retire: every thread has exited and everything it began is complete (R91). -/
def State.retirable (s : State) (n : Nat) (m : Team) : Bool :=
  (s.threads.all fun e => decide (e.1.team ≠ n) || e.2.gone) && !s.underWay n m && !s.sending m

/-! What is freed -/

/-- The links of an object whose team goes: each child is told that its link is broken, and each parent, one asked for among them, that the child is gone; these messages follow what the object has sent before (R296, R314). -/
def State.cutLinks (s : State) (c : CoreId) (o : Nat) : State :=
  let b := s.barrier c o
  let own := s.handleOf c o
  let s := b.child.foldl (fun (s : State) h => s.sendTo h (.broken h own) (.broken h own)) s
  (b.parent.toList ++ b.linking.map Prod.fst).foldl (fun (s : State) p => s.sendTo p (.unlink p own) (.unlink p own)) s

/-- The barrier objects of a team freed, with the messages on their way to them; a link that is on its way is answered when it comes, and what the objects have sent goes on (R286, R294, R296). -/
def State.freeObjects (s : State) (m : Team) : State :=
  let os := (List.range m.nbar).map (m.barBase + ·)
  let s := os.foldl (fun (s : State) o => s.cutLinks m.core o) s
  let mine (h : Handle) : Bool := h.dev == s.deviceNumber && h.core == m.core && os.contains h.obj
  let asks (m : Msg) : Bool := match m with | .link _ _ => true | _ => false
  let s := { s with msgs := s.msgs.filter fun e => asks e.2 || !(e.2.object.any mine) }
  s.alterCore m.core fun k => { k with barriers := k.barriers.filter fun e => !os.contains e.1 }

/-- The channel ends of a team gone: slots that nobody will receive are discarded. A channel stays declared as long as a team of its cluster is left (R307, R308). -/
def State.freeChannels (s : State) (m : Team) : State :=
  let mine (e : (Nat × Nat × Nat) × Channel) : Bool := e.1.1 == m.lid && e.1.2.1 == m.cluster
  let others (x : Team) : Bool := x.lid == m.lid && x.cluster == m.cluster && x.pos != m.pos
  let last := !(s.teams.any fun e => others e.2) && !s.images.any fun e => others e.2.team
  let close (h : Channel) : Channel :=
    let h := if h.src = m.pos then { h with srcGone := true } else h
    if h.dst = m.pos then { h with dstGone := true, slots := [] } else h
  let cs := s.channels.map fun (e : (Nat × Nat × Nat) × Channel) => if mine e then (e.1, close e.2) else e
  let gone := (cs.filter fun e => e.2.srcGone && e.2.dstGone).map Prod.fst
  { s with
    channels := cs.filter fun e => !(mine e && last)
    msgs := s.msgs.filter fun e => match e.2 with | .slot lid cluster ch _ _ _ => !gone.contains (lid, cluster, ch) | _ => true }

/-- An array that leaves with its team: a class-0 array keeps everything but its owner, any other returns to the cache role (R187, R188). -/
def State.freeArray (s : State) (c : CoreId) (a : Nat) : State :=
  if (s.array c a).tie.isSome then s.alterArray c a fun x => { x with owner := none } else s.releaseArray c a

/-- The accumulator effects of a team that goes; an update goes with its mma, of which `live` tells whether an array still runs it. -/
def AccEffect.ofTeam (n : Nat) (live : Nat → Bool) : AccEffect → Bool
  | .update id _ => !live id
  | .read t .. => decide (t.team = n)
  | .write t .. => decide (t = n)
  | .store t .. => decide (t.team = n)

/-- An array without what it still runs or serves for a team. -/
def FieldArray.forget (x : FieldArray) (n : Nat) : FieldArray :=
  { x with mmas := x.mmas.filter (fun y => decide (y.team ≠ n)), loads := x.loads.filter fun y => decide (y.t.team ≠ n) }

/-- What the package still holds under way for a team that goes: no row of it stays busy (R198), and no step of it runs (R389). -/
def State.forgetTeam (s : State) (n : Nat) (m : Team) : State :=
  let s := s.alterCore m.core fun k =>
    let arrays := k.arrays.map fun (e : Nat × FieldArray) => (e.1, e.2.forget n)
    let live (id : Nat) : Bool := arrays.any fun e => e.2.mmas.any fun y => y.id == id
    { k with
      arrays := arrays
      accq := k.accq.filter fun e => !e.2.ofTeam n live
      regroup := k.regroup.filter fun e => e.1.team != n }
  let s := { s with
    threads := s.threads.filter fun e => decide (e.1.team ≠ n)
    teams := Table.drop s.teams n
    groups := s.groups.filter fun e => decide (e.2.team ≠ n)
    accesses := s.accesses.filter fun e => decide (e.2.t.team ≠ n)
    commands := s.commands.filter fun e => decide (e.2.t.team ≠ n)
    heldPushes := s.heldPushes.filter fun e => decide (e.2.t.team ≠ n)
    gives := s.gives.filter fun e => decide (e.2.t.team ≠ n) }
  if m.stepMode = .none then s else s.stepStatus m.core.die ((s.die m.core.die).stepstat.toNat / 256 % 256)

/-- A team gone with everything it held: its objects, channel ends and arrays freed (R91, R188, R296, R308). -/
def State.freeTeam (s : State) (n : Nat) (m : Team) : State :=
  let s := ((s.unwind n).freeObjects m).freeChannels m
  let s := m.fm.foldl (fun (s : State) a => s.freeArray m.core a) s
  s.forgetTeam n m

/-- Status 2 sent for every reply that a team still owes (R347). -/
def State.abandonReplies (s : State) (m : Team) : State := m.owed.foldl (fun (s : State) t => s.answer t 2 0 0) s

/-! Grids -/

/-- A grid completes: its report, STATE last, the answers to those who wait for it, and the end of a replay pass (R329, R342, R391). -/
def State.completeGrid (s : State) (die lid : Nat) (g : Grid) : State :=
  let s := { s with grids := Table.drop s.grids lid }
  let state := if g.failed then 2 else 1
  let s := if g.record.report = 0 then s
    else s.devicePieces die g.cn lid (addressOf g.record.report)
      [(4, bytesOf (BitVec.ofNat 32 lid) 4 ++ bytesOf (BitVec.ofNat 64 s.dtime) 8), (0, bytesOf (BitVec.ofNat 32 state) 4)]
  let s := g.waiters.foldl (fun (s : State) t => s.answer t 0 (if g.failed then 1 else 0) 0) s
  if g.pass.isSome then s.endPass g.record.teams else s

/-- A team less in its grid, which completes with its last (R91, R329). A team that no live grid started, such as one restored from another device, leaves none. -/
def State.leaveGrid (s : State) (die lid b : Nat) (failed : Bool) : State :=
  match Table.find s.grids lid with
  | none => s
  | some g =>
    if (Table.find g.teams b).isNone then s
    else
    let g := { g with left := g.left - 1, failed := g.failed || failed, teams := Table.drop g.teams b }
    let s := { s with grids := Table.put s.grids lid g }
    if g.left = 0 then s.completeGrid die lid g else s

/-! The outcome of a pre-emption -/

/-- The outcome record of a pre-emption of a team on a core written, STATE last, with MISSED where the deadline has passed (R378, R427). -/
def State.writeOutcome (s : State) (c : CoreId) (lid : Nat) (p : Preempt) (choice image size : Nat) : State :=
  let missed := p.missed || decide (p.deadline < (s.core c).clk)
  s.devicePieces c.die p.cn lid (addressOf p.record)
    [(4, bytesOf (BitVec.ofNat 32 (choice + if missed then 2 ^ 16 else 0)) 4 ++ bytesOf (BitVec.ofNat 64 image) 8
       ++ bytesOf (BitVec.ofNat 64 size) 8 ++ bytesOf (BitVec.ofNat 64 s.dtime) 8), (0, bytesOf (1 : Word) 4)]

/-- The outcome of a pre-emption whose last team has retired: 0 drained, 3 retired before the choice took effect (R378, R383). -/
def State.retireOutcome (s : State) (m : Team) : State :=
  match m.preempt with
  | none => s
  | some p =>
    if s.teams.any fun e => decide (e.2.lid = m.lid ∧ e.2.cluster = m.cluster ∧ e.2.preempt.isSome) then s
    else s.writeOutcome m.core m.lid p (if p.choice = 0 then 0 else 3) 0 0

/-- What a team leaves as it retires (R425). -/
def State.remainsOf (s : State) (n : Nat) (m : Team) : Remains where
  team := m
  threads := (s.threads.filter fun e => decide (e.1.team = n)).map fun e => (e.1.t, e.2)
  arrays := m.fm.map fun a => (a, s.array m.core a)
  barriers := (List.range m.nbar).map fun o => (o, s.barrier m.core (m.barBase + o))

/-- A team retires (R91). -/
def State.retire (s : State) (n : Nat) (m : Team) : State :=
  let s := (s.endStep n).noteSignature n m
  let s := { s with remains := Table.put s.remains n (s.remainsOf n m) }
  let s := (s.freeTeam n m).abandonReplies m
  (s.leaveGrid m.core.die m.lid m.b false).retireOutcome m

/-- TEAM_RETIRE (R91) -/
def execTeamRetire (n : Nat) (s : State) : Result :=
  match s.team n with
  | some m => .next (if s.retirable n m then s.retire n m else s)
  | none => .next s

end Sys2Proof.Machine
end

