-- ==== Sys2Proof/Machine/Handover.lean ====
section
/-! DEFINITION. The handover of pages between contexts (R350 to R359): kvgive with its close and its event G, and kvtake with its event T. -/

namespace Sys2Proof.Machine

/-- The sources of kvgive and kvtake (R356). -/
def giveSources (f : XF) : List Src := [.pair f.d false, .one f.a false, .one f.b false]
def takeSources (f : XF) : List Src := [.pair f.d false, .one f.a false]

/-- Whether a range is valid (check 1 of R357). -/
def rangeValid (va n : Nat) : Bool := decide (va % 65536 = 0 ∧ 1 ≤ n ∧ n ≤ 32768 ∧ va + n * 65536 ≤ 2 ^ 57)

/-- What the walks of the pages of a range find at this moment, in order, each with its address (R357). -/
def State.rangeWalks (s : State) (cn va n : Nat) : List (Nat × Walk) :=
  (List.range n).map fun k => (va + k * 65536, s.walkNow cn (BitVec.ofNat 57 (va + k * 65536)))

/-- The addresses of the leaves that walks found. -/
def leafAddrs (ws : List (Nat × Walk)) : List Nat :=
  ws.filterMap fun e => match e.2 with | .leaf _ a _ => some a | _ => none

/-- Whether a walk ends at a 64 KiB leaf that maps HBM4E (check 3 of R357). -/
def pageLeaf (e : Nat × Walk) : Bool :=
  match e.2 with
  | .leaf l _ log => log == 16 && !entryBit l 7 && inHbm (leafAddr l log (BitVec.ofNat 57 e.1))
  | _ => false

/-- Whether a walk ends at a leaf with an owner. -/
def ownedBy (cn : Nat) (e : Nat × Walk) : Bool := match e.2 with | .leaf l _ _ => entryOwn l == cn | _ => false

/-- What stops a kvgive or a kvtake at a page of its range. -/
inductive RangeFail where
  /-- a check of R357, with its cause and the address of the page -/
  | check (c : Cause) (va : Nat)
  /-- an error reply to the walk of the page (R241, R401) -/
  | lost (c : Cause) (va : Nat)
  deriving DecidableEq, Repr

/-- How a walk stops a range. -/
def Walk.rangeFail (w : Walk) (va : Nat) : Option RangeFail :=
  match w with
  | .cause c => some (.check c va)
  | .error c => some (.lost c va)
  | .leaf _ _ _ => none

/-- What fails first of a range: its walks, and then checks 3 and 4, each at the first page that fails it; `giver` is the context that must own it (R357). -/
def rangeFails (ws : List (Nat × Walk)) (giver : Option Nat) : Option RangeFail :=
  match ws.findSome? fun e => e.2.rangeFail e.1 with
  | some x => some x
  | none =>
    match ws.find? fun e => !pageLeaf e with
    | some e => some (.check 0x098 e.1)
    | none =>
      match giver with
      | some cn => (ws.find? fun e => !ownedBy cn e).map fun e => .check 0x099 e.1
      | none => none

/-- The deferred cause of a kvgive or a kvtake whose walk met an error reply. The instruction has then executed, with no event and no page changed or taken (R241, R401; DESIGN CHOICE, log 20). -/
def State.deferLost (s : State) (t : ThreadId) (c : Cause) (va : Nat) : State :=
  s.defer t ⟨c, s.pcAt t, errorAux (BitVec.ofNat 57 va) va⟩

/-! kvgive -/

/-- kvgive (R357): checked and begun; its group is held until G. -/
def execKvgive (f : XF) (s : State) : Result :=
  runGroup s { guard := f.g, srcs := giveSources f, inS := true } fun s t vs =>
    let va := (arg64 vs 0).toNat
    let n := (arg vs 1).toNat
    let receiver := (arg vs 2).toNat
    if !rangeValid va n || receiver == 0 || decide (4095 < receiver) then .trap 0x098 [arg64 vs 0] s
    else .park { s.bump with gives := Table.put s.gives s.newId ⟨t, s.cnOf t, va, n, receiver, [], false⟩ }

/-- KVGIVE_CLOSE: once the thread's engine commands have landed, every translation unit marks the range closed (R353, R354). -/
def execKvgiveClose (n : Nat) (s : State) : Result :=
  match Table.find s.gives n with
  | none => .next s
  | some g =>
    if g.closed || s.undrained g.t then .next s
    else
      .next { s with gives := Table.put s.gives n { g with leaves := leafAddrs (s.rangeWalks g.cn g.va g.pages), closed := true } }

/-- The pages that walks found, as PA[51:16]. -/
def pagesOf (ws : List (Nat × Walk)) : List Nat :=
  ws.filterMap fun e => match e.2 with
    | .leaf l _ log => some (leafAddr l log (BitVec.ofNat 57 e.1) / 65536)
    | _ => none

/-- Whether an access to a page of leaves has passed its check and is still to be performed: an engine write that has not landed for every thread, or the store of an acst (R215, R353). -/
def State.writesInto (s : State) (ws : List (Nat × Walk)) : Bool :=
  let pages := pagesOf ws
  (s.commands.any fun e => e.2.writes.any fun w => pages.contains (w.pa / 65536))
    || s.cores.any fun e => e.2.accq.any fun q => match q.2 with
      | .store _ _ _ _ _ _ _ _ pa _ => pages.contains (pa / 65536)
      | _ => false

/-- OWN of a leaf changed, at the present place of S (R351, R353). -/
def State.setOwn (s : State) (lid cn addr : Nat) : State :=
  let e := s.entryAt addr
  ((s.settle (addr + 6) 2).capture lid addr).homeBytes (addr + 6) (bytesOf (BitVec.ofNat 16 (e.toNat / 2 ^ 48 % 16 + cn * 16)) 2)

/-- Every kept translation read from some leaves dropped (R353). -/
def State.dropLeaves (s : State) (as : List Nat) : State :=
  { s with dies := s.dies.map fun (e : Nat × Die) => (e.1, { e.2 with kept := e.2.kept.filter fun k => !as.contains k.addr }) }

/-- A thread whose parked instruction has executed: its queue sources popped, counted, and its group told (R81). -/
def State.completeParked (s : State) (t : ThreadId) (srcs : List Src) : State := ((s.popFor t srcs).progress t).finish t

/-- The give of a thread ended. -/
def State.endGive (s : State) (n : Nat) (t : ThreadId) : State :=
  let srcs := match s.presentInstr t with | some (.kvgive f) => giveSources f | _ => []
  { s with gives := Table.drop s.gives n }.completeParked t srcs

/-- Whether a give is the first of its thread's group, whose threads take effect in order (R357). -/
def State.firstGive (s : State) (n : Nat) (g : Give) : Bool :=
  !s.gives.any fun e => decide (e.1 < n ∧ e.2.t.team = g.t.team) && (s.thread e.2.t).map Thread.status == (s.thread g.t).map Thread.status

/-- OWNERSHIP_CHANGE: G, one event of S at which every page of the range changes its owner; a failing check changes nothing (R353, R357). -/
def execOwnershipChange (n : Nat) (s : State) : Result :=
  match Table.find s.gives n with
  | none => .next s
  | some g =>
    let ws := s.rangeWalks g.cn g.va g.pages
    if !g.closed || !s.firstGive n g || s.writesInto ws then .next s
    else match rangeFails ws (some g.cn) with
      | some (.check c va) => .next ({ s with gives := Table.drop s.gives n }.trapThread g.t c [BitVec.ofNat 64 va])
      | some (.lost c va) => .next ((s.deferLost g.t c va).endGive n g.t)
      | none =>
        let as := leafAddrs ws
        let lid := (s.nameOf g.t).lid
        let s := as.foldl (fun (s : State) a => s.setOwn lid g.owner a) s.place
        let s := { s with gave := (pagesOf ws).foldl (fun (m : Table Nat Nat) p => Table.put m p s.seq) s.gave }
        .next ((s.dropLeaves as).endGive n g.t)

/-! kvtake -/

/-- What a test of a range answers: a failing check, or whether every page is the taker's (R357). -/
def State.takeTest (s : State) (t : ThreadId) (va n : Nat) : Option RangeFail × Bool :=
  if !rangeValid va n then (some (.check 0x098 va), false)
  else
    let ws := s.rangeWalks (s.cnOf t) va n
    (rangeFails ws none, ws.all (ownedBy (s.cnOf t)))

/-- T: the acquire, one event of S (R355). -/
def State.takePages (s : State) (t : ThreadId) : State :=
  let s := s.place
  (s.fenceHere t).acquire t

/-- Whether a lower lane of a thread's group is still held in the same kvtake.wait, which takes effect first (R357). -/
def State.takeWaits (s : State) (t : ThreadId) : Bool := match s.groupOf t with | some g => !g.engaged.isEmpty | none => false

/-- kvtake.wait and kvtake.test (R357) -/
def execKvtake (f : XF) (s : State) : Result :=
  runGroup s { guard := f.g, srcs := takeSources f, inS := true } fun s t vs =>
    if f.lo = 0 ∧ s.takeWaits t then .park s
    else match s.takeTest t (arg64 vs 0).toNat (arg vs 1).toNat with
    | (some (.check c va), _) => .trap c [BitVec.ofNat 64 va] s
    | (some (.lost c va), _) =>
      let s := s.deferLost t c va
      .done (if f.lo = 0 then s else s.alterThread t fun x => x.setPred (f.c.toNat % 8) false)
    | (none, yes) =>
      if f.lo = 0 then (if yes then .done (s.takePages t) else .park s)
      else
        let s := if yes then s.takePages t else s
        .done (s.alterThread t fun x => x.setPred (f.c.toNat % 8) yes)

/-- KVTAKE_COMPLETE: the first thread of a group held in kvtake.wait tests its range, and every page of it is the taker's, or a check fails (R355, R357). -/
def execKvtakeComplete (t : ThreadId) (s : State) : Result :=
  match s.presentInstr t, s.groupOf t with
  | some (.kvtake f), some g =>
    if f.lo ≠ 0 ∨ (g.members.find? fun u => g.engaged.contains u) ≠ some t.t then .next s
    else
      let vs := s.valuesOf { guard := f.g, srcs := takeSources f } t
      match s.takeTest t (arg64 vs 0).toNat (arg vs 1).toNat with
      | (some (.check c va), _) => .next (s.trapThread t c [BitVec.ofNat 64 va])
      | (some (.lost c va), _) => .next ((s.deferLost t c va).completeParked t (takeSources f))
      | (none, true) => .next ((s.takePages t).completeParked t (takeSources f))
      | (none, false) => .next s
  | _, _ => .next s

end Sys2Proof.Machine
end

