-- ==== Sys2Proof/Machine/Preempt.lean ====
section
/-! DEFINITION. Pre-emption (R376 to R383): preq and its choice, the discard, the save with its image (R380), and the restore. -/

namespace Sys2Proof.Machine

/-! The teams of a unit -/

/-- The resident teams of the cluster of a team, by position (R379). -/
def State.unitTeams (s : State) (m : Team) : List (Nat × Team) :=
  (s.teams.filter fun e => decide (e.2.lid = m.lid ∧ e.2.cluster = m.cluster)).mergeSort fun a b => decide (a.2.pos ≤ b.2.pos)

/-- Whether the grid of a team was launched with RST (R326). -/
def State.restartable (s : State) (lid : Nat) : Bool := (Table.find s.grids lid).any fun g => g.record.rst

/-! The context store area (R378, R379) -/

/-- A size rounded up to a multiple of 64 KiB. -/
def pages64 (n : Nat) : Nat := (n + 65535) / 65536 * 65536

/-- The parts of memory that images take or are going to take: first byte and size. -/
def State.stored (s : State) : List (Nat × Nat) :=
  (s.images.map fun e => (e.1, pages64 e.2.size)) ++ s.teams.filterMap fun e =>
    match e.2.preempt with
    | some p => if p.choice = 2 then some (p.pa, pages64 p.size) else none
    | none => none

/-- The lowest place with `n` free bytes in the area of a die (R378; DESIGN CHOICE, log 8). -/
def State.roomFor (s : State) (die n : Nat) : Option Nat :=
  let d := s.die die
  let base := d.csbase.toNat / 65536 % 2 ^ 36 * 65536
  let size := d.cssize.toNat % 2 ^ 24
  ((List.range size).map fun k => base + 65536 * k).find? fun a => decide (a + n ≤ base + 65536 * size) && intervalFree a n s.stored

/-- The places of images of given sizes in one block from a base (R379). -/
def blockPlaces : Nat → List Nat → List Nat
  | _, [] => []
  | a, n :: ns => a :: blockPlaces (a + pages64 n) ns

/-- The first byte of a block of images and its total size. -/
def blockSpan (ps : List (Nat × Nat)) : Nat × Nat :=
  match ps.head?, ps.getLast? with
  | some f, some l => (f.1, l.1 + l.2 - f.1)
  | _, _ => (0, 0)

/-! The choice (R377, R379) -/

/-- The clk in `ns` nanoseconds at the present step of a die (R377, R403). -/
def State.clkIn (s : State) (die ns : Nat) : Nat := ns * (3300 - 100 * (s.die die).step) / 1000

/-- The quotient rounded up. -/
def ceilDiv (a b : Nat) : Nat := (a + b - 1) / b

/-- PROG of a team at a clk of its residency: at the latest note of it that is not later (R377). -/
def Team.progAt (m : Team) (clk : Nat) : Nat := ((m.progHist.find? fun e => decide (e.1 ≤ clk)).map Prod.snd).getD 0

/-- tdrain of a team; none is infinite (R377). -/
def Team.tdrain (m : Team) (clk : Nat) : Option Nat :=
  let wn := min 4096 (clk - m.since)
  let rise := m.prog - m.progAt (clk - wn)
  if m.prog < m.prgtot.toNat ∧ 0 < rise then some (ceilDiv ((m.prgtot.toNat - m.prog) * wn) rise) else none

/-- tsave of an image of `sb` bytes beside `n` other saves on the die (R377). -/
def tsave (sb n : Nat) : Nat := 64 + ceilDiv sb (606 / (1 + n))

/-- ELAPSED (R377). -/
def Team.elapsedAt (m : Team) (clk : Nat) : Nat := m.elapsed + (clk - m.since)

/-- The saves under way on a die. -/
def State.savesOn (s : State) (die : Nat) : Nat :=
  (s.teams.filter fun e => decide (e.2.core.die = die) && e.2.preempt.any fun p => p.choice == 2).length

/-- The exact size of the image of a team at the request (R377, R380; DESIGN CHOICE, log 7). -/
def imageSize (k : Nat) : Nat := 48 + Config.imageBodySize k

/-- The choice for the teams of a unit with the sizes of their images: 0 drain where every tdrain is within its deadline, 1 discard, 2 save (R377, R379). `drain` false makes every tdrain infinite. -/
def State.choose (s : State) (us : List (Nat × Team)) (sizes : List Nat) (ns : Nat) (drain rst : Bool) : Nat :=
  let clk (m : Team) : Nat := (s.core m.core).clk
  let drains := drain && us.all fun e => match e.2.tdrain (clk e.2) with
    | some t => decide (t ≤ s.clkIn e.2.core.die ns)
    | none => false
  let mine (m : Team) : Nat := (us.filter fun e => decide (e.2.core.die = m.core.die)).length - 1
  let saves := (us.zip sizes).map fun e => tsave e.2 (s.savesOn e.1.2.core.die + mine e.1.2)
  let discs := us.map fun e => e.2.elapsedAt (clk e.2) + 64
  if drains then 0 else if rst && decide (discs.foldl max 0 < 2 * saves.foldl max 0) then 1 else 2

/-! Starting a pre-emption -/

/-- The causes that the threads of a team have at their boundaries, delivered before a pre-emption stops it (R360, R383). -/
def State.deliverAll (s : State) (n : Nat) : State :=
  s.threads.foldl (fun (s : State) e =>
    if e.1.team = n ∧ s.deliverable e.1 then
      match s.thread e.1 with
      | some x => match x.deferred with
        | tr :: _ => s.deliverDeferred e.1 x tr
        | [] => s
      | none => s
    else s) s

/-- A choice made for the teams of a unit, whose images go to the places given: under a discard or a save they stop (R378, R379). -/
def State.beginPreempt (s : State) (us : List (Nat × Team)) (p : Preempt) (places : List (Nat × Nat)) (ns : Nat) : State :=
  (List.range us.length).foldl (fun (s : State) k =>
    match us[k]? with
    | none => s
    | some e =>
      let a := places.getD k (0, 0)
      let clk := (s.core e.2.core).clk
      let p := { p with deadline := clk + s.clkIn e.2.core.die ns, pa := a.1, size := a.2 }
      let s := if p.choice = 0 then s else (((s.endStep e.1).unwind e.1).dropPushes e.1).deliverAll e.1
      s.alterTeam e.1 fun m => { m with preempt := some p }) s

/-- What a request for a unit comes to: its status, with the choice and the places of the images (R376, R377, R379). -/
def State.weigh (s : State) (us : List (Nat × Team)) (die var ns : Nat) (sizes : List Nat) (drain rst : Bool) : Nat × Nat × List (Nat × Nat) :=
  let choice := match var with
    | 1 => 2
    | 2 => 1
    | _ => s.choose us sizes ns drain rst
  if choice ≠ 2 then (0, choice, [])
  else
    let total := (blockSpan ((blockPlaces 0 sizes).zip sizes)).2
    match s.roomFor die total with
    | some a => (0, 2, (blockPlaces a sizes).zip sizes)
    | none => (5, 2, [])

/-- Sizes drawn for the images of a unit. -/
def drawSizes (from_ : Nat) (us : List (Nat × Team)) : List Nat := (List.range us.length).map fun k => imageSize (from_ + k)

/-- The status of a preq, and the state after it (R376, R379). -/
def State.request (s : State) (f : PreqF) (t : ThreadId) (b : DWord) (lid ns : Nat) (rec : DWord) : Nat × State :=
  let named (m : Team) : Bool := m.lid == lid && m.b == b.toNat
  if s.images.any fun e => named e.2.team then (2, s)
  else match s.teams.find? fun e => named e.2 with
    | none => (1, s)
    | some (_, m) =>
      let us := s.unitTeams m
      let rst := s.restartable lid
      if us.any fun e => e.2.preempt.isSome then (2, s)
      else if f.var = 2 ∧ !rst then (3, s)
      else if rec.toNat % 8 ≠ 0 then (4, s)
      else
        let sizes := drawSizes s.drawn us
        let (st, choice, places) := s.weigh us m.core.die f.var.toNat ns sizes true rst
        if st ≠ 0 then (st, s)
        else
          let p : Preempt := ⟨choice, f.var == 0, f.hold, false, 0, rec, s.cnOf t, m.core.die, 0, 0⟩
          (0, { s with drawn := s.drawn + us.length }.beginPreempt us p places ns)

/-- preq (R376) -/
def execPreq (f : PreqF) (s : State) : Result :=
  runGroup s { guard := f.g, srcs := [.pair f.a false, .one f.b false, .one f.c false, .pair f.e false], dsts := [.one f.d] } <|
    needPriv 2 0 fun s t vs =>
      let (st, s) := s.request f t (arg64 vs 0) (arg vs 1).toNat (arg vs 2).toNat (arg64 vs 3)
      .done (s.writeRegs t (writeDst f.d (BitVec.ofNat 32 st)).regs)

/-- PREQ_DEADLINE: a drained team that has not retired in time is chosen again, with tdrain infinite; a save that does not fit becomes a discard of a restartable team, and otherwise the team drains on (R377). -/
def execPreqDeadline (n : Nat) (s : State) : Result :=
  match s.team n with
  | none => .next s
  | some m =>
    match m.preempt with
    | none => .next s
    | some p =>
      if p.choice ≠ 0 ∨ p.missed ∨ (s.core m.core).clk < p.deadline then .next s
      else
        let us := s.unitTeams m
        let rst := s.restartable m.lid
        let sizes := drawSizes s.drawn us
        let (st, choice, places) := s.weigh us p.die 0 0 sizes false rst
        let choice := if st = 0 then choice else if rst then 1 else 0
        .next ({ s with drawn := s.drawn + us.length }.beginPreempt us { p with choice := choice, missed := true } places 0)

/-! The waits of a discard and of a save -/

/-- Whether a thread of a team waits for the answer to its barlink (R294). -/
def State.linking (s : State) (n : Nat) (m : Team) : Bool :=
  (s.core m.core).barriers.any fun e => e.2.linking.any fun l => l.2.team == n

/-- Whether everything in flight of a stopped team is complete, the replies that registers wait for among it, its handler entries, and the causes that threads still have at the boundaries at which they stop (R121, R383; step 2 of R378). -/
def State.quiet (s : State) (n : Nat) (m : Team) : Bool :=
  !s.underWay n m && !s.linking n m && (s.threads.all fun e => decide (e.1.team ≠ n) || !s.deliverable e.1) && (s.threads.all fun e => decide (e.1.team ≠ n) || !e.2.isEntering) && (m.replies.all fun r => r.2.claim.isNone) && m.fm.all fun a => (s.array m.core a).requests.isEmpty

/-! Discard -/

/-- The pending unit that the teams at some positions of a cluster become, in the queue of a die: the whole cluster, or a part of it beside teams that stay (R325, R378, R379, R401). -/
def State.requeue (s : State) (die : Nat) (m : Team) (ps : List Nat) : State :=
  match Table.find s.grids m.lid with
  | none => s
  | some g =>
    let b0 := m.cluster * g.record.ct
    let depth := if m.bin.isSome then ((m.consts[3]?).map fun w => w.toNat / 256 % 64).getD 0 else 0
    let origin : Origin := if m.bin.isSome then .restart m else if ps.length = g.record.ct then .grid m.lid b0 else .part m.lid b0 ps
    let p : Pending := ⟨s.newId, origin, m.pri, depth, g.accepted, s.dtime, none, g.record.key (b0 + ps.headD 0)⟩
    (s.alterDie die fun d => { d with queue := d.queue ++ [p] }).bump

/-- A unit removed to restart: its teams are gone as if retired, its grid does not complete, and it rejoins its die's queue (R378, R379). -/
def State.discard (s : State) (us : List (Nat × Team)) : State :=
  match us.head? with
  | none => s
  | some (_, m) =>
    let s := us.foldl (fun (s : State) e => (s.freeTeam e.1 e.2).abandonReplies e.2) s
    let ct := ((Table.find s.grids m.lid).map fun g => g.record.ct).getD 1
    let s := { s with grids := Table.alter s.grids m.lid fun g => { g with left := g.left + (ct - us.length) } }
    s.requeue m.core.die m (List.range ct)

/-! Save -/

/-- Keys of a table moved down by a base, within `n`. -/
def Table.window {ν : Type} (t : Table Nat ν) (base n : Nat) : Table Nat ν :=
  (t.filter fun e => base ≤ e.1 && e.1 < base + n).map fun e => (e.1 - base, e.2)

/-- An object of a team with its home-group place numbered by the team's order of places (R162). -/
def GenObject.local_ (places : List Nat) : GenObject → GenObject
  | .block p k => .block (places.idxOf p) k
  | o => o
/-- Such an object with the place that it has on a core (R162). -/
def GenObject.global (places : List Nat) : GenObject → GenObject
  | .block i k => .block (places.getD i 0) k
  | o => o
/-- The array that an object is, or is a half of (R155). -/
def GenObject.array : GenObject → Option Nat
  | .block _ _ => none
  | .half a _ => some a
  | .whole a => some a

/-- The objects whose generation counters are saved with a team, those that count 0 among them: its blocks, its arrays and the objects that its tags name, but for the arrays of class 0 (R161, R162). -/
def savedGens (places arrays : List Nat) (tagged : List GenObject) (tied : Nat → Bool) : List GenObject :=
  let blocks := places.flatMap fun p => (List.range 4).map fun k => GenObject.block p k
  let own := arrays.flatMap fun a => [GenObject.half a 0, .half a 1, .whole a]
  (blocks ++ own ++ tagged.filter fun o => !(o.array.any tied)).eraseDups

/-- The header of an image, the `pos`-th of a block of `count`; `cluster` where its cluster has more than one team (R379, R380). -/
def imageHead (s : State) (n : Nat) (m : Team) (p : Preempt) (core cluster : Bool) (pos count size : Nat) : List Byte :=
  let tokens := (m.replies.any fun r => r.2.taken) || !m.owed.isEmpty
  let flags := (if core then 1 else 0) + (if tokens then 2 else 0) + (if p.hold then 4 else 0)
    + (if cluster then 8 else 0) + m.pos * 16 + (count - 1) * 256
  let front := bytesOf (BitVec.ofNat 64 size) 8 ++ bytesOf (3 : BitVec 16) 2 ++ bytesOf (BitVec.ofNat 16 flags) 2
    ++ bytesOf (BitVec.ofNat 32 m.cn) 4 ++ bytesOf (BitVec.ofNat 32 m.lid) 4 ++ bytesOf (BitVec.ofNat 16 m.core.source) 2
    ++ bytesOf (BitVec.ofNat 16 s.deviceNumber) 2 ++ bytesOf (BitVec.ofNat 64 m.b) 8 ++ bytesOf (BitVec.ofNat 64 s.dtime) 8
  front ++ bytesOf (Config.imageCheck (front ++ (List.range (size - 48)).map (Config.imageBody (n + pos)))) 8

/-- The bytes of an image (R380). -/
def Image.bytes (i : Image) : List Byte := i.head ++ (List.range (i.size - 48)).map (Config.imageBody i.num)

/-- The launch record that a team runs under: that of its grid, or the one it was restored with. -/
def State.recordFor (s : State) (id lid : Nat) : Record :=
  match Table.find s.grids lid with
  | some g => g.record
  | none => ((s.restored.find? fun i => i.teamId == id).map Image.record).getD (recordOf [])

/-- The image of a team (R88, R105, R161, R189, R201, R284, R298, R345). Its field memory is read, so that its threads have met every write that field memory has met, wherever they are restored (R244, R245; DEDUCED, log 9). -/
def State.imageOf (s : State) (id : Nat) (m : Team) (p : Preempt) (k count : Nat) (block : List Nat) : Image :=
  let c := s.core m.core
  let own := m.fm.filter fun a => (s.array m.core a).tie.isNone
  let linked := (List.range m.nbar).any fun o =>
    let b := s.barrier m.core (m.barBase + o)
    b.parent.isSome || !b.child.isEmpty
  let r := s.recordFor id m.lid
  let ends := r.endpoints m.pos
  let core := decide (own.length < m.fm.length) || linked || decide (0 < ends)
  let tag (t : Tag) : Tag := { t with obj := t.obj.local_ m.places }
  let nk4 := (m.nk + 3) / 4 * 4
  let tagged := (Table.window c.ktags m.kBase nk4).map fun e => e.2.obj
  { die := p.die
    size := p.size
    num := s.drawn + k
    head := imageHead s s.drawn m p core (decide (1 < r.ct)) k count p.size
    record := r
    team := { m with preempt := none, elapsed := m.elapsedAt c.clk, progHist := [] }
    teamId := id
    threads := (s.threads.filter fun e => decide (e.1.team = id)).map fun e => (e.1.t, { e.2 with ts := tsMax e.2.ts c.fieldTs })
    groups := s.groups.filter fun e => decide (e.2.team = id)
    arrays := own.map fun a => (a, s.array m.core a)
    kbytes := Table.window c.kbytes (256 * m.kBase) (256 * nk4)
    ktags := (Table.window c.ktags m.kBase nk4).map fun e => (e.1, tag e.2)
    gens := (savedGens m.places own tagged fun a => (s.array m.core a).tie.isSome).map fun o => (o.local_ m.places, s.gen m.core o)
    acc := Table.window c.acc (256 * m.accBase) (256 * m.nacc)
    latch := (c.latch.filter fun e => m.places.contains (e.1 / 32)).map fun e => (32 * m.places.idxOf (e.1 / 32) + e.1 % 32, e.2)
    barriers := Table.window c.barriers m.barBase m.nbar
    core := core
    queued := !p.hold
    clk := c.clk
    kept := []
    block := block }

/-- The core resources of a saved team freed, but for class-0 arrays; its links and channel ends stay (R378). -/
def State.evict (s : State) (n : Nat) (m : Team) : State :=
  let s := m.fm.foldl (fun (s : State) a => s.freeArray m.core a) s
  let os := (List.range m.nbar).map (m.barBase + ·)
  let s := s.alterCore m.core fun k => { k with barriers := k.barriers.filter fun e => !os.contains e.1 }
  s.forgetTeam n m

/-- The L2 of the home die as a save or a restore uses it: partition 63 (R13, R227, R228, R235, R378). -/
def State.contextUse (s : State) (die pa n : Nat) (write : Bool) : State :=
  let a : Asker := ⟨⟨die, 0⟩, 0, 0, 63, Name.none, false, false⟩
  (List.range ((n + 63) / 64)).foldl (fun (s : State) k => s.useHome a (pa + 64 * k) .engine none write) s

/-- Engine writes that have landed for a team's threads land for the package before it is saved, so that its threads see them wherever they are restored (R244, R253; DEDUCED, log 12). -/
def State.settleFor (s : State) (team : Nat) : State :=
  (s.commands.flatMap fun e => e.2.writes.filterMap fun w =>
    if s.landedFor e.2 w s.seq ⟨team, 0⟩ then some w.pa else none).foldl
    (fun (s : State) pa => s.settleByte pa) s

/-- The images of a unit written and its teams gone (R378, R379). -/
def State.saveUnit (s : State) (us : List (Nat × Team)) : State :=
  let s := us.foldl (fun (s : State) e => s.settleFor e.1) s.place
  let block := us.filterMap fun e => e.2.preempt.map Preempt.pa
  let is := (List.range us.length).filterMap fun k => (us[k]?).bind fun e =>
    e.2.preempt.map fun p => (p, s.imageOf e.1 e.2 p k us.length block)
  let s := { s with drawn := s.drawn + us.length }
  let s := is.foldl (fun (s : State) e =>
    let s := (s.contextUse e.1.die e.1.pa e.2.size true).deviceLines e.1.pa (e.2.size / 256 + 1) e.2.bytes
    { s with images := Table.put s.images e.1.pa e.2 }) s
  us.foldl (fun (s : State) e => s.evict e.1 e.2) s

/-- The images of a block, by their places, put into the queue of a die as one unit, with key 4 of its grid (R378, R379, R382). -/
def State.queueImages (s : State) (die : Nat) (is : List (Nat × Image)) : State :=
  match is.head? with
  | none => s
  | some (pa, i) =>
    let m := i.team
    let g := Table.find s.grids m.lid
    let depth := if m.bin.isSome then ((m.consts[3]?).map fun w => w.toNat / 256 % 64).getD 0 else 0
    let p : Pending := ⟨s.newId, .image pa, m.pri, depth, (g.map Grid.accepted).getD s.dtime, s.dtime, none, (g.map fun g => g.record.key m.b).getD 0⟩
    let s := { s with images := is.foldl (fun x (e : Nat × Image) => Table.put x e.1 { e.2 with queued := true, block := is.map Prod.fst }) s.images }
    (s.alterDie die fun d => { d with queue := d.queue ++ [p] }).bump

/-- TEAM_SAVE_COMPLETE: the waits of every team of the unit are over; it is discarded, or saved and queued unless HOLD, and the outcome record is written (R378, R379). -/
def execTeamSaveComplete (n : Nat) (s : State) : Result :=
  match s.team n with
  | none => .next s
  | some m =>
    match m.preempt with
    | none => .next s
    | some p =>
      let us := s.unitTeams m
      if p.choice = 0 ∨ !(us.all fun e => s.quiet e.1 e.2) then .next s
      else if p.choice = 1 then .next ((s.discard us).writeOutcome m.core m.lid p 1 0 0)
      else
        let span := blockSpan (us.filterMap fun e => e.2.preempt.map fun p => (p.pa, p.size))
        let s := s.saveUnit us
        let s := if p.hold then s else s.queueImages p.die (s.placesAt span.1)
        .next (s.writeOutcome m.core m.lid p 2 span.1 span.2)

/-! RESTORE -/

/-- Whether a team is live or queued on the device (status 6 of R382). -/
def State.liveOrQueued (s : State) (lid b : Nat) : Bool :=
  (s.teams.any fun e => decide (e.2.lid = lid ∧ e.2.b = b))
    || (s.images.any fun e => e.2.queued && decide (e.2.team.lid = lid ∧ e.2.team.b = b))
    || s.dies.any fun e => e.2.queue.any fun p => match p.origin with
        | .grid l b0 => decide (l = lid ∧ b0 ≤ b) && (Table.find s.grids l).any fun g => decide (b < b0 + g.record.ct)
        | .restart t => decide (t.lid = lid ∧ t.b = b)
        | .part l b0 ps => decide (l = lid) && ps.any fun p => b0 + p == b
        | _ => false

/-- Whether the bytes of an image stand at a PA (R380). -/
def State.standsAt (s : State) (pa : Nat) (i : Image) : Bool :=
  s.bytes pa 48 == i.head && s.bytes (pa + 48) (i.size - 48) == i.bytes.drop 48

/-- What the body of an image of another DV-8160 holds, in the device's own layout; none where it is no image that this device can restore (R12, R380, R382; the layout is the device's own: DESIGN CHOICE, log 7). -/
opaque foreignBody : List Byte → Option Image

/-- An image with what its header says of it (R380). -/
def Image.withHead (i : Image) (head : List Byte) (die : Nat) : Image :=
  let flags := field head 10 2
  { i with
    die := die
    size := field head 0 8
    head := head
    core := flags % 2 == 1
    team := { i.team with
      cn := field head 12 4
      lid := field head 16 4
      b := field head 24 8
      core := coreOfSource (field head 20 2)
      preempt := none } }

/-- The image that stands at a PA, whose header has been read; otherwise the status: 2 where SIZE, REV or CHECK is wrong or the body is none that this device can restore, 1 where it cannot be read (R380, R382). -/
def State.imageAt (s : State) (die pa : Nat) : Except Nat Image :=
  let head := s.bytes pa 48
  let size := field head 0 8
  if size < 48 ∨ field head 8 2 ≠ 3 then .error 2
  else if !s.readable pa size then .error 1
  else match (s.images.map Prod.snd ++ s.restored).find? (s.standsAt pa) with
    | some i => .ok i
    | none =>
      let body := s.bytes (pa + 48) (size - 48)
      if field head 40 8 ≠ (Config.imageCheck (head.take 40 ++ body)).toNat then .error 2
      else match foreignBody (head ++ body) with
        | some i => .ok (i.withHead head die)
        | none => .error 2

/-- Whether a header is that of the image after another in their block (R379, R380). -/
def follows (a b : List Byte) : Bool :=
  let pos (h : List Byte) : Nat := field h 10 2 / 16 % 16
  field b 16 4 == field a 16 4 && field b 10 2 / 8 % 2 == 1 && field b 10 2 / 256 == field a 10 2 / 256 && decide (pos a < pos b)

/-- The images of a block from a PA on, `n` after the first, each at its place (R379). -/
def State.blockImages (s : State) (die : Nat) : Nat → Nat → Except Nat (List (Nat × Image))
  | n, pa =>
    if pa % 65536 ≠ 0 ∨ !inHbm pa ∨ !s.readable pa 48 then .error 1
    else match n, s.imageAt die pa with
      | _, .error st => .error st
      | 0, .ok i => .ok [(pa, i)]
      | n + 1, .ok i =>
        match s.blockImages die n (pa + pages64 i.size) with
        | .error st => .error st
        | .ok [] => .error 2
        | .ok (e :: es) => if follows i.head e.2.head then .ok ((pa, i) :: e :: es) else .error 2

/-- The status of one image of a restore; `away` where images of its block are bound to cores of other dies only (R382). -/
def State.imageStatus (s : State) (away : Bool) (i : Image) : Nat :=
  let foreign := decide (field i.head 22 2 ≠ s.deviceNumber)
  let flags := field i.head 10 2
  if (s.context (field i.head 12 4)).isNone then 3
  else if flags % 2 = 1 ∧ (foreign || away) then 4
  else if flags / 2 % 2 = 1 ∧ foreign then 5
  else if s.liveOrQueued (field i.head 16 4) (field i.head 24 8) then 6
  else 0

/-- What a write of a PA to RESTORE of a die comes to: the images of the block that it queues, or the status of its first image that has one (R379, R382). -/
def State.restoreBlock (s : State) (die pa : Nat) : Except Nat (List (Nat × Image)) :=
  let flags := field (s.bytes pa 48) 10 2
  match s.blockImages die (if flags / 8 % 2 = 1 then flags / 256 % 16 else 0) pa with
  | .error st => .error st
  | .ok is =>
    let bound := is.filter fun e => e.2.core
    let away := bound != [] && !bound.any fun e => decide (e.2.team.core.die = die ∧ e.2.team.core.isSorrel)
    match (is.map fun e => s.imageStatus away e.2).find? fun st => st != 0 with
    | some st => .error st
    | none => .ok is

/-- A saved waiting arrival of a team, under another identifier. -/
def Arrival.forTeam (id : Nat) : Arrival → Arrival
  | .thread t n arm drop dest pop => .thread ⟨id, t.t⟩ n arm drop dest pop
  | a => a

/-- An image whose team takes another identifier: its groups and the arrivals that wait at its objects go with it (R298). -/
def Image.forTeam (i : Image) (id : Nat) : Image :=
  { i with
    teamId := id
    groups := i.groups.map fun (g : Nat × Group) => (g.1, { g.2 with team := id })
    barriers := i.barriers.map fun (b : Nat × Barrier) => (b.1, { b.2 with queue := b.2.queue.map (Arrival.forTeam id) }) }

/-- An image made ready to be queued: its team takes an identifier that no other team holds; what was kept for it stays with it (R298, R345). -/
def State.adopt (s : State) (e : Nat × Image) : (Nat × Image) × State :=
  match s.images.find? fun x => x.2.teamId == e.2.teamId && x.2.head == e.2.head with
  | some x =>
    let out (y : Nat × Image) : Nat × Image := if y.2.teamId = e.2.teamId then (y.1, { y.2 with kept := [] }) else y
    ((e.1, { e.2 with kept := x.2.kept }), { s with images := s.images.map out })
  | none =>
    let used := (s.team e.2.teamId).isSome || s.images.any fun x => x.2.teamId == e.2.teamId
    if used ∨ e.2.teamId = 0 ∨ 2 ^ 24 ≤ e.2.teamId then
      let (id, s) := s.newTeamId
      ((e.1, { (e.2.forTeam id) with kept := [] }), s)
    else ((e.1, { e.2 with kept := [] }), s)

/-- A write of RESTORE of a die: the block queued, or the status of the refusal (R367, R382). -/
def State.restoreWrite (s : State) (die : Nat) (v : DWord) : State :=
  let note (st : Nat) (s : State) : State := s.alterDie die fun d =>
    { d with reststat := BitVec.ofNat 64 (st * 256 + (if st ≠ 0 ∨ d.reststat.getLsbD 0 then 1 else 0)) }
  match s.restoreBlock die (v.toNat % 2 ^ 52) with
  | .error st => note st s
  | .ok is =>
    let r := is.foldl (fun (r : List (Nat × Image) × State) e => let a := r.2.adopt e; (r.1 ++ [a.1], a.2)) ([], s)
    note 0 (r.2.queueImages die r.1)

/-- RESTORE (R382) -/
def execRestore (die : Nat) (v : DWord) (s : State) : Result := .next (s.restoreWrite die v)

/-! Restore of an image -/

/-- The status of a thread restored `d` clk later by its core's count: stamps and yield delays keep their ages (R88). -/
def moveStatus (d : Int) : Status → Status
  | .waiting u => .waiting (if u = 0 then 0 else max 1 ((u : Int) + d).toNat)
  | .eligible st => .eligible (st + d)
  | x => x

/-- Whether a core holds an array in residency class 0 (R187). -/
def Core.isTied (k : Core) (a : Nat) : Bool := (Table.findD k.arrays a FieldArray.init).tie.isSome

/-- What an image brings back to a core: bytes and tags, and every saved counter at its saved value, whoever holds the array there, but for arrays that are in class 0 by then, whose counters stay on the core (R161 to R163, R201, R298). -/
def Image.toCore (i : Image) (a : Allot) (k : Core) : Core :=
  let tag (t : Tag) : Tag := { t with obj := t.obj.global a.places }
  let stays (o : GenObject) : Bool := o.array.any k.isTied
  { k with
    kbytes := i.kbytes.foldl (fun x e => x.set (256 * a.kBase + e.1) e.2) k.kbytes
    ktags := i.ktags.foldl (fun x e => Table.put x (a.kBase + e.1) (tag e.2)) k.ktags
    gens := (i.gens.filter fun e => !stays e.1).foldl (fun x e => Table.put x (e.1.global a.places) e.2) k.gens
    acc := i.acc.foldl (fun x e => x.set (256 * a.accBase + e.1) e.2) k.acc
    latch := i.latch.foldl (fun x e => Table.put x (32 * a.places.getD (e.1 / 32) 0 + e.1 % 32) e.2) k.latch
    barriers := i.barriers.foldl (fun x e => Table.put x (a.barBase + e.1) e.2) k.barriers }

/-- A message that was kept for a saved team, now that it is back (R298, R345). -/
def State.deliverKept (s : State) (team : Nat) (m : Msg) : State :=
  match m with
  | .reply _ token status value reason => s.takeReply team token status value reason
  | m => s.applyBarrierMsg m

/-- The groups of an image under numbers from `base` on, which no other group has: each old number with its new one. -/
def Image.groupNumbers (i : Image) (base : Nat) : Table Nat Nat := (i.groups.map Prod.fst).zip ((List.range i.groups.length).map (base + ·))

/-- A formed group restored on a core: what held it there is found anew at its next instruction (R88). It may run on any slot, and keeps the number of the one it had (DESIGN CHOICE, log 18). -/
def Group.restored (g : Group) (c : CoreId) : Group :=
  { g with core := c, asked := none, hold := if g.engaged = [] then none else some .engaged }

/-- A saved team back on an allotment, one event of S: the arrays in compute mode are scrubbed, what was kept for it comes before any thread resumes, and its image's space is free (R88, R189, R243, R298, R382). -/
def State.restoreImage (s : State) (key : Nat) (i : Image) (a : Allot) : State :=
  let s := s.place.contextUse a.core.die key i.size false
  let kept := (s.images.filter fun e => e.2.teamId == i.teamId).flatMap fun e => e.2.kept
  let clk := (s.core a.core).clk
  let m := { i.team with core := a.core, places := a.places, accBase := a.accBase, kBase := a.kBase, barBase := a.barBase, since := clk }
  let d : Int := (clk : Int) - (i.clk : Int)
  let names := i.groupNumbers s.fresh
  let at_ (st : Status) : Status := match st with | .member n => .member (Table.findD names n n) | st => moveStatus d st
  let s := { s with
    fresh := s.fresh + i.groups.length
    images := s.images.filter fun e => e.2.teamId != i.teamId
    restored := i :: s.restored.filter fun j => decide (j.teamId ≠ i.teamId)
    teams := Table.put s.teams i.teamId m
    threads := s.threads ++ i.threads.map fun (e : Nat × Thread) => ((⟨i.teamId, e.1⟩ : ThreadId), { e.2 with status := at_ e.2.status, stamp := e.2.stamp + d })
    groups := i.groups.foldl (fun x (e : Nat × Group) => Table.put x (Table.findD names e.1 e.1) (e.2.restored a.core)) s.groups }
  let s := m.fm.foldl (fun (s : State) f => s.takeArray a.core i.teamId f) (s.alterCore a.core (clearCore m))
  let back := i.arrays.filter fun e => !(s.core a.core).isTied e.1
  let s := back.foldl (fun (s : State) e => s.setArray a.core e.1 { e.2 with owner := some i.teamId }) s
  let s := (back.filter fun e => e.2.compute).foldl (fun (s : State) e => s.scrub a.core e.1) (s.alterCore a.core (i.toCore a))
  kept.foldl (fun (s : State) k => s.deliverKept i.teamId k) s

/-- TEAM_RESTORE: the images of a queued block, first in their die's queue and fitting together, are back in one dispatch (R379, R382); it waits while the home of an image is under warm reset (R401; DESIGN CHOICE, log 20). -/
def execTeamRestore (die n : Nat) (c : CoreId) (s : State) : Result :=
  let s := s.settleBins die
  match (s.die die).queue.find? fun p => p.n == n with
  | none => .next s
  | some p =>
    match p.origin with
    | .image pa =>
      let is := s.placesAt pa
      if !s.turnOf die p then .next s
      else match s.placeImages die (is.map Prod.snd) with
        | none => .next s
        | some as =>
          if (as.head?.map Allot.core) ≠ some c ∨ is.any (fun e => (s.die (homeDie e.1)).out) then .next s
          else
            let lid := s.lidOf p
            let s := s.alterDie die fun d => { d with queue := d.queue.filter fun q => q.n != n }
            let s := (is.zip as).foldl (fun (s : State) e => s.restoreImage e.1.1 e.1.2 e.2) s
            .next (match lid with | some l => s.endBlocking l | none => s)
    | _ => .next s

end Sys2Proof.Machine
end

