-- ==== Sys2Proof/Machine/System.lean ====
section
/-! DEFINITION. System instructions (family J): trap and rfe (R365), wspill and wfill (R116 to R118), dtload (R375), tlbinv (R373), brk and mark (R393, R395). -/

namespace Sys2Proof.Machine

/-- trap (R365): every thread of ACTIVE raises its software trap. -/
def execTrap (f : TrapF) (s : State) : Result :=
  runGroup s { guard := f.g } fun s t _ => .trap (0x1F0 + f.code.zeroExtend _) [] (s.progress t)

/-! rfe -/

/-- The return of rfe: into the clause that the trap left, or to TRET under the checks of a target (R87, R365). Which slot the group of one belongs to is not said: it takes that of the handler's group (DESIGN CHOICE, log 18). -/
def State.returnTo (s : State) (t : ThreadId) (x : Thread) : Attempt :=
  let r := s.returnTrap t
  match x.resume, x.tretWritten with
  | some (c, k), false =>
    let slot := ((s.groupOf t).map Group.slot).getD 0
    let pass := if x.tcause = 0x1C0 ∨ x.brkPass = some (c.address k) then some (c.address k) else none
    match r.refetch t c k with
    | none => .wait (s.closedHold t (c.address k)) s
    | some (c, r) =>
      match c.late with
      | some (cause, j) => .done (((r.leaveGroup t).alterThread t fun y => { y with resume := none }).trapHeader t c.header cause [BitVec.ofNat 64 j])
      | none => .done (((r.leaveGroup t).alterThread t fun y => { y with brkPass := pass, resume := none }).resumeAlone t c k slot)
  | _, _ =>
    match r.checkTarget t x.tret with
    | .ok r => .done ((r.alterThread t fun y => { y with resume := none, brkPass := none }).arrive t x.tret)
    | .trap c aux r => .trap c aux r
    | .closed _ => .wait (s.closedHold t x.tret) s

/-- rfe (R364, R365) -/
def execRfe (f : TrapF) (s : State) : Result :=
  runGroup s { guard := f.g } <| needPriv 1 0 fun s t _ =>
    match s.thread t with
    | none => .done s
    | some x =>
      if !x.inHandler then .trap 0x1E3 [1] s
      else if x.depth ≠ x.edepth then .trap 0x1E3 [2] s
      else if !x.shadowReady then .wait (.words t (x.words 56 8)) s
      else s.returnTo t x

/-! wspill and wfill -/

/-- The spill slot of frame `n` of a thread (R116). -/
def Role.slot (r : Role) (t n : Nat) : VAddr := addressOf r.spb + BitVec.ofNat 57 ((t - r.t0) * r.s * 256 + n * 256)

/-- What a piece of a spill or a fill answers. -/
inductive Spill where
  | ok (s : State)
  | trap (c : Cause) (aux : List DWord) (s : State)
  | error (c : Cause) (aux : List DWord) (s : State)
  | closed (s : State)

/-- One store of a spill; a slot in a register window raises 0x083 at its first access, which no window takes part in (R118, R222, R238; DESIGN CHOICE, log 21). -/
def State.spillPiece (s : State) (t : ThreadId) (va : VAddr) (bs : List Byte) : Spill :=
  match s.translate (s.coreOf t).die (s.cnOf t) needWrite va with
  | (.ok (.hbm pa), s) =>
    match s.errorAt pa with
    | some c => .error c (errorAux va pa) s.place
    | none => .ok (s.storeBytes t va pa bs (.normal 2))
  | (.ok (.failed c), s) => .error c (errorAux va va.toNat) s.place
  | (.ok (.window _ _), s) => .trap 0x083 [va.zeroExtend 64] s
  | (.cause c, s) => .trap c [va.zeroExtend 64] s
  | (.closed, s) => .closed s

/-- The stores of a spill in order, each at its offset (R118). -/
def State.spillPieces (s : State) (t : ThreadId) (base : VAddr) : List (Nat × List Byte) → Spill
  | [] => .ok s
  | (k, bs) :: rest =>
    match s.spillPiece t (base + BitVec.ofNat 57 k) bs with
    | .ok s => s.spillPieces t base rest
    | r => r

/-- What a frame's slot holds: w0 to w55, the link word, zeros (R116). The spec names no sizes: the words go in 56 stores of 4 bytes, the link in one of 8 and the zeros in three of 8, in this order, each an event of S of its own (R118; DESIGN CHOICE, log 21). -/
def Thread.frameBytes (x : Thread) (n : Nat) : List (Nat × List Byte) :=
  ((List.range 56).map fun k => (4 * k, bytesOf (x.regs.get (56 * n + k)) 4))
    ++ [(224, bytesOf ((x.links.get n).zeroExtend 64) 8)] ++ (List.range 3).map fun k => (232 + 8 * k, List.replicate 8 0)

/-- What follows the accesses of a spill or a fill: a memory error comes as a deferred cause, with the frame as it was; the spec gives D no value then, and D is written 0 (R118, R241; DESIGN CHOICE, log 21). -/
def Spill.answer (r : Spill) (t : ThreadId) (va : VAddr) (orig : State) (done : State → State) (d : Byte) : Attempt :=
  let put (v : Word) (s : State) : State := s.writeRegs t (writeDst d v).regs
  match r with
  | .ok s => .done (put 1 (done s))
  | .trap c aux s => .trap c aux s
  | .error c aux s => .done (put 0 (s.defer t ⟨c, orig.pcAt t, aux⟩))
  | .closed _ => .wait (orig.closedHold t va) orig

/-- wspill (R118) -/
def execWspill (f : XF) (s : State) : Result :=
  runGroup s { guard := f.g, dsts := [.one f.d], inS := true } <| needPriv 1 0 fun s t _ =>
    match s.thread t, s.roleOf t with
    | some x, some r =>
      if x.depth ≤ x.oldest then .done (s.writeRegs t (writeDst f.d 0).regs)
      else
        let ws := (List.range 56).map fun k => 56 * x.oldest + k
        if ws.any fun w => x.empties.contains w then .wait (.words t ws) s
        else
          let va := r.slot t.t x.oldest
          (s.spillPieces t va (x.frameBytes x.oldest)).answer t va s
            (fun s => s.alterThread t fun y => { y with oldest := y.oldest + 1 }) f.d
    | _, _ => .done s

/-- One load of a fill, with what it gives (R118, R238). -/
def State.fillPiece (s : State) (t : ThreadId) (va : VAddr) (n : Nat) : List Byte × Spill :=
  match s.translate (s.coreOf t).die (s.cnOf t) needRead va with
  | (.ok (.hbm pa), s) =>
    match s.loadBytes t va pa n (some (.normal 2)) with
    | (bs, none, s) => (bs, .ok s)
    | (_, some c, s) => ([], .error c (errorAux va pa) s)
  | (.ok (.failed c), s) => ([], .error c (errorAux va va.toNat) s.place)
  | (.ok (.window _ _), s) => ([], .trap 0x083 [va.zeroExtend 64] s)
  | (.cause c, s) => ([], .trap c [va.zeroExtend 64] s)
  | (.closed, s) => ([], .closed s)

/-- The loads of a fill from word `k` on: 56 of 4 bytes, and then one of 8 for the link, each an event of S of its own (R118; DESIGN CHOICE, log 21). `left` counts the words. -/
def State.fillPieces (s : State) (t : ThreadId) (base : VAddr) (k : Nat) : Nat → List Word × DWord × Spill
  | 0 =>
    let (bs, r) := s.fillPiece t (base + 224) 8
    ([], BitVec.ofNat 64 (natOfBytes bs), r)
  | left + 1 =>
    match s.fillPiece t (base + BitVec.ofNat 57 (4 * k)) 4 with
    | (bs, .ok s) =>
      let (ws, link, r) := s.fillPieces t base (k + 1) left
      (BitVec.ofNat 32 (natOfBytes bs) :: ws, link, r)
    | (_, r) => ([], 0, r)

/-- wfill (R118). The hidden link word is an address of 57 bits, of the 8 bytes that its place in the slot has: a fill drops bits [63:57], and a spill writes 0 there (R116; DESIGN CHOICE, log 21). -/
def execWfill (f : XF) (s : State) : Result :=
  runGroup s { guard := f.g, dsts := [.one f.d], inS := true } <| needPriv 1 0 fun s t _ =>
    match s.thread t, s.roleOf t with
    | some x, some r =>
      if x.oldest = 0 ∨ r.frames ≤ x.depth - x.oldest + 1 then .done (s.writeRegs t (writeDst f.d 0).regs)
      else
        let n := x.oldest - 1
        let va := r.slot t.t n
        let (ws, link, res) := s.fillPieces t va 0 56
        let back (s : State) : State :=
          (s.fillWords t ((List.range 56).map fun k => (56 * n + k, ws.getD k 0))).alterThread t fun y =>
            { y with oldest := n, links := y.links.set n (addressOf link) }
        res.answer t va s back f.d
    | _, _ => .done s

/-! dtload -/

/-- The context whose registers, decode table and translations a thread reaches (R367). -/
def State.selected (s : State) (t : ThreadId) : Nat :=
  match s.thread t with
  | some x => if x.ctxSel = 0 then s.cnOf t else x.ctxSel.toNat
  | none => 0

/-- The privilege that reaching the selected context needs (R364). -/
def Thread.contextPriv (x : Thread) (own : Nat) : Nat := if x.ctxSel = 0 then own else max own 2

/-- The entries of a decode table image (R64). -/
def tableEntries (bs : List Byte) : List (BitVec 16) := (List.range 1024).map fun k => BitVec.ofNat 16 (field bs (2 * k) 2)

/-- The loads of an image: 256 of 8 bytes. `left` counts them. -/
def State.readImage (s : State) (t : ThreadId) (va : VAddr) : Nat → List Byte × Spill
  | 0 => ([], .ok s)
  | left + 1 =>
    match s.fillPiece t va 8 with
    | (bs, .ok s) =>
      let (rest, r) := s.readImage t (va + 8) left
      (bs ++ rest, r)
    | (_, r) => ([], r)

/-- A decode table given to the selected context (R375). -/
def State.setTable (s : State) (t : ThreadId) (x : DecodeTable) : State :=
  s.alterContext (s.selected t) fun c => { c with table := x }

/-- dtload (R64, R364, R375) -/
def execDtload (f : XF) (s : State) : Result :=
  runGroup s { guard := f.g, srcs := if f.lo = 0 then [.pair f.d false] else [], inS := f.lo == 0 } fun s t vs =>
    match s.thread t with
    | none => .done s
    | some x =>
      if !x.mayDo (x.contextPriv 1) then .trap 0x1E1 [0] s
      else if (s.context (s.selected t)).isNone then .trap 0x1E4 [0] s
      else if f.lo = 1 then .done (s.setTable t .lv3)
      else if f.lo = 2 then .done (s.setTable t .lv2)
      else
        let va := addressOf (arg64 vs 0)
        if va.toNat % 8 ≠ 0 then .trap 0x080 [va.zeroExtend 64] s
        else match s.readImage t va 256 with
          | (_, .trap c aux s) => .trap c aux s
          | (_, .error c aux s') => .done (s'.defer t ⟨c, s.pcAt t, aux⟩)
          | (_, .closed _) => .wait (s.closedHold t va) s
          | (bs, .ok s) =>
            let es := tableEntries bs
            match es.findIdx? fun e => !imageEntryOk e with
            | some k => .trap 0x1E5 [BitVec.ofNat 64 k] s
            | none => .done (s.setTable t (.image es))

/-! tlbinv -/

/-- Every kept translation of a context dropped (R373). -/
def State.dropContext (s : State) (cn : Nat) : State :=
  { s with dies := s.dies.map fun (e : Nat × Die) => (e.1, { e.2 with kept := e.2.kept.filter fun k => decide (k.cn ≠ cn) }) }

/-- tlbinv (R373): the entries dropped, the wait for the accesses that went through them, and one event of S. A .va of some pages drops every entry of its context, since one entry may map pages on both sides of the set, and so waits for every access of the context; a count of 0 drops and waits for nothing. -/
def execTlbinv (f : XF) (s : State) : Result :=
  runGroup s { guard := f.g, srcs := if f.lo = 0 then [.pair f.d false, .one f.a false] else [], inS := true } <|
    needPriv 2 0 fun s t vs =>
      let cn := s.selected t
      let who := if f.lo = 2 then none else some cn
      let nothing := f.lo = 0 ∧ arg vs 1 = 0
      let s := if nothing then s else match who with | some cn => s.dropContext cn | none => s.dropKept
      if !nothing ∧ s.landingIn who then .wait (.landing who) s
      else
        let s := s.place
        .done (s.fenceHere t)

/-! brk and mark -/

/-- Whether brk stops a thread: BRKSTOP, and FCN 0 or the thread's context (R385, R393). -/
def State.brkStops (s : State) (t : ThreadId) : Bool :=
  let o := ((s.core (s.coreOf t)).obs.get 8).toNat
  o / 2 % 2 == 1 && (o / 2 ^ 16 % 4096 == 0 || o / 2 ^ 16 % 4096 == s.cnOf t)

/-- brk (R393): passed once as nop after a return to it; otherwise it stops its thread, with a report and a kind-2 record, or raises 0x1C0. -/
def execBrk (f : XF) (s : State) : Result :=
  runGroup s { guard := f.g } fun s t _ =>
    match s.thread t, s.groupOf t with
    | some x, some g =>
      let pc := g.pc
      let code : DWord := f.d.zeroExtend 64
      if x.brkPass = some pc then .done (s.alterThread t fun y => { y with brkPass := none })
      else if s.brkStops t then
        let s := s.countFor t 0x0E 1
        let s := (s.trace (s.coreOf t) (s.nameOf t) pc 2 code).report t ⟨0x1C0, pc, auxWords [code]⟩
        .left (s.stop t (some (g.clause, g.idx)))
      else .trap 0x1C0 [code] s
    | _, _ => .done s

/-- mark (R395) -/
def execMark (f : MarkF) (s : State) : Result :=
  runGroup s { guard := f.g, srcs := if f.var = 0 then [.one f.a false] else [] } fun s t vs =>
    if f.var = 0 then
      .done (s.trace (s.coreOf t) (s.nameOf t) (s.pcAt t) 1 (BitVec.ofNat 64 (f.tag.toNat * 2 ^ 32 + (arg vs 0).toNat)))
    else .done (s.alterTeam t.team fun m => { m with gate := f.var == 1 })

end Sys2Proof.Machine
end

