-- ==== Sys2Proof/Machine/Reset.lean ====
section
/-! DEFINITION. Writes of registers with a row of their own: the stitch registers (R319, R321), CTXID (R367), TRSIZE (R388) and the warm reset of one die (R401). -/

namespace Sys2Proof.Machine

/-! Stitch registers -/

/-- Whether a region holds a core of a die (R320). -/
def Region.holds (x : Region) (n : Nat) : Bool :=
  decide (x.row0 ≤ n / 12 ∧ n / 12 < x.row0 + x.rows ∧ x.col0 ≤ n % 12 ∧ n % 12 < x.col0 + x.cols)

/-- Whether two regions overlap. -/
def Region.meets (x y : Region) : Bool :=
  decide (x.row0 < y.row0 + y.rows ∧ y.row0 < x.row0 + x.rows ∧ x.col0 < y.col0 + y.cols ∧ y.col0 < x.col0 + x.cols)

/-- Whether an enabled region breaks a rule of its own fields (R321). -/
def Region.bad (x : Region) : Bool :=
  x.shape == 3 || decide (8 < x.row0 + x.rows ∨ 12 < x.col0 + x.cols)
    || (x.shape == 2 && (x.rows == 1 || x.cols == 1)) || (x.rows == 1 && x.cols == 1)

/-- Whether a write to MSTn of a die is refused (R321). -/
def State.mstRefused (s : State) (die n : Nat) (v : DWord) : Bool :=
  let new := regionOf v
  let old := regionOf ((s.die die).mst.get n)
  let others := (((List.range 8).filter fun k => k != n).map fun k => regionOf ((s.die die).mst.get k)).filter Region.en
  (new.en && (new.bad || others.any new.meets))
    || s.teams.any fun e => e.2.core.die == die && (new.holds e.2.core.num || old.holds e.2.core.num)

/-- A write to MSTn of a die: accepted, or refused with bit n of ERR set (R4, R319, R321). -/
def State.writeMst (s : State) (die n : Nat) (v : DWord) : State :=
  let v := v &&& 0xFFFF0001
  if s.mstRefused die n v then s.alterDie die fun d => { d with mststat := d.mststat ||| (1#8 <<< n) }
  else s.alterDie die fun d => { d with mst := d.mst.set n v, mststat := d.mststat &&& ~~~(1#8 <<< n) }

/-- MST_WRITE (R321) -/
def execMstWrite (die n : Nat) (v : DWord) (s : State) : Result :=
  .next (if die < 8 ∧ n < 8 then s.writeMst die n v else s)

/-! CTXID -/

/-- A context as it is created (R1, R4, R230, R367). -/
def Context.fresh (sys : Bool) : Context := ⟨true, sys, 0, 0, 0, .lv3, []⟩

/-- Whether a team of a context is live, queued with its grid, or saved (R367). -/
def State.contextBusy (s : State) (cn : Nat) : Bool :=
  (s.teams.any fun e => e.2.cn == cn) || (s.images.any fun e => e.2.team.cn == cn) || s.grids.any fun e => e.2.cn == cn

/-- The privilege of a thread of a context (R361). -/
def privOf (sys inHandler : Bool) : Nat := if sys then 2 else if inHandler then 1 else 0

/-- A thread after SYS of its context is written (R361). -/
def Thread.withSys (x : Thread) (sys : Bool) : Thread :=
  { x with priv := privOf sys x.inHandler, savedPriv := privOf sys false }

/-- SYS of a context written: the privilege of its threads follows it (R361, R367). -/
def State.setSys (s : State) (cn : Nat) (sys : Bool) : State :=
  let s := s.alterContext cn fun x => { x with sys := sys }
  { s with
    threads := s.threads.map fun (e : ThreadId × Thread) => if s.cnOf e.1 = cn then (e.1, e.2.withSys sys) else e
    images := s.images.map fun (e : Nat × Image) =>
      if e.2.team.cn = cn then (e.1, { e.2 with threads := e.2.threads.map fun (u : Nat × Thread) => (u.1, u.2.withSys sys) }) else e }

/-- The passed result buffers of a context given back to the cache role (R339). -/
def State.dropBuffers (s : State) (cn : Nat) : State :=
  { s with cores := s.cores.map fun (e : CoreId × Core) =>
      (e.1, { e.2 with arrays := e.2.arrays.map fun (y : Nat × FieldArray) =>
        (y.1, if y.2.passed = some cn then { FieldArray.init with serial := y.2.serial } else y.2) }) }

/-- A kept line of a context whose class keeps it no more: in L2 unless class 1, with RRPV 3; in the LLC unless class 0 or 2, with RRPV 2 (R231). -/
def State.releaseLine (s : State) (cn : Nat) (l2 : Bool) (l : CacheLine) : CacheLine :=
  match l.kept with
  | none => l
  | some (owner, page) =>
    let cls := (s.context cn).bind fun x => x.classOf (BitVec.ofNat 57 (page * 65536))
    let still := if l2 then cls == some 1 else cls == some 0 || cls == some 2
    if owner ≠ cn ∨ still then l else { l with kept := none, rrpv := if l2 then 3 else 2 }

/-- The ranges of a context have changed: ties end and lines are kept no more where no range makes them (R187, R231). -/
def State.rematch (s : State) (cn : Nat) : State :=
  let s := s.endTies cn
  { s with
    dies := s.dies.map fun (e : Nat × Die) => (e.1, { e.2 with l2 := e.2.l2.map (s.releaseLine cn true) })
    llc := s.llc.map fun (e : Nat × List CacheLine) => (e.1, e.2.map (s.releaseLine cn false)) }

/-- A context that is live no more (R367). -/
def State.endContext (s : State) (cn : Nat) : State :=
  ({ s with contexts := Table.drop s.contexts cn }.rematch cn).dropBuffers cn

/-- A write of CTXID of a context: created, cleared when no team of it is left, or SYS written (R367). -/
def State.writeCtxid (s : State) (cn : Nat) (v : DWord) : State :=
  let sys := v.getLsbD 40
  match s.context cn, v.getLsbD 63 with
  | none, true => { s with contexts := Table.put s.contexts cn (Context.fresh sys) }
  | none, false => s
  | some _, true => s.setSys cn sys
  | some _, false => if s.contextBusy cn then s else s.endContext cn

/-- CTXID_WRITE: context numbers are 1 to 4095 (R351, R367) -/
def execCtxidWrite (cn : Nat) (v : DWord) (s : State) : Result := .next (if 1 ≤ cn ∧ cn < 4096 then s.writeCtxid cn v else s)

/-! TRSIZE -/

/-- A write of TRSIZE: the size of the ring, with TRHEAD counting from 0 again (R388). -/
def State.writeTrsize (s : State) (die : Nat) (v : DWord) : State :=
  s.alterDie die fun d => { d with trsize := v &&& 0xFFFFFF, trhead := 0 }

/-- TRSIZE_WRITE (R388) -/
def execTrsizeWrite (die : Nat) (v : DWord) (s : State) : Result := .next (s.writeTrsize die v)

/-! Warm reset of one die (R401) -/

/-- The dies that are out. -/
def State.outDies (s : State) : List Nat := (List.range 8).filter fun d => (s.die d).out

/-- DIESTAT: the dies that are out, and the phase of the latest request (R401). -/
def State.diestat (s : State) : DWord :=
  BitVec.ofNat 64 ((s.outDies.map fun d => 2 ^ d).foldl (· + ·) 0 + (s.die s.lastReset).phase * 2 ^ 8)

/-- A team removed from a die that is reset, whose grid fails (R401). -/
def State.removeTeam (s : State) (n : Nat) (m : Team) : State :=
  let s := (s.endStep n).noteSignature n m
  let s := (s.freeTeam n m).abandonReplies m
  (s.leaveGrid m.core.die m.lid m.b true).retireOutcome m

/-- The teams of a restartable cluster on a die removed, to start again from its queue; those on another die stay, with the links to them broken, and stand still until then (R76, R296, R325, R401). -/
def State.restartTeam (s : State) (die n : Nat) (m : Team) : State :=
  let here (s : State) : List (Nat × Team) := (s.unitTeams m).filter fun e => decide (e.2.core.die = die)
  let s := (here s).foldl (fun (s : State) e => s.endStep e.1) s
  let us := here s
  let s := us.foldl (fun (s : State) e => (s.freeTeam e.1 e.2).abandonReplies e.2) s
  let s := s.requeue die m (us.map fun e => e.2.pos)
  match m.preempt with
  | some p => if (s.team n).isNone ∧ !((s.unitTeams m).any fun e => e.2.preempt.isSome) then s.writeOutcome m.core m.lid p 1 0 0 else s
  | none => s

/-- Phase 1: every team resident on the die is removed (R401). -/
def State.quiesce (s : State) (die : Nat) : State :=
  ((s.teams.filter fun e => decide (e.2.core.die = die)).map Prod.fst).foldl (fun (s : State) n =>
    match s.team n with
    | none => s
    | some m => if s.restartable m.lid then s.restartTeam die n m else s.removeTeam n m) s

/-- A write to DIERST: the die it names is out from here on, unless it is out already or is the last one admitted (R401). -/
def State.startReset (s : State) (v : DWord) : State :=
  let d := v.toNat % 16
  if 8 ≤ d ∨ (s.die d).out ∨ 7 ≤ s.outDies.length then s
  else { s.alterDie d fun x => { x with out := true, phase := 1 } with lastReset := d }.quiesce d

/-- DIERST (R401) -/
def execDierst (v : DWord) (s : State) : Result := .next (s.startReset v)

/-- A die with its registers at their Reset values, PWRSTAT among them; units that wait for it stay queued, images do not (R401, R403). -/
def Die.readmitted (d : Die) : Die :=
  { Die.init with
    phase := 4
    queue := d.queue.filter fun p => match p.origin with | .grid .. => true | .restart _ => true | .part .. => true | _ => false
    temp := d.temp
    untouched := d.untouched }

/-- The replies owed for records that the bins of a die still hold as they go out of service: no team will take them (R344, R401; DEDUCED, log 20). -/
def State.abandonBins (s : State) (die : Nat) : State :=
  ((s.die die).bins.flatMap fun e => e.2.held.filterMap BinRecord.owed).foldl (fun (s : State) t => s.answer t 2 0 0) s

/-- The images that wait in a die's queue, which are not queued any more once it is cleared. -/
def State.unqueueImages (s : State) (die : Nat) : State :=
  let pas := (s.die die).queue.flatMap fun p => match p.origin with
    | .image pa => (s.placesAt pa).map Prod.fst
    | _ => []
  { s with images := s.images.map fun (e : Nat × Image) => if pas.contains e.1 then (e.1, { e.2 with queued := false }) else e }

/-- Phase 4: the registers of the die and of its cores at their Reset values, the pages of its stacks memory-side, and the die admitted (R401). The package registers that every die holds (PWMp, PGMODE) keep their values, of which the model has one copy (R4, R228, R234; DESIGN CHOICE, log 23). -/
def State.readmit (s : State) (die : Nat) : State :=
  let s := ((s.abandonBins die).unqueueImages die).alterDie die Die.readmitted
  { s with
    cores := s.cores.map fun (e : CoreId × Core) =>
      if e.1.die = die then (e.1, { Core.init with clk := e.2.clk, ltime := e.2.ltime }) else e
    remains := s.remains.filter fun e => decide (e.2.team.core.die ≠ die)
    pages := s.pages.filter fun e => decide (homeDie (e.1 * 65536) ≠ die) }

/-- Phase 2: every dirty sector of the die's L2 written back to the LLC slices of its stacks (R224, R401). -/
def State.flushL2 (s : State) (die : Nat) : State :=
  ((s.die die).l2.foldl (fun (s : State) l => s.writeBack l) s).alterDie die fun d =>
    { d with phase := 2, l2 := d.l2.map fun l => { l with dirty := 0 } }

/-- DIE_READMIT: the reset of a die moves to its next phase; with the end of the retraining the die is admitted again (R401). -/
def execDieReadmit (die : Nat) (s : State) : Result :=
  let d := s.die die
  .next
    (if !d.out then s
    else if d.phase < 2 then s.flushL2 die
    else if d.phase < 3 then s.setDie die { d with phase := 3 }
    else s.readmit die)

end Sys2Proof.Machine
end

