-- ==== Sys2Proof/Machine/Csr.lean ====
section
/-! DEFINITION. The control registers (R367, R385): their scopes and privileges, their reads and writes, csrr and csrw (R366), and the register windows (R222, R223). -/

namespace Sys2Proof.Machine

/-! The map -/

/-- The scopes of R366. -/
inductive CsrScope where
  | thread
  | team
  | context
  | die
  | package
  | vetch
  /-- a die register of each Sorrel die, and a Vetch register for Vetch's ring (R388) -/
  | ring
  deriving DecidableEq, Repr

/-- A row of the map of R367: the scope and the least PRIV to read and to write; 0 where the map has "—". -/
structure CsrRow where
  scope : CsrScope
  read  : Nat
  write : Nat
  deriving DecidableEq, Repr

/-- Rows of the map: first and last number, and what they are (R367, R385). -/
def csrMap : List (Nat × Nat × CsrRow) :=
  [(0x000, 0x001, ⟨.thread, 1, 0⟩), (0x002, 0x002, ⟨.thread, 1, 1⟩), (0x003, 0x004, ⟨.thread, 0, 0⟩),
   (0x008, 0x00B, ⟨.thread, 1, 0⟩), (0x00C, 0x00C, ⟨.thread, 0, 0⟩), (0x00D, 0x00D, ⟨.thread, 2, 2⟩),
   (0x010, 0x018, ⟨.thread, 1, 1⟩), (0x020, 0x021, ⟨.team, 0, 0⟩),
   (0x100, 0x100, ⟨.context, 0, 2⟩), (0x101, 0x101, ⟨.context, 0, 1⟩), (0x102, 0x102, ⟨.context, 2, 2⟩),
   (0x103, 0x103, ⟨.context, 0, 0⟩), (0x200, 0x22F, ⟨.context, 0, 2⟩)]
  ++ [(0x400, 0x43F, ⟨.package, 2, 2⟩), (0x480, 0x480, ⟨.package, 2, 2⟩), (0x490, 0x491, ⟨.package, 2, 2⟩),
   (0x500, 0x508, ⟨.die, 2, 2⟩), (0x600, 0x603, ⟨.die, 2, 2⟩),
   (0x610, 0x611, ⟨.vetch, 2, 2⟩), (0x620, 0x621, ⟨.vetch, 2, 2⟩), (0x630, 0x630, ⟨.vetch, 0, 2⟩), (0x631, 0x631, ⟨.vetch, 2, 0⟩)]
  ++ [(0x700, 0x701, ⟨.die, 2, 2⟩), (0x702, 0x702, ⟨.die, 0, 2⟩), (0x703, 0x703, ⟨.die, 2, 2⟩), (0x710, 0x712, ⟨.ring, 2, 2⟩),
   (0x720, 0x722, ⟨.die, 2, 2⟩), (0x740, 0x741, ⟨.die, 2, 2⟩), (0x750, 0x750, ⟨.die, 2, 2⟩)]

/-- Whether `r` is an observation register of a core (R385). -/
def obsDefined (r : Nat) : Bool :=
  decide (r ≤ 0x08 ∨ (0x10 ≤ r ∧ r ≤ 0x1F) ∨ (0x20 ≤ r ∧ r ≤ 0x30) ∨ (0x40 ≤ r ∧ r ≤ 0x83))

/-- The core number and the register that a number in the observation range names (R385). -/
def obsOf (n : Nat) : Option (Nat × Nat) :=
  let c := (n - 0x8000) / 0x100
  let r := (n - 0x8000) % 0x100
  if 0x8000 ≤ n ∧ c < Config.cores ∧ obsDefined r then some (c, r) else none

/-- The row of a control register number; none where no row defines it (R367). -/
def csrRow (n : Nat) : Option CsrRow :=
  match csrMap.find? fun e => decide (e.1 ≤ n ∧ n ≤ e.2.1) with
  | some e => some e.2.2
  | none => (obsOf n).map fun _ => ⟨.die, 2, 2⟩

/-! Observation registers -/

/-- The bits of an observation register that a write sets (R385, R387). -/
def obsMask (r : Nat) : DWord :=
  if r < 4 then 0xFFFFFFFFFE0000FF
  else if r = 8 then 0x0FFF0003
  else if 0x10 ≤ r ∧ r < 0x30 then 0x01FFFFFFFFFFFFFF
  else 0xFFFFFFFFFFFFFFFF

/-- Whether an observation register is a count: ECNT, LCIDLE or LCCNT. -/
def obsCounts (r : Nat) : Bool := decide ((4 ≤ r ∧ r < 8) ∨ 0x30 ≤ r)

/-- An observation register written: a count goes on from the value written with what this clk has added, and owes a sample where that passes a multiple of 2^PEXP (R386, R387). -/
def Core.writeObs (k : Core) (r : Nat) (v : DWord) : Core :=
  let v := v &&& obsMask r
  if obsCounts r then
    { k with
      obs := k.obs.set r (v + k.accrued.get r)
      samples := k.samples.map fun (e : Nat × Sample) =>
        if e.1 + 4 = r then (e.1, { e.2 with owed := crosses (k.pexp e.1) v (k.accrued.get r).toNat }) else e }
  else { k with obs := k.obs.set r v }

/-- The same, where a replay session does not own the register (R391). -/
def State.writeObs (s : State) (c : CoreId) (r : Nat) (v : DWord) : State :=
  if r < 8 ∧ s.replay.isSome then s else s.alterCore c fun k => k.writeObs r v

/-! Registers of the package and of Vetch -/

/-- A class-1 line in a way that its partition may no longer fill (R229). -/
def unlockWay (p mask : Nat) (l : CacheLine) : CacheLine :=
  if l.part = p ∧ l.kept.isSome ∧ !mask.testBit l.way then { l with kept := none, rrpv := 3 } else l

/-- PWMp written on every die (R228, R229). -/
def State.writePwm (s : State) (p : Nat) (v : DWord) : State :=
  { s with
    pwm := s.pwm.set p (v &&& 0xFFFFFFFF)
    dies := s.dies.map fun (e : Nat × Die) => (e.1, { e.2 with l2 := e.2.l2.map (unlockWay p (v.toNat % 65536)) }) }

/-- NETCFG written: a port whose EN is clear goes down; the others keep what they came up with (R396). -/
def State.writeNetcfg (s : State) (v : DWord) : State :=
  let v := v &&& 0x0000FFFF0001FFFF
  { s with netcfg := v, ports := s.ports.filter fun e => v.getLsbD e.1 }

/-- A package register (R367). -/
def State.readPackage (s : State) (n : Nat) : DWord :=
  if n < 0x440 then s.pwm.get (n - 0x400)
  else match n with
    | 0x480 => s.pgmode
    | 0x491 => s.rpstat
    | _ => 0

/-- A package register written on every die (R228, R234, R390). -/
def State.writePackage (s : State) (n : Nat) (v : DWord) : State :=
  if n < 0x440 then s.writePwm (n - 0x400) v
  else match n with
    | 0x480 => { s with pgmode := v &&& 0x0000FF00FFFFFF01 }
    | 0x490 => s.startReplay v
    | _ => s

/-- A Vetch register (R367, R396, R401). -/
def State.readVetch (s : State) (n : Nat) : DWord :=
  match n with
  | 0x610 => s.htbase
  | 0x611 => s.htsize
  | 0x620 => s.netcfg
  | 0x621 => s.devnum
  | 0x631 => s.diestat
  | _ => 0

/-- A Vetch register written (R342, R396, R401). -/
def State.writeVetch (s : State) (n : Nat) (v : DWord) : State :=
  match n with
  | 0x610 => { s with htbase := v &&& 0x000FFFFFFFFFFFF8 }
  | 0x611 => { s with htsize := v &&& 0x1FFFF }
  | 0x620 => s.writeNetcfg v
  | 0x621 => if v.toNat % 65536 = 0xFFFF then s else { s with devnum := v &&& 0xFFFF }.flush
  | 0x630 => s.startReset v
  | _ => s

/-! Registers of a die -/

/-- BINSTAT, BINWM and BINOCC (R333). -/
def Die.binstat (d : Die) : DWord := BitVec.ofNat 64 (d.lbin.toNat * 2 ^ 8 + if d.binErr then 1 else 0)
def Die.binwm (d : Die) : DWord := BitVec.ofNat 64 ((if d.df then 2 ^ 63 else 0) + d.hwm.toNat * 2 ^ 24 + d.lwm.toNat)

/-- A register of the trace ring of a die or of Vetch (R388). -/
def Die.ringRegister (d : Die) (n : Nat) : DWord :=
  match n with
  | 0x710 => d.trbase
  | 0x711 => d.trsize
  | _ => d.trhead

/-- A die register (R319, R333, R367, R389, R403, R404). -/
def Die.read (d : Die) (n : Nat) : DWord :=
  if 0x500 ≤ n ∧ n < 0x508 then d.mst.get (n - 0x500)
  else match n with
    | 0x508 => d.mststat.zeroExtend 64
    | 0x601 => d.binstat
    | 0x602 => d.binwm
    | 0x603 => BitVec.ofNat 64 (d.occ % 2 ^ 24)
    | 0x700 => d.csbase
    | 0x701 => d.cssize
    | 0x703 => d.reststat
    | 0x721 => d.stepteam
    | 0x722 => d.stepstat
    | 0x740 => d.pwrctl
    | 0x741 => d.pwrstat
    | 0x750 => d.mcstat
    | _ => 0

/-- A value with the bits that a W1C mask and a write both name cleared (R4). -/
def w1c (old mask v : DWord) : DWord := old &&& ~~~(mask &&& v)

/-- A die register written (R319, R333, R367, R388, R389, R403, R404). -/
def State.writeDie (s : State) (d n : Nat) (v : DWord) : State :=
  if 0x500 ≤ n ∧ n < 0x508 then s.writeMst d (n - 0x500) v
  else match n with
    | 0x508 => s.alterDie d fun x => { x with mststat := (w1c (x.mststat.zeroExtend 64) 0xFF v).truncate 8 }
    | 0x600 => s.loadBin d v
    | 0x601 => s.alterDie d fun x => { x with binErr := x.binErr && !v.getLsbD 0 }
    | 0x602 => (s.alterDie d fun x => { x with hwm := v.extractLsb' 24 24, lwm := v.extractLsb' 0 24 }).updateDf d
    | 0x700 => s.alterDie d fun x => { x with csbase := v &&& 0x000FFFFFFFFF0000 }
    | 0x701 => s.alterDie d fun x => { x with cssize := v &&& 0xFFFFFF }
    | 0x702 => s.restoreWrite d v
    | 0x703 => s.alterDie d fun x => { x with reststat := w1c x.reststat 1 v }
    | 0x720 => s.stepCommand d v
    | 0x721 => s.alterDie d fun x => { x with stepteam := v }
    | 0x740 => s.alterDie d fun x => { x with pwrctl := v &&& 0xF }
    | 0x750 => s.alterDie d fun x => { x with mcstat := (w1c x.mcstat 1 v &&& 0xFFFFFFFF0000FFFF) ||| (v &&& 0xFFFF0000) }
    | _ => s

/-- A register of a trace ring written (R388). -/
def State.writeRing (s : State) (d n : Nat) (v : DWord) : State :=
  match n with
  | 0x710 => s.alterDie d fun x => { x with trbase := v &&& 0x000FFFFFFFFF0000 }
  | 0x711 => s.writeTrsize d v
  | _ => s

/-- A register of die, package or Vetch scope, read at die `d` (R366). -/
def State.readRegister (s : State) (d n : Nat) : DWord :=
  match obsOf n, (csrRow n).map CsrRow.scope with
  | some (c, r), _ => (s.core ⟨d, c⟩).obs.get r
  | none, some .package => s.readPackage n
  | none, some .vetch => s.readVetch n
  | none, some .ring => (s.die d).ringRegister n
  | none, some .die => (s.die d).read n
  | _, _ => 0

/-- A register of die, package or Vetch scope, written at die `d` (R366). -/
def State.writeRegister (s : State) (d n : Nat) (v : DWord) : State :=
  match obsOf n, (csrRow n).map CsrRow.scope with
  | some (c, r), _ => s.writeObs ⟨d, c⟩ r v
  | none, some .package => s.writePackage n v
  | none, some .vetch => s.writeVetch n v
  | none, some .ring => s.writeRing d n v
  | none, some .die => s.writeDie d n v
  | _, _ => s

/-! Registers of a thread, a team and a context -/

/-- TSTAT (R367). -/
def Thread.tstat (x : Thread) : DWord :=
  BitVec.ofNat 64 (x.edepth % 65536 * 2 ^ 16 + min x.deferred.length 255 * 2 ^ 8 + x.priv % 4 * 2 + if x.inHandler then 1 else 0)

/-- A thread register (R367). -/
def State.readThread (s : State) (t : ThreadId) (x : Thread) (n : Nat) : DWord :=
  if 0x008 ≤ n ∧ n ≤ 0x00B then x.taux.get (n - 0x008)
  else if 0x010 ≤ n ∧ n ≤ 0x017 then x.tshw.get (n - 0x010)
  else match n with
    | 0x000 => x.tcause.zeroExtend 64
    | 0x001 => x.tpc.zeroExtend 64
    | 0x002 => x.tret.zeroExtend 64
    | 0x003 => BitVec.ofNat 64 (t.t * 2 ^ 32 + (s.nameOf t).lid % 2 ^ 32)
    | 0x004 => BitVec.ofNat 64 (s.nameOf t).b
    | 0x00C => x.tstat
    | 0x00D => x.ctxSel.zeroExtend 64
    | _ => x.tshp

/-- A thread register written (R367). -/
def Thread.writeCsr (x : Thread) (n : Nat) (v : DWord) : Thread :=
  if 0x010 ≤ n ∧ n ≤ 0x017 then { x with tshw := x.tshw.set (n - 0x010) (v &&& 0xFFFFFFFF) }
  else match n with
    | 0x002 => { x with tret := v.truncate 57, tretWritten := true }
    | 0x00D => { x with ctxSel := v.truncate 12 }
    | 0x018 => { x with tshp := v &&& 0xFE }
    | _ => x

/-- A team register (R367). -/
def Team.readCsr (m : Team) (n : Nat) : DWord := if n = 0x020 then m.prgtot else BitVec.ofNat 64 m.prog
/-- A team register written (R367). -/
def Team.writeCsr (m : Team) (n : Nat) (v : DWord) : Team := if n = 0x020 then { m with prgtot := v } else m

/-- DTSTAT (R367). -/
def dtstatOf (x : DecodeTable) : DWord :=
  match x with
  | .lv3 => 0
  | .lv2 => 1
  | .image _ => 2

/-- A register of a live context (R230, R361, R367). -/
def Context.readCsr (x : Context) (cn n : Nat) : DWord :=
  match n with
  | 0x100 => BitVec.ofNat 64 (2 ^ 63 + (if x.sys then 2 ^ 40 else 0) + x.part % 64 * 2 ^ 32 + cn)
  | 0x101 => x.hvec
  | 0x102 => x.ptroot
  | 0x103 => dtstatOf x.table
  | _ => x.rc.get (n - 0x200)

/-- The bits of RCBASEn, RCLIMn and RCARRn that a write sets (R230). -/
def rcMask (k : Nat) : DWord := if k < 16 then 0x01FFFFFFFFFFFFFD else if k < 32 then 0x01FFFFFFFFFF0000 else 0xFFFFFFFF

/-- A register of a context read; a context that is not live has CTXID only (R367). -/
def State.readContext (s : State) (cn n : Nat) : DWord :=
  match s.context cn with
  | some x => x.readCsr cn n
  | none => BitVec.ofNat 64 cn

/-- A register of a context written (R230, R367). -/
def State.writeContext (s : State) (cn n : Nat) (v : DWord) : State :=
  match n with
  | 0x100 => s.writeCtxid cn v
  | 0x101 => s.alterContext cn fun x => { x with hvec := v &&& 0x01FFFFFFFFFFFFFF }
  | 0x102 => s.alterContext cn fun x => { x with ptroot := v &&& 0x000FFFFFFFFFF800 }
  | 0x103 => s
  | _ => (s.alterContext cn fun x => { x with rc := x.rc.set (n - 0x200) (v &&& rcMask (n - 0x200)) }).rematch cn

/-! csrr and csrw (R366) -/

/-- Whether a thread of a core reaches a scope (R367). -/
def CsrScope.reached (x : CsrScope) (c : CoreId) : Bool :=
  match x with
  | .die => c.isSorrel
  | .vetch => c.isSorrel
  | _ => true

/-- Whether an access to a scope is an event of S (R366). -/
def CsrScope.shared (x : CsrScope) : Bool :=
  match x with
  | .thread => false
  | .team => false
  | _ => true

/-- Whether an access to a context register needs the context live: every access but a read of CTXID and a write of CTXID with V = 1 (R367). `write` is the value of a write. -/
def needsLive (n : Nat) (write : Option DWord) : Bool :=
  n != 0x100 || (write.map fun v => !v.getLsbD 63).getD false

/-- The checks of an access to a control register, in order: its number and scope, the privilege, and the selected context (R364, R367). `write` is the value of a write. -/
def State.csrCheck (s : State) (t : ThreadId) (x : Thread) (n : Nat) (write : Option DWord) : Option Cause :=
  match csrRow n with
  | none => some 0x1E4
  | some r =>
    let p := if write.isSome then r.write else r.read
    let p := if r.scope = .context then x.contextPriv p else p
    if !r.scope.reached (s.coreOf t) then some 0x1E4
    else if !x.mayDo p then some 0x1E1
    else if r.scope = .context ∧ needsLive n write ∧ (s.context (s.selected t)).isNone then some 0x1E4
    else none

/-- Whether an access to a control register is an event of S (R366). -/
def csrInS (n : Nat) : Bool := match csrRow n with | some r => r.scope.shared | none => false

/-- The place in S of an access to a register that is not a thread's or a team's, performed as .vol (R366). -/
def State.csrPlace (s : State) (t : ThreadId) (n : Nat) : State := if csrInS n then s.place.fenceHere t else s

/-- The value of a control register for a thread (R366). -/
def State.readCsr (s : State) (t : ThreadId) (x : Thread) (m : Team) (n : Nat) : DWord :=
  match (csrRow n).map CsrRow.scope with
  | some .thread => s.readThread t x n
  | some .team => m.readCsr n
  | some .context => s.readContext (s.selected t) n
  | some _ => s.readRegister (s.coreOf t).die n
  | none => 0

/-- A control register written by a thread (R366). -/
def State.writeCsr (s : State) (t : ThreadId) (n : Nat) (v : DWord) : State :=
  match (csrRow n).map CsrRow.scope with
  | some .thread => s.alterThread t fun x => x.writeCsr n v
  | some .team => s.alterTeam t.team fun m => m.writeCsr n v
  | some .context => s.writeContext (s.selected t) n v
  | some _ => s.writeRegister (s.coreOf t).die n v
  | none => s

/-- csrr (R366) -/
def execCsrr (f : CsrF) (s : State) : Result :=
  runGroup s { guard := f.g, dsts := [.pair f.d], inS := csrInS f.csr.toNat } fun s t _ =>
    match s.thread t, s.teamOf t with
    | some x, some m =>
      match s.csrCheck t x f.csr.toNat none with
      | some c => .trap c [f.csr.zeroExtend 64] s
      | none =>
        let s := s.csrPlace t f.csr.toNat
        .done (s.writeRegs t (writePair f.d (s.readCsr t x m f.csr.toNat)).regs)
    | _, _ => .done s

/-- csrw (R366) -/
def execCsrw (f : CsrF) (s : State) : Result :=
  runGroup s { guard := f.g, srcs := [.pair f.a false], inS := csrInS f.csr.toNat } fun s t vs =>
    match s.thread t with
    | some x =>
      match s.csrCheck t x f.csr.toNat (some (arg64 vs 0)) with
      | some c => .trap c [f.csr.zeroExtend 64] s
      | none => .done ((s.csrPlace t f.csr.toNat).writeCsr t f.csr.toNat (arg64 vs 0))
    | none => .done s

/-! Register windows (R223) -/

/-- A half of a register of a window (R223). -/
def State.readWindow (s : State) (d off : Nat) : Word :=
  let v := s.readRegister d (off / 8)
  if off % 8 = 0 then v.extractLsb' 0 32 else v.extractLsb' 32 32

/-- A 4-byte write to a window by a core: the low word goes to its latch; the high word writes the register (R223). -/
def State.writeWindow (s : State) (c : CoreId) (d off : Nat) (w : Word) : State :=
  if off % 8 = 0 then s.alterDie d fun x => { x with latch := Table.put x.latch c w }
  else s.writeRegister d (off / 8) (w ++ Table.findD (s.die d).latch c 0)

end Sys2Proof.Machine
end

