-- ==== Sys2Proof/Machine/LoadStore.lean ====
section
/-! DEFINITION. ld and st (R236 to R239): loads and stores of HBM4E, and the 4-byte accesses of register windows (R222, R223); ldmx (R173 to R175); the accumulator accesses as they are performed (R200, R215). -/

namespace Sys2Proof.Machine

/-- A load of a register window issued: one event of S, performed as .vol, its reply to come. The registers of a die under warm reset are served as usual, since no address of a window has a home (R11, R222, R223, R401; DESIGN CHOICE, log 19). -/
def State.issueWindowLoad (s : State) (t : ThreadId) (va : VAddr) (d off : Nat) (dest : List Nat) : State :=
  let pc := s.pcAt t
  let s := s.place.fenceHere t
  if dest = [] then s
  else (s.alterThread t fun x => x.markEmpty dest).issueAccess
    ⟨t, s.coreOf t, dest.map fun w => (w, s.readWindow d off), none, [], none, pc, va, windowAddr d off, false, none⟩

/-- The stack words that a load of a size code fills: DATA and what follows it, none for zr (R57, R238). -/
def Thread.loadDest (x : Thread) (d : Byte) (sz : Nat) : List Nat :=
  if d.toNat < 0x40 then x.words d.toNat (accessSize sz / 4 + if sz < 4 then 1 else 0) else []

/-- ld (R236 to R239, R241) -/
def execLd (f : MF) (s : State) : Result :=
  let sz := f.sz.toNat
  let size := accessSize sz
  let dst : Dst := if sz < 5 then .one f.data else .regs f.data.toNat (size / 4)
  runGroup s { guard := f.g, srcs := [.pair f.base false], dsts := [dst], inS := true } fun s t vs =>
    let va := globalAddr (arg64 vs 0) f.ofs
    s.withGlobal t va size 0x080 (needLoad size) fun s g =>
      match s.thread t with
      | none => .done s
      | some x =>
        let dest := x.loadDest f.data sz
        match g with
        | .hbm pa => .done (s.issueLoad t va (.ok pa) size (cacheUse f) dest (loadValues sz) none)
        | .failed c => .done (s.issueLoad t va (.error c) size (cacheUse f) dest (loadValues sz) none)
        | .window d off => .done (s.issueWindowLoad t va d off dest)

/-- The bytes that st stores: the low bytes of DATA, or of the registers from DATA on (R238). -/
def Thread.storeData (x : Thread) (d : Byte) (sz : Nat) (v : Word) : List Byte :=
  let size := accessSize sz
  if sz < 5 then bytesOf v size
  else (List.range (size / 4)).flatMap fun k => bytesOf (x.reg (d.toNat + k)) 4

/-- st (R236 to R239, R241) -/
def execSt (f : MF) (s : State) : Result :=
  let sz := f.sz.toNat
  let size := accessSize sz
  let src : Src := if sz < 5 then .one f.data false else .regs f.data.toNat (size / 4)
  runGroup s { guard := f.g, srcs := [.pair f.base false, src], inS := true } fun s t vs =>
    let va := globalAddr (arg64 vs 0) f.ofs
    s.withGlobal t va size 0x080 (needStore size) fun s g =>
      match s.thread t with
      | none => .done s
      | some x =>
        match g with
        | .hbm pa => .done (s.issueStore t va (.ok pa) (x.storeData f.data sz (arg vs 1)) (cacheUse f) (s.pcAt t))
        | .failed c => .done (s.issueStore t va (.error c) (x.storeData f.data sz (arg vs 1)) (cacheUse f) (s.pcAt t))
        | .window d off => .done ((s.place.fenceHere t).writeWindow (s.coreOf t) d off (arg vs 1))

/-! ldmx -/

/-- The scale bytes of an ldmx and their place in kE for a lane (R174). -/
def ldmxScales (sc lane : Nat) : Nat × Nat :=
  match sc with
  | 0 => (4, 4 * lane)
  | 1 => (2, 4 * lane)
  | _ => (2, 4 * lane + 2)

/-- The 4 scale bytes of an .s4 load that reaches a register window, performed as .vol (R174, R222). -/
def State.issueScaleWindow (s : State) (t : ThreadId) (va : VAddr) (d off k at_ : Nat) : State :=
  let pc := s.pcAt t
  (s.place.fenceHere t).issueAccess
    ⟨t, s.coreOf t, [], some k, (List.range 4).map fun j => (at_ + j, byteOf (s.readWindow d off) j), none, pc, va, windowAddr d off, false, none⟩

/-- ldmx (R173 to R175): the generation of the block steps and kE is tagged once for each home group, then the two loads of each thread; an earlier write in flight to kE is not waited for (DESIGN CHOICE, log 21). -/
def execLdmx (f : LdmxF) (s : State) : Result :=
  let r := f.data.toNat
  let u := useOf f.reuse.toNat f.cls.toNat
  runGroup s { guard := f.g, srcs := [.pair f.dbase false, .pair f.sbase false], dsts := [.regs r 16], inS := true } fun s t vs =>
    match s.teamOf t, s.thread t with
    | some m, some x =>
      match m.kregA t.t f.k.toNat with
      | none => .trap 0x103 [] s
      | some k =>
        let va := addressOf (arg64 vs 0)
        let sa := addressOf (arg64 vs 1)
        let (n, at_) := ldmxScales f.sc.toNat (laneOf t.t)
        if va.toNat % 64 ≠ 0 ∨ sa.toNat % n ≠ 0 then .trap 0x105 [] s
        else
          s.withMemory t va 64 0x105 needRead fun s p =>
            s.withGlobal t sa n 0x105 (needLoad n) fun s g =>
              let o : GenObject := .block (m.placeOf t.t) (r / 16)
              let s := (s.stepGens m.core [o]).noteChecked m.core [o]
              let s := s.setTag m.core k (some ⟨o, s.gen m.core o⟩)
              let s := s.issueLoad t va p 64 u (x.words r 16) wordsOfBytes (some (r / 16))
              .done (match g with
                | .hbm pb => s.issueScaleLoad t sa (.ok pb) n u k at_
                | .failed c => s.issueScaleLoad t sa (.error c) n u k at_
                | .window d off => s.issueScaleWindow t sa d off k at_)
    | _, _ => .done s

/-! acst -/

/-- The store of an acst performed: at HBM4E, or in a register window as st performs it (R215, R222). -/
def State.performAcst (s : State) (t : ThreadId) (va : VAddr) (pa : Nat) (bs : List Byte) (pc : VAddr) : State :=
  match windowOf pa with
  | some (d, off) => (s.place.fenceHere t).writeWindow (s.coreOf t) d off (BitVec.ofNat 32 (natOfBytes bs))
  | none => s.issueStore t va (.ok pa) bs (some (.normal 2)) pc

/-- Whether a thread can still be written: it is there and has not exited (R90). -/
def State.alive (s : State) (t : ThreadId) : Bool := ((s.thread t).map fun x => !x.gone).getD false

/-- An accumulator effect that is first on its row takes place; an acrd of a thread that has exited is discarded (R90, R121, R200, R213 to R216). -/
def State.performAcc (s : State) (c : CoreId) : AccEffect → State
  | .read t row col type regs rnd scale dest =>
    if s.alive t then s.fillWords t (dest.zip (wordsOfBytes (s.accBytes c row col type regs rnd scale))) else s
  | .write _ row col vals add =>
    s.alterCore c fun k =>
      { k with acc := (List.range vals.length).foldl (fun (m : Sparse 32) i =>
          let key := 256 * row + col + i
          let v := vals.getD i 0
          m.set key (if add then round32 .rne (addNum .rne (valF32 (m.get key)) (valF32 v)) else v)) k.acc }
  | .store t row col type regs rnd scale va pa pc => s.performAcst t va pa (s.accBytes c row col type regs rnd scale) pc
  | .update _ _ => s

/-- ACCUMULATOR_ACCESS_PERFORMED: a read or write that is first on its row takes place (R200). -/
def execAccumulatorAccessPerformed (c : CoreId) (n : Nat) (s : State) : Result :=
  let q := (s.core c).accq
  .next (match Table.find q n with
    | some (.update _ _) => s
    | some e =>
      let u := (s.alterCore c fun k => { k with accq := Table.drop k.accq n }).performAcc c e
      if accFirst q n then (match e with | .read .. => s.orLater u | _ => u) else s
    | none => s)

end Sys2Proof.Machine
end

