-- ==== Sys2Proof/Machine/HostSide.lean ====
section
/-! DEFINITION. The host attachment (R396, R397, R256), the identity of the device (R399), cold and warm start (R398, R400), power and temperature (R403), and machine checks (R404). -/

namespace Sys2Proof.Machine

/-! Memory messages -/

/-- The first piece of a range: it ends at a multiple of 64 or with the range (R256). -/
def pieceLength (va : VAddr) (n : Nat) : Nat := min n (64 - va.toNat % 64)

/-- The context that a connection reads and writes memory in; none where Vetch serves no such message on it (R396, R397). -/
def State.boundContext (s : State) (conn : Nat) : Option Nat :=
  if s.rejected ∨ s.deviceNumber = 0 then none
  else (Table.find s.conns conn).bind fun c => if c.lost || conn % 4 != 2 then none else c.cn

/-- A memory message of a connection that is over, with what the device sends for it. -/
def State.endMessage (s : State) (n conn : Nat) (o : Out) : State := { s with msgs := Table.drop s.msgs n }.packet conn o

/-- Whether a message is a memory message of a connection. -/
def Msg.readsOrWrites (conn : Nat) : Msg → Bool
  | .memRead c .. => c == conn
  | .memWrite c .. => c == conn
  | _ => false

/-- Whether no memory message of a connection has come before a message: they are served in the order in which the packets were delivered (R256, R397). -/
def State.firstOn (s : State) (n conn : Nat) : Bool := !s.msgs.any fun e => decide (e.1 < n) && e.2.readsOrWrites conn

/-- What a piece of a memory message meets: a place, or a cause that ends the message, or a closed range to wait for. Only an aligned piece of 4 bytes reaches a register window (R222, R256). -/
def State.messagePlace (s : State) (cn : Nat) (need : Need) (va : VAddr) (k : Nat) : Except (Option Cause) Target × State :=
  match s.translate 8 cn { need with window := k == 4 && va.toNat % 4 == 0 } va with
  | (.ok (.hbm pa), s) => ((match s.errorAt pa with | some c => .error (some c) | none => .ok (.hbm pa)), s)
  | (.ok (.window d off), s) => (.ok (.window d off), s)
  | (.ok (.failed c), s) => (.error (some c), s)
  | (.cause c, s) => (.error (some c), s)
  | (.closed, s) => (.error none, s)

/-- The bytes of a piece read as a .vol access: one event of S (R222, R256). -/
def State.readPiece (s : State) (cn : Nat) (va : VAddr) (g : Target) (k : Nat) : List Byte × State :=
  let s := s.place
  match g with
  | .hbm pa => (s.bytes pa k, s.outsideUse cn va pa false)
  | .window d off => (bytesOf (s.readWindow d off) 4, s)
  | .failed _ => ([], s)

/-- The hub, as the source core of the write latches of the windows: R223 names a latch for each source core and none for a message, which the model gives one of its own (DESIGN CHOICE, log 19). -/
def messageCore : CoreId := ⟨8, 0⟩

/-- The bytes of a piece written as a .vol access: one event of S (R222, R223, R256). -/
def State.writePiece (s : State) (cn : Nat) (va : VAddr) (g : Target) (bs : List Byte) : State :=
  match g with
  | .hbm pa => (s.outsideUse cn va pa true).deviceStore pa bs
  | .window d off => s.place.writeWindow messageCore d off (BitVec.ofNat 32 (natOfBytes bs))
  | .failed _ => s

/-- MEMORY_READ_MESSAGE: the next piece is read as a .vol access; the reply follows the last one, or carries the cause of a translation (R256, R397). -/
def execMemoryReadMessage (n : Nat) (s : State) : Result :=
  match Table.find s.msgs n with
  | some (.memRead conn va len got) =>
    match s.boundContext conn with
    | none => .next { s with msgs := Table.drop s.msgs n }
    | some cn =>
      if !s.firstOn n conn then .next s
      else if len = 0 then .next (s.endMessage n conn (.data conn got))
      else
        let k := pieceLength va len
        match s.messagePlace cn needRead va k with
        | (.error none, _) => .next s
        | (.error (some c), s) => .next (s.endMessage n conn (.error conn c))
        | (.ok g, s) =>
          let (bs, s) := s.readPiece cn va g k
          .next (if len ≤ k then s.endMessage n conn (.data conn (got ++ bs))
            else { s with msgs := Table.put s.msgs n (.memRead conn (va + BitVec.ofNat 57 k) (len - k) (got ++ bs)) })
  | _ => .next s

/-- MEMORY_WRITE_MESSAGE: the next piece is written as a .vol access (R256, R397). -/
def execMemoryWriteMessage (n : Nat) (s : State) : Result :=
  match Table.find s.msgs n with
  | some (.memWrite conn va bs) =>
    match s.boundContext conn with
    | none => .next { s with msgs := Table.drop s.msgs n }
    | some cn =>
      if !s.firstOn n conn then .next s
      else if bs = [] then .next (s.endMessage n conn (.done conn))
      else
        let k := pieceLength va bs.length
        match s.messagePlace cn needWrite va k with
        | (.error none, _) => .next s
        | (.error (some c), s) => .next (s.endMessage n conn (.error conn c))
        | (.ok g, s) =>
          let s := s.writePiece cn va g (bs.take k)
          .next (if bs.length ≤ k then s.endMessage n conn (.done conn)
            else { s with msgs := Table.put s.msgs n (.memWrite conn (va + BitVec.ofNat 57 k) (bs.drop k)) })
  | _ => .next s

/-! Attestation (R399) -/

/-- Bytes 0 to 207 of an attestation report. -/
def State.attestationBody (s : State) (nonce : BitVec 512) : List Byte :=
  bytesOf nonce 64 ++ bytesOf s.measured 64 ++ bytesOf Config.identity 64 ++ bytesOf (BitVec.ofNat 16 s.deviceNumber) 2
    ++ List.replicate 6 0 ++ bytesOf (BitVec.ofNat 64 s.dtime) 8

/-- The report with its signature. -/
def State.attestation (s : State) (nonce : BitVec 512) : List Byte :=
  let body := s.attestationBody nonce
  body ++ (List.range 512).map (Config.signature (Config.sha512 body))

/-- The report sent; a device whose firmware was rejected answers with that status (R398, R399). -/
def State.attest (s : State) (nonce : BitVec 512) : State := s.emit (if s.rejected then .rejected else .attestation (s.attestation nonce))

/-- ATTESTATION_REQUEST: it comes in through a port that is up (R19, R399). -/
def execAttestationRequest (nonce : BitVec 512) (s : State) : Result := .next (if s.portUp then s.attest nonce else s)

/-! Start (R398, R400) -/

/-- NETCFG after a start: SPLIT from the straps (R396). -/
def netcfgReset (split : Byte) : DWord := 0x000059D8000100FF + BitVec.ofNat 64 (split.toNat * 2 ^ 8)

/-- The machine after a start with its links up: every register at its Reset value (R4, R396, R400). The numbers that the model draws go on, and what was sent stays sent. -/
def State.restarted (s : State) (split : Byte) (meas : BitVec 512) (ok : Bool) : State :=
  { State.reset with
    netcfg := netcfgReset split
    ports := (List.range 8).map fun p => (p, netcfgReset split)
    strap := split
    measured := meas
    verified := if ok then some meas else s.verified
    rejected := !ok
    outbox := s.outbox
    fresh := s.fresh
    drawn := s.drawn
    noise := s.noise
    sched := s.sched }

/-- A cold start (R398, R400). -/
def State.coldStarted (s : State) (i : StartInput) : State :=
  let meas := Config.sha512 i.image
  let ok := Config.verifies meas i.signature
  { s.restarted i.split meas ok with verified := if ok then some meas else none }

/-- A warm start: the signature is checked only where the measurement is not the one last verified; dtime, DEVNUM and the cores' clk and ltime go on, and so does memory unless it is to be cleared (R16, R17, R400; DEDUCED, log 17). -/
def State.warmStarted (s : State) (i : StartInput) (clear : Bool) : State :=
  let meas := Config.sha512 i.image
  let ok := s.verified == some meas || Config.verifies meas i.signature
  let r := { s.restarted s.strap meas ok with
    dtime := s.dtime
    devnum := s.devnum
    limit := s.limit
    epochAt := s.epochAt
    cores := s.cores.map fun (e : CoreId × Core) => (e.1, { Core.init with clk := e.2.clk, ltime := e.2.ltime }) }
  if clear then r
  else { r with
    mem := s.mem
    poison := s.poison
    restored := s.restored
    images := s.images.map fun (e : Nat × Image) => (e.1, { e.2 with queued := false, kept := [] }) }

/-- COLD_START (R398, R400) -/
def execColdStart (i : StartInput) (s : State) : Result := .next (s.coldStarted i)
/-- WARM_START (R400) -/
def execWarmStart (i : StartInput) (clear : Bool) (s : State) : Result := .next (s.warmStarted i clear)

/-- ETHERNET_LINK_UP: the link of an enabled port comes up with what NETCFG holds, and what waited for a port is sent (R19, R396). -/
def execEthernetLinkUp (port : Nat) (s : State) : Result :=
  .next (if port < 8 ∧ s.netcfg.getLsbD port then { s with ports := Table.put s.ports port s.netcfg }.flush else s)

/-! Management messages (R397) -/

/-- What a management message does. -/
def State.manage (s : State) (r : Request) : State :=
  match r with
  | .straps split => { s with strap := split }
  | .coldStart i => s.coldStarted i
  | .warmStart i clear => s.warmStarted i clear
  | .dieReset d => if d < 8 then s.startReset (BitVec.ofNat 64 d) else s
  | .powerLimit w => { s with limit := min w 15000 }
  | .attest nonce => s.attest nonce
  | .bind conn cn =>
    if conn % 4 = 2 then { s with conns := Table.put s.conns conn { Table.findD s.conns conn Connection.init with cn := some cn } } else s

/-- MANAGEMENT_MESSAGE: the security core serves it; with firmware rejected, the answer is that status (R397, R398). -/
def execManagementMessage (n : Nat) (s : State) : Result :=
  match Table.find s.msgs n with
  | some (.management r) =>
    let s := { s with msgs := Table.drop s.msgs n }
    .next (if s.rejected then s.emit .rejected else s.manage r)
  | _ => .next s

/-! What comes from outside -/

/-- Whether a message is one that a party outside sends, through a port that is up: a management message; and once the device runs and has its number, what comes on the fabric from another device or on a connection (R19, R256, R294, R396, R397, R398). -/
def State.fromOutside (s : State) (m : Msg) : Bool :=
  s.portUp && match m with
    | .management _ => true
    | .slot .. => false
    | m => s.deviceNumber != 0 && !s.rejected && match m with
      | .invocation dev _ _ _ _ args => dev != s.deviceNumber && decide (args.length ≤ 48)
      | .reply (.device dev) token .. => dev != s.deviceNumber && tokenDev token == s.deviceNumber
      | .reply .. => false
      | .memRead _ _ len _ => decide (len ≤ 4096)
      | .memWrite _ _ bs => decide (bs.length ≤ 4096)
      | m => m.ends.all fun e => e.1.dev != s.deviceNumber && e.2.dev == s.deviceNumber

/-- A packet of a connection acknowledged (R397). -/
def State.acknowledge (s : State) (conn seq : Nat) : State :=
  { s with conns := Table.alter s.conns conn fun c => { c with packets := Table.drop c.packets seq } }

/-- Whether a message is of a kind that Vurek carries on a connection: an invocation and a reply of a device, a memory message, or a management message (R397). -/
def Msg.onConnection (conn : Nat) : Msg → Bool
  | .invocation dev .. => conn == connKey dev 0
  | .reply (.device dev) .. => conn == connKey dev 1
  | .memRead c .. => c == conn && conn % 4 == 2
  | .memWrite c .. => c == conn && conn % 4 == 2
  | .management _ => conn % 4 == 3
  | _ => false
def Msg.vurek : Msg → Bool
  | .invocation .. => true
  | .reply .. => true
  | .memRead .. => true
  | .memWrite .. => true
  | .management _ => true
  | _ => false

/-- A message that has come in over the fabric outside any connection: an acknowledgement is taken at once, any other is served by the event of its kind. -/
def State.arriveMsg (s : State) (m : Msg) : State :=
  if m.vurek || !s.fromOutside m then s
  else match m with
    | .ack conn seq => s.acknowledge conn seq
    | m => s.send m

/-- The packets of a connection that have come, delivered in sequence order as far as there is no gap; the event of its kind serves each (R397). `fuel` bounds their number. -/
def State.deliverPackets (conn : Nat) : Nat → State → State
  | 0, s => s
  | fuel + 1, s =>
    let c := Table.findD s.conns conn Connection.init
    match Table.find c.early c.expected.toNat with
    | none => s
    | some m =>
      let s := { s with conns := Table.put s.conns conn { c with expected := c.expected + 1, early := Table.drop c.early c.expected.toNat } }
      State.deliverPackets conn fuel (s.send (match m with | .memRead k va len _ => .memRead k va len [] | m => m))

/-- A packet of a connection received: acknowledged, kept until its turn, and discarded where it came before. One that is 64 or more ahead of its turn, which the acknowledgement bitmap of a packet cannot name, is not taken (R397; DEDUCED, log 17). -/
def State.arrivePacket (s : State) (conn : Nat) (seq : BitVec 32) (m : Msg) : State :=
  let c := Table.findD s.conns conn Connection.init
  let ahead := (seq - c.expected).toNat
  if c.lost || !s.fromOutside m || !m.onConnection conn || decide (64 ≤ ahead ∧ ahead < 2 ^ 31) then s
  else
    let s := s.emit (.ack conn seq)
    if 2 ^ 31 ≤ ahead then s
    else
      let early := if (Table.find c.early seq.toNat).isSome then c.early else Table.put c.early seq.toNat m
      State.deliverPackets conn 64 { s with conns := Table.put s.conns conn { c with early := early } }

/-- A soft error that ECC corrects: CORR, saturating (R404). -/
def State.correctError (s : State) (die : Nat) : State :=
  s.alterDie die fun d =>
    if d.mcstat.extractLsb' 16 16 = 0xFFFF then d else { d with mcstat := d.mcstat + 0x10000 }

/-- Data of a sector that has become uncorrectable (R241). -/
def State.spoilSector (s : State) (sector : Nat) : State :=
  if inHbm (64 * sector) then { s with poison := s.poison.add sector } else s

/-- A word of a field array that has become uncorrectable (R185, R404). -/
def State.strikeWord (s : State) (c : CoreId) (a w : Nat) (v : Word) : State :=
  s.alterArray c a fun x => { x with bad := Table.put x.bad w v }

/-! Power and temperature (R403) -/

/-- A report of a machine check for no thread (R362, R404). -/
def State.reportCheck (s : State) (die : Nat) : State := s.reportNone (checkCore die) Name.none ⟨0x1E0, 0, auxWords []⟩

/-- THERMAL_STEP: above 100 °C the die's step rises by one; at 112 °C the die reports a thermal machine check and is reset (R403, R404). -/
def execThermalStep (die temp : Nat) (s : State) : Result :=
  let s := s.alterDie die fun d => { d with temp := temp }
  .next
    (if 8 ≤ die ∨ temp ≤ 100 then s
    else if 112 ≤ temp then ((s.machineCheck die 8).reportCheck die).startReset (BitVec.ofNat 64 die)
    else s.alterDie die fun d => { d with heat := min 15 (d.step + 1) })

/-- TEMP_FALLS_BELOW_96C: the die may lower its step; how far is not stated (R403; DESIGN CHOICE, log 10). -/
def execTempFallsBelow96c (die temp : Nat) (s : State) : Result :=
  .next
    (if 8 ≤ die ∨ 96 ≤ temp then s
    else s.draw.alterDie die fun d => { d with temp := temp, heat := Config.cooled s.drawn % (d.heat + 1) })

/-- PACKAGE_POWER_LIMIT_STEP: Vetch holds a die at a step, or lets it go with 0 (R403). -/
def execPackagePowerLimitStep (die step : Nat) (s : State) : Result :=
  .next (if die < 8 then s.alterDie die fun d => { d with limited := min 15 step } else s)

/-! Machine checks (R404) -/

/-- KIND of MCSTAT (R404). -/
def kindCode (k : EccKind) : Nat :=
  match k with
  | .registerFile => 1
  | .scaleRegister => 2
  | .accumulator => 3
  | .arrayStorage => 4
  | .l2 => 5
  | .dram => 6
  | .afterExit => 7

/-- A thread stopped from outside for a system cause, with its report (R362). -/
def State.stopSystem (s : State) (t : ThreadId) (cause : Cause) : State :=
  match s.thread t with
  | none => s
  | some x =>
    if x.gone then s
    else
      let pc := ((s.groupOf t).map Group.pc).getD x.pc
      let s := ((s.countFor t 0x0E 1).abandon t).report t ⟨cause, pc, auxWords []⟩
      let s := s.stop t none
      match x.status with
      | .member n => s.passOn n
      | _ => s

/-- An uncorrectable error on a die: machine check 0x1E0 for the thread whose state holds the word, which stops, or for no thread; an error in memory or in the L2 stays in its sector (R241, R404). -/
def State.uncorrectable (s : State) (die : Nat) (kind : EccKind) (t : Option ThreadId) (addr : Nat) : State :=
  let s := s.machineCheck die (kindCode kind)
  let s := if (kind = .l2 ∨ kind = .dram) ∧ inHbm addr then { s with poison := s.poison.add (addr / 64) } else s
  match t with
  | some u => if (s.thread u).any fun x => !x.gone then s.stopSystem u 0x1E0 else s.reportCheck die
  | none => s.reportCheck die

/-- UNCORRECTABLE_ERROR: there are dies 0 to 8 (R8, R15, R404). -/
def execUncorrectableError (die : Nat) (kind : EccKind) (t : Option ThreadId) (addr : Nat) (s : State) : Result :=
  .next (if die ≤ 8 then s.uncorrectable die kind t addr else s)

end Sys2Proof.Machine
end

