-- ==== Sys2Proof/Machine/Issue.lean ====
section
/-! DEFINITION. Issue (R48, R49, R78 to R85): header waits and eligibility, the units of a slot and its choice, the formation of a group with the clause fetch and the header checks (R66 to R69), deferred causes (R360), the lane-cycle record and the counters (R386, R387), and the clk of a core. -/

namespace Sys2Proof.Machine

/-! Eligibility (R48, R82) -/

/-- A waiting thread whose delay has ended and whose header waits hold becomes eligible, stamped with this clk (R78, R82). -/
def State.settleThread (s : State) (t : ThreadId) (x : Thread) : State :=
  let clk := (s.core (s.coreOf t)).clk
  match x.status with
  | .waiting u =>
    if clk < u then s
    else
      let hold := match s.peekHeader t x.pc with | some h => x.waitsHold h | none => true
      if hold then s.alterThread t fun y => { y with status := .eligible clk, stamp := clk, aged := false }
      else s.alterThread t fun y => { y with status := .waiting 0 }
  | .entering tr ret =>
    if x.shadowReady then s.alterThread t fun y => y.enterHandler tr ret ((s.hvecOf t).truncate 57) else s
  | _ => s

/-- The threads of a core settled: handler entries whose waits are over, and threads that become eligible. A pre-emption freezes the state of each thread of its team, but for an entry that began before it (R78, R383). -/
def State.settleCore (s : State) (c : CoreId) : State :=
  s.threads.foldl (fun (s : State) e =>
    if s.coreOf e.1 = c ∧ (e.2.isEntering || !((s.teamOf e.1).any Team.frozen)) then s.settleThread e.1 e.2 else s) s

/-! Units (R80, R83) -/

/-- A unit that a slot can choose: a formed group, or a candidate; with the stamp and the place of its oldest thread. -/
structure Pickable where
  group : Option Nat
  key   : CandidateKey
  stamp : Int
  place : Nat
  lane  : Nat
  size  : Nat
  deriving DecidableEq, Repr

/-- The order of threads by age: stamp, home-group place, home lane (R80, R83). -/
def olderThan (a b : Int × Nat × Nat) : Bool :=
  decide (a.1 < b.1 ∨ (a.1 = b.1 ∧ (a.2.1 < b.2.1 ∨ (a.2.1 = b.2.1 ∧ a.2.2 < b.2.2))))

/-- The oldest of a list of threads. -/
def oldestOf : List (Int × Nat × Nat) → Int × Nat × Nat
  | [] => (0, 0, 0)
  | [a] => a
  | a :: b :: rest => let o := oldestOf (b :: rest); if olderThan o a then o else a

/-- The age keys of threads of a team. -/
def State.ageKeys (s : State) (n : Nat) (m : Team) (ts : List Nat) : List (Int × Nat × Nat) :=
  ts.filterMap fun t => (s.thread ⟨n, t⟩).map fun x => (x.stamp, m.placeOf t, laneOf t)

/-- A unit of some threads of a team. -/
def State.unitOf (s : State) (group : Option Nat) (key : CandidateKey) (m : Team) (ts : List Nat) : Pickable :=
  let o := oldestOf (s.ageKeys key.team m ts)
  ⟨group, key, o.1, o.2.1, o.2.2, ts.length⟩

/-- The formed groups of a slot that can issue (R81, R83, R389). -/
def State.groupUnits (s : State) (c : CoreId) (k : Nat) : List Pickable :=
  s.groups.filterMap fun e =>
    match s.team e.2.team with
    | some m =>
      if e.2.core = c ∧ e.2.slot = k ∧ !s.halted m ∧ s.canIssue e.1 e.2 ∧ !(e.2.members.any fun t => m.reached.contains t)
      then some (s.unitOf (some e.1) ⟨e.2.team, e.2.role, e.2.clause.header, false⟩ m e.2.members) else none
    | none => none

/-- Whether a thread can be formed: eligible, its team not halted, not at its step point, no store of it to be performed. The fetch of a clause is one event, of its first member; the model keeps it behind the stores of every member (R80, R215, R389; DESIGN CHOICE, log 18). -/
def State.formable (s : State) (t : ThreadId) (m : Team) (x : Thread) : Bool :=
  (match x.status with | .eligible _ => true | _ => false) && !s.halted m && !m.reached.contains t.t && !s.storePending t

/-- The candidate that a thread of a team belongs to (R80, R87). -/
def Thread.candidate (x : Thread) (t : ThreadId) (m : Team) : Option CandidateKey :=
  (m.roleOf t.t).map fun r => ⟨t.team, r.kind, x.pc, x.inHandler⟩

/-- The threads of a candidate (R80). -/
def State.candidateThreads (s : State) (m : Team) (key : CandidateKey) : List Nat :=
  s.threads.filterMap fun e =>
    if e.1.team = key.team ∧ s.formable e.1 m e.2 ∧ e.2.candidate e.1 m = some key then some e.1.t else none

/-- The candidates of a core. -/
def State.candidateKeys (s : State) (c : CoreId) : List CandidateKey :=
  (s.threads.filterMap fun e =>
    match s.teamOf e.1 with
    | some m => if m.core = c ∧ s.formable e.1 m e.2 then e.2.candidate e.1 m else none
    | none => none).eraseDups

/-- Whether a unit is promoted (R84). -/
def Pickable.promoted (u : Pickable) (clk : Nat) : Bool := decide (u.stamp + 4096 ≤ clk)

/-- The regroup hold that a unit's header is under, or has been (R49). -/
def Core.regroupOf (x : Core) (u : Pickable) : Option (Nat × Nat) := Table.find x.regroup u.key

/-- Whether the formation of a candidate is held back (R49, R84). -/
def Core.heldBack (x : Core) (u : Pickable) : Bool :=
  match x.regroupOf u with
  | some (_, end_) => decide (end_ ≠ 0) && !u.promoted x.clk
  | none => false

/-- The candidates that the slots of a core can form (R49, R80). -/
def State.candidateUnits (s : State) (c : CoreId) : List Pickable :=
  (s.candidateKeys c).filterMap fun e =>
    match s.team e.team with
    | none => none
    | some m =>
      let u := s.unitOf none e m (s.candidateThreads m e)
      if (s.core c).heldBack u ∨ s.fetchClosed m.cn e.pc then none else some u

/-- The age of a unit. -/
def Pickable.age (u : Pickable) : Int × Nat × Nat := (u.stamp, u.place, u.lane)

/-- Whether a unit goes before another of the front: more threads, then older (R83). -/
def Pickable.before (a b : Pickable) : Bool := decide (b.size < a.size) || (a.size == b.size && olderThan a.age b.age)

/-- The unit that comes first by an order. -/
def firstBy (before : Pickable → Pickable → Bool) : List Pickable → Option Pickable
  | [] => none
  | u :: us =>
    match firstBy before us with
    | some v => some (if before v u then v else u)
    | none => some u

/-- The choice among units: a promoted one before every other, the oldest first; otherwise of the front, within 64 clk of the oldest, the largest (R83). -/
def chooseUnit (clk : Nat) (us : List Pickable) : Option Pickable :=
  let ps := us.filter fun u => u.promoted clk
  match firstBy (fun a b => olderThan a.age b.age) ps with
  | some u => some u
  | none =>
    match firstBy (fun a b => olderThan a.age b.age) us with
    | none => none
    | some o => firstBy Pickable.before (us.filter fun u => decide (u.stamp ≤ o.stamp + 64))

/-- The unit that a slot issues from in this clk: the group that it formed in it; after 16 consecutive clk of formed groups a candidate; otherwise by R83. -/
def State.pick (s : State) (c : CoreId) (k : Nat) : Option Pickable :=
  let x := s.core c
  let gs := s.groupUnits c k
  match (Table.find x.opening k).bind fun n => gs.find? fun u => u.group == some n with
  | some u => some u
  | none =>
    let cs := s.candidateUnits c
    if 16 ≤ Table.findD x.streak k 0 ∧ cs ≠ [] then chooseUnit x.clk cs else chooseUnit x.clk (gs ++ cs)

/-! Formation -/

/-- The threads that a slot takes of a candidate: for each home lane the oldest, then the lowest home group (R80). -/
def State.takeThreads (s : State) (n : Nat) (ts : List Nat) : List Nat :=
  let stamp (t : Nat) : Int := ((s.thread ⟨n, t⟩).map Thread.stamp).getD 0
  (List.range 32).filterMap fun l =>
    (ts.filter fun t => laneOf t == l).foldl (fun r t =>
      match r with
      | none => some t
      | some u => some (if stamp t < stamp u ∨ (stamp t = stamp u ∧ t < u) then t else u)) none

/-- A cause raised at a header in every thread taken (R68, R69). -/
def State.trapAll (s : State) (n : Nat) (ts : List Nat) (pc : VAddr) (cause : Cause) (aux : List DWord) : State :=
  ts.foldl (fun (s : State) t => s.trapHeader ⟨n, t⟩ pc cause aux) s

/-- A word as a fetch read it: the address of memory and the place of S, none for the present one. -/
abbrev Look := Option (Nat × Option Nat)

/-- The words of a clause fetched for a thread, from an address on, and how each was read; none where a word lies in a closed range. -/
def State.fetchWords (s : State) (t : ThreadId) (va : VAddr) (renew : Bool) : Nat → Option (List Fetched × List Look × State)
  | 0 => some ([], [], s)
  | n + 1 =>
    match s.fetchAt t va renew with
    | (.closed _, _) => none
    | (.got f s, p) => (s.fetchWords t (va + 8) renew n).map fun r => (f :: r.1, p :: r.2.1, r.2.2)

/-- Whether words read at places of S are the bytes of one place, the latest of them: the fetch of a clause is one load, a single event of S (R243, R244). -/
def State.ofOnePlace (s : State) (t : ThreadId) (looks : List Look) : Bool :=
  let at_ (p : Nat × Option Nat) : Nat := p.2.getD s.seq
  let last := (looks.filterMap fun p => p.map at_).foldl max 0
  looks.all fun p =>
    match p with
    | some p => at_ p == last || s.seenWord t p.2 p.1 == s.seenWord t (some last) p.1
    | none => true

/-- The checks of a clause at its formation: the header, then the classes and places of its instructions (R68). -/
def Clause.check (x : Clause) (h : Header) : Option (Cause × Nat) :=
  match h.cause with
  | some c => some (c, 0)
  | none => x.late

/-- A group formed of threads of a team, with its counter event; the hold of its header is over, for the threads left over as well (R49, R79, R387). -/
def State.makeGroup (s : State) (c : CoreId) (k : Nat) (key : CandidateKey) (x : Clause) (ts : List Nat) (who : ThreadId) : State :=
  let id := s.newId
  let n := key.team
  let g : Group := ⟨n, key.role, c, k, x, 0, ts, [], [], none, false, [], none⟩
  let s := { s.bump with groups := Table.put s.groups id g }
  let s := ts.foldl (fun (s : State) t => s.alterThread ⟨n, t⟩ fun y => { y with status := .member id }) s
  (s.alterCore c fun y => { y with
    opening := Table.put y.opening k id
    streak := Table.put y.streak k 0
    regroup := y.regroup.map fun (e : CandidateKey × (Nat × Nat)) => if e.1 = key then (key, (e.2.1, 0)) else e }).countFor who 0x04 1

/-- A formation held back at a REGROUP header, where the slot chooses to and no slot has held it back before (R49; DESIGN CHOICE, log 1). -/
def State.holdBack (s : State) (c : CoreId) (k : Nat) (u : Pickable) : Option State :=
  let x := s.core c
  let len := Config.regroup s.drawn % 17
  if (x.regroupOf u).isSome || u.promoted x.clk || len == 0 then none
  else some (s.draw.setCore c { x with regroup := Table.put x.regroup u.key (k, x.clk + len) })

/-- Threads of a team whose header waits do not hold for the header as it was fetched: they wait there again (R48, R78). -/
def State.sendBack (s : State) (n : Nat) (ts : List Nat) : State :=
  ts.foldl (fun (s : State) t => s.alterThread ⟨n, t⟩ fun x => { x with status := .waiting 0 }) s

/-- A slot has acted: the slots below it have made their choices of this clk (R83). -/
def State.atSlot (s : State) (c : CoreId) (k : Nat) : State := s.alterCore c fun x => { x with turn := max x.turn k }

/-- A slot forms a candidate, with what copies serve or, under `renew`, without; none where the copies that served the words of the clause hold no one state of it (R243, R244). The clause fetch by the oldest thread, one event of S; the header checks; the header waits of each thread; the group of those for which they hold (R48, R66, R68, R69, R79, R80). A PC off an 8-byte boundary without a transfer raises 0x00D (DESIGN CHOICE, log 18). -/
def State.formWith (s : State) (c : CoreId) (k : Nat) (u : Pickable) (m : Team) (renew : Bool) : Option State :=
  let n := u.key.team
  let pc := u.key.pc
  let all := s.candidateThreads m u.key
  let ts := s.takeThreads n all
  let old := (ts.find? fun t => ((s.thread ⟨n, t⟩).map Thread.stamp) == some u.stamp && m.placeOf t == u.place && laneOf t == u.lane).getD (ts.headD 0)
  let who : ThreadId := ⟨n, old⟩
  let table := ((s.context m.cn).map Context.table).getD .lv3
  if pc.toNat % 8 ≠ 0 then some (s.trapAll n ts pc 0x00D [pc.zeroExtend 64])
  else match s.place.fetchAt who pc renew with
    | (.closed _, _) => some s
    | (.got (.fail cause aux) s, _) => some (s.trapAll n ts pc cause aux)
    | (.got (.word w) s', look) =>
      let h := headerOf w
      match h.cause with
      | some cause => some (s'.trapAll n ts pc cause [0])
      | none =>
        let ready := all.filter fun t => (s.thread ⟨n, t⟩).any fun x => x.waitsHold h
        let late := all.filter fun t => !ready.contains t
        match (if h.regroup then s.holdBack c k u else none) with
        | some s => some (s.sendBack n late)
        | none =>
          if ready = [] then some (s.sendBack n late)
          else match s'.fetchWords who (pc + 8) renew h.length with
            | none => some s
            | some (ws, looks, s') =>
              let x : Clause := ⟨pc, ws, table, h.engineClass⟩
              if !s'.ofOnePlace who (look :: looks) then none
              else match x.check h with
                | some (cause, j) => some (s'.trapAll n (s.takeThreads n ready) pc cause [BitVec.ofNat 64 j])
                | none => some ((s'.sendBack n late).makeGroup c k u.key x (s.takeThreads n ready) who)

/-- A slot forms a candidate, as an act of its turn; copies that hold no one state of its clause are renewed at the home (R243, R245, R387). -/
def State.form (s : State) (c : CoreId) (k : Nat) (u : Pickable) (m : Team) : State :=
  let s := { s.atSlot c k with cur := some s.newId }
  { (s.formWith c k u m false).getD ((s.formWith c k u m true).getD s) with cur := none }

/-- Whether a slot may still act in this clk: it has not issued, and no slot above it has acted (R83). -/
def State.slotMay (s : State) (c : CoreId) (k : Nat) : Bool :=
  decide (k < Config.slots ∧ (s.core c).turn ≤ k) && !(s.core c).issued.contains k

/-- GROUP_FORMATION: the slot's choice is a candidate, which it forms (R80, R83). -/
def execGroupFormation (c : CoreId) (slot : Nat) (s : State) : Result :=
  if !s.slotMay c slot then .next s
  else match s.pick c slot with
    | some u =>
      match u.group, s.team u.key.team with
      | none, some m => .next (s.form c slot u m)
      | _, _ => .next s
    | none => .next s

/-- REGROUP_HOLD_EXPIRY: the hold of a formation ends; the slot holds it back no more (R49). -/
def execRegroupHoldExpiry (c : CoreId) (slot : Nat) (s : State) : Result :=
  .next (s.alterCore c fun x => { x with regroup := x.regroup.map fun (e : CandidateKey × (Nat × Nat)) =>
    if e.2.1 = slot ∧ e.2.2 ≤ x.clk then (e.1, (slot, 0)) else e })

/-! Promotion (R84) -/

/-- The units of a core: its groups and its candidates, with their threads. -/
def State.allUnits (s : State) (c : CoreId) : List (Nat × List Nat) :=
  (s.groups.filterMap fun e => if e.2.core = c then some (e.2.team, e.2.members) else none)
    ++ (s.candidateKeys c).filterMap fun e => (s.team e.team).map fun m => (e.team, s.candidateThreads m e)

/-- A unit whose age has reached 4096 clk counted once, by its threads of that age (R84, R387). -/
def State.promoteUnit (s : State) (clk : Int) (u : Nat × List Nat) : State :=
  let due := u.2.filter fun t => (s.thread ⟨u.1, t⟩).any fun x => decide (x.stamp + 4096 ≤ clk) && !x.aged
  let counted := u.2.any fun t => (s.thread ⟨u.1, t⟩).any fun x => decide (x.stamp + 4096 ≤ clk) && x.aged
  match due with
  | [] => s
  | t :: _ =>
    let s := due.foldl (fun (s : State) t => s.alterThread ⟨u.1, t⟩ fun x => { x with aged := true }) s
    if counted then s else s.countFor ⟨u.1, t⟩ 0x05 1

/-- Every unit of a core that has reached the age counted. -/
def State.promoteUnits (s : State) (c : CoreId) : State :=
  (s.allUnits c).foldl (fun (s : State) u => s.promoteUnit (s.core c).clk u) s

/-- UNIT_PROMOTION (R84) -/
def execUnitPromotion (c : CoreId) (s : State) : Result := .next (s.promoteUnits c)

/-! Deferred causes (R360) -/

/-- DEFERRED_CAUSE_DELIVERY (R360) -/
def execDeferredCauseDelivery (t : ThreadId) (s : State) : Result :=
  match s.thread t with
  | none => .next s
  | some x =>
    match x.deferred with
    | tr :: _ => .next (if s.deliverable t then s.deliverDeferred t x tr else s)
    | [] => .next s

/-! The lane-cycle record and the counters of issue (R386, R387) -/

/-- The bin of a PC: the lowest whose range holds it, else 16 (R386). -/
def Core.binOf (x : Core) (pc : VAddr) : Nat :=
  ((List.range 16).find? fun i => decide ((x.obs.get (0x10 + i)).toNat ≤ pc.toNat ∧ pc.toNat ≤ (x.obs.get (0x20 + i)).toNat)).getD 16

/-- Whether a thread in a lane counts as masked by divergence beside a group: it is no member that has trapped or exited, and its PC is another (R386). -/
def Thread.diverged (x : Thread) (t : Nat) (g : Group) : Bool :=
  (match x.status with | .exited => false | .stopped _ => false | _ => true) && decide (x.pc ≠ g.clause.header) && !g.left.contains t

/-- The class of a lane of a slot that issues a group's instruction (R386). -/
def State.laneClass (s : State) (g : Group) (active : List Nat) (lane : Nat) : Nat :=
  match g.members.find? fun t => laneOf t == lane with
  | some t => if active.contains t then 0 else 2
  | none =>
    let m := s.team g.team
    let role (t : Nat) : Bool := (m.bind fun m => (m.roleOf t).map Role.kind) == some g.role
    if s.threads.any fun e => decide (e.1.team = g.team ∧ laneOf e.1.t = lane) && role e.1.t && e.2.diverged e.1.t g then 1 else 3

/-- The bin and the classes of the 32 lanes of an issued instruction; none where the record does not count it (R386). -/
def State.laneCycles (s : State) (g : Group) (active : List Nat) : Option (Nat × List Nat) :=
  let o := ((s.core g.core).obs.get 8).toNat
  let fcn := o / 2 ^ 16 % 4096
  let cn := ((s.team g.team).map Team.cn).getD 0
  if o % 2 = 0 ∨ (fcn ≠ 0 ∧ fcn ≠ cn) then none
  else some ((s.core g.core).binOf g.pc, (List.range 32).map (s.laneClass g active))

/-- Lane-cycles added to a bin of a core (R386). -/
def Core.addLanes (x : Core) (bin : Nat) (classes : List Nat) : Core :=
  (List.range 4).foldl (fun (x : Core) k => x.add (0x40 + 4 * bin + k) (classes.filter (· == k)).length) x

/-- The members of a group whose guards hold: ACTIVE (R53). -/
def State.activeSet (s : State) (g : Group) (guard : Guard) : List Nat :=
  g.members.filter fun t => (s.thread ⟨g.team, t⟩).any fun x => x.guard guard

/-- Whether an attempt to issue a group's instruction has issued it: a thread of ACTIVE has executed it or trapped, or the group has passed on (R81). -/
def State.advanced (s : State) (n : Nat) (g : Group) (active : List Nat) : Bool :=
  match s.group n with
  | none => true
  | some h => decide (h.idx ≠ g.idx) || active.any fun t =>
      !g.done.contains t && !g.engaged.contains t && (h.done.contains t || h.engaged.contains t || !h.members.contains t)

/-- The counters and the lane-cycle record of an instruction that a group has issued; `s` is the state before it (R386, R387). -/
def State.countIssue (t s : State) (c : CoreId) (g : Group) (active : List Nat) : State :=
  let m := s.team g.team
  let gate := (m.map Team.gate).getD false
  let who : Name := match active with
    | u :: _ => s.nameOf ⟨g.team, u⟩
    | [] => { Name.none with lid := (m.map Team.lid).getD 0 }
  let t := (t.count c 0x02 1 who gate).count c 0x03 active.length who gate
  match s.laneCycles g active with
  | some (bin, classes) => t.alterCore c fun x => x.addLanes bin classes
  | none => t

/-- A slot has issued in this clk from a formed group, or the first instruction of the group that it formed in it (R83). -/
def Core.slotIssued (x : Core) (k n : Nat) : Core :=
  let first := Table.find x.opening k == some n
  { x with
    issued := x.issued.add k
    streak := Table.put x.streak k (if first then 0 else Table.findD x.streak k 0 + 1) }

/-- The group's present instruction has been counted as issued: no later attempt, for members that had to wait, counts it again (R386, R387). -/
def State.noteCounted (s : State) (n idx : Nat) : State :=
  s.alterGroup n fun g => if g.idx = idx then { g with counted := true } else g

/-- What follows the attempt of a slot to issue a group's instruction: where it has issued, the slot is done for this clk and the instruction is counted; a later attempt for members that had to wait is the same issue and takes no slot. An instruction that would step a generation which a check of this clk has read is left to a later clk (R156, R159). `s` is the state before the attempt, `t` the one after. -/
def State.afterIssue (t s : State) (c : CoreId) (k n : Nat) (g : Group) (guard : Guard) : State :=
  let active := s.activeSet g guard
  if t.clash && !s.clash then s.atSlot c (k + 1)
  else if !t.advanced n g active || g.counted then t.atSlot c k
  else (((t.alterCore c fun x => x.slotIssued k n).countIssue s c g active).noteCounted n g.idx).atSlot c k

/-! The clk of a core (R17, R386, R387) -/

/-- Event 0x01 of a counter in this clk: of every grid, or of a grid or a team with an open gate that is resident (R387). -/
def State.clkCounted (s : State) (c : CoreId) (n : Nat) : Bool :=
  let sel := (s.core c).obs.get n
  let lid := sel.toNat / 2 ^ 32
  sel.toNat % 256 == 1 &&
    ((lid == 0 && !sel.getLsbD 25) || s.teams.any fun e => e.2.core == c && (lid == 0 || e.2.lid == lid) && (!sel.getLsbD 25 || e.2.gate))

/-- The end of a clk for the counts of a core: event 0x01, the idle lanes, and the samples owed (R386, R387). -/
def State.endCounts (s : State) (c : CoreId) : State :=
  let s := (List.range 4).foldl (fun (s : State) n => if s.clkCounted c n then s.countOne c n 1 Name.none else s) s
  let x := s.core c
  let s := if x.obs.get 8 &&& 1 = 0 then s else s.setCore c (x.add 0x30 (32 * (Config.slots - x.issued.length)))
  (List.range 4).foldl (fun (s : State) n => s.sample c n) s

/-- PROG of the teams of a core noted for the estimator, which looks back at most 4096 clk (R377). -/
def State.noteProgress (s : State) (c : CoreId) : State :=
  let clk := (s.core c).clk
  { s with teams := s.teams.map fun (e : Nat × Team) =>
      if e.2.core = c ∧ (e.2.progHist.head?.map Prod.snd).getD 0 ≠ e.2.prog then
        (e.1, { e.2 with progHist := (clk, e.2.prog) :: e.2.progHist.take 4097 }) else e }

/-- A core passes to its next clk: ltime advances at least once in 256 clk, and what is counted within one clk starts afresh (R17; DESIGN CHOICE, log 9). -/
def Core.nextClk (x : Core) (advance : Bool) : Core :=
  { x with
    clk := x.clk + 1
    ltime := if advance || x.clk % 256 == 255 then x.ltime + 1 else x.ltime
    streak := x.streak.filter fun e => x.issued.contains e.1
    regroup := x.regroup.map fun (e : CandidateKey × (Nat × Nat)) => if e.2.2 ≤ x.clk + 1 then (e.1, (e.2.1, 0)) else e
    turn := 0
    issued := []
    opening := []
    stepped := []
    checked := []
    samples := []
    sampled := []
    accrued := [] }

/-- One clk of a core; stored timestamps follow its ltime (R247). -/
def State.tickCore (s : State) (c : CoreId) : State :=
  let s := ((s.settleCore c).promoteUnits c).endCounts c
  let s := ((s.tickArrays c).noteProgress c).draw
  let keys := s.candidateKeys c
  let x := (s.core c).nextClk (Config.advance s.drawn)
  let s := s.setCore c { x with regroup := x.regroup.filter fun e => keys.contains e.1 }
  s.floorStamps c x.ltime

/-- CLK (R17, R82, R209, R386, R387) -/
def execClk (c : CoreId) (s : State) : Result := .next (s.tickCore c)

/-- Whether the event that the sample of a counter names is known before the clk ends: it is one of a slot's turn, and no slot as low may still act (R83, R387). -/
def State.sampleKnown (s : State) (c : CoreId) (n : Nat) : Bool :=
  (Table.find (s.core c).samples n).any fun o =>
    decide (o.rank < 32 * Config.slots) && (List.range (o.rank / 32 + 1)).all fun k => !s.slotMay c k

/-- COUNTER_SAMPLE: the kind-4 record of a counter that has passed a multiple of 2^PEXP in this clk, once no event of a lower slot can come; the end of the clk emits what is left (R387, R388). -/
def execCounterSample (c : CoreId) (n : Nat) (s : State) : Result := .next (if s.sampleKnown c n then s.sample c n else s)

/-- Time passes where nothing is scheduled: a nanosecond of device time, and a clk of every core that holds anything. -/
def State.passTime (s : State) : State :=
  let s := { s with dtime := s.dtime + 1 }
  (Table.keys s.cores).foldl (fun (s : State) c => s.tickCore c) s

end Sys2Proof.Machine
end

