-- ==== Sys2Proof/Machine/Dispatch.lean ====
section
/-! DEFINITION. The dispatch: each row of the opcode table to its meaning. -/

namespace Sys2Proof.Machine

-- One arm for each constructor; every arm is one call of that row's own meaning.
def exec (i : Instr) (s : State) : Host.Outcome State Fault Refusal :=
  match i with
  | .iadd f => Sys2Proof.Machine.execIadd f s
  | .iaddI f => Sys2Proof.Machine.execIaddI f s
  | .isub f => Sys2Proof.Machine.execIsub f s
  | .isubI f => Sys2Proof.Machine.execIsubI f s
  | .imul f => Sys2Proof.Machine.execImul f s
  | .imulI f => Sys2Proof.Machine.execImulI f s
  | .imulh f => Sys2Proof.Machine.execImulh f s
  | .imulhI f => Sys2Proof.Machine.execImulhI f s
  | .imad f => Sys2Proof.Machine.execImad f s
  | .idiv f => Sys2Proof.Machine.execIdiv f s
  | .idivI f => Sys2Proof.Machine.execIdivI f s
  | .irem f => Sys2Proof.Machine.execIrem f s
  | .iremI f => Sys2Proof.Machine.execIremI f s
  | .iabs f => Sys2Proof.Machine.execIabs f s
  | .ineg f => Sys2Proof.Machine.execIneg f s
  | .imin f => Sys2Proof.Machine.execImin f s
  | .iminI f => Sys2Proof.Machine.execIminI f s
  | .imax f => Sys2Proof.Machine.execImax f s
  | .imaxI f => Sys2Proof.Machine.execImaxI f s
  | .and f => Sys2Proof.Machine.execAnd f s
  | .andI f => Sys2Proof.Machine.execAndI f s
  | .or f => Sys2Proof.Machine.execOr f s
  | .orI f => Sys2Proof.Machine.execOrI f s
  | .xor f => Sys2Proof.Machine.execXor f s
  | .xorI f => Sys2Proof.Machine.execXorI f s
  | .andn f => Sys2Proof.Machine.execAndn f s
  | .andnI f => Sys2Proof.Machine.execAndnI f s
  | .not f => Sys2Proof.Machine.execNot f s
  | .shl f => Sys2Proof.Machine.execShl f s
  | .shlI f => Sys2Proof.Machine.execShlI f s
  | .shr f => Sys2Proof.Machine.execShr f s
  | .shrI f => Sys2Proof.Machine.execShrI f s
  | .sar f => Sys2Proof.Machine.execSar f s
  | .sarI f => Sys2Proof.Machine.execSarI f s
  | .rotl f => Sys2Proof.Machine.execRotl f s
  | .rotlI f => Sys2Proof.Machine.execRotlI f s
  | .popc f => Sys2Proof.Machine.execPopc f s
  | .clz f => Sys2Proof.Machine.execClz f s
  | .ctz f => Sys2Proof.Machine.execCtz f s
  | .brev f => Sys2Proof.Machine.execBrev f s
  | .bfe f => Sys2Proof.Machine.execBfe f s
  | .bfi f => Sys2Proof.Machine.execBfi f s
  | .sel f => Sys2Proof.Machine.execSel f s
  | .icmp f => Sys2Proof.Machine.execIcmp f s
  | .icmpI f => Sys2Proof.Machine.execIcmpI f s
  | .iaddc f => Sys2Proof.Machine.execIaddc f s
  | .add64 f => Sys2Proof.Machine.execAdd64 f s
  | .sub64 f => Sys2Proof.Machine.execSub64 f s
  | .lea f => Sys2Proof.Machine.execLea f s
  | .leaI f => Sys2Proof.Machine.execLeaI f s
  | .lea64 f => Sys2Proof.Machine.execLea64 f s
  | .fadd f => Sys2Proof.Machine.execFadd f s
  | .faddI f => Sys2Proof.Machine.execFaddI f s
  | .fsub f => Sys2Proof.Machine.execFsub f s
  | .fsubI f => Sys2Proof.Machine.execFsubI f s
  | .fmul f => Sys2Proof.Machine.execFmul f s
  | .fmulI f => Sys2Proof.Machine.execFmulI f s
  | .ffma f => Sys2Proof.Machine.execFfma f s
  | .fmin f => Sys2Proof.Machine.execFmin f s
  | .fminI f => Sys2Proof.Machine.execFminI f s
  | .fmax f => Sys2Proof.Machine.execFmax f s
  | .fmaxI f => Sys2Proof.Machine.execFmaxI f s
  | .fabs f => Sys2Proof.Machine.execFabs f s
  | .fneg f => Sys2Proof.Machine.execFneg f s
  | .fcmp f => Sys2Proof.Machine.execFcmp f s
  | .fcmpI f => Sys2Proof.Machine.execFcmpI f s
  | .fclass f => Sys2Proof.Machine.execFclass f s
  | .frnd f => Sys2Proof.Machine.execFrnd f s
  | .fscale f => Sys2Proof.Machine.execFscale f s
  | .rcpe f => Sys2Proof.Machine.execRcpe f s
  | .rsqrte f => Sys2Proof.Machine.execRsqrte f s
  | .fsqrt f => Sys2Proof.Machine.execFsqrt f s
  | .exp2e f => Sys2Proof.Machine.execExp2e f s
  | .log2e f => Sys2Proof.Machine.execLog2e f s
  | .hadd2 f => Sys2Proof.Machine.execHadd2 f s
  | .hmul2 f => Sys2Proof.Machine.execHmul2 f s
  | .hfma2 f => Sys2Proof.Machine.execHfma2 f s
  | .bfadd2 f => Sys2Proof.Machine.execBfadd2 f s
  | .bfmul2 f => Sys2Proof.Machine.execBfmul2 f s
  | .bffma2 f => Sys2Proof.Machine.execBffma2 f s
  | .cvt f => Sys2Proof.Machine.execCvt f s
  | .pk f => Sys2Proof.Machine.execPk f s
  | .upk f => Sys2Proof.Machine.execUpk f s
  | .alnb f => Sys2Proof.Machine.execAlnb f s
  | .mov f => Sys2Proof.Machine.execMov f s
  | .movi f => Sys2Proof.Machine.execMovi f s
  | .movh f => Sys2Proof.Machine.execMovh f s
  | .movc f => Sys2Proof.Machine.execMovc f s
  | .movs f => Sys2Proof.Machine.execMovs f s
  | .pand f => Sys2Proof.Machine.execPand f s
  | .por f => Sys2Proof.Machine.execPor f s
  | .pxor f => Sys2Proof.Machine.execPxor f s
  | .pnot f => Sys2Proof.Machine.execPnot f s
  | .pmov f => Sys2Proof.Machine.execPmov f s
  | .br f => Sys2Proof.Machine.execBr f s
  | .brc f => Sys2Proof.Machine.execBrc f s
  | .brx f => Sys2Proof.Machine.execBrx f s
  | .call f => Sys2Proof.Machine.execCall f s
  | .callx f => Sys2Proof.Machine.execCallx f s
  | .ret f => Sys2Proof.Machine.execRet f s
  | .exit f => Sys2Proof.Machine.execExit f s
  | .yield f => Sys2Proof.Machine.execYield f s
  | .nop f => Sys2Proof.Machine.execNop f s
  | .shfl f => Sys2Proof.Machine.execShfl f s
  | .vote f => Sys2Proof.Machine.execVote f s
  | .gred f => Sys2Proof.Machine.execGred f s
  | .gsync f => Sys2Proof.Machine.execGsync f s
  | .ld f => Sys2Proof.Machine.execLd f s
  | .st f => Sys2Proof.Machine.execSt f s
  | .pf f => Sys2Proof.Machine.execPf f s
  | .atom f => Sys2Proof.Machine.execAtom f s
  | .red f => Sys2Proof.Machine.execRed f s
  | .fld f => Sys2Proof.Machine.execFld f s
  | .fst f => Sys2Proof.Machine.execFst f s
  | .fatom f => Sys2Proof.Machine.execFatom f s
  | .feset f => Sys2Proof.Machine.execFeset f s
  | .feclr f => Sys2Proof.Machine.execFeclr f s
  | .fetest f => Sys2Proof.Machine.execFetest f s
  | .kmov f => Sys2Proof.Machine.execKmov f s
  | .kset f => Sys2Proof.Machine.execKset f s
  | .kmul f => Sys2Proof.Machine.execKmul f s
  | .kmax f => Sys2Proof.Machine.execKmax f s
  | .kmin f => Sys2Proof.Machine.execKmin f s
  | .krcp f => Sys2Proof.Machine.execKrcp f s
  | .kcvtf f => Sys2Proof.Machine.execKcvtf f s
  | .kcvtk f => Sys2Proof.Machine.execKcvtk f s
  | .kbind f => Sys2Proof.Machine.execKbind f s
  | .ktag f => Sys2Proof.Machine.execKtag f s
  | .kld f => Sys2Proof.Machine.execKld f s
  | .kst f => Sys2Proof.Machine.execKst f s
  | .kclr f => Sys2Proof.Machine.execKclr f s
  | .ldmx f => Sys2Proof.Machine.execLdmx f s
  | .mmaI4x f => Sys2Proof.Machine.execMmaI4x f s
  | .mmaI4 f => Sys2Proof.Machine.execMmaI4 f s
  | .mmaI8 f => Sys2Proof.Machine.execMmaI8 f s
  | .mmaE4m3 f => Sys2Proof.Machine.execMmaE4m3 f s
  | .mmaE5m2 f => Sys2Proof.Machine.execMmaE5m2 f s
  | .mmaE2m1 f => Sys2Proof.Machine.execMmaE2m1 f s
  | .mmaBf16 f => Sys2Proof.Machine.execMmaBf16 f s
  | .acwin f => Sys2Proof.Machine.execAcwin f s
  | .acrd f => Sys2Proof.Machine.execAcrd f s
  | .acwr f => Sys2Proof.Machine.execAcwr f s
  | .aczero f => Sys2Proof.Machine.execAczero f s
  | .acst f => Sys2Proof.Machine.execAcst f s
  | .mstat f => Sys2Proof.Machine.execMstat f s
  | .amode f => Sys2Proof.Machine.execAmode f s
  | .resize f => Sys2Proof.Machine.execResize f s
  | .barinit f => Sys2Proof.Machine.execBarinit f s
  | .barlink f => Sys2Proof.Machine.execBarlink f s
  | .bararr f => Sys2Proof.Machine.execBararr f s
  | .bartry f => Sys2Proof.Machine.execBartry f s
  | .barwait f => Sys2Proof.Machine.execBarwait f s
  | .bartest f => Sys2Proof.Machine.execBartest f s
  | .bardrop f => Sys2Proof.Machine.execBardrop f s
  | .chsend f => Sys2Proof.Machine.execChsend f s
  | .chrecv f => Sys2Proof.Machine.execChrecv f s
  | .chtry f => Sys2Proof.Machine.execChtry f s
  | .launch f => Sys2Proof.Machine.execLaunch f s
  | .spawn f => Sys2Proof.Machine.execSpawn f s
  | .rinv f => Sys2Proof.Machine.execRinv f s
  | .rret f => Sys2Proof.Machine.execRret f s
  | .hndalloc f => Sys2Proof.Machine.execHndalloc f s
  | .hndpass f => Sys2Proof.Machine.execHndpass f s
  | .hndfree f => Sys2Proof.Machine.execHndfree f s
  | .kvgive f => Sys2Proof.Machine.execKvgive f s
  | .kvtake f => Sys2Proof.Machine.execKvtake f s
  | .edrain f => Sys2Proof.Machine.execEdrain f s
  | .trap f => Sys2Proof.Machine.execTrap f s
  | .rfe f => Sys2Proof.Machine.execRfe f s
  | .csrr f => Sys2Proof.Machine.execCsrr f s
  | .csrw f => Sys2Proof.Machine.execCsrw f s
  | .dtload f => Sys2Proof.Machine.execDtload f s
  | .preq f => Sys2Proof.Machine.execPreq f s
  | .tlbinv f => Sys2Proof.Machine.execTlbinv f s
  | .wspill f => Sys2Proof.Machine.execWspill f s
  | .wfill f => Sys2Proof.Machine.execWfill f s
  | .brk f => Sys2Proof.Machine.execBrk f s
  | .mark f => Sys2Proof.Machine.execMark f s
  | .ecopy e n at_ => Sys2Proof.Machine.execEcopy e n at_ s
  | .etld e n at_ => Sys2Proof.Machine.execEtld e n at_ s
  | .etst e n at_ => Sys2Proof.Machine.execEtst e n at_ s
  | .egath e n at_ => Sys2Proof.Machine.execEgath e n at_ s
  | .escat e n at_ => Sys2Proof.Machine.execEscat e n at_ s
  | .econv e n at_ => Sys2Proof.Machine.execEconv e n at_ s
  | .enginePushAccepted e => Sys2Proof.Machine.execEnginePushAccepted e s
  | .engineWriteLanding e n upTo => Sys2Proof.Machine.execEngineWriteLanding e n upTo s
  | .engineCompletion e => Sys2Proof.Machine.execEngineCompletion e s
  | .mmaUpdate c a => Sys2Proof.Machine.execMmaUpdate c a s
  | .computeModeLoadServed c a => Sys2Proof.Machine.execComputeModeLoadServed c a s
  | .accumulatorAccessPerformed c n => Sys2Proof.Machine.execAccumulatorAccessPerformed c n s
  | .amodeComplete c a => Sys2Proof.Machine.execAmodeComplete c a s
  | .resizeComplete team => Sys2Proof.Machine.execResizeComplete team s
  | .class0TieTake cn n a => Sys2Proof.Machine.execClass0TieTake cn n a s
  | .barrierLinkMessage n => Sys2Proof.Machine.execBarrierLinkMessage n s
  | .barrierArrivalMessage n => Sys2Proof.Machine.execBarrierArrivalMessage n s
  | .barrierFlipMessage n => Sys2Proof.Machine.execBarrierFlipMessage n s
  | .barrierWaiterWake c o => Sys2Proof.Machine.execBarrierWaiterWake c o s
  | .channelSlotLanding n => Sys2Proof.Machine.execChannelSlotLanding n s
  | .loadReply n => Sys2Proof.Machine.execLoadReply n s
  | .errorReply n => Sys2Proof.Machine.execErrorReply n s
  | .leaseExpiry c line => Sys2Proof.Machine.execLeaseExpiry c line s
  | .pageCounterEpoch  => Sys2Proof.Machine.execPageCounterEpoch  s
  | .groupFormation c slot => Sys2Proof.Machine.execGroupFormation c slot s
  | .unitPromotion c => Sys2Proof.Machine.execUnitPromotion c s
  | .regroupHoldExpiry c slot => Sys2Proof.Machine.execRegroupHoldExpiry c slot s
  | .yieldDelayEnd t => Sys2Proof.Machine.execYieldDelayEnd t s
  | .clk c => Sys2Proof.Machine.execClk c s
  | .teamStart die n c => Sys2Proof.Machine.execTeamStart die n c s
  | .teamRetire team => Sys2Proof.Machine.execTeamRetire team s
  | .dispatchWait1ms die n => Sys2Proof.Machine.execDispatchWait1ms die n s
  | .coresPending100us lid => Sys2Proof.Machine.execCoresPending100us lid s
  | .binTimerExpiry die bin => Sys2Proof.Machine.execBinTimerExpiry die bin s
  | .invocationArrival n => Sys2Proof.Machine.execInvocationArrival n s
  | .replyArrival n => Sys2Proof.Machine.execReplyArrival n s
  | .kvgiveClose n => Sys2Proof.Machine.execKvgiveClose n s
  | .ownershipChange n => Sys2Proof.Machine.execOwnershipChange n s
  | .kvtakeComplete t => Sys2Proof.Machine.execKvtakeComplete t s
  | .deferredCauseDelivery t => Sys2Proof.Machine.execDeferredCauseDelivery t s
  | .preqDeadline team => Sys2Proof.Machine.execPreqDeadline team s
  | .teamSaveComplete team => Sys2Proof.Machine.execTeamSaveComplete team s
  | .teamRestore die n c => Sys2Proof.Machine.execTeamRestore die n c s
  | .binload die v => Sys2Proof.Machine.execBinload die v s
  | .restore die v => Sys2Proof.Machine.execRestore die v s
  | .dierst v => Sys2Proof.Machine.execDierst v s
  | .dieReadmit die => Sys2Proof.Machine.execDieReadmit die s
  | .mstWrite die n v => Sys2Proof.Machine.execMstWrite die n v s
  | .ctxidWrite cn v => Sys2Proof.Machine.execCtxidWrite cn v s
  | .trsizeWrite die v => Sys2Proof.Machine.execTrsizeWrite die v s
  | .rpstart v => Sys2Proof.Machine.execRpstart v s
  | .stepEnter die v => Sys2Proof.Machine.execStepEnter die v s
  | .stepStep die v => Sys2Proof.Machine.execStepStep die v s
  | .stepLeave die v => Sys2Proof.Machine.execStepLeave die v s
  | .stepEnd team => Sys2Proof.Machine.execStepEnd team s
  | .counterSample c n => Sys2Proof.Machine.execCounterSample c n s
  | .memoryReadMessage n => Sys2Proof.Machine.execMemoryReadMessage n s
  | .memoryWriteMessage n => Sys2Proof.Machine.execMemoryWriteMessage n s
  | .managementMessage n => Sys2Proof.Machine.execManagementMessage n s
  | .attestationRequest nonce => Sys2Proof.Machine.execAttestationRequest nonce s
  | .retransmitTimeout n => Sys2Proof.Machine.execRetransmitTimeout n s
  | .ethernetLinkUp port => Sys2Proof.Machine.execEthernetLinkUp port s
  | .coldStart inp => Sys2Proof.Machine.execColdStart inp s
  | .warmStart inp clear => Sys2Proof.Machine.execWarmStart inp clear s
  | .thermalStep die temp => Sys2Proof.Machine.execThermalStep die temp s
  | .tempFallsBelow96c die temp => Sys2Proof.Machine.execTempFallsBelow96c die temp s
  | .packagePowerLimitStep die step => Sys2Proof.Machine.execPackagePowerLimitStep die step s
  | .uncorrectableError die kind t addr => Sys2Proof.Machine.execUncorrectableError die kind t addr s

end Sys2Proof.Machine
end

