-- ==== Sys2Proof/Machine/Step.lean ====
section
/-! DEFINITION. The step: one turn of the schedule (DESIGN CHOICE, log 1), or time passing; and the state in which the next step runs a given instruction. -/

namespace Sys2Proof.Machine

/-- A cause raised in every member of a group at its present instruction: a word that could not be fetched or that does not decode (R68, R69). -/
def trapGroup (s : State) (g : Group) (cause : Cause) (aux : List DWord) : State :=
  g.members.foldl (fun (s : State) t => s.trapIn g t cause aux) s

/-- A slot issues the present instruction of a group (R81, R83): the decoded instruction runs with the group current. -/
def issueGroup (s : State) (c : CoreId) (k n : Nat) (g : Group) : Result :=
  match g.clause.words[g.idx]? with
  | some (.word w) =>
    match decodeWord g.clause.table w with
    | .ok i =>
      match exec i { s with cur := some n } with
      | .next t => .next (t.afterIssue s c k n g (guardField w))
      | r => r
    | .error e => .next ((trapGroup { s with cur := some n } g e.cause []).atSlot c k)
  | some (.fail cause aux) => .next ((trapGroup { s with cur := some n } g cause aux).atSlot c k)
  | none => .next s

/-- A slot's turn: what it picks forms or issues, after the deferred causes that are to be delivered first (R83, R360). -/
def stepSlot (s : State) (c : CoreId) (k : Nat) : Result :=
  if !s.slotMay c k then .next s
  else match s.pick c k with
    | none => .next s
    | some u =>
      match u.group with
      | none =>
        match (s.team u.key.team).bind fun m => (s.candidateThreads m u.key).find? fun t => s.deliverable ⟨u.key.team, t⟩ with
        | some t => exec (.deferredCauseDelivery ⟨u.key.team, t⟩) (s.atSlot c k)
        | none => exec (.groupFormation c k) s
      | some n =>
        match s.group n with
        | none => .next s
        | some g =>
          match g.members.find? fun t => s.deliverable ⟨g.team, t⟩ with
          | some t => exec (.deferredCauseDelivery ⟨g.team, t⟩) (s.atSlot c k)
          | none => issueGroup s c k n g

/-- The end of a turn: the ties whose conditions hold are in force (R232). -/
def afterTurn : Result → Result
  | .next t => .next t.takeTies
  | r => r

/-- One step of the package: the next turn of the schedule; with none, time passes. -/
def step (s : State) : Host.Outcome State Fault Refusal :=
  match s.sched with
  | [] => afterTurn (.next s.passTime)
  | turn :: rest =>
    let s := { s with sched := rest, cur := none }
    afterTurn <| match turn with
    | .slot c k => stepSlot s c k
    | .event i => if (encode i).isNone then exec i s else .next s
    | .tick => .next { s with dtime := s.dtime + 1 }
    | .arrive m => .next (s.arriveMsg m)
    | .packet conn seq m => .next (s.arrivePacket conn seq m)
    | .spoil n => .next (s.spoilSector n)
    | .correct d => .next (s.correctError d)
    | .strike c a w v => .next (s.strikeWord c a w v)

/-! The state whose next step runs a given instruction (DESIGN CHOICE, log 11) -/

/-- The team of one general thread group that a placed instruction runs in. -/
def placedTeam : Team where
  lid := 0x100
  cn := 1
  b := 0
  x := 0
  y := 0
  z := 0
  core := ⟨0, 0⟩
  places := [0]
  roles := [⟨3, 0, 32, 8 + 56 * 2, 4, 0⟩]
  entry := 0
  consts := []
  fm := []
  accBase := 0
  nacc := 0
  kBase := 0
  nk := 0
  barBase := 0
  nbar := 0
  cluster := 0
  pos := 0
  pri := 0
  windows := []
  ate := false
  fmtanom := false
  analog := false
  rendezvous := []
  resizing := []
  replies := []
  owed := []
  gate := false
  prgtot := 0
  prog := 0
  progHist := []
  since := 0
  elapsed := 0
  preempt := none
  stepMode := .none
  records := []
  bin := none

/-- `s` with an instruction word in the clause that slot 0 of core 0 of die 0 issues from next, for thread 0 of a team of a system context, and that slot's turn first in the schedule (DESIGN CHOICE, log 11). -/
def State.withFetchWord (s : State) (_nbits w : Nat) : State :=
  let id := s.fresh
  let c : CoreId := ⟨0, 0⟩
  let k := s.core c
  let x : Clause := ⟨0, [.word (BitVec.ofNat 64 w)], .lv3, .alu⟩
  let g : Group := ⟨id, 3, c, 0, x, 0, [0], [], [], none, false, [], none⟩
  let t : Thread := { Thread.start 0 true 0 0 with status := .member id }
  { s with
    fresh := id + 1
    contexts := Table.put s.contexts 1 (Context.fresh true)
    teams := Table.put s.teams id placedTeam
    threads := Table.put s.threads ⟨id, 0⟩ t
    groups := Table.put s.groups id g
    cores := Table.put s.cores c { k with turn := 0, issued := k.issued.filter fun n => n != 0, opening := Table.put k.opening 0 id }
    sched := .slot c 0 :: s.sched }

end Sys2Proof.Machine
end

