-- ==== Sys2Proof/Safety.lean ====
section
/-! DEFINITION. The terms that statements about the machine are made of: a group that is ready to execute its present instruction, what an instruction of the lane families leaves, and the invariants of the state. -/

namespace Sys2Proof.Machine

/-! A group about to execute its present instruction -/

/-- Group `n` is current, at an instruction of shape `sh` that none of its members has begun, and no member whose guard holds must wait or trap for an operand (R53, R81, R120, R121). -/
structure Ready (s : State) (n : Nat) (g : Group) (sh : Shape) : Prop where
  cur     : s.cur = some n
  group   : s.group n = some g
  done    : g.done = []
  engaged : g.engaged = []
  nodup   : g.members.Nodup
  team    : ∃ m, s.team g.team = some m
  members : ∀ t ∈ g.members, ∃ x, s.thread ⟨g.team, t⟩ = some x ∧ x.status = .member n
    ∧ (x.guard sh.guard = true → s.blockOf sh ⟨g.team, t⟩ = none)

/-- Whether a word pushed to q0 or q2 only joins the assembly of a command: a header that passes its check, or a word before the last (R264, R270). -/
def Thread.assembles (x : Thread) (q : Nat) (w : Word) : Bool :=
  if x.queue q = [] then (headerCause q w).isNone
  else decide ((x.queue q).length < cmdLen ((x.queue q).getD 0 0))

/-- A thread after an effect: registers, predicates and queue words written, and the words of its sources popped, of which a completion word orders it after the writes up to `w` (R60, R121, R128, R253, R263). -/
def Thread.wrote (x : Thread) (e : Effect) (srcs : List Src) (w : BitVec 48) : Thread :=
  ((((x.fill (e.regs.map fun r => (x.word r.1, r.2))).setPreds e.preds).pushAll e.pushes).popAll srcs).caughtUp srcs w

/-- Whether another instruction of the clause follows the present one (R46, R81). -/
def Group.more (g : Group) : Bool := decide (g.idx + 1 < g.clause.words.length)

/-- A member once its group has passed on: at the end of the clause it waits at NEXT (R47, R81). -/
def Group.onward (g : Group) (x : Thread) : Thread :=
  if g.more then x else { x with pc := g.clause.next, status := .waiting 0 }

/-- The group once it has passed on. -/
def Group.passed (g : Group) : Option Group :=
  if g.more then some { g with idx := g.idx + 1, done := [], engaged := [], hold := none, counted := false, asked := none } else none

/-- Whether an effect of a thread is a format anomaly (R43). -/
def State.anomalous (s : State) (eff : ThreadId → Team → Thread → Effect) (m : Team) (id : ThreadId) : Bool :=
  match s.thread id with
  | some x => (eff id m x).anomaly
  | none => false

/-- What an instruction of the lane families leaves: in each member whose guard holds its effect and nothing else, in the others nothing; memory and every other object as before, but for what register writes and anomaly events do to the generations and counts of a core (R53, R81, R133, R156, R387). That PROG counts each thread in ACTIVE, and not the group once, is the model's reading (R367; DEDUCED, log 16). -/
structure LaneDone (s u : State) (n : Nat) (g : Group) (sh : Shape) (eff : ThreadId → Team → Thread → Effect) : Prop where
  active   : ∀ t ∈ g.members, ∀ x m, s.thread ⟨g.team, t⟩ = some x → s.team g.team = some m → x.guard sh.guard = true →
    u.thread ⟨g.team, t⟩ = some (g.onward (x.wrote (eff ⟨g.team, t⟩ m x) sh.srcs s.wmax))
  inactive : ∀ t ∈ g.members, ∀ x, s.thread ⟨g.team, t⟩ = some x → x.guard sh.guard = false →
    u.thread ⟨g.team, t⟩ = some (g.onward x)
  others   : ∀ id : ThreadId, ¬ (id.team = g.team ∧ id.t ∈ g.members) → u.thread id = s.thread id
  group    : u.group n = g.passed
  groups   : ∀ k, k ≠ n → u.group k = s.group k
  team     : ∀ m, s.team g.team = some m → u.team g.team = some { m with
    prog := m.prog + (s.activeOf g sh.guard).length
    fmtanom := m.fmtanom || (s.activeOf g sh.guard).any fun t => s.anomalous eff m ⟨g.team, t⟩ }
  teams    : ∀ k, k ≠ g.team → u.team k = s.team k
  cores    : ∀ c, ∃ gens stepped ktags obs samples accrued, u.core c =
    { s.core c with gens := gens, stepped := stepped, ktags := ktags, obs := obs, samples := samples, accrued := accrued }
  memory   : ∀ a, u.byte a = s.byte a
  rest     : u = { s with threads := u.threads, teams := u.teams, groups := u.groups, cores := u.cores }

/-- The instruction `i` executes in every group that is ready for its shape, and leaves the effect that `eff` gives each thread from its team, its state and its source values; a word for q0 or q2 joins an assembly (R264). -/
def Executes (i : Instr) (sh : Shape) (eff : State → ThreadId → Team → Thread → List DWord → Effect) : Prop :=
  ∀ s n g, Ready s n g sh →
    (∀ t ∈ g.members, ∀ x m, s.thread ⟨g.team, t⟩ = some x → s.team g.team = some m → x.guard sh.guard = true →
      ∀ p ∈ (eff s ⟨g.team, t⟩ m x (s.valuesOf sh ⟨g.team, t⟩)).pushes, p.1 < 4 → x.assembles p.1 p.2 = true) →
    ∃ u, exec i s = .next u ∧
      LaneDone s u n g sh fun id m x => eff s id m x (s.valuesOf sh id)

/-- The shapes of format R with one, two and three sources and a 32-bit destination, and of format I. -/
def shape1 (f : RF) : Shape := { guard := f.g, srcs := [srcA f], dsts := [.one f.d] }
def shape2 (f : RF) : Shape := { guard := f.g, srcs := [srcA f, srcB f], dsts := [.one f.d] }
def shape3 (f : RF) : Shape := { guard := f.g, srcs := [srcA f, srcB f, srcC f], dsts := [.one f.d] }
def shapeI (f : IF) : Shape := { guard := f.g, srcs := [.one f.a false], dsts := [.one f.d] }

/-- The instruction writes to D a function of its one, two or three sources; or of its source and IMM (R131, R133). -/
def Computes1 (i : Instr) (f : RF) (op : Word → Word) : Prop :=
  Executes i (shape1 f) fun _ _ _ _ vs => writeDst f.d (op (arg vs 0))
def Computes2 (i : Instr) (f : RF) (op : Word → Word → Word) : Prop :=
  Executes i (shape2 f) fun _ _ _ _ vs => writeDst f.d (op (arg vs 0) (arg vs 1))
def Computes3 (i : Instr) (f : RF) (op : Word → Word → Word → Word) : Prop :=
  Executes i (shape3 f) fun _ _ _ _ vs => writeDst f.d (op (arg vs 0) (arg vs 1) (arg vs 2))
def ComputesI (i : Instr) (f : IF) (op : Word → Word → Word) : Prop :=
  Executes i (shapeI f) fun _ _ _ _ vs => writeDst f.d (op (arg vs 0) f.imm)

/-- The instruction writes the outcome of a test of its sources to the predicate that D selects (R127, R139). -/
def Tests2 (i : Instr) (f : RF) (test : Word → Word → Bool) : Prop :=
  Executes i { guard := f.g, srcs := [srcA f, srcB f] } fun _ _ _ _ vs => writePred f.d (test (arg vs 0) (arg vs 1))
def TestsI (i : Instr) (f : IF) (test : Word → Word → Bool) : Prop :=
  Executes i { guard := f.g, srcs := [.one f.a false] } fun _ _ _ _ vs => writePred f.d (test (arg vs 0) f.imm)

/-! Exact values -/

/-- The dyadic number that a finite value is (R29); 0 for infinities and NaN. -/
def Num.exact : Num → Dyadic
  | .fin m e => Dyadic.ofIntWithPrec m (-e)
  | _ => 0

/-- Whether a value is a number: neither NaN nor an infinity. -/
def Num.finite : Num → Bool
  | .fin _ _ => true
  | .zero _ => true
  | _ => false

/-! A group of one thread, for the instructions whose effect reaches beyond their thread -/

/-- Group `n` is current and has the one member `t`, with record `x`, of team `m`; its guard holds and no operand makes it wait or trap (R53, R81, R120, R121). -/
structure Solo (s : State) (n : Nat) (g : Group) (t : ThreadId) (x : Thread) (m : Team) (sh : Shape) : Prop where
  cur     : s.cur = some n
  group   : s.group n = some g
  ofTeam  : g.team = t.team
  members : g.members = [t.t]
  done    : g.done = []
  engaged : g.engaged = []
  thread  : s.thread t = some x
  status  : x.status = .member n
  team    : s.team t.team = some m
  guard   : x.guard sh.guard = true
  free    : s.blockOf sh t = none

/-- The state once a hold of group `n` has ended (R81). -/
def State.resumed (s : State) (n : Nat) : State := s.alterGroup n fun g => { g with hold := none }

/-- What every executed instruction does beside its own effect: the words of its source queues are popped, PROG counts it (DEDUCED, log 16), and the group passes on (R60, R81, R367). -/
def State.commit (s : State) (n : Nat) (t : ThreadId) (srcs : List Src) : State :=
  (((s.popFor t srcs).progress t).markDone n t.t).passOn n

/-- The instruction executes in the one thread of group `n` with effect `u`. -/
def Commits (i : Instr) (s : State) (n : Nat) (t : ThreadId) (sh : Shape) (u : State) : Prop :=
  exec i s = .next (u.commit n t sh.srcs)

/-- The instruction is under way elsewhere with effect `u`: what its queues gave is popped, PROG counts it, and its group is held until it ends (R81, R367). -/
def Engages (i : Instr) (s : State) (n : Nat) (t : ThreadId) (sh : Shape) (u : State) : Prop :=
  exec i s = .next ((((u.popFor t sh.srcs).progress t).alterGroup n fun g =>
    { g with engaged := g.engaged ++ [t.t], hold := some (g.hold.getD .engaged) }).passOn n)

/-- The same for an instruction that changes words of field memory: the walks of its core's arrays follow (R182, R194). -/
def Walks (i : Instr) (s : State) (n : Nat) (g : Group) (t : ThreadId) (sh : Shape) (u : State) : Prop :=
  exec i s = .next ((u.commit n t sh.srcs).walkCore g.core)

/-- The thread parks, with `u` its only effect: its source words are popped, PROG counts it, and its group is held until its waiter is served (R182, R367). -/
def Parks (i : Instr) (s : State) (n : Nat) (g : Group) (t : ThreadId) (sh : Shape) (u : State) : Prop :=
  exec i s = .next (((((u.popFor t sh.srcs).progress t).alterGroup n fun g =>
    { g with engaged := g.engaged ++ [t.t], hold := some (g.hold.getD .engaged) }).passOn n).walkCore g.core)

/-- The instruction is held elsewhere and has had no other effect than `u`: nothing is popped or counted, and its group is held until what it waits for ends it (R81). -/
def Stays (i : Instr) (s : State) (n : Nat) (t : ThreadId) (u : State) : Prop :=
  exec i s = .next ((u.alterGroup n fun g => { g with engaged := g.engaged ++ [t.t], hold := some (g.hold.getD .engaged) }).passOn n)

/-- The instruction waits, with `u` its only effect and nothing popped: its group is held for `h` and it is tried again (R81). -/
def Waits (i : Instr) (s : State) (n : Nat) (h : Hold) (u : State) : Prop :=
  exec i s = .next ((u.holdGroup n h).passOn n)

/-- The instruction raises a cause in the one thread of group `n`, at its place in the clause, and has no other effect than `u` (R361). -/
def Traps (i : Instr) (s : State) (n : Nat) (g : Group) (t : ThreadId) (cause : Cause) (aux : List DWord) (u : State) : Prop :=
  exec i s = .next ((u.trapAt t g.clause g.idx cause aux).passOn n)

end Sys2Proof.Machine
end

