-- ==== Sys2Proof/Certificates/Slice0/Obligations.lean ====
section
/-! DEFINITION. The obligations: what the provers are to show of the machine, rule by rule of the spec. -/

open Sys2Proof Sys2Proof.Machine

/-! Encoding (R52 to R65) -/

/-- R52 to R58: the word that the encoder writes for a well-formed instruction, whatever its operands and modifiers, is decoded by the LV3 table to that instruction. -/
def Obligations.DecodingInvertsEncoding : Prop :=
  ∀ (i : Instr) (w : DWord), i.WellFormed = true → encode i = some w → decodeWord .lv3 w = .ok i

/-- R52 to R58, R68: a word that the LV3 table decodes is the one word of its instruction: no two words mean the same instruction, and no bit of a word is left unread. -/
def Obligations.EncodingInvertsDecoding : Prop :=
  ∀ (w : DWord) (i : Instr), decodeWord .lv3 w = .ok i → i.WellFormed = true ∧ encode i = some w

/-- The worked words of the spec's examples decode to the instructions that the examples name. -/
def Obligations.WorkedWordsDecode : Prop :=
  let g0 : Guard := ⟨false, 0⟩
  decodeTableWord 64 0x0000080385580000 = some (.iadd ⟨g0, 0x08, 0x03, 0x85, 0x58, false, false, false, 0, 0, false, false, 0, 0⟩)
  ∧ decodeTableWord 64 0x20A809090A584080 = some (.fmul ⟨⟨true, 2⟩, 0x09, 0x09, 0x0A, 0x58, false, true, false, 0, 1, false, false, 0, 0⟩)
  ∧ decodeTableWord 64 0x40410B5800014000 = some (.movi ⟨g0, 0x0B, 0x58, 0x00014000⟩)
  ∧ decodeTableWord 64 0x80021408FFFFF095 = some (.ld ⟨g0, 0x14, 0x08, 0xFFFFF0, 9, 5⟩)
  ∧ decodeTableWord 64 0x504304A00BFFFFF9 = some (.brc ⟨g0, 0x04, 0xA0, false, false, false, 2, 0x3FFFFF9⟩)
  ∧ decodeTableWord 64 0xA003184408080000 = some (.mmaI4x ⟨g0, 3, false, false, false, 1, 4, 0, 8, false, false, 0, true, 0⟩)
  ∧ decodeTableWord 64 0xC0830A8103000000 = some (.bararr ⟨g0, 0x0A, 0x81, 0x03, false, 0, 0⟩)
  ∧ decodeTableWord 64 0xD003300000000000 = some (.trap ⟨g0, 3, 0⟩)

/-! Numbers (R22, R27, R29 to R31, R426) -/

/-- R22, R29: the formats hold the widths, biases and special patterns of R22, and a pattern of one of them, subnormals included, is the multiple of the format's smallest step that R22 gives it, with its sign; zeros keep their sign, and infinities and NaN are no numbers. R29: ROUND of a quotient n / d to FP32, FP16 or BF16 is exact to IEEE 754: under rne the nearest value, ties to the even pattern, with infinity from half a step above the largest finite value on; under rtz the largest magnitude not above the quotient; under rup and rdn the one or its neighbour away from 0, by the sign. NaN gives the canonical NaN, an infinity itself and a zero the zero of its sign. R31: NARROW to E4M3, E5M2 or E2M1 gives the nearest value, ties to the even pattern, limited to the largest finite magnitude; an infinity gives that, NaN the canonical NaN or, for E2M1, +0. R27, R28: the value of a scale byte is the one its fields give, without sign or infinity, and 0xFF is NaN; the notable codes have their values. R30: E5M3 of a positive quotient is 0 below 2^-17, 0xFE from 114688 on, and otherwise the nearest scale code, ties to the even one; of a positive number it is that of its quotient, and of NaN, a negative number or minus infinity it is 0xFF. R426: an exact sum or product is the number itself, a zero adding nothing to a number; where it is 0, its sign is the one R426 fixes. SAT: a value limited to the range of `n` bits, signed or unsigned; without .sat a result is taken modulo 2^32 (R135). -/
def Obligations.NumbersRoundAsSpecified : Prop :=
  (
  let steps (f : FloatFormat) (mag : Nat) : Nat :=
    if mag / 2 ^ f.m = 0 then mag else (mag % 2 ^ f.m + 2 ^ f.m) * 2 ^ (mag / 2 ^ f.m - 1)
  let off (f : FloatFormat) (n d mag : Nat) : Nat := ((n * 2 ^ (f.bias + f.m - 1) : Int) - steps f mag * d).natAbs
  let nearest (f : FloatFormat) (last n d k : Nat) : Prop :=
    k ≤ last ∧ ∀ j, j ≤ last → off f n d k < off f n d j ∨ (off f n d k = off f n d j ∧ (k = j ∨ k % 2 = 0))
  let wide := [fp32, fp16, bf16]
  let narrowed := [e4m3, e5m2, e2m1]
  (fp32 = ⟨32, 23, 127, 0x7F7FFFFF, some 0x7F800000, 0x7FC00000⟩ ∧ fp16 = ⟨16, 10, 15, 0x7BFF, some 0x7C00, 0x7E00⟩
    ∧ bf16 = ⟨16, 7, 127, 0x7F7F, some 0x7F80, 0x7FC0⟩ ∧ e4m3 = ⟨8, 3, 7, 0x7E, none, 0x7F⟩
    ∧ e5m2 = ⟨8, 2, 15, 0x7B, some 0x7C, 0x7E⟩ ∧ e2m1 = ⟨4, 1, 1, 0x7, none, 0x0⟩)
  ∧ (∀ f ∈ wide ++ narrowed, ∀ (neg : Bool) (mag : Nat), mag < 2 ^ (f.width - 1) →
      (mag = 0 → valOf f (withSign f neg mag) = .zero neg)
      ∧ (0 < mag → mag ≤ f.max → ∃ m e, valOf f (withSign f neg mag) = .fin m e ∧ 1 - (f.bias : Int) - f.m ≤ e
          ∧ m * 2 ^ (e - (1 - (f.bias : Int) - f.m)).toNat = if neg then -(steps f mag : Int) else steps f mag)
      ∧ (f.inf = some mag → valOf f (withSign f neg mag) = .inf neg)
      ∧ (f.max < mag → f.inf ≠ some mag → valOf f (withSign f neg mag) = .nan))
  ∧ (∀ f ∈ wide, ∀ (neg : Bool) (n d : Nat), 0 < n → 0 < d →
      (∃ k, roundRat f .rne neg n d = withSign f neg k ∧ (steps f (f.max + 1) * d ≤ n * 2 ^ (f.bias + f.m - 1) → k = f.max + 1)
        ∧ (n * 2 ^ (f.bias + f.m - 1) ≤ steps f (f.max + 1) * d → nearest f (f.max + 1) n d k))
      ∧ (∀ mode, mode = .rtz ∨ (mode = .rup ∧ neg = true) ∨ (mode = .rdn ∧ neg = false) →
          ∃ k, k ≤ f.max ∧ roundRat f mode neg n d = withSign f neg k ∧ steps f k * d ≤ n * 2 ^ (f.bias + f.m - 1)
            ∧ ∀ j, j ≤ f.max → steps f j * d ≤ n * 2 ^ (f.bias + f.m - 1) → steps f j ≤ steps f k)
      ∧ (∀ mode, (mode = .rup ∧ neg = false) ∨ (mode = .rdn ∧ neg = true) →
          ∃ k, k ≤ f.max + 1 ∧ roundRat f mode neg n d = withSign f neg k
            ∧ (n * 2 ^ (f.bias + f.m - 1) ≤ steps f (f.max + 1) * d → n * 2 ^ (f.bias + f.m - 1) ≤ steps f k * d)
            ∧ (steps f (f.max + 1) * d < n * 2 ^ (f.bias + f.m - 1) → k = f.max + 1)
            ∧ ∀ j, j ≤ f.max → n * 2 ^ (f.bias + f.m - 1) ≤ steps f j * d → steps f k ≤ steps f j))
  ∧ (∀ f ∈ wide, ∀ mode, round f mode .nan = f.qnan ∧ (∀ neg, round f mode (.zero neg) = withSign f neg 0)
      ∧ (∀ neg, round f mode (.inf neg) = withSign f neg (f.max + 1))
      ∧ (∀ (m : Int) (e : Nat), round f mode (.fin m e) = roundRat f mode (decide (m < 0)) (m.natAbs * 2 ^ e) 1)
      ∧ (∀ (m : Int) (e : Nat), 0 < e → round f mode (.fin m (-e)) = roundRat f mode (decide (m < 0)) m.natAbs (2 ^ e)))
  ∧ (∀ f ∈ narrowed, narrow f .nan = f.qnan ∧ (∀ neg, narrow f (.zero neg) = withSign f neg 0 ∧ narrow f (.inf neg) = withSign f neg f.max)
      ∧ (∀ (m : Int) (e : Nat), narrow f (.fin m e) = narrowRat f (decide (m < 0)) (m.natAbs * 2 ^ e) 1)
      ∧ (∀ (m : Int) (e : Nat), 0 < e → narrow f (.fin m (-e)) = narrowRat f (decide (m < 0)) m.natAbs (2 ^ e))
      ∧ ∀ (neg : Bool) (n d : Nat), 0 < n → 0 < d → ∃ k, narrowRat f neg n d = withSign f neg k ∧ nearest f f.max n d k)
  ∧ (e5m3 .nan = 0xFF ∧ e5m3 (.inf true) = 0xFF ∧ e5m3 (.inf false) = 0xFE ∧ (∀ neg, e5m3 (.zero neg) = 0)
      ∧ (∀ m e, m < 0 → e5m3 (.fin m e) = 0xFF)
      ∧ (∀ (m : Int) (e : Nat), 0 < m → e5m3 (.fin m e) = e5m3Rat (m.natAbs * 2 ^ e) 1
        ∧ (0 < e → e5m3 (.fin m (-e)) = e5m3Rat m.natAbs (2 ^ e)))
      ∧ ∀ n d, 0 < n → 0 < d →
        (n * 2 ^ 17 < d → e5m3Rat n d = 0) ∧ (114688 * d ≤ n → e5m3Rat n d = 0xFE)
        ∧ (d ≤ n * 2 ^ 17 → n < 114688 * d → nearest ⟨9, 3, 15, 0xFE, none, 0xFF⟩ 0xFE n d (e5m3Rat n d).toNat))
  ∧ (let units (k : Int) (p : Int) : Dyadic := Dyadic.ofIntWithPrec k p;
      (∀ b : Byte,
        let e := b.toNat / 8
        let f := b.toNat % 8
        (b = 0xFF → e5m3v b = .nan) ∧ (b = 0 → e5m3v b = .zero false)
        ∧ (b ≠ 0xFF → (e5m3v b).exact = if e = 0 then units f 17 else units (8 + f) (18 - e))
        ∧ (∀ neg, e5m3v b ≠ .inf neg) ∧ e5m3v b ≠ .zero true ∧ (e5m3v b).neg = false
        ∧ (b.toNat < 0xFE → f < 7 → (e5m3v (b + 1)).exact = (e5m3v b).exact + units 1 (if e = 0 then 17 else 18 - e)))
      ∧ ∀ c ∈ [(0x00, units 0 0), (0x01, units 1 17), (0x07, units 7 17), (0x08, units 1 14), (0x70, units 1 1), (0x78, units 1 0),
          (0x79, units 9 3), (0x7F, units 15 3), (0x80, units 2 0), (0xF8, units 65536 0), (0xFE, units 114688 0)],
        e5m3v (BitVec.ofNat 8 c.1) ≠ .nan ∧ (e5m3v (BitVec.ofNat 8 c.1)).exact = c.2)
  ∧ (∀ (mode : RoundMode) (m1 e1 m2 e2 : Int),
      let low := min e1 e2
      let sum := m1 * 2 ^ (e1 - low).toNat + m2 * 2 ^ (e2 - low).toNat
      (sum ≠ 0 → addNum mode (.fin m1 e1) (.fin m2 e2) = .fin sum low)
      ∧ (sum = 0 → addNum mode (.fin m1 e1) (.fin m2 e2) = .zero (mode == .rdn))
      ∧ mulNum (.fin m1 e1) (.fin m2 e2) = .fin (m1 * m2) (e1 + e2)
      ∧ (∀ neg, addNum mode (.zero neg) (.fin m1 e1) = .fin m1 e1 ∧ addNum mode (.fin m1 e1) (.zero neg) = .fin m1 e1)
      ∧ ∀ a b, addNum mode (.zero a) (.zero b) = .zero (if a = b then a else mode == .rdn)
        ∧ mulNum (.zero a) (.zero b) = .zero (a != b) ∧ mulNum (.zero a) (.fin m1 e1) = .zero (a != decide (m1 < 0))))
  ∧ (
  (∀ (n : Nat) (r : Int), 0 < n →
    satInt n true r = max 0 (min r (2 ^ n - 1)) ∧ satInt n false r = max (-2 ^ (n - 1)) (min r (2 ^ (n - 1) - 1)))
  ∧ ∀ (un : Bool) (r : Int),
    ((writeInt false un r).toNat : Int) = r % 2 ^ 32 ∧ intOf un (writeInt true un r) = satInt 32 un r)

/-- R36, R37, R40, R41, R205: what the update of an mma does to one accumulator row. The columns of the mma become 0x7FC00000 where a scale byte of the span is 0xFF, an element of the row or of the column is NaN or infinite, or the accumulator is NaN; otherwise the accumulator plus T, rounded once, where T is the exact sum over the segments of P, the two scales and the block exponents; an infinite accumulator stays, and an exact zero is +0. The other columns keep their values. Without noise, P is the sum of R40 over the converted counts, with the side path of I4X, and where the conversions are exact it is the sum of the products of the digits, or of the values for I4X. -/
def Obligations.TheUpdateRoundsTheExactSumOnce : Prop :=
  ∀ (m : Mma) (x : Tile) (acc : Sparse 32) (r : MmaRow),
  let f := m.format
  let four : Bool := f == .i4x || f == .i4
  let nb := if four then 4 else 8
  let segments := if four then 4 else if f = .bf16 then 1 else 2
  let columns := if four then 256 else 128
  let first := 256 * r.row + (if four then 0 else if m.ch then 128 else 0)
  let u := (m.rowUpdate x acc r).1
  let bs := r.arow.flatMap fun w => bytesOf w 4
  let block (s : Nat) : Nat := if f = .bf16 then (if m.seg then 1 else 0) else s
  let tileRow (s : Nat) : Nat := if four then 32 * s else (if m.half then 64 else 0) + 32 * block s
  let column (s n : Nat) : Nat := (if m.half then 256 else 0) + 128 * block s + n
  let digitA (s k : Nat) : Int := rowDigit f bs r.sidecars (32 * s + k)
  let digitB (s n k : Nat) : Int := x.digit four (tileRow s + k) n
  let int (i p : Int) : Dyadic := Dyadic.ofIntWithPrec i p
  let total (n : Nat) (h : Nat → Dyadic) : Dyadic := ((List.range n).map h).foldl (· + ·) 0
  let partial_ (s n : Nat) : Dyadic := (m.partialSum x r.lane bs ((List.range 32).map (digitA s)) s n).1.exact
  let product (s n k : Nat) : Dyadic :=
    if f = .i4x then (elemValue .i4x bs (32 * s + k)).exact * (x.valueI4x (tileRow s + k) n).exact else int (digitA s k * digitB s n k) 0
  (∀ key, key < first ∨ first + columns ≤ key → u.get key = acc.get key)
  ∧ (∀ n, n < columns →
    let old := valF32 (acc.get (first + n))
    let new := u.get (first + n)
    let scaleA (s : Nat) : Byte := r.scales.getD s 0
    let scaleB (s : Nat) : Byte := if four then (m.bscales.getD s []).getD n 0 else (m.bscales.getD 0 []).getD (128 * block s + n) 0
    let blocked := f = .e4m3 ∨ f = .e5m2 ∨ f = .bf16
    let odd : Prop := (∃ s, s < segments ∧ (scaleA s = 0xFF ∨ scaleB s = 0xFF))
      ∨ (blocked ∧ ∃ k, k < 32 * segments ∧ (elemValue f bs k).finite = false)
      ∨ (four = false ∧ ∃ s, s < segments ∧ x.odd.get (column s n) ≠ 0) ∨ old = .nan
    let exponent (emax : Int) : Int := if blocked then emax - 6 else if f = .e2m1 then -1 else 0
    let t := total segments fun s => partial_ s n * (e5m3v (scaleA s)).exact * (e5m3v (scaleB s)).exact
      * int 1 (-(exponent (r.sidecars.getD s 0) + exponent (x.sidecars.get (column s n)).toInt))
    (odd → new = 0x7FC00000)
    ∧ (¬ odd → (∃ v : Machine.Num, v.finite = true ∧ v.exact = t ∧ new = round32 .rne (addNum .rne old v))
      ∧ (∀ neg, old = .inf neg → new = acc.get (first + n)) ∧ (old.finite = true → old.exact + t = 0 → new = 0)))
  ∧ (m.noise = [] → m.rep < 3 → ∀ s n, s < segments → n < columns →
    let bit (d : Int) (i : Nat) : Bool := (d % 256).toNat.testBit i
    let count (i j : Nat) : Nat := (List.range 32).countP fun k => bit (digitA s k) i && bit (digitB s n k) j
    let converted (c : Nat) : Dyadic := if m.c4 then int (4 * (c * 2 ^ m.rep / 4) : Nat) m.rep else int c 0
    let weight (i : Nat) : Dyadic := if i + 1 = nb then int (-2 ^ i) 0 else int (2 ^ i) 0
    let side : Dyadic := if f = .i4x then total 32 fun k => product s n k - int (digitA s k * digitB s n k) 0 else 0
    partial_ s n = (total nb fun i => total nb fun j => weight i * weight j * converted (count i j)) + side
    ∧ (m.c4 = false ∨ m.rep = 2 → partial_ s n = total 32 fun k => product s n k))

/-! The lane families (R130 to R151), moves and predicates (R123 to R128) -/

/-- R135: the sums, products and orders of 32-bit integers, exact, then modulo 2^32 or saturated; format I is .sg without .sat (R131).That PROG of the team counts each active thread, a clause of `LaneDone`, is the model's reading (log 16, DEDUCED from R367). -/
def Obligations.IntegerArithmeticWritesTheExactResult : Prop :=
  (∀ f : RF,
    Computes2 (.iadd f) f (fun a b => writeInt f.sat f.un (intOf f.un a + intOf f.un b))
    ∧ Computes2 (.isub f) f (fun a b => writeInt f.sat f.un (intOf f.un a - intOf f.un b))
    ∧ Computes2 (.imul f) f (fun a b => writeInt f.sat f.un (intOf f.un a * intOf f.un b))
    ∧ Computes2 (.imulh f) f (fun a b => BitVec.ofInt 32 (intOf f.un a * intOf f.un b / 2 ^ 32))
    ∧ Computes3 (.imad f) f (fun a b c => writeInt f.sat f.un (intOf f.un a * intOf f.un b + intOf f.un c))
    ∧ Computes1 (.iabs f) f (fun a => writeInt f.sat false (if a.toInt < 0 then -a.toInt else a.toInt))
    ∧ Computes1 (.ineg f) f (fun a => writeInt f.sat false (-a.toInt))
    ∧ Computes2 (.imin f) f (fun a b => if intOf f.un a ≤ intOf f.un b then a else b)
    ∧ Computes2 (.imax f) f (fun a b => if intOf f.un b ≤ intOf f.un a then a else b))
  ∧ ∀ f : IF,
    ComputesI (.iaddI f) f (fun a b => BitVec.ofInt 32 (a.toInt + b.toInt))
    ∧ ComputesI (.isubI f) f (fun a b => BitVec.ofInt 32 (a.toInt - b.toInt))
    ∧ ComputesI (.imulI f) f (fun a b => BitVec.ofInt 32 (a.toInt * b.toInt))
    ∧ ComputesI (.imulhI f) f (fun a b => BitVec.ofInt 32 (a.toInt * b.toInt / 2 ^ 32))
    ∧ ComputesI (.iminI f) f (fun a b => if a.toInt ≤ b.toInt then a else b)
    ∧ ComputesI (.imaxI f) f (fun a b => if b.toInt ≤ a.toInt then a else b)

/-- R136: division and remainder never trap; their results at b = 0 and at -2^31 / -1. That PROG of the team counts each active thread, a clause of `LaneDone`, is the model's reading (log 16, DEDUCED from R367). -/
def Obligations.IntegerDivisionNeverTraps : Prop :=
  let quotient (sat un : Bool) (a b : Word) : Word :=
    if b = 0 then (if un then 0xFFFFFFFF else if 0 ≤ a.toInt then 0x7FFFFFFF else 0x80000000)
    else if un = false ∧ a.toInt = -2 ^ 31 ∧ b.toInt = -1 then (if sat then 0x7FFFFFFF else 0x80000000)
    else BitVec.ofInt 32 ((intOf un a).tdiv (intOf un b))
  let remainder (un : Bool) (a b : Word) : Word :=
    if b = 0 then a
    else if un = false ∧ a.toInt = -2 ^ 31 ∧ b.toInt = -1 then 0
    else BitVec.ofInt 32 (intOf un a - intOf un b * (intOf un a).tdiv (intOf un b))
  (∀ f : RF, Computes2 (.idiv f) f (quotient f.sat f.un) ∧ Computes2 (.irem f) f (remainder f.un))
  ∧ ∀ f : IF, ComputesI (.idivI f) f (quotient false false) ∧ ComputesI (.iremI f) f (remainder false)

/-- R137, R138: the logical instructions, the shifts with their amounts of 32 and more, and the bit counts; bfe extracts the field of `n` bits at `pos`, extended by zeros or by its top bit, and bfi replaces it and keeps the other bits of D. That PROG counts each active thread, a clause of `LaneDone`, is the model's reading (log 16, DEDUCED from R367). -/
def Obligations.LogicShiftsAndBitFields : Prop :=
  (
  let shl (a b : Word) : Word := if 32 ≤ b.toNat then 0 else BitVec.ofNat 32 (a.toNat * 2 ^ b.toNat)
  let shr (a b : Word) : Word := if 32 ≤ b.toNat then 0 else BitVec.ofNat 32 (a.toNat / 2 ^ b.toNat)
  let sar (a b : Word) : Word := BitVec.ofInt 32 (a.toInt / 2 ^ min b.toNat 31)
  let rotl (a b : Word) : Word := a.rotateLeft (b.toNat % 32)
  (∀ f : RF,
    Computes2 (.and f) f (fun a b => a &&& b) ∧ Computes2 (.or f) f (fun a b => a ||| b)
    ∧ Computes2 (.xor f) f (fun a b => a ^^^ b) ∧ Computes2 (.andn f) f (fun a b => a &&& ~~~b)
    ∧ Computes1 (.not f) f (fun a => ~~~a)
    ∧ Computes2 (.shl f) f shl ∧ Computes2 (.shr f) f shr ∧ Computes2 (.sar f) f sar ∧ Computes2 (.rotl f) f rotl
    ∧ Computes1 (.popc f) f (fun a => BitVec.ofNat 32 ((List.range 32).countP fun k => a.getLsbD k))
    ∧ Computes1 (.clz f) f clzOp ∧ Computes1 (.ctz f) f ctzOp ∧ Computes1 (.brev f) f brevOp)
  ∧ ∀ f : IF,
    ComputesI (.andI f) f (fun a b => a &&& b) ∧ ComputesI (.orI f) f (fun a b => a ||| b)
    ∧ ComputesI (.xorI f) f (fun a b => a ^^^ b) ∧ ComputesI (.andnI f) f (fun a b => a &&& ~~~b)
    ∧ ComputesI (.shlI f) f shl ∧ ComputesI (.shrI f) f shr ∧ ComputesI (.sarI f) f sar ∧ ComputesI (.rotlI f) f rotl)
  ∧ (
  clzOp 0 = 32 ∧ ctzOp 0 = 32
  ∧ (∀ a : Word, a ≠ 0 → ∃ k, k < 32 ∧ clzOp a = BitVec.ofNat 32 k ∧ a.getLsbD (31 - k) = true
      ∧ ∀ j, j < k → a.getLsbD (31 - j) = false)
  ∧ (∀ a : Word, a ≠ 0 → ∃ k, k < 32 ∧ ctzOp a = BitVec.ofNat 32 k ∧ a.getLsbD k = true
      ∧ ∀ j, j < k → a.getLsbD j = false)
  ∧ ∀ (a : Word) (k : Nat), k < 32 → (brevOp a).getLsbD k = a.getLsbD (31 - k))
  ∧ (
  (∀ f : RF, Computes3 (.bfe f) f (bfeOp f.un)
    ∧ Executes (.bfi f) (shape3 f) (fun _ _ _ x vs => writeDst f.d (bfiOp (oldD x f.d) (arg vs 0) (arg vs 1) (arg vs 2))))
  ∧ ∀ a b c d : Word,
    let pos := min b.toNat 32
    let n := min (pos + min c.toNat 32) 32 - pos
    (∀ k, k < 32 → (bfiOp d a b c).getLsbD k = if pos ≤ k ∧ k < pos + n then a.getLsbD (k - pos) else d.getLsbD k)
    ∧ (∀ k, k < 32 → (bfeOp true a b c).getLsbD k = (decide (k < n) && a.getLsbD (pos + k)))
    ∧ ∀ k, k < 32 → (bfeOp false a b c).getLsbD k = (decide (0 < n) && a.getLsbD (pos + min k (n - 1))))

/-- R139, R140: select, compare and add with carry; the 64-bit sums, with their saturation, and the address instructions. That PROG counts each active thread, a clause of `LaneDone`, is the model's reading (log 16, DEDUCED from R367). -/
def Obligations.SelectsComparesAndWideSums : Prop :=
  (
  (∀ f : RF, Executes (.sel f) (shape2 f) fun _ _ _ x vs =>
      writeDst f.d (if x.pred (f.c.toNat % 8) != f.c.getLsbD 3 then arg vs 0 else arg vs 1))
  ∧ (∀ f : RF,
      let test (a b : Word) : Bool := cmpOp f.cmp (decide (intOf f.un a < intOf f.un b)) (a == b)
      (f.var ≠ 1 → Tests2 (.icmp f) f test) ∧ (f.var = 1 → Computes2 (.icmp f) f fun a b => if test a b then 1 else 0))
  ∧ (∀ f : IF, TestsI (.icmpI f) f fun a b => a == b)
  ∧ ∀ f : RF, Executes (.iaddc f) (shape2 f) fun _ _ _ x vs =>
      let s := (arg vs 0).toNat + (arg vs 1).toNat + (x.pred (f.c.toNat % 8)).toNat
      { writeDst f.d (BitVec.ofNat 32 s) with preds := [(f.c.toNat % 8, decide (2 ^ 32 ≤ s))] })
  ∧ (
  (∀ f : RF,
    let pairs : Shape := { guard := f.g, srcs := [.pair f.a f.bta, .pair f.b f.btb], dsts := [.pair f.d] }
    let value (r : Int) : DWord := BitVec.ofInt 64 (if f.sat then satInt 64 f.un r else r)
    Executes (.add64 f) pairs (fun _ _ _ _ vs => writePair f.d (value (intOf f.un (arg64 vs 0) + intOf f.un (arg64 vs 1))))
    ∧ Executes (.sub64 f) pairs (fun _ _ _ _ vs => writePair f.d (value (intOf f.un (arg64 vs 0) - intOf f.un (arg64 vs 1))))
    ∧ Computes2 (.lea f) f (fun a b => BitVec.ofNat 32 (a.toNat + b.toNat * 2 ^ f.var.toNat))
    ∧ Executes (.lea64 f) { guard := f.g, srcs := [.pair f.a f.bta, srcB f], dsts := [.pair f.d] } fun _ _ _ _ vs =>
        writePair f.d (BitVec.ofInt 64 ((arg64 vs 0).toNat + intOf f.un (arg vs 1) * 2 ^ f.var.toNat)))
  ∧ ∀ f : IF, ComputesI (.leaI f) f fun a b => a + b)

/-- R141 to R146: the FP32 instructions write their results in every member, with rne in format I. Sums, products and fused sums are the exact ones rounded once; NaN and the invalid operations on infinities give the canonical NaN. fmin and fmax give the lesser and the greater operand, -0 below +0, the other one beside a NaN, and the canonical NaN for two. fcmp orders exact values, -0 equal to +0, and of a NaN finds .ne alone true. fclass sets the bit of its class. frnd gives the integer that its mode selects, fscale the exact product with 2^b rounded once, fsqrt the root, known exactly or to within a part in 2^80, rounded once. The estimates have the special operands of R145; rcpe and rsqrte are the reciprocal and the reciprocal root to 12 bits, and exp2e of an integer and log2e of a power of two are those of the exact value. The packed instructions act on the two halves, each rounded once in its format, and .lo and .hi keep the other half of D. That PROG counts each active thread, a clause of `LaneDone`, is the model's reading (log 16, DEDUCED from R367). -/
def Obligations.FloatInstructionsExecute : Prop :=
  (
  (∀ f : RF,
    let m := roundModeOf f.rnd
    Computes2 (.fadd f) f (faddOp m) ∧ Computes2 (.fsub f) f (fsubOp m) ∧ Computes2 (.fmul f) f (fmulOp m)
    ∧ Computes3 (.ffma f) f (ffmaOp m) ∧ Computes2 (.fmin f) f (pickOp false) ∧ Computes2 (.fmax f) f (pickOp true)
    ∧ Computes1 (.fabs f) f (fun a => if (valF32 a).isNan then qnan32 else a &&& 0x7FFFFFFF)
    ∧ Computes1 (.fneg f) f (fun a => if (valF32 a).isNan then qnan32 else a ^^^ 0x80000000)
    ∧ (f.var ≠ 1 → Tests2 (.fcmp f) f (fcmpOp f.cmp))
    ∧ (f.var = 1 → Computes2 (.fcmp f) f fun a b => if fcmpOp f.cmp a b then 1 else 0)
    ∧ Computes1 (.fclass f) f (fclassOp f.type) ∧ Computes1 (.frnd f) f (frndOp m) ∧ Computes2 (.fscale f) f (fscaleOp m)
    ∧ Computes1 (.rcpe f) f rcpeOp ∧ Computes1 (.rsqrte f) f rsqrteOp ∧ Computes1 (.fsqrt f) f (fsqrtOp m)
    ∧ Computes1 (.exp2e f) f exp2eOp ∧ Computes1 (.log2e f) f log2eOp)
  ∧ ∀ f : IF,
    ComputesI (.faddI f) f (faddOp .rne) ∧ ComputesI (.fsubI f) f (fsubOp .rne) ∧ ComputesI (.fmulI f) f (fmulOp .rne)
    ∧ ComputesI (.fminI f) f (pickOp false) ∧ ComputesI (.fmaxI f) f (pickOp true) ∧ TestsI (.fcmpI f) f (fcmpOp 0))
  ∧ (
  (∀ (m : RoundMode) (a b c : Word),
    let x := valF32 a
    let y := valF32 b
    faddOp m a b = round32 m (addNum m x y) ∧ fsubOp m a b = round32 m (addNum m x (negNum y))
    ∧ fmulOp m a b = round32 m (mulNum x y) ∧ ffmaOp m a b c = round32 m (addNum m (mulNum x y) (valF32 c)))
  ∧ (∀ (m : RoundMode) (x : Machine.Num) (p : Bool),
    addNum m .nan x = .nan ∧ addNum m x .nan = .nan ∧ mulNum .nan x = .nan ∧ mulNum x .nan = .nan
    ∧ negNum .nan = .nan ∧ negNum (.inf p) = .inf (!p) ∧ negNum (.zero p) = .zero (!p) ∧ (∀ k e, negNum (.fin k e) = .fin (-k) e)
    ∧ addNum m (.inf p) (.inf (!p)) = .nan ∧ addNum m (.inf p) (.inf p) = .inf p
    ∧ (x.finite = true → addNum m (.inf p) x = .inf p ∧ addNum m x (.inf p) = .inf p)
    ∧ (∀ q, mulNum (.inf p) (.zero q) = .nan ∧ mulNum (.zero q) (.inf p) = .nan ∧ mulNum (.inf p) (.inf q) = .inf (p != q))
    ∧ ∀ k e, mulNum (.inf p) (.fin k e) = .inf (p != decide (k < 0)) ∧ mulNum (.fin k e) (.inf p) = .inf (p != decide (k < 0)))
  ∧ (∀ x y : Machine.Num, x.finite = true → y.finite = true →
    ltNum x y = decide (x.exact < y.exact) ∧ eqNum x y = decide (x.exact = y.exact)
    ∧ (beforeNum x y = true ↔ x.exact < y.exact ∨ (x = .zero true ∧ y = .zero false))
    ∧ ∀ p, ltNum (.inf p) y = p ∧ ltNum x (.inf p) = !p ∧ beforeNum (.inf p) y = p ∧ beforeNum x (.inf p) = !p
      ∧ eqNum (.inf p) y = false ∧ eqNum x (.inf p) = false
      ∧ ∀ q, ltNum (.inf p) (.inf q) = (p && !q) ∧ beforeNum (.inf p) (.inf q) = (p && !q) ∧ eqNum (.inf p) (.inf q) = (p == q))
  ∧ (∀ (max : Bool) (a b : Word),
    let x := valF32 a
    let y := valF32 b
    (x.isNan = true → y.isNan = true → pickOp max a b = 0x7FC00000) ∧ (x.isNan = true → y.isNan = false → pickOp max a b = b)
    ∧ (x.isNan = false → y.isNan = true → pickOp max a b = a)
    ∧ (x.isNan = false → y.isNan = false → pickOp true a b = (if beforeNum x y then b else a)
      ∧ pickOp false a b = if beforeNum y x then b else a))
  ∧ (∀ (cmp : BitVec 3) (a b : Word),
    let x := valF32 a
    let y := valF32 b
    (x.isNan = true ∨ y.isNan = true → fcmpOp cmp a b = decide (cmp = 1))
    ∧ (x.isNan = false → y.isNan = false → cmp.toNat < 6 → fcmpOp cmp a b =
        [eqNum x y, !eqNum x y, ltNum x y, ltNum x y || eqNum x y, !ltNum x y && !eqNum x y, !ltNum x y].getD cmp.toNat false))
  ∧ (∀ (type : BitVec 4) (a : Word),
    let f : FloatFormat := if type = 5 then fp16 else if type = 6 then bf16 else fp32
    let mag := a.toNat % 2 ^ (f.width - 1)
    let neg := a.toNat.testBit (f.width - 1)
    fclassOp type a = BitVec.ofNat 32 (2 ^
      (if mag = 0 then (if neg then 3 else 4) else if mag < 2 ^ f.m then (if neg then 2 else 5)
      else if mag ≤ f.max then (if neg then 1 else 6) else if f.inf = some mag then (if neg then 0 else 7)
      else if mag.testBit (f.m - 1) then 9 else 8)))
  ∧ (∀ (m : RoundMode) (a b : Word),
    let x := valF32 a
    (x.isNan = true → frndOp m a = 0x7FC00000 ∧ fscaleOp m a b = 0x7FC00000)
    ∧ (∀ p, x = .inf p ∨ x = .zero p → frndOp m a = a ∧ fscaleOp m a b = a)
    ∧ ∀ k e, x = .fin k e → fscaleOp m a b = round32 m (.fin k (e + b.toInt))
      ∧ ∃ r : Int, frndOp m a = round32 m (if r = 0 then .zero (decide (k < 0)) else .fin r 0)
        ∧ let int (i : Int) : Dyadic := Dyadic.ofIntWithPrec i 0
          let half : Dyadic := Dyadic.ofIntWithPrec 1 1
          match m with
          | .rtz => if 0 < k then int r ≤ x.exact ∧ x.exact < int (r + 1) else int (r - 1) < x.exact ∧ x.exact ≤ int r
          | .rdn => int r ≤ x.exact ∧ x.exact < int (r + 1)
          | .rup => int (r - 1) < x.exact ∧ x.exact ≤ int r
          | .rne => int r - half ≤ x.exact ∧ x.exact ≤ int r + half ∧ (x.exact = int r - half ∨ x.exact = int r + half → r % 2 = 0))
  ∧ (∀ (m : RoundMode) (a : Word),
    let x := valF32 a
    let special (f : Word → Word) (pinf ninf pzero nzero : Word) : Prop :=
      (x.isNan = true → f a = 0x7FC00000) ∧ (x = .inf false → f a = pinf) ∧ (x = .inf true → f a = ninf)
      ∧ (x = .zero false → f a = pzero) ∧ (x = .zero true → f a = nzero)
    special (fsqrtOp m) 0x7F800000 0x7FC00000 0 0x80000000 ∧ special rcpeOp 0 0x80000000 0x7F800000 0xFF800000
    ∧ special rsqrteOp 0 0x7FC00000 0x7F800000 0xFF800000 ∧ special exp2eOp 0x7F800000 0 0x3F800000 0x3F800000
    ∧ special log2eOp 0x7F800000 0x7FC00000 0xFF800000 0xFF800000
    ∧ (x.neg = true → x.finite = true → x ≠ .zero true →
        fsqrtOp m a = 0x7FC00000 ∧ rsqrteOp a = 0x7FC00000 ∧ log2eOp a = 0x7FC00000)
    ∧ log2eOp 0x3F800000 = 0)
  ∧ (∀ n d : Nat, 0 < n → 0 < d → ∃ (k : Nat) (j : Int), 2 ^ 11 ≤ k ∧ k ≤ 2 ^ 12 ∧ sig12 n d = scaleQuot k 1 j
      ∧ let s := scaleQuot n d (-j)
        let off : Int := 2 * ((k * s.2 : Nat) - (s.1 : Int))
        off.natAbs ≤ s.2 ∧ (off.natAbs = s.2 → k % 2 = 0))
  ∧ (∀ n d : Nat, 0 < n → 0 < d → ∃ s k : Nat, 2 ^ 80 ≤ s ∧ s * s * d ≤ n * 4 ^ k ∧ n * 4 ^ k < (s + 1) * (s + 1) * d
      ∧ sqrtQuot n d = if s * s * d = n * 4 ^ k then (s, 2 ^ k) else (2 * s + 1, 2 ^ (k + 1)))
  ∧ ∀ (m : RoundMode) (a : Word) (n d : Nat) (neg : Bool), 0 < n → 0 < d → (∃ k e, valF32 a = .fin k e ∧ neg = decide (k < 0) ∧ quotOf k e = (n, d)) →
      let twelve (neg : Bool) (q : Nat × Nat) : Word := BitVec.ofNat 32 (roundRat fp32 .rne neg (sig12 q.1 q.2).1 (sig12 q.1 q.2).2)
      (neg = false → fsqrtOp m a = BitVec.ofNat 32 (roundRat fp32 m false (sqrtQuot n d).1 (sqrtQuot n d).2)
        ∧ rsqrteOp a = twelve false (sqrtQuot d n))
      ∧ rcpeOp a = (if n * 2 ^ 128 < d then (if neg then 0xFF800000 else 0x7F800000) else twelve neg (d, n))
      ∧ (neg = false → 128 * d ≤ n → exp2eOp a = 0x7F800000)
      ∧ (∀ i : Nat, n = i * d → i < 128 →
          exp2eOp a = if neg then twelve false (1, 2 ^ i) else twelve false (2 ^ i, 1))
      ∧ ∀ i : Nat, 0 < i → neg = false →
          (n = 2 ^ i * d → log2eOp a = twelve false (i, 1)) ∧ (n * 2 ^ i = d → log2eOp a = twelve true (i, 1)))
  ∧ (
  ∀ f : RF,
    let m := roundModeOf f.rnd
    let two (i : Instr) (fmt : FloatFormat) (op : Machine.Num → Machine.Num → Machine.Num → Machine.Num) : Prop :=
      Executes i (shape2 f) fun _ _ _ x vs => writeDst f.d (packedOp fmt m f.var op (oldD x f.d) (arg vs 0) (arg vs 1) (arg vs 2))
    let three (i : Instr) (fmt : FloatFormat) (op : Machine.Num → Machine.Num → Machine.Num → Machine.Num) : Prop :=
      Executes i (shape3 f) fun _ _ _ x vs => writeDst f.d (packedOp fmt m f.var op (oldD x f.d) (arg vs 0) (arg vs 1) (arg vs 2))
    two (.hadd2 f) fp16 (add2 m) ∧ two (.hmul2 f) fp16 mul2 ∧ three (.hfma2 f) fp16 (fmaNum m)
    ∧ two (.bfadd2 f) bf16 (add2 m) ∧ two (.bfmul2 f) bf16 mul2 ∧ three (.bffma2 f) bf16 (fmaNum m))
  ∧ (
  (∀ (f : FloatFormat) (m : RoundMode) (var : BitVec 2) (op : Machine.Num → Machine.Num → Machine.Num → Machine.Num) (d a b c : Word),
    f = fp16 ∨ f = bf16 →
    let lo (w : Word) : Nat := w.toNat % 65536
    let hi (w : Word) : Nat := w.toNat / 65536
    let r := packedOp f m var op d a b c
    lo r = (if var = 2 then lo d else round f m (op (valOf f (lo a)) (valOf f (lo b)) (valOf f (lo c))))
    ∧ hi r = if var = 1 then hi d else round f m (op (valOf f (hi a)) (valOf f (hi b)) (valOf f (hi c))))
  ∧ ∀ (m : RoundMode) (x y z : Machine.Num),
    add2 m x y z = addNum m x y ∧ mul2 x y z = mulNum x y ∧ fmaNum m x y z = addNum m (mulNum x y) z)

/-- R124 to R128, R147 to R151: the conversions write their results, and a NaN narrowed to E2M1 is a format anomaly of the team (R31, R43). cvt gives an integer modulo 2^w or saturated, the rounded or narrowed value in a floating type, and of a float in an integer type 0 for NaN, a limit for an infinity, and otherwise the rounded and saturated integer; an integer result is extended by sign or zeros. pk replaces one subfield of D and keeps its other bits; upk gives a subfield, an integer extended and a float exact in FP32; alnb.exp gives the exponent of a finite non-zero number and 0x80000000 otherwise, alnb.q the aligned and clamped integer. The moves, with the team constants read by movc and the special values read by movs, by selector; the predicate instructions, where bit 3 of a selector inverts and a write to p0 is discarded. That PROG counts each active thread, a clause of `LaneDone`, is the model's reading (log 16, DEDUCED from R367). -/
def Obligations.ConversionsMovesAndPredicatesExecute : Prop :=
  (
  (∀ f : CvtF, Executes (.cvt f) { guard := f.g, srcs := [.one f.a f.bta], dsts := [.one f.d] } fun _ _ _ _ vs =>
      let r := cvtOp (elemType f.type) (elemType f.stype) f.sat f.un f.sun (roundModeOf f.rnd) (arg vs 0)
      { writeDst f.d r.1 with anomaly := r.2 })
  ∧ ∀ f : RF,
    Executes (.pk f) (shape2 f) (fun _ _ _ x vs =>
      let r := pkOp (elemType f.type) f.sat f.un (roundModeOf f.rnd) (oldD x f.d) (arg vs 0) (arg vs 1)
      { writeDst f.d r.1 with anomaly := r.2 })
    ∧ Computes2 (.upk f) f (upkOp (elemType f.type) f.un)
    ∧ (f.var = 1 → Computes1 (.alnb f) f (alnbExpOp f.type)) ∧ (f.var ≠ 1 → Computes2 (.alnb f) f (alnbQOp f.type)))
  ∧ (
  let range (n : Nat) (un : Bool) : Int × Int := if un then (0, 2 ^ n - 1) else (-2 ^ (n - 1), 2 ^ (n - 1) - 1)
  let sat (n : Nat) (un : Bool) (v : Int) : Int := max (range n un).1 (min v (range n un).2)
  let written (n : Nat) (un : Bool) (w : Word) (v : Int) : Prop :=
    (if un then (w.toNat : Int) else w.toInt) = v ∧ (range n un).1 ≤ v ∧ v ≤ (range n un).2
  let source (n : Nat) (un : Bool) (a : Word) (v : Int) : Prop :=
    (a.toNat : Int) % 2 ^ n = v % 2 ^ n ∧ (range n un).1 ≤ v ∧ v ≤ (range n un).2
  let wide := [fp32, fp16, bf16]
  let narrowed := [e4m3, e5m2, e2m1]
  (elemType 1 = .int 8 ∧ elemType 2 = .int 16 ∧ elemType 3 = .int 32 ∧ elemType 4 = .float fp32 ∧ elemType 5 = .float fp16
    ∧ elemType 6 = .float bf16 ∧ elemType 7 = .float e4m3 ∧ elemType 8 = .float e5m2 ∧ elemType 9 = .float e2m1 ∧ elemType 10 = .i4x)
  ∧ (∀ (m : RoundMode) (satb un sun : Bool) (a : Word), ∀ n ∈ [8, 16, 32], ∀ sn ∈ [8, 16, 32], ∀ v, source sn sun a v →
    (∃ w, cvtOp (.int n) (.int sn) satb un sun m a = (w, false)
      ∧ ∃ r, written n un w r ∧ (satb = true → r = sat n un v) ∧ (satb = false → r % 2 ^ n = v % 2 ^ n))
    ∧ (∀ f ∈ wide, cvtOp (.float f) (.int sn) satb un sun m a = (BitVec.ofNat 32 (round f m (Num.of v 0)), false))
    ∧ ∀ f ∈ narrowed, cvtOp (.float f) (.int sn) satb un sun m a = (BitVec.ofNat 32 (narrow f (Num.of v 0)), false))
  ∧ (∀ (m : RoundMode) (satb un sun : Bool) (a : Word), ∀ sf ∈ wide ++ narrowed,
    let x := valOf sf a.toNat
    (∀ f ∈ wide, cvtOp (.float f) (.float sf) satb un sun m a = (BitVec.ofNat 32 (round f m x), false))
    ∧ (∀ f ∈ narrowed, cvtOp (.float f) (.float sf) satb un sun m a = (BitVec.ofNat 32 (narrow f x), decide (f = e2m1 ∧ x = .nan)))
    ∧ ∀ n ∈ [8, 16, 32], ∃ w, cvtOp (.int n) (.float sf) satb un sun m a = (w, false) ∧ written n un w
        (match x with
        | .nan => 0
        | .inf neg => if neg then (range n un).1 else (range n un).2
        | y => sat n un (roundInt m y)))
  ∧ (∀ (m : RoundMode) (satb un : Bool) (d a b : Word), ∀ code ∈ [1, 2, 5, 6, 7, 8, 9, 10],
    let t := elemType (BitVec.ofNat 4 code)
    let w := if code = 2 ∨ code = 5 ∨ code = 6 then 16 else if code = 9 ∨ code = 10 then 4 else 8
    let k := b.toNat % (32 / w)
    let r := pkOp t satb un m d a b
    (∀ j, j < 32 → j < w * k ∨ w * k + w ≤ j → r.1.getLsbD j = d.getLsbD j)
    ∧ (let field : Nat := r.1.toNat / 2 ^ (w * k) % 2 ^ w
      match t with
      | .int n => field = ((if satb then sat n un (if un then (a.toNat : Int) else a.toInt) else (a.toNat : Int)) % 2 ^ n).toNat ∧ r.2 = false
      | .i4x => field = ((if satb then max (-7) (min a.toInt 7) else a.toInt) % 16).toNat ∧ r.2 = false
      | .float f => field = (if f ∈ wide then round f m (valF32 a) else narrow f (valF32 a)) ∧ r.2 = decide (f = e2m1 ∧ valF32 a = .nan))
    ∧ (let field : Nat := a.toNat / 2 ^ (w * k) % 2 ^ w
      match t with
      | .int n => ∃ v : Int, written n un (upkOp t un a b) v ∧ v % 2 ^ n = field
      | .i4x => upkOp t un a b = round32 .rne (i4xValue (a.toNat / 2 ^ (8 * (k / 2)) % 256) (k % 2 == 1))
      | .float f => upkOp t un a b = round32 .rne (valOf f field)))
  ∧ ∀ (type : BitVec 4) (a b : Word), ∀ f, (type = 0 ∨ type = 4 → f = fp32) → (type = 6 → f = bf16) → (type = 7 → f = e4m3) →
    (type = 8 → f = e5m2) → type = 0 ∨ type = 4 ∨ type = 6 ∨ type = 7 ∨ type = 8 →
    let x := valOf f a.toNat
    (∀ k e, x = .fin k e → ∃ (q r : Int),
        alnbExpOp type a = BitVec.ofInt 32 q ∧ (let mag : Dyadic := Dyadic.ofIntWithPrec k.natAbs (-e)
          Dyadic.ofIntWithPrec 1 (-q) ≤ mag ∧ mag < Dyadic.ofIntWithPrec 1 (-(q + 1)))
        ∧ alnbQOp type a b = BitVec.ofInt 32 (max (-127) (min r 127)) ∧ r = roundInt .rne (.fin k (e + (6 - b.toInt))))
    ∧ ((∀ k e, x ≠ .fin k e) → alnbExpOp type a = 0x80000000 ∧ alnbQOp type a b = 0))
  ∧ (
  (∀ f : RF,
    let wide : Shape := { guard := f.g, srcs := [.pair f.a f.bta], dsts := [.pair f.d] }
    let constant (m : Team) (k : Nat) : Word := m.consts.getD k 0
    (f.var ≠ 1 → Computes1 (.mov f) f fun a => a)
    ∧ (f.var = 1 → Executes (.mov f) wide fun _ _ _ _ vs => writePair f.d (arg64 vs 0))
    ∧ (f.var ≠ 1 → Executes (.movc f) (shape1 f) fun _ _ m _ vs => writeDst f.d (constant m ((arg vs 0).toNat % 16)))
    ∧ (f.var = 1 → Executes (.movc f) { guard := f.g, srcs := [srcA f], dsts := [.pair f.d] } fun _ _ m _ vs =>
        let k := 2 * ((arg vs 0).toNat % 8)
        writePair f.d (constant m (k + 1) ++ constant m k))
    ∧ (f.var ≠ 1 → Executes (.movs f) { guard := f.g, dsts := [.one f.d] } fun s t m x _ =>
        writeDst f.d ((special s t m x (f.a.toNat % 16)).truncate 32))
    ∧ (f.var = 1 → Executes (.movs f) { guard := f.g, dsts := [.pair f.d] } fun s t m x _ =>
        writePair f.d (special s t m x (f.a.toNat % 16))))
  ∧ ∀ f : IF,
    Executes (.movi f) { guard := f.g, dsts := [.one f.d] } (fun _ _ _ _ _ => writeDst f.d f.imm)
    ∧ Executes (.movh f) { guard := f.g, srcs := [.one f.a false], dsts := [.pair f.d] } fun _ _ _ _ vs =>
        writePair f.d (f.imm ++ arg vs 0))
  ∧ (
  ∀ (s : State) (t : ThreadId) (m : Team) (x : Thread),
  let v (sel : Nat) : DWord := special s t m x sel
  v 0 = BitVec.ofNat 64 t.t ∧ v 1 = BitVec.ofNat 64 m.size ∧ v 2 = BitVec.ofNat 64 m.x ∧ v 3 = BitVec.ofNat 64 m.y
  ∧ v 4 = BitVec.ofNat 64 m.z ∧ (∀ r, m.roleOf t.t = some r → v 5 = BitVec.ofNat 64 r.kind)
  ∧ v 6 = BitVec.ofNat 64 (m.core.die * 256 + m.core.num) ∧ v 7 = BitVec.ofNat 64 x.depth
  ∧ v 8 = BitVec.ofNat 64 (s.dtimeAt m.core) ∧ v 9 = (s.core m.core).ltime.zeroExtend 64 ∧ v 10 = BitVec.ofNat 64 m.lid)
  ∧ (
  (∀ f : RF,
    let value (x : Thread) (b : Byte) : Bool := x.pred (b.toNat % 8) != b.getLsbD 3
    let both (i : Instr) (op : Bool → Bool → Bool) : Prop :=
      Executes i { guard := f.g } fun _ _ _ x _ => writePred f.d (op (value x f.a) (value x f.b))
    both (.pand f) (fun a b => a && b) ∧ both (.por f) (fun a b => a || b) ∧ both (.pxor f) (fun a b => a != b)
    ∧ Executes (.pnot f) { guard := f.g } (fun _ _ _ x _ => writePred f.d (!value x f.a))
    ∧ (f.var = 0 → Executes (.pmov f) { guard := f.g, srcs := [srcA f] } fun _ _ _ _ vs => writePred f.d (arg vs 0 != 0))
    ∧ (f.var = 1 → Executes (.pmov f) { guard := f.g, dsts := [.one f.d] } fun _ _ _ x _ =>
        writeDst f.d (if value x f.a then 1 else 0))
    ∧ (f.var = 2 → Executes (.pmov f) { guard := f.g, dsts := [.one f.d] } fun _ _ _ x _ =>
        writeDst f.d (BitVec.ofNat 32 (maskOf ((List.range 8).filter x.pred))))
    ∧ (f.var = 3 → Executes (.pmov f) { guard := f.g, srcs := [srcA f] } fun _ _ _ _ vs =>
        { preds := (List.range 7).map fun k => (k + 1, (arg vs 0).getLsbD (k + 1)) }))
  ∧ ∀ (x : Thread) (n k : Nat) (v : Bool), n < 8 → k < 8 →
      (x.setPred n v).pred k = if k = 0 then true else if k = n then v else x.pred k)

/-! Control transfer and collectives (R92 to R109) -/

/-- R51, R95: br, brx and a taken brc set the PC to their target once the target's checks have passed, raise the cause of a check that fails, and wait where the target lies in a closed range (R353); brc not taken goes on; brc and brx enter the replay signature (R392). R51, R68, R363, R370: the checks of a target: 0x00D off an 8-byte boundary; the cause of its fetch: that of its translation, and that of the error reply that the walk or the read meets, with bit 0 of TAUX1 set; 0x00C where the word is no header; each with the target in TAUX0. -/
def Obligations.BranchesReachTheirTargets : Prop :=
  (
  ∀ (s : State) (n : Nat) (g : Group) (t : ThreadId) (x : Thread) (m : Team),
  let blocked (i : Instr) (va : VAddr) : Prop :=
    (∀ c aux u, (s.resumed n).checkTarget t va = .trap c aux u → Traps i s n g t c aux u)
    ∧ ∀ u, (s.resumed n).checkTarget t va = .closed u → Waits i s n (.closed m.cn (va.toNat / 65536)) (s.resumed n)
  (∀ f : BrF, Solo s n g t x m { guard := f.g } →
    let va := g.pc + BitVec.ofInt 57 (8 * f.wofs.toInt)
    blocked (.br f) va
    ∧ ∀ u, (s.resumed n).checkTarget t va = .ok u → Commits (.br f) s n t { guard := f.g } (u.arrive t va))
  ∧ (∀ f : BrcF,
    let sh : Shape := { guard := f.g, srcs := [.one f.a f.bta, .one f.b f.btb] }
    let va := g.pc + BitVec.ofInt 57 (8 * f.wofs.toInt)
    Solo s n g t x m sh →
    let vs := s.valuesOf sh t
    (icmpOp f.cmp f.un (arg vs 0) (arg vs 1) = false →
      Commits (.brc f) s n t sh ((s.resumed n).alterThread t fun x => { x with sig := x.sig.rotateLeft 1 }))
    ∧ (icmpOp f.cmp f.un (arg vs 0) (arg vs 1) = true → blocked (.brc f) va ∧ ∀ u, (s.resumed n).checkTarget t va = .ok u →
      Commits (.brc f) s n t sh ((u.alterThread t fun x => { x with sig := x.sig.rotateLeft 1 ^^^ 1 }).arrive t va)))
  ∧ ∀ f : RF,
    let sh : Shape := { guard := f.g, srcs := [.pair f.a f.bta] }
    Solo s n g t x m sh →
    let va := (arg64 (s.valuesOf sh t) 0).truncate 57
    blocked (.brx f) va
    ∧ ∀ u, (s.resumed n).checkTarget t va = .ok u →
      Commits (.brx f) s n t sh ((u.alterThread t fun x => { x with sig := x.sig.rotateLeft 1 ^^^ va.zeroExtend 64 }).arrive t va))
  ∧ (
  ∀ (s : State) (t : ThreadId) (va : VAddr),
  let fails (c : Cause) (u : State) : Prop :=
    va.toNat % 8 = 0 → s.checkTarget t va = .trap c [va.zeroExtend 64, 1] u
  (va.toNat % 8 ≠ 0 → s.checkTarget t va = .trap 0x00D [va.zeroExtend 64] s)
  ∧ (∀ c aux u, s.fetchWord t va = .got (.fail c aux) u → aux = [va.zeroExtend 64, 1] ∧ fails c u)
  ∧ (∀ c u, s.translate (s.coreOf t).die (s.cnOf t) needFetch va = (.cause c, u) ∨
      s.translate (s.coreOf t).die (s.cnOf t) needFetch va = (.ok (.failed c), u) → fails c u)
  ∧ (∀ pa u c v, s.translate (s.coreOf t).die (s.cnOf t) needFetch va = (.ok (.hbm pa), u) →
      u.loadCached t va pa (.normal 2) (u.classFor t va) false = (.error c, v) → fails c v)
  ∧ (va.toNat % 8 = 0 → ∀ u, s.translate (s.coreOf t).die (s.cnOf t) needFetch va = (.closed, u) → s.checkTarget t va = .closed u)
  ∧ (va.toNat % 8 = 0 → ∀ w u, s.fetchWord t va = .got (.word w) u →
      ((headerOf w).cause ≠ none → s.checkTarget t va = .trap 0x00C [va.zeroExtend 64] u)
      ∧ ((headerOf w).cause = none → s.checkTarget t va = .ok u)))

/-- R95, R96, R112, R115: call and callx move the window on by 56 registers, keep NEXT as the hidden link and clear the callee's registers, and raise 0x046 at depth S and 0x044 in the last frame; ret goes back to the hidden link and moves the window back, and raises 0x04B at depth 0 and 0x045 where the caller's frame is spilled. Each raises the cause of the checks of its target where one fails (R51, R95), and waits where the target lies in a closed range (R353); ret waits first while a write is in flight to w8 to w63 of the window it leaves. -/
def Obligations.CallsAndReturnsMoveTheWindow : Prop :=
  (
  (∀ (s : State) (n : Nat) (g : Group) (t : ThreadId) (x : Thread) (m : Team),
    let blocked (i : Instr) (va : VAddr) : Prop :=
      (∀ c aux u, (s.resumed n).checkTarget t va = .trap c aux u → Traps i s n g t c aux u)
      ∧ ∀ u, (s.resumed n).checkTarget t va = .closed u → Waits i s n (.closed m.cn (va.toNat / 65536)) (s.resumed n)
    (∀ f : BrF, Solo s n g t x m { guard := f.g } →
      let va := g.pc + BitVec.ofInt 57 (8 * f.wofs.toInt)
      blocked (.call f) va ∧ ∀ u, (s.resumed n).checkTarget t va = .ok u →
        (u.callCause t = none →
          Commits (.call f) s n t { guard := f.g }
            (((u.alterThread t fun x => x.pushFrame g.clause.next).stepBlocks t).arrive t va))
        ∧ ∀ c aux, u.callCause t = some (c, aux) → Traps (.call f) s n g t c aux u)
    ∧ ∀ f : RF,
      let sh : Shape := { guard := f.g, srcs := [.pair f.a f.bta] }
      Solo s n g t x m sh →
      let va := (arg64 (s.valuesOf sh t) 0).truncate 57
      blocked (.callx f) va ∧ ∀ u, (s.resumed n).checkTarget t va = .ok u →
        (u.callCause t = none →
          Commits (.callx f) s n t sh
            ((((u.alterThread t fun x => x.pushFrame g.clause.next).alterThread t fun x =>
              { x with sig := x.sig.rotateLeft 1 ^^^ va.zeroExtend 64 }).stepBlocks t).arrive t va))
        ∧ ∀ c aux, u.callCause t = some (c, aux) → Traps (.callx f) s n g t c aux u)
  ∧ (∀ (x : Thread) (link : VAddr),
    (x.pushFrame link).depth = x.depth + 1
    ∧ (∀ r, (8 ≤ r → r < 64 → (x.pushFrame link).reg r = 0 ∧ (x.pushFrame link).full r = true)
        ∧ (r < 8 → (x.pushFrame link).reg r = x.reg (56 + r)))
    ∧ (x.pushFrame link).links.get (x.depth + 1) = link)
  ∧ ∀ (s : State) (t : ThreadId) (x : Thread) (r : Role), s.thread t = some x → s.roleOf t = some r →
    let aux : List DWord := [BitVec.ofNat 64 x.depth, BitVec.ofNat 64 x.oldest]
    (x.depth = r.s → s.callCause t = some (0x046, aux))
    ∧ (x.depth ≠ r.s → x.depth - x.oldest + 1 = (r.q - 8) / 56 → s.callCause t = some (0x044, aux))
    ∧ (x.depth ≠ r.s → x.depth - x.oldest + 1 ≠ (r.q - 8) / 56 → s.callCause t = none))
  ∧ (
  ∀ (f : RF) (s : State) (n : Nat) (g : Group) (t : ThreadId) (x : Thread) (m : Team), Solo s n g t x m { guard := f.g } →
  (x.depth = 0 → exec (.ret f) s = .next (((s.resumed n).trapAt t g.clause g.idx 0x04B []).passOn n))
  ∧ (x.depth ≠ 0 → x.oldest = x.depth →
      exec (.ret f) s = .next (((s.resumed n).trapAt t g.clause g.idx 0x045
        [BitVec.ofNat 64 x.depth, BitVec.ofNat 64 x.oldest]).passOn n))
  ∧ (x.depth ≠ 0 → x.oldest ≠ x.depth → x.fullRange 8 56 = false → Waits (.ret f) s n (.words t (x.words 8 56)) (s.resumed n))
  ∧ (x.depth ≠ 0 → x.oldest ≠ x.depth → x.fullRange 8 56 = true →
      (∀ c aux u, (s.resumed n).checkTarget t (x.links.get x.depth) = .trap c aux u → Traps (.ret f) s n g t c aux u)
      ∧ (∀ u, (s.resumed n).checkTarget t (x.links.get x.depth) = .closed u →
          Waits (.ret f) s n (.closed m.cn ((x.links.get x.depth).toNat / 65536)) (s.resumed n))
      ∧ ∀ u, (s.resumed n).checkTarget t (x.links.get x.depth) = .ok u →
        Commits (.ret f) s n t { guard := f.g }
          (((u.alterThread t fun x => { x with depth := x.depth - 1 }).stepBlocks t).arrive t (x.links.get x.depth))))

/-- R97 to R99: exit ends the thread, yield sends it to NEXT for as many clk as its source says, at most 4095, and nop does nothing else. -/
def Obligations.ExitYieldAndNop : Prop :=
  ∀ (f : RF) (s : State) (n : Nat) (g : Group) (t : ThreadId) (x : Thread) (m : Team),
  (Solo s n g t x m { guard := f.g } →
    Commits (.exit f) s n t { guard := f.g } ((s.resumed n).exitThread t)
    ∧ Commits (.nop f) s n t { guard := f.g } (s.resumed n))
  ∧ let sh : Shape := { guard := f.g, srcs := [srcA f] }
    Solo s n g t x m sh →
    Commits (.yield f) s n t sh (((s.resumed n).leaveGroup t).alterThread t fun x =>
      { x with pc := g.clause.next,
               status := .waiting ((s.core m.core).clk + min (arg (s.valuesOf sh t) 0).toNat 4095) })

/-- R101 to R103: a thread that names itself alone completes its rendezvous at once with its own values; one that names lanes still to come is held, and a mask without its own lane raises 0x049. R101, R102, R104, R106 to R109: the last lane to come completes its rendezvous: every lane that the mask names is given in D the value that the instruction makes of what all the lanes supplied, and keeps its other registers, its predicates and its other state but for its place in the clause and its time; memory stays, and the rendezvous is over. A mask that names a lane whose thread has exited raises 0x048; one that names a member of a rendezvous pending at the same PC with another mask raises 0x04A, and the pending one stays as it is. -/
def Obligations.CollectivesMeet : Prop :=
  (
  ∀ (f : RF) (s : State) (n : Nat) (g : Group) (t : ThreadId) (x : Thread) (m : Team),
  let collective (i : Instr) (srcs : List Src) (dsts : List Dst) (d : Option Byte) (b mask : Nat) (op : Combine) : Prop :=
    let sh : Shape := { guard := f.g, srcs := srcs, dsts := dsts }
    Solo s n g t x m sh →
    let vs := s.valuesOf sh t
    let r := s.resumed n
    let lane := t.t % 32
    ((arg vs mask).getLsbD lane = false → exec i s = .next ((r.trapAt t g.clause g.idx 0x049 []).passOn n))
    ∧ (r.collectiveCause t m g.pc (arg vs mask) = none →
        (arg vs mask = BitVec.ofNat 32 (2 ^ lane) → m.rendezvous = [] →
          let e : Effect := match d, op (arg vs mask) [(lane, (arg vs 0, arg vs b))] lane with
            | some d, some v => writeDst d v
            | _, _ => {}
          let joined := ((r.alterTeam t.team fun m => { m with rendezvous := [] }).joinMembers [t]).countFor t 0x0F 1
          ∀ v, joined.attemptEffect t (srcs.filterMap Src.pops) false e = .done v → Commits i s n t sh v)
        ∧ ((∃ l, l < 32 ∧ (arg vs mask).getLsbD l = true ∧ l ≠ lane) → m.rendezvous = [] →
          exec i s = .next ((((((r.alterTeam t.team fun m =>
              { m with rendezvous := [⟨g.pc, t.t / 32, arg vs mask, [(lane, (arg vs 0, arg vs b))]⟩] }).popFor t srcs).progress t).alterGroup n fun g =>
              { g with engaged := g.engaged ++ [t.t], hold := some (g.hold.getD .engaged) })).passOn n)))
  collective (.shfl f) [srcA f, srcB f, srcC f] [.one f.d] (some f.d) 1 2 (shuffle f.var)
  ∧ collective (.vote f) [srcA f, srcB f] [.one f.d] (some f.d) 0 1 (votes f.var)
  ∧ collective (.gred f) [srcA f, srcB f] [.one f.d] (some f.d) 0 1 (reduction f.var f.type f.un f.sat (roundModeOf f.rnd))
  ∧ collective (.gsync f) [srcA f] [] none 0 0 fun _ _ _ => none)
  ∧ (
  ∀ (f : RF) (s : State) (n : Nat) (g : Group) (t : ThreadId) (x : Thread) (m : Team),
  let collective (i : Instr) (srcs : List Src) (dsts : List Dst) (d : Option Nat) (b mask : Nat) (op : Combine) : Prop :=
    let sh : Shape := { guard := f.g, srcs := srcs, dsts := dsts }
    Solo s n g t x m sh → (∀ r, d = some r → r < 64) →
    let vs := s.valuesOf sh t
    let named := arg vs mask
    let lane := t.t % 32
    let member (l : Nat) : ThreadId := ⟨t.team, 32 * (t.t / 32) + l⟩
    let same (r : Rendezvous) : Bool := decide (r.pc = g.pc) && r.hg == t.t / 32 && r.mask == named
    let exited : Prop := ∃ l y, l < 32 ∧ named.getLsbD l = true ∧ s.thread (member l) = some y ∧ y.status = .exited
    let other : Prop := ∃ r l, r ∈ m.rendezvous ∧ r.pc = g.pc ∧ r.hg = t.t / 32 ∧ r.mask ≠ named
      ∧ l ∈ Table.keys r.arrived ∧ named.getLsbD l = true
    named.getLsbD lane = true →
    (exited → Traps i s n g t 0x048 [] (s.resumed n))
    ∧ (¬ exited → other → Traps i s n g t 0x04A [] (s.resumed n))
    ∧ (¬ exited → ¬ other → ∀ r, m.rendezvous.find? same = some r →
        let arrived := Table.put r.arrived lane (arg vs 0, arg vs b)
        (∀ l, l < 32 → named.getLsbD l = true → (Table.find arrived l).isSome = true) →
        ∃ u, exec i s = .next u ∧ u.mem = s.mem
          ∧ (∀ v, u.team t.team = some v → ∀ p ∈ v.rendezvous, same p = false)
          ∧ (∀ l, l < 32 → named.getLsbD l = true → ∀ y, s.thread (member l) = some y → ∃ z, u.thread (member l) = some z ∧
              let w : Thread := match d, op named arrived l with
                | some k, some v => y.fill [(56 * y.depth + k, v)]
                | _, _ => y
              z = { w with pc := z.pc, status := z.status, ts := z.ts, fence := z.fence, queues := z.queues }
              ∧ (l ≠ lane → z.queues = y.queues))
          ∧ ∀ id, (∀ l, l < 32 → named.getLsbD l = true → id ≠ member l) → ∀ y, s.thread id = some y →
              ∃ z, u.thread id = some z ∧ z = { y with pc := z.pc, status := z.status })
  collective (.shfl f) [srcA f, srcB f, srcC f] [.one f.d] (some f.d.toNat) 1 2 (shuffle f.var)
  ∧ collective (.vote f) [srcA f, srcB f] [.one f.d] (some f.d.toNat) 0 1 (votes f.var)
  ∧ collective (.gred f) [srcA f, srcB f] [.one f.d] (some f.d.toNat) 0 1 (reduction f.var f.type f.un f.sat (roundModeOf f.rnd))
  ∧ collective (.gsync f) [srcA f] [] none 0 0 fun _ _ _ => none)

/-! Global memory (R236 to R261) and field memory (R176 to R196) -/

/-- R236 to R241: an aligned ld or st whose translation succeeds executes, at a place in HBM4E, with the error reply that its walk has met (R363), and in a register window for the 4-byte forms (R222); pf writes no register and raises no cause: what it leaves is the state its prefetch leaves, in which memory and every register are as before, and it waits for a closed range (R353). -/
def Obligations.LoadsAndStoresExecute : Prop :=
  (
  ∀ (f : MF) (s : State) (n : Nat) (g : Group) (t : ThreadId) (x : Thread) (m : Team),
  let size := accessSize f.sz.toNat
  let dst : Dst := if f.sz.toNat < 5 then .one f.data else .regs f.data.toNat (size / 4)
  let src : Src := if f.sz.toNat < 5 then .one f.data false else .regs f.data.toNat (size / 4)
  let load : Shape := { guard := f.g, srcs := [.pair f.base false], dsts := [dst], inS := true }
  let store : Shape := { guard := f.g, srcs := [.pair f.base false, src], inS := true }
  (Solo s n g t x m load →
    let va : VAddr := (arg64 (s.valuesOf load t) 0 + f.ofs.signExtend 64).truncate 57
    va.toNat % size = 0 → ∀ p u, (s.resumed n).translate m.core.die m.cn (needLoad size) va = (.ok p, u) →
    (∀ pa, p = .hbm pa → Commits (.ld f) s n t load
      (u.issueLoad t va (.ok pa) size (cacheUse f) (x.loadDest f.data f.sz.toNat) (loadValues f.sz.toNat) none))
    ∧ (∀ c, p = .failed c → Commits (.ld f) s n t load
      (u.issueLoad t va (.error c) size (cacheUse f) (x.loadDest f.data f.sz.toNat) (loadValues f.sz.toNat) none))
    ∧ ∀ d off, p = .window d off →
      Commits (.ld f) s n t load (u.issueWindowLoad t va d off (x.loadDest f.data f.sz.toNat)))
  ∧ (Solo s n g t x m store →
    let vs := s.valuesOf store t
    let va : VAddr := (arg64 vs 0 + f.ofs.signExtend 64).truncate 57
    va.toNat % size = 0 → ∀ p u, (s.resumed n).translate m.core.die m.cn (needStore size) va = (.ok p, u) →
    (∀ pa, p = .hbm pa → Commits (.st f) s n t store
      (u.issueStore t va (.ok pa) (x.storeData f.data f.sz.toNat (arg vs 1)) (cacheUse f) g.pc))
    ∧ (∀ c, p = .failed c → Commits (.st f) s n t store
      (u.issueStore t va (.error c) (x.storeData f.data f.sz.toNat (arg vs 1)) (cacheUse f) g.pc))
    ∧ ∀ d off, p = .window d off →
      Commits (.st f) s n t store ((u.place.fenceHere t).writeWindow m.core d off (arg vs 1))))
  ∧ (
  ∀ (f : MF) (s : State) (n : Nat) (g : Group) (t : ThreadId) (x : Thread) (m : Team),
  let sh : Shape := { guard := f.g, srcs := [.pair f.base false] }
  Solo s n g t x m sh →
  let va : VAddr := (arg64 (s.valuesOf sh t) 0 + f.ofs.signExtend 64).truncate 57
  (∀ u, (s.resumed n).translate m.core.die m.cn needRead va = (.closed, u) →
    Waits (.pf f) s n (.closed m.cn (va.toNat / 65536)) (s.resumed n))
  ∧ (((s.resumed n).translate m.core.die m.cn needRead va).1 ≠ .closed →
    ∃ u, Commits (.pf f) s n t sh u ∧ u.mem = s.mem ∧ u.threads = s.threads ∧ u.seq = s.seq ∧ u.accesses = s.accesses))

/-- R222, R237, R259: a misaligned ld, st, atom or red raises 0x080, and one whose translation fails the cause of its translation, each with the virtual address in TAUX0; memory is untouched. The leaf of a translation raises 0x082 where it does not permit the access, and then 0x083 where its place is neither in HBM4E without DEV nor, for an access that may reach one, a decoded register of a window in a 64 KiB page with DEV; a 4-byte load or store of a thread may reach one, an atomic, a fetch and a read or write of any other size may not. -/
def Obligations.AccessChecksRaiseTheirCauses : Prop :=
  (∀ (f : MF) (s : State) (n : Nat) (g : Group) (t : ThreadId) (x : Thread) (m : Team),
  let size := accessSize f.sz.toNat
  let dst : Dst := if f.sz.toNat < 5 then .one f.data else .regs f.data.toNat (size / 4)
  let src : Src := if f.sz.toNat < 5 then .one f.data false else .regs f.data.toNat (size / 4)
  let access (i : Instr) (sh : Shape) (need : Need) : Prop :=
    Solo s n g t x m sh →
    let va : VAddr := (arg64 (s.valuesOf sh t) 0 + f.ofs.signExtend 64).truncate 57
    (va.toNat % size ≠ 0 → exec i s = .next (((s.resumed n).trapAt t g.clause g.idx 0x080 [va.zeroExtend 64]).passOn n))
    ∧ (va.toNat % size = 0 → ∀ c u, (s.resumed n).translate m.core.die m.cn need va = (.cause c, u) →
        exec i s = .next ((u.trapAt t g.clause g.idx c [va.zeroExtend 64]).passOn n) ∧ u.mem = s.mem)
  let w := size / 4
  let data : List Src := if f.data.toNat < 0x40 then [.regs f.data.toNat (if f.ctl = 0xA then 2 * w else w)] else []
  access (.ld f) { guard := f.g, srcs := [.pair f.base false], dsts := [dst], inS := true } (needLoad size)
  ∧ access (.st f) { guard := f.g, srcs := [.pair f.base false, src], inS := true } (needStore size)
  ∧ access (.atom f) { guard := f.g, srcs := .pair f.base false :: data, dsts := if f.data.toNat < 0x40 then [.regs f.data.toNat w] else [], inS := true } needAtomic
  ∧ access (.red f) { guard := f.g, srcs := [.pair f.base false, if size = 8 then .pair f.data false else .one f.data false], inS := true } needAtomic)
  ∧ (∀ (s : State) (cn : Nat) (need : Need) (e : DWord) (addr log : Nat) (va : VAddr),
    let pa := leafAddr e log va
    let permits := (need.r = true → e.getLsbD 4 = true) ∧ (need.w = true → e.getLsbD 5 = true) ∧ (need.x = true → e.getLsbD 6 = true)
    let reached := if pa < 2 ^ 40 then e.getLsbD 7 = false else
      ∃ d off, windowOf pa = some (d, off) ∧ e.getLsbD 7 = true ∧ log = 16 ∧ need.window = true ∧ decodedCsr d (off / 8) = true
    (¬ permits → leafCheck s cn need e addr log va = .cause 0x082)
    ∧ (permits → ¬ reached → leafCheck s cn need e addr log va = .cause 0x083))
  ∧ (∀ size, (needLoad size).window = decide (size = 4) ∧ (needStore size).window = decide (size = 4))
  ∧ needAtomic.window = false ∧ needFetch.window = false ∧ needRead.window = false ∧ needWrite.window = false

/-- R195, R257 to R261: an aligned atom or red executes, at a place in HBM4E as one read-modify-write, whose old value atom sends to DATA, or with the error reply that its walk has met. Its bytes become the new value of the bytes that stood there, which are those of memory where no engine write to them has landed for some threads alone; every other byte stays as it was, and the reply carries the old value to its registers, empty until then. The new word of each operation: add, the orders signed and unsigned, and, or, xor, exchange, compare and swap. -/
def Obligations.AtomicsExecute : Prop :=
  (
  ∀ (f : MF) (s : State) (n : Nat) (g : Group) (t : ThreadId) (x : Thread) (m : Team),
  let size := accessSize f.sz.toNat
  let w := size / 4
  let r := f.data.toNat
  let cas := f.ctl = 0xA
  let atomShape : Shape :=
    { guard := f.g
      srcs := .pair f.base false :: (if r < 0x40 then [.regs r (if cas then 2 * w else w)] else [])
      dsts := if r < 0x40 then [.regs r w] else []
      inS := true }
  let redShape : Shape :=
    { guard := f.g, srcs := [.pair f.base false, if size = 8 then .pair f.data false else .one f.data false], inS := true }
  (Solo s n g t x m atomShape →
    let va : VAddr := (arg64 (s.valuesOf atomShape t) 0 + f.ofs.signExtend 64).truncate 57
    let value (k : Nat) : Nat := if r < 0x40 then (if w = 1 then (x.reg k).toNat else (x.pair k).toNat) else 0
    va.toNat % size = 0 → ∀ p u, (s.resumed n).translate m.core.die m.cn needAtomic va = (.ok p, u) →
      let issued (p : Place) : State :=
        u.issueAtomic t va p size f.ctl.toNat (value r) (value (r + w)) (if r < 0x40 then x.words r w else [])
      (∀ pa, p = .hbm pa → Commits (.atom f) s n t atomShape (issued (.ok pa)))
      ∧ ∀ c, p = .failed c → Commits (.atom f) s n t atomShape (issued (.error c)))
  ∧ (Solo s n g t x m redShape →
    let vs := s.valuesOf redShape t
    let va : VAddr := (arg64 vs 0 + f.ofs.signExtend 64).truncate 57
    va.toNat % size = 0 → ∀ p u, (s.resumed n).translate m.core.die m.cn needAtomic va = (.ok p, u) →
      let issued (p : Place) : State := u.issueAtomic t va p size f.ctl.toNat (arg64 vs 1).toNat 0 []
      (∀ pa, p = .hbm pa → Commits (.red f) s n t redShape (issued (.ok pa)))
      ∧ ∀ c, p = .failed c → Commits (.red f) s n t redShape (issued (.error c))))
  ∧ (
  ∀ (s : State) (t : ThreadId) (x : Thread) (va : VAddr) (pa n op v cmp : Nat) (dest : List Nat),
  n = 4 ∨ n = 8 → s.thread t = some x → s.errorAt pa = none → s.replay = none →
  let old : Nat := (s.place.settle pa n).mem.num pa n
  let new : DWord := if n = 4 then (atomicNew op (BitVec.ofNat 32 old) (BitVec.ofNat 32 v) (BitVec.ofNat 32 cmp)).zeroExtend 64
    else atomicNew op (BitVec.ofNat 64 old) (BitVec.ofNat 64 v) (BitVec.ofNat 64 cmp)
  let u := s.issueAtomic t va (.ok pa) n op v cmp dest
  (∀ k, k < n → u.byte (pa + k) = byteOf new k)
  ∧ (∀ a, a < pa ∨ pa + n ≤ a → u.byte a = s.byte a)
  ∧ ((∀ e ∈ s.commands, ∀ w ∈ e.2.writes, pa ≤ w.pa → w.pa < pa + n → w.lands = []) → old = s.mem.num pa n)
  ∧ (dest ≠ [] → ∃ y k a, u.thread t = some y ∧ y.regs = x.regs ∧ y.preds = x.preds ∧ y.empties = NatSet.addAll x.empties dest
      ∧ Table.find u.accesses k = some a ∧ a.t = t ∧ a.err = none ∧ a.words = splitWords dest (BitVec.ofNat 64 old)))
  ∧ (
  (∀ (old v cmp : Word), atomicNew 1 old v cmp = round32 .rne (addNum .rne (valF32 old) (valF32 v)))
  ∧ ∀ (w : Nat) (old v cmp : BitVec w), 0 < w →
    atomicNew 0 old v cmp = BitVec.ofNat w (old.toNat + v.toNat)
    ∧ (atomicNew 2 old v cmp).toInt = min old.toInt v.toInt ∧ (atomicNew 3 old v cmp).toNat = min old.toNat v.toNat
    ∧ (atomicNew 4 old v cmp).toInt = max old.toInt v.toInt ∧ (atomicNew 5 old v cmp).toNat = max old.toNat v.toNat
    ∧ atomicNew 6 old v cmp = old &&& v ∧ atomicNew 7 old v cmp = old ||| v ∧ atomicNew 8 old v cmp = old ^^^ v
    ∧ atomicNew 9 old v cmp = v ∧ atomicNew 10 old v cmp = if old = cmp then v else old)

/-- R238, R244: a store of a thread outside a replay session puts its bytes at its address, in order, and leaves every other byte of memory as it was; a store keeps the canonical form of memory. -/
def Obligations.StoreChangesOnlyItsBytes : Prop :=
  ∀ (s : State) (t : ThreadId) (va : VAddr) (pa : Nat) (bs : List Byte) (u : CacheUse),
    let v := s.storeBytes t va pa bs u
    (Memory.wf s.mem = true → Memory.wf v.mem = true)
    ∧ (s.replay = none →
      (∀ k, k < bs.length → v.byte (pa + k) = bs.getD k 0)
      ∧ ∀ a, a < pa ∨ pa + bs.length ≤ a → v.byte a = s.byte a)

/-- R119, R238: a load without an error reply leaves memory as it is, marks its destination registers empty and sends itself one reply, with the values of the bytes it read. Those are, where no engine write to them has landed for its thread, memory's bytes of its address: for a .vol load, and for one whose sector stands in neither L1 nor the L2 of its die; and for one that a copy in L1 may serve, the bytes of the place of S that the copy stands for (R225, R243 to R245). A byte with such a write is the byte that it wrote (R253). R90, R121, R156, R238, R241, R392: a reply writes its values and fills its registers, an atomic's result also enters the signature, and an error reply raises its cause in its thread as a deferred cause; a thread that has exited is written nothing; neither moves a thread's PC. It waits for the next clk only where a generation that it steps has been read by a check of this one. -/
def Obligations.LoadsReplyIntoTheirRegisters : Prop :=
  (
  ∀ (s : State) (t : ThreadId) (x : Thread) (va : VAddr) (pa n : Nat) (u : Option CacheUse) (dest : List Nat)
    (values : List Byte → List Word), s.thread t = some x → (s.loadBytes t va pa n u).2.1 = none →
    let bytes := (s.loadBytes t va pa n u).1
    let v := s.issueLoad t va (.ok pa) n u dest values none
    (dest ≠ [] →
      v.mem = s.mem
      ∧ (∃ y, v.thread t = some y ∧ y.regs = x.regs ∧ y.preds = x.preds ∧ y.empties = NatSet.addAll x.empties dest)
      ∧ (∀ id, id ≠ t → v.thread id = s.thread id)
      ∧ ∃ a, v.accesses = Table.put s.accesses s.fresh a ∧ a.t = t ∧ a.err = none ∧ a.words = dest.zip (values bytes))
    ∧ bytes.length = n
    ∧ ∀ k, k < n →
      let seen (a : Nat) (b : Byte) : Byte := (s.overlay t (s.seq + 1) a).getD b
      let held := copyIn (s.core (s.coreOf t)).l1 pa
      let from_ := max x.lastWrite (s.gaveAt pa)
      (∀ a, (∀ e ∈ s.commands, ∀ w ∈ e.2.writes, w.pa = a → w.lands = []) → s.overlay t (s.seq + 1) a = none)
      ∧ (u = none ∨ (held = none ∧ s.nearCopy (s.coreOf t).die pa = none ∧ ∀ h ∈ s.hist, h.1 ≤ s.seq + 1) →
          bytes.getD k 0 = seen (pa + k) (s.byte (pa + k)))
      ∧ (u ≠ none → ∀ y, held = some y → y.serves (s.coreOf t) (s.core (s.coreOf t)).ltime x.ts from_ = true →
          bytes.getD k 0 = seen (pa + k) (s.byteAt y.shown (pa + k)))
      ∧ ((∀ h ∈ s.hist, h.2.1 = pa + k → h.1 ≤ s.seq) → s.byteAt s.seq (pa + k) = s.byte (pa + k)))
  ∧ (
  ∀ (s : State) (k : Nat) (a : Access) (x : Thread), Table.find s.accesses k = some a → s.thread a.t = some x →
    let reaches (i : Instr) (y : Thread) : Prop := ∃ u, exec i s = .next (s.orLater u)
      ∧ ((∀ e ∈ s.cores, e.2.checked = []) → exec i s = .next u)
      ∧ u.thread a.t = some y ∧ (∀ id, id ≠ a.t → u.thread id = s.thread id) ∧ Table.find u.accesses k = none ∧ u.mem = s.mem
    let y : Thread := if a.atomic = true ∧ a.words ≠ [] then
        { x.fill a.words with sig := x.sig.rotateLeft 1 ^^^ a.value } else x.fill a.words
    (x.gone = false → a.err = none → reaches (.loadReply k) y)
    ∧ (x.gone = false → ∀ c, a.err = some c →
        reaches (.errorReply k) { y with deferred := x.deferred ++ [⟨c, a.pc, errorAux a.va a.pa⟩] })
    ∧ (x.gone = true → a.err = none → reaches (.loadReply k) x))

/-- R119, R182, R184, R186, R192 to R196: a field instruction at an aligned address of an array in the field role of its team: where a storage request is pending there, and where its words do not meet its mode, its thread joins the waiters of the array as the last in the order of issue, with the registers of fld and fatom empty from then on; otherwise it performs its access: the plain and the synchronised forms, a load of an array in compute mode, which waits to be served, the atomics and the full/empty operations. The walks of the waiters follow the instruction. R179, R184, R192: the checks of a field access in their order: 0x106 off its size, 0x107 outside the team's field role, 0x108 a change of an array in compute mode; the instruction does nothing else. -/
def Obligations.FieldInstructionsExecute : Prop :=
  (
  ∀ (f : MF) (s : State) (n : Nat) (g : Group) (t : ThreadId) (x : Thread) (m : Team),
  let size := fieldSize f.sz
  let mode := fieldMode f.sz
  let r := s.resumed n
  let p := r.fieldPlace t
  let acts (i : Instr) (sh : Shape) (size : Nat) (change : Bool) (access : List DWord → Waiter) (empty : List Nat)
      (done : Nat → Nat → List DWord → State) : Prop :=
    Solo s n g t x m sh →
    let vs := s.valuesOf sh t
    let addr := (arg vs 0 + f.ofs.signExtend 32).toNat
    let a := addr / 16384
    let ar := s.array m.core a
    let w : Waiter := { access vs with t := t, off := addr % 16384, size := size }
    let joins (req : Option Nat) : State := ((r.alterArray m.core a fun y =>
      { y with waiters := y.waiters ++ [{ w with n := r.newId, req := req }] }).alterThread t fun y => y.markEmpty empty).bump
    addr % size = 0 → m.inField a = true → (change = true → ar.sees = false) →
    (∀ q, ar.storagePending = some q → Parks i s n g t sh (joins (some q)))
    ∧ (ar.storagePending = none →
      (w.mode ≠ 0 → ar.meets w = false → Parks i s n g t sh ((joins none).countFor t 0x0D 1))
      ∧ (w.mode = 0 ∨ ar.meets w = true → Walks i s n g t sh (done a (addr % 16384) vs)))
  let num (a off k : Nat) : Nat := (s.array m.core a).cells.num off k
  let words := x.loadWords f.data size
  let loadShape : Shape := { guard := f.g, srcs := [.one f.base false], dsts := loadDst f.data size, inS := true }
  let storeShape : Shape :=
    { guard := f.g, srcs := [.one f.base false, if size = 8 then .pair f.data false else .one f.data false], inS := true }
  let bitShape : Shape := { guard := f.g, srcs := [.one f.base false], inS := true }
  let testShape : Shape := { bitShape with dsts := [.one f.data] }
  let atomShape : Shape :=
    { guard := f.g
      srcs := .one f.base false :: (if f.data.toNat < 0x40 then [.regs f.data.toNat (if f.ctl = 0xA then 2 else 1)] else [])
      dsts := loadDst f.data 4, inS := true }
  let v : Word := if f.data.toNat < 0x40 then x.reg f.data.toNat else 0
  let cmp : Word := x.reg (f.data.toNat + 1)
  acts (.fld f) loadShape size (mode == 2) (fun _ => fieldAccess .load mode 0 words) words (fun a off _ =>
    let value : DWord := BitVec.ofNat 64 (num a off size)
    if mode = 2 then
      (p.loadInFlight t words value false).setWords m.core a (if size = 8 then [off / 4, off / 4 + 1] else [off / 4]) false
    else if (s.array m.core a).sees then
      ((p.alterThread t fun y => y.markEmpty words).alterArray m.core a fun ar =>
        { ar with loads := ar.loads ++ [⟨s.newId, t, words, value⟩] }).bump
    else p.loadInFlight t words value false)
  ∧ acts (.fst f) storeShape size true (fun vs => fieldAccess .store mode (arg64 vs 1) []) [] (fun a off vs =>
    p.writeCells m.core a off (bytesOf (arg64 vs 1) size))
  ∧ acts (.fatom f) atomShape 4 true (fun _ => fieldAccess (.atomic f.ctl.toNat cmp) 0 (v.zeroExtend 64) (x.loadWords f.data 4))
      (x.loadWords f.data 4) (fun a off _ =>
    let old : Word := BitVec.ofNat 32 (num a off 4)
    let w := (p.keepCells m.core a off 4).alterArray m.core a fun ar =>
      { ar with cells := ar.cells.setList off (bytesOf (atomicNew f.ctl.toNat old v cmp) 4) }
    (w.stepGens m.core (halvesOf a off 4)).loadInFlight t (x.loadWords f.data 4) (old.zeroExtend 64) true)
  ∧ acts (.feset f) bitShape 4 true (fun _ => fieldAccess (.put true) 0 0 []) [] (fun a off _ => p.setWords m.core a [off / 4] true)
  ∧ acts (.feclr f) bitShape 4 true (fun _ => fieldAccess (.put false) 0 0 []) [] (fun a off _ => p.setWords m.core a [off / 4] false)
  ∧ acts (.fetest f) testShape 4 false (fun _ => fieldAccess .test 0 0 [x.word f.data.toNat]) [] (fun a off _ =>
    p.fillWords t [(x.word f.data.toNat, if (s.array m.core a).full (off / 4) then 1 else 0)]))
  ∧ (
  ∀ (f : MF) (s : State) (n : Nat) (g : Group) (t : ThreadId) (x : Thread) (m : Team),
  let checks (i : Instr) (sh : Shape) (size : Nat) (change : Bool) : Prop :=
    Solo s n g t x m sh →
    let addr := (arg (s.valuesOf sh t) 0 + f.ofs.signExtend 32).toNat
    let a := addr / 16384
    let traps (c : Cause) : Prop := exec i s = .next ((((s.resumed n).trapAt t g.clause g.idx c []).passOn n).walkCore g.core)
    (addr % size ≠ 0 → traps 0x106)
    ∧ (addr % size = 0 → m.inField a = false → traps 0x107)
    ∧ (addr % size = 0 → m.inField a = true → change = true → (s.array m.core a).sees = true → traps 0x108)
  let size := fieldSize f.sz
  let bit : Shape := { guard := f.g, srcs := [.one f.base false], inS := true }
  let store : Shape :=
    { guard := f.g, srcs := [.one f.base false, if size = 8 then .pair f.data false else .one f.data false], inS := true }
  let atomic : Shape :=
    { guard := f.g
      srcs := .one f.base false :: (if f.data.toNat < 0x40 then [.regs f.data.toNat (if f.ctl = 0xA then 2 else 1)] else [])
      dsts := loadDst f.data 4, inS := true }
  checks (.fld f) { bit with dsts := loadDst f.data size } size (fieldMode f.sz == 2)
  ∧ checks (.fst f) store size true ∧ checks (.fatom f) atomic 4 true
  ∧ checks (.feset f) bit 4 true ∧ checks (.feclr f) bit 4 true ∧ checks (.fetest f) { bit with dsts := [.one f.data] } 4 false)

/-! Scale registers (R152 to R175) -/

/-- R158, R166 to R168: the slice instructions act on bytes 8L to 8L + 7 of their registers, where every name lies in the allotment and no write is in flight; the register written loses its tag, which kmov carries along when ACTIVE holds all 32 lanes. R152, R166: a write of `n` bytes of a scale register changes those bytes of that register, in order, and no other. R153: a name outside the allotment raises 0x103 in a slice instruction. -/
def Obligations.ScaleSliceInstructionsExecute : Prop :=
  (
  ∀ (f : KF) (s : State) (n : Nat) (g : Group) (t : ThreadId) (x : Thread) (m : Team),
  let c := m.core
  let k (name : BitVec 6) : Nat := m.kBase + name.toNat
  let named (name : BitVec 6) : Prop := name.toNat < m.nk ∧ s.kInFlight c (k name) = false
  let byte (name : BitVec 6) (b : Nat) : Byte := s.kbyte c (k name) (8 * (t.t % 32) + b)
  let r := s.resumed n
  let plain : Shape := { guard := f.g }
  let two (i : Instr) (op : Byte → Byte → Byte) : Prop :=
    Solo s n g t x m plain → named f.k1 → named f.k2 → named f.k3 →
    Commits i s n t plain ((r.writeSlice c (k f.k1) t fun b =>
      if byte f.k2 b = 0xFF ∨ byte f.k3 b = 0xFF then 0xFF else op (byte f.k2 b) (byte f.k3 b)).setTag c (k f.k1) none)
  (Solo s n g t x m plain → named f.k1 → named f.k2 →
    Commits (.kmov f) s n t plain ((r.writeSlice c (k f.k1) t (byte f.k2)).setTag c (k f.k1)
      (if r.allLanes t f.g then s.tagOf c (k f.k2) else none))
    ∧ Commits (.krcp f) s n t plain ((r.writeSlice c (k f.k1) t fun b => e5m3Rcp (byte f.k2 b)).setTag c (k f.k1) none))
  ∧ (let sh : Shape := { guard := f.g, srcs := [if f.var = 0 then .pair f.oa f.bta else .one f.oa f.bta] }
    Solo s n g t x m sh → named f.k1 →
    Commits (.kset f) s n t sh ((r.writeSlice c (k f.k1) t fun b =>
      byteOf (arg64 (s.valuesOf sh t) 0) (if f.var = 0 then b else 0)).setTag c (k f.k1) none))
  ∧ two (.kmul f) (fun a b => e5m3 (mulNum (e5m3v a) (e5m3v b)))
  ∧ two (.kmax f) (fun a b => if a.toNat < b.toNat then b else a)
  ∧ two (.kmin f) (fun a b => if b.toNat < a.toNat then b else a)
  ∧ (let sh : Shape :=
      { guard := f.g, srcs := [.one 0x58 false, .one f.ob f.btb], dsts := [.one f.oa] }
    Solo s n g t x m sh → named f.k2 →
    let v := s.kbyte c (k f.k2) ((arg (s.valuesOf sh t) 1).toNat % 256)
    ∀ u, r.attemptEffect t (sh.srcs.filterMap Src.pops) false (writeDst f.oa (scaleF32 v)) = .done u →
      Commits (.kcvtf f) s n t sh u)
  ∧ (let sh : Shape := { guard := f.g, srcs := [.one f.oa f.bta, .one f.ob f.btb] }
    Solo s n g t x m sh → named f.k1 →
    let vs := s.valuesOf sh t
    Commits (.kcvtk f) s n t sh
      ((r.writeKreg c (k f.k1) ((arg vs 1).toNat % 256) [e5m3 (valF32 (arg vs 0))]).setTag c (k f.k1) none)))
  ∧ (
  ∀ (s : State) (c : CoreId) (k at_ : Nat) (bs : List Byte), at_ + bs.length ≤ 256 →
    let u := s.writeKreg c k at_ bs
    (∀ j, j < bs.length → u.kbyte c k (at_ + j) = bs.getD j 0)
    ∧ (∀ k' b, b < 256 → k' ≠ k ∨ b < at_ ∨ at_ + bs.length ≤ b → u.kbyte c k' b = s.kbyte c k' b)
    ∧ u.mem = s.mem ∧ u.threads = s.threads)
  ∧ (
  ∀ (f : KF) (s : State) (n : Nat) (g : Group) (t : ThreadId) (x : Thread) (m : Team), Solo s n g t x m { guard := f.g } →
    let trapped : State := ((s.resumed n).trapAt t g.clause g.idx 0x103 []).passOn n
    (m.nk ≤ f.k1.toNat ∨ m.nk ≤ f.k2.toNat → exec (.kmov f) s = .next trapped ∧ exec (.krcp f) s = .next trapped)
    ∧ (m.nk ≤ f.k1.toNat ∨ m.nk ≤ f.k2.toNat ∨ m.nk ≤ f.k3.toNat →
      exec (.kmul f) s = .next trapped ∧ exec (.kmax f) s = .next trapped ∧ exec (.kmin f) s = .next trapped))

/-- R169 to R171: the instructions on a whole register: kclr, kbind with a valid object, and ktag. -/
def Obligations.WholeScaleRegisterInstructionsExecute : Prop :=
  ∀ (f : KF) (s : State) (n : Nat) (g : Group) (t : ThreadId) (x : Thread) (m : Team),
  let c := m.core
  let k (name : Nat) : Nat := m.kBase + name
  let r := s.resumed n
  let plain : Shape := { guard := f.g }
  (Solo s n g t x m plain → f.k1.toNat < m.nk → s.kInFlight c (k f.k1.toNat) = false →
    Commits (.kclr f) s n t plain
      (((r.writeKreg c (k f.k1.toNat) 0 (List.replicate 256 0)).setTag c (k f.k1.toNat) none).applyEffect t {}))
  ∧ (Solo s n g t x m plain → f.var = 0 → f.k1.toNat < m.nk →
    Commits (.kbind f) s n t plain ((r.setTag c (k f.k1.toNat) none).applyEffect t {}))
  ∧ (let sh : Shape := { guard := f.g, srcs := [.one f.oa f.bta] }
    Solo s n g t x m plain → s.blockOf sh t = none → f.var ≠ 0 →
    let name := if f.var = 1 then f.k1.toNat + m.scaleGroup t.t else f.k1.toNat
    name < m.nk →
    ∀ o, bindObject m f.var.toNat (t.t / 32) (arg (s.valuesOf sh t) 0) = some o →
      Commits (.kbind f) s n t sh (((r.noteChecked c [o]).setTag c (k name) (some ⟨o, s.gen c o⟩)).applyEffect t {}))
  ∧ (let sh : Shape := { guard := f.g, dsts := [.one f.oa] }
    Solo s n g t x m sh → f.k2.toNat < m.nk → s.kInFlight c (k f.k2.toNat) = false →
    let tag := s.tagOf c (k f.k2.toNat)
    let live : Bool := match tag with
      | some b => s.gen c b.obj == b.gen
      | none => false
    ∀ u, r.attemptEffect t [] false (writeDst f.oa (if f.var = 0 then tagBits m tag else if live then 1 else 0)) = .done u →
      Commits (.ktag f) s n t plain u)

/-- R172 to R175, R222: kld, kst and ldmx execute at aligned addresses whose translations succeed, with the error reply that a walk has met; the four scale bytes of an .s4 ldmx may stand in a register window (R222); ldmx tags its scale register with its destination block. R153, R166, R171 to R174: a name outside the allotment raises 0x103 in kld, kst, ldmx, kclr, kbind and ktag; an address off its boundary raises 0x080 in kld and kst and 0x105 in ldmx, and an address whose translation fails raises its cause, each with the address; a value of kbind that names no object of the team raises 0x104. None has another effect than what its walk leaves in the caches. That 0x103 goes before the address causes in kld and kst is the model's choice (log 21). -/
def Obligations.ScaleMemoryInstructionsExecute : Prop :=
  (
  ∀ (s : State) (n : Nat) (g : Group) (t : ThreadId) (x : Thread) (m : Team),
  let r := s.resumed n
  let c := m.core
  (∀ f : MF,
    let sh : Shape := { guard := f.g, srcs := [.pair f.base false], inS := true }
    Solo s n g t x m sh → f.data.toNat < m.nk →
    let k := m.kBase + f.data.toNat
    let va : VAddr := (arg64 (s.valuesOf sh t) 0 + f.ofs.signExtend 64).truncate 57
    va.toNat % 8 = 0 →
    let ends (i : Instr) (issued : Place → State → State) (p : Target) (u : State) : Prop :=
      (∀ pa, p = .hbm pa → Commits i s n t sh (issued (.ok pa) u))
      ∧ ∀ e, p = .failed e → Commits i s n t sh (issued (.error e) u)
    (∀ p u, r.translate c.die m.cn needRead va = (.ok p, u) →
      ends (.kld f) (fun q v => (v.setTag c k none).issueScaleLoad t va q 8 (cacheUse f) k (8 * (t.t % 32))) p u)
    ∧ (s.kInFlight c k = false → ∀ p u, r.translate c.die m.cn needWrite va = (.ok p, u) →
      ends (.kst f) (fun q v => v.issueStore t va q ((List.range 8).map fun b => s.kbyte c k (8 * (t.t % 32) + b)) (cacheUse f) g.pc) p u))
  ∧ ∀ f : LdmxF,
    let sh : Shape := { guard := f.g, srcs := [.pair f.dbase false, .pair f.sbase false], dsts := [.regs f.data.toNat 16], inS := true }
    Solo s n g t x m sh → f.k.toNat + m.scaleGroup t.t < m.nk →
    let k := m.kBase + (f.k.toNat + m.scaleGroup t.t)
    let u := useOf f.reuse.toNat f.cls.toNat
    let va : VAddr := (arg64 (s.valuesOf sh t) 0).truncate 57
    let sa : VAddr := (arg64 (s.valuesOf sh t) 1).truncate 57
    let count := if f.sc = 0 then 4 else 2
    let at_ := 4 * (t.t % 32) + if f.sc = 0 ∨ f.sc = 1 then 0 else 2
    va.toNat % 64 = 0 → sa.toNat % count = 0 →
    ∀ q e pa v, (q = .ok pa ∧ r.translate c.die m.cn needRead va = (.ok (.hbm pa), v)) ∨
        (q = .error e ∧ r.translate c.die m.cn needRead va = (.ok (.failed e), v)) →
    ∀ p w, v.translate c.die m.cn (needLoad count) sa = (.ok p, w) →
      let o : GenObject := .block (m.placeOf t.t) (f.data.toNat / 16)
      let z := (w.stepGens c [o]).noteChecked c [o]
      let y := (z.setTag c k (some ⟨o, z.gen c o⟩)).issueLoad t va q 64 u (x.words f.data.toNat 16) wordsOfBytes
        (some (f.data.toNat / 16))
      (∀ pb, p = .hbm pb → Commits (.ldmx f) s n t sh (y.issueScaleLoad t sa (.ok pb) count u k at_))
      ∧ (∀ e', p = .failed e' → Commits (.ldmx f) s n t sh (y.issueScaleLoad t sa (.error e') count u k at_))
      ∧ ∀ d off, p = .window d off → Commits (.ldmx f) s n t sh (y.issueScaleWindow t sa d off k at_))
  ∧ (
  ∀ (s : State) (n : Nat) (g : Group) (t : ThreadId) (x : Thread) (m : Team),
  let r := s.resumed n
  let c := m.core
  let plain (guard : Guard) : Shape := { guard := guard }
  (∀ f : MF,
    let sh : Shape := { guard := f.g, srcs := [.pair f.base false], inS := true }
    let va : VAddr := (arg64 (s.valuesOf sh t) 0 + f.ofs.signExtend 64).truncate 57
    let aux : List DWord := [va.zeroExtend 64]
    let access (i : Instr) (need : Need) (ready : Prop) : Prop :=
      Solo s n g t x m sh →
      (m.nk ≤ f.data.toNat → Traps i s n g t 0x103 [] r)
      ∧ (f.data.toNat < m.nk → ready → (va.toNat % 8 ≠ 0 → Traps i s n g t 0x080 aux r)
        ∧ (va.toNat % 8 = 0 → ∀ cause u, r.translate c.die m.cn need va = (.cause cause, u) → Traps i s n g t cause aux u))
    access (.kld f) needRead True
    ∧ access (.kst f) needWrite (s.kInFlight c (m.kBase + f.data.toNat) = false))
  ∧ (∀ f : LdmxF,
    let sh : Shape := { guard := f.g, srcs := [.pair f.dbase false, .pair f.sbase false], dsts := [.regs f.data.toNat 16], inS := true }
    Solo s n g t x m sh →
    let name := f.k.toNat + m.scaleGroup t.t
    let va : VAddr := (arg64 (s.valuesOf sh t) 0).truncate 57
    let sa : VAddr := (arg64 (s.valuesOf sh t) 1).truncate 57
    let count := if f.sc = 0 then 4 else 2
    (m.nk ≤ name → Traps (.ldmx f) s n g t 0x103 [] r)
    ∧ (name < m.nk →
      (va.toNat % 64 ≠ 0 ∨ sa.toNat % count ≠ 0 → Traps (.ldmx f) s n g t 0x105 [] r)
      ∧ (va.toNat % 64 = 0 → sa.toNat % count = 0 →
        (∀ cause u, r.translate c.die m.cn needRead va = (.cause cause, u) → Traps (.ldmx f) s n g t cause [va.zeroExtend 64] u)
        ∧ ∀ pa e v, r.translate c.die m.cn needRead va = (.ok (.hbm pa), v) ∨ r.translate c.die m.cn needRead va = (.ok (.failed e), v) →
          ∀ cause u, v.translate c.die m.cn (needLoad count) sa = (.cause cause, u) →
            Traps (.ldmx f) s n g t cause [sa.zeroExtend 64] u)))
  ∧ ∀ f : KF,
    (Solo s n g t x m (plain f.g) → m.nk ≤ f.k1.toNat → Traps (.kclr f) s n g t 0x103 [] r)
    ∧ (let sh : Shape := { guard := f.g, dsts := [.one f.oa] }
      Solo s n g t x m sh → m.nk ≤ f.k2.toNat → Traps (.ktag f) s n g t 0x103 [] r)
    ∧ (Solo s n g t x m (plain f.g) → f.var = 0 → m.nk ≤ f.k1.toNat → Traps (.kbind f) s n g t 0x103 [] r)
    ∧ (let sh : Shape := { guard := f.g, srcs := [.one f.oa f.bta] }
      let name := if f.var = 1 then f.k1.toNat + m.scaleGroup t.t else f.k1.toNat
      Solo s n g t x m (plain f.g) → s.blockOf sh t = none → f.var ≠ 0 →
      (m.nk ≤ name → Traps (.kbind f) s n g t 0x103 [] r)
      ∧ (name < m.nk → bindObject m f.var.toNat (t.t / 32) (arg (s.valuesOf sh t) 0) = none → Traps (.kbind f) s n g t 0x104 [] r)))

/-! The matrix unit, accumulators and arrays (R176 to R219) -/

/-- R202 to R207: an mma of a format issues when its waits have ended and its checks pass: the generations that its checks read count as read in this clk, it joins the queue of its array, and its thread goes on; a mode request no longer waits for it as issued (R184). R159, R184, R203, R206: what an mma waits for, in its order: a pending request to compute mode on its array, where it counts as issued from then on; the writes in flight to its scale registers; its A registers, where it cannot use the latch; room in its array, which holds four. Then its checks, in their order, of which the first that fails decides: 0x100 for a reserved combination, 0x103 for a scale register outside the allotment, 0x10C for an array outside the field role or in storage mode, 0x10D for another format record, 0x10E for a row outside the window, 0x101 for a stale A tag and 0x102 for a stale B tag with their auxiliary words. The instruction does nothing else. -/
def Obligations.MatrixMultiplyIssuesOrTraps : Prop :=
  (
  ∀ (f : MmaF) (s : State) (n : Nat) (g : Group) (t : ThreadId) (x : Thread) (m : Team), Solo s n g t x m { guard := f.g } →
  let r := s.resumed n
  let issues (i : Instr) (fmt : TileFormat) : Prop :=
    let o : MmaOp := ⟨fmt, f⟩
    r.mmaWait m t.team g.asked o [t.t] = none → r.mmaCheck m g.asked.isSome t.t o = none →
    exec i s = .next (((((r.noteChecked m.core [o.bObject, .block (m.placeOf t.t) f.ablk.toNat]).formMma m g o [t.t]).answerMode
      n m.core f.arr.toNat).progress t).markDone n t.t |>.passOn n)
  issues (.mmaI4x f) .i4x ∧ issues (.mmaI4 f) .i4 ∧ issues (.mmaI8 f) .i8 ∧ issues (.mmaE4m3 f) .e4m3
  ∧ issues (.mmaE5m2 f) .e5m2 ∧ issues (.mmaE2m1 f) .e2m1 ∧ issues (.mmaBf16 f) .bf16)
  ∧ (
  ∀ (f : MmaF) (s : State) (n : Nat) (g : Group) (t : ThreadId) (x : Thread) (m : Team), Solo s n g t x m { guard := f.g } →
  let r := s.resumed n
  let c := m.core
  let a := f.arr.toNat
  let ar := s.array c a
  let traps (i : Instr) (fmt : TileFormat) : Prop :=
    let o : MmaOp := ⟨fmt, f⟩
    let four : Bool := fmt == .i4x || fmt == .i4
    let reserved : Bool := f.rep == 3 || (!f.c4 && f.rep == 2) || (four && (f.half || f.ch || f.bsel)) || (f.seg && fmt != .bf16)
    let ka := m.kBase + f.ka.toNat + m.scaleGroup t.t
    let kbs := (List.range (if four then 4 else 1)).map fun k => f.kb.toNat + k
    let named := f.ka.toNat + m.scaleGroup t.t < m.nk ∧ ∀ k ∈ kbs, k < m.nk
    let latch := (Table.find (s.core c).latch (32 * m.placeOf t.t + t.t % 32)).filter fun e => e.block == f.ablk.toNat && e.format == fmt
    let asked : Option Nat := match g.asked with
      | some q => if s.requestPending c a q.req then some q.req else none
      | none => if m.inField a then ar.computePending else none
    let inFlight : Prop := s.kInFlight c ka = true ∨ ∃ k ∈ kbs, s.kInFlight c (m.kBase + k) = true
    let ready : Prop := latch.isSome = true ∨ x.fullRange (16 * f.ablk.toNat) 16 = true
    let room : Prop := m.inField a = false ∨ ar.mmas.length < 4
    let stops (cause : Cause) (aux : List DWord) : Prop := exec i s = .next ((((r.noteChecked c
      [o.bObject, .block (m.placeOf t.t) f.ablk.toNat]).trapAt t g.clause g.idx cause aux).answerMode n c a).passOn n)
    let record (h : Bool) : Option TileFormat := if h then ar.fmt1 else ar.fmt0
    let recorded : Prop := if four then record false = some fmt ∧ record true = some fmt else record f.half = some fmt
    let win := m.window (t.t / 32)
    let block : GenObject := .block (m.placeOf t.t) f.ablk.toNat
    let object : GenObject := if four then .whole a else .half a (if f.half then 1 else 0)
    let wantA : Tag := ⟨block, (latch.map Latch.gen).getD (s.gen c block)⟩
    let wantB : Tag := ⟨object, s.gen c object⟩
    let stale (k : Nat) (want : Tag) : List DWord :=
      [BitVec.ofNat 64 k, (tagBits m (s.tagOf c k)).zeroExtend 64, (tagBits m (some want)).zeroExtend 64]
    (∀ q, asked = some q → Waits i s n (.mode c a q) (r.askMode n a q))
    ∧ (asked = none → named → inFlight → ∃ h, Waits i s n h r ∧ ∃ ks, h = .kregs c ks)
    ∧ (asked = none → named → ¬ inFlight →
      (¬ ready → Waits i s n (.words t (x.words (16 * f.ablk.toNat) 16)) r)
      ∧ (ready → ¬ room → Waits i s n (.array c a) r)
      ∧ (ready → room →
        (reserved = true → stops 0x100 [])
        ∧ (reserved = false →
          (g.asked = none → m.inField a = false ∨ ar.sees = false → stops 0x10C [])
          ∧ (g.asked ≠ none ∨ (m.inField a = true ∧ ar.sees = true) →
            (¬ recorded → stops 0x10D [])
            ∧ (recorded →
              (win.2 ≤ win.1 + t.t % 32 → stops 0x10E [])
              ∧ (win.1 + t.t % 32 < win.2 →
                (s.tagOf c ka ≠ some wantA → stops 0x101 (stale ka wantA))
                ∧ (s.tagOf c ka = some wantA →
                  (∀ k, (kbs.map (m.kBase + ·)).find? (fun k => s.tagOf c k != some wantB) = some k → stops 0x102 (stale k wantB))
                  ∧ ((∀ k ∈ kbs, s.tagOf c (m.kBase + k) = some wantB) →
                    r.mmaWait m t.team g.asked o [t.t] = none ∧ r.mmaCheck m g.asked.isSome t.t o = none))))))))
    ∧ (¬ named → r.mmaWait m t.team g.asked o [t.t] = none → stops (if reserved then 0x100 else 0x103) [])
  traps (.mmaI4x f) .i4x ∧ traps (.mmaI4 f) .i4 ∧ traps (.mmaI8 f) .i8 ∧ traps (.mmaE4m3 f) .e4m3
  ∧ traps (.mmaE5m2 f) .e5m2 ∧ traps (.mmaE2m1 f) .e2m1 ∧ traps (.mmaBf16 f) .bf16)

/-- R199, R212 to R217: the accumulator instructions take their place in the core's order of effects, at the physical row that the window gives and with columns that are a multiple of their count. R212, R215 to R218: a row outside the window raises 0x10E, columns off a multiple of the count or past 256 raise 0x10F, an acst off its boundary 0x080 and one whose translation fails its cause; acwin and mstat.ctl of a thread other than 0 raise 0x110, and a window that does not fit 0x111. The instruction does nothing else. -/
def Obligations.AccumulatorInstructionsExecute : Prop :=
  (
  (∀ (f : AcF) (s : State) (n : Nat) (g : Group) (t : ThreadId) (x : Thread) (m : Team),
    let r := s.resumed n
    let win := m.window (homeGroupOf t.t)
    let fits (vs : List DWord) (e : Nat) : Prop :=
      win.1 + (arg vs 0).toNat < win.2 ∧ (arg vs 1).toNat % e = 0 ∧ (arg vs 1).toNat + e ≤ 256
    let row (vs : List DWord) : Nat := m.accBase + win.1 + (arg vs 0).toNat
    let e := f.regs * perRegister f.type.toNat;
    (  let sh : Shape := { guard := f.g, srcs := acSources f, dsts := [.regs f.dr.toNat f.regs] }
      Solo s n g t x m sh →
      let vs := s.valuesOf sh t
      fits vs e → Commits (.acrd f) s n t sh ((r.emptyRegs t f.dr.toNat f.regs).queueAcc m.core
        (.read t (row vs) (arg vs 1).toNat f.type.toNat f.regs f.rnd.toNat (acScale f vs) (x.words f.dr.toNat f.regs))))
    ∧ (let sh : Shape := { guard := f.g, srcs := acSources f ++ [.regs f.dr.toNat f.regs] }
      Solo s n g t x m sh →
      let vs := s.valuesOf sh t
      fits vs f.regs → Commits (.acwr f) s n t sh (r.queueAcc m.core
        (.write t.team (row vs) (arg vs 1).toNat ((List.range f.regs).map fun k => x.reg (f.dr.toNat + k)) f.add)))
    ∧ (let sh : Shape := { guard := f.g, srcs := .pair f.dr false :: acSources f, inS := true }
      Solo s n g t x m sh →
      let vs := (s.valuesOf sh t).drop 1
      let va : VAddr := (arg64 (s.valuesOf sh t) 0).truncate 57
      let size := min (4 * f.regs) 64
      fits vs e → va.toNat % size = 0 → ∀ p u, r.translate m.core.die m.cn (needStore (4 * f.regs)) va = (.ok p, u) →
        let queued (pa : Nat) : Prop := Commits (.acst f) s n t sh (u.queueAcc m.core
          (.store t (row vs) (arg vs 1).toNat f.type.toNat f.regs f.rnd.toNat (acScale f vs) va pa g.pc))
        (∀ pa, p = .hbm pa → queued pa) ∧ (∀ d off, p = .window d off → queued (windowAddr d off))
        ∧ ∀ c, p = .failed c → Commits (.acst f) s n t sh (u.issueStore t va (.error c) [] (some (.normal 2)) g.pc)))
  ∧ ∀ (f : XF) (s : State) (n : Nat) (g : Group) (t : ThreadId) (x : Thread) (m : Team),
    (  let sh : Shape := { guard := f.g, srcs := [.one f.a false] }
      Solo s n g t x m sh →
      let win := m.window (homeGroupOf t.t)
      let v := (arg (s.valuesOf sh t) 0).toNat
      win.1 + v < win.2 →
        Commits (.aczero f) s n t sh ((s.resumed n).queueAcc m.core
          (.write t.team (m.accBase + win.1 + v) (if f.lo = 2 then 128 else 0)
            (List.replicate (if f.lo = 0 then 256 else 128) 0) false)))
    ∧ (let sh : Shape := { guard := f.g, srcs := [.one f.a false, .one f.b false, .one f.c false] }
      Solo s n g t x m sh →
      let vs := s.valuesOf sh t
      t.t = 0 → 32 * (arg vs 0).toNat < m.size → (arg vs 1).toNat ≤ (arg vs 2).toNat → (arg vs 2).toNat ≤ m.nacc →
        Commits (.acwin f) s n t sh ((s.resumed n).alterTeam t.team fun m =>
          { m with windows := Table.put m.windows (arg vs 0).toNat ((arg vs 1).toNat, (arg vs 2).toNat) })))
  ∧ (
  ∀ (s : State) (n : Nat) (g : Group) (t : ThreadId) (x : Thread) (m : Team),
  let r := s.resumed n
  let win := m.window (homeGroupOf t.t)
  (∀ f : AcF,
    let checks (i : Instr) (sh : Shape) (vs : List DWord) (e : Nat) : Prop :=
      let row := (arg vs 0).toNat
      let col := (arg vs 1).toNat
      Solo s n g t x m sh →
      (win.2 ≤ win.1 + row → Traps i s n g t 0x10E [] r)
      ∧ (win.1 + row < win.2 → col % e ≠ 0 ∨ 256 < col + e → Traps i s n g t 0x10F [] r)
    let e := f.regs * perRegister f.type.toNat
    let read : Shape := { guard := f.g, srcs := acSources f, dsts := [.regs f.dr.toNat f.regs] }
    let write : Shape := { guard := f.g, srcs := acSources f ++ [.regs f.dr.toNat f.regs] }
    let store : Shape := { guard := f.g, srcs := .pair f.dr false :: acSources f, inS := true }
    checks (.acrd f) read (s.valuesOf read t) e
    ∧ checks (.acwr f) write (s.valuesOf write t) f.regs
    ∧ checks (.acst f) store ((s.valuesOf store t).drop 1) e
    ∧ (Solo s n g t x m store →
      let vs := (s.valuesOf store t).drop 1
      let va : VAddr := (arg64 (s.valuesOf store t) 0).truncate 57
      win.1 + (arg vs 0).toNat < win.2 → (arg vs 1).toNat % e = 0 → (arg vs 1).toNat + e ≤ 256 →
      (va.toNat % min (4 * f.regs) 64 ≠ 0 → Traps (.acst f) s n g t 0x080 [va.zeroExtend 64] r)
      ∧ (va.toNat % min (4 * f.regs) 64 = 0 → ∀ c u, r.translate m.core.die m.cn (needStore (4 * f.regs)) va = (.cause c, u) →
          Traps (.acst f) s n g t c [va.zeroExtend 64] u)))
  ∧ ∀ f : XF,
    (  let sh : Shape := { guard := f.g, srcs := [.one f.a false] }
      Solo s n g t x m sh → win.2 ≤ win.1 + (arg (s.valuesOf sh t) 0).toNat → Traps (.aczero f) s n g t 0x10E [] r)
    ∧ (  let sh : Shape := { guard := f.g, srcs := [.one f.a false, .one f.b false, .one f.c false] }
      Solo s n g t x m sh →
      let vs := s.valuesOf sh t
      (t.t ≠ 0 → Traps (.acwin f) s n g t 0x110 [] r)
      ∧ (t.t = 0 → m.size ≤ 32 * (arg vs 0).toNat ∨ (arg vs 2).toNat < (arg vs 1).toNat ∨ m.nacc < (arg vs 2).toNat →
          Traps (.acwin f) s n g t 0x111 [] r))
    ∧ (f.lo = 2 → Solo s n g t x m { guard := f.g, srcs := [.one f.a false], dsts := [.one f.d] } → t.t ≠ 0 →
        Traps (.mstat f) s n g t 0x110 [] r))

/-- R218, R219: mstat gives the matrix status of the team; the clearing form, which every thread may execute, clears its anomaly bits, and the control form, which only thread 0 may, sets ATE; the wait form goes on at once when no mma of the team is outstanding. -/
def Obligations.MatrixStatusIsReadAndWritten : Prop :=
  ∀ (f : XF) (s : State) (n : Nat) (g : Group) (t : ThreadId) (x : Thread) (m : Team),
  let r := s.resumed n
  let v := r.mstatImage t.team
  let given : State := if f.d.toNat < 0x40 then r.writeRegs t [(f.d.toNat, v)] else r
  let useA := f.lo == 1 || f.lo == 2
  let sh : Shape := { guard := f.g, srcs := if useA then [.one f.a false] else [], dsts := [.one f.d] }
  (Solo s n g t x m sh → f.lo ≠ 3 →
    let a := arg (s.valuesOf sh t) 0
    (f.lo = 2 → t.t = 0) →
    Commits (.mstat f) s n t sh (given.alterTeam t.team fun m =>
      if f.lo = 1 then { m with analog := m.analog && !a.getLsbD 0, fmtanom := m.fmtanom && !a.getLsbD 1 }
      else if f.lo = 2 then { m with ate := a.getLsbD 16 }
      else m))
  ∧ (Solo s n g t x m { guard := f.g, dsts := [.one f.d] } → f.lo = 3 → r.mmaBefore t.team r.newId = false →
    exec (.mstat f) s = .next (((given.progress t).markDone n t.t).passOn n))

/-- R190, R191: amode asks its array for the mode and holds its group until the request completes, and of an array outside the field role of the team raises 0x107; resize refuses what does not fit, otherwise holds its thread until RESIZE_COMPLETE, and outside thread 0 raises 0x10B. -/
def Obligations.ArrayRolesAndModesChange : Prop :=
  (∀ (f : AmodeF) (s : State) (n : Nat) (g : Group) (t : ThreadId) (x : Thread) (m : Team), Solo s n g t x m { guard := f.g } →
    let r := s.resumed n
    (m.inField f.arr.toNat = false → Traps (.amode f) s n g t 0x107 [] r)
    ∧ (m.inField f.arr.toNat = true →
      exec (.amode f) s = .next ((((r.requestMode m.core f.arr.toNat f.mode).progress t).alterGroup n fun g =>
        { g with engaged := g.engaged ++ [t.t], hold := some (.amode m.core f.arr.toNat r.newId) }).passOn n)))
  ∧ ∀ (f : XF) (s : State) (n : Nat) (g : Group) (t : ThreadId) (x : Thread) (m : Team),
    let sh : Shape := { guard := f.g, srcs := [.one f.a false], dsts := [.one f.d] }
    Solo s n g t x m sh →
    let r := s.resumed n
    (t.t ≠ 0 → Traps (.resize f) s n g t 0x10B [] r) ∧ (t.t = 0 →
    let mask := bitsOf (arg (s.valuesOf sh t) 0).toNat 32
    let cache := s.cacheArrays m.core
    let grow := mask.filter fun a => !m.inField a
    let shrink := mask.filter m.inField
    let engaged (u : State) : State :=
      (((u.popFor t sh.srcs).progress t).alterGroup n fun g =>
        { g with engaged := g.engaged ++ [t.t], hold := some (g.hold.getD .engaged) }).passOn n
    (f.lo = 0 → ((∃ a ∈ grow, a ∉ cache) ∨ cache.length < grow.length + 2) → Commits (.resize f) s n t sh (r.resizeStatus t f.d 1))
    ∧ (f.lo = 0 → (∀ a ∈ grow, a ∈ cache) → grow.length + 2 ≤ cache.length →
      exec (.resize f) s = .next (engaged ((grow.foldl (fun (s : State) a => (s.prepare m.core a).own m.core a t.team) r).beginResize
        t.team ⟨t.t, 0, grow, x.destWord f.d⟩)))
    ∧ (f.lo ≠ 0 → (∃ a ∈ shrink, (s.array m.core a).tie ≠ none) → Commits (.resize f) s n t sh (r.resizeStatus t f.d 2))
    ∧ (f.lo ≠ 0 → (∀ a ∈ shrink, (s.array m.core a).tie = none) →
      exec (.resize f) s = .next (engaged ((r.alterTeam t.team fun m =>
        { m with fm := m.fm.filter fun a => !shrink.contains a }).beginResize t.team ⟨t.t, 1, shrink, x.destWord f.d⟩))))

/-- R208, R213 to R216: the effects on accumulator rows take place in their order: the update of an mma that has run and is first on its rows, which changes the accumulator of its core row by row and no byte of memory; and a read, a write or a store that is first on its row; a read of a thread that has exited is discarded (R90). An effect waits for the next clk only where a generation that it steps has been read by a check of this one (R156, R159). -/
def Obligations.AccumulatorEffectsTakePlaceInOrder : Prop :=
  ∀ (s : State) (c : CoreId),
  (∀ (a : Nat) (m : Mma), ((s.array c a).mmas.find? fun m => m.left == some 0 && accFirst (s.core c).accq m.id) = some m →
    let u := (((s.updateMma c m).alterArray c a fun x =>
      { x with mmas := x.mmas.filter fun y => y.id != m.id }).alterCore c fun k =>
      { k with accq := Table.drop k.accq m.id }).wakeUpdates
    let ar := s.array c m.array
    (u.core c).acc = m.rows.foldl (fun acc r => (m.rowUpdate ⟨ar.cells, ar.outliers, ar.sidecars, ar.odd⟩ acc r).1) (s.core c).acc
    ∧ u.mem = s.mem ∧ exec (.mmaUpdate c a) s = .next (s.orLater u) ∧ ((∀ e ∈ u.cores, e.2.checked = []) → exec (.mmaUpdate c a) s = .next u))
  ∧ (∀ (n : Nat) (team row col : Nat) (vals : List Word) (add : Bool), accFirst (s.core c).accq n = true →
    Table.find (s.core c).accq n = some (.write team row col vals add) →
    ∃ u, exec (.accumulatorAccessPerformed c n) s = .next u
      ∧ (∀ i, i < vals.length → (u.core c).acc.get (256 * row + col + i) =
          if add then round32 .rne (addNum .rne (valF32 ((s.core c).acc.get (256 * row + col + i))) (valF32 (vals.getD i 0))) else vals.getD i 0)
      ∧ (∀ key, key < 256 * row + col ∨ 256 * row + col + vals.length ≤ key → (u.core c).acc.get key = (s.core c).acc.get key)
      ∧ u.threads = s.threads ∧ u.mem = s.mem)
  ∧ (∀ (n : Nat) (t : ThreadId) (x : Thread) (row col type regs rnd : Nat) (scale : Option Word) (dest : List Nat),
    accFirst (s.core c).accq n = true → s.thread t = some x →
    Table.find (s.core c).accq n = some (.read t row col type regs rnd scale dest) →
    ∃ u, exec (.accumulatorAccessPerformed c n) s = .next (s.orLater u)
      ∧ ((∀ e ∈ s.cores, e.2.checked = []) → exec (.accumulatorAccessPerformed c n) s = .next u)
      ∧ u.thread t = some (if x.gone = true then x else x.fill (dest.zip (wordsOfBytes (s.accBytes c row col type regs rnd scale))))
      ∧ (∀ id, id ≠ t → u.thread id = s.thread id) ∧ (∀ key, (u.core c).acc.get key = (s.core c).acc.get key) ∧ u.mem = s.mem)
  ∧ ∀ (n : Nat) (t : ThreadId) (row col type regs rnd : Nat) (scale : Option Word) (va : VAddr) (pa : Nat) (pc : VAddr),
    accFirst (s.core c).accq n = true →
    Table.find (s.core c).accq n = some (.store t row col type regs rnd scale va pa pc) →
    let v := s.alterCore c fun k => { k with accq := Table.drop k.accq n }
    exec (.accumulatorAccessPerformed c n) s = .next (v.performAcst t va pa (v.accBytes c row col type regs rnd scale) pc)

/-! Barriers and channels (R286 to R309) -/

/-- R286, R294, R296, R299, R300: barinit first clears a broken link; it gives an idle object its count and its start values and writes the object's handle; a count outside 1 to 65535 raises 0x147 and an object that is not idle 0x146. barlink unlinks an idle object at the value of all ones, telling a parent that it has, and otherwise asks the parent that its source names and holds its thread; an object that is not idle raises 0x146, and a value that is no handle or its own handle 0x14A. A broken object raises 0x14B in barlink, and a number outside the allotment 0x145 in both. -/
def Obligations.BarriersAreInitialisedAndLinked : Prop :=
  ∀ (f : SyncF) (s : State) (n : Nat) (g : Group) (t : ThreadId) (x : Thread) (m : Team),
  let o := m.barBase + f.n.toNat
  let r := s.resumed n
  let b := s.barrier m.core o
  let own := s.handleOf m.core o
  let init : Shape := { guard := f.g, srcs := [.one f.a f.bta], dsts := [.pair f.d] }
  let link : Shape := { guard := f.g, srcs := [.pair f.a f.bta] }
  (Solo s n g t x m init →
   (m.nbar ≤ f.n.toNat → Traps (.barinit f) s n g t 0x145 [] r)
   ∧ (f.n.toNat < m.nbar →
     let count := (arg (s.valuesOf init t) 0).toNat
     let q := if b.broken then r.setBarrier m.core o { b with broken := false, parent := none, child := [] } else r
     (count = 0 ∨ 65535 < count → Traps (.barinit f) s n g t 0x147 [] q)
     ∧ (1 ≤ count → count ≤ 65535 → b.idle = false → Traps (.barinit f) s n g t 0x146 [] q)
     ∧ (1 ≤ count → count ≤ 65535 → b.idle = true →
       let u := q.setBarrier m.core o { b with
         exp := count, cnt := 0, ph := false, waitp := false, wreg := 0, unobs := 0, drops := 0, dropped := []
         broken := false, parent := if b.broken then none else b.parent, child := if b.broken then [] else b.child }
       Commits (.barinit f) s n t init (if f.d.toNat < 0x40 then u.writeRegs t (writePair f.d own.bits).regs else u))))
  ∧ (Solo s n g t x m link →
     (m.nbar ≤ f.n.toNat → Traps (.barlink f) s n g t 0x145 [] r)
     ∧ (f.n.toNat < m.nbar → b.broken = true → Traps (.barlink f) s n g t 0x14B [] r)
     ∧ (f.n.toNat < m.nbar → b.broken = false → b.idle = false → Traps (.barlink f) s n g t 0x146 [] r)
     ∧ (f.n.toNat < m.nbar → b.broken = false → b.idle = true →
       let v := arg64 (s.valuesOf link t) 0
       (v = 0xFFFFFFFFFFFFFFFF → b.parent = none → Commits (.barlink f) s n t link (r.setBarrier m.core o { b with parent := none }))
       ∧ (v = 0xFFFFFFFFFFFFFFFF → ∀ p, b.parent = some p →
           Commits (.barlink f) s n t link ((r.setBarrier m.core o { b with parent := none }).sendTo p (.unlink p own) (.unlink p own)))
       ∧ (v ≠ 0xFFFFFFFFFFFFFFFF → handleOfBits v = none ∨ handleOfBits v = some own → Traps (.barlink f) s n g t 0x14A [] r)
       ∧ (v ≠ 0xFFFFFFFFFFFFFFFF → ∀ p, handleOfBits v = some p → p ≠ own →
           Engages (.barlink f) s n t link
             ((r.setBarrier m.core o { b with linking := b.linking ++ [(p, t)] }).sendTo p (.link p own) (.link p own)))))

/-- R290, R291, R293, R301, R303: bararr, bartry and bardrop on an object of the allotment whose link is not broken first observe a flip that their thread has not seen (a bardrop of an armed thread withdraws its registration). The arrival then waits in order with nothing popped while the object refuses (bartry: writes false), raises 0x147 where it would pass EXP, and is accepted otherwise, bartry writing true. bararr and bartry raise 0x147 where EXP or their count is 0, and the forms that arm 0x149 in a thread that is armed. A number outside the allotment raises 0x145 in each and a broken link 0x14B (R286, R296). That a bardrop which raises 0x147 keeps the observation of a flip, as R301 has it of bararr and bartry, but not the withdrawal of an armed thread, is the model's choice (log 16). R290, R293: an accepted arrival adds to CNT; the one that makes it EXP flips a root at once: PH turns, CNT and DROPS are 0, EXP is less by the drops, UNOBS takes WREG; a linked object waits with WAITP set and sends one arrival to its parent, within the package or out to another device. -/
def Obligations.ArrivalsAreAcceptedInOrder : Prop :=
  (
  ∀ (f : SyncF) (s : State) (n : Nat) (g : Group) (t : ThreadId) (x : Thread) (m : Team),
  let k := f.n.toNat
  let o := m.barBase + k
  let r := s.resumed n
  let seen := if x.regOf k = some Registration.flipped then r.observe t k else r
  let stops (i : Instr) (sh : Shape) : Prop := Solo s n g t x m sh →
    (m.nbar ≤ k → Traps i s n g t 0x145 [] r)
    ∧ (k < m.nbar → (s.barrier m.core o).broken = true → Traps i s n g t 0x14B [] r)
  stops (.bararr f) { guard := f.g, srcs := [.one f.a f.bta], dsts := [.one f.d] }
  ∧ stops (.bartry f) { guard := f.g, srcs := [.one f.a f.bta] } ∧ stops (.bardrop f) { guard := f.g }
  ∧ (k < m.nbar → (s.barrier m.core o).broken = false →
  (let sh : Shape := { guard := f.g, srcs := [.one f.a f.bta], dsts := [.one f.d] }
   Solo s n g t x m sh →
   let c := (arg (s.valuesOf sh t) 0).toNat
   let b := seen.barrier m.core o
   ((s.barrier m.core o).exp = 0 ∨ c = 0 → Traps (.bararr f) s n g t 0x147 [] r)
   ∧ ((s.barrier m.core o).exp ≠ 0 → c ≠ 0 → f.var = 0 → x.regOf k = some Registration.armed → Traps (.bararr f) s n g t 0x149 [] r)
   ∧ ((s.barrier m.core o).exp ≠ 0 → c ≠ 0 → (f.var = 0 → x.regOf k ≠ some Registration.armed) →
     (b.refused = true → Stays (.bararr f) s n t (seen.setBarrier m.core o
       { b with queue := b.queue ++ [.thread t c (f.var = 0) false (x.destWord f.d) (queueOf f.a)] }))
     ∧ (b.refused = false → b.exp < b.cnt + c → Traps (.bararr f) s n g t 0x147 [] seen)
     ∧ (b.refused = false → b.cnt + c ≤ b.exp →
         Commits (.bararr f) s n t sh (seen.acceptThread m.core o k t c (f.var = 0) false (x.destWord f.d)))))
  ∧ (let sh : Shape := { guard := f.g, srcs := [.one f.a f.bta] }
     Solo s n g t x m sh →
     let c := (arg (s.valuesOf sh t) 0).toNat
     let b := seen.barrier m.core o
     let put (v : Bool) (w : State) : State := w.alterThread t fun x => x.setPred (f.d.toNat % 8) v
     ((s.barrier m.core o).exp = 0 ∨ c = 0 → Traps (.bartry f) s n g t 0x147 [] r)
     ∧ ((s.barrier m.core o).exp ≠ 0 → c ≠ 0 → f.var = 0 → x.regOf k = some Registration.armed → Traps (.bartry f) s n g t 0x149 [] r)
     ∧ ((s.barrier m.core o).exp ≠ 0 → c ≠ 0 → (f.var = 0 → x.regOf k ≠ some Registration.armed) →
       (b.refused = true → Commits (.bartry f) s n t sh (put false seen))
       ∧ (b.refused = false → b.exp < b.cnt + c → Traps (.bartry f) s n g t 0x147 [] seen)
       ∧ (b.refused = false → b.cnt + c ≤ b.exp →
           Commits (.bartry f) s n t sh (put true (seen.acceptThread m.core o k t c (f.var = 0) false none)))))
  ∧ (let sh : Shape := { guard := f.g }
     Solo s n g t x m sh →
     let out := if x.regOf k = some Registration.armed then r.withdraw t k else seen
     let b := out.barrier m.core o
     (b.refused = true → Stays (.bardrop f) s n t (out.setBarrier m.core o { b with queue := b.queue ++ [.thread t 1 false true none none] }))
     ∧ (b.refused = false → b.exp < b.cnt + 1 → Traps (.bardrop f) s n g t 0x147 []
         (if x.regOf k = some Registration.armed then r else seen))
     ∧ (b.refused = false → b.cnt + 1 ≤ b.exp → Commits (.bardrop f) s n t sh (out.acceptThread m.core o k t 1 false true none)))))
  ∧ (
  ∀ (s : State) (c : CoreId) (o k : Nat),
  let b := s.barrier c o
  let u := s.countArrival c o k
  (b.cnt + k ≠ b.exp → u.barrier c o = { b with cnt := b.cnt + k })
  ∧ (b.cnt + k = b.exp → b.parent = none → u.barrier c o = { b with
      ph := !b.ph, cnt := 0, waitp := false, unobs := b.wreg, wreg := 0, exp := b.exp - b.drops, drops := 0
      child := b.child.filter fun h => !b.dropped.contains h, dropped := [] })
  ∧ (b.cnt + k = b.exp → ∀ p, b.parent = some p →
      let drop := decide (b.exp - b.drops = 0)
      u.barrier c o = { b with cnt := b.cnt + k, waitp := true }
      ∧ (p.dev = s.deviceNumber → Table.find u.msgs s.newId = some (.arrival p (s.handleOf c o) drop))
      ∧ (p.dev ≠ s.deviceNumber → s.sends (.arrival p (s.handleOf c o) drop) = true →
          u.outbox = s.outbox ++ [.arrival p (s.handleOf c o) drop])))

/-- R302: on an object of the allotment whose link is not broken, barwait goes on and bartest writes true when the thread's phase has flipped, which they observe; while it is armed barwait holds the thread and bartest writes false; with no registration both raise 0x148. A number outside the allotment raises 0x145 in both, and a broken link 0x14B (R286, R296). -/
def Obligations.WaitsAndTestsFollowTheFlip : Prop :=
  ∀ (f : SyncF) (s : State) (n : Nat) (g : Group) (t : ThreadId) (x : Thread) (m : Team),
  let k := f.n.toNat
  let o := m.barBase + k
  let r := s.resumed n
  let sh : Shape := { guard := f.g }
  let put (v : Bool) (w : State) : State := w.alterThread t fun x => x.setPred (f.d.toNat % 8) v
  Solo s n g t x m sh →
  (m.nbar ≤ k → Traps (.barwait f) s n g t 0x145 [] r ∧ Traps (.bartest f) s n g t 0x145 [] r)
  ∧ (k < m.nbar → (s.barrier m.core o).broken = true →
      Traps (.barwait f) s n g t 0x14B [] r ∧ Traps (.bartest f) s n g t 0x14B [] r)
  ∧ (k < m.nbar → (s.barrier m.core o).broken = false →
  (x.regOf k = some Registration.flipped →
    Commits (.barwait f) s n t sh (r.observe t k) ∧ Commits (.bartest f) s n t sh (put true (r.observe t k)))
  ∧ (x.regOf k = some Registration.armed →
    Stays (.barwait f) s n t (r.setBarrier m.core o { s.barrier m.core o with sleepers := (s.barrier m.core o).sleepers ++ [t] })
    ∧ Commits (.bartest f) s n t sh (put false r))
  ∧ (x.regOf k = none → Traps (.barwait f) s n g t 0x148 [] r ∧ Traps (.bartest f) s n g t 0x148 [] r))

/-- R290, R294, R295, R296, R302, R314: a barrier message that is the next of its queue, waits at no target and is for no saved team is taken and acts on the object it names: a link is answered, an unlink takes the child out, the answer to a link ends what asked, an arrival of a child joins the queue of an object whose link is not broken, a flip from the parent flips the object, and a break from the parent breaks it. The wake event lets the one held thread of an object whose phase has flipped observe it and go on. Each waits for the next clk only where a generation that it steps has been read by a check of this one (R156, R159). R306, R314: a slot on its way that is the next of its queue, to a resident team that does not stop, lands in the cells of the receiver's ring: where nobody is parked on the array every word of the slot is written at its place and no other byte of the array changes, and the slot is full. -/
def Obligations.BarrierMessagesAndSlotsAreDelivered : Prop :=
  (
  ∀ (s : State) (i : Nat) (h p : Handle),
  let r := s.take i
  let b := s.barrier h.core h.obj
  let next (msg : Msg) : Prop :=
    Table.find s.msgs i = some msg ∧ s.waitsAtTarget msg = false ∧ s.firstInLine i msg = true ∧ s.savedOwner h p = none
  let acts (i : Instr) (u : State) : Prop :=
    exec i s = .next (s.orLater u) ∧ ((∀ e ∈ u.cores, e.2.checked = []) → exec i s = .next u)
  (next (.link h p) → acts (.barrierLinkMessage i) (r.applyLink h p))
  ∧ (next (.unlink h p) → b.child.contains p = true →
      acts (.barrierLinkMessage i) (r.setBarrier h.core h.obj { b with child := b.child.filter (· ≠ p) }))
  ∧ (∀ ok, next (.linkReply h p ok) → acts (.barrierLinkMessage i) (r.takeAnswer h p ok))
  ∧ (next (.broken h p) → b.parent = some p → acts (.barrierLinkMessage i) (r.breakBarrier h.core h.obj))
  ∧ (∀ d, next (.arrival h p d) → b.broken = false → b.child.contains p = true →
      acts (.barrierArrivalMessage i) ((r.setBarrier h.core h.obj { b with queue := b.queue ++ [.child p d] }).settleBarrier
        h.core h.obj))
  ∧ (next (.flip h p false) → b.parent = some p →
      acts (.barrierFlipMessage i) ((r.flip h.core h.obj).settleBarrier h.core h.obj))
  ∧ ∀ e t x, s.objectOwner h.core h.obj = some e → b.sleepers = [t] → s.thread t = some x →
      x.regOf (h.obj - e.2.barBase) = some Registration.flipped →
      acts (.barrierWaiterWake h.core h.obj) ((((s.setBarrier h.core h.obj { b with sleepers := [] }).observe
        t (h.obj - e.2.barBase)).progress t).finish t))
  ∧ (
  ∀ (s : State) (i lid cluster ch slot : Nat) (src dst : CoreId) (h : Channel) (e : Nat × Team) (ws : List Word),
  Table.find s.msgs i = some (.slot lid cluster ch slot src dst) → Table.find s.channels (lid, cluster, ch) = some h →
  s.clusterTeam lid cluster h.dst = some e → e.2.frozen = false → s.firstInLine i (.slot lid cluster ch slot src dst) = true →
  (h.slots.find? fun x => x.1 == slot) = some (slot, ws, false) → ws.length = h.sw →
  let a := h.ring + 4 * h.sw * slot
  (s.array e.2.core (fieldArrayOf a)).waiters = [] →
  ∃ u, exec (.channelSlotLanding i) s = .next (s.orLater u)
    ∧ ((∀ e ∈ u.cores, e.2.checked = []) → exec (.channelSlotLanding i) s = .next u)
    ∧ Table.find u.channels (lid, cluster, ch) = some { h with slots := h.slots.map fun x => if x.1 = slot then (x.1, x.2.1, true) else x }
    ∧ (∀ k, k < 4 * h.sw → (u.array e.2.core (fieldArrayOf a)).cells.get (fieldOffset a + k)
        = (ws.flatMap fun w => bytesOf w 4).getD k 0)
    ∧ (∀ k, k < fieldOffset a ∨ fieldOffset a + 4 * h.sw ≤ k →
        (u.array e.2.core (fieldArrayOf a)).cells.get k = (s.array e.2.core (fieldArrayOf a)).cells.get k)
    ∧ u.mem = s.mem ∧ Table.find u.msgs i = none)

/-- R305 to R308, R314: chsend in the source of a declared channel executes when its queue holds SW words, a slot is free, the receiver is resident with its ring's array in no compute mode and no request for it, no other sender waits before it, and every sync message that the two cores had sent each other before it has arrived, or waits at its target: it reserves the next slot and sends the words; otherwise it joins the line of senders and waits. chrecv in the destination executes when the oldest slot is full, its queue has room for SW words and no other receiver waits before it: it takes the slot; otherwise it joins the line of receivers and waits. chtry does either without waiting and writes whether it did, once the messages before it have arrived. A channel that is not declared raises 0x14C, the wrong end 0x14D, and an end whose other team has retired 0x14E, a receiver once nothing is left. -/
def Obligations.ChannelsMoveWholeSlots : Prop :=
  ∀ (f : SyncF) (s : State) (n : Nat) (g : Group) (t : ThreadId) (x : Thread) (m : Team),
  let sh : Shape := { guard := f.g }
  let r := s.resumed n
  let key := m.channelKey f.n.toNat
  let qa := f.a.toNat - 0x50
  let qd := f.d.toNat - 0x50
  let put (v : Bool) (w : State) : State := w.alterThread t fun x => x.setPred (f.d.toNat % 8) v
  let arrived (a b : CoreId) (k : Nat) : Prop :=
    ∀ e ∈ s.msgs, e.1 < k → s.pathOf e.2 = some (.sync, .core a, .core b) → s.waitsAtTarget e.2 = true
  Solo s n g t x m sh →
  (Table.find s.channels key = none →
    Traps (.chsend f) s n g t 0x14C [] r ∧ Traps (.chrecv f) s n g t 0x14C [] r ∧ Traps (.chtry f) s n g t 0x14C [] r)
  ∧ ∀ h : Channel, Table.find s.channels key = some h →
    (h.src = m.pos → h.dstGone = false →
      let line (c : CoreId) : Prop := arrived m.core c (Table.findD h.senders t s.fresh) ∧ arrived c m.core s.fresh
      let ready := h.sw ≤ (x.queue qa).length ∧ 0 < h.free ∧ firstOf (Table.keys h.senders) t = true
        ∧ ∃ e, s.clusterTeam m.lid m.cluster h.dst = some e ∧ (s.array e.2.core (fieldArrayOf h.ring)).compute = false
          ∧ (∀ q ∈ (s.array e.2.core (fieldArrayOf h.ring)).requests, q.compute = false) ∧ line e.2.core
      (ready → Commits (.chsend f) s n t sh (r.sendSlot t m f.n.toNat qa h))
      ∧ (¬ ready → Waits (.chsend f) s n (.channel t f.n.toNat qa true)
          (r.alterChannel key fun h => { h with senders := if (Table.find h.senders t).isSome then h.senders else h.senders ++ [(t, s.fresh)] }))
      ∧ (f.var = 0 → ready → Commits (.chtry f) s n t sh (put true (r.sendSlot t m f.n.toNat qa h)))
      ∧ (f.var = 0 → ¬ ready → (∀ e, s.clusterTeam m.lid m.cluster h.dst = some e → line e.2.core) →
          Commits (.chtry f) s n t sh (put false r))
      ∧ (f.var = 0 → ∀ e, s.clusterTeam m.lid m.cluster h.dst = some e → ¬ line e.2.core →
          Waits (.chtry f) s n (.sync m.core e.2.core s.fresh) r))
    ∧ (h.dst = m.pos → (h.slots ≠ [] ∨ h.srcGone = false) →
      let ready (q slot : Nat) := (∃ ws rest, h.slots = (slot, ws, true) :: rest) ∧ (x.queue q).length + h.sw ≤ 16
        ∧ firstOf h.receivers t = true
      (∀ slot, ready qd slot → Commits (.chrecv f) s n t sh (r.receiveSlot t m f.n.toNat qd slot h))
      ∧ ((∀ slot, ¬ ready qd slot) → Waits (.chrecv f) s n (.channel t f.n.toNat qd false)
          (r.alterChannel key fun h => { h with receivers := joinLine h.receivers [t] }))
      ∧ (f.var ≠ 0 → ∀ slot, ready qa slot → Commits (.chtry f) s n t sh (put true (r.receiveSlot t m f.n.toNat qa slot h)))
      ∧ (f.var ≠ 0 → (∀ slot, ¬ ready qa slot) → Commits (.chtry f) s n t sh (put false r)))
    ∧ (h.src ≠ m.pos → Traps (.chsend f) s n g t 0x14D [] r ∧ (f.var = 0 → Traps (.chtry f) s n g t 0x14D [] r))
    ∧ (h.dst ≠ m.pos → Traps (.chrecv f) s n g t 0x14D [] r ∧ (f.var ≠ 0 → Traps (.chtry f) s n g t 0x14D [] r))
    ∧ (h.src = m.pos → h.dstGone = true → Traps (.chsend f) s n g t 0x14E [] r ∧ (f.var = 0 → Traps (.chtry f) s n g t 0x14E [] r))
    ∧ (h.dst = m.pos → h.srcGone = true → h.slots = [] →
        Traps (.chrecv f) s n g t 0x14E [] r ∧ (f.var ≠ 0 → Traps (.chtry f) s n g t 0x14E [] r))

/-! Work, invocations, result buffers and the handover of pages (R283, R328 to R359) -/

/-- R330, R331: launch writes status 1 and 0 where the record's address is no multiple of 8; otherwise the status of its reads and checks to D and the LID to D + 1, and where the status is 0 a grid of the team's context is live under that LID. While the reads meet a closed range it waits. launch.t with a status that is not 0 raises 0x180 with the status and writes nothing. spawn waits until the core's next spawn is due; with no bin for the entry its status is 2, with a record that passes w63 it is 3, and with a full bin 1: written to D, or raised as 0x181 by spawn.t. While a register of the record is empty it waits; otherwise the record is appended and D is 0 (R336, R338). R255, R283: edrain waits while an engine command of its thread is under way. Then it takes its place in S and is an acquire, writes the failure count to D and clears it; edrain.t with a count that is not 0 raises 0x144 with the count after that, and leaves D and the count. -/
def Obligations.WorkIsLaunchedSpawnedAndDrained : Prop :=
  (
  (∀ (f : XF) (s : State) (n : Nat) (g : Group) (t : ThreadId) (x : Thread) (m : Team),
    let sh : Shape := { guard := f.g, srcs := [.pair f.a false], dsts := [.pair f.d], inS := true }
    Solo s n g t x m sh →
    let va := arg64 (s.valuesOf sh t) 0
    let r := s.resumed n
    let read := r.launchBy (readAsThread t) m.core.die m.cn (va.truncate 57) none
    let given (w : State) (st lid : Nat) : State := w.writeRegs t (writePair f.d (BitVec.ofNat 64 (st + lid * 2 ^ 32))).regs
    (va.toNat % 8 ≠ 0 →
      (f.lo.getLsbD 0 = false → Commits (.launch f) s n t sh (given r 1 0))
      ∧ (f.lo.getLsbD 0 = true → Traps (.launch f) s n g t 0x180 [1] r))
    ∧ (va.toNat % 8 = 0 → read = none → Waits (.launch f) s n (.closed m.cn ((va.truncate 57 : VAddr).toNat / 65536)) r)
    ∧ (va.toNat % 8 = 0 → ∀ st lid u, read = some (st, lid, u) →
        (st = 0 ∨ f.lo.getLsbD 0 = false → Commits (.launch f) s n t sh (given u st lid))
        ∧ (st ≠ 0 → f.lo.getLsbD 0 = true → Traps (.launch f) s n g t 0x180 [BitVec.ofNat 64 st] u)
        ∧ (st = 0 → ∃ gr, Table.find u.grids lid = some gr ∧ gr.cn = m.cn)))
  ∧ ∀ (f : XF) (s : State) (n : Nat) (g : Group) (t : ThreadId) (x : Thread) (m : Team),
    let sh : Shape := { guard := f.g, srcs := [.pair f.a false], dsts := [.one f.d], inS := true }
    Solo s n g t x m sh →
    let k := s.core m.core
    let d := s.die m.core.die
    let entry : VAddr := (arg64 (s.valuesOf sh t) 0).truncate 57
    let paid := (s.resumed n).setCore m.core { k with spawnAt := k.clk + (if d.df then 8 else 4) }
    let given (w : State) (st : Nat) : State := w.writeRegs t (writeDst f.d (BitVec.ofNat 32 st)).regs
    let refuses (st : Nat) : Prop :=
      (f.lo.getLsbD 0 = false → Commits (.spawn f) s n t sh (given paid st))
      ∧ (f.lo.getLsbD 0 = true → Traps (.spawn f) s n g t 0x181 [BitVec.ofNat 64 st] paid)
    (k.clk < k.spawnAt → Waits (.spawn f) s n (.spawn m.core k.spawnAt) (s.resumed n))
    ∧ (k.spawnAt ≤ k.clk →
      (d.binFor m.cn entry = none → refuses 2)
      ∧ (∀ i bin, d.binFor m.cn entry = some (i, bin) →
        (64 < f.b.toNat + bin.rs / 4 → refuses 3)
        ∧ (f.b.toNat + bin.rs / 4 ≤ 64 →
            (x.fullRange f.b.toNat (bin.rs / 4) = false →
              Waits (.spawn f) s n (.words t (x.words f.b.toNat (bin.rs / 4))) (s.resumed n))
            ∧ (x.fullRange f.b.toNat (bin.rs / 4) = true → bin.full m.pri = true → refuses 1)
            ∧ (x.fullRange f.b.toNat (bin.rs / 4) = true → bin.full m.pri = false →
                Commits (.spawn f) s n t sh (given (paid.appendRecord m.core.die i
                  ((List.range (bin.rs / 4)).flatMap fun j => bytesOf (x.reg (f.b.toNat + j)) 4) none true) 0))))))
  ∧ (
  ∀ (f : XF) (s : State) (n : Nat) (g : Group) (t : ThreadId) (x : Thread) (m : Team),
  let sh : Shape := { guard := f.g, dsts := [.one f.d], inS := true }
  let r := s.resumed n
  let placed := (r.place.fenceHere t).acquire t
  Solo s n g t x m sh →
  (s.undrained t = true → Waits (.edrain f) s n (.drain t) r)
  ∧ (s.undrained t = false → f.lo.getLsbD 0 = true → x.failures ≠ 0 → Traps (.edrain f) s n g t 0x144 [x.failures.zeroExtend 64] placed)
  ∧ (s.undrained t = false → f.lo.getLsbD 0 = false ∨ x.failures = 0 →
      Commits (.edrain f) s n t sh ((placed.alterThread t fun x => { x with failures := 0 }).writeRegs t (writeDst f.d x.failures).regs)))

/-- R345 to R348: rinv.ack and rinv.res take the lowest free reply slot with the next serial, write its token to D and D + 1 and send the invocation; with no free slot they raise 0x186. rinv.reply of a token that the team owes sends its reply and owes it no more; of any other it raises 0x187. rret of a token that names a taken slot of the team, with its serial and not yet claimed, claims it and marks D and D + 1 empty, and writes a reply that is already there at once; any other token raises 0x185. -/
def Obligations.InvocationsAndRepliesExecute : Prop :=
  ∀ (s : State) (n : Nat) (g : Group) (t : ThreadId) (x : Thread) (m : Team),
  let r := s.resumed n
  (∀ f : RinvF, f.var ≠ 2 →
    let sh : Shape := { guard := f.g, srcs := [.one f.a false, .regs f.b.toNat f.narg.toNat], dsts := [.pair f.d], inS := true }
    Solo s n g t x m sh →
    let receiver := (arg (s.valuesOf sh t) 0).toNat
    (∀ k, m.freeSlot = some k →
      let gen := ((Table.find m.replies k).map ReplySlot.serial).getD 0 + 1
      let token := tokenOf gen s.deviceNumber t.team k
      let args := (List.range f.narg.toNat).flatMap fun j => bytesOf (x.reg (f.b.toNat + j)) 4
      Commits (.rinv f) s n t sh (((r.alterTeam t.team fun m => { m with replies := Table.put m.replies k ⟨gen, true, none, none⟩ }).writeRegs t
        (writePair f.d token).regs).invoke (receiver / 2 ^ 16) (receiver % 2 ^ 16) f.pri.toNat (f.var == 1) token args))
    ∧ (m.freeSlot = none → Traps (.rinv f) s n g t 0x186 [] r))
  ∧ (∀ f : RinvF, f.var = 2 →
    let sh : Shape := { guard := f.g, srcs := [.pair f.a false, .regs f.b.toNat 1], inS := true }
    Solo s n g t x m sh →
    let token := arg64 (s.valuesOf sh t) 0
    (token ∈ m.owed → Commits (.rinv f) s n t sh ((r.alterTeam t.team fun m => { m with owed := m.owed.erase token }).answerFrom
      (.core m.core) token 0 (x.reg f.b.toNat) 0))
    ∧ (token ∉ m.owed → Traps (.rinv f) s n g t 0x187 [] r))
  ∧ ∀ f : XF,
    let sh : Shape := { guard := f.g, srcs := [.pair f.a false], dsts := [.pair f.d] }
    Solo s n g t x m sh →
    let token := arg64 (s.valuesOf sh t) 0
    let slot := tokenSlot token
    let dest := x.words f.d.toNat 2
    let named := m.slotFor s.deviceNumber t.team token
    (named = none ∨ (∃ q, named = some q ∧ q.claim.isSome = true) → Traps (.rret f) s n g t 0x185 [] r)
    ∧ (∀ q, named = some q → q.claim = none →
        let claimed := (r.alterThread t fun x => x.markEmpty dest).alterTeam t.team fun m =>
          { m with replies := Table.put m.replies slot { q with claim := some (t.t, dest, g.pc) } }
        (q.reply = none → Commits (.rret f) s n t sh claimed)
        ∧ (∀ st v why, q.reply = some (st, v, why) → Commits (.rret f) s n t sh (claimed.landReply t.team slot t.t dest g.pc st v why)))

/-- R339, R340: hndalloc of an array in the field role of the team, tied by no context, in storage mode with no request for it, and no buffer yet, steps its serial and writes its handle; of any other array it raises 0x182. hndpass of a buffer of the team's field role, and hndfree of such a buffer or of one passed on its core in its context and not claimed, take the array out of the team's field role, and the thread is held while the array's accesses end, a passed buffer being nameable no more; any other handle raises 0x182. -/
def Obligations.ResultBuffersAreHanded : Prop :=
  ∀ (f : XF) (s : State) (n : Nat) (g : Group) (t : ThreadId) (x : Thread) (m : Team),
  let r := s.resumed n
  (let sh : Shape := { guard := f.g, srcs := [.one f.a false], dsts := [.pair f.d] }
   Solo s n g t x m sh →
   let a := (arg (s.valuesOf sh t) 0).toNat
   let y := s.array m.core a
   let fits := m.inField a = true ∧ y.tie = none ∧ y.compute = false ∧ y.requests = [] ∧ y.buffer = false
   (fits → Commits (.hndalloc f) s n t sh ((r.setArray m.core a { y with serial := y.serial + 1, buffer := true }).writeRegs t
       (writePair f.d (bufferHandle (y.serial + 1) m.core a)).regs))
   ∧ (¬ fits → Traps (.hndalloc f) s n g t 0x182 [] r))
  ∧ (let sh : Shape := { guard := f.g, srcs := [.pair f.a false] }
     Solo s n g t x m sh →
     let h := arg64 (s.valuesOf sh t) 0
     let out (kind a : Nat) (w : State) : State := w.beginResize t.team ⟨t.t, kind, [a], none⟩
     let without (a : Nat) : State := r.alterTeam t.team fun m => { m with fm := m.fm.filter fun b => decide (b ≠ a) }
     let hidden (a : Nat) : State := (without a).setArray m.core a { s.array m.core a with buffer := false }
     (∀ a p, s.bufferNamed m h false = some (a, p) → Engages (.hndpass f) s n t sh (out 2 a (without a)))
     ∧ (s.bufferNamed m h false = none → Traps (.hndpass f) s n g t 0x182 [] r)
     ∧ (∀ a, s.bufferNamed m h true = some (a, false) → Engages (.hndfree f) s n t sh (out 3 a (without a)))
     ∧ (∀ a, s.bufferNamed m h true = some (a, true) → Engages (.hndfree f) s n t sh (out 3 a (hidden a)))
     ∧ (s.bufferNamed m h true = none → Traps (.hndfree f) s n g t 0x182 [] r))

/-- R353 to R357: kvgive of a valid range to a context is noted and holds its thread until its pages change owner; of any other it raises 0x098 with the address. kvtake tests its range: a check that fails raises its cause with the address of the first page that fails it; where every page has the taker as owner kvtake.wait goes on and kvtake.test writes true, which is an acquire; otherwise kvtake.wait holds its thread and kvtake.test writes false. Where its walk meets an error reply, the cause is queued as a deferred one, and the instruction has executed with false (R241, R401; the model's choice, log 20). R353, R354, R357: the close of a range notes its leaves and marks it closed once the giver's engine commands have landed, and changes nothing before. Once the range is closed, its give is the first of its group and no write of an engine and no store of an acst that passed its check is on its way to its pages, their owner changes in one event of S, whose place is noted for them, every kept translation of them is dropped and the giver goes on; a check that fails then raises its cause in the giver and changes no owner; before, nothing changes. The first thread of a group that is held in kvtake.wait tests its range again: it goes on where every page has the taker as owner, which is an acquire, traps where a check fails, and stays held otherwise. An error reply to a walk is queued as a deferred cause, and the instruction has executed (log 20). -/
def Obligations.PagesChangeTheirOwner : Prop :=
  (
  ∀ (f : XF) (s : State) (n : Nat) (g : Group) (t : ThreadId) (x : Thread) (m : Team),
  let r := s.resumed n
  (let sh : Shape := { guard := f.g, srcs := giveSources f, inS := true }
   Solo s n g t x m sh →
   let vs := s.valuesOf sh t
   let va := arg64 vs 0
   let k := (arg vs 1).toNat
   let receiver := (arg vs 2).toNat
   let good := va.toNat % 65536 = 0 ∧ 1 ≤ k ∧ k ≤ 32768 ∧ va.toNat + k * 65536 ≤ 2 ^ 57 ∧ 1 ≤ receiver ∧ receiver ≤ 4095
   (good → Stays (.kvgive f) s n t { r.bump with gives := Table.put s.gives s.newId ⟨t, m.cn, va.toNat, k, receiver, [], false⟩ })
   ∧ (¬ good → Traps (.kvgive f) s n g t 0x098 [va] r))
  ∧ (let sh : Shape := { guard := f.g, srcs := takeSources f, inS := true }
     Solo s n g t x m sh →
     let vs := s.valuesOf sh t
     let put (v : Bool) (w : State) : State := w.alterThread t fun x => x.setPred (f.c.toNat % 8) v
     let lost (w : State) (c : Cause) (a : Nat) : State := w.defer t ⟨c, g.pc, errorAux (BitVec.ofNat 57 a) a⟩
     let res := s.takeTest t (arg64 vs 0).toNat (arg vs 1).toNat
     (res = (none, true) → (f.lo = 0 → Commits (.kvtake f) s n t sh (r.takePages t))
       ∧ (f.lo ≠ 0 → Commits (.kvtake f) s n t sh (put true (r.takePages t))))
     ∧ (res = (none, false) → (f.lo = 0 → Stays (.kvtake f) s n t r)
       ∧ (f.lo ≠ 0 → Commits (.kvtake f) s n t sh (put false r)))
     ∧ (∀ c va b, res = (some (.check c va), b) → Traps (.kvtake f) s n g t c [BitVec.ofNat 64 va] r)
     ∧ (∀ c va b, res = (some (.lost c va), b) → Commits (.kvtake f) s n t sh
         (if f.lo = 0 then lost r c va else put false (lost r c va)))))
  ∧ (
  (∀ (s : State) (i : Nat) (g : Give), Table.find s.gives i = some g →
    let ws := s.rangeWalks g.cn g.va g.pages
    let ready := g.closed = true ∧ s.firstGive i g = true ∧ s.writesInto ws = false
    (g.closed = false → s.undrained g.t = false →
      exec (.kvgiveClose i) s = .next { s with gives := Table.put s.gives i { g with leaves := leafAddrs ws, closed := true } })
    ∧ (g.closed = true ∨ s.undrained g.t = true → exec (.kvgiveClose i) s = .next s)
    ∧ (ready →
        (rangeFails ws (some g.cn) = none →
          let v := (leafAddrs ws).foldl (fun (v : State) a => v.setOwn (s.nameOf g.t).lid g.owner a) s.place
          let noted : State := { v with gave := (pagesOf ws).foldl (fun (m : Table Nat Nat) p => Table.put m p v.seq) v.gave }
          exec (.ownershipChange i) s = .next ((noted.dropLeaves (leafAddrs ws)).endGive i g.t))
        ∧ (∀ c va, rangeFails ws (some g.cn) = some (.check c va) → exec (.ownershipChange i) s = .next
            ({ s with gives := Table.drop s.gives i }.trapThread g.t c [BitVec.ofNat 64 va]))
        ∧ (∀ c va, rangeFails ws (some g.cn) = some (.lost c va) → exec (.ownershipChange i) s = .next
            ((s.defer g.t ⟨c, s.pcAt g.t, errorAux (BitVec.ofNat 57 va) va⟩).endGive i g.t)))
    ∧ (¬ ready → exec (.ownershipChange i) s = .next s))
  ∧ ∀ (s : State) (t : ThreadId) (f : XF) (g : Group), s.presentInstr t = some (.kvtake f) → s.groupOf t = some g → f.lo = 0 →
    (g.members.find? fun u => g.engaged.contains u) = some t.t →
    let vs := s.valuesOf { guard := f.g, srcs := takeSources f } t
    let res := s.takeTest t (arg64 vs 0).toNat (arg vs 1).toNat
    (res = (none, true) → exec (.kvtakeComplete t) s = .next ((s.takePages t).completeParked t (takeSources f)))
    ∧ (res = (none, false) → exec (.kvtakeComplete t) s = .next s)
    ∧ (∀ c va b, res = (some (.check c va), b) → exec (.kvtakeComplete t) s = .next (s.trapThread t c [BitVec.ofNat 64 va]))
    ∧ (∀ c va b, res = (some (.lost c va), b) → exec (.kvtakeComplete t) s = .next
        ((s.defer t ⟨c, s.pcAt t, errorAux (BitVec.ofNat 57 va) va⟩).completeParked t (takeSources f))))

/-! System instructions and exceptions (R116 to R118, R360 to R376, R393, R395) -/

/-- R360, R361: a cause raised in a thread that is in no handler and whose context has a handler enters it once no write is in flight to w56 to w63: the registers of the thread's exception state take w56 to w63, p1 to p7, the cause, the PC, the return PC and the auxiliary words; IN is set, PRIV is at least 1, CTXSEL is 0 and the PC is HVEC; its registers, windows, predicates, queues and deferred causes, the other threads, the teams, the contexts and memory stay. While such a write is in flight the thread waits to enter, with the cause and the return PC, and everything else of it is as it was. R362: a cause raised in a thread that is in a handler, or whose HVEC is 0, stops the thread, which keeps the rest of its state, and leaves memory; the last report is then 0x1E2 at the PC of the cause, with the cause and its first three words, for a thread in a handler, and otherwise the cause itself, with its PC and words. -/
def Obligations.CausesEnterTheHandlerOrStop : Prop :=
  (
  ∀ (s : State) (t : ThreadId) (x : Thread) (tr : Trap) (ret : VAddr) (keep : Option (Clause × Nat)),
  s.thread t = some x → x.inHandler = false → s.hvecOf t ≠ 0 →
  let u := s.takeTrap t tr ret keep
  (x.shadowReady = true → ∃ y, u.thread t = some y
    ∧ y.tcause = tr.cause ∧ y.tpc = tr.pc ∧ y.tret = ret ∧ y.edepth = x.depth ∧ y.inHandler = true
    ∧ (∀ k, k < 4 → y.taux.get k = tr.aux.getD k 0)
    ∧ (∀ k, k < 8 → y.tshw.get k = (x.reg (56 + k)).zeroExtend 64) ∧ y.tshp = (x.preds &&& 0xFE).zeroExtend 64
    ∧ y.priv = max x.priv 1 ∧ y.savedPriv = x.priv ∧ y.ctxSel = 0 ∧ y.savedCtxSel = x.ctxSel
    ∧ y.pc = (s.hvecOf t).truncate 57 ∧ y.status = .waiting 0
    ∧ y.regs = x.regs ∧ y.empties = x.empties ∧ y.depth = x.depth ∧ y.links = x.links ∧ y.preds = x.preds
    ∧ (∀ q, y.queue q = x.queue q) ∧ y.deferred = x.deferred)
  ∧ (x.shadowReady = false → u.thread t = some { x with resume := keep, status := .entering tr ret })
  ∧ (∀ id, id ≠ t → u.thread id = s.thread id) ∧ u.teams = s.teams ∧ u.mem = s.mem ∧ u.contexts = s.contexts)
  ∧ (
  ∀ (s : State) (t : ThreadId) (x : Thread) (tr : Trap) (ret : VAddr) (keep : Option (Clause × Nat)),
  s.thread t = some x →
  let u := s.takeTrap t tr ret keep
  (x.inHandler = true ∨ s.hvecOf t = 0 → u.thread t = some { x with status := .stopped none } ∧ u.mem = s.mem)
  ∧ (x.inHandler = true → (u.reports.getLast?.map Report.trap) = some ⟨0x1E2, tr.pc, tr.cause.zeroExtend 64 :: (auxWords tr.aux).take 3⟩)
  ∧ (x.inHandler = false → s.hvecOf t = 0 → (u.reports.getLast?.map Report.trap) = some ⟨tr.cause, tr.pc, auxWords tr.aux⟩))

/-- R120, R263, stated of iabs, which has the one source A: where A is a window register that is empty and its bt bit is set, it raises 0x040 with position 0 and the register; with the bit clear, or where A is a queue that is empty, its group is held until the register is full or the queue has a word, and its thread and memory are as before. -/
def Obligations.EmptySourcesTrapOrWait : Prop :=
  ∀ (f : RF) (s : State) (n : Nat) (g : Group) (t : ThreadId) (x : Thread) (m : Team),
  s.cur = some n → s.group n = some g → g.team = t.team → g.members = [t.t] → g.done = [] → g.engaged = [] →
  s.thread t = some x → x.status = .member n → s.team t.team = some m → x.guard f.g = true →
  (f.a.toNat < 0x40 → x.empties.contains (x.word f.a.toNat) = true → f.bta = true →
    Traps (.iabs f) s n g t 0x040 [0, BitVec.ofNat 64 f.a.toNat] (s.resumed n))
  ∧ (f.a.toNat < 0x40 → x.empties.contains (x.word f.a.toNat) = true → f.bta = false →
    ∃ u, exec (.iabs f) s = .next u ∧ u.thread t = some x ∧ u.mem = s.mem
      ∧ u.group n = some { g with hold := some (.words t [x.word f.a.toNat]) })
  ∧ (0x50 ≤ f.a.toNat → f.a.toNat < 0x58 → x.queue (f.a.toNat - 0x50) = [] →
    ∃ u, exec (.iabs f) s = .next u ∧ u.thread t = some x ∧ u.mem = s.mem
      ∧ u.group n = some { g with hold := some (.pop t (f.a.toNat - 0x50) 1) })

/-- R361, R365, R393: trap raises its software trap, which counts in PROG. rfe raises 0x1E1 below PRIV 1, 0x1E3 with 1 outside a handler and 0x1E3 with 2 at a depth other than that of the entry, and waits while a write is in flight to w56 to w63. Otherwise it restores what the entry saved and goes on: where TRET was written or the cause left no clause, at TRET, whose failing checks raise their cause; otherwise inside the clause that the cause left, whose words not read yet it then reads (one that cannot be decoded raises its cause with the header as PC), and a brk that raised its 0x1C0 then executes as nop. Either goes on waiting while it meets a closed range. That trap, and no other instruction that raises a cause, counts in PROG is the model's choice (log 16, DEDUCED from R367), and so is the moment at which a word that was not read yet is checked, with the header as PC (log 18, DEDUCED from R68). R365: the return from a handler writes w56 to w63 from TSHW and p1 to p7 from TSHP, restores PRIV and CTXSEL and clears IN; it leaves w0 to w55, the depth, TRET, memory and every other thread. -/
def Obligations.TrapsAndReturnsExecute : Prop :=
  (
  ∀ (f : TrapF) (s : State) (n : Nat) (g : Group) (t : ThreadId) (x : Thread) (m : Team), Solo s n g t x m { guard := f.g } →
  let r := s.resumed n
  let sh : Shape := { guard := f.g }
  Traps (.trap f) s n g t (0x1F0 + f.code.zeroExtend _) [] (r.progress t)
  ∧ (x.priv = 0 → Traps (.rfe f) s n g t 0x1E1 [0] r)
  ∧ (1 ≤ x.priv → x.inHandler = false → Traps (.rfe f) s n g t 0x1E3 [1] r)
  ∧ (1 ≤ x.priv → x.inHandler = true → x.depth ≠ x.edepth → Traps (.rfe f) s n g t 0x1E3 [2] r)
  ∧ (1 ≤ x.priv → x.inHandler = true → x.depth = x.edepth → x.shadowReady = false → Waits (.rfe f) s n (.words t (x.words 56 8)) r)
  ∧ (1 ≤ x.priv → x.inHandler = true → x.depth = x.edepth → x.shadowReady = true →
      (x.resume = none ∨ x.tretWritten = true →
        (∀ u, (r.returnTrap t).checkTarget t x.tret = .ok u →
          Commits (.rfe f) s n t sh ((u.alterThread t fun y => { y with resume := none, brkPass := none }).arrive t x.tret))
        ∧ (∀ c aux u, (r.returnTrap t).checkTarget t x.tret = .trap c aux u → Traps (.rfe f) s n g t c aux u)
        ∧ (∀ u, (r.returnTrap t).checkTarget t x.tret = .closed u → Waits (.rfe f) s n (s.closedHold t x.tret) r))
      ∧ (∀ c k, x.resume = some (c, k) → x.tretWritten = false →
        let back := (r.returnTrap t).refetch t c k
        (back = none → Waits (.rfe f) s n (s.closedHold t (c.address k)) r)
        ∧ (∀ c' u, back = some (c', u) → c'.late = none →
            Commits (.rfe f) s n t sh (((u.leaveGroup t).alterThread t fun y => { y with
              brkPass := if x.tcause = 0x1C0 ∨ x.brkPass = some (c.address k) then some (c.address k) else none, resume := none }).resumeAlone
                t c' k g.slot))
        ∧ (∀ c' u cause j, back = some (c', u) → c'.late = some (cause, j) →
            Commits (.rfe f) s n t sh (((u.leaveGroup t).alterThread t fun y => { y with resume := none }).trapHeader
              t c'.header cause [BitVec.ofNat 64 j])))))
  ∧ (
  ∀ (s : State) (t : ThreadId) (x : Thread), s.thread t = some x →
  ∃ y, (s.returnTrap t).thread t = some y
    ∧ (∀ k, k < 8 → y.reg (56 + k) = (x.tshw.get k).truncate 32)
    ∧ (∀ k, k < 8 → k ≠ 0 → y.preds.getLsbD k = x.tshp.getLsbD k) ∧ y.preds.getLsbD 0 = true
    ∧ (∀ r, r < 56 → y.reg r = x.reg r)
    ∧ y.priv = x.savedPriv ∧ y.ctxSel = x.savedCtxSel ∧ y.inHandler = false ∧ y.depth = x.depth ∧ y.tret = x.tret
    ∧ (s.returnTrap t).mem = s.mem ∧ ∀ id, id ≠ t → (s.returnTrap t).thread id = s.thread id)

/-- R364, R366, R367: csrr whose checks pass writes the register to the pair D, and csrw whose checks pass writes its source to the register, each taking a place of S first for a register that is not a thread's or a team's; a failing check raises its cause with the number in TAUX0: 0x1E4 for a number of no row, and for a register of a thread or a team 0x1E1 where PRIV is below that of its row. -/
def Obligations.ControlRegistersAreReadAndWritten : Prop :=
  ∀ (f : CsrF) (s : State) (n : Nat) (g : Group) (t : ThreadId) (x : Thread) (m : Team),
  let k := f.csr.toNat
  let r := s.resumed n
  let shr : Shape := { guard := f.g, dsts := [.pair f.d], inS := csrInS k }
  let shw : Shape := { guard := f.g, srcs := [.pair f.a false], inS := csrInS k }
  (Solo s n g t x m shr →
    (s.csrCheck t x k none = none →
      Commits (.csrr f) s n t shr ((r.csrPlace t k).writeRegs t (writePair f.d ((r.csrPlace t k).readCsr t x m k)).regs))
    ∧ (∀ c, s.csrCheck t x k none = some c → Traps (.csrr f) s n g t c [f.csr.zeroExtend 64] r))
  ∧ (Solo s n g t x m shw →
    let v := arg64 (s.valuesOf shw t) 0
    (s.csrCheck t x k (some v) = none → Commits (.csrw f) s n t shw ((r.csrPlace t k).writeCsr t k v))
    ∧ (∀ c, s.csrCheck t x k (some v) = some c → Traps (.csrw f) s n g t c [f.csr.zeroExtend 64] r))
  ∧ (csrRow k = none → ∀ w, s.csrCheck t x k w = some 0x1E4)
  ∧ (∀ row, csrRow k = some row → row.scope = .thread ∨ row.scope = .team →
      (x.priv < row.read → s.csrCheck t x k none = some 0x1E1) ∧ (row.read ≤ x.priv → s.csrCheck t x k none = none)
      ∧ (∀ v, (x.priv < row.write → s.csrCheck t x k (some v) = some 0x1E1) ∧ (row.write ≤ x.priv → s.csrCheck t x k (some v) = none)))

/-- R116 to R118, R241: below PRIV 1 wspill and wfill raise 0x1E1. wspill writes 0 when no frame below the current one is unspilled; otherwise it waits while a register of the oldest is empty, and then stores that frame to its slot and writes 1. wfill writes 0 when no frame is spilled or there is no room, and otherwise loads the newest spilled frame with its link back and writes 1. An access that meets a cause raises it, and one that meets a closed range makes the instruction wait; an error reply comes as a deferred cause, with the frame as it was, and D is then 0 (the model's choice, log 21). -/
def Obligations.FramesAreSpilledAndFilled : Prop :=
  ∀ (f : XF) (s : State) (n : Nat) (g : Group) (t : ThreadId) (x : Thread) (m : Team) (role : Role),
  let sh : Shape := { guard := f.g, dsts := [.one f.d], inS := true }
  let r := s.resumed n
  let put (v : Word) (w : State) : State := w.writeRegs t (writeDst f.d v).regs
  let fails (i : Instr) (va : VAddr) (res : Spill) : Prop :=
    (∀ c aux u, res = .trap c aux u → Traps i s n g t c aux u)
    ∧ (∀ c aux u, res = .error c aux u → Commits i s n t sh (put 0 (u.defer t ⟨c, g.pc, aux⟩)))
    ∧ (∀ u, res = .closed u → Waits i s n (s.closedHold t va) r)
  Solo s n g t x m sh → s.roleOf t = some role →
  (x.priv = 0 → Traps (.wspill f) s n g t 0x1E1 [0] r ∧ Traps (.wfill f) s n g t 0x1E1 [0] r)
  ∧ (1 ≤ x.priv → x.depth ≤ x.oldest → Commits (.wspill f) s n t sh (put 0 r))
  ∧ (1 ≤ x.priv → x.oldest < x.depth →
      let ws := (List.range 56).map fun k => 56 * x.oldest + k
      let res := r.spillPieces t (role.slot t.t x.oldest) (x.frameBytes x.oldest)
      ((∃ w ∈ ws, x.empties.contains w = true) → Waits (.wspill f) s n (.words t ws) r)
      ∧ ((∀ w ∈ ws, x.empties.contains w = false) →
          fails (.wspill f) (role.slot t.t x.oldest) res
          ∧ ∀ u, res = .ok u → Commits (.wspill f) s n t sh (put 1 (u.alterThread t fun y => { y with oldest := y.oldest + 1 }))))
  ∧ (1 ≤ x.priv → x.oldest = 0 ∨ role.frames ≤ x.depth - x.oldest + 1 → Commits (.wfill f) s n t sh (put 0 r))
  ∧ (1 ≤ x.priv → x.oldest ≠ 0 → x.depth - x.oldest + 1 < role.frames →
      ∀ ws link res, r.fillPieces t (role.slot t.t (x.oldest - 1)) 0 56 = (ws, link, res) →
      fails (.wfill f) (role.slot t.t (x.oldest - 1)) res
      ∧ ∀ u, res = .ok u →
        Commits (.wfill f) s n t sh (put 1 ((u.fillWords t ((List.range 56).map fun k => (56 * (x.oldest - 1) + k, ws.getD k 0))).alterThread t
          fun y => { y with oldest := x.oldest - 1, links := y.links.set (x.oldest - 1) (link.truncate 57) })))

/-- R64, R364, R375: dtload raises 0x1E1 below PRIV 1, or 2 with a context selected, and 0x1E4 where the selected context is not live. Its two short forms give that context the table lv3 or lv2. The form with an image raises 0x080 off an 8-byte address, and otherwise loads the 2,048 bytes: an entry that fails its check raises 0x1E5 with its number, and an image of good entries becomes the table; a load that meets a cause raises it, one that meets a closed range makes dtload wait, and an error reply comes as a deferred cause with the table as it was.
R373: tlbinv raises 0x1E1 below PRIV 2; for a range of no pages it drops nothing and waits for nothing; otherwise it waits while an access of the selected context (for the whole package, of any context) is still to be performed, and then drops the translations of that context (of every context). It takes its place in S and is a fence point. That a range drops and awaits as much as its context is the model's choice (log 21: R373 lets more be dropped, and an entry may serve pages beside the range).
R376: preq raises 0x1E1 below PRIV 2, and otherwise makes its request and writes the status. -/
def Obligations.TablesTranslationsAndRequests : Prop :=
  ∀ (s : State) (n : Nat) (g : Group) (t : ThreadId) (x : Thread) (m : Team),
  let r := s.resumed n
  let cn := s.selected t
  (∀ f : XF,
    let sh : Shape := { guard := f.g, srcs := if f.lo = 0 then [.pair f.d false] else [], inS := f.lo == 0 }
    Solo s n g t x m sh →
    (x.priv < x.contextPriv 1 → Traps (.dtload f) s n g t 0x1E1 [0] r)
    ∧ (x.contextPriv 1 ≤ x.priv → s.context cn = none → Traps (.dtload f) s n g t 0x1E4 [0] r)
    ∧ (x.contextPriv 1 ≤ x.priv → (s.context cn).isSome = true →
      (f.lo = 1 → Commits (.dtload f) s n t sh (r.setTable t .lv3))
      ∧ (f.lo = 2 → Commits (.dtload f) s n t sh (r.setTable t .lv2))
      ∧ (f.lo = 0 →
        let va : VAddr := (arg64 (s.valuesOf sh t) 0).truncate 57
        (va.toNat % 8 ≠ 0 → Traps (.dtload f) s n g t 0x080 [va.zeroExtend 64] r)
        ∧ (va.toNat % 8 = 0 → ∀ bs res, r.readImage t va 256 = (bs, res) →
          (∀ c aux u, res = .trap c aux u → Traps (.dtload f) s n g t c aux u)
          ∧ (∀ c aux u, res = .error c aux u → Commits (.dtload f) s n t sh (u.defer t ⟨c, g.pc, aux⟩))
          ∧ (∀ u, res = .closed u → Waits (.dtload f) s n (s.closedHold t va) r)
          ∧ (∀ u, res = .ok u →
            let bad := (tableEntries bs).findIdx? fun e => !imageEntryOk e
            (bad = none → Commits (.dtload f) s n t sh (u.setTable t (.image (tableEntries bs))))
            ∧ (∀ k, bad = some k → Traps (.dtload f) s n g t 0x1E5 [BitVec.ofNat 64 k] u))))))
  ∧ (∀ f : XF,
    let sh : Shape := { guard := f.g, srcs := if f.lo = 0 then [.pair f.d false, .one f.a false] else [], inS := true }
    Solo s n g t x m sh →
    let vs := s.valuesOf sh t
    let drops (w : State) (who : Option Nat) : Prop :=
      (s.landingIn who = true → Waits (.tlbinv f) s n (.landing who) r)
      ∧ (s.landingIn who = false → Commits (.tlbinv f) s n t sh (w.place.fenceHere t))
    (x.priv < 2 → Traps (.tlbinv f) s n g t 0x1E1 [0] r)
    ∧ (2 ≤ x.priv →
        (f.lo = 0 → arg vs 1 = 0 → Commits (.tlbinv f) s n t sh (r.place.fenceHere t))
        ∧ (f.lo = 0 → arg vs 1 ≠ 0 → drops (r.dropContext cn) (some cn))
        ∧ (f.lo = 1 → drops (r.dropContext cn) (some cn))
        ∧ (f.lo ≠ 0 → f.lo ≠ 1 → drops r.dropKept none)))
  ∧ ∀ f : PreqF,
    let sh : Shape := { guard := f.g, srcs := [.pair f.a false, .one f.b false, .one f.c false, .pair f.e false], dsts := [.one f.d] }
    Solo s n g t x m sh →
    let vs := s.valuesOf sh t
    (x.priv < 2 → Traps (.preq f) s n g t 0x1E1 [0] r)
    ∧ (2 ≤ x.priv → ∀ st u, r.request f t (arg64 vs 0) (arg vs 1).toNat (arg vs 2).toNat (arg64 vs 3) = (st, u) →
        Commits (.preq f) s n t sh (u.writeRegs t (writeDst f.d (BitVec.ofNat 32 st)).regs))

/-- R388, R393 to R395: brk executes as nop, once, in a thread that goes on at it after its stop or its 0x1C0. Otherwise, where BRKSTOP of its core holds for its thread, it stops the thread at itself, with a kind-2 record and a report of 0x1C0, both with its code, and is not counted in PROG; and where BRKSTOP does not, it raises 0x1C0 with its code. mark emits a kind-1 record of its tag and source value; mark.on opens the gate of its team and mark.off closes it. That a brk which stops its thread is not counted in PROG is the model's choice (log 16, DEDUCED from R367). -/
def Obligations.BreaksAndMarksExecute : Prop :=
  ∀ (s : State) (n : Nat) (g : Group) (t : ThreadId) (x : Thread) (m : Team),
  let r := s.resumed n
  (∀ f : XF, let sh : Shape := { guard := f.g }
    Solo s n g t x m sh →
    let code : DWord := f.d.zeroExtend 64
    let told := ((r.countFor t 0x0E 1).trace m.core (s.nameOf t) g.pc 2 code).report t ⟨0x1C0, g.pc, auxWords [code]⟩
    let u := (told.stop t (some (g.clause, g.idx))).passOn n
    (x.brkPass = some g.pc → Commits (.brk f) s n t sh (r.alterThread t fun y => { y with brkPass := none }))
    ∧ (x.brkPass ≠ some g.pc → s.brkStops t = false → Traps (.brk f) s n g t 0x1C0 [code] r)
    ∧ (x.brkPass ≠ some g.pc → s.brkStops t = true → exec (.brk f) s = .next u
        ∧ u.thread t = some { x with status := .stopped (some (g.clause, g.idx)) } ∧ u.team t.team = some m
        ∧ (u.reports.getLast?.map Report.trap) = some ⟨0x1C0, g.pc, auxWords [code]⟩))
  ∧ ∀ f : MarkF, let sh : Shape := { guard := f.g, srcs := if f.var = 0 then [.one f.a false] else [] }
    Solo s n g t x m sh →
    (f.var = 0 → Commits (.mark f) s n t sh (r.trace m.core (s.nameOf t) g.pc 1
      (BitVec.ofNat 64 (f.tag.toNat * 2 ^ 32 + (arg (s.valuesOf sh t) 0).toNat))))
    ∧ (f.var = 1 → Commits (.mark f) s n t sh (r.alterTeam t.team fun m => { m with gate := true }))
    ∧ (f.var ≠ 0 → f.var ≠ 1 → Commits (.mark f) s n t sh (r.alterTeam t.team fun m => { m with gate := false }))

/-! Events of the engines, the arrays, issue, work, pre-emption, registers and the host side -/

/-- R252, R268, R274 to R276, R279 to R282: an element of a command in flight of its type moves when it has not moved, the command has met no fault, ORD lets it and its read stands at a place that R252 allows; otherwise its event changes nothing. ecopy reads byte n at its source and writes it at its destination; etld reads data row n, of which the field words that are then known follow (with an anomaly for a row that marks two outliers), or scale register n less the rows, constant where SCONST says so; etst reads data row n from field memory and writes it in storage form, then the captured scales, then the sidecars; egath reads index n and the element it names, and writes that as element n; escat, once the elements before n have moved, reads index and value and performs the reduction in one place of S; econv reads block n and writes its converted values and its scale (with an anomaly for a NaN that the format has no place for). The element then counts as moved; a part that meets a fault ends the command with its status and nothing else, and one that cannot happen yet changes nothing. -/
def Obligations.EngineElementsMove : Prop :=
  ∀ (s : State) (e n p : Nat) (x : Command), Table.find s.commands e = some x →
  let ws := x.words
  let can := x.completed = false ∧ x.failed = false ∧ x.moved.contains n = false ∧ n < elements ws x.format ∧ s.ordOk x = true ∧ s.placeOk x p = true
  let ends (i : Instr) (type : Nat) (m : Moved Unit) : Prop :=
    (cmdType ws = type ∧ can →
      (∀ y v, m = .ok () y v → exec i s = .next (v.alterCommand e fun _ => { y with moved := NatSet.add y.moved n }))
      ∧ (∀ st v, m = .fault st v → exec i s = .next (v.alterCommand e fun x => x.fail st))
      ∧ (m = .later → exec i s = .next s))
    ∧ (¬ (cmdType ws = type ∧ can) → exec i s = .next s)
  let word := if cmdFlag ws 0 then 64 else 128
  ends (.ecopy e n p) 0 ((engineRead (copySrcField ws) (copySrc ws n) 1 p x s).andThen fun bs y v =>
    engineWrite (copyDstField y.words) (copyDst y.words n) n bs y v)
  ∧ (n < tileRows (loadFormat ws) →
    ends (.etld e n p) 1 ((engineRead false (cmdAddr ws 1 + n * cmdInt ws 3) (rowBytes (loadFormat ws)) p x s).andThen fun bs y v =>
      let z := { y with rows := y.rows.setList (256 * n) bs }
      .ok () { z with field := z.field ++ tileField z (loadFormat ws) n }
        (if loadFormat ws = .i4x ∧ doubleMarker bs = true then v.setAnomaly y.t else v)))
  ∧ (tileRows (loadFormat ws) ≤ n →
    let k := n - tileRows (loadFormat ws)
    let reg := ((s.team x.t.team).map Team.kBase).getD 0 + targetKb ws + k
    (cmdSconst ws = true → ends (.etld e n p) 1 (.ok () x (s.writeKreg x.core reg 0 (List.replicate 256 (targetConst ws)))))
    ∧ (cmdSconst ws = false → ends (.etld e n p) 1 ((engineRead false (cmdAddr ws 4 + 256 * (k : Nat)) 256 p x s).andThen fun bs y v =>
        .ok () y (v.writeKreg y.core reg 0 bs))))
  ∧ (let f := x.format.getD .i8
    (n < tileRows f → ends (.etst e n p) 2
      ((engineRead true ((targetArr ws * 16384 + 128 * (tileRow0 ws f + n) : Nat) : Int) 128 p x s).andThen fun cells y v =>
        engineWrite false (cmdAddr ws 1 + n * cmdInt ws 3) n
          (storedRow f cells ((v.array y.core (targetArr ws)).outliers.getList (128 * (tileRow0 ws f + n)) 128)) y v))
    ∧ (tileRows f ≤ n → n < tileRows f + tileRegs f → ends (.etst e n p) 2
      (engineWrite false (cmdAddr ws 4 + 256 * (n - tileRows f : Nat)) n (x.scales.getD (n - tileRows f) []) x s))
    ∧ (tileRows f + tileRegs f ≤ n → ends (.etst e n p) 2
      (engineWrite false (cmdAddr ws 4 + 256) n (sidecarBytes (s.array x.core (targetArr ws)) f (targetHalf ws)) x s)))
  ∧ ends (.egath e n p) 3 ((readIndex x n p s).andThen fun i y v =>
    (engineRead false (cmdAddr y.words 1 + i * gathSize y.words) (gathSize y.words) p y v).andThen fun bs z w =>
      engineWrite (gathField z.words) (cmdAddr z.words 6 + n * gathSize y.words) n bs z w)
  ∧ (x.moved.length = n → ends (.escat e n p) 4 ((readIndex x n p s).andThen fun i y v =>
    (engineRead (scatField y.words) (cmdAddr y.words 6 + n * scatSize y.words) (scatSize y.words) p y v).andThen fun bs z w =>
      (w.engineAt z needAtomic (BitVec.ofNat 57 (cmdAddr z.words 1 + i * scatSize y.words))).andThen fun pa a u =>
        let r := u.place.settle pa (scatSize y.words)
        .ok () a (((r.capture (r.nameOf a.t).lid pa).homeBytes pa (bytesOf (BitVec.ofNat 32
          (scatterOp (cmdFlags a.words 0 2) (scatType a.words) (natOfBytes (r.bytes pa (scatSize y.words))) (natOfBytes bs)))
          (scatSize y.words))).noteLanding a)))
  ∧ (x.moved.length ≠ n → exec (.escat e n p) s = .next s)
  ∧ ends (.econv e n p) 5 ((engineRead false ((cmdAddr ws 1 + word * n : Nat) : Int) word p x s).andThen fun bs y v =>
    let vals := convValues (cmdFlag ws 0) bs
    let sc := convScale (cmdFlags ws 1 2) vals
    let out := convBytes (cmdFlags ws 1 2) sc vals
    let v := if 2 ≤ cmdFlags ws 1 2 ∧ vals.any Machine.Num.isNan = true then v.setAnomaly y.t else v
    (engineWrite false (cmdAddr ws 3 + out.length * n) n out y v).andThen fun _ z w =>
      engineWrite false (cmdAddr ws 5 + n) n [sc] z w)

/-- R251, R253, R265, R266, R270, R274: a held push whose turn it is issues its command, pops what its instruction popped, writes its predicates and lets its thread go on, or raises the cause that its checks find by now, with its assembly discarded, and its group goes on without it. The global writes of an element that may land land as far as their scope; a field word that nothing holds back lands. A command that may complete pushes its completion word, with a status other than 0 counted among the failures; where it has no field word left to land it changes nothing else of its thread, and no other thread and no byte of memory. What would step a generation that a check of the same clk has read does not happen in that clk; an event whose conditions do not hold changes nothing. -/
def Obligations.EngineEventsTakeEffect : Prop :=
  ∀ (s : State) (n e : Nat),
  let happens (i : Instr) (u : State) : Prop :=
    (u.clash = false ∨ s.clash = true → exec i s = .next u) ∧ (u.clash = true → s.clash = false → exec i s = .next s)
  (∀ (h : HeldPush), Table.find s.heldPushes n = some h →
    (s.pushReady n h = false → exec (.enginePushAccepted n) s = .next s)
    ∧ (∀ x : Thread, s.pushReady n h = true → s.thread h.t = some x →
      let ws := x.queue h.queue ++ [h.word]
      let r : State := { s with heldPushes := Table.drop s.heldPushes n }
      let given := ((r.issueCommand h.t h.queue ws h.stack).popQueues h.t h.pops).alterThread h.t fun x => x.setPreds h.preds
      let marked := if h.anomaly then given.setAnomaly h.t else given
      (r.lastCause h.t h.queue ws h.pops = none →
        happens (.enginePushAccepted n) ((if h.counted then marked else marked.progress h.t).finish h.t))
      ∧ (∀ c k g, r.lastCause h.t h.queue ws h.pops = some c → x.status = .member k → s.group k = some g →
        happens (.enginePushAccepted n) (((r.alterThread h.t fun x => x.setQueue h.queue []).trapIn g h.t.t c []).passOn k))))
  ∧ (∀ (x : Command) (upTo : Scope), Table.find s.commands e = some x →
      let a := n / 4096
      let w := n % 4096
      let lands := x.wordReady a w = true ∧ s.landingHeld e x a = false ∧ x.completed = false
      (x.toField = false →
        (s.landable x n upTo = true → exec (.engineWriteLanding e n upTo) s = .next ((s.landGlobal e x n upTo).forget e))
        ∧ (s.landable x n upTo = false → exec (.engineWriteLanding e n upTo) s = .next s))
      ∧ (x.toField = true →
        (lands → happens (.engineWriteLanding e n upTo) (s.landWord e x a w))
        ∧ (¬ lands → exec (.engineWriteLanding e n upTo) s = .next s)))
  ∧ (∀ (x : Command) (y : Thread), Table.find s.commands e = some x → s.thread x.t = some y →
      let q := if cmdType x.words < 3 then 1 else 3
      let u := s.complete e x
      (x.mayComplete = false → exec (.engineCompletion e) s = .next s)
      ∧ (x.mayComplete = true → happens (.engineCompletion e) u)
      ∧ (x.mayComplete = true → x.targets = [] → (∃ z, u.thread x.t = some z
        ∧ z.queue q = y.queue q ++ [completionWord x.words x.status]
        ∧ z.failures = (if x.status ≠ 0 ∧ y.failures ≠ 0xFFFFFFFF then y.failures + 1 else y.failures)
        ∧ z = { y with queues := z.queues, pending := z.pending, failures := z.failures } ∧ (∀ k, k ≠ q → z.queue k = y.queue k))
        ∧ (∀ id, id ≠ x.t → u.thread id = s.thread id) ∧ u.mem = s.mem))

/-- R184 to R186, R190, R232, R234, R245, R340: the oldest load that waits for a compute-mode array is served, with its reply on its way, and the mma that runs there is longer by 1 clk. The oldest mode request of an array is due 264 or 8 clk after its waits have ended, and at once for the mode already reached; once due it takes effect, with the scrub of a switch to compute mode, and the threads that it holds go on. A resize, hndpass or hndfree whose arrays are idle ends: a grow adds its arrays to the field role, a shrink or a free gives them back, a pass leaves them to a team of the context; its thread goes on, with 0 in its destination; where that would step a generation that a check of the same clk has read, it has still to happen. A tie takes its array where its context has it, the array is in the cache role and at least two others stay there. A copy in L1 of a sector whose lease lies behind the ltime of the core, or that has served for 64 advances of it, serves no more. At an epoch's end every page counter is halved. Where the conditions do not hold nothing changes. -/
def Obligations.ArrayAndPageEventsTakeEffect : Prop :=
  ∀ (s : State) (c : CoreId) (a : Nat),
  let x := s.array c a
  let k := s.core c
  ((x.loads = [] → exec (.computeModeLoadServed c a) s = .next s)
   ∧ (∀ l ls, x.loads = l :: ls →
      let r := s.setArray c a { x with loads := ls, mmas := lengthenRunning x.mmas }
      exec (.computeModeLoadServed c a) s = .next
        (if l.dest = [] then r else r.issueAccess (replyFor l.t c (splitWords l.dest l.value) 0 false))))
  ∧ ((x.requests = [] → exec (.amodeComplete c a) s = .next s)
   ∧ (∀ q qs, x.requests = q :: qs → (∀ r ∈ qs, r.id ≠ q.id) →
      let cost := if x.compute = q.compute then 0 else if q.compute then 264 else 8
      let reached := ((if q.compute = true ∧ x.compute = false then s.scrub c a else s).alterArray c a fun y =>
        { y with requests := qs, compute := q.compute }).wakeMode c a q.id
      let ends : Prop := exec (.amodeComplete c a) s = .next (s.orLater reached)
        ∧ ((∀ e ∈ reached.cores, e.2.checked = []) → exec (.amodeComplete c a) s = .next reached)
      (q.due = none → s.requestReady a x q = false → exec (.amodeComplete c a) s = .next s)
      ∧ (q.due = none → s.requestReady a x q = true → cost ≠ 0 →
          exec (.amodeComplete c a) s = .next (s.setArray c a { x with requests := { q with due := some (k.clk + cost) } :: qs }))
      ∧ (q.due = none → s.requestReady a x q = true → cost = 0 → ends)
      ∧ (∀ d, q.due = some d → k.clk < d → exec (.amodeComplete c a) s = .next s)
      ∧ (∀ d, q.due = some d → d ≤ k.clk → ends)))
  ∧ (∀ (team : Nat) (m : Team), s.team team = some m →
      let due := m.resizing.find? fun r => r.kind == 0 || r.arrays.all fun a => s.arrayIdle m.core a team
      (due = none → exec (.resizeComplete team) s = .next s)
      ∧ (∀ q, due = some q →
        let ends (v : State) (fm : NatSet) : Prop :=
          let w := v.alterTeam team fun m => { m with resizing := m.resizing.filter fun r => decide (r ≠ q), fm := fm }
          (q.dest = none → exec (.resizeComplete team) s = .next (s.orLater (w.finish ⟨team, q.t⟩)))
          ∧ (∀ r, q.dest = some r → exec (.resizeComplete team) s = .next (s.orLater ((w.fillWords ⟨team, q.t⟩ [(r, 0)]).finish ⟨team, q.t⟩)))
        (q.kind = 0 → ends s (NatSet.addAll m.fm q.arrays))
        ∧ (q.kind = 2 → ends (q.arrays.foldl (fun (v : State) a => (v.alterArray m.core a fun y =>
            { y with owner := none, passed := some m.cn }).stepGens m.core [.half a 0, .half a 1, .whole a]) s) m.fm)
        ∧ (q.kind ≠ 0 → q.kind ≠ 2 → ends (q.arrays.foldl (fun (v : State) a => v.releaseArray m.core a) s) m.fm)))
  ∧ (∀ (cn n : Nat),
      (s.context cn = none → exec (.class0TieTake cn n a) s = .next s)
      ∧ (∀ y lo hi src cls mask, s.context cn = some y → y.range n = some (lo, hi, src, cls, mask) → coreOfSource src = c →
        let free := y.tiesBy c a n = true ∧ x.isCache = true ∧ a < Config.arrays ∧ 2 < (s.cacheArrays c).length
        (free → exec (.class0TieTake cn n a) s = .next ((s.prepare c a).alterArray c a fun y => { y with tie := some cn }))
        ∧ (¬ free → exec (.class0TieTake cn n a) s = .next s)))
  ∧ (∃ u, exec (.leaseExpiry c a) s = .next u
      ∧ (u.core c).l1 = k.l1.map (fun l => if l.line = a then { l with copies := l.copies.map (fun e =>
          if tsBefore e.2.lease k.ltime = true ∨ 64 < (k.ltime - Table.findD e.2.since c 0).toNat then
             (e.1, { e.2 with lease := k.ltime - 1 }) else e) } else l)
      ∧ u.mem = s.mem ∧ u.threads = s.threads)
  ∧ (let next := (s.epochAt / s.epochLength + 1) * s.epochLength
     (next ≤ s.dtime → exec .pageCounterEpoch s = .next
        { s with epochAt := next, pages := s.pages.map fun e => (e.1, e.2.1, e.2.2.1 / 2, e.2.2.2 / 2) })
     ∧ (s.dtime < next → exec .pageCounterEpoch s = .next s))

/-- R48, R49, R66, R68, R69, R78 to R80, R83, R243: a slot whose turn it is and whose choice is a candidate forms it. The fetch of the clause is one event of S: where the copies that serve its words hold no one state of it (R243), it is made again at the home. A clause fetch that meets a closed range forms nothing; one that fails raises its cause in the threads taken, as does a header that fails its check, each with the header as PC, and a PC off an 8-byte boundary raises 0x00D (the model's choice, log 18). The threads whose header waits do not hold wait there again; a REGROUP header that the slot holds back forms nothing yet; otherwise the words are fetched, a clause that fails its check raises its cause in the threads that would form, and a sound one makes their group. With no turn, no choice, or a group for its choice the event changes nothing. -/
def Obligations.GroupsAreFormed : Prop :=
  ∀ (s : State) (c : CoreId) (k : Nat),
  (s.slotMay c k = false ∨ s.pick c k = none → exec (.groupFormation c k) s = .next s)
  ∧ (∀ u : Pickable, s.pick c k = some u → u.group ≠ none → exec (.groupFormation c k) s = .next s)
  ∧ ∀ (u : Pickable) (m : Team), s.slotMay c k = true → s.pick c k = some u → u.group = none → s.team u.key.team = some m →
    let r := { s.atSlot c k with cur := some s.newId }
    exec (.groupFormation c k) s = .next { (r.formWith c k u m false).getD ((r.formWith c k u m true).getD r) with cur := none }
    ∧ ∀ renew : Bool,
      let n := u.key.team
      let pc := u.key.pc
      let all := r.candidateThreads m u.key
      let ts := r.takeThreads n all
      let old := (ts.find? fun t => ((r.thread ⟨n, t⟩).map Thread.stamp) == some u.stamp && m.placeOf t == u.place && laneOf t == u.lane).getD (ts.headD 0)
      let table := ((r.context m.cn).map Context.table).getD .lv3
      let forms (v : State) : Prop := r.formWith c k u m renew = some v
      let f := r.place.fetchAt ⟨n, old⟩ pc renew
      (pc.toNat % 8 ≠ 0 → forms (r.trapAll n ts pc 0x00D [pc.zeroExtend 64]))
      ∧ (pc.toNat % 8 = 0 →
        (∀ v, f.1 = .closed v → forms r)
        ∧ (∀ cause aux v, f.1 = .got (.fail cause aux) v → forms (v.trapAll n ts pc cause aux))
        ∧ (∀ w v, f.1 = .got (.word w) v →
          let h := headerOf w
          let ready := all.filter fun t => (r.thread ⟨n, t⟩).any fun x => x.waitsHold h
          let late := all.filter fun t => !ready.contains t
          let held := if h.regroup then r.holdBack c k u else none
          (∀ cause, h.cause = some cause → forms (v.trapAll n ts pc cause [0]))
          ∧ (h.cause = none →
            (∀ y, held = some y → forms (y.sendBack n late))
            ∧ (held = none → ready = [] → forms (r.sendBack n late))
            ∧ (held = none → ready ≠ [] →
              (v.fetchWords ⟨n, old⟩ (pc + 8) renew h.length = none → forms r)
              ∧ (∀ ws looks z, v.fetchWords ⟨n, old⟩ (pc + 8) renew h.length = some (ws, looks, z) →
                let x : Clause := ⟨pc, ws, table, h.engineClass⟩
                let one := z.ofOnePlace ⟨n, old⟩ (f.2 :: looks)
                (one = false → r.formWith c k u m renew = none)
                ∧ (∀ cause j, one = true → x.late = some (cause, j) →
                    forms (z.trapAll n (r.takeThreads n ready) pc cause [BitVec.ofNat 64 j]))
                ∧ (one = true → x.late = none → forms ((z.sendBack n late).makeGroup c k u.key x (r.takeThreads n ready) ⟨n, old⟩)))))))

/-- R17, R49, R78, R84, R98, R360, R386 to R388: the hold of a formation by a slot ends at its clk; a delay of yield ends at its clk and not before. A clk of a core adds 1 to its count and 0 or 1 to its ltime, 1 in the last of every 256, and the next clk begins with no slot issued and no generation stepped or read. A unit of one thread that has reached the age of 4,096 clk is counted once, and a younger one is not. A counter that owes a sample emits its kind-4 record once a clk, once no slot as low as that of the event it names may still act, and no other does. The oldest deferred cause of a thread that can take it is taken, with its PC as return PC and, inside a clause, with its place there: before the present instruction, or after it where the thread has executed it; of a thread that cannot, it stays. That ltime adds 1 in the last of every 256 clk is the model's choice (log 9): R17 has it advance at least once in 256 clk and at most once in each. -/
def Obligations.IssueEventsTakeEffect : Prop :=
  ∀ (s : State) (c : CoreId) (k : Nat),
  exec (.regroupHoldExpiry c k) s = .next (s.alterCore c fun x => { x with regroup := x.regroup.map fun (e : CandidateKey × (Nat × Nat)) =>
      if e.2.1 = k ∧ e.2.2 ≤ x.clk then (e.1, (k, 0)) else e })
  ∧ (∀ t x d, s.thread t = some x → x.status = .waiting d →
      (0 < d → d ≤ (s.core (s.coreOf t)).clk → exec (.yieldDelayEnd t) s = .next (s.alterThread t fun x => { x with status := .waiting 0 }))
      ∧ (d = 0 ∨ (s.core (s.coreOf t)).clk < d → exec (.yieldDelayEnd t) s = .next s))
  ∧ (∃ u, exec (.clk c) s = .next u ∧ (u.core c).clk = (s.core c).clk + 1
      ∧ (u.core c).issued = [] ∧ (u.core c).turn = 0 ∧ (u.core c).stepped = [] ∧ (u.core c).checked = []
      ∧ ((u.core c).ltime = (s.core c).ltime ∨ (u.core c).ltime = (s.core c).ltime + 1)
      ∧ ((s.core c).clk % 256 = 255 → (u.core c).ltime = (s.core c).ltime + 1))
  ∧ (∀ team t x, s.allUnits c = [(team, [t])] → s.thread ⟨team, t⟩ = some x →
      (x.stamp + 4096 ≤ ((s.core c).clk : Int) → x.aged = false → exec (.unitPromotion c) s = .next
        ((s.alterThread ⟨team, t⟩ fun x => { x with aged := true }).countFor ⟨team, t⟩ 0x05 1))
      ∧ (((s.core c).clk : Int) < x.stamp + 4096 ∨ x.aged = true → exec (.unitPromotion c) s = .next s))
  ∧ (let y := s.core c
     (∀ o, Table.find y.samples k = some o → o.owed = true → y.sampled.contains k = false →
        o.rank < 32 * Config.slots → (∀ j, j ≤ o.rank / 32 → s.slotMay c j = false) →
        exec (.counterSample c k) s = .next ((s.setCore c { y with sampled := y.sampled.add k }).trace c ⟨o.lid, o.b, o.t⟩ 0 4
          (BitVec.ofNat 64 (k + (y.obs.get (4 + k)).toNat / 4 * 4))))
     ∧ ((∀ o, Table.find y.samples k = some o → o.owed = false ∨ y.sampled.contains k = true ∨ 32 * Config.slots ≤ o.rank
        ∨ ∃ j, j ≤ o.rank / 32 ∧ s.slotMay c j = true) → exec (.counterSample c k) s = .next s))
  ∧ (∀ t x tr rest, s.thread t = some x → x.deferred = tr :: rest →
      let r := s.setThread t { x with deferred := rest }
      (s.deliverable t = false → exec (.deferredCauseDelivery t) s = .next s)
      ∧ (s.deliverable t = true →
        ((∀ n, x.status ≠ .member n) → exec (.deferredCauseDelivery t) s = .next (r.takeTrap t tr x.pc none))
        ∧ (∀ n g, x.status = .member n → s.group n = some g →
              (g.done.contains t.t = false → exec (.deferredCauseDelivery t) s = .next ((r.takeTrap t tr g.pc (some (g.clause, g.idx))).passOn n))
              ∧ (g.done.contains t.t = true → g.idx + 1 < g.clause.words.length →
                  exec (.deferredCauseDelivery t) s = .next ((r.takeTrap t tr (g.clause.address (g.idx + 1)) (some (g.clause, g.idx + 1))).passOn n))
              ∧ (g.done.contains t.t = true → g.clause.words.length ≤ g.idx + 1 →
                  exec (.deferredCauseDelivery t) s = .next ((r.takeTrap t tr g.clause.next none).passOn n)))))

/-- R77, R91, R333 to R337: once every bin of its die whose timer has run out has formed its team, a pending team whose turn has come starts where it fits: the teams of a grid's unit at the places found for them, each leaving the queue; one whose turn has not come, or that fits nowhere, stays. A team that can retire retires, and no other does. A wait of 1 ms is noted, with the time at which it was reached. A co-resident grid pending for 100 µs holds the dispatchers back; one that has not is unchanged. A bin that is ready and holds one record forms its team, and one that is not ready forms none. BINLOAD installs a good image, and notes the refusal of any other. -/
def Obligations.TeamsStartAndRetire : Prop :=
  ∀ (s : State) (die n : Nat),
  let r := s.settleBins die
  (∀ p c, ((r.die die).queue.find? fun p => p.n == n) = some p →
    (r.turnOf die p = false → exec (.teamStart die n c) s = .next r)
    ∧ (r.turnOf die p = true → r.tryStart die p = none → exec (.teamStart die n c) s = .next r)
    ∧ (∀ u, r.turnOf die p = true → r.tryStart die p = some (c, u) → exec (.teamStart die n c) s = .next u)
    ∧ (∀ lid b0 g as a, p.origin = .grid lid b0 → Table.find r.grids lid = some g → g.record.cor = false → r.turnOf die p = true →
        r.placeUnit die g.cn g.record = some (a :: as) → a.core = c →
        exec (.teamStart die n c) s = .next ((r.alterDie die fun d => { d with queue := d.queue.filter fun q => q.n != p.n }).startUnit
          lid b0 g ((List.range (as.length + 1)).zip (a :: as)))))
  ∧ (∀ m, s.team n = some m →
      (s.retirable n m = true → exec (.teamRetire n) s = .next (s.retire n m))
      ∧ (s.retirable n m = false → exec (.teamRetire n) s = .next s)
      ∧ (∀ t x, s.thread ⟨n, t⟩ = some x → x.gone = false → s.retirable n m = false))
  ∧ exec (.dispatchWait1ms die n) s = .next (s.alterDie die fun d => { d with queue := d.queue.map fun p =>
      if p.n = n ∧ p.since + 1000000 ≤ s.dtime then { p with aged := some (p.since + 1000000) } else p })
  ∧ (∀ g, Table.find s.grids n = some g →
      let old := ∃ d ∈ s.dies, ∃ p ∈ d.2.queue, s.lidOf p = some n ∧ s.pendingSince p + 100000 ≤ s.dtime
      ∃ u, exec (.coresPending100us n) s = .next u
        ∧ (g.record.cor = true → old → Table.find u.grids n = some { g with blocking := true })
        ∧ (g.record.cor = false ∨ ¬ old → Table.find u.grids n = some g)
        ∧ (∀ k, k ≠ n → Table.find u.grids k = Table.find s.grids k) ∧ u.threads = s.threads ∧ u.dies = s.dies)
  ∧ (∀ b, Table.find (s.die die).bins n = some b →
      (b.v && b.ready s.dtime) = false → exec (.binTimerExpiry die n) s = .next s)
  ∧ (∀ b, Table.find (s.die die).bins n = some b → b.held.length = 1 →
      b.v = true → b.ready s.dtime = true → exec (.binTimerExpiry die n) s = .next (s.formBinTeam die n b))
  ∧ (∀ v : DWord, (∀ b u, s.binImage die (v.toNat / 2 ^ 56) (v.toNat % 2 ^ 52) = some (b, u) →
        exec (.binload die v) s = .next (u.alterDie die fun d => { d with bins := Table.put d.bins (v.toNat / 2 ^ 56) b }))
      ∧ (s.binImage die (v.toNat / 2 ^ 56) (v.toNat % 2 ^ 52) = none →
        exec (.binload die v) s = .next (s.alterDie die fun d => { d with binErr := true, lbin := BitVec.ofNat 8 (v.toNat / 2 ^ 56) })))

/-- R314, R342 to R345, R348, R397, R398: an invocation that is next is served by the bin or the service that its handler names, or answered with an error, with status 3 where the device has no number; one that is not next, or whose die is under warm reset, waits, and a device whose firmware was rejected serves none. A reply whose turn has come goes to the resident team of its token, is kept with the saved image of that team, or is discarded; where its landing would step a generation that a check of the same clk has read, it has still to land. Every packet of a connection that has gone unacknowledged for 20 µs since it was last sent is sent again; where one of them has been sent 8 times the connection is lost, nothing more of it is sent, and where it is one for invocations every invocation sent on it without an answer is answered with status 3. A lost connection changes no more, nor does one none of whose packets is due. That the first transmission counts among the 8, and that each packet has a timer of its own, is the model's choice (log 17, DEDUCED from R397); that invocations of a die wait for the one with the higher priority and that a bin's die is waited for is log 20. -/
def Obligations.InvocationsAndRepliesArrive : Prop :=
  ∀ (s : State) (n : Nat),
  (∀ dev h pri res token args, Table.find s.msgs n = some (.invocation dev h pri res token args) →
    (s.rejected = true ∨ s.nextInvocation n dev h pri = false → exec (.invocationArrival n) s = .next s)
    ∧ (s.rejected = false → s.nextInvocation n dev h pri = true →
      (s.deviceNumber = 0 → exec (.invocationArrival n) s = .next ((s.take n).answer token 3 0 0))
      ∧ (s.deviceNumber ≠ 0 →
        (∀ why, s.handler h = .error why → exec (.invocationArrival n) s = .next ((s.take n).answer token 4 0 why))
        ∧ (s.handler h = .service 0 → exec (.invocationArrival n) s = .next ((s.take n).serveLaunch res token args))
        ∧ (∀ k, k ≠ 0 → s.handler h = .service k → exec (.invocationArrival n) s = .next ((s.take n).serveWait res token args))
        ∧ (∀ d b, s.handler h = .bin d b →
            ((s.die d).out = false → exec (.invocationArrival n) s = .next ((s.take n).serveBin d b dev pri res token args))
            ∧ ((s.die d).out = true → exec (.invocationArrival n) s = .next s)))))
  ∧ (∀ src token st v why, Table.find s.msgs n = some (.reply src token st v why) →
      let m : Msg := .reply src token st v why
      let team := tokenTeam token
      (s.firstInLine n m = false → exec (.replyArrival n) s = .next s)
      ∧ (s.firstInLine n m = true →
        (∀ x, s.team team = some x → exec (.replyArrival n) s = .next (s.orLater ((s.take n).takeReply team token st v why)))
        ∧ (∀ e, s.team team = none → (s.images.find? fun e => e.2.teamId == team) = some e →
            exec (.replyArrival n) s = .next ((s.take n).keepFor e.1 m))
        ∧ (s.team team = none → (s.images.find? fun e => e.2.teamId == team) = none → exec (.replyArrival n) s = .next (s.take n))))
  ∧ (∀ c, Table.find s.conns n = some c →
      let due := c.packets.filter fun e => decide (e.2.last + 20000 ≤ s.dtime)
      (c.lost = true ∨ due = [] → exec (.retransmitTimeout n) s = .next s)
      ∧ (c.lost = false → (∀ e ∈ due, e.2.sent < 8) → exec (.retransmitTimeout n) s = .next (due.foldl (fun (v : State) e =>
          let w := { v with conns := Table.alter v.conns n fun d => { d with packets := Table.put d.packets e.1 { e.2 with sent := e.2.sent + 1, last := s.dtime } } }
          if v.unsent.contains (.packet n (BitVec.ofNat 32 e.1) e.2.out) then w else w.emit (.packet n (BitVec.ofNat 32 e.1) e.2.out)) s))
      ∧ (c.lost = false → (∃ e ∈ due, 8 ≤ e.2.sent) →
        let gone : State := { s with conns := Table.put s.conns n { c with lost := true }, unsent := s.unsent.filter fun o => !o.isOn n }
        (n % 4 ≠ 0 → exec (.retransmitTimeout n) s = .next gone)
        ∧ (n % 4 = 0 → exec (.retransmitTimeout n) s = .next ((s.unanswered (n / 4)).foldl
            (fun (s : State) t => s.send (.reply .vetch t 3 0 0)) gone))))

/-- R377 to R379, R382, R383: a drained team that has not retired by its deadline is chosen again, with MISSED; a save that does not fit becomes a discard of a restartable team, and otherwise the team drains on; before the deadline nothing changes. Once every wait of a unit is over it is discarded, or saved with its images and queued unless HOLD, and the outcome is written; before, nothing changes. RESTORE queues a block that it accepts, and otherwise notes the status of the refusal. A queued block of images whose turn has come, once every bin of its die whose timer has run out has formed its team, and that fits is back at the core where it fits, image by image at its place; otherwise it stays queued, as it does while the home of an image is under warm reset (the model's choice, log 20). -/
def Obligations.PreemptionEventsTakeEffect : Prop :=
  ∀ (s : State) (n die : Nat),
  (∀ m p, s.team n = some m → m.preempt = some p →
    let us := s.unitTeams m
    let rst := s.restartable m.lid
    let due := p.choice = 0 ∧ p.missed = false ∧ p.deadline ≤ (s.core m.core).clk
    (¬ due → exec (.preqDeadline n) s = .next s)
    ∧ (due → ∀ st choice places, s.weigh us p.die 0 0 (drawSizes s.drawn us) false rst = (st, choice, places) →
      exec (.preqDeadline n) s = .next ({ s with drawn := s.drawn + us.length }.beginPreempt us
        { p with choice := if st = 0 then choice else if rst then 1 else 0, missed := true } places 0)))
  ∧ (∀ m p, s.team n = some m → m.preempt = some p →
      let us := s.unitTeams m
      let ready := p.choice ≠ 0 ∧ (us.all fun e => s.quiet e.1 e.2) = true
      let span := blockSpan (us.filterMap fun e => e.2.preempt.map fun p => (p.pa, p.size))
      let saved := s.saveUnit us
      (¬ ready → exec (.teamSaveComplete n) s = .next s)
      ∧ (ready → p.choice = 1 → exec (.teamSaveComplete n) s = .next ((s.discard us).writeOutcome m.core m.lid p 1 0 0))
      ∧ (ready → p.choice ≠ 1 → p.hold = true → exec (.teamSaveComplete n) s = .next (saved.writeOutcome m.core m.lid p 2 span.1 span.2))
      ∧ (ready → p.choice ≠ 1 → p.hold = false → exec (.teamSaveComplete n) s = .next
          ((saved.queueImages p.die (saved.placesAt span.1)).writeOutcome m.core m.lid p 2 span.1 span.2)))
  ∧ (∀ (v : DWord),
      (∀ st, s.restoreBlock die (v.toNat % 2 ^ 52) = .error st → exec (.restore die v) s = .next (s.alterDie die fun d =>
        { d with reststat := BitVec.ofNat 64 (st * 256 + if st ≠ 0 ∨ d.reststat.getLsbD 0 = true then 1 else 0) }))
      ∧ (∀ is, s.restoreBlock die (v.toNat % 2 ^ 52) = .ok is →
        let r := is.foldl (fun (r : List (Nat × Image) × State) e => ((r.1 ++ [(r.2.adopt e).1]), (r.2.adopt e).2)) ([], s)
        exec (.restore die v) s = .next ((r.2.queueImages die r.1).alterDie die fun d =>
          { d with reststat := BitVec.ofNat 64 (if d.reststat.getLsbD 0 = true then 1 else 0) })))
  ∧ (let r := s.settleBins die
    ∀ p pa c, ((r.die die).queue.find? fun p => p.n == n) = some p → p.origin = .image pa →
      let is := r.placesAt pa
      let places := r.placeImages die (is.map Prod.snd)
      (r.turnOf die p = false ∨ places = none ∨ (∃ e ∈ is, (r.die (homeDie e.1)).out = true) → exec (.teamRestore die n c) s = .next r)
      ∧ (∀ a as, places = some (a :: as) → a.core ≠ c → exec (.teamRestore die n c) s = .next r)
      ∧ (∀ a as, r.turnOf die p = true → places = some (a :: as) → a.core = c → (∀ e ∈ is, (r.die (homeDie e.1)).out = false) →
          ∀ lid, r.lidOf p = some lid →
          exec (.teamRestore die n c) s = .next (((is.zip (a :: as)).foldl (fun (s : State) e => s.restoreImage e.1.1 e.1.2 e.2)
            (r.alterDie die fun d => { d with queue := d.queue.filter fun q => q.n != n })).endBlocking lid)))

/-- R321, R351, R367, R388: a write of MSTn of a Sorrel die is accepted, or refused with its ERR bit set. A write of CTXID of a context 1 to 4095 makes it, writes its SYS, ends it when nothing uses it, and otherwise changes nothing; of 0 it changes nothing. TRSIZE sets the ring's size and TRHEAD 0.
R401: DIERST takes an admitted die out and removes what is resident on it, unless it would leave none; the reset goes on phase by phase, with the dirty sectors of its L2 written back in phase 2, until the die is admitted again.
R389: STEPCMD of a team that is not resident gives status 1. enter stops a team that is not stepped, and otherwise gives status 3; step and leave of a team that is not stepped give status 2; step lets a stopped team run, up to its limit (where a pre-emption has stopped its threads the step ends at once, and the team stays stopped), and leave lets a stepped team go. STEPSTAT tells the status of the command, and BUSY while a step of any team of the die runs. A step ends when every thread has settled and nothing of the team is under way, or at its limit, and not before.
R390: RPSTART finds a session running, or a descriptor that begins none, or begins its first pass. HVEC 0 and PTROOT 0 of a context that is made are the model's choice (log 2). -/
def Obligations.RegisterWritesWithRowsTakeEffect : Prop :=
  ∀ (s : State) (die n : Nat) (v : DWord),
  (die < 8 → n < 8 →
    (s.mstRefused die n (v &&& 0xFFFF0001) = true → exec (.mstWrite die n v) s = .next (s.alterDie die fun d => { d with mststat := d.mststat ||| (1#8 <<< n) }))
    ∧ (s.mstRefused die n (v &&& 0xFFFF0001) = false → exec (.mstWrite die n v) s = .next (s.alterDie die fun d =>
        { d with mst := d.mst.set n (v &&& 0xFFFF0001), mststat := d.mststat &&& ~~~(1#8 <<< n) })))
  ∧ (exec (.ctxidWrite 0 v) s = .next s)
  ∧ (1 ≤ n → n < 4096 →
      (s.context n = none → v.getLsbD 63 = true →
        exec (.ctxidWrite n v) s = .next { s with contexts := Table.put s.contexts n ⟨true, v.getLsbD 40, 0, 0, 0, .lv3, []⟩ })
      ∧ (s.context n = none → v.getLsbD 63 = false → exec (.ctxidWrite n v) s = .next s)
      ∧ (∀ x, s.context n = some x → v.getLsbD 63 = true → exec (.ctxidWrite n v) s = .next (s.setSys n (v.getLsbD 40)))
      ∧ (∀ x, s.context n = some x → v.getLsbD 63 = false → s.contextBusy n = true → exec (.ctxidWrite n v) s = .next s)
      ∧ (∀ x, s.context n = some x → v.getLsbD 63 = false → s.contextBusy n = false → exec (.ctxidWrite n v) s = .next (s.endContext n)))
  ∧ exec (.trsizeWrite die v) s = .next (s.alterDie die fun d => { d with trsize := v &&& 0xFFFFFF, trhead := 0 })
  ∧ (let d := v.toNat % 16
     (8 ≤ d ∨ (s.die d).out = true ∨ 7 ≤ s.outDies.length → exec (.dierst v) s = .next s)
     ∧ (d < 8 → (s.die d).out = false → s.outDies.length < 7 →
        exec (.dierst v) s = .next ({ s.alterDie d fun x => { x with out := true, phase := 1 } with lastReset := d }.quiesce d)))
  ∧ ((s.die die).out = false → exec (.dieReadmit die) s = .next s)
  ∧ ((s.die die).out = true →
      ((s.die die).phase < 2 → exec (.dieReadmit die) s = .next (((s.die die).l2.foldl (fun (s : State) l => s.writeBack l) s).alterDie die
          fun d => { d with phase := 2, l2 := d.l2.map fun l => { l with dirty := 0 } }))
      ∧ ((s.die die).phase = 2 → exec (.dieReadmit die) s = .next (s.setDie die { s.die die with phase := 3 }))
      ∧ (3 ≤ (s.die die).phase → exec (.dieReadmit die) s = .next (s.readmit die)))
  ∧ (s.stepTarget die v = none → exec (.stepEnter die v) s = .next (s.stepStatus die 1)
      ∧ exec (.stepStep die v) s = .next (s.stepStatus die 1) ∧ exec (.stepLeave die v) s = .next (s.stepStatus die 1))
  ∧ (∀ k m, s.stepTarget die v = some (k, m) →
      let freed := ((s.alterTeam k fun m => { m with stepMode := .none }).releaseBrk k).stepStatus die 0
      (m.stepMode = .none →
        exec (.stepEnter die v) s = .next (((s.unwind k).alterTeam k fun m => { m with stepMode := .stopped }).stepStatus die 0)
        ∧ exec (.stepStep die v) s = .next (s.stepStatus die 2) ∧ exec (.stepLeave die v) s = .next (s.stepStatus die 2))
      ∧ (m.stepMode = .stopped →
        let limit := v.toNat / 2 ^ 16 % 2 ^ 16
        exec (.stepEnter die v) s = .next (s.stepStatus die 3)
        ∧ (let going := s.alterTeam k fun m => { m with stepMode := .running (if limit = 0 then none else some ((s.core m.core).clk + 1024 * limit)) [] }
          (m.frozen = false → exec (.stepStep die v) s = .next ((going.releaseBrk k).stepStatus die 0))
          ∧ (m.frozen = true → exec (.stepStep die v) s = .next ((going.stepStatus die 0).endStep k)))
        ∧ exec (.stepLeave die v) s = .next freed)
      ∧ (∀ l r, m.stepMode = .running l r →
        exec (.stepEnter die v) s = .next (s.stepStatus die 3) ∧ exec (.stepStep die v) s = .next s
        ∧ exec (.stepLeave die v) s = .next freed))
  ∧ (∀ m l r, s.team n = some m → m.stepMode = .running l r →
      let due := (∃ e, l = some e ∧ e ≤ (s.core m.core).clk)
        ∨ ((∀ e ∈ s.threads, e.1.team = n → s.settled n m e.1.t e.2 = true) ∧ s.underWay n m = false ∧ s.stirring n m = false)
      (due → exec (.stepEnd n) s = .next (s.endStep n)) ∧ (¬ due → exec (.stepEnd n) s = .next s))
  ∧ ((∀ r, s.replay = some r → exec (.rpstart v) s = .next { s with rpstat := (s.rpstat &&& 0xFFFFFFFFFFFFFF00) ||| 6 })
      ∧ (s.replay = none → s.descriptor (v.toNat % 2 ^ 52) = none → exec (.rpstart v) s = .next { s with rpstat := rpstatOf 5 0 0 })
      ∧ (∀ r, s.replay = none → s.descriptor (v.toNat % 2 ^ 52) = some r → exec (.rpstart v) s = .next (s.place.beginPass r 0)))

/-- R222, R256, R396, R397: a memory message on a connection that Vetch serves, before which no memory message of that connection is still to be served, moves one piece of at most 64 bytes in one place of S, from or to memory or, for an aligned piece of 4 bytes, a register of a window; it goes on with the rest, and ends with its data or its confirmation, or with the cause that a piece meets; it waits at a closed range and behind an earlier message of its connection, and is dropped on any other connection. R397 to R399: management messages and attestation are served, or answered as rejected while the firmware is; no request comes in while no port is up. R396: the link of an enabled port comes up with NETCFG and what waited is sent, and that of no other port does. -/
def Obligations.MessagesFromOutsideAreServed : Prop :=
  ∀ (s : State) (n : Nat),
  (∀ conn va len got, Table.find s.msgs n = some (.memRead conn va len got) →
    (s.boundContext conn = none → exec (.memoryReadMessage n) s = .next { s with msgs := Table.drop s.msgs n })
    ∧ (∀ cn, s.boundContext conn = some cn → (∃ e ∈ s.msgs, e.1 < n ∧ e.2.readsOrWrites conn = true) → exec (.memoryReadMessage n) s = .next s)
    ∧ (∀ cn, s.boundContext conn = some cn → (∀ e ∈ s.msgs, e.2.readsOrWrites conn = true → n ≤ e.1) →
      let k := pieceLength va len
      let at_ := s.messagePlace cn needRead va k
      let moves (w : State) (bs : List Byte) : Prop :=
        (len ≤ k → exec (.memoryReadMessage n) s = .next (w.endMessage n conn (.data conn (got ++ bs))))
        ∧ (k < len → exec (.memoryReadMessage n) s = .next
            { w with msgs := Table.put w.msgs n (.memRead conn (va + BitVec.ofNat 57 k) (len - k) (got ++ bs)) })
      (len = 0 → exec (.memoryReadMessage n) s = .next (s.endMessage n conn (.data conn got)))
      ∧ (len ≠ 0 → ∀ u, at_ = (.error none, u) → exec (.memoryReadMessage n) s = .next s)
      ∧ (len ≠ 0 → ∀ c u, at_ = (.error (some c), u) → exec (.memoryReadMessage n) s = .next (u.endMessage n conn (.error conn c)))
      ∧ (len ≠ 0 → ∀ pa u, at_ = (.ok (.hbm pa), u) → moves (u.place.outsideUse cn va pa false) (u.place.bytes pa k))
      ∧ (len ≠ 0 → ∀ d o u, at_ = (.ok (.window d o), u) → moves u.place (bytesOf (u.place.readWindow d o) 4))))
  ∧ (∀ conn va bs, Table.find s.msgs n = some (.memWrite conn va bs) →
    (s.boundContext conn = none → exec (.memoryWriteMessage n) s = .next { s with msgs := Table.drop s.msgs n })
    ∧ (∀ cn, s.boundContext conn = some cn → (∃ e ∈ s.msgs, e.1 < n ∧ e.2.readsOrWrites conn = true) → exec (.memoryWriteMessage n) s = .next s)
    ∧ (∀ cn, s.boundContext conn = some cn → (∀ e ∈ s.msgs, e.2.readsOrWrites conn = true → n ≤ e.1) →
      let k := pieceLength va bs.length
      let at_ := s.messagePlace cn needWrite va k
      let moves (w : State) : Prop :=
        (bs.length ≤ k → exec (.memoryWriteMessage n) s = .next (w.endMessage n conn (.done conn)))
        ∧ (k < bs.length → exec (.memoryWriteMessage n) s = .next
            { w with msgs := Table.put w.msgs n (.memWrite conn (va + BitVec.ofNat 57 k) (bs.drop k)) })
      (bs = [] → exec (.memoryWriteMessage n) s = .next (s.endMessage n conn (.done conn)))
      ∧ (bs ≠ [] → ∀ u, at_ = (.error none, u) → exec (.memoryWriteMessage n) s = .next s)
      ∧ (bs ≠ [] → ∀ c u, at_ = (.error (some c), u) → exec (.memoryWriteMessage n) s = .next (u.endMessage n conn (.error conn c)))
      ∧ (bs ≠ [] → ∀ pa u, at_ = (.ok (.hbm pa), u) → moves ((u.outsideUse cn va pa true).deviceStore pa (bs.take k)))
      ∧ (bs ≠ [] → ∀ d o u, at_ = (.ok (.window d o), u) →
          moves (u.place.writeWindow messageCore d o (BitVec.ofNat 32 (natOfBytes (bs.take k)))))))
  ∧ (∀ r, Table.find s.msgs n = some (.management r) →
      (s.rejected = true → exec (.managementMessage n) s = .next ({ s with msgs := Table.drop s.msgs n }.emit .rejected))
      ∧ (s.rejected = false → exec (.managementMessage n) s = .next ({ s with msgs := Table.drop s.msgs n }.manage r)))
  ∧ (∀ nonce, (s.portUp = false → exec (.attestationRequest nonce) s = .next s)
      ∧ (s.portUp = true → s.rejected = true → exec (.attestationRequest nonce) s = .next (s.emit .rejected))
      ∧ (s.portUp = true → s.rejected = false → exec (.attestationRequest nonce) s = .next (s.emit (.attestation (s.attestation nonce))))
      ∧ (s.attestation nonce).length = 720)
  ∧ (n < 8 → s.netcfg.getLsbD n = true → exec (.ethernetLinkUp n) s = .next { s with ports := Table.put s.ports n s.netcfg }.flush)
  ∧ (8 ≤ n ∨ s.netcfg.getLsbD n = false → exec (.ethernetLinkUp n) s = .next s)

/-- R16, R17, R398, R400: a cold start leaves no thread, team, group, core state, die state, context or grid, empty memory, dtime and DEVNUM 0, and the firmware measured and verified. A warm start leaves no thread, team, group, die state, context or grid; dtime and DEVNUM go on, as do the clk and the ltime of every core, and so does memory unless it is cleared. R403: above 100 °C a die's step rises by one, and at 112 °C the die reports a thermal machine check; up to 100 °C only its temperature is noted; below 96 °C its own limit does not rise, and from there up it stays; Vetch holds it at a step of at most 15. R404: there is no error on a die that does not exist; on dies 0 to 8 an uncorrectable error for no thread, or for one that has exited, is reported as 0x1E0 and leaves every thread and memory; for a thread that lives it stops that thread, which keeps its registers, and is reported as 0x1E0. That a warm start leaves no team, context or grid, and keeps the clk and the ltime of every core, is the model's choice (log 17, DEDUCED from R400 and R17). -/
def Obligations.StartsPowerAndErrorsTakeEffect : Prop :=
  ∀ (s : State) (die : Nat),
  (∀ i, ∃ u, exec (.coldStart i) s = .next u ∧ u.threads = [] ∧ u.teams = [] ∧ u.groups = [] ∧ u.cores = [] ∧ u.dies = [] ∧ u.contexts = []
      ∧ u.grids = [] ∧ u.mem = [] ∧ u.dtime = 0 ∧ u.devnum = 0 ∧ u.measured = Config.sha512 i.image
      ∧ u.rejected = !Config.verifies (Config.sha512 i.image) i.signature)
  ∧ (∀ i clear, ∃ u, exec (.warmStart i clear) s = .next u ∧ u.threads = [] ∧ u.teams = [] ∧ u.groups = [] ∧ u.dies = []
      ∧ (∀ e ∈ s.cores, (u.core e.1).clk = (s.core e.1).clk ∧ (u.core e.1).ltime = (s.core e.1).ltime)
      ∧ u.contexts = [] ∧ u.grids = [] ∧ u.dtime = s.dtime ∧ u.devnum = s.devnum ∧ (clear = false → u.mem = s.mem) ∧ (clear = true → u.mem = []))
  ∧ (∀ temp, die < 8 →
      (100 < temp → temp < 112 → ∃ u, exec (.thermalStep die temp) s = .next u ∧ (u.die die).temp = temp ∧ (u.die die).heat = min 15 ((s.die die).step + 1))
      ∧ (112 ≤ temp → exec (.thermalStep die temp) s = .next
          ((((s.alterDie die fun d => { d with temp := temp }).machineCheck die 8).reportCheck die).startReset (BitVec.ofNat 64 die)))
      ∧ (temp ≤ 100 → exec (.thermalStep die temp) s = .next (s.alterDie die fun d => { d with temp := temp }))
      ∧ (temp < 96 → ∃ u, exec (.tempFallsBelow96c die temp) s = .next u ∧ (u.die die).temp = temp ∧ (u.die die).heat ≤ (s.die die).heat)
      ∧ (96 ≤ temp → exec (.tempFallsBelow96c die temp) s = .next s)
      ∧ exec (.packagePowerLimitStep die temp) s = .next (s.alterDie die fun d => { d with limited := min 15 temp }))
  ∧ (∀ kind addr t, 8 < die → exec (.uncorrectableError die kind t addr) s = .next s)
  ∧ (∀ kind addr t, die ≤ 8 → (∀ x, t.bind s.thread = some x → x.gone = true) → ∃ u, exec (.uncorrectableError die kind t addr) s = .next u
      ∧ u.threads = s.threads ∧ u.mem = s.mem ∧ (u.reports.getLast?.map fun r => r.trap.cause) = some 0x1E0)
  ∧ (∀ kind t x addr, die ≤ 8 → s.thread t = some x → x.gone = false → ∃ u y, exec (.uncorrectableError die kind (some t) addr) s = .next u
      ∧ u.thread t = some y ∧ y.status = .stopped none ∧ y.regs = x.regs ∧ (u.reports.getLast?.map fun r => r.trap.cause) = some 0x1E0)

/-! The machine as a whole -/

/-- R46, R81, R83: the turn of a slot that may act (R83), whose choice is a formed group none of whose members has a deferred cause to take, issues the group's present word. When the context's table decodes the word to an instruction, the step is that instruction's execution with the group current; a next state is followed by the record of what the slot has issued, and by the class 0 ties whose conditions hold (R232). When the table rejects the word, the cause of the rejection is raised in every member and the slot has acted, and the ties follow. -/
def Obligations.StepRunsTheDecodedInstruction : Prop :=
  ∀ (s : State) (c : CoreId) (k : Nat) (rest : List Turn) (u : Pickable) (n : Nat) (g : Group) (w : DWord),
  s.sched = .slot c k :: rest →
  let r : State := { s with sched := rest, cur := none }
  r.slotMay c k = true → r.pick c k = some u → u.group = some n → s.group n = some g →
  (∀ t ∈ g.members, r.deliverable ⟨g.team, t⟩ = false) → g.clause.words[g.idx]? = some (.word w) →
  (∀ i, decodeWord g.clause.table w = .ok i →
    step s = match exec i { s with sched := rest, cur := some n } with
      | .next t => .next (t.afterIssue r c k n g (guardField w)).takeTies
      | .fault f => .fault f
      | .refused f => .refused f)
  ∧ (∀ e, decodeWord g.clause.table w = .error e → step s = .next ((trapGroup { s with sched := rest, cur := some n } g e.cause []).atSlot c k).takeTies)

/-- A turn of the schedule that names an event runs that row, and one that names an instruction runs nothing; with no turn left, time passes; with a tick, a nanosecond of device time does; what comes in from outside joins the messages, a packet of a connection in its turn; an upset spoils a sector or a word of an array, and a corrected error is counted. After each, the class 0 ties whose conditions hold are in force (R232). The turns are the model's own (log 1). -/
def Obligations.StepTakesTheNextTurn : Prop :=
  ∀ (s : State) (rest : List Turn),
  let r : State := { s with sched := rest, cur := none }
  (s.sched = [] → step s = .next s.passTime.takeTies)
  ∧ (∀ i, s.sched = .event i :: rest → encode i = none → step s = match exec i r with
      | .next t => .next t.takeTies
      | .fault f => .fault f
      | .refused f => .refused f)
  ∧ (∀ i w, s.sched = .event i :: rest → encode i = some w → step s = .next r.takeTies)
  ∧ (s.sched = .tick :: rest → step s = .next ({ r with dtime := r.dtime + 1 } : State).takeTies)
  ∧ (∀ m, s.sched = .arrive m :: rest → step s = .next (r.arriveMsg m).takeTies)
  ∧ (∀ conn seq m, s.sched = .packet conn seq m :: rest → step s = .next (r.arrivePacket conn seq m).takeTies)
  ∧ (∀ d, s.sched = .correct d :: rest → step s = .next (r.correctError d).takeTies)
  ∧ (∀ p, s.sched = .spoil p :: rest → step s = .next (r.spoilSector p).takeTies)
  ∧ (∀ c a w v, s.sched = .strike c a w v :: rest → step s = .next (r.strikeWord c a w v).takeTies)

/-- Memory keeps its canonical form: its entries stand in rising order of address and none equals what an unlisted address reads as, in every state that a step leaves, whatever the turn: an instruction, an event, time, a message from outside or a start (R2, R221). The form is the model's own way to write a map from addresses to bytes; that the state after reset has it is a statement of its own. -/
def Obligations.EveryStepKeepsMemoryCanonical : Prop :=
  ∀ s u : State, Memory.wf s.mem = true → step s = .next u → Memory.wf u.mem = true

/-- R4, R228, R234, R342, R388, R396, R400: after reset no thread, team, group, grid or context is live and memory has its canonical form; device time is 0, PGMODE is 0x0000140040021001, NETCFG is 0x000059D8000100FF, DEVNUM, RPSTAT and HTBASE are 0, each PWMp is its Reset value; of every die, TRHEAD and MCSTAT are 0, no unit waits and the die is in; of every core, no accumulator effect waits, the L1 is empty and every array is in storage mode; and HTSIZE is 16, the entries that R342 has at start. The values 0 of HTBASE and of SPLIT in NETCFG, for which the spec gives none, are the model's choice (log 2), and that HTSIZE is 16 is its reading (log 11). -/
def Obligations.ResetHoldsTheSpecifiedValues : Prop :=
  State.reset.threads = [] ∧ State.reset.teams = [] ∧ State.reset.groups = [] ∧ State.reset.grids = [] ∧ State.reset.contexts = []
  ∧ State.reset.mem.wf = true ∧ State.reset.netcfg = 0x000059D8000100FF ∧ State.reset.devnum = 0 ∧ State.reset.dtime = 0
  ∧ State.reset.pgmode = 0x0000140040021001 ∧ State.reset.rpstat = 0 ∧ State.reset.htbase = 0 ∧ State.reset.htsize = 16
  ∧ State.reset.pwm = pwmReset
  ∧ (∀ d, (State.reset.die d).trhead = 0 ∧ (State.reset.die d).mcstat = 0 ∧ (State.reset.die d).queue = [] ∧ (State.reset.die d).out = false)
  ∧ (∀ c, (State.reset.core c).accq = [] ∧ (State.reset.core c).l1 = [] ∧ ∀ a, (State.reset.array c a).compute = false)
end

