-- ==== Sys2Proof/Laws/Encoding.lean ====
section
/-! SUPPORT. Laws of the encoder: the opcode, the guard, the format and the 48 format bits of a packed word are read back by the field functions, and each layout is read back whole. -/

namespace Sys2Proof

/-- A field above the lower part of two joined fields is a field of the upper part. -/
theorem append_field_high (a b : Nat) (x : BitVec a) (y : BitVec b) (s l : Nat) (h : b ≤ s) :
    BitVec.extractLsb' s l (x ++ y) = x.extractLsb' (s - b) l :=
  BitVec.extractLsb'_append_eq_of_le h

/-- A field inside the lower part of two joined fields is a field of the lower part. -/
theorem append_field_low (a b : Nat) (x : BitVec a) (y : BitVec b) (s l : Nat) (h : s + l ≤ b) :
    BitVec.extractLsb' s l (x ++ y) = y.extractLsb' s l :=
  BitVec.extractLsb'_append_eq_of_add_le h

@[simp] theorem field_whole (n : Nat) (x : BitVec n) : x.extractLsb' 0 n = x :=
  BitVec.extractLsb'_eq_self

@[simp] theorem bitOf_beq_one (b : Bool) : (bitOf b == 1#1) = b := by
  cases b <;> rfl

@[simp] theorem opcodeField_packWord (op : Nat) (g : Guard) (F : Format) (p : BitVec 48) :
    opcodeField (packWord op g F p) = op % 1024 := by
  unfold opcodeField fieldOf packWord
  simp (disch := decide) only [append_field_high 10 54, Nat.sub_self, field_whole]
  simp

@[simp] theorem guardField_packWord (op : Nat) (g : Guard) (F : Format) (p : BitVec 48) :
    guardField (packWord op g F p) = g := by
  unfold guardField flagOf fieldOf packWord
  simp (disch := decide) [append_field_low 10 54, append_field_high 1 53, append_field_low 1 53, append_field_high 3 50]

@[simp] theorem formatOf_code (F : Format) : formatOf F.code = F := by
  cases F <;> rfl

@[simp] theorem formatField_packWord (op : Nat) (g : Guard) (F : Format) (p : BitVec 48) :
    formatField (packWord op g F p) = F := by
  unfold formatField fieldOf packWord
  simp (disch := decide) [append_field_low 10 54, append_field_low 1 53, append_field_low 3 50, append_field_high 2 48]

/-- A field of the 48 format bits of a packed word. -/
theorem fieldOf_packWord (op : Nat) (g : Guard) (F : Format) (p : BitVec 48) (lo len : Nat) (h : lo + len ≤ 48) :
    fieldOf (packWord op g F p) lo len = p.extractLsb' lo len := by
  unfold fieldOf packWord
  rw [append_field_low 10 54 _ _ _ _ (by omega), append_field_low 1 53 _ _ _ _ (by omega),
    append_field_low 3 50 _ _ _ _ (by omega), append_field_low 2 48 _ _ _ _ (by omega)]

/-- A flag of the 48 format bits of a packed word. -/
theorem flagOf_packWord (op : Nat) (g : Guard) (F : Format) (p : BitVec 48) (n : Nat) (h : n + 1 ≤ 48) :
    flagOf (packWord op g F p) n = (p.extractLsb' n 1 == 1#1) := by
  have := fieldOf_packWord op g F p n 1 h
  unfold fieldOf at this
  unfold flagOf
  rw [this]
  rfl

@[simp] theorem unpackR_packWord (op : Nat) (F : Format) (f : RF) :
    unpackR (packWord op f.g F f.payload) = f := by
  unfold unpackR
  simp (disch := decide) only [guardField_packWord, fieldOf_packWord, flagOf_packWord]
  simp (disch := decide) [RF.payload, append_field_high 8 40, append_field_high 8 32, append_field_high 8 24, append_field_high 8 16, append_field_high 1 15, append_field_high 1 14, append_field_high 1 13, append_field_high 4 9, append_field_high 2 7, append_field_high 1 6, append_field_high 1 5, append_field_high 3 2,
    append_field_low 8 40, append_field_low 8 32, append_field_low 8 24, append_field_low 8 16, append_field_low 1 15, append_field_low 1 14, append_field_low 1 13, append_field_low 4 9, append_field_low 2 7, append_field_low 1 6, append_field_low 1 5, append_field_low 3 2]

@[simp] theorem unpackCvt_packWord (op : Nat) (F : Format) (f : CvtF) :
    unpackCvt (packWord op f.g F f.payload) = f := by
  unfold unpackCvt
  simp (disch := decide) only [guardField_packWord, fieldOf_packWord, flagOf_packWord]
  simp (disch := decide) [CvtF.payload, append_field_high 8 40, append_field_high 8 32, append_field_high 8 24, append_field_high 8 16, append_field_high 1 15, append_field_high 2 13, append_field_high 4 9, append_field_high 2 7, append_field_high 1 6, append_field_high 1 5, append_field_high 4 1,
    append_field_low 8 40, append_field_low 8 32, append_field_low 8 24, append_field_low 8 16, append_field_low 1 15, append_field_low 2 13, append_field_low 4 9, append_field_low 2 7, append_field_low 1 6, append_field_low 1 5, append_field_low 4 1]

@[simp] theorem unpackI_packWord (op : Nat) (F : Format) (f : IF) :
    unpackI (packWord op f.g F f.payload) = f := by
  unfold unpackI
  simp (disch := decide) only [guardField_packWord, fieldOf_packWord]
  simp (disch := decide) [IF.payload, append_field_high 8 40, append_field_high 8 32,
    append_field_low 8 40, append_field_low 8 32]

@[simp] theorem unpackM_packWord (op : Nat) (F : Format) (f : MF) :
    unpackM (packWord op f.g F f.payload) = f := by
  unfold unpackM
  simp (disch := decide) only [guardField_packWord, fieldOf_packWord]
  simp (disch := decide) [MF.payload, append_field_high 8 40, append_field_high 8 32, append_field_high 24 8, append_field_high 4 4,
    append_field_low 8 40, append_field_low 8 32, append_field_low 24 8, append_field_low 4 4]

@[simp] theorem unpackBr_packWord (op : Nat) (F : Format) (f : BrF) :
    unpackBr (packWord op f.g F f.payload) = f := by
  unfold unpackBr
  simp (disch := decide) only [guardField_packWord, fieldOf_packWord]
  simp (disch := decide) [BrF.payload, append_field_high 40 8,
    append_field_low 40 8]

@[simp] theorem unpackBrc_packWord (op : Nat) (F : Format) (f : BrcF) :
    unpackBrc (packWord op f.g F f.payload) = f := by
  unfold unpackBrc
  simp (disch := decide) only [guardField_packWord, fieldOf_packWord, flagOf_packWord]
  simp (disch := decide) [BrcF.payload, append_field_high 8 40, append_field_high 8 32, append_field_high 1 31, append_field_high 1 30, append_field_high 1 29, append_field_high 3 26,
    append_field_low 8 40, append_field_low 8 32, append_field_low 1 31, append_field_low 1 30, append_field_low 1 29, append_field_low 3 26]

@[simp] theorem unpackK_packWord (op : Nat) (F : Format) (f : KF) :
    unpackK (packWord op f.g F f.payload) = f := by
  unfold unpackK
  simp (disch := decide) only [guardField_packWord, fieldOf_packWord, flagOf_packWord]
  simp (disch := decide) [KF.payload, append_field_high 2 46, append_field_high 6 40, append_field_high 2 38, append_field_high 6 32, append_field_high 2 30, append_field_high 6 24, append_field_high 8 16, append_field_high 8 8, append_field_high 1 7, append_field_high 1 6, append_field_high 3 3,
    append_field_low 2 46, append_field_low 6 40, append_field_low 2 38, append_field_low 6 32, append_field_low 2 30, append_field_low 6 24, append_field_low 8 16, append_field_low 8 8, append_field_low 1 7, append_field_low 1 6, append_field_low 3 3]

@[simp] theorem unpackLdmx_packWord (op : Nat) (F : Format) (f : LdmxF) :
    unpackLdmx (packWord op f.g F f.payload) = f := by
  unfold unpackLdmx
  simp (disch := decide) only [guardField_packWord, fieldOf_packWord]
  simp (disch := decide) [LdmxF.payload, append_field_high 8 40, append_field_high 8 32, append_field_high 8 24, append_field_high 6 18, append_field_high 2 16, append_field_high 2 14, append_field_high 2 12,
    append_field_low 8 40, append_field_low 8 32, append_field_low 8 24, append_field_low 6 18, append_field_low 2 16, append_field_low 2 14, append_field_low 2 12]

@[simp] theorem unpackMma_packWord (op : Nat) (F : Format) (f : MmaF) :
    unpackMma (packWord op f.g F f.payload) = f := by
  unfold unpackMma
  simp (disch := decide) only [guardField_packWord, fieldOf_packWord, flagOf_packWord]
  simp (disch := decide) [MmaF.payload, append_field_high 5 43, append_field_high 1 42, append_field_high 1 41, append_field_high 1 40, append_field_high 2 38, append_field_high 6 32, append_field_high 2 30, append_field_high 6 24, append_field_high 1 23, append_field_high 1 22, append_field_high 2 20, append_field_high 1 19,
    append_field_low 5 43, append_field_low 1 42, append_field_low 1 41, append_field_low 1 40, append_field_low 2 38, append_field_low 6 32, append_field_low 2 30, append_field_low 6 24, append_field_low 1 23, append_field_low 1 22, append_field_low 2 20, append_field_low 1 19]

@[simp] theorem unpackAc_packWord (op : Nat) (F : Format) (f : AcF) :
    unpackAc (packWord op f.g F f.payload) = f := by
  unfold unpackAc
  simp (disch := decide) only [guardField_packWord, fieldOf_packWord, flagOf_packWord]
  simp (disch := decide) [AcF.payload, append_field_high 8 40, append_field_high 8 32, append_field_high 8 24, append_field_high 8 16, append_field_high 4 12, append_field_high 3 9, append_field_high 2 7, append_field_high 1 6, append_field_high 1 5,
    append_field_low 8 40, append_field_low 8 32, append_field_low 8 24, append_field_low 8 16, append_field_low 4 12, append_field_low 3 9, append_field_low 2 7, append_field_low 1 6, append_field_low 1 5]

@[simp] theorem unpackX_packWord (op : Nat) (F : Format) (f : XF) :
    unpackX (packWord op f.g F f.payload) = f := by
  unfold unpackX
  simp (disch := decide) only [guardField_packWord, fieldOf_packWord]
  simp (disch := decide) [XF.payload, append_field_high 8 40, append_field_high 8 32, append_field_high 8 24, append_field_high 8 16,
    append_field_low 8 40, append_field_low 8 32, append_field_low 8 24, append_field_low 8 16]

@[simp] theorem unpackAmode_packWord (op : Nat) (F : Format) (f : AmodeF) :
    unpackAmode (packWord op f.g F f.payload) = f := by
  unfold unpackAmode
  simp (disch := decide) only [guardField_packWord, fieldOf_packWord, flagOf_packWord]
  simp (disch := decide) [AmodeF.payload, append_field_high 3 45, append_field_high 5 40, append_field_high 1 39,
    append_field_low 3 45, append_field_low 5 40, append_field_low 1 39]

@[simp] theorem unpackSync_packWord (op : Nat) (F : Format) (f : SyncF) :
    unpackSync (packWord op f.g F f.payload) = f := by
  unfold unpackSync
  simp (disch := decide) only [guardField_packWord, fieldOf_packWord, flagOf_packWord]
  simp (disch := decide) [SyncF.payload, append_field_high 8 40, append_field_high 8 32, append_field_high 8 24, append_field_high 1 23, append_field_high 21 2,
    append_field_low 8 40, append_field_low 8 32, append_field_low 8 24, append_field_low 1 23, append_field_low 21 2]

@[simp] theorem unpackRinv_packWord (op : Nat) (F : Format) (f : RinvF) :
    unpackRinv (packWord op f.g F f.payload) = f := by
  unfold unpackRinv
  simp (disch := decide) only [guardField_packWord, fieldOf_packWord]
  simp (disch := decide) [RinvF.payload, append_field_high 8 40, append_field_high 8 32, append_field_high 8 24, append_field_high 4 20, append_field_high 2 18, append_field_high 16 2,
    append_field_low 8 40, append_field_low 8 32, append_field_low 8 24, append_field_low 4 20, append_field_low 2 18, append_field_low 16 2]

@[simp] theorem unpackTrap_packWord (op : Nat) (F : Format) (f : TrapF) :
    unpackTrap (packWord op f.g F f.payload) = f := by
  unfold unpackTrap
  simp (disch := decide) only [guardField_packWord, fieldOf_packWord]
  simp (disch := decide) [TrapF.payload, append_field_high 4 44,
    append_field_low 4 44]

@[simp] theorem unpackCsr_packWord (op : Nat) (F : Format) (f : CsrF) :
    unpackCsr (packWord op f.g F f.payload) = f := by
  unfold unpackCsr
  simp (disch := decide) only [guardField_packWord, fieldOf_packWord]
  simp (disch := decide) [CsrF.payload, append_field_high 8 40, append_field_high 8 32, append_field_high 16 16,
    append_field_low 8 40, append_field_low 8 32, append_field_low 16 16]

@[simp] theorem unpackPreq_packWord (op : Nat) (F : Format) (f : PreqF) :
    unpackPreq (packWord op f.g F f.payload) = f := by
  unfold unpackPreq
  simp (disch := decide) only [guardField_packWord, fieldOf_packWord, flagOf_packWord]
  simp (disch := decide) [PreqF.payload, append_field_high 8 40, append_field_high 8 32, append_field_high 8 24, append_field_high 8 16, append_field_high 8 8, append_field_high 5 3, append_field_high 1 2,
    append_field_low 8 40, append_field_low 8 32, append_field_low 8 24, append_field_low 8 16, append_field_low 8 8, append_field_low 5 3, append_field_low 1 2]

@[simp] theorem unpackMark_packWord (op : Nat) (F : Format) (f : MarkF) :
    unpackMark (packWord op f.g F f.payload) = f := by
  unfold unpackMark
  simp (disch := decide) only [guardField_packWord, fieldOf_packWord]
  simp (disch := decide) [MarkF.payload, append_field_high 8 40, append_field_high 16 24, append_field_high 22 2,
    append_field_low 8 40, append_field_low 16 24, append_field_low 22 2]

/-- Two adjacent fields of a word, joined, are one field. -/
theorem append_adjacent_fields (a b : Nat) {n : Nat} (w : BitVec n) (s t : Nat) (h : t = s + b) :
    w.extractLsb' t a ++ w.extractLsb' s b = w.extractLsb' s (a + b) := by
  subst h
  exact BitVec.extractLsb'_append_extractLsb'_eq_extractLsb' rfl

theorem bitOf_flagOf (w : DWord) (n : Nat) : bitOf (flagOf w n) = w.extractLsb' n 1 := by
  unfold bitOf flagOf
  generalize w.extractLsb' n 1 = c
  revert c
  decide

/-- A word is the pack of its own opcode, guard, format and lower 48 bits. -/
theorem packWord_fields (w : DWord) :
    packWord (opcodeField w) (guardField w) (formatField w) (w.extractLsb' 0 48) = w := by
  have hc : (formatField w).code = w.extractLsb' 48 2 := by
    unfold formatField fieldOf formatOf
    generalize w.extractLsb' 48 2 = c
    revert c
    decide
  unfold packWord guardField opcodeField
  simp only [hc, bitOf_flagOf, fieldOf, BitVec.ofNat_toNat]
  simp (disch := decide) only [append_adjacent_fields 2 48, append_adjacent_fields 3 50,
    append_adjacent_fields 1 53, append_adjacent_fields 10 54, BitVec.setWidth_eq]
  simp

@[simp] theorem payload_unpackR (w : DWord) : (unpackR w).payload = w.extractLsb' 0 48 := by
  unfold RF.payload unpackR fieldOf
  simp only [bitOf_flagOf]
  simp (disch := decide) only [append_adjacent_fields 3 2, append_adjacent_fields 1 5, append_adjacent_fields 1 6, append_adjacent_fields 2 7,
    append_adjacent_fields 4 9, append_adjacent_fields 1 13, append_adjacent_fields 1 14, append_adjacent_fields 1 15,
    append_adjacent_fields 8 16, append_adjacent_fields 8 24, append_adjacent_fields 8 32, append_adjacent_fields 8 40]

@[simp] theorem payload_unpackCvt (w : DWord) : (unpackCvt w).payload = w.extractLsb' 0 48 := by
  unfold CvtF.payload unpackCvt fieldOf
  simp only [bitOf_flagOf]
  simp (disch := decide) only [append_adjacent_fields 4 1, append_adjacent_fields 1 5, append_adjacent_fields 1 6, append_adjacent_fields 2 7,
    append_adjacent_fields 4 9, append_adjacent_fields 2 13, append_adjacent_fields 1 15, append_adjacent_fields 8 16,
    append_adjacent_fields 8 24, append_adjacent_fields 8 32, append_adjacent_fields 8 40]

@[simp] theorem payload_unpackI (w : DWord) : (unpackI w).payload = w.extractLsb' 0 48 := by
  unfold IF.payload unpackI fieldOf
  simp (disch := decide) only [append_adjacent_fields 8 32, append_adjacent_fields 8 40]

@[simp] theorem payload_unpackM (w : DWord) : (unpackM w).payload = w.extractLsb' 0 48 := by
  unfold MF.payload unpackM fieldOf
  simp (disch := decide) only [append_adjacent_fields 4 4, append_adjacent_fields 24 8, append_adjacent_fields 8 32, append_adjacent_fields 8 40]

@[simp] theorem payload_unpackBr (w : DWord) : (unpackBr w).payload = w.extractLsb' 0 48 := by
  unfold BrF.payload unpackBr fieldOf
  simp (disch := decide) only [append_adjacent_fields 40 8]

@[simp] theorem payload_unpackBrc (w : DWord) : (unpackBrc w).payload = w.extractLsb' 0 48 := by
  unfold BrcF.payload unpackBrc fieldOf
  simp only [bitOf_flagOf]
  simp (disch := decide) only [append_adjacent_fields 3 26, append_adjacent_fields 1 29, append_adjacent_fields 1 30, append_adjacent_fields 1 31,
    append_adjacent_fields 8 32, append_adjacent_fields 8 40]

@[simp] theorem payload_unpackK (w : DWord) : (unpackK w).payload = w.extractLsb' 0 48 := by
  unfold KF.payload unpackK fieldOf
  simp only [bitOf_flagOf]
  simp (disch := decide) only [append_adjacent_fields 3 3, append_adjacent_fields 1 6, append_adjacent_fields 1 7, append_adjacent_fields 8 8,
    append_adjacent_fields 8 16, append_adjacent_fields 6 24, append_adjacent_fields 2 30, append_adjacent_fields 6 32,
    append_adjacent_fields 2 38, append_adjacent_fields 6 40, append_adjacent_fields 2 46]

@[simp] theorem payload_unpackLdmx (w : DWord) : (unpackLdmx w).payload = w.extractLsb' 0 48 := by
  unfold LdmxF.payload unpackLdmx fieldOf
  simp (disch := decide) only [append_adjacent_fields 2 12, append_adjacent_fields 2 14, append_adjacent_fields 2 16, append_adjacent_fields 6 18,
    append_adjacent_fields 8 24, append_adjacent_fields 8 32, append_adjacent_fields 8 40]

@[simp] theorem payload_unpackMma (w : DWord) : (unpackMma w).payload = w.extractLsb' 0 48 := by
  unfold MmaF.payload unpackMma fieldOf
  simp only [bitOf_flagOf]
  simp (disch := decide) only [append_adjacent_fields 1 19, append_adjacent_fields 2 20, append_adjacent_fields 1 22, append_adjacent_fields 1 23,
    append_adjacent_fields 6 24, append_adjacent_fields 2 30, append_adjacent_fields 6 32, append_adjacent_fields 2 38,
    append_adjacent_fields 1 40, append_adjacent_fields 1 41, append_adjacent_fields 1 42, append_adjacent_fields 5 43]

@[simp] theorem payload_unpackAc (w : DWord) : (unpackAc w).payload = w.extractLsb' 0 48 := by
  unfold AcF.payload unpackAc fieldOf
  simp only [bitOf_flagOf]
  simp (disch := decide) only [append_adjacent_fields 1 5, append_adjacent_fields 1 6, append_adjacent_fields 2 7, append_adjacent_fields 3 9,
    append_adjacent_fields 4 12, append_adjacent_fields 8 16, append_adjacent_fields 8 24, append_adjacent_fields 8 32,
    append_adjacent_fields 8 40]

@[simp] theorem payload_unpackX (w : DWord) : (unpackX w).payload = w.extractLsb' 0 48 := by
  unfold XF.payload unpackX fieldOf
  simp (disch := decide) only [append_adjacent_fields 8 16, append_adjacent_fields 8 24, append_adjacent_fields 8 32, append_adjacent_fields 8 40]

@[simp] theorem payload_unpackAmode (w : DWord) : (unpackAmode w).payload = w.extractLsb' 0 48 := by
  unfold AmodeF.payload unpackAmode fieldOf
  simp only [bitOf_flagOf]
  simp (disch := decide) only [append_adjacent_fields 1 39, append_adjacent_fields 5 40, append_adjacent_fields 3 45]

@[simp] theorem payload_unpackSync (w : DWord) : (unpackSync w).payload = w.extractLsb' 0 48 := by
  unfold SyncF.payload unpackSync fieldOf
  simp only [bitOf_flagOf]
  simp (disch := decide) only [append_adjacent_fields 21 2, append_adjacent_fields 1 23, append_adjacent_fields 8 24, append_adjacent_fields 8 32,
    append_adjacent_fields 8 40]

@[simp] theorem payload_unpackRinv (w : DWord) : (unpackRinv w).payload = w.extractLsb' 0 48 := by
  unfold RinvF.payload unpackRinv fieldOf
  simp (disch := decide) only [append_adjacent_fields 16 2, append_adjacent_fields 2 18, append_adjacent_fields 4 20, append_adjacent_fields 8 24,
    append_adjacent_fields 8 32, append_adjacent_fields 8 40]

@[simp] theorem payload_unpackTrap (w : DWord) : (unpackTrap w).payload = w.extractLsb' 0 48 := by
  unfold TrapF.payload unpackTrap fieldOf
  simp (disch := decide) only [append_adjacent_fields 4 44]

@[simp] theorem payload_unpackCsr (w : DWord) : (unpackCsr w).payload = w.extractLsb' 0 48 := by
  unfold CsrF.payload unpackCsr fieldOf
  simp (disch := decide) only [append_adjacent_fields 16 16, append_adjacent_fields 8 32, append_adjacent_fields 8 40]

@[simp] theorem payload_unpackPreq (w : DWord) : (unpackPreq w).payload = w.extractLsb' 0 48 := by
  unfold PreqF.payload unpackPreq fieldOf
  simp only [bitOf_flagOf]
  simp (disch := decide) only [append_adjacent_fields 1 2, append_adjacent_fields 5 3, append_adjacent_fields 8 8, append_adjacent_fields 8 16,
    append_adjacent_fields 8 24, append_adjacent_fields 8 32, append_adjacent_fields 8 40]

@[simp] theorem payload_unpackMark (w : DWord) : (unpackMark w).payload = w.extractLsb' 0 48 := by
  unfold MarkF.payload unpackMark fieldOf
  simp (disch := decide) only [append_adjacent_fields 22 2, append_adjacent_fields 16 24, append_adjacent_fields 8 40]

end Sys2Proof
end

