-- ==== Sys2Proof/Laws/Maps.lean ====
section
/-! SUPPORT. Laws of the containers: a sparse array keeps its canonical form and reads back what was written; a table reads back what was put, and nothing else changes. -/

namespace Sys2Proof.Machine

/-! Sparse arrays -/

theorem Sparse.wfFrom_mono {w : Nat} {a b : Nat} (hab : a ≤ b) :
    ∀ {m : Sparse w}, Sparse.wfFrom b m = true → Sparse.wfFrom a m = true
  | [], _ => rfl
  | (k, v) :: xs, h => by
    simp only [Sparse.wfFrom, Bool.and_eq_true, decide_eq_true_eq] at h ⊢
    exact ⟨⟨Nat.le_trans hab h.1.1, h.1.2⟩, h.2⟩

/-- The entries from the first key above a bound on, which a canonical form has in order. -/
theorem Sparse.wfFrom_dropWhile {w : Nat} (p : Nat → Bool) :
    ∀ {m : Sparse w} {lo : Nat}, Sparse.wfFrom lo m = true → Sparse.wfFrom lo (m.dropWhile fun e => p e.1) = true
  | [], _, _ => rfl
  | (k, u) :: xs, lo, h => by
    rw [List.dropWhile_cons]
    split
    · simp only [Sparse.wfFrom, Bool.and_eq_true, decide_eq_true_eq] at h
      exact Sparse.wfFrom_mono (by omega) (Sparse.wfFrom_dropWhile p h.2)
    · exact h

theorem Sparse.wfFrom_set {w : Nat} (a : Nat) (v : BitVec w) :
    ∀ {m : Sparse w} {lo : Nat}, Sparse.wfFrom lo m = true → Sparse.wfFrom (min lo a) (m.set a v) = true
  | [], lo, _ => by
    unfold Sparse.set
    split
    · rfl
    · rename_i hv
      simp only [Sparse.wfFrom, Bool.and_true, Bool.and_eq_true, decide_eq_true_eq]
      exact ⟨by omega, by simpa using hv⟩
  | (k, u) :: xs, lo, h => by
    simp only [Sparse.wfFrom, Bool.and_eq_true, decide_eq_true_eq] at h
    obtain ⟨⟨hk, hu⟩, hxs⟩ := h
    unfold Sparse.set
    split
    · split
      · simp only [Sparse.wfFrom, Bool.and_eq_true, decide_eq_true_eq]
        exact ⟨⟨by omega, hu⟩, hxs⟩
      · rename_i hlt hv
        simp only [Sparse.wfFrom, Bool.and_eq_true, decide_eq_true_eq]
        exact ⟨⟨by omega, by simpa using hv⟩, ⟨⟨by omega, hu⟩, hxs⟩⟩
    · split
      · subst a
        split
        · exact Sparse.wfFrom_mono (by omega) (Sparse.wfFrom_dropWhile (fun j => decide (j ≤ k)) hxs)
        · rename_i hv
          simp only [Sparse.wfFrom, Bool.and_eq_true, decide_eq_true_eq]
          exact ⟨⟨by omega, by simpa using hv⟩, hxs⟩
      · have ih := Sparse.wfFrom_set a v hxs
        simp only [Sparse.wfFrom, Bool.and_eq_true, decide_eq_true_eq]
        exact ⟨⟨by omega, hu⟩, Sparse.wfFrom_mono (by omega) ih⟩

/-- A write keeps the canonical form. -/
theorem Sparse.wf_set {w : Nat} {m : Sparse w} (a : Nat) (v : BitVec w) (h : m.wf = true) : (m.set a v).wf = true := by
  have := Sparse.wfFrom_set a v h
  simpa [Sparse.wf] using this

/-- Consecutive writes keep the canonical form. -/
theorem Sparse.wf_setList {w : Nat} (vs : List (BitVec w)) :
    ∀ {m : Sparse w} (a : Nat), m.wf = true → (m.setList a vs).wf = true := by
  induction vs with
  | nil => exact fun _ h => h
  | cons v vs ih => exact fun a h => ih (a + 1) (Sparse.wf_set a v h)

/-- What is read at or above a bound once the entries below it at the front are gone. -/
theorem Sparse.get_dropWhile {w : Nat} (m : Sparse w) (a b : Nat) :
    Sparse.get (m.dropWhile fun e => decide (e.1 < a)) b = if b < a then 0 else m.get b := by
  induction m with
  | nil => simp [Sparse.get]
  | cons e xs ih =>
    obtain ⟨k, u⟩ := e
    rw [List.dropWhile_cons]
    by_cases hk : k < a
    · simp only [hk, decide_true, if_true, ih]
      by_cases hb : b < a
      · simp [hb]
      · have h1 : ¬ b = k := by omega
        have h2 : ¬ b < k := by omega
        simp [hb, Sparse.get, h1, h2]
    · simp only [hk, decide_false, Bool.false_eq_true, if_false]
      by_cases hb : b < a
      · have h1 : ¬ b = k := by omega
        have h2 : b < k := by omega
        simp [hb, Sparse.get, h1, h2]
      · simp [hb]

/-- A read after a write: the value at the address written, and every other address as before. -/
theorem Sparse.get_set {w : Nat} (m : Sparse w) (a : Nat) (v : BitVec w) (b : Nat) :
    (m.set a v).get b = if b = a then v else m.get b := by
  induction m with
  | nil =>
    unfold Sparse.set
    split
    · rename_i hv
      simp [Sparse.get, hv]
    · simp [Sparse.get]
  | cons e xs ih =>
    obtain ⟨k, u⟩ := e
    unfold Sparse.set
    split
    · rename_i hlt
      by_cases hb : b = a
      · subst hb
        split <;> simp_all [Sparse.get, Nat.ne_of_lt]
      · split
        · simp
        · by_cases hba : b < a
          · have h2 : ¬ b = k := by omega
            have h3 : b < k := by omega
            simp [Sparse.get, hb, hba, h2, h3]
          · simp [Sparse.get, hb, hba]
    · split
      · subst a
        split
        · rename_i hv
          subst hv
          have hd := Sparse.get_dropWhile xs (k + 1) b
          simp only [Nat.lt_succ_iff] at hd
          rw [hd]
          by_cases hb : b = k
          · simp [hb]
          · by_cases hbk : b < k
            · have h2 : b ≤ k := by omega
              simp [Sparse.get, hb, hbk, h2]
            · have h2 : ¬ b ≤ k := by omega
              simp [Sparse.get, hb, hbk, h2]
        · by_cases hb : b = k <;> simp [Sparse.get, hb]
      · simp only [Sparse.get, ih]
        by_cases hbk : b = k
        · have : ¬ b = a := by omega
          simp [hbk]
          omega
        · by_cases hlt : b < k
          · have : ¬ b = a := by omega
            simp [hbk, hlt, this]
          · simp [hbk, hlt]

/-- A read after consecutive writes. -/
theorem Sparse.get_setList {w : Nat} (vs : List (BitVec w)) :
    ∀ (m : Sparse w) (a b : Nat),
      (m.setList a vs).get b = if a ≤ b ∧ b < a + vs.length then vs.getD (b - a) 0 else m.get b := by
  induction vs with
  | nil =>
    intro m a b
    have h : ¬ (a ≤ b ∧ b < a + 0) := by omega
    rw [List.length_nil, if_neg h]
    rfl
  | cons v vs ih =>
    intro m a b
    simp only [Sparse.setList]
    rw [ih, Sparse.get_set]
    by_cases h1 : b = a
    · have h2 : ¬ (a + 1 ≤ b ∧ b < a + 1 + vs.length) := by omega
      have h3 : a ≤ b ∧ b < a + (v :: vs).length := by rw [List.length_cons]; omega
      rw [if_neg h2, if_pos h3, if_pos h1, h1, Nat.sub_self]
      rfl
    · by_cases h2 : a + 1 ≤ b ∧ b < a + 1 + vs.length
      · have h3 : a ≤ b ∧ b < a + (v :: vs).length := by rw [List.length_cons]; omega
        have e : b - a = b - (a + 1) + 1 := by omega
        rw [if_pos h2, if_pos h3, e]
        rfl
      · have h3 : ¬ (a ≤ b ∧ b < a + (v :: vs).length) := by rw [List.length_cons]; omega
        rw [if_neg h2, if_neg h3, if_neg h1]

/-- A clear keeps the canonical form. -/
theorem Sparse.wfFrom_clear {w : Nat} (a n : Nat) :
    ∀ {m : Sparse w} {lo : Nat}, Sparse.wfFrom lo m = true → Sparse.wfFrom lo (m.clear a n) = true
  | [], _, _ => rfl
  | (k, u) :: xs, lo, h => by
    unfold Sparse.clear
    split
    · simp only [Sparse.wfFrom, Bool.and_eq_true, decide_eq_true_eq] at h ⊢
      exact ⟨h.1, Sparse.wfFrom_clear a n h.2⟩
    · exact Sparse.wfFrom_dropWhile (fun j => decide (j < a + n)) h

theorem Sparse.wf_clear {w : Nat} {m : Sparse w} (a n : Nat) (h : m.wf = true) : (m.clear a n).wf = true :=
  Sparse.wfFrom_clear a n h

/-- A read after a clear. -/
theorem Sparse.get_clear {w : Nat} (m : Sparse w) (a n b : Nat) :
    (m.clear a n).get b = if a ≤ b ∧ b < a + n then 0 else m.get b := by
  induction m with
  | nil => simp [Sparse.clear, Sparse.get]
  | cons e xs ih =>
    obtain ⟨k, u⟩ := e
    unfold Sparse.clear
    split
    · simp only [Sparse.get, ih]
      by_cases h1 : b = k
      · have : ¬ (a ≤ b ∧ b < a + n) := by omega
        simp [h1]
        omega
      · by_cases h2 : b < k
        · have : ¬ (a ≤ b ∧ b < a + n) := by omega
          simp [h1, h2]
        · simp [h1, h2]
    · rw [Sparse.get_dropWhile]
      by_cases h1 : b < a
      · have h2 : b < a + n := by omega
        have h3 : ¬ b = k := by omega
        have h4 : b < k := by omega
        have h5 : ¬ (a ≤ b ∧ b < a + n) := by omega
        rw [if_pos h2, if_neg h5]
        simp [Sparse.get, h3, h4]
      · by_cases h2 : b < a + n
        · rw [if_pos h2, if_pos ⟨by omega, h2⟩]
        · have h5 : ¬ (a ≤ b ∧ b < a + n) := by omega
          rw [if_neg h2, if_neg h5]

/-! Tables -/

section
variable {κ ν : Type} [DecidableEq κ]

@[simp] theorem Table.find_put (t : Table κ ν) (k k' : κ) (v : ν) :
    Table.find (Table.put t k v) k' = if k' = k then some v else Table.find t k' := by
  induction t with
  | nil => by_cases h : k = k' <;> simp [Table.put, Table.find, h, eq_comm]
  | cons e xs ih =>
    obtain ⟨a, b⟩ := e
    simp only [Table.put]
    split
    · rename_i h
      subst h
      by_cases h2 : a = k'
      · simp [Table.find, h2]
      · simp [Table.find, h2, Ne.symm h2]
    · rename_i h
      simp only [Table.find, ih]
      by_cases h2 : a = k'
      · subst h2; simp [h]
      · simp [h2]

@[simp] theorem Table.findD_put (t : Table κ ν) (k k' : κ) (v d : ν) :
    Table.findD (Table.put t k v) k' d = if k' = k then v else Table.findD t k' d := by
  simp only [Table.findD, Table.find_put]
  split <;> rfl

/-- Putting back what a table holds changes nothing. -/
theorem Table.put_self {t : Table κ ν} {k : κ} {v : ν} (h : Table.find t k = some v) : Table.put t k v = t := by
  induction t with
  | nil => cases h
  | cons e xs ih =>
    obtain ⟨a, b⟩ := e
    simp only [Table.find] at h
    simp only [Table.put]
    split
    · rename_i hk
      simp [hk] at h
      simp [hk, h]
    · rename_i hk
      simp [hk] at h
      rw [ih h]

@[simp] theorem Table.find_alter (t : Table κ ν) (k k' : κ) (f : ν → ν) :
    Table.find (Table.alter t k f) k' = if k' = k then (Table.find t k).map f else Table.find t k' := by
  unfold Table.alter
  split
  · rename_i v h
    simp [h]
  · rename_i h
    split
    · rename_i hk
      subst hk
      simp [h]
    · rfl

@[simp] theorem Table.find_drop (t : Table κ ν) (k k' : κ) :
    Table.find (Table.drop t k) k' = if k' = k then none else Table.find t k' := by
  induction t with
  | nil => simp [Table.drop, Table.find]
  | cons e xs ih =>
    obtain ⟨a, b⟩ := e
    simp only [Table.drop, List.filter] at ih ⊢
    by_cases h : a = k
    · subst h
      simp only [ne_eq, not_true_eq_false, decide_false]
      simp only [ih, Table.find]
      by_cases h2 : k' = a
      · simp [h2]
      · simp [h2, Ne.symm h2]
    · simp only [ne_eq, h, not_false_eq_true, decide_true, Table.find, ih]
      by_cases h2 : a = k'
      · subst h2; simp [h]
      · simp [h2]

@[simp] theorem Table.find_nil (k : κ) : Table.find ([] : Table κ ν) k = none := rfl
end

end Sys2Proof.Machine
end

