-- ==== Sys2Proof/Laws/State.lean ====
section
/-! SUPPORT. Laws of the state's named updates: the field that each one changes, and every other field and every object as before. -/

namespace Sys2Proof.Machine

@[simp] theorem State.alterThread_teams (s : State) (t : ThreadId) (f : Thread → Thread) : (s.alterThread t f).teams = s.teams := rfl
@[simp] theorem State.alterThread_groups (s : State) (t : ThreadId) (f : Thread → Thread) : (s.alterThread t f).groups = s.groups := rfl
@[simp] theorem State.alterThread_cores (s : State) (t : ThreadId) (f : Thread → Thread) : (s.alterThread t f).cores = s.cores := rfl
@[simp] theorem State.alterThread_dies (s : State) (t : ThreadId) (f : Thread → Thread) : (s.alterThread t f).dies = s.dies := rfl
@[simp] theorem State.alterThread_contexts (s : State) (t : ThreadId) (f : Thread → Thread) : (s.alterThread t f).contexts = s.contexts := rfl
@[simp] theorem State.alterThread_grids (s : State) (t : ThreadId) (f : Thread → Thread) : (s.alterThread t f).grids = s.grids := rfl
@[simp] theorem State.alterThread_mem (s : State) (t : ThreadId) (f : Thread → Thread) : (s.alterThread t f).mem = s.mem := rfl
@[simp] theorem State.alterThread_seq (s : State) (t : ThreadId) (f : Thread → Thread) : (s.alterThread t f).seq = s.seq := rfl
@[simp] theorem State.alterThread_hist (s : State) (t : ThreadId) (f : Thread → Thread) : (s.alterThread t f).hist = s.hist := rfl
@[simp] theorem State.alterThread_past (s : State) (t : ThreadId) (f : Thread → Thread) : (s.alterThread t f).past = s.past := rfl
@[simp] theorem State.alterThread_leases (s : State) (t : ThreadId) (f : Thread → Thread) : (s.alterThread t f).leases = s.leases := rfl
@[simp] theorem State.alterThread_wmax (s : State) (t : ThreadId) (f : Thread → Thread) : (s.alterThread t f).wmax = s.wmax := rfl
@[simp] theorem State.alterThread_poison (s : State) (t : ThreadId) (f : Thread → Thread) : (s.alterThread t f).poison = s.poison := rfl
@[simp] theorem State.alterThread_dtime (s : State) (t : ThreadId) (f : Thread → Thread) : (s.alterThread t f).dtime = s.dtime := rfl
@[simp] theorem State.alterThread_llc (s : State) (t : ThreadId) (f : Thread → Thread) : (s.alterThread t f).llc = s.llc := rfl
@[simp] theorem State.alterThread_pages (s : State) (t : ThreadId) (f : Thread → Thread) : (s.alterThread t f).pages = s.pages := rfl
@[simp] theorem State.alterThread_epochAt (s : State) (t : ThreadId) (f : Thread → Thread) : (s.alterThread t f).epochAt = s.epochAt := rfl
@[simp] theorem State.alterThread_pwm (s : State) (t : ThreadId) (f : Thread → Thread) : (s.alterThread t f).pwm = s.pwm := rfl
@[simp] theorem State.alterThread_pgmode (s : State) (t : ThreadId) (f : Thread → Thread) : (s.alterThread t f).pgmode = s.pgmode := rfl
@[simp] theorem State.alterThread_accesses (s : State) (t : ThreadId) (f : Thread → Thread) : (s.alterThread t f).accesses = s.accesses := rfl
@[simp] theorem State.alterThread_commands (s : State) (t : ThreadId) (f : Thread → Thread) : (s.alterThread t f).commands = s.commands := rfl
@[simp] theorem State.alterThread_heldPushes (s : State) (t : ThreadId) (f : Thread → Thread) : (s.alterThread t f).heldPushes = s.heldPushes := rfl
@[simp] theorem State.alterThread_channels (s : State) (t : ThreadId) (f : Thread → Thread) : (s.alterThread t f).channels = s.channels := rfl
@[simp] theorem State.alterThread_msgs (s : State) (t : ThreadId) (f : Thread → Thread) : (s.alterThread t f).msgs = s.msgs := rfl
@[simp] theorem State.alterThread_outbox (s : State) (t : ThreadId) (f : Thread → Thread) : (s.alterThread t f).outbox = s.outbox := rfl
@[simp] theorem State.alterThread_unsent (s : State) (t : ThreadId) (f : Thread → Thread) : (s.alterThread t f).unsent = s.unsent := rfl
@[simp] theorem State.alterThread_reports (s : State) (t : ThreadId) (f : Thread → Thread) : (s.alterThread t f).reports = s.reports := rfl
@[simp] theorem State.alterThread_images (s : State) (t : ThreadId) (f : Thread → Thread) : (s.alterThread t f).images = s.images := rfl
@[simp] theorem State.alterThread_restored (s : State) (t : ThreadId) (f : Thread → Thread) : (s.alterThread t f).restored = s.restored := rfl
@[simp] theorem State.alterThread_gives (s : State) (t : ThreadId) (f : Thread → Thread) : (s.alterThread t f).gives = s.gives := rfl
@[simp] theorem State.alterThread_replay (s : State) (t : ThreadId) (f : Thread → Thread) : (s.alterThread t f).replay = s.replay := rfl
@[simp] theorem State.alterThread_rpstat (s : State) (t : ThreadId) (f : Thread → Thread) : (s.alterThread t f).rpstat = s.rpstat := rfl
@[simp] theorem State.alterThread_htbase (s : State) (t : ThreadId) (f : Thread → Thread) : (s.alterThread t f).htbase = s.htbase := rfl
@[simp] theorem State.alterThread_htsize (s : State) (t : ThreadId) (f : Thread → Thread) : (s.alterThread t f).htsize = s.htsize := rfl
@[simp] theorem State.alterThread_netcfg (s : State) (t : ThreadId) (f : Thread → Thread) : (s.alterThread t f).netcfg = s.netcfg := rfl
@[simp] theorem State.alterThread_devnum (s : State) (t : ThreadId) (f : Thread → Thread) : (s.alterThread t f).devnum = s.devnum := rfl
@[simp] theorem State.alterThread_lastReset (s : State) (t : ThreadId) (f : Thread → Thread) : (s.alterThread t f).lastReset = s.lastReset := rfl
@[simp] theorem State.alterThread_ports (s : State) (t : ThreadId) (f : Thread → Thread) : (s.alterThread t f).ports = s.ports := rfl
@[simp] theorem State.alterThread_conns (s : State) (t : ThreadId) (f : Thread → Thread) : (s.alterThread t f).conns = s.conns := rfl
@[simp] theorem State.alterThread_limit (s : State) (t : ThreadId) (f : Thread → Thread) : (s.alterThread t f).limit = s.limit := rfl
@[simp] theorem State.alterThread_measured (s : State) (t : ThreadId) (f : Thread → Thread) : (s.alterThread t f).measured = s.measured := rfl
@[simp] theorem State.alterThread_verified (s : State) (t : ThreadId) (f : Thread → Thread) : (s.alterThread t f).verified = s.verified := rfl
@[simp] theorem State.alterThread_rejected (s : State) (t : ThreadId) (f : Thread → Thread) : (s.alterThread t f).rejected = s.rejected := rfl
@[simp] theorem State.alterThread_strap (s : State) (t : ThreadId) (f : Thread → Thread) : (s.alterThread t f).strap = s.strap := rfl
@[simp] theorem State.alterThread_gave (s : State) (t : ThreadId) (f : Thread → Thread) : (s.alterThread t f).gave = s.gave := rfl
@[simp] theorem State.alterThread_remains (s : State) (t : ThreadId) (f : Thread → Thread) : (s.alterThread t f).remains = s.remains := rfl
@[simp] theorem State.alterThread_fresh (s : State) (t : ThreadId) (f : Thread → Thread) : (s.alterThread t f).fresh = s.fresh := rfl
@[simp] theorem State.alterThread_drawn (s : State) (t : ThreadId) (f : Thread → Thread) : (s.alterThread t f).drawn = s.drawn := rfl
@[simp] theorem State.alterThread_cur (s : State) (t : ThreadId) (f : Thread → Thread) : (s.alterThread t f).cur = s.cur := rfl
@[simp] theorem State.alterThread_noise (s : State) (t : ThreadId) (f : Thread → Thread) : (s.alterThread t f).noise = s.noise := rfl
@[simp] theorem State.alterThread_sched (s : State) (t : ThreadId) (f : Thread → Thread) : (s.alterThread t f).sched = s.sched := rfl
@[simp] theorem State.alterThread_team (s : State) (t : ThreadId) (f : Thread → Thread) (k : Nat) : (s.alterThread t f).team k = s.team k := rfl
@[simp] theorem State.alterThread_group (s : State) (t : ThreadId) (f : Thread → Thread) (k : Nat) : (s.alterThread t f).group k = s.group k := rfl
@[simp] theorem State.alterThread_core (s : State) (t : ThreadId) (f : Thread → Thread) (e : CoreId) : (s.alterThread t f).core e = s.core e := rfl
@[simp] theorem State.alterThread_die (s : State) (t : ThreadId) (f : Thread → Thread) (k : Nat) : (s.alterThread t f).die k = s.die k := rfl
@[simp] theorem State.alterThread_array (s : State) (t : ThreadId) (f : Thread → Thread) (e : CoreId) (a : Nat) : (s.alterThread t f).array e a = s.array e a := rfl
@[simp] theorem State.alterThread_barrier (s : State) (t : ThreadId) (f : Thread → Thread) (e : CoreId) (o : Nat) : (s.alterThread t f).barrier e o = s.barrier e o := rfl
@[simp] theorem State.alterThread_context (s : State) (t : ThreadId) (f : Thread → Thread) (k : Nat) : (s.alterThread t f).context k = s.context k := rfl
@[simp] theorem State.alterThread_byte (s : State) (t : ThreadId) (f : Thread → Thread) (a : Nat) : (s.alterThread t f).byte a = s.byte a := rfl
@[simp] theorem State.alterThread_teamOf (s : State) (t : ThreadId) (f : Thread → Thread) (u : ThreadId) : (s.alterThread t f).teamOf u = s.teamOf u := rfl
@[simp] theorem State.alterThread_coreOf (s : State) (t : ThreadId) (f : Thread → Thread) (u : ThreadId) : (s.alterThread t f).coreOf u = s.coreOf u := rfl
@[simp] theorem State.alterThread_cnOf (s : State) (t : ThreadId) (f : Thread → Thread) (u : ThreadId) : (s.alterThread t f).cnOf u = s.cnOf u := rfl

@[simp] theorem State.alterTeam_threads (s : State) (n : Nat) (f : Team → Team) : (s.alterTeam n f).threads = s.threads := rfl
@[simp] theorem State.alterTeam_groups (s : State) (n : Nat) (f : Team → Team) : (s.alterTeam n f).groups = s.groups := rfl
@[simp] theorem State.alterTeam_cores (s : State) (n : Nat) (f : Team → Team) : (s.alterTeam n f).cores = s.cores := rfl
@[simp] theorem State.alterTeam_dies (s : State) (n : Nat) (f : Team → Team) : (s.alterTeam n f).dies = s.dies := rfl
@[simp] theorem State.alterTeam_contexts (s : State) (n : Nat) (f : Team → Team) : (s.alterTeam n f).contexts = s.contexts := rfl
@[simp] theorem State.alterTeam_grids (s : State) (n : Nat) (f : Team → Team) : (s.alterTeam n f).grids = s.grids := rfl
@[simp] theorem State.alterTeam_mem (s : State) (n : Nat) (f : Team → Team) : (s.alterTeam n f).mem = s.mem := rfl
@[simp] theorem State.alterTeam_seq (s : State) (n : Nat) (f : Team → Team) : (s.alterTeam n f).seq = s.seq := rfl
@[simp] theorem State.alterTeam_hist (s : State) (n : Nat) (f : Team → Team) : (s.alterTeam n f).hist = s.hist := rfl
@[simp] theorem State.alterTeam_past (s : State) (n : Nat) (f : Team → Team) : (s.alterTeam n f).past = s.past := rfl
@[simp] theorem State.alterTeam_leases (s : State) (n : Nat) (f : Team → Team) : (s.alterTeam n f).leases = s.leases := rfl
@[simp] theorem State.alterTeam_wmax (s : State) (n : Nat) (f : Team → Team) : (s.alterTeam n f).wmax = s.wmax := rfl
@[simp] theorem State.alterTeam_poison (s : State) (n : Nat) (f : Team → Team) : (s.alterTeam n f).poison = s.poison := rfl
@[simp] theorem State.alterTeam_dtime (s : State) (n : Nat) (f : Team → Team) : (s.alterTeam n f).dtime = s.dtime := rfl
@[simp] theorem State.alterTeam_llc (s : State) (n : Nat) (f : Team → Team) : (s.alterTeam n f).llc = s.llc := rfl
@[simp] theorem State.alterTeam_pages (s : State) (n : Nat) (f : Team → Team) : (s.alterTeam n f).pages = s.pages := rfl
@[simp] theorem State.alterTeam_epochAt (s : State) (n : Nat) (f : Team → Team) : (s.alterTeam n f).epochAt = s.epochAt := rfl
@[simp] theorem State.alterTeam_pwm (s : State) (n : Nat) (f : Team → Team) : (s.alterTeam n f).pwm = s.pwm := rfl
@[simp] theorem State.alterTeam_pgmode (s : State) (n : Nat) (f : Team → Team) : (s.alterTeam n f).pgmode = s.pgmode := rfl
@[simp] theorem State.alterTeam_accesses (s : State) (n : Nat) (f : Team → Team) : (s.alterTeam n f).accesses = s.accesses := rfl
@[simp] theorem State.alterTeam_commands (s : State) (n : Nat) (f : Team → Team) : (s.alterTeam n f).commands = s.commands := rfl
@[simp] theorem State.alterTeam_heldPushes (s : State) (n : Nat) (f : Team → Team) : (s.alterTeam n f).heldPushes = s.heldPushes := rfl
@[simp] theorem State.alterTeam_channels (s : State) (n : Nat) (f : Team → Team) : (s.alterTeam n f).channels = s.channels := rfl
@[simp] theorem State.alterTeam_msgs (s : State) (n : Nat) (f : Team → Team) : (s.alterTeam n f).msgs = s.msgs := rfl
@[simp] theorem State.alterTeam_outbox (s : State) (n : Nat) (f : Team → Team) : (s.alterTeam n f).outbox = s.outbox := rfl
@[simp] theorem State.alterTeam_unsent (s : State) (n : Nat) (f : Team → Team) : (s.alterTeam n f).unsent = s.unsent := rfl
@[simp] theorem State.alterTeam_reports (s : State) (n : Nat) (f : Team → Team) : (s.alterTeam n f).reports = s.reports := rfl
@[simp] theorem State.alterTeam_images (s : State) (n : Nat) (f : Team → Team) : (s.alterTeam n f).images = s.images := rfl
@[simp] theorem State.alterTeam_restored (s : State) (n : Nat) (f : Team → Team) : (s.alterTeam n f).restored = s.restored := rfl
@[simp] theorem State.alterTeam_gives (s : State) (n : Nat) (f : Team → Team) : (s.alterTeam n f).gives = s.gives := rfl
@[simp] theorem State.alterTeam_replay (s : State) (n : Nat) (f : Team → Team) : (s.alterTeam n f).replay = s.replay := rfl
@[simp] theorem State.alterTeam_rpstat (s : State) (n : Nat) (f : Team → Team) : (s.alterTeam n f).rpstat = s.rpstat := rfl
@[simp] theorem State.alterTeam_htbase (s : State) (n : Nat) (f : Team → Team) : (s.alterTeam n f).htbase = s.htbase := rfl
@[simp] theorem State.alterTeam_htsize (s : State) (n : Nat) (f : Team → Team) : (s.alterTeam n f).htsize = s.htsize := rfl
@[simp] theorem State.alterTeam_netcfg (s : State) (n : Nat) (f : Team → Team) : (s.alterTeam n f).netcfg = s.netcfg := rfl
@[simp] theorem State.alterTeam_devnum (s : State) (n : Nat) (f : Team → Team) : (s.alterTeam n f).devnum = s.devnum := rfl
@[simp] theorem State.alterTeam_lastReset (s : State) (n : Nat) (f : Team → Team) : (s.alterTeam n f).lastReset = s.lastReset := rfl
@[simp] theorem State.alterTeam_ports (s : State) (n : Nat) (f : Team → Team) : (s.alterTeam n f).ports = s.ports := rfl
@[simp] theorem State.alterTeam_conns (s : State) (n : Nat) (f : Team → Team) : (s.alterTeam n f).conns = s.conns := rfl
@[simp] theorem State.alterTeam_limit (s : State) (n : Nat) (f : Team → Team) : (s.alterTeam n f).limit = s.limit := rfl
@[simp] theorem State.alterTeam_measured (s : State) (n : Nat) (f : Team → Team) : (s.alterTeam n f).measured = s.measured := rfl
@[simp] theorem State.alterTeam_verified (s : State) (n : Nat) (f : Team → Team) : (s.alterTeam n f).verified = s.verified := rfl
@[simp] theorem State.alterTeam_rejected (s : State) (n : Nat) (f : Team → Team) : (s.alterTeam n f).rejected = s.rejected := rfl
@[simp] theorem State.alterTeam_strap (s : State) (n : Nat) (f : Team → Team) : (s.alterTeam n f).strap = s.strap := rfl
@[simp] theorem State.alterTeam_gave (s : State) (n : Nat) (f : Team → Team) : (s.alterTeam n f).gave = s.gave := rfl
@[simp] theorem State.alterTeam_remains (s : State) (n : Nat) (f : Team → Team) : (s.alterTeam n f).remains = s.remains := rfl
@[simp] theorem State.alterTeam_fresh (s : State) (n : Nat) (f : Team → Team) : (s.alterTeam n f).fresh = s.fresh := rfl
@[simp] theorem State.alterTeam_drawn (s : State) (n : Nat) (f : Team → Team) : (s.alterTeam n f).drawn = s.drawn := rfl
@[simp] theorem State.alterTeam_cur (s : State) (n : Nat) (f : Team → Team) : (s.alterTeam n f).cur = s.cur := rfl
@[simp] theorem State.alterTeam_noise (s : State) (n : Nat) (f : Team → Team) : (s.alterTeam n f).noise = s.noise := rfl
@[simp] theorem State.alterTeam_sched (s : State) (n : Nat) (f : Team → Team) : (s.alterTeam n f).sched = s.sched := rfl
@[simp] theorem State.alterTeam_thread (s : State) (n : Nat) (f : Team → Team) (u : ThreadId) : (s.alterTeam n f).thread u = s.thread u := rfl
@[simp] theorem State.alterTeam_group (s : State) (n : Nat) (f : Team → Team) (k : Nat) : (s.alterTeam n f).group k = s.group k := rfl
@[simp] theorem State.alterTeam_core (s : State) (n : Nat) (f : Team → Team) (e : CoreId) : (s.alterTeam n f).core e = s.core e := rfl
@[simp] theorem State.alterTeam_die (s : State) (n : Nat) (f : Team → Team) (k : Nat) : (s.alterTeam n f).die k = s.die k := rfl
@[simp] theorem State.alterTeam_array (s : State) (n : Nat) (f : Team → Team) (e : CoreId) (a : Nat) : (s.alterTeam n f).array e a = s.array e a := rfl
@[simp] theorem State.alterTeam_barrier (s : State) (n : Nat) (f : Team → Team) (e : CoreId) (o : Nat) : (s.alterTeam n f).barrier e o = s.barrier e o := rfl
@[simp] theorem State.alterTeam_context (s : State) (n : Nat) (f : Team → Team) (k : Nat) : (s.alterTeam n f).context k = s.context k := rfl
@[simp] theorem State.alterTeam_byte (s : State) (n : Nat) (f : Team → Team) (a : Nat) : (s.alterTeam n f).byte a = s.byte a := rfl

@[simp] theorem State.alterGroup_threads (s : State) (n : Nat) (f : Group → Group) : (s.alterGroup n f).threads = s.threads := rfl
@[simp] theorem State.alterGroup_teams (s : State) (n : Nat) (f : Group → Group) : (s.alterGroup n f).teams = s.teams := rfl
@[simp] theorem State.alterGroup_cores (s : State) (n : Nat) (f : Group → Group) : (s.alterGroup n f).cores = s.cores := rfl
@[simp] theorem State.alterGroup_dies (s : State) (n : Nat) (f : Group → Group) : (s.alterGroup n f).dies = s.dies := rfl
@[simp] theorem State.alterGroup_contexts (s : State) (n : Nat) (f : Group → Group) : (s.alterGroup n f).contexts = s.contexts := rfl
@[simp] theorem State.alterGroup_grids (s : State) (n : Nat) (f : Group → Group) : (s.alterGroup n f).grids = s.grids := rfl
@[simp] theorem State.alterGroup_mem (s : State) (n : Nat) (f : Group → Group) : (s.alterGroup n f).mem = s.mem := rfl
@[simp] theorem State.alterGroup_seq (s : State) (n : Nat) (f : Group → Group) : (s.alterGroup n f).seq = s.seq := rfl
@[simp] theorem State.alterGroup_hist (s : State) (n : Nat) (f : Group → Group) : (s.alterGroup n f).hist = s.hist := rfl
@[simp] theorem State.alterGroup_past (s : State) (n : Nat) (f : Group → Group) : (s.alterGroup n f).past = s.past := rfl
@[simp] theorem State.alterGroup_leases (s : State) (n : Nat) (f : Group → Group) : (s.alterGroup n f).leases = s.leases := rfl
@[simp] theorem State.alterGroup_wmax (s : State) (n : Nat) (f : Group → Group) : (s.alterGroup n f).wmax = s.wmax := rfl
@[simp] theorem State.alterGroup_poison (s : State) (n : Nat) (f : Group → Group) : (s.alterGroup n f).poison = s.poison := rfl
@[simp] theorem State.alterGroup_dtime (s : State) (n : Nat) (f : Group → Group) : (s.alterGroup n f).dtime = s.dtime := rfl
@[simp] theorem State.alterGroup_llc (s : State) (n : Nat) (f : Group → Group) : (s.alterGroup n f).llc = s.llc := rfl
@[simp] theorem State.alterGroup_pages (s : State) (n : Nat) (f : Group → Group) : (s.alterGroup n f).pages = s.pages := rfl
@[simp] theorem State.alterGroup_epochAt (s : State) (n : Nat) (f : Group → Group) : (s.alterGroup n f).epochAt = s.epochAt := rfl
@[simp] theorem State.alterGroup_pwm (s : State) (n : Nat) (f : Group → Group) : (s.alterGroup n f).pwm = s.pwm := rfl
@[simp] theorem State.alterGroup_pgmode (s : State) (n : Nat) (f : Group → Group) : (s.alterGroup n f).pgmode = s.pgmode := rfl
@[simp] theorem State.alterGroup_accesses (s : State) (n : Nat) (f : Group → Group) : (s.alterGroup n f).accesses = s.accesses := rfl
@[simp] theorem State.alterGroup_commands (s : State) (n : Nat) (f : Group → Group) : (s.alterGroup n f).commands = s.commands := rfl
@[simp] theorem State.alterGroup_heldPushes (s : State) (n : Nat) (f : Group → Group) : (s.alterGroup n f).heldPushes = s.heldPushes := rfl
@[simp] theorem State.alterGroup_channels (s : State) (n : Nat) (f : Group → Group) : (s.alterGroup n f).channels = s.channels := rfl
@[simp] theorem State.alterGroup_msgs (s : State) (n : Nat) (f : Group → Group) : (s.alterGroup n f).msgs = s.msgs := rfl
@[simp] theorem State.alterGroup_outbox (s : State) (n : Nat) (f : Group → Group) : (s.alterGroup n f).outbox = s.outbox := rfl
@[simp] theorem State.alterGroup_unsent (s : State) (n : Nat) (f : Group → Group) : (s.alterGroup n f).unsent = s.unsent := rfl
@[simp] theorem State.alterGroup_reports (s : State) (n : Nat) (f : Group → Group) : (s.alterGroup n f).reports = s.reports := rfl
@[simp] theorem State.alterGroup_images (s : State) (n : Nat) (f : Group → Group) : (s.alterGroup n f).images = s.images := rfl
@[simp] theorem State.alterGroup_restored (s : State) (n : Nat) (f : Group → Group) : (s.alterGroup n f).restored = s.restored := rfl
@[simp] theorem State.alterGroup_gives (s : State) (n : Nat) (f : Group → Group) : (s.alterGroup n f).gives = s.gives := rfl
@[simp] theorem State.alterGroup_replay (s : State) (n : Nat) (f : Group → Group) : (s.alterGroup n f).replay = s.replay := rfl
@[simp] theorem State.alterGroup_rpstat (s : State) (n : Nat) (f : Group → Group) : (s.alterGroup n f).rpstat = s.rpstat := rfl
@[simp] theorem State.alterGroup_htbase (s : State) (n : Nat) (f : Group → Group) : (s.alterGroup n f).htbase = s.htbase := rfl
@[simp] theorem State.alterGroup_htsize (s : State) (n : Nat) (f : Group → Group) : (s.alterGroup n f).htsize = s.htsize := rfl
@[simp] theorem State.alterGroup_netcfg (s : State) (n : Nat) (f : Group → Group) : (s.alterGroup n f).netcfg = s.netcfg := rfl
@[simp] theorem State.alterGroup_devnum (s : State) (n : Nat) (f : Group → Group) : (s.alterGroup n f).devnum = s.devnum := rfl
@[simp] theorem State.alterGroup_lastReset (s : State) (n : Nat) (f : Group → Group) : (s.alterGroup n f).lastReset = s.lastReset := rfl
@[simp] theorem State.alterGroup_ports (s : State) (n : Nat) (f : Group → Group) : (s.alterGroup n f).ports = s.ports := rfl
@[simp] theorem State.alterGroup_conns (s : State) (n : Nat) (f : Group → Group) : (s.alterGroup n f).conns = s.conns := rfl
@[simp] theorem State.alterGroup_limit (s : State) (n : Nat) (f : Group → Group) : (s.alterGroup n f).limit = s.limit := rfl
@[simp] theorem State.alterGroup_measured (s : State) (n : Nat) (f : Group → Group) : (s.alterGroup n f).measured = s.measured := rfl
@[simp] theorem State.alterGroup_verified (s : State) (n : Nat) (f : Group → Group) : (s.alterGroup n f).verified = s.verified := rfl
@[simp] theorem State.alterGroup_rejected (s : State) (n : Nat) (f : Group → Group) : (s.alterGroup n f).rejected = s.rejected := rfl
@[simp] theorem State.alterGroup_strap (s : State) (n : Nat) (f : Group → Group) : (s.alterGroup n f).strap = s.strap := rfl
@[simp] theorem State.alterGroup_gave (s : State) (n : Nat) (f : Group → Group) : (s.alterGroup n f).gave = s.gave := rfl
@[simp] theorem State.alterGroup_remains (s : State) (n : Nat) (f : Group → Group) : (s.alterGroup n f).remains = s.remains := rfl
@[simp] theorem State.alterGroup_fresh (s : State) (n : Nat) (f : Group → Group) : (s.alterGroup n f).fresh = s.fresh := rfl
@[simp] theorem State.alterGroup_drawn (s : State) (n : Nat) (f : Group → Group) : (s.alterGroup n f).drawn = s.drawn := rfl
@[simp] theorem State.alterGroup_cur (s : State) (n : Nat) (f : Group → Group) : (s.alterGroup n f).cur = s.cur := rfl
@[simp] theorem State.alterGroup_noise (s : State) (n : Nat) (f : Group → Group) : (s.alterGroup n f).noise = s.noise := rfl
@[simp] theorem State.alterGroup_sched (s : State) (n : Nat) (f : Group → Group) : (s.alterGroup n f).sched = s.sched := rfl
@[simp] theorem State.alterGroup_thread (s : State) (n : Nat) (f : Group → Group) (u : ThreadId) : (s.alterGroup n f).thread u = s.thread u := rfl
@[simp] theorem State.alterGroup_team (s : State) (n : Nat) (f : Group → Group) (k : Nat) : (s.alterGroup n f).team k = s.team k := rfl
@[simp] theorem State.alterGroup_core (s : State) (n : Nat) (f : Group → Group) (e : CoreId) : (s.alterGroup n f).core e = s.core e := rfl
@[simp] theorem State.alterGroup_die (s : State) (n : Nat) (f : Group → Group) (k : Nat) : (s.alterGroup n f).die k = s.die k := rfl
@[simp] theorem State.alterGroup_array (s : State) (n : Nat) (f : Group → Group) (e : CoreId) (a : Nat) : (s.alterGroup n f).array e a = s.array e a := rfl
@[simp] theorem State.alterGroup_barrier (s : State) (n : Nat) (f : Group → Group) (e : CoreId) (o : Nat) : (s.alterGroup n f).barrier e o = s.barrier e o := rfl
@[simp] theorem State.alterGroup_context (s : State) (n : Nat) (f : Group → Group) (k : Nat) : (s.alterGroup n f).context k = s.context k := rfl
@[simp] theorem State.alterGroup_byte (s : State) (n : Nat) (f : Group → Group) (a : Nat) : (s.alterGroup n f).byte a = s.byte a := rfl
@[simp] theorem State.alterGroup_teamOf (s : State) (n : Nat) (f : Group → Group) (u : ThreadId) : (s.alterGroup n f).teamOf u = s.teamOf u := rfl
@[simp] theorem State.alterGroup_coreOf (s : State) (n : Nat) (f : Group → Group) (u : ThreadId) : (s.alterGroup n f).coreOf u = s.coreOf u := rfl
@[simp] theorem State.alterGroup_cnOf (s : State) (n : Nat) (f : Group → Group) (u : ThreadId) : (s.alterGroup n f).cnOf u = s.cnOf u := rfl

@[simp] theorem State.setCore_threads (s : State) (c : CoreId) (x : Core) : (s.setCore c x).threads = s.threads := rfl
@[simp] theorem State.setCore_teams (s : State) (c : CoreId) (x : Core) : (s.setCore c x).teams = s.teams := rfl
@[simp] theorem State.setCore_groups (s : State) (c : CoreId) (x : Core) : (s.setCore c x).groups = s.groups := rfl
@[simp] theorem State.setCore_dies (s : State) (c : CoreId) (x : Core) : (s.setCore c x).dies = s.dies := rfl
@[simp] theorem State.setCore_contexts (s : State) (c : CoreId) (x : Core) : (s.setCore c x).contexts = s.contexts := rfl
@[simp] theorem State.setCore_grids (s : State) (c : CoreId) (x : Core) : (s.setCore c x).grids = s.grids := rfl
@[simp] theorem State.setCore_mem (s : State) (c : CoreId) (x : Core) : (s.setCore c x).mem = s.mem := rfl
@[simp] theorem State.setCore_seq (s : State) (c : CoreId) (x : Core) : (s.setCore c x).seq = s.seq := rfl
@[simp] theorem State.setCore_hist (s : State) (c : CoreId) (x : Core) : (s.setCore c x).hist = s.hist := rfl
@[simp] theorem State.setCore_past (s : State) (c : CoreId) (x : Core) : (s.setCore c x).past = s.past := rfl
@[simp] theorem State.setCore_leases (s : State) (c : CoreId) (x : Core) : (s.setCore c x).leases = s.leases := rfl
@[simp] theorem State.setCore_wmax (s : State) (c : CoreId) (x : Core) : (s.setCore c x).wmax = s.wmax := rfl
@[simp] theorem State.setCore_poison (s : State) (c : CoreId) (x : Core) : (s.setCore c x).poison = s.poison := rfl
@[simp] theorem State.setCore_dtime (s : State) (c : CoreId) (x : Core) : (s.setCore c x).dtime = s.dtime := rfl
@[simp] theorem State.setCore_llc (s : State) (c : CoreId) (x : Core) : (s.setCore c x).llc = s.llc := rfl
@[simp] theorem State.setCore_pages (s : State) (c : CoreId) (x : Core) : (s.setCore c x).pages = s.pages := rfl
@[simp] theorem State.setCore_epochAt (s : State) (c : CoreId) (x : Core) : (s.setCore c x).epochAt = s.epochAt := rfl
@[simp] theorem State.setCore_pwm (s : State) (c : CoreId) (x : Core) : (s.setCore c x).pwm = s.pwm := rfl
@[simp] theorem State.setCore_pgmode (s : State) (c : CoreId) (x : Core) : (s.setCore c x).pgmode = s.pgmode := rfl
@[simp] theorem State.setCore_accesses (s : State) (c : CoreId) (x : Core) : (s.setCore c x).accesses = s.accesses := rfl
@[simp] theorem State.setCore_commands (s : State) (c : CoreId) (x : Core) : (s.setCore c x).commands = s.commands := rfl
@[simp] theorem State.setCore_heldPushes (s : State) (c : CoreId) (x : Core) : (s.setCore c x).heldPushes = s.heldPushes := rfl
@[simp] theorem State.setCore_channels (s : State) (c : CoreId) (x : Core) : (s.setCore c x).channels = s.channels := rfl
@[simp] theorem State.setCore_msgs (s : State) (c : CoreId) (x : Core) : (s.setCore c x).msgs = s.msgs := rfl
@[simp] theorem State.setCore_outbox (s : State) (c : CoreId) (x : Core) : (s.setCore c x).outbox = s.outbox := rfl
@[simp] theorem State.setCore_unsent (s : State) (c : CoreId) (x : Core) : (s.setCore c x).unsent = s.unsent := rfl
@[simp] theorem State.setCore_reports (s : State) (c : CoreId) (x : Core) : (s.setCore c x).reports = s.reports := rfl
@[simp] theorem State.setCore_images (s : State) (c : CoreId) (x : Core) : (s.setCore c x).images = s.images := rfl
@[simp] theorem State.setCore_restored (s : State) (c : CoreId) (x : Core) : (s.setCore c x).restored = s.restored := rfl
@[simp] theorem State.setCore_gives (s : State) (c : CoreId) (x : Core) : (s.setCore c x).gives = s.gives := rfl
@[simp] theorem State.setCore_replay (s : State) (c : CoreId) (x : Core) : (s.setCore c x).replay = s.replay := rfl
@[simp] theorem State.setCore_rpstat (s : State) (c : CoreId) (x : Core) : (s.setCore c x).rpstat = s.rpstat := rfl
@[simp] theorem State.setCore_htbase (s : State) (c : CoreId) (x : Core) : (s.setCore c x).htbase = s.htbase := rfl
@[simp] theorem State.setCore_htsize (s : State) (c : CoreId) (x : Core) : (s.setCore c x).htsize = s.htsize := rfl
@[simp] theorem State.setCore_netcfg (s : State) (c : CoreId) (x : Core) : (s.setCore c x).netcfg = s.netcfg := rfl
@[simp] theorem State.setCore_devnum (s : State) (c : CoreId) (x : Core) : (s.setCore c x).devnum = s.devnum := rfl
@[simp] theorem State.setCore_lastReset (s : State) (c : CoreId) (x : Core) : (s.setCore c x).lastReset = s.lastReset := rfl
@[simp] theorem State.setCore_ports (s : State) (c : CoreId) (x : Core) : (s.setCore c x).ports = s.ports := rfl
@[simp] theorem State.setCore_conns (s : State) (c : CoreId) (x : Core) : (s.setCore c x).conns = s.conns := rfl
@[simp] theorem State.setCore_limit (s : State) (c : CoreId) (x : Core) : (s.setCore c x).limit = s.limit := rfl
@[simp] theorem State.setCore_measured (s : State) (c : CoreId) (x : Core) : (s.setCore c x).measured = s.measured := rfl
@[simp] theorem State.setCore_verified (s : State) (c : CoreId) (x : Core) : (s.setCore c x).verified = s.verified := rfl
@[simp] theorem State.setCore_rejected (s : State) (c : CoreId) (x : Core) : (s.setCore c x).rejected = s.rejected := rfl
@[simp] theorem State.setCore_strap (s : State) (c : CoreId) (x : Core) : (s.setCore c x).strap = s.strap := rfl
@[simp] theorem State.setCore_gave (s : State) (c : CoreId) (x : Core) : (s.setCore c x).gave = s.gave := rfl
@[simp] theorem State.setCore_remains (s : State) (c : CoreId) (x : Core) : (s.setCore c x).remains = s.remains := rfl
@[simp] theorem State.setCore_fresh (s : State) (c : CoreId) (x : Core) : (s.setCore c x).fresh = s.fresh := rfl
@[simp] theorem State.setCore_drawn (s : State) (c : CoreId) (x : Core) : (s.setCore c x).drawn = s.drawn := rfl
@[simp] theorem State.setCore_cur (s : State) (c : CoreId) (x : Core) : (s.setCore c x).cur = s.cur := rfl
@[simp] theorem State.setCore_noise (s : State) (c : CoreId) (x : Core) : (s.setCore c x).noise = s.noise := rfl
@[simp] theorem State.setCore_sched (s : State) (c : CoreId) (x : Core) : (s.setCore c x).sched = s.sched := rfl
@[simp] theorem State.setCore_thread (s : State) (c : CoreId) (x : Core) (u : ThreadId) : (s.setCore c x).thread u = s.thread u := rfl
@[simp] theorem State.setCore_team (s : State) (c : CoreId) (x : Core) (k : Nat) : (s.setCore c x).team k = s.team k := rfl
@[simp] theorem State.setCore_group (s : State) (c : CoreId) (x : Core) (k : Nat) : (s.setCore c x).group k = s.group k := rfl
@[simp] theorem State.setCore_die (s : State) (c : CoreId) (x : Core) (k : Nat) : (s.setCore c x).die k = s.die k := rfl
@[simp] theorem State.setCore_context (s : State) (c : CoreId) (x : Core) (k : Nat) : (s.setCore c x).context k = s.context k := rfl
@[simp] theorem State.setCore_byte (s : State) (c : CoreId) (x : Core) (a : Nat) : (s.setCore c x).byte a = s.byte a := rfl
@[simp] theorem State.setCore_teamOf (s : State) (c : CoreId) (x : Core) (u : ThreadId) : (s.setCore c x).teamOf u = s.teamOf u := rfl
@[simp] theorem State.setCore_coreOf (s : State) (c : CoreId) (x : Core) (u : ThreadId) : (s.setCore c x).coreOf u = s.coreOf u := rfl
@[simp] theorem State.setCore_cnOf (s : State) (c : CoreId) (x : Core) (u : ThreadId) : (s.setCore c x).cnOf u = s.cnOf u := rfl

@[simp] theorem State.alterCore_threads (s : State) (c : CoreId) (f : Core → Core) : (s.alterCore c f).threads = s.threads := rfl
@[simp] theorem State.alterCore_teams (s : State) (c : CoreId) (f : Core → Core) : (s.alterCore c f).teams = s.teams := rfl
@[simp] theorem State.alterCore_groups (s : State) (c : CoreId) (f : Core → Core) : (s.alterCore c f).groups = s.groups := rfl
@[simp] theorem State.alterCore_dies (s : State) (c : CoreId) (f : Core → Core) : (s.alterCore c f).dies = s.dies := rfl
@[simp] theorem State.alterCore_contexts (s : State) (c : CoreId) (f : Core → Core) : (s.alterCore c f).contexts = s.contexts := rfl
@[simp] theorem State.alterCore_grids (s : State) (c : CoreId) (f : Core → Core) : (s.alterCore c f).grids = s.grids := rfl
@[simp] theorem State.alterCore_mem (s : State) (c : CoreId) (f : Core → Core) : (s.alterCore c f).mem = s.mem := rfl
@[simp] theorem State.alterCore_seq (s : State) (c : CoreId) (f : Core → Core) : (s.alterCore c f).seq = s.seq := rfl
@[simp] theorem State.alterCore_hist (s : State) (c : CoreId) (f : Core → Core) : (s.alterCore c f).hist = s.hist := rfl
@[simp] theorem State.alterCore_past (s : State) (c : CoreId) (f : Core → Core) : (s.alterCore c f).past = s.past := rfl
@[simp] theorem State.alterCore_leases (s : State) (c : CoreId) (f : Core → Core) : (s.alterCore c f).leases = s.leases := rfl
@[simp] theorem State.alterCore_wmax (s : State) (c : CoreId) (f : Core → Core) : (s.alterCore c f).wmax = s.wmax := rfl
@[simp] theorem State.alterCore_poison (s : State) (c : CoreId) (f : Core → Core) : (s.alterCore c f).poison = s.poison := rfl
@[simp] theorem State.alterCore_dtime (s : State) (c : CoreId) (f : Core → Core) : (s.alterCore c f).dtime = s.dtime := rfl
@[simp] theorem State.alterCore_llc (s : State) (c : CoreId) (f : Core → Core) : (s.alterCore c f).llc = s.llc := rfl
@[simp] theorem State.alterCore_pages (s : State) (c : CoreId) (f : Core → Core) : (s.alterCore c f).pages = s.pages := rfl
@[simp] theorem State.alterCore_epochAt (s : State) (c : CoreId) (f : Core → Core) : (s.alterCore c f).epochAt = s.epochAt := rfl
@[simp] theorem State.alterCore_pwm (s : State) (c : CoreId) (f : Core → Core) : (s.alterCore c f).pwm = s.pwm := rfl
@[simp] theorem State.alterCore_pgmode (s : State) (c : CoreId) (f : Core → Core) : (s.alterCore c f).pgmode = s.pgmode := rfl
@[simp] theorem State.alterCore_accesses (s : State) (c : CoreId) (f : Core → Core) : (s.alterCore c f).accesses = s.accesses := rfl
@[simp] theorem State.alterCore_commands (s : State) (c : CoreId) (f : Core → Core) : (s.alterCore c f).commands = s.commands := rfl
@[simp] theorem State.alterCore_heldPushes (s : State) (c : CoreId) (f : Core → Core) : (s.alterCore c f).heldPushes = s.heldPushes := rfl
@[simp] theorem State.alterCore_channels (s : State) (c : CoreId) (f : Core → Core) : (s.alterCore c f).channels = s.channels := rfl
@[simp] theorem State.alterCore_msgs (s : State) (c : CoreId) (f : Core → Core) : (s.alterCore c f).msgs = s.msgs := rfl
@[simp] theorem State.alterCore_outbox (s : State) (c : CoreId) (f : Core → Core) : (s.alterCore c f).outbox = s.outbox := rfl
@[simp] theorem State.alterCore_unsent (s : State) (c : CoreId) (f : Core → Core) : (s.alterCore c f).unsent = s.unsent := rfl
@[simp] theorem State.alterCore_reports (s : State) (c : CoreId) (f : Core → Core) : (s.alterCore c f).reports = s.reports := rfl
@[simp] theorem State.alterCore_images (s : State) (c : CoreId) (f : Core → Core) : (s.alterCore c f).images = s.images := rfl
@[simp] theorem State.alterCore_restored (s : State) (c : CoreId) (f : Core → Core) : (s.alterCore c f).restored = s.restored := rfl
@[simp] theorem State.alterCore_gives (s : State) (c : CoreId) (f : Core → Core) : (s.alterCore c f).gives = s.gives := rfl
@[simp] theorem State.alterCore_replay (s : State) (c : CoreId) (f : Core → Core) : (s.alterCore c f).replay = s.replay := rfl
@[simp] theorem State.alterCore_rpstat (s : State) (c : CoreId) (f : Core → Core) : (s.alterCore c f).rpstat = s.rpstat := rfl
@[simp] theorem State.alterCore_htbase (s : State) (c : CoreId) (f : Core → Core) : (s.alterCore c f).htbase = s.htbase := rfl
@[simp] theorem State.alterCore_htsize (s : State) (c : CoreId) (f : Core → Core) : (s.alterCore c f).htsize = s.htsize := rfl
@[simp] theorem State.alterCore_netcfg (s : State) (c : CoreId) (f : Core → Core) : (s.alterCore c f).netcfg = s.netcfg := rfl
@[simp] theorem State.alterCore_devnum (s : State) (c : CoreId) (f : Core → Core) : (s.alterCore c f).devnum = s.devnum := rfl
@[simp] theorem State.alterCore_lastReset (s : State) (c : CoreId) (f : Core → Core) : (s.alterCore c f).lastReset = s.lastReset := rfl
@[simp] theorem State.alterCore_ports (s : State) (c : CoreId) (f : Core → Core) : (s.alterCore c f).ports = s.ports := rfl
@[simp] theorem State.alterCore_conns (s : State) (c : CoreId) (f : Core → Core) : (s.alterCore c f).conns = s.conns := rfl
@[simp] theorem State.alterCore_limit (s : State) (c : CoreId) (f : Core → Core) : (s.alterCore c f).limit = s.limit := rfl
@[simp] theorem State.alterCore_measured (s : State) (c : CoreId) (f : Core → Core) : (s.alterCore c f).measured = s.measured := rfl
@[simp] theorem State.alterCore_verified (s : State) (c : CoreId) (f : Core → Core) : (s.alterCore c f).verified = s.verified := rfl
@[simp] theorem State.alterCore_rejected (s : State) (c : CoreId) (f : Core → Core) : (s.alterCore c f).rejected = s.rejected := rfl
@[simp] theorem State.alterCore_strap (s : State) (c : CoreId) (f : Core → Core) : (s.alterCore c f).strap = s.strap := rfl
@[simp] theorem State.alterCore_gave (s : State) (c : CoreId) (f : Core → Core) : (s.alterCore c f).gave = s.gave := rfl
@[simp] theorem State.alterCore_remains (s : State) (c : CoreId) (f : Core → Core) : (s.alterCore c f).remains = s.remains := rfl
@[simp] theorem State.alterCore_fresh (s : State) (c : CoreId) (f : Core → Core) : (s.alterCore c f).fresh = s.fresh := rfl
@[simp] theorem State.alterCore_drawn (s : State) (c : CoreId) (f : Core → Core) : (s.alterCore c f).drawn = s.drawn := rfl
@[simp] theorem State.alterCore_cur (s : State) (c : CoreId) (f : Core → Core) : (s.alterCore c f).cur = s.cur := rfl
@[simp] theorem State.alterCore_noise (s : State) (c : CoreId) (f : Core → Core) : (s.alterCore c f).noise = s.noise := rfl
@[simp] theorem State.alterCore_sched (s : State) (c : CoreId) (f : Core → Core) : (s.alterCore c f).sched = s.sched := rfl
@[simp] theorem State.alterCore_thread (s : State) (c : CoreId) (f : Core → Core) (u : ThreadId) : (s.alterCore c f).thread u = s.thread u := rfl
@[simp] theorem State.alterCore_team (s : State) (c : CoreId) (f : Core → Core) (k : Nat) : (s.alterCore c f).team k = s.team k := rfl
@[simp] theorem State.alterCore_group (s : State) (c : CoreId) (f : Core → Core) (k : Nat) : (s.alterCore c f).group k = s.group k := rfl
@[simp] theorem State.alterCore_die (s : State) (c : CoreId) (f : Core → Core) (k : Nat) : (s.alterCore c f).die k = s.die k := rfl
@[simp] theorem State.alterCore_context (s : State) (c : CoreId) (f : Core → Core) (k : Nat) : (s.alterCore c f).context k = s.context k := rfl
@[simp] theorem State.alterCore_byte (s : State) (c : CoreId) (f : Core → Core) (a : Nat) : (s.alterCore c f).byte a = s.byte a := rfl
@[simp] theorem State.alterCore_teamOf (s : State) (c : CoreId) (f : Core → Core) (u : ThreadId) : (s.alterCore c f).teamOf u = s.teamOf u := rfl
@[simp] theorem State.alterCore_coreOf (s : State) (c : CoreId) (f : Core → Core) (u : ThreadId) : (s.alterCore c f).coreOf u = s.coreOf u := rfl
@[simp] theorem State.alterCore_cnOf (s : State) (c : CoreId) (f : Core → Core) (u : ThreadId) : (s.alterCore c f).cnOf u = s.cnOf u := rfl

@[simp] theorem State.setDie_threads (s : State) (d : Nat) (x : Die) : (s.setDie d x).threads = s.threads := rfl
@[simp] theorem State.setDie_teams (s : State) (d : Nat) (x : Die) : (s.setDie d x).teams = s.teams := rfl
@[simp] theorem State.setDie_groups (s : State) (d : Nat) (x : Die) : (s.setDie d x).groups = s.groups := rfl
@[simp] theorem State.setDie_cores (s : State) (d : Nat) (x : Die) : (s.setDie d x).cores = s.cores := rfl
@[simp] theorem State.setDie_contexts (s : State) (d : Nat) (x : Die) : (s.setDie d x).contexts = s.contexts := rfl
@[simp] theorem State.setDie_grids (s : State) (d : Nat) (x : Die) : (s.setDie d x).grids = s.grids := rfl
@[simp] theorem State.setDie_mem (s : State) (d : Nat) (x : Die) : (s.setDie d x).mem = s.mem := rfl
@[simp] theorem State.setDie_seq (s : State) (d : Nat) (x : Die) : (s.setDie d x).seq = s.seq := rfl
@[simp] theorem State.setDie_hist (s : State) (d : Nat) (x : Die) : (s.setDie d x).hist = s.hist := rfl
@[simp] theorem State.setDie_past (s : State) (d : Nat) (x : Die) : (s.setDie d x).past = s.past := rfl
@[simp] theorem State.setDie_leases (s : State) (d : Nat) (x : Die) : (s.setDie d x).leases = s.leases := rfl
@[simp] theorem State.setDie_wmax (s : State) (d : Nat) (x : Die) : (s.setDie d x).wmax = s.wmax := rfl
@[simp] theorem State.setDie_poison (s : State) (d : Nat) (x : Die) : (s.setDie d x).poison = s.poison := rfl
@[simp] theorem State.setDie_dtime (s : State) (d : Nat) (x : Die) : (s.setDie d x).dtime = s.dtime := rfl
@[simp] theorem State.setDie_llc (s : State) (d : Nat) (x : Die) : (s.setDie d x).llc = s.llc := rfl
@[simp] theorem State.setDie_pages (s : State) (d : Nat) (x : Die) : (s.setDie d x).pages = s.pages := rfl
@[simp] theorem State.setDie_epochAt (s : State) (d : Nat) (x : Die) : (s.setDie d x).epochAt = s.epochAt := rfl
@[simp] theorem State.setDie_pwm (s : State) (d : Nat) (x : Die) : (s.setDie d x).pwm = s.pwm := rfl
@[simp] theorem State.setDie_pgmode (s : State) (d : Nat) (x : Die) : (s.setDie d x).pgmode = s.pgmode := rfl
@[simp] theorem State.setDie_accesses (s : State) (d : Nat) (x : Die) : (s.setDie d x).accesses = s.accesses := rfl
@[simp] theorem State.setDie_commands (s : State) (d : Nat) (x : Die) : (s.setDie d x).commands = s.commands := rfl
@[simp] theorem State.setDie_heldPushes (s : State) (d : Nat) (x : Die) : (s.setDie d x).heldPushes = s.heldPushes := rfl
@[simp] theorem State.setDie_channels (s : State) (d : Nat) (x : Die) : (s.setDie d x).channels = s.channels := rfl
@[simp] theorem State.setDie_msgs (s : State) (d : Nat) (x : Die) : (s.setDie d x).msgs = s.msgs := rfl
@[simp] theorem State.setDie_outbox (s : State) (d : Nat) (x : Die) : (s.setDie d x).outbox = s.outbox := rfl
@[simp] theorem State.setDie_unsent (s : State) (d : Nat) (x : Die) : (s.setDie d x).unsent = s.unsent := rfl
@[simp] theorem State.setDie_reports (s : State) (d : Nat) (x : Die) : (s.setDie d x).reports = s.reports := rfl
@[simp] theorem State.setDie_images (s : State) (d : Nat) (x : Die) : (s.setDie d x).images = s.images := rfl
@[simp] theorem State.setDie_restored (s : State) (d : Nat) (x : Die) : (s.setDie d x).restored = s.restored := rfl
@[simp] theorem State.setDie_gives (s : State) (d : Nat) (x : Die) : (s.setDie d x).gives = s.gives := rfl
@[simp] theorem State.setDie_replay (s : State) (d : Nat) (x : Die) : (s.setDie d x).replay = s.replay := rfl
@[simp] theorem State.setDie_rpstat (s : State) (d : Nat) (x : Die) : (s.setDie d x).rpstat = s.rpstat := rfl
@[simp] theorem State.setDie_htbase (s : State) (d : Nat) (x : Die) : (s.setDie d x).htbase = s.htbase := rfl
@[simp] theorem State.setDie_htsize (s : State) (d : Nat) (x : Die) : (s.setDie d x).htsize = s.htsize := rfl
@[simp] theorem State.setDie_netcfg (s : State) (d : Nat) (x : Die) : (s.setDie d x).netcfg = s.netcfg := rfl
@[simp] theorem State.setDie_devnum (s : State) (d : Nat) (x : Die) : (s.setDie d x).devnum = s.devnum := rfl
@[simp] theorem State.setDie_lastReset (s : State) (d : Nat) (x : Die) : (s.setDie d x).lastReset = s.lastReset := rfl
@[simp] theorem State.setDie_ports (s : State) (d : Nat) (x : Die) : (s.setDie d x).ports = s.ports := rfl
@[simp] theorem State.setDie_conns (s : State) (d : Nat) (x : Die) : (s.setDie d x).conns = s.conns := rfl
@[simp] theorem State.setDie_limit (s : State) (d : Nat) (x : Die) : (s.setDie d x).limit = s.limit := rfl
@[simp] theorem State.setDie_measured (s : State) (d : Nat) (x : Die) : (s.setDie d x).measured = s.measured := rfl
@[simp] theorem State.setDie_verified (s : State) (d : Nat) (x : Die) : (s.setDie d x).verified = s.verified := rfl
@[simp] theorem State.setDie_rejected (s : State) (d : Nat) (x : Die) : (s.setDie d x).rejected = s.rejected := rfl
@[simp] theorem State.setDie_strap (s : State) (d : Nat) (x : Die) : (s.setDie d x).strap = s.strap := rfl
@[simp] theorem State.setDie_gave (s : State) (d : Nat) (x : Die) : (s.setDie d x).gave = s.gave := rfl
@[simp] theorem State.setDie_remains (s : State) (d : Nat) (x : Die) : (s.setDie d x).remains = s.remains := rfl
@[simp] theorem State.setDie_fresh (s : State) (d : Nat) (x : Die) : (s.setDie d x).fresh = s.fresh := rfl
@[simp] theorem State.setDie_drawn (s : State) (d : Nat) (x : Die) : (s.setDie d x).drawn = s.drawn := rfl
@[simp] theorem State.setDie_cur (s : State) (d : Nat) (x : Die) : (s.setDie d x).cur = s.cur := rfl
@[simp] theorem State.setDie_noise (s : State) (d : Nat) (x : Die) : (s.setDie d x).noise = s.noise := rfl
@[simp] theorem State.setDie_sched (s : State) (d : Nat) (x : Die) : (s.setDie d x).sched = s.sched := rfl
@[simp] theorem State.setDie_thread (s : State) (d : Nat) (x : Die) (u : ThreadId) : (s.setDie d x).thread u = s.thread u := rfl
@[simp] theorem State.setDie_team (s : State) (d : Nat) (x : Die) (k : Nat) : (s.setDie d x).team k = s.team k := rfl
@[simp] theorem State.setDie_group (s : State) (d : Nat) (x : Die) (k : Nat) : (s.setDie d x).group k = s.group k := rfl
@[simp] theorem State.setDie_core (s : State) (d : Nat) (x : Die) (e : CoreId) : (s.setDie d x).core e = s.core e := rfl
@[simp] theorem State.setDie_array (s : State) (d : Nat) (x : Die) (e : CoreId) (a : Nat) : (s.setDie d x).array e a = s.array e a := rfl
@[simp] theorem State.setDie_barrier (s : State) (d : Nat) (x : Die) (e : CoreId) (o : Nat) : (s.setDie d x).barrier e o = s.barrier e o := rfl
@[simp] theorem State.setDie_context (s : State) (d : Nat) (x : Die) (k : Nat) : (s.setDie d x).context k = s.context k := rfl
@[simp] theorem State.setDie_byte (s : State) (d : Nat) (x : Die) (a : Nat) : (s.setDie d x).byte a = s.byte a := rfl
@[simp] theorem State.setDie_teamOf (s : State) (d : Nat) (x : Die) (u : ThreadId) : (s.setDie d x).teamOf u = s.teamOf u := rfl
@[simp] theorem State.setDie_coreOf (s : State) (d : Nat) (x : Die) (u : ThreadId) : (s.setDie d x).coreOf u = s.coreOf u := rfl
@[simp] theorem State.setDie_cnOf (s : State) (d : Nat) (x : Die) (u : ThreadId) : (s.setDie d x).cnOf u = s.cnOf u := rfl

@[simp] theorem State.alterDie_threads (s : State) (d : Nat) (f : Die → Die) : (s.alterDie d f).threads = s.threads := rfl
@[simp] theorem State.alterDie_teams (s : State) (d : Nat) (f : Die → Die) : (s.alterDie d f).teams = s.teams := rfl
@[simp] theorem State.alterDie_groups (s : State) (d : Nat) (f : Die → Die) : (s.alterDie d f).groups = s.groups := rfl
@[simp] theorem State.alterDie_cores (s : State) (d : Nat) (f : Die → Die) : (s.alterDie d f).cores = s.cores := rfl
@[simp] theorem State.alterDie_contexts (s : State) (d : Nat) (f : Die → Die) : (s.alterDie d f).contexts = s.contexts := rfl
@[simp] theorem State.alterDie_grids (s : State) (d : Nat) (f : Die → Die) : (s.alterDie d f).grids = s.grids := rfl
@[simp] theorem State.alterDie_mem (s : State) (d : Nat) (f : Die → Die) : (s.alterDie d f).mem = s.mem := rfl
@[simp] theorem State.alterDie_seq (s : State) (d : Nat) (f : Die → Die) : (s.alterDie d f).seq = s.seq := rfl
@[simp] theorem State.alterDie_hist (s : State) (d : Nat) (f : Die → Die) : (s.alterDie d f).hist = s.hist := rfl
@[simp] theorem State.alterDie_past (s : State) (d : Nat) (f : Die → Die) : (s.alterDie d f).past = s.past := rfl
@[simp] theorem State.alterDie_leases (s : State) (d : Nat) (f : Die → Die) : (s.alterDie d f).leases = s.leases := rfl
@[simp] theorem State.alterDie_wmax (s : State) (d : Nat) (f : Die → Die) : (s.alterDie d f).wmax = s.wmax := rfl
@[simp] theorem State.alterDie_poison (s : State) (d : Nat) (f : Die → Die) : (s.alterDie d f).poison = s.poison := rfl
@[simp] theorem State.alterDie_dtime (s : State) (d : Nat) (f : Die → Die) : (s.alterDie d f).dtime = s.dtime := rfl
@[simp] theorem State.alterDie_llc (s : State) (d : Nat) (f : Die → Die) : (s.alterDie d f).llc = s.llc := rfl
@[simp] theorem State.alterDie_pages (s : State) (d : Nat) (f : Die → Die) : (s.alterDie d f).pages = s.pages := rfl
@[simp] theorem State.alterDie_epochAt (s : State) (d : Nat) (f : Die → Die) : (s.alterDie d f).epochAt = s.epochAt := rfl
@[simp] theorem State.alterDie_pwm (s : State) (d : Nat) (f : Die → Die) : (s.alterDie d f).pwm = s.pwm := rfl
@[simp] theorem State.alterDie_pgmode (s : State) (d : Nat) (f : Die → Die) : (s.alterDie d f).pgmode = s.pgmode := rfl
@[simp] theorem State.alterDie_accesses (s : State) (d : Nat) (f : Die → Die) : (s.alterDie d f).accesses = s.accesses := rfl
@[simp] theorem State.alterDie_commands (s : State) (d : Nat) (f : Die → Die) : (s.alterDie d f).commands = s.commands := rfl
@[simp] theorem State.alterDie_heldPushes (s : State) (d : Nat) (f : Die → Die) : (s.alterDie d f).heldPushes = s.heldPushes := rfl
@[simp] theorem State.alterDie_channels (s : State) (d : Nat) (f : Die → Die) : (s.alterDie d f).channels = s.channels := rfl
@[simp] theorem State.alterDie_msgs (s : State) (d : Nat) (f : Die → Die) : (s.alterDie d f).msgs = s.msgs := rfl
@[simp] theorem State.alterDie_outbox (s : State) (d : Nat) (f : Die → Die) : (s.alterDie d f).outbox = s.outbox := rfl
@[simp] theorem State.alterDie_unsent (s : State) (d : Nat) (f : Die → Die) : (s.alterDie d f).unsent = s.unsent := rfl
@[simp] theorem State.alterDie_reports (s : State) (d : Nat) (f : Die → Die) : (s.alterDie d f).reports = s.reports := rfl
@[simp] theorem State.alterDie_images (s : State) (d : Nat) (f : Die → Die) : (s.alterDie d f).images = s.images := rfl
@[simp] theorem State.alterDie_restored (s : State) (d : Nat) (f : Die → Die) : (s.alterDie d f).restored = s.restored := rfl
@[simp] theorem State.alterDie_gives (s : State) (d : Nat) (f : Die → Die) : (s.alterDie d f).gives = s.gives := rfl
@[simp] theorem State.alterDie_replay (s : State) (d : Nat) (f : Die → Die) : (s.alterDie d f).replay = s.replay := rfl
@[simp] theorem State.alterDie_rpstat (s : State) (d : Nat) (f : Die → Die) : (s.alterDie d f).rpstat = s.rpstat := rfl
@[simp] theorem State.alterDie_htbase (s : State) (d : Nat) (f : Die → Die) : (s.alterDie d f).htbase = s.htbase := rfl
@[simp] theorem State.alterDie_htsize (s : State) (d : Nat) (f : Die → Die) : (s.alterDie d f).htsize = s.htsize := rfl
@[simp] theorem State.alterDie_netcfg (s : State) (d : Nat) (f : Die → Die) : (s.alterDie d f).netcfg = s.netcfg := rfl
@[simp] theorem State.alterDie_devnum (s : State) (d : Nat) (f : Die → Die) : (s.alterDie d f).devnum = s.devnum := rfl
@[simp] theorem State.alterDie_lastReset (s : State) (d : Nat) (f : Die → Die) : (s.alterDie d f).lastReset = s.lastReset := rfl
@[simp] theorem State.alterDie_ports (s : State) (d : Nat) (f : Die → Die) : (s.alterDie d f).ports = s.ports := rfl
@[simp] theorem State.alterDie_conns (s : State) (d : Nat) (f : Die → Die) : (s.alterDie d f).conns = s.conns := rfl
@[simp] theorem State.alterDie_limit (s : State) (d : Nat) (f : Die → Die) : (s.alterDie d f).limit = s.limit := rfl
@[simp] theorem State.alterDie_measured (s : State) (d : Nat) (f : Die → Die) : (s.alterDie d f).measured = s.measured := rfl
@[simp] theorem State.alterDie_verified (s : State) (d : Nat) (f : Die → Die) : (s.alterDie d f).verified = s.verified := rfl
@[simp] theorem State.alterDie_rejected (s : State) (d : Nat) (f : Die → Die) : (s.alterDie d f).rejected = s.rejected := rfl
@[simp] theorem State.alterDie_strap (s : State) (d : Nat) (f : Die → Die) : (s.alterDie d f).strap = s.strap := rfl
@[simp] theorem State.alterDie_gave (s : State) (d : Nat) (f : Die → Die) : (s.alterDie d f).gave = s.gave := rfl
@[simp] theorem State.alterDie_remains (s : State) (d : Nat) (f : Die → Die) : (s.alterDie d f).remains = s.remains := rfl
@[simp] theorem State.alterDie_fresh (s : State) (d : Nat) (f : Die → Die) : (s.alterDie d f).fresh = s.fresh := rfl
@[simp] theorem State.alterDie_drawn (s : State) (d : Nat) (f : Die → Die) : (s.alterDie d f).drawn = s.drawn := rfl
@[simp] theorem State.alterDie_cur (s : State) (d : Nat) (f : Die → Die) : (s.alterDie d f).cur = s.cur := rfl
@[simp] theorem State.alterDie_noise (s : State) (d : Nat) (f : Die → Die) : (s.alterDie d f).noise = s.noise := rfl
@[simp] theorem State.alterDie_sched (s : State) (d : Nat) (f : Die → Die) : (s.alterDie d f).sched = s.sched := rfl
@[simp] theorem State.alterDie_thread (s : State) (d : Nat) (f : Die → Die) (u : ThreadId) : (s.alterDie d f).thread u = s.thread u := rfl
@[simp] theorem State.alterDie_team (s : State) (d : Nat) (f : Die → Die) (k : Nat) : (s.alterDie d f).team k = s.team k := rfl
@[simp] theorem State.alterDie_group (s : State) (d : Nat) (f : Die → Die) (k : Nat) : (s.alterDie d f).group k = s.group k := rfl
@[simp] theorem State.alterDie_core (s : State) (d : Nat) (f : Die → Die) (e : CoreId) : (s.alterDie d f).core e = s.core e := rfl
@[simp] theorem State.alterDie_array (s : State) (d : Nat) (f : Die → Die) (e : CoreId) (a : Nat) : (s.alterDie d f).array e a = s.array e a := rfl
@[simp] theorem State.alterDie_barrier (s : State) (d : Nat) (f : Die → Die) (e : CoreId) (o : Nat) : (s.alterDie d f).barrier e o = s.barrier e o := rfl
@[simp] theorem State.alterDie_context (s : State) (d : Nat) (f : Die → Die) (k : Nat) : (s.alterDie d f).context k = s.context k := rfl
@[simp] theorem State.alterDie_byte (s : State) (d : Nat) (f : Die → Die) (a : Nat) : (s.alterDie d f).byte a = s.byte a := rfl
@[simp] theorem State.alterDie_teamOf (s : State) (d : Nat) (f : Die → Die) (u : ThreadId) : (s.alterDie d f).teamOf u = s.teamOf u := rfl
@[simp] theorem State.alterDie_coreOf (s : State) (d : Nat) (f : Die → Die) (u : ThreadId) : (s.alterDie d f).coreOf u = s.coreOf u := rfl
@[simp] theorem State.alterDie_cnOf (s : State) (d : Nat) (f : Die → Die) (u : ThreadId) : (s.alterDie d f).cnOf u = s.cnOf u := rfl

@[simp] theorem State.alterContext_threads (s : State) (n : Nat) (f : Context → Context) : (s.alterContext n f).threads = s.threads := rfl
@[simp] theorem State.alterContext_teams (s : State) (n : Nat) (f : Context → Context) : (s.alterContext n f).teams = s.teams := rfl
@[simp] theorem State.alterContext_groups (s : State) (n : Nat) (f : Context → Context) : (s.alterContext n f).groups = s.groups := rfl
@[simp] theorem State.alterContext_cores (s : State) (n : Nat) (f : Context → Context) : (s.alterContext n f).cores = s.cores := rfl
@[simp] theorem State.alterContext_dies (s : State) (n : Nat) (f : Context → Context) : (s.alterContext n f).dies = s.dies := rfl
@[simp] theorem State.alterContext_grids (s : State) (n : Nat) (f : Context → Context) : (s.alterContext n f).grids = s.grids := rfl
@[simp] theorem State.alterContext_mem (s : State) (n : Nat) (f : Context → Context) : (s.alterContext n f).mem = s.mem := rfl
@[simp] theorem State.alterContext_seq (s : State) (n : Nat) (f : Context → Context) : (s.alterContext n f).seq = s.seq := rfl
@[simp] theorem State.alterContext_hist (s : State) (n : Nat) (f : Context → Context) : (s.alterContext n f).hist = s.hist := rfl
@[simp] theorem State.alterContext_past (s : State) (n : Nat) (f : Context → Context) : (s.alterContext n f).past = s.past := rfl
@[simp] theorem State.alterContext_leases (s : State) (n : Nat) (f : Context → Context) : (s.alterContext n f).leases = s.leases := rfl
@[simp] theorem State.alterContext_wmax (s : State) (n : Nat) (f : Context → Context) : (s.alterContext n f).wmax = s.wmax := rfl
@[simp] theorem State.alterContext_poison (s : State) (n : Nat) (f : Context → Context) : (s.alterContext n f).poison = s.poison := rfl
@[simp] theorem State.alterContext_dtime (s : State) (n : Nat) (f : Context → Context) : (s.alterContext n f).dtime = s.dtime := rfl
@[simp] theorem State.alterContext_llc (s : State) (n : Nat) (f : Context → Context) : (s.alterContext n f).llc = s.llc := rfl
@[simp] theorem State.alterContext_pages (s : State) (n : Nat) (f : Context → Context) : (s.alterContext n f).pages = s.pages := rfl
@[simp] theorem State.alterContext_epochAt (s : State) (n : Nat) (f : Context → Context) : (s.alterContext n f).epochAt = s.epochAt := rfl
@[simp] theorem State.alterContext_pwm (s : State) (n : Nat) (f : Context → Context) : (s.alterContext n f).pwm = s.pwm := rfl
@[simp] theorem State.alterContext_pgmode (s : State) (n : Nat) (f : Context → Context) : (s.alterContext n f).pgmode = s.pgmode := rfl
@[simp] theorem State.alterContext_accesses (s : State) (n : Nat) (f : Context → Context) : (s.alterContext n f).accesses = s.accesses := rfl
@[simp] theorem State.alterContext_commands (s : State) (n : Nat) (f : Context → Context) : (s.alterContext n f).commands = s.commands := rfl
@[simp] theorem State.alterContext_heldPushes (s : State) (n : Nat) (f : Context → Context) : (s.alterContext n f).heldPushes = s.heldPushes := rfl
@[simp] theorem State.alterContext_channels (s : State) (n : Nat) (f : Context → Context) : (s.alterContext n f).channels = s.channels := rfl
@[simp] theorem State.alterContext_msgs (s : State) (n : Nat) (f : Context → Context) : (s.alterContext n f).msgs = s.msgs := rfl
@[simp] theorem State.alterContext_outbox (s : State) (n : Nat) (f : Context → Context) : (s.alterContext n f).outbox = s.outbox := rfl
@[simp] theorem State.alterContext_unsent (s : State) (n : Nat) (f : Context → Context) : (s.alterContext n f).unsent = s.unsent := rfl
@[simp] theorem State.alterContext_reports (s : State) (n : Nat) (f : Context → Context) : (s.alterContext n f).reports = s.reports := rfl
@[simp] theorem State.alterContext_images (s : State) (n : Nat) (f : Context → Context) : (s.alterContext n f).images = s.images := rfl
@[simp] theorem State.alterContext_restored (s : State) (n : Nat) (f : Context → Context) : (s.alterContext n f).restored = s.restored := rfl
@[simp] theorem State.alterContext_gives (s : State) (n : Nat) (f : Context → Context) : (s.alterContext n f).gives = s.gives := rfl
@[simp] theorem State.alterContext_replay (s : State) (n : Nat) (f : Context → Context) : (s.alterContext n f).replay = s.replay := rfl
@[simp] theorem State.alterContext_rpstat (s : State) (n : Nat) (f : Context → Context) : (s.alterContext n f).rpstat = s.rpstat := rfl
@[simp] theorem State.alterContext_htbase (s : State) (n : Nat) (f : Context → Context) : (s.alterContext n f).htbase = s.htbase := rfl
@[simp] theorem State.alterContext_htsize (s : State) (n : Nat) (f : Context → Context) : (s.alterContext n f).htsize = s.htsize := rfl
@[simp] theorem State.alterContext_netcfg (s : State) (n : Nat) (f : Context → Context) : (s.alterContext n f).netcfg = s.netcfg := rfl
@[simp] theorem State.alterContext_devnum (s : State) (n : Nat) (f : Context → Context) : (s.alterContext n f).devnum = s.devnum := rfl
@[simp] theorem State.alterContext_lastReset (s : State) (n : Nat) (f : Context → Context) : (s.alterContext n f).lastReset = s.lastReset := rfl
@[simp] theorem State.alterContext_ports (s : State) (n : Nat) (f : Context → Context) : (s.alterContext n f).ports = s.ports := rfl
@[simp] theorem State.alterContext_conns (s : State) (n : Nat) (f : Context → Context) : (s.alterContext n f).conns = s.conns := rfl
@[simp] theorem State.alterContext_limit (s : State) (n : Nat) (f : Context → Context) : (s.alterContext n f).limit = s.limit := rfl
@[simp] theorem State.alterContext_measured (s : State) (n : Nat) (f : Context → Context) : (s.alterContext n f).measured = s.measured := rfl
@[simp] theorem State.alterContext_verified (s : State) (n : Nat) (f : Context → Context) : (s.alterContext n f).verified = s.verified := rfl
@[simp] theorem State.alterContext_rejected (s : State) (n : Nat) (f : Context → Context) : (s.alterContext n f).rejected = s.rejected := rfl
@[simp] theorem State.alterContext_strap (s : State) (n : Nat) (f : Context → Context) : (s.alterContext n f).strap = s.strap := rfl
@[simp] theorem State.alterContext_gave (s : State) (n : Nat) (f : Context → Context) : (s.alterContext n f).gave = s.gave := rfl
@[simp] theorem State.alterContext_remains (s : State) (n : Nat) (f : Context → Context) : (s.alterContext n f).remains = s.remains := rfl
@[simp] theorem State.alterContext_fresh (s : State) (n : Nat) (f : Context → Context) : (s.alterContext n f).fresh = s.fresh := rfl
@[simp] theorem State.alterContext_drawn (s : State) (n : Nat) (f : Context → Context) : (s.alterContext n f).drawn = s.drawn := rfl
@[simp] theorem State.alterContext_cur (s : State) (n : Nat) (f : Context → Context) : (s.alterContext n f).cur = s.cur := rfl
@[simp] theorem State.alterContext_noise (s : State) (n : Nat) (f : Context → Context) : (s.alterContext n f).noise = s.noise := rfl
@[simp] theorem State.alterContext_sched (s : State) (n : Nat) (f : Context → Context) : (s.alterContext n f).sched = s.sched := rfl
@[simp] theorem State.alterContext_thread (s : State) (n : Nat) (f : Context → Context) (u : ThreadId) : (s.alterContext n f).thread u = s.thread u := rfl
@[simp] theorem State.alterContext_team (s : State) (n : Nat) (f : Context → Context) (k : Nat) : (s.alterContext n f).team k = s.team k := rfl
@[simp] theorem State.alterContext_group (s : State) (n : Nat) (f : Context → Context) (k : Nat) : (s.alterContext n f).group k = s.group k := rfl
@[simp] theorem State.alterContext_core (s : State) (n : Nat) (f : Context → Context) (e : CoreId) : (s.alterContext n f).core e = s.core e := rfl
@[simp] theorem State.alterContext_die (s : State) (n : Nat) (f : Context → Context) (k : Nat) : (s.alterContext n f).die k = s.die k := rfl
@[simp] theorem State.alterContext_array (s : State) (n : Nat) (f : Context → Context) (e : CoreId) (a : Nat) : (s.alterContext n f).array e a = s.array e a := rfl
@[simp] theorem State.alterContext_barrier (s : State) (n : Nat) (f : Context → Context) (e : CoreId) (o : Nat) : (s.alterContext n f).barrier e o = s.barrier e o := rfl
@[simp] theorem State.alterContext_byte (s : State) (n : Nat) (f : Context → Context) (a : Nat) : (s.alterContext n f).byte a = s.byte a := rfl
@[simp] theorem State.alterContext_teamOf (s : State) (n : Nat) (f : Context → Context) (u : ThreadId) : (s.alterContext n f).teamOf u = s.teamOf u := rfl
@[simp] theorem State.alterContext_coreOf (s : State) (n : Nat) (f : Context → Context) (u : ThreadId) : (s.alterContext n f).coreOf u = s.coreOf u := rfl
@[simp] theorem State.alterContext_cnOf (s : State) (n : Nat) (f : Context → Context) (u : ThreadId) : (s.alterContext n f).cnOf u = s.cnOf u := rfl

@[simp] theorem State.place_threads (s : State) : (s.place).threads = s.threads := rfl
@[simp] theorem State.place_teams (s : State) : (s.place).teams = s.teams := rfl
@[simp] theorem State.place_groups (s : State) : (s.place).groups = s.groups := rfl
@[simp] theorem State.place_cores (s : State) : (s.place).cores = s.cores := rfl
@[simp] theorem State.place_dies (s : State) : (s.place).dies = s.dies := rfl
@[simp] theorem State.place_contexts (s : State) : (s.place).contexts = s.contexts := rfl
@[simp] theorem State.place_grids (s : State) : (s.place).grids = s.grids := rfl
@[simp] theorem State.place_mem (s : State) : (s.place).mem = s.mem := rfl
@[simp] theorem State.place_hist (s : State) : (s.place).hist = s.hist := rfl
@[simp] theorem State.place_past (s : State) : (s.place).past = s.past := rfl
@[simp] theorem State.place_leases (s : State) : (s.place).leases = s.leases := rfl
@[simp] theorem State.place_wmax (s : State) : (s.place).wmax = s.wmax := rfl
@[simp] theorem State.place_poison (s : State) : (s.place).poison = s.poison := rfl
@[simp] theorem State.place_dtime (s : State) : (s.place).dtime = s.dtime := rfl
@[simp] theorem State.place_llc (s : State) : (s.place).llc = s.llc := rfl
@[simp] theorem State.place_pages (s : State) : (s.place).pages = s.pages := rfl
@[simp] theorem State.place_epochAt (s : State) : (s.place).epochAt = s.epochAt := rfl
@[simp] theorem State.place_pwm (s : State) : (s.place).pwm = s.pwm := rfl
@[simp] theorem State.place_pgmode (s : State) : (s.place).pgmode = s.pgmode := rfl
@[simp] theorem State.place_accesses (s : State) : (s.place).accesses = s.accesses := rfl
@[simp] theorem State.place_commands (s : State) : (s.place).commands = s.commands := rfl
@[simp] theorem State.place_heldPushes (s : State) : (s.place).heldPushes = s.heldPushes := rfl
@[simp] theorem State.place_channels (s : State) : (s.place).channels = s.channels := rfl
@[simp] theorem State.place_msgs (s : State) : (s.place).msgs = s.msgs := rfl
@[simp] theorem State.place_outbox (s : State) : (s.place).outbox = s.outbox := rfl
@[simp] theorem State.place_unsent (s : State) : (s.place).unsent = s.unsent := rfl
@[simp] theorem State.place_reports (s : State) : (s.place).reports = s.reports := rfl
@[simp] theorem State.place_images (s : State) : (s.place).images = s.images := rfl
@[simp] theorem State.place_restored (s : State) : (s.place).restored = s.restored := rfl
@[simp] theorem State.place_gives (s : State) : (s.place).gives = s.gives := rfl
@[simp] theorem State.place_replay (s : State) : (s.place).replay = s.replay := rfl
@[simp] theorem State.place_rpstat (s : State) : (s.place).rpstat = s.rpstat := rfl
@[simp] theorem State.place_htbase (s : State) : (s.place).htbase = s.htbase := rfl
@[simp] theorem State.place_htsize (s : State) : (s.place).htsize = s.htsize := rfl
@[simp] theorem State.place_netcfg (s : State) : (s.place).netcfg = s.netcfg := rfl
@[simp] theorem State.place_devnum (s : State) : (s.place).devnum = s.devnum := rfl
@[simp] theorem State.place_lastReset (s : State) : (s.place).lastReset = s.lastReset := rfl
@[simp] theorem State.place_ports (s : State) : (s.place).ports = s.ports := rfl
@[simp] theorem State.place_conns (s : State) : (s.place).conns = s.conns := rfl
@[simp] theorem State.place_limit (s : State) : (s.place).limit = s.limit := rfl
@[simp] theorem State.place_measured (s : State) : (s.place).measured = s.measured := rfl
@[simp] theorem State.place_verified (s : State) : (s.place).verified = s.verified := rfl
@[simp] theorem State.place_rejected (s : State) : (s.place).rejected = s.rejected := rfl
@[simp] theorem State.place_strap (s : State) : (s.place).strap = s.strap := rfl
@[simp] theorem State.place_gave (s : State) : (s.place).gave = s.gave := rfl
@[simp] theorem State.place_remains (s : State) : (s.place).remains = s.remains := rfl
@[simp] theorem State.place_fresh (s : State) : (s.place).fresh = s.fresh := rfl
@[simp] theorem State.place_drawn (s : State) : (s.place).drawn = s.drawn := rfl
@[simp] theorem State.place_cur (s : State) : (s.place).cur = s.cur := rfl
@[simp] theorem State.place_noise (s : State) : (s.place).noise = s.noise := rfl
@[simp] theorem State.place_sched (s : State) : (s.place).sched = s.sched := rfl
@[simp] theorem State.place_thread (s : State) (u : ThreadId) : (s.place).thread u = s.thread u := rfl
@[simp] theorem State.place_team (s : State) (k : Nat) : (s.place).team k = s.team k := rfl
@[simp] theorem State.place_group (s : State) (k : Nat) : (s.place).group k = s.group k := rfl
@[simp] theorem State.place_core (s : State) (e : CoreId) : (s.place).core e = s.core e := rfl
@[simp] theorem State.place_die (s : State) (k : Nat) : (s.place).die k = s.die k := rfl
@[simp] theorem State.place_array (s : State) (e : CoreId) (a : Nat) : (s.place).array e a = s.array e a := rfl
@[simp] theorem State.place_barrier (s : State) (e : CoreId) (o : Nat) : (s.place).barrier e o = s.barrier e o := rfl
@[simp] theorem State.place_context (s : State) (k : Nat) : (s.place).context k = s.context k := rfl
@[simp] theorem State.place_byte (s : State) (a : Nat) : (s.place).byte a = s.byte a := rfl
@[simp] theorem State.place_teamOf (s : State) (u : ThreadId) : (s.place).teamOf u = s.teamOf u := rfl
@[simp] theorem State.place_coreOf (s : State) (u : ThreadId) : (s.place).coreOf u = s.coreOf u := rfl
@[simp] theorem State.place_cnOf (s : State) (u : ThreadId) : (s.place).cnOf u = s.cnOf u := rfl

@[simp] theorem State.bump_threads (s : State) : (s.bump).threads = s.threads := rfl
@[simp] theorem State.bump_teams (s : State) : (s.bump).teams = s.teams := rfl
@[simp] theorem State.bump_groups (s : State) : (s.bump).groups = s.groups := rfl
@[simp] theorem State.bump_cores (s : State) : (s.bump).cores = s.cores := rfl
@[simp] theorem State.bump_dies (s : State) : (s.bump).dies = s.dies := rfl
@[simp] theorem State.bump_contexts (s : State) : (s.bump).contexts = s.contexts := rfl
@[simp] theorem State.bump_grids (s : State) : (s.bump).grids = s.grids := rfl
@[simp] theorem State.bump_mem (s : State) : (s.bump).mem = s.mem := rfl
@[simp] theorem State.bump_seq (s : State) : (s.bump).seq = s.seq := rfl
@[simp] theorem State.bump_hist (s : State) : (s.bump).hist = s.hist := rfl
@[simp] theorem State.bump_past (s : State) : (s.bump).past = s.past := rfl
@[simp] theorem State.bump_leases (s : State) : (s.bump).leases = s.leases := rfl
@[simp] theorem State.bump_wmax (s : State) : (s.bump).wmax = s.wmax := rfl
@[simp] theorem State.bump_poison (s : State) : (s.bump).poison = s.poison := rfl
@[simp] theorem State.bump_dtime (s : State) : (s.bump).dtime = s.dtime := rfl
@[simp] theorem State.bump_llc (s : State) : (s.bump).llc = s.llc := rfl
@[simp] theorem State.bump_pages (s : State) : (s.bump).pages = s.pages := rfl
@[simp] theorem State.bump_epochAt (s : State) : (s.bump).epochAt = s.epochAt := rfl
@[simp] theorem State.bump_pwm (s : State) : (s.bump).pwm = s.pwm := rfl
@[simp] theorem State.bump_pgmode (s : State) : (s.bump).pgmode = s.pgmode := rfl
@[simp] theorem State.bump_accesses (s : State) : (s.bump).accesses = s.accesses := rfl
@[simp] theorem State.bump_commands (s : State) : (s.bump).commands = s.commands := rfl
@[simp] theorem State.bump_heldPushes (s : State) : (s.bump).heldPushes = s.heldPushes := rfl
@[simp] theorem State.bump_channels (s : State) : (s.bump).channels = s.channels := rfl
@[simp] theorem State.bump_msgs (s : State) : (s.bump).msgs = s.msgs := rfl
@[simp] theorem State.bump_outbox (s : State) : (s.bump).outbox = s.outbox := rfl
@[simp] theorem State.bump_unsent (s : State) : (s.bump).unsent = s.unsent := rfl
@[simp] theorem State.bump_reports (s : State) : (s.bump).reports = s.reports := rfl
@[simp] theorem State.bump_images (s : State) : (s.bump).images = s.images := rfl
@[simp] theorem State.bump_restored (s : State) : (s.bump).restored = s.restored := rfl
@[simp] theorem State.bump_gives (s : State) : (s.bump).gives = s.gives := rfl
@[simp] theorem State.bump_replay (s : State) : (s.bump).replay = s.replay := rfl
@[simp] theorem State.bump_rpstat (s : State) : (s.bump).rpstat = s.rpstat := rfl
@[simp] theorem State.bump_htbase (s : State) : (s.bump).htbase = s.htbase := rfl
@[simp] theorem State.bump_htsize (s : State) : (s.bump).htsize = s.htsize := rfl
@[simp] theorem State.bump_netcfg (s : State) : (s.bump).netcfg = s.netcfg := rfl
@[simp] theorem State.bump_devnum (s : State) : (s.bump).devnum = s.devnum := rfl
@[simp] theorem State.bump_lastReset (s : State) : (s.bump).lastReset = s.lastReset := rfl
@[simp] theorem State.bump_ports (s : State) : (s.bump).ports = s.ports := rfl
@[simp] theorem State.bump_conns (s : State) : (s.bump).conns = s.conns := rfl
@[simp] theorem State.bump_limit (s : State) : (s.bump).limit = s.limit := rfl
@[simp] theorem State.bump_measured (s : State) : (s.bump).measured = s.measured := rfl
@[simp] theorem State.bump_verified (s : State) : (s.bump).verified = s.verified := rfl
@[simp] theorem State.bump_rejected (s : State) : (s.bump).rejected = s.rejected := rfl
@[simp] theorem State.bump_strap (s : State) : (s.bump).strap = s.strap := rfl
@[simp] theorem State.bump_gave (s : State) : (s.bump).gave = s.gave := rfl
@[simp] theorem State.bump_remains (s : State) : (s.bump).remains = s.remains := rfl
@[simp] theorem State.bump_drawn (s : State) : (s.bump).drawn = s.drawn := rfl
@[simp] theorem State.bump_cur (s : State) : (s.bump).cur = s.cur := rfl
@[simp] theorem State.bump_noise (s : State) : (s.bump).noise = s.noise := rfl
@[simp] theorem State.bump_sched (s : State) : (s.bump).sched = s.sched := rfl
@[simp] theorem State.bump_thread (s : State) (u : ThreadId) : (s.bump).thread u = s.thread u := rfl
@[simp] theorem State.bump_team (s : State) (k : Nat) : (s.bump).team k = s.team k := rfl
@[simp] theorem State.bump_group (s : State) (k : Nat) : (s.bump).group k = s.group k := rfl
@[simp] theorem State.bump_core (s : State) (e : CoreId) : (s.bump).core e = s.core e := rfl
@[simp] theorem State.bump_die (s : State) (k : Nat) : (s.bump).die k = s.die k := rfl
@[simp] theorem State.bump_array (s : State) (e : CoreId) (a : Nat) : (s.bump).array e a = s.array e a := rfl
@[simp] theorem State.bump_barrier (s : State) (e : CoreId) (o : Nat) : (s.bump).barrier e o = s.barrier e o := rfl
@[simp] theorem State.bump_context (s : State) (k : Nat) : (s.bump).context k = s.context k := rfl
@[simp] theorem State.bump_byte (s : State) (a : Nat) : (s.bump).byte a = s.byte a := rfl
@[simp] theorem State.bump_teamOf (s : State) (u : ThreadId) : (s.bump).teamOf u = s.teamOf u := rfl
@[simp] theorem State.bump_coreOf (s : State) (u : ThreadId) : (s.bump).coreOf u = s.coreOf u := rfl
@[simp] theorem State.bump_cnOf (s : State) (u : ThreadId) : (s.bump).cnOf u = s.cnOf u := rfl

@[simp] theorem State.draw_threads (s : State) : (s.draw).threads = s.threads := rfl
@[simp] theorem State.draw_teams (s : State) : (s.draw).teams = s.teams := rfl
@[simp] theorem State.draw_groups (s : State) : (s.draw).groups = s.groups := rfl
@[simp] theorem State.draw_cores (s : State) : (s.draw).cores = s.cores := rfl
@[simp] theorem State.draw_dies (s : State) : (s.draw).dies = s.dies := rfl
@[simp] theorem State.draw_contexts (s : State) : (s.draw).contexts = s.contexts := rfl
@[simp] theorem State.draw_grids (s : State) : (s.draw).grids = s.grids := rfl
@[simp] theorem State.draw_mem (s : State) : (s.draw).mem = s.mem := rfl
@[simp] theorem State.draw_seq (s : State) : (s.draw).seq = s.seq := rfl
@[simp] theorem State.draw_hist (s : State) : (s.draw).hist = s.hist := rfl
@[simp] theorem State.draw_past (s : State) : (s.draw).past = s.past := rfl
@[simp] theorem State.draw_leases (s : State) : (s.draw).leases = s.leases := rfl
@[simp] theorem State.draw_wmax (s : State) : (s.draw).wmax = s.wmax := rfl
@[simp] theorem State.draw_poison (s : State) : (s.draw).poison = s.poison := rfl
@[simp] theorem State.draw_dtime (s : State) : (s.draw).dtime = s.dtime := rfl
@[simp] theorem State.draw_llc (s : State) : (s.draw).llc = s.llc := rfl
@[simp] theorem State.draw_pages (s : State) : (s.draw).pages = s.pages := rfl
@[simp] theorem State.draw_epochAt (s : State) : (s.draw).epochAt = s.epochAt := rfl
@[simp] theorem State.draw_pwm (s : State) : (s.draw).pwm = s.pwm := rfl
@[simp] theorem State.draw_pgmode (s : State) : (s.draw).pgmode = s.pgmode := rfl
@[simp] theorem State.draw_accesses (s : State) : (s.draw).accesses = s.accesses := rfl
@[simp] theorem State.draw_commands (s : State) : (s.draw).commands = s.commands := rfl
@[simp] theorem State.draw_heldPushes (s : State) : (s.draw).heldPushes = s.heldPushes := rfl
@[simp] theorem State.draw_channels (s : State) : (s.draw).channels = s.channels := rfl
@[simp] theorem State.draw_msgs (s : State) : (s.draw).msgs = s.msgs := rfl
@[simp] theorem State.draw_outbox (s : State) : (s.draw).outbox = s.outbox := rfl
@[simp] theorem State.draw_unsent (s : State) : (s.draw).unsent = s.unsent := rfl
@[simp] theorem State.draw_reports (s : State) : (s.draw).reports = s.reports := rfl
@[simp] theorem State.draw_images (s : State) : (s.draw).images = s.images := rfl
@[simp] theorem State.draw_restored (s : State) : (s.draw).restored = s.restored := rfl
@[simp] theorem State.draw_gives (s : State) : (s.draw).gives = s.gives := rfl
@[simp] theorem State.draw_replay (s : State) : (s.draw).replay = s.replay := rfl
@[simp] theorem State.draw_rpstat (s : State) : (s.draw).rpstat = s.rpstat := rfl
@[simp] theorem State.draw_htbase (s : State) : (s.draw).htbase = s.htbase := rfl
@[simp] theorem State.draw_htsize (s : State) : (s.draw).htsize = s.htsize := rfl
@[simp] theorem State.draw_netcfg (s : State) : (s.draw).netcfg = s.netcfg := rfl
@[simp] theorem State.draw_devnum (s : State) : (s.draw).devnum = s.devnum := rfl
@[simp] theorem State.draw_lastReset (s : State) : (s.draw).lastReset = s.lastReset := rfl
@[simp] theorem State.draw_ports (s : State) : (s.draw).ports = s.ports := rfl
@[simp] theorem State.draw_conns (s : State) : (s.draw).conns = s.conns := rfl
@[simp] theorem State.draw_limit (s : State) : (s.draw).limit = s.limit := rfl
@[simp] theorem State.draw_measured (s : State) : (s.draw).measured = s.measured := rfl
@[simp] theorem State.draw_verified (s : State) : (s.draw).verified = s.verified := rfl
@[simp] theorem State.draw_rejected (s : State) : (s.draw).rejected = s.rejected := rfl
@[simp] theorem State.draw_strap (s : State) : (s.draw).strap = s.strap := rfl
@[simp] theorem State.draw_gave (s : State) : (s.draw).gave = s.gave := rfl
@[simp] theorem State.draw_remains (s : State) : (s.draw).remains = s.remains := rfl
@[simp] theorem State.draw_fresh (s : State) : (s.draw).fresh = s.fresh := rfl
@[simp] theorem State.draw_cur (s : State) : (s.draw).cur = s.cur := rfl
@[simp] theorem State.draw_noise (s : State) : (s.draw).noise = s.noise := rfl
@[simp] theorem State.draw_sched (s : State) : (s.draw).sched = s.sched := rfl
@[simp] theorem State.draw_thread (s : State) (u : ThreadId) : (s.draw).thread u = s.thread u := rfl
@[simp] theorem State.draw_team (s : State) (k : Nat) : (s.draw).team k = s.team k := rfl
@[simp] theorem State.draw_group (s : State) (k : Nat) : (s.draw).group k = s.group k := rfl
@[simp] theorem State.draw_core (s : State) (e : CoreId) : (s.draw).core e = s.core e := rfl
@[simp] theorem State.draw_die (s : State) (k : Nat) : (s.draw).die k = s.die k := rfl
@[simp] theorem State.draw_array (s : State) (e : CoreId) (a : Nat) : (s.draw).array e a = s.array e a := rfl
@[simp] theorem State.draw_barrier (s : State) (e : CoreId) (o : Nat) : (s.draw).barrier e o = s.barrier e o := rfl
@[simp] theorem State.draw_context (s : State) (k : Nat) : (s.draw).context k = s.context k := rfl
@[simp] theorem State.draw_byte (s : State) (a : Nat) : (s.draw).byte a = s.byte a := rfl
@[simp] theorem State.draw_teamOf (s : State) (u : ThreadId) : (s.draw).teamOf u = s.teamOf u := rfl
@[simp] theorem State.draw_coreOf (s : State) (u : ThreadId) : (s.draw).coreOf u = s.coreOf u := rfl
@[simp] theorem State.draw_cnOf (s : State) (u : ThreadId) : (s.draw).cnOf u = s.cnOf u := rfl

@[simp] theorem State.alterThread_thread (s : State) (t u : ThreadId) (f : Thread → Thread) :
    (s.alterThread t f).thread u = if u = t then (s.thread t).map f else s.thread u :=
  Table.find_alter s.threads t u f

@[simp] theorem State.alterTeam_team (s : State) (n k : Nat) (f : Team → Team) :
    (s.alterTeam n f).team k = if k = n then (s.team n).map f else s.team k :=
  Table.find_alter s.teams n k f

@[simp] theorem State.alterGroup_group (s : State) (n k : Nat) (f : Group → Group) :
    (s.alterGroup n f).group k = if k = n then (s.group n).map f else s.group k :=
  Table.find_alter s.groups n k f

@[simp] theorem State.setCore_core (s : State) (c e : CoreId) (x : Core) :
    (s.setCore c x).core e = if e = c then x else s.core e :=
  Table.findD_put s.cores c e x Core.init

@[simp] theorem State.alterCore_core (s : State) (c e : CoreId) (f : Core → Core) :
    (s.alterCore c f).core e = if e = c then f (s.core c) else s.core e :=
  Table.findD_put s.cores c e (f (s.core c)) Core.init

@[simp] theorem State.setDie_die (s : State) (d e : Nat) (x : Die) :
    (s.setDie d x).die e = if e = d then x else s.die e :=
  Table.findD_put s.dies d e x Die.init

@[simp] theorem State.alterDie_die (s : State) (d e : Nat) (f : Die → Die) :
    (s.alterDie d f).die e = if e = d then f (s.die d) else s.die e :=
  Table.findD_put s.dies d e (f (s.die d)) Die.init

@[simp] theorem State.place_seq (s : State) : s.place.seq = s.seq + 1 := rfl
@[simp] theorem State.bump_fresh (s : State) : s.bump.fresh = s.fresh + 1 := rfl
@[simp] theorem State.draw_drawn (s : State) : s.draw.drawn = s.drawn + 1 := rfl

/-- The team of a thread after a team has changed. -/
theorem State.alterTeam_teamOf (s : State) (n : Nat) (f : Team → Team) (t : ThreadId) :
    (s.alterTeam n f).teamOf t = if t.team = n then (s.team n).map f else s.teamOf t :=
  State.alterTeam_team s n t.team f

/-- A change that keeps what a group is leaves the state as it was. -/
theorem State.alterGroup_self {s : State} {n : Nat} {g : Group} {f : Group → Group}
    (h : s.group n = some g) (hf : f g = g) : s.alterGroup n f = s := by
  unfold State.alterGroup Table.alter
  unfold State.group at h
  rw [h]
  simp only [hf, Table.put_self h]

end Sys2Proof.Machine
end

