-- ==== Sys2Proof/Laws/Group.lean ====
section
/-! SUPPORT. Laws of a group's execution: what every member of a ready group is left with by an instruction of the lane families (R53, R81). -/

namespace Sys2Proof.Machine

/-! A thread after an effect -/

theorem Thread.fill_nil (x : Thread) : x.fill [] = x := by
  have h : (x.empties.filter fun _ => true) = x.empties := List.filter_eq_self.mpr fun _ _ => rfl
  simp [Thread.fill, h]

@[simp] theorem Thread.setQueue_queue (x : Thread) (q k : Nat) (ws : List Word) :
    (x.setQueue q ws).queue k = if k = q then ws else x.queue k := by
  simp [Thread.setQueue, Thread.queue]

@[simp] theorem Thread.fill_queues (x : Thread) (l : List (Nat × Word)) : (x.fill l).queues = x.queues := rfl

@[simp] theorem Thread.setPred_queues (x : Thread) (n : Nat) (v : Bool) : (x.setPred n v).queues = x.queues := by
  unfold Thread.setPred; split <;> rfl

@[simp] theorem Thread.setPreds_queues (l : List (Nat × Bool)) (x : Thread) : (x.setPreds l).queues = x.queues := by
  induction l generalizing x with
  | nil => rfl
  | cons p l ih => exact (ih _).trans (Thread.setPred_queues x p.1 p.2)

theorem Thread.setPred_setQueue (x : Thread) (q n : Nat) (ws : List Word) (v : Bool) :
    (x.setQueue q ws).setPred n v = (x.setPred n v).setQueue q ws := by
  unfold Thread.setPred
  split <;> rfl

theorem Thread.setPreds_setQueue (l : List (Nat × Bool)) (x : Thread) (q : Nat) (ws : List Word) :
    (x.setQueue q ws).setPreds l = (x.setPreds l).setQueue q ws := by
  induction l generalizing x with
  | nil => rfl
  | cons p l ih =>
    show ((x.setQueue q ws).setPred p.1 p.2).setPreds l = _
    rw [Thread.setPred_setQueue, ih]
    rfl

/-! What stays as it was -/

/-- A core but for its generations, their tags and its counts. -/
def CoreQuiet (a b : Core) : Prop :=
  ∃ gens stepped ktags obs samples accrued, b =
    { a with gens := gens, stepped := stepped, ktags := ktags, obs := obs, samples := samples, accrued := accrued }

theorem CoreQuiet.refl (a : Core) : CoreQuiet a a := ⟨_, _, _, _, _, _, rfl⟩

theorem CoreQuiet.trans {a b c : Core} (h : CoreQuiet a b) (h' : CoreQuiet b c) : CoreQuiet a c := by
  obtain ⟨_, _, _, _, _, _, rfl⟩ := h
  obtain ⟨_, _, _, _, _, _, rfl⟩ := h'
  exact ⟨_, _, _, _, _, _, rfl⟩

/-- Everything but threads, teams, groups and the generations and counts of cores. -/
def Quiet (s u : State) : Prop :=
  u = { s with threads := u.threads, teams := u.teams, groups := u.groups, cores := u.cores }
    ∧ ∀ c, CoreQuiet (s.core c) (u.core c)

theorem Quiet.refl (s : State) : Quiet s s := ⟨rfl, fun _ => CoreQuiet.refl _⟩

theorem Quiet.trans {s u v : State} (h : Quiet s u) (h' : Quiet u v) : Quiet s v := by
  refine ⟨?_, fun c => (h.2 c).trans (h'.2 c)⟩
  rw [h'.1, h.1]

theorem Quiet.alterThread (s : State) (t : ThreadId) (f : Thread → Thread) : Quiet s (s.alterThread t f) :=
  ⟨rfl, fun _ => CoreQuiet.refl _⟩

theorem Quiet.alterTeam (s : State) (n : Nat) (f : Team → Team) : Quiet s (s.alterTeam n f) :=
  ⟨rfl, fun _ => CoreQuiet.refl _⟩

theorem Quiet.alterGroup (s : State) (n : Nat) (f : Group → Group) : Quiet s (s.alterGroup n f) :=
  ⟨rfl, fun _ => CoreQuiet.refl _⟩

theorem Quiet.alterCore (s : State) (c : CoreId) (f : Core → Core) (hf : CoreQuiet (s.core c) (f (s.core c))) :
    Quiet s (s.alterCore c f) := by
  refine ⟨rfl, fun e => ?_⟩
  rw [State.alterCore_core]
  split
  · rename_i h; rw [h]; exact hf
  · exact CoreQuiet.refl _

/-- A change of a core's generations and counts alone: nothing else. -/
structure CoreOnly (s u : State) : Prop where
  quiet   : Quiet s u
  threads : u.threads = s.threads
  teams   : u.teams = s.teams
  groups  : u.groups = s.groups

theorem CoreOnly.refl (s : State) : CoreOnly s s := ⟨Quiet.refl s, rfl, rfl, rfl⟩

theorem CoreOnly.trans {s u v : State} (h : CoreOnly s u) (h' : CoreOnly u v) : CoreOnly s v :=
  ⟨h.quiet.trans h'.quiet, h'.threads.trans h.threads, h'.teams.trans h.teams, h'.groups.trans h.groups⟩

theorem CoreOnly.alterCore (s : State) (c : CoreId) (f : Core → Core) (hf : CoreQuiet (s.core c) (f (s.core c))) :
    CoreOnly s (s.alterCore c f) :=
  ⟨Quiet.alterCore s c f hf, rfl, rfl, rfl⟩

theorem stepGen_quiet (k : Core) (o : GenObject) : CoreQuiet k (stepGen k o) := by
  unfold stepGen
  split
  · exact CoreQuiet.refl k
  · exact ⟨_, _, _, _, _, _, rfl⟩

theorem foldl_stepGen_quiet (os : List GenObject) (k : Core) : CoreQuiet k (os.foldl stepGen k) := by
  induction os generalizing k with
  | nil => exact CoreQuiet.refl k
  | cons o os ih => exact (stepGen_quiet k o).trans (ih _)

theorem stepGens_coreOnly (s : State) (c : CoreId) (os : List GenObject) : CoreOnly s (s.stepGens c os) := by
  unfold State.stepGens
  split
  · exact CoreOnly.refl s
  · exact CoreOnly.alterCore s c _ (foldl_stepGen_quiet os _)

theorem noteSample_quiet (x : Core) (n : Nat) (who : Name) (r : Nat) (b : Bool) : CoreQuiet x (noteSample x n who r b) :=
  ⟨_, _, _, _, _, _, rfl⟩

theorem countOne_coreOnly (s : State) (c : CoreId) (n k : Nat) (who : Name) : CoreOnly s (s.countOne c n k who) := by
  refine CoreOnly.alterCore s c _ ?_
  have h : CoreQuiet (s.core c) ((s.core c).add (4 + n) k) := ⟨_, _, _, _, _, _, rfl⟩
  split
  · exact h
  · exact h.trans (noteSample_quiet _ n who _ _)

theorem count_coreOnly (s : State) (c : CoreId) (code k : Nat) (who : Name) (gate : Bool) :
    CoreOnly s (s.count c code k who gate) := by
  unfold State.count
  generalize List.range 4 = l
  induction l generalizing s with
  | nil => exact CoreOnly.refl s
  | cons n l ih =>
    refine CoreOnly.trans ?_ (ih _)
    dsimp only
    split
    · exact countOne_coreOnly s c n k who
    · exact CoreOnly.refl s

/-- Counting an event changes counts of one core and nothing else (R387). -/
theorem countFor_coreOnly (s : State) (t : ThreadId) (code k : Nat) : CoreOnly s (s.countFor t code k) :=
  count_coreOnly s _ _ _ _ _

theorem CoreOnly.thread {s u : State} (h : CoreOnly s u) (t : ThreadId) : u.thread t = s.thread t := by
  unfold State.thread; rw [h.threads]

theorem CoreOnly.team {s u : State} (h : CoreOnly s u) (n : Nat) : u.team n = s.team n := by
  unfold State.team; rw [h.teams]

theorem CoreOnly.group {s u : State} (h : CoreOnly s u) (n : Nat) : u.group n = s.group n := by
  unfold State.group; rw [h.groups]

/-! One thread's effect -/

/-- What an effect leaves in its thread, before its sources are popped. -/
structure EffectDone (s u : State) (t : ThreadId) (e : Effect) : Prop where
  thread : ∀ x, s.thread t = some x → u.thread t =
    some (((x.fill (e.regs.map fun r => (x.word r.1, r.2))).setPreds e.preds).pushAll e.pushes)
  others : ∀ id, id ≠ t → u.thread id = s.thread id
  team   : ∀ m, s.team t.team = some m → u.team t.team = some { m with fmtanom := m.fmtanom || e.anomaly }
  teams  : ∀ k, k ≠ t.team → u.team k = s.team k
  groups : u.groups = s.groups
  quiet  : Quiet s u

/-- The registers of an effect, and nothing else in the thread. -/
theorem writeRegs_done {s : State} {t : ThreadId} {x : Thread} (hx : s.thread t = some x) (rs : List (Nat × Word)) :
    ∃ v, CoreOnly (s.alterThread t fun x => x.fill (rs.map fun r => (x.word r.1, r.2))) v ∧
      (if rs = [] then s else s.writeRegs t rs) = v := by
  by_cases h : rs = []
  · subst h
    refine ⟨_, ?_, rfl⟩
    simp only [List.map_nil, if_true, Thread.fill_nil]
    have : s.alterThread t (fun x => x) = s := by
      unfold State.alterThread Table.alter
      unfold State.thread at hx
      simp only [hx, Table.put_self hx]
    rw [this]
    exact CoreOnly.refl s
  · refine ⟨_, ?_, rfl⟩
    simp only [h, if_false, State.writeRegs, hx, State.fillWords]
    have : (s.alterThread t fun x => x.fill (rs.map fun r => (x.word r.1, r.2)))
        = s.alterThread t fun y => y.fill (rs.map fun r => (x.word r.1, r.2)) := by
      unfold State.alterThread Table.alter
      unfold State.thread at hx
      simp only [hx]
    rw [this]
    exact stepGens_coreOnly _ _ _

/-- An effect without a word for a command queue, applied in its thread (R121, R133). -/
theorem applyEffect_done {s : State} {t : ThreadId} {x : Thread} (hx : s.thread t = some x) (e : Effect) :
    EffectDone s (s.applyEffect t e) t { e with pushes := e.pushes.filter fun p => decide (4 ≤ p.1) } := by
  obtain ⟨v, hv, he⟩ := writeRegs_done hx e.regs
  have hvt : v.thread t = some (x.fill (e.regs.map fun r => (x.word r.1, r.2))) := by
    rw [hv.thread, State.alterThread_thread]; simp [hx]
  have hq : Quiet s v := (Quiet.alterThread s t _).trans hv.quiet
  unfold State.applyEffect
  rw [he]
  dsimp only
  split
  · rename_i ha
    have hc := countFor_coreOnly
      ((v.alterThread t fun x => (x.setPreds e.preds).pushAll (e.pushes.filter fun p => decide (4 ≤ p.1))).alterTeam t.team
        fun x => { x with fmtanom := true }) t 0x0B 1
    refine ⟨?_, ?_, ?_, ?_, ?_, ?_⟩
    · intro y hy
      obtain rfl : x = y := Option.some.inj (hx.symm.trans hy)
      rw [State.setAnomaly, hc.thread]
      simp [hvt]
    · intro id hid
      rw [State.setAnomaly, hc.thread]
      simp [hid, hv.thread]
    · intro m hm
      rw [State.setAnomaly, hc.team]
      simp [hv.team, hm, ha]
    · intro k hk
      rw [State.setAnomaly, hc.team]
      simp [hk, hv.team]
    · rw [State.setAnomaly, hc.groups]
      exact hv.groups
    · exact ((hq.trans (Quiet.alterThread _ _ _)).trans (Quiet.alterTeam _ _ _)).trans hc.quiet
  · rename_i ha
    refine ⟨?_, ?_, ?_, ?_, hv.groups, hq.trans (Quiet.alterThread _ _ _)⟩
    · intro y hy
      obtain rfl : x = y := Option.some.inj (hx.symm.trans hy)
      simp [hvt]
    · intro id hid
      simp [hid, hv.thread]
    · intro m hm
      simp [hv.team, hm, ha]
    · intro k hk
      simp [hv.team]

/-- A word that only joins the assembly of a command is appended to it (R264, R270). -/
theorem pushCommand_assembles {s : State} {t : ThreadId} {x : Thread} {q : Nat} {w : Word}
    (hx : s.thread t = some x) (ha : x.assembles q w = true) (pops : List Nat) :
    s.pushCommand t q w pops = .ok (s.alterThread t fun x => x.setQueue q (x.queue q ++ [w])) := by
  have hset : (s.alterThread t fun y => y.setQueue q (x.queue q ++ [w]))
      = s.alterThread t fun x => x.setQueue q (x.queue q ++ [w]) := by
    unfold State.alterThread Table.alter
    unfold State.thread at hx
    simp only [hx]
  unfold State.pushCommand
  unfold Thread.assembles at ha
  simp only [hx, hset]
  by_cases h : x.queue q = []
  · simp only [h, if_true, Option.isNone_iff_eq_none] at ha ⊢
    rw [ha]
  · obtain ⟨a, l, hl⟩ := List.exists_cons_of_ne_nil h
    rw [hl] at ha ⊢
    simp only [reduceCtorEq, if_false, decide_eq_true_eq, List.getD_cons_zero, List.length_cons, List.cons_append,
      List.length_append, List.length_nil] at ha ⊢
    rw [if_pos (by omega)]

/-- An effect of at most one pushed word, applied in its thread: it executes (R121, R133, R264). -/
theorem attemptEffect_done {s : State} {t : ThreadId} {x : Thread} (hx : s.thread t = some x) (pops : List Nat)
    (counted : Bool) {e : Effect} (h1 : e.pushes.length ≤ 1)
    (ha : ∀ p ∈ e.pushes, p.1 < 4 → x.assembles p.1 p.2 = true) :
    ∃ u, s.attemptEffect t pops counted e = .done u ∧ EffectDone s u t e := by
  unfold State.attemptEffect
  match hp : e.pushes with
  | [] =>
    refine ⟨_, rfl, ?_⟩
    have := applyEffect_done hx e
    rwa [hp, List.filter_nil, ← hp] at this
  | [p] =>
    by_cases h4 : p.1 < 4
    · simp only [List.find?, h4, decide_true]
      have hpc := pushCommand_assembles hx (ha p (by simp [hp]) h4) pops
      rw [hpc]
      refine ⟨_, rfl, ?_⟩
      have hx' : (s.alterThread t fun x => x.setQueue p.1 (x.queue p.1 ++ [p.2])).thread t
          = some (x.setQueue p.1 (x.queue p.1 ++ [p.2])) := by simp [hx]
      have h := applyEffect_done hx' e
      have hf : (e.pushes.filter fun p => decide (4 ≤ p.1)) = [] := by simp [hp, h4]
      rw [hf] at h
      refine ⟨?_, ?_, h.team, h.teams, h.groups, (Quiet.alterThread _ _ _).trans h.quiet⟩
      · intro y hy
        obtain rfl : x = y := Option.some.inj (hx.symm.trans hy)
        rw [h.thread _ hx']
        have e1 : ((x.setQueue p.1 (x.queue p.1 ++ [p.2])).fill
            (e.regs.map fun r => ((x.setQueue p.1 (x.queue p.1 ++ [p.2])).word r.1, r.2)))
            = (x.fill (e.regs.map fun r => (x.word r.1, r.2))).setQueue p.1 (x.queue p.1 ++ [p.2]) := rfl
        rw [e1, Thread.setPreds_setQueue]
        have e2 : ((x.fill (e.regs.map fun r => (x.word r.1, r.2))).setPreds e.preds).queue p.1 = x.queue p.1 := by
          simp [Thread.queue]
        simp [hp, Thread.pushAll, e2]
      · intro id hid
        rw [h.others id hid]
        simp [hid]
    · simp only [List.find?, h4, decide_false]
      refine ⟨_, rfl, ?_⟩
      have := applyEffect_done hx e
      have hf : (e.pushes.filter fun p => decide (4 ≤ p.1)) = e.pushes := by
        rw [hp]; simp; omega
      rwa [hf] at this
  | _ :: _ :: _ => simp [hp] at h1

/-! A ready group -/

/-- The members that a guard leaves out. -/
def State.leftOut (s : State) (g : Group) (guard : Guard) : List Nat :=
  g.members.filter fun t => !(s.activeOf g guard).contains t

/-- A group as its active members begin its present instruction. -/
def State.begun (s : State) (n : Nat) (g : Group) (guard : Guard) : State :=
  s.alterGroup n fun _ => { g with done := s.leftOut g guard, hold := none }

theorem mem_activeOf {s : State} {g : Group} {guard : Guard} {t : Nat} (hd : g.done = []) (he : g.engaged = []) :
    t ∈ s.activeOf g guard ↔ t ∈ g.members ∧ ∃ x, s.thread ⟨g.team, t⟩ = some x ∧ x.guard guard = true := by
  unfold State.activeOf
  rw [List.mem_filter]
  simp only [hd, he, List.contains_nil, Bool.not_false, Bool.true_and]
  cases s.thread ⟨g.team, t⟩ <;> simp

/-- The parts of a ready group's execution: no trap, all of ACTIVE, no wait, the group begun. -/
theorem ready_parts {s : State} {n : Nat} {g : Group} {sh : Shape} (h : Ready s n g sh) :
    s.trapsOf g sh (s.activeOf g sh.guard) = []
    ∧ (s.activeOf g sh.guard).filter (fun t => !(([] : List (Nat × Cause × List DWord)).map Prod.fst).contains t)
      = s.activeOf g sh.guard
    ∧ s.waitOf g sh (s.activeOf g sh.guard) = none
    ∧ (s.skipOthers n (s.activeOf g sh.guard)).alterGroup n
        (fun g => { g with hold := if g.engaged = [] then none else some .engaged }) = s.begun n g sh.guard := by
  have hb : ∀ t ∈ s.activeOf g sh.guard, s.blockOf sh ⟨g.team, t⟩ = none := by
    intro t ht
    obtain ⟨hm, x, hx, hgd⟩ := (mem_activeOf h.done h.engaged).mp ht
    obtain ⟨y, hy, -, hbl⟩ := h.members t hm
    obtain rfl : x = y := Option.some.inj (hx.symm.trans hy)
    exact hbl hgd
  refine ⟨?_, List.filter_eq_self.mpr fun _ _ => rfl, ?_, ?_⟩
  · unfold State.trapsOf
    rw [List.filterMap_eq_nil_iff]
    intro t ht
    rw [hb t ht]
  · unfold State.waitOf
    rw [List.findSome?_eq_none_iff]
    intro t ht
    rw [hb t ht]
  · have hg := h.group
    unfold State.skipOthers State.begun State.alterGroup Table.alter State.leftOut
    unfold State.group at hg
    simp only [hg, h.done, h.engaged, Table.find_put, if_true, List.nil_append, List.contains_nil, Bool.not_false,
      Bool.true_and]
    congr 1
    generalize s.groups = l at hg
    induction l with
    | nil => cases hg
    | cons e l ih =>
      obtain ⟨k, v⟩ := e
      by_cases hk : k = n
      · simp [Table.put, hk]
      · simp only [Table.find, hk, if_false] at hg
        simp only [Table.put, hk, if_false, ih hg]

/-- What a group is left with by its members' turns at an instruction: it passes on, or it is held, with what a lower lane did undone where the hold says so (R79, R81). -/
def State.settleTurns (s : State) (n : Nat) (r : State × Option Hold) : State :=
  match r with
  | (s', none) => s'.passOn n
  | (s', some h) => ((if h.undoes then s else s').holdGroup n h).passOn n

/-- A ready group begins with its active members, in the order of its members, and passes on (R53, R81). -/
theorem runIn_ready {s : State} {n : Nat} {g : Group} {sh : Shape} (h : Ready s n g sh)
    (body : State → ThreadId → List DWord → Attempt) :
    s.runIn n g sh body =
      (s.begun n g sh.guard).settleTurns n (State.attemptAll n g sh body [] (s.activeOf g sh.guard) (s.begun n g sh.guard)) := by
  obtain ⟨htr, hrest, hw, hs⟩ := ready_parts h
  unfold State.runIn
  simp only [htr, hrest, hw, hs, State.settleTurns]
  all_goals rfl

/-- An instruction that acts once for ACTIVE begins with the active members of a ready group. -/
theorem runWhole_ready {s : State} {n : Nat} {g : Group} {sh : Shape} (h : Ready s n g sh)
    (body : State → Nat → Group → List Nat → State) :
    runWhole s sh body = .next ((body (s.begun n g sh.guard) n g (s.activeOf g sh.guard)).passOn n) := by
  obtain ⟨htr, hrest, hw, hs⟩ := ready_parts h
  unfold runWhole
  simp only [h.cur, h.group, htr, hrest, hw, State.trapEach, List.foldl_nil, hs]

theorem runGroup_ready {s : State} {n : Nat} {g : Group} {sh : Shape} (h : Ready s n g sh)
    (body : State → ThreadId → List DWord → Attempt) :
    runGroup s sh body =
      .next ((s.begun n g sh.guard).settleTurns n
        (State.attemptAll n g sh body [] (s.activeOf g sh.guard) (s.begun n g sh.guard))) := by
  unfold runGroup
  simp only [h.cur, h.group, runIn_ready h body]

/-! The lane families over a whole group -/

/-- An effect depends on the state outside its thread and team through the clocks alone, and on its team through what an instruction of another member leaves alone. -/
def LocalEffect (eff : State → ThreadId → Team → Thread → List DWord → Effect) : Prop :=
  ∀ (s v : State) (id : ThreadId) (m : Team) (x : Thread) (vs : List DWord) (a : Nat) (b : Bool),
    v.dtime = s.dtime → (∀ c, (v.core c).ltime = (s.core c).ltime) →
    eff v id { m with prog := a, fmtanom := b } x vs = eff s id m x vs

theorem Src.value_congr {m m' : Team} (h : m'.consts = m.consts) (x : Thread) (t : Nat) (before : List Src) (src : Src) :
    src.value m' x t before = src.value m x t before := by
  cases src <;> simp [Src.value, readOne, readPair, h]

theorem valuesFrom_congr {m m' : Team} (h : m'.consts = m.consts) (x : Thread) (t : Nat) (srcs : List Src) :
    ∀ before, valuesFrom m' x t before srcs = valuesFrom m x t before srcs := by
  induction srcs with
  | nil => intro _; rfl
  | cons a l ih => intro before; simp [valuesFrom, Src.value_congr h, ih]

/-- What the members of `l` and everything else are once the members of `l` have executed. -/
structure LaneLoop (s v : State) (n : Nat) (g : Group) (sh : Shape) (eff : ThreadId → Team → Thread → Effect)
    (l : List Nat) : Prop where
  inside  : ∀ t ∈ l, ∀ x m, s.thread ⟨g.team, t⟩ = some x → s.team g.team = some m →
    v.thread ⟨g.team, t⟩ = some (x.wrote (eff ⟨g.team, t⟩ m x) sh.srcs s.wmax)
  outside : ∀ id : ThreadId, ¬ (id.team = g.team ∧ id.t ∈ l) → v.thread id = s.thread id
  team    : ∀ m, s.team g.team = some m → v.team g.team = some { m with
    prog := m.prog + l.length
    fmtanom := m.fmtanom || l.any fun t => s.anomalous eff m ⟨g.team, t⟩ }
  teams   : ∀ k, k ≠ g.team → v.team k = s.team k
  group   : v.group n = some { g with done := s.leftOut g sh.guard ++ l, hold := none }
  groups  : ∀ k, k ≠ n → v.group k = s.group k
  quiet   : Quiet s v

theorem Quiet.wmax {s v : State} (h : Quiet s v) : v.wmax = s.wmax := by rw [h.1]

theorem Quiet.clocks {s v : State} (h : Quiet s v) : v.dtime = s.dtime ∧ ∀ c, (v.core c).ltime = (s.core c).ltime := by
  refine ⟨by rw [h.1], fun c => ?_⟩
  obtain ⟨_, _, _, _, _, _, hc⟩ := h.2 c
  rw [hc]

/-- One more member executes. -/
theorem LaneLoop.attempt {s v : State} {n : Nat} {g : Group} {sh : Shape}
    {eff : State → ThreadId → Team → Thread → List DWord → Effect} (hloc : LocalEffect eff) (hready : Ready s n g sh)
    {l : List Nat} (hl : LaneLoop s v n g sh (fun id m x => eff s id m x (s.valuesOf sh id)) l)
    {t : Nat} (ht : t ∈ g.members) (htl : t ∉ l) {x : Thread} {m : Team}
    (hx : s.thread ⟨g.team, t⟩ = some x) (hm : s.team g.team = some m)
    (h1 : (eff s ⟨g.team, t⟩ m x (s.valuesOf sh ⟨g.team, t⟩)).pushes.length ≤ 1)
    (ha : ∀ p ∈ (eff s ⟨g.team, t⟩ m x (s.valuesOf sh ⟨g.team, t⟩)).pushes, p.1 < 4 → x.assembles p.1 p.2 = true) :
    ∃ w, v.attempt n g sh (laneBody sh eff) t = (w, none) ∧
      LaneLoop s w n g sh (fun id m x => eff s id m x (s.valuesOf sh id)) (l ++ [t]) := by
  have hvx : v.thread ⟨g.team, t⟩ = some x := by rw [hl.outside _ (by simp [htl]), hx]
  have hvm := hl.team m hm
  have hvals : v.valuesOf sh ⟨g.team, t⟩ = s.valuesOf sh ⟨g.team, t⟩ := by
    unfold State.valuesOf State.teamOf
    simp only [hvx, hx, hvm, hm]
    apply valuesFrom_congr
    rfl
  have heff := hloc s v ⟨g.team, t⟩ m x (s.valuesOf sh ⟨g.team, t⟩) (m.prog + l.length)
    (m.fmtanom || l.any fun t => s.anomalous (fun id m x => eff s id m x (s.valuesOf sh id)) m ⟨g.team, t⟩) hl.quiet.clocks.1 hl.quiet.clocks.2
  obtain ⟨u, hu, hd⟩ := attemptEffect_done hvx (sh.srcs.filterMap Src.pops) false h1 ha
  have hbody : laneBody sh eff v ⟨g.team, t⟩ (s.valuesOf sh ⟨g.team, t⟩) = .done u := by
    unfold laneBody State.teamOf
    simp only [hvx, hvm, heff]
    exact hu
  have hatt : v.attempt n g sh (laneBody sh eff) t =
      (((u.popFor ⟨g.team, t⟩ sh.srcs).progress ⟨g.team, t⟩).markDone n t, none) := by
    unfold State.attempt
    simp only [hvals, hbody]
  have hwm : u.wmax = s.wmax := hd.quiet.wmax.trans hl.quiet.wmax
  refine ⟨_, hatt, ?_⟩
  have hug : u.group n = some { g with done := s.leftOut g sh.guard ++ l, hold := none } := by
    have : u.group n = v.group n := by unfold State.group; rw [hd.groups]
    rw [this, hl.group]
  have hother : ∀ k, u.group k = v.group k := fun k => by unfold State.group; rw [hd.groups]
  refine ⟨?_, ?_, ?_, ?_, ?_, ?_, ?_⟩
  · intro t' ht' x' m' hx' hm'
    obtain rfl : m = m' := Option.some.inj (hm.symm.trans hm')
    by_cases h : t' = t
    · subst h
      obtain rfl : x = x' := Option.some.inj (hx.symm.trans hx')
      simp [State.markDone, State.progress, State.popFor, hd.thread x hvx, Thread.wrote, hwm]
    · have hmem : t' ∈ l := by simpa [h] using ht'
      have hne : (⟨g.team, t'⟩ : ThreadId) ≠ ⟨g.team, t⟩ := by simp [h]
      simp [State.markDone, State.progress, State.popFor, h, hd.others _ hne, hl.inside t' hmem x' m hx' hm]
  · intro id hid
    have hne : id ≠ ⟨g.team, t⟩ := by
      rintro rfl
      exact hid ⟨rfl, by simp⟩
    have hid' : ¬ (id.team = g.team ∧ id.t ∈ l) := fun h => hid ⟨h.1, by simp [h.2]⟩
    simp [State.markDone, State.progress, State.popFor, hne, hd.others _ hne, hl.outside id hid']
  · intro m' hm'
    obtain rfl : m = m' := Option.some.inj (hm.symm.trans hm')
    simp [State.markDone, State.progress, State.popFor, hd.team _ hvm, hx, State.anomalous, Nat.add_assoc, Bool.or_assoc]
  · intro k hk
    simp [State.markDone, State.progress, State.popFor, hk, hd.teams k hk, hl.teams k hk]
  · simp [State.markDone, State.progress, State.popFor, hug, ht, hready.engaged]
  · intro k hk
    simp [State.markDone, State.progress, State.popFor, hk, hother, hl.groups k hk]
  · exact (((hl.quiet.trans hd.quiet).trans (Quiet.alterThread _ _ _)).trans (Quiet.alterTeam _ _ _)).trans
      (Quiet.alterGroup _ _ _)

/-! A group passing on -/

theorem foldl_wait_thread (team : Nat) (next : VAddr) (l : List Nat) (s : State) (id : ThreadId) :
    (l.foldl (fun (s : State) t => s.alterThread ⟨team, t⟩ fun x => { x with pc := next, status := .waiting 0 }) s).thread id
      = if id.team = team ∧ id.t ∈ l then (s.thread id).map fun x => { x with pc := next, status := .waiting 0 }
        else s.thread id := by
  induction l generalizing s with
  | nil => simp
  | cons t l ih =>
    rw [List.foldl_cons, ih]
    obtain ⟨a, b⟩ := id
    by_cases ha : a = team
    · subst ha
      by_cases hb : b = t
      · subst hb
        cases h : s.thread ⟨a, b⟩ <;> simp [h]
      · simp [hb]
    · simp [ha]

theorem foldl_wait_quiet (team : Nat) (next : VAddr) (l : List Nat) (s : State) :
    Quiet s (l.foldl (fun (s : State) t => s.alterThread ⟨team, t⟩ fun x => { x with pc := next, status := .waiting 0 }) s)
      ∧ (l.foldl (fun (s : State) t => s.alterThread ⟨team, t⟩ fun x => { x with pc := next, status := .waiting 0 }) s).teams
        = s.teams
      ∧ (l.foldl (fun (s : State) t => s.alterThread ⟨team, t⟩ fun x => { x with pc := next, status := .waiting 0 }) s).groups
        = s.groups := by
  induction l generalizing s with
  | nil => exact ⟨Quiet.refl s, rfl, rfl⟩
  | cons t l ih =>
    obtain ⟨h1, h2, h3⟩ := ih (s.alterThread ⟨team, t⟩ fun x => { x with pc := next, status := .waiting 0 })
    exact ⟨(Quiet.alterThread _ _ _).trans h1, h2, h3⟩

/-- What a group whose members have all executed leaves behind as it passes on (R46, R81). -/
structure Passed (s u : State) (n : Nat) (g : Group) : Prop where
  inside  : ∀ t ∈ g.members, u.thread ⟨g.team, t⟩ = (s.thread ⟨g.team, t⟩).map g.onward
  outside : ∀ id : ThreadId, ¬ (id.team = g.team ∧ id.t ∈ g.members) → u.thread id = s.thread id
  teams   : u.teams = s.teams
  group   : u.group n = g.passed
  groups  : ∀ k, k ≠ n → u.group k = s.group k
  quiet   : Quiet s u

theorem passOn_done {s : State} {n : Nat} {g : Group} (hg : s.group n = some g) (hd : ∀ t ∈ g.members, t ∈ g.done) :
    Passed s (s.passOn n) n g := by
  have hall : (g.members.all fun t => g.done.contains t) = true := by simpa using hd
  unfold State.passOn
  simp only [hg, hall, if_true]
  by_cases hm : g.idx + 1 < g.clause.words.length
  · simp only [hm, if_true]
    have hmore : g.more = true := by simp [Group.more, hm]
    refine ⟨?_, fun _ _ => rfl, rfl, ?_, ?_, Quiet.alterGroup _ _ _⟩
    · intro t _
      cases h : s.thread ⟨g.team, t⟩ <;> simp [h, Group.onward, hmore]
    · simp [hg, Group.passed, hmore]
    · intro k hk
      simp [hk]
  · simp only [hm, if_false]
    have hmore : g.more = false := by simp [Group.more, hm]
    obtain ⟨h1, h2, h3⟩ := foldl_wait_quiet g.team g.clause.next g.members s
    unfold State.endClause
    dsimp only
    refine ⟨?_, ?_, h2, ?_, ?_, ?_⟩
    · intro t ht
      show (List.foldl _ _ _ : State).thread _ = _
      rw [foldl_wait_thread]
      cases s.thread ⟨g.team, t⟩ <;> simp [ht, Group.onward, hmore]
    · intro id hid
      show (List.foldl _ _ _ : State).thread _ = _
      rw [foldl_wait_thread, if_neg hid]
    · unfold State.group
      simp [Group.passed, hmore]
    · intro k hk
      unfold State.group
      simp [hk, h3]
    · exact ⟨by rw [h1.1], h1.2⟩

/-! The whole instruction -/

theorem laneLoop_foldl {s : State} {n : Nat} {g : Group} {sh : Shape}
    {eff : State → ThreadId → Team → Thread → List DWord → Effect} (hloc : LocalEffect eff) (hready : Ready s n g sh)
    (h1 : ∀ id m x vs, (eff s id m x vs).pushes.length ≤ 1)
    (ha : ∀ t ∈ g.members, ∀ x m, s.thread ⟨g.team, t⟩ = some x → s.team g.team = some m → x.guard sh.guard = true →
      ∀ p ∈ (eff s ⟨g.team, t⟩ m x (s.valuesOf sh ⟨g.team, t⟩)).pushes, p.1 < 4 → x.assembles p.1 p.2 = true)
    (l : List Nat) : ∀ (l0 : List Nat) (v : State), LaneLoop s v n g sh (fun id m x => eff s id m x (s.valuesOf sh id)) l0 →
      (∀ t ∈ l, t ∈ s.activeOf g sh.guard) → l.Nodup → (∀ t ∈ l, t ∉ l0) →
      ∃ w, State.attemptAll n g sh (laneBody sh eff) [] l v = (w, none) ∧
        LaneLoop s w n g sh (fun id m x => eff s id m x (s.valuesOf sh id)) (l0 ++ l) := by
  induction l with
  | nil => intro l0 v h _ _ _; exact ⟨v, rfl, by simpa using h⟩
  | cons t l ih =>
    intro l0 v h hact hnd hdis
    obtain ⟨hm, x, hx, hgd⟩ := (mem_activeOf hready.done hready.engaged).mp (hact t (by simp))
    obtain ⟨m, hteam⟩ := hready.team
    obtain ⟨w, hw, hstep⟩ := h.attempt hloc hready hm (hdis t (by simp)) hx hteam (h1 _ _ _ _) (ha t hm x m hx hteam hgd)
    obtain ⟨w', hw', hl'⟩ := ih (l0 ++ [t]) _ hstep (fun u hu => hact u (by simp [hu])) (List.nodup_cons.mp hnd).2 (by
      intro u hu hmem
      rcases List.mem_append.mp hmem with h' | h'
      · exact hdis u (by simp [hu]) h'
      · obtain rfl : u = t := by simpa using h'
        exact (List.nodup_cons.mp hnd).1 hu)
    refine ⟨w', ?_, by simpa using hl'⟩
    simp only [State.attemptAll, List.find?_nil, hw, hw']

/-- An instruction of the lane families executes in every ready group, with its effect in each member whose guard holds and none in the others (R53, R81, R133). -/
theorem runLane_ready {s : State} {n : Nat} {g : Group} {sh : Shape}
    {eff : State → ThreadId → Team → Thread → List DWord → Effect} (hloc : LocalEffect eff)
    (h1 : ∀ s id m x vs, (eff s id m x vs).pushes.length ≤ 1) (hready : Ready s n g sh)
    (ha : ∀ t ∈ g.members, ∀ x m, s.thread ⟨g.team, t⟩ = some x → s.team g.team = some m → x.guard sh.guard = true →
      ∀ p ∈ (eff s ⟨g.team, t⟩ m x (s.valuesOf sh ⟨g.team, t⟩)).pushes, p.1 < 4 → x.assembles p.1 p.2 = true) :
    ∃ u, runLane sh eff s = .next u ∧ LaneDone s u n g sh fun id m x => eff s id m x (s.valuesOf sh id) := by
  unfold runLane
  rw [runGroup_ready hready]
  have hbase : LaneLoop s (s.begun n g sh.guard) n g sh (fun id m x => eff s id m x (s.valuesOf sh id)) [] := by
    refine ⟨by simp, fun _ _ => rfl, ?_, fun _ _ => rfl, ?_, ?_, Quiet.alterGroup _ _ _⟩
    · intro m hm
      simp [State.begun, hm]
    · simp [State.begun, hready.group]
    · intro k hk
      simp [State.begun, hk]
  obtain ⟨v, hv, hloop⟩ := laneLoop_foldl hloc hready (h1 s) ha (s.activeOf g sh.guard) [] _ hbase (fun _ h => h)
    (hready.nodup.sublist List.filter_sublist) (by simp)
  rw [List.nil_append] at hloop
  rw [hv]
  refine ⟨v.passOn n, rfl, ?_⟩
  have hcover : ∀ t ∈ g.members, t ∈ s.leftOut g sh.guard ++ s.activeOf g sh.guard := by
    intro t ht
    by_cases h : t ∈ s.activeOf g sh.guard
    · simp [h]
    · simp [State.leftOut, ht, h]
  have hp := passOn_done hloop.group hcover
  refine ⟨?_, ?_, ?_, ?_, ?_, ?_, ?_, ?_, ?_, ?_⟩
  · intro t ht x m hx hm hgd
    have hact := (mem_activeOf hready.done hready.engaged).mpr ⟨ht, x, hx, hgd⟩
    have := hp.inside t ht
    rw [hloop.inside t hact x m hx hm] at this
    exact this
  · intro t ht x hx hgd
    have hact : t ∉ s.activeOf g sh.guard := by
      intro h
      obtain ⟨-, y, hy, hyg⟩ := (mem_activeOf hready.done hready.engaged).mp h
      obtain rfl : x = y := Option.some.inj (hx.symm.trans hy)
      simp [hgd] at hyg
    have := hp.inside t ht
    rw [hloop.outside _ (by simp [hact]), hx] at this
    exact this
  · intro id hid
    rw [hp.outside id hid, hloop.outside]
    exact fun h => hid ⟨h.1, ((mem_activeOf hready.done hready.engaged).mp h.2).1⟩
  · exact hp.group
  · exact fun k hk => (hp.groups k hk).trans (hloop.groups k hk)
  · intro m hm
    have : (v.passOn n).team g.team = v.team g.team := by unfold State.team; rw [hp.teams]
    rw [this, hloop.team m hm]
  · intro k hk
    have : (v.passOn n).team k = v.team k := by unfold State.team; rw [hp.teams]
    rw [this, hloop.teams k hk]
  · exact fun c => (hloop.quiet.trans hp.quiet).2 c
  · intro a
    have h := (hloop.quiet.trans hp.quiet).1
    unfold State.byte
    rw [h]
  · exact (hloop.quiet.trans hp.quiet).1

end Sys2Proof.Machine
end

