-- ==== Sys2Proof/Laws/Lane.lean ====
section
/-! SUPPORT. Laws of the lane families: what shows that an instruction executes with an effect in every ready group (R133). -/

namespace Sys2Proof.Machine

theorem writeDst_pushes (d : Byte) (v : Word) : (writeDst d v).pushes.length ≤ 1 := by
  unfold writeDst
  split
  · simp
  · split <;> simp

theorem writePair_pushes (d : Byte) (v : DWord) : (writePair d v).pushes.length ≤ 1 := by
  unfold writePair
  split <;> simp

theorem writePred_pushes (d : Byte) (v : Bool) : (writePred d v).pushes.length ≤ 1 := by
  simp [writePred]

/-- The special values of movs depend on the state through the clocks alone (R126). -/
theorem special_local (s v : State) (id : ThreadId) (m : Team) (x : Thread) (a : Nat) (b : Bool) (k : Nat)
    (h1 : v.dtime = s.dtime) (h2 : ∀ c, (v.core c).ltime = (s.core c).ltime) :
    special v id { m with prog := a, fmtanom := b } x k = special s id m x k := by
  unfold special State.dtimeAt
  simp only [h1, h2]
  rfl

/-- A lane instruction with a local effect of at most one pushed word executes in every ready group. -/
theorem executes_of_runLane {i : Instr} {sh : Shape} {eff : State → ThreadId → Team → Thread → List DWord → Effect}
    (he : ∀ s, exec i s = runLane sh eff s) (hl : LocalEffect eff)
    (h1 : ∀ s id m x vs, (eff s id m x vs).pushes.length ≤ 1) : Executes i sh eff := by
  intro s n g h ha
  rw [he]
  exact runLane_ready hl h1 h ha

theorem computes1_of_lane1 {i : Instr} {f : RF} {op : Word → Word} (h : ∀ s, exec i s = lane1 f op s) : Computes1 i f op :=
  executes_of_runLane h (fun _ _ _ _ _ _ _ _ _ _ => rfl) fun _ _ _ _ _ => writeDst_pushes _ _

theorem computes2_of_lane2 {i : Instr} {f : RF} {op : Word → Word → Word} (h : ∀ s, exec i s = lane2 f op s) :
    Computes2 i f op :=
  executes_of_runLane h (fun _ _ _ _ _ _ _ _ _ _ => rfl) fun _ _ _ _ _ => writeDst_pushes _ _

theorem computes3_of_lane3 {i : Instr} {f : RF} {op : Word → Word → Word → Word} (h : ∀ s, exec i s = lane3 f op s) :
    Computes3 i f op :=
  executes_of_runLane h (fun _ _ _ _ _ _ _ _ _ _ => rfl) fun _ _ _ _ _ => writeDst_pushes _ _

theorem computesI_of_laneI {i : Instr} {f : IF} {op : Word → Word → Word} (h : ∀ s, exec i s = laneI f op s) :
    ComputesI i f op :=
  executes_of_runLane h (fun _ _ _ _ _ _ _ _ _ _ => rfl) fun _ _ _ _ _ => writeDst_pushes _ _

end Sys2Proof.Machine
end

