-- ==== Sys2Proof/Laws/Solo.lean ====
section
/-! SUPPORT. Laws of a group of one thread: what comes of an instruction from what its body answers (R53, R81). -/

namespace Sys2Proof.Machine

theorem Solo.ready {s : State} {n : Nat} {g : Group} {t : ThreadId} {x : Thread} {m : Team} {sh : Shape}
    (h : Solo s n g t x m sh) : Ready s n g sh := by
  refine ⟨h.cur, h.group, h.done, h.engaged, by simp [h.members], ⟨m, h.ofTeam ▸ h.team⟩, ?_⟩
  intro u hu
  obtain rfl : u = t.t := by simpa [h.members] using hu
  rw [h.ofTeam]
  exact ⟨x, h.thread, h.status, fun _ => h.free⟩

theorem Solo.activeOf {s : State} {n : Nat} {g : Group} {t : ThreadId} {x : Thread} {m : Team} {sh : Shape}
    (h : Solo s n g t x m sh) : s.activeOf g sh.guard = [t.t] := by
  have hx : s.thread ⟨g.team, t.t⟩ = some x := by rw [h.ofTeam]; exact h.thread
  simp [State.activeOf, h.members, h.done, h.engaged, hx, h.guard]

theorem Solo.begun {s : State} {n : Nat} {g : Group} {t : ThreadId} {x : Thread} {m : Team} {sh : Shape}
    (h : Solo s n g t x m sh) : s.begun n g sh.guard = s.resumed n := by
  have hl : s.leftOut g sh.guard = [] := by simp [State.leftOut, h.activeOf, h.members]
  have hg := h.group
  have hd := h.done
  unfold State.group at hg
  unfold State.begun State.resumed State.alterGroup Table.alter
  simp only [hg, hl, ← hd]

/-- The values of the sources of the one thread. -/
theorem Solo.values {s : State} {n : Nat} {g : Group} {t : ThreadId} {x : Thread} {m : Team} {sh : Shape}
    (h : Solo s n g t x m sh) : s.valuesOf sh t = valuesFrom m x t.t [] sh.srcs := by
  unfold State.valuesOf State.teamOf
  simp only [h.thread, h.team]

@[simp] theorem State.resumed_valuesOf (s : State) (n : Nat) (sh : Shape) (t : ThreadId) :
    (s.resumed n).valuesOf sh t = s.valuesOf sh t := rfl

/-- The one thread's turn, and the group passing on. -/
theorem runGroup_solo {s : State} {n : Nat} {g : Group} {t : ThreadId} {x : Thread} {m : Team} {sh : Shape}
    (h : Solo s n g t x m sh) (body : State → ThreadId → List DWord → Attempt) :
    runGroup s sh body = .next ((s.resumed n).settleTurns n ((s.resumed n).attempt n g sh body t.t)) := by
  rw [runGroup_ready h.ready, h.activeOf, h.begun]
  simp only [State.attemptAll, List.find?_nil]
  rcases (s.resumed n).attempt n g sh body t.t with ⟨u, _ | w⟩ <;> rfl

/-- A body that is done commits. -/
theorem runGroup_solo_done {s u : State} {n : Nat} {g : Group} {t : ThreadId} {x : Thread} {m : Team} {sh : Shape}
    (h : Solo s n g t x m sh) {body : State → ThreadId → List DWord → Attempt}
    (hb : body (s.resumed n) t (s.valuesOf sh t) = .done u) :
    runGroup s sh body = .next (u.commit n t sh.srcs) := by
  have ht : (⟨g.team, t.t⟩ : ThreadId) = t := by rw [h.ofTeam]
  rw [runGroup_solo h]
  unfold State.attempt State.commit
  simp only [ht, State.resumed_valuesOf, hb, State.settleTurns]

/-- A body that traps raises its cause in the thread, at the instruction (R361). -/
theorem runGroup_solo_trap {s u : State} {n : Nat} {g : Group} {t : ThreadId} {x : Thread} {m : Team} {sh : Shape}
    (h : Solo s n g t x m sh) {body : State → ThreadId → List DWord → Attempt} {cause : Cause} {aux : List DWord}
    (hb : body (s.resumed n) t (s.valuesOf sh t) = .trap cause aux u) :
    runGroup s sh body = .next ((u.trapAt t g.clause g.idx cause aux).passOn n) := by
  have ht : (⟨g.team, t.t⟩ : ThreadId) = t := by rw [h.ofTeam]
  rw [runGroup_solo h]
  unfold State.attempt State.trapIn
  simp only [ht, State.resumed_valuesOf, hb, State.settleTurns]

/-- A body that must wait holds the group (R81). -/
theorem runGroup_solo_wait {s u : State} {n : Nat} {g : Group} {t : ThreadId} {x : Thread} {m : Team} {sh : Shape}
    (h : Solo s n g t x m sh) {body : State → ThreadId → List DWord → Attempt} {w : Hold}
    (hb : body (s.resumed n) t (s.valuesOf sh t) = .wait w u) :
    runGroup s sh body = .next (((if w.undoes then s.resumed n else u).holdGroup n w).passOn n) := by
  have ht : (⟨g.team, t.t⟩ : ThreadId) = t := by rw [h.ofTeam]
  rw [runGroup_solo h]
  unfold State.attempt
  simp only [ht, State.resumed_valuesOf, hb, State.settleTurns]

/-- A body under way elsewhere: its queues are popped, PROG counts it, and the group is held (R81, R101). -/
theorem runGroup_solo_engage {s u : State} {n : Nat} {g : Group} {t : ThreadId} {x : Thread} {m : Team} {sh : Shape}
    (h : Solo s n g t x m sh) {body : State → ThreadId → List DWord → Attempt}
    (hb : body (s.resumed n) t (s.valuesOf sh t) = .engage u) :
    runGroup s sh body = .next ((((u.popFor t sh.srcs).progress t).alterGroup n fun g =>
      { g with engaged := g.engaged ++ [t.t], hold := some (g.hold.getD .engaged) }).passOn n) := by
  have ht : (⟨g.team, t.t⟩ : ThreadId) = t := by rw [h.ofTeam]
  rw [runGroup_solo h]
  unfold State.attempt
  simp only [ht, State.resumed_valuesOf, hb, State.settleTurns]

/-- A body that is held elsewhere before any effect: the group is held (R81). -/
theorem runGroup_solo_park {s u : State} {n : Nat} {g : Group} {t : ThreadId} {x : Thread} {m : Team} {sh : Shape}
    (h : Solo s n g t x m sh) {body : State → ThreadId → List DWord → Attempt}
    (hb : body (s.resumed n) t (s.valuesOf sh t) = .park u) :
    runGroup s sh body = .next ((u.alterGroup n fun g =>
      { g with engaged := g.engaged ++ [t.t], hold := some (g.hold.getD .engaged) }).passOn n) := by
  have ht : (⟨g.team, t.t⟩ : ThreadId) = t := by rw [h.ofTeam]
  rw [runGroup_solo h]
  unfold State.attempt
  simp only [ht, State.resumed_valuesOf, hb, State.settleTurns]

/-- A body that has stopped its thread leaves the others to the group (R362, R393). -/
theorem runGroup_solo_left {s u : State} {n : Nat} {g : Group} {t : ThreadId} {x : Thread} {m : Team} {sh : Shape}
    (h : Solo s n g t x m sh) {body : State → ThreadId → List DWord → Attempt}
    (hb : body (s.resumed n) t (s.valuesOf sh t) = .left u) :
    runGroup s sh body = .next (u.passOn n) := by
  have ht : (⟨g.team, t.t⟩ : ThreadId) = t := by rw [h.ofTeam]
  rw [runGroup_solo h]
  unfold State.attempt
  simp only [ht, State.resumed_valuesOf, hb, State.settleTurns]

/-- An instruction that acts once for ACTIVE, in the one thread. -/
theorem runWhole_solo {s : State} {n : Nat} {g : Group} {t : ThreadId} {x : Thread} {m : Team} {sh : Shape}
    (h : Solo s n g t x m sh) (body : State → Nat → Group → List Nat → State) :
    runWhole s sh body = .next ((body (s.resumed n) n g [t.t]).passOn n) := by
  rw [runWhole_ready h.ready, h.activeOf, h.begun]

/-! What the hold's end leaves -/

@[simp] theorem State.resumed_thread (s : State) (n : Nat) (t : ThreadId) : (s.resumed n).thread t = s.thread t := rfl
@[simp] theorem State.resumed_team (s : State) (n k : Nat) : (s.resumed n).team k = s.team k := rfl
@[simp] theorem State.resumed_teamOf (s : State) (n : Nat) (t : ThreadId) : (s.resumed n).teamOf t = s.teamOf t := rfl
@[simp] theorem State.resumed_coreOf (s : State) (n : Nat) (t : ThreadId) : (s.resumed n).coreOf t = s.coreOf t := rfl
@[simp] theorem State.resumed_cnOf (s : State) (n : Nat) (t : ThreadId) : (s.resumed n).cnOf t = s.cnOf t := rfl
@[simp] theorem State.resumed_core (s : State) (n : Nat) (c : CoreId) : (s.resumed n).core c = s.core c := rfl
@[simp] theorem State.resumed_cur (s : State) (n : Nat) : (s.resumed n).cur = s.cur := rfl
@[simp] theorem State.resumed_mem (s : State) (n : Nat) : (s.resumed n).mem = s.mem := rfl

theorem Solo.teamOf {s : State} {n : Nat} {g : Group} {t : ThreadId} {x : Thread} {m : Team} {sh : Shape}
    (h : Solo s n g t x m sh) : s.teamOf t = some m := h.team
theorem Solo.coreOf {s : State} {n : Nat} {g : Group} {t : ThreadId} {x : Thread} {m : Team} {sh : Shape}
    (h : Solo s n g t x m sh) : s.coreOf t = m.core := by simp [State.coreOf, h.teamOf]
theorem Solo.cnOf {s : State} {n : Nat} {g : Group} {t : ThreadId} {x : Thread} {m : Team} {sh : Shape}
    (h : Solo s n g t x m sh) : s.cnOf t = m.cn := by simp [State.cnOf, h.teamOf]

/-- The address of the instruction of the one thread. -/
theorem Solo.pcAt {s : State} {n : Nat} {g : Group} {t : ThreadId} {x : Thread} {m : Team} {sh : Shape}
    (h : Solo s n g t x m sh) : (s.resumed n).pcAt t = g.pc := by
  unfold State.pcAt State.groupOf
  simp only [State.resumed_thread, h.thread, Option.map_some, h.status]
  simp [State.resumed, h.group, Group.pc]

theorem Solo.nextAt {s : State} {n : Nat} {g : Group} {t : ThreadId} {x : Thread} {m : Team} {sh : Shape}
    (h : Solo s n g t x m sh) : (s.resumed n).nextAt t = g.clause.next := by
  unfold State.nextAt State.groupOf
  simp only [State.resumed_thread, h.thread, Option.map_some, h.status]
  simp [State.resumed, h.group]

/-! What a commit leaves -/

/-- A commit pops the source queues, counts the instruction, and passes the group on; nothing else changes (R60, R81, R367). -/
structure Committed (u v : State) (n : Nat) (g : Group) (t : ThreadId) (srcs : List Src) : Prop where
  thread : v.thread t = (u.thread t).map fun y => g.onward ((y.popAll srcs).caughtUp srcs u.wmax)
  others : ∀ id, id ≠ t → v.thread id = u.thread id
  team   : v.team t.team = (u.team t.team).map fun m => { m with prog := m.prog + 1 }
  teams  : ∀ k, k ≠ t.team → v.team k = u.team k
  group  : v.group n = g.passed
  groups : ∀ k, k ≠ n → v.group k = u.group k
  quiet  : Quiet u v

theorem commit_committed {u : State} {n : Nat} {g : Group} {t : ThreadId} (srcs : List Src)
    (hg : u.group n = some g) (ht : g.team = t.team) (hm : g.members = [t.t]) :
    Committed u (u.commit n t srcs) n g t srcs := by
  have hg' : (((u.popFor t srcs).progress t).markDone n t.t).group n
      = some { g with done := g.done ++ [t.t], engaged := g.engaged.filter (· ≠ t.t) } := by
    simp [State.markDone, State.progress, State.popFor, hg, hm]
  have hp := passOn_done hg' (by simp [hm])
  have hid : (⟨g.team, t.t⟩ : ThreadId) = t := by rw [ht]
  refine ⟨?_, ?_, ?_, ?_, hp.group, ?_, ?_⟩
  · have h := hp.inside t.t (by simp [hm])
    simp only [hid] at h
    unfold State.commit
    rw [h]
    simp only [State.markDone, State.progress, State.popFor, State.alterGroup_thread, State.alterTeam_thread, State.alterThread_thread,
      if_true, Option.map_map]
    rfl
  · intro id hne
    have h := hp.outside id (by
      rintro ⟨h1, h2⟩
      have h2 : id.t = t.t := by simpa [hm] using h2
      have h1 : id.team = t.team := h1.trans ht
      exact hne (by cases id; cases t; simp_all))
    unfold State.commit
    rw [h]
    simp [State.markDone, State.progress, State.popFor, hne]
  · unfold State.commit State.team
    rw [hp.teams]
    exact State.alterTeam_team _ _ _ _ |>.trans (by simp [State.team, State.popFor])
  · intro k hk
    unfold State.commit State.team
    rw [hp.teams]
    exact (State.alterTeam_team _ _ _ _).trans (by rw [if_neg hk]; rfl)
  · intro k hk
    unfold State.commit
    rw [hp.groups k hk]
    simp [State.markDone, State.progress, State.popFor, hk]
  · exact (((Quiet.alterThread _ _ _).trans (Quiet.alterTeam _ _ _)).trans (Quiet.alterGroup _ _ _)).trans hp.quiet

end Sys2Proof.Machine
end

