-- ==== Sys2Proof/Laws/Memory.lean ====
section
/-! SUPPORT. Laws of global memory: what translation, the caches, loads and stores change (R224 to R261). -/

namespace Sys2Proof.Machine

/-! Translation -/

/-- A change of what caches hold alone: the kept translations and the L2 of dies, the LLC, and the draws. -/
def KeptOnly (s u : State) : Prop :=
  u = { s with dies := u.dies, llc := u.llc, drawn := u.drawn } ∧ ∀ d, ∃ k l, u.die d = { s.die d with kept := k, l2 := l }

theorem KeptOnly.refl (s : State) : KeptOnly s s := ⟨rfl, fun _ => ⟨_, _, rfl⟩⟩

theorem KeptOnly.trans {s u v : State} (h : KeptOnly s u) (h' : KeptOnly u v) : KeptOnly s v := by
  refine ⟨by rw [h'.1, h.1], fun d => ?_⟩
  obtain ⟨k, l, hk⟩ := h.2 d
  obtain ⟨k', l', hk'⟩ := h'.2 d
  exact ⟨k', l', by rw [hk', hk]⟩

theorem KeptOnly.setDie (s : State) (d : Nat) (x : Die) (hx : ∃ k l, x = { s.die d with kept := k, l2 := l }) :
    KeptOnly s (s.setDie d x) := by
  obtain ⟨k, l, rfl⟩ := hx
  refine ⟨rfl, fun e => ?_⟩
  rw [State.setDie_die]
  split
  · rename_i h; exact ⟨k, l, by rw [h]⟩
  · exact ⟨_, _, rfl⟩

theorem KeptOnly.alterDie (s : State) (d : Nat) (f : Die → Die) (hx : ∃ k l, f (s.die d) = { s.die d with kept := k, l2 := l }) :
    KeptOnly s (s.alterDie d f) := KeptOnly.setDie s d _ hx

theorem KeptOnly.draw (s : State) : KeptOnly s s.draw := ⟨rfl, fun _ => ⟨_, _, rfl⟩⟩

theorem KeptOnly.setLlc (s : State) (l : Table Nat (List CacheLine)) : KeptOnly s { s with llc := l } := ⟨rfl, fun _ => ⟨_, _, rfl⟩⟩

theorem putLlc_keptOnly (s : State) (new : CacheLine) (u : CacheUse) (ins : Option (Nat × Bool)) : KeptOnly s (s.putLlc new u ins) := by
  unfold State.putLlc
  dsimp only
  split
  · exact KeptOnly.setLlc _ _
  · exact KeptOnly.refl s
  · split
    · exact KeptOnly.setLlc _ _
    · exact KeptOnly.refl s

theorem writeBack_keptOnly (s : State) (v : CacheLine) : KeptOnly s (s.writeBack v) := by
  unfold State.writeBack
  split
  · exact KeptOnly.refl s
  · exact putLlc_keptOnly _ _ _ _

theorem tally_uncounted {a : Asker} (ha : a.counts = false) (s : State) (code : Nat) : s.tally a code = s := by
  simp [State.tally, ha]

theorem putL2_keptOnly {a : Asker} (ha : a.counts = false) (s : State) (die : Nat) (new : CacheLine) :
    KeptOnly s (s.putL2 die a new) := by
  unfold State.putL2
  dsimp only
  split
  · have h := fun l => KeptOnly.alterDie s die (fun d => { d with l2 := l }) ⟨_, _, rfl⟩
    split
    · exact (h _).trans (writeBack_keptOnly _ _)
    · exact h _
  · split
    · exact KeptOnly.refl s
    · rw [tally_uncounted ha]; exact KeptOnly.refl s

/-- A request of a party whose events no counter counts changes caches alone (R224). -/
theorem useHome_keptOnly {a : Asker} (ha : a.counts = false) (s : State) (pa : Nat) (u : CacheUse) (cls : Option Nat) (w : Bool) :
    KeptOnly s (s.useHome a pa u cls w) := by
  unfold State.useHome
  simp only [tally_uncounted ha]
  split
  · split
    · exact KeptOnly.setDie _ _ _ ⟨_, _, rfl⟩
    · exact (KeptOnly.setDie _ _ _ ⟨_, _, rfl⟩).trans (putLlc_keptOnly _ _ _ _)
  · exact (putLlc_keptOnly _ _ _ _).trans (putL2_keptOnly ha _ _ _)

theorem walkRead_keptOnly (s : State) (die cn addr : Nat) : KeptOnly s (s.walkRead die cn addr) := by
  unfold State.walkRead
  generalize ha : (⟨⟨die, 0⟩, cn, 0, ((s.context cn).map Context.part).getD 0, Name.none, false, false⟩ : Asker) = a
  have hc : a.counts = false := by rw [← ha]
  have h := useHome_keptOnly hc s addr .engine none false
  dsimp only
  split
  · exact KeptOnly.refl s
  · split
    · exact h
    · refine h.trans ?_
      split
      · exact KeptOnly.setDie _ _ _ ⟨_, _, rfl⟩
      · exact putL2_keptOnly hc _ _ _

theorem readEntry_keptOnly (s : State) (die cn addr : Nat) : KeptOnly s (s.readEntry die cn addr).2 := by
  unfold State.readEntry
  split
  · exact KeptOnly.refl s
  · exact (walkRead_keptOnly s die cn addr).trans (KeptOnly.setDie _ die _ ⟨_, _, rfl⟩)

theorem walkEntry_keptOnly (s : State) (die cn addr : Nat) : KeptOnly s (s.walkEntry die cn addr).2 := by
  unfold State.walkEntry
  split
  · split
    · exact KeptOnly.refl s
    · split
      · exact KeptOnly.draw s
      · exact (KeptOnly.draw s).trans (readEntry_keptOnly _ _ _ _)
  · exact readEntry_keptOnly _ _ _ _

theorem walkFrom_keptOnly (die cn va : Nat) (ls : List Level) :
    ∀ (top : Bool) (base : Nat) (s : State), KeptOnly s (walkFrom die cn va ls top base s).2 := by
  induction ls with
  | nil => exact fun _ _ s => KeptOnly.refl s
  | cons l ls ih =>
    intro top base s
    have h := walkEntry_keptOnly s die cn (base + 8 * (va / 2 ^ l.lo % 2 ^ l.bits))
    unfold walkFrom
    dsimp only
    split <;> rename_i hw <;> rw [hw] at h
    · exact h
    · split
      · exact h
      · split
        · exact h
        · split
          · exact h
          · exact h.trans (ih _ _ _)

theorem walk_keptOnly (s : State) (die cn : Nat) (va : VAddr) : KeptOnly s (s.walk die cn va).2 := by
  unfold State.walk
  split
  · exact walkFrom_keptOnly _ _ _ _ _ _ _
  · exact KeptOnly.refl s

/-- A translation changes what a die keeps of its walks, and nothing else (R368, R372). -/
theorem translate_keptOnly (s : State) (die cn : Nat) (need : Need) (va : VAddr) :
    KeptOnly s (s.translate die cn need va).2 := by
  have h := walk_keptOnly s die cn va
  unfold State.translate
  split <;> rename_i hw <;> rw [hw] at h <;> exact h

theorem translate_eq {s u : State} {die cn : Nat} {need : Need} {va : VAddr} {r : Translation}
    (h : s.translate die cn need va = (r, u)) : u = { s with dies := u.dies, llc := u.llc, drawn := u.drawn } := by
  have := (translate_keptOnly s die cn need va).1
  rw [h] at this
  exact this

theorem translate_thread {s u : State} {die cn : Nat} {need : Need} {va : VAddr} {r : Translation}
    (h : s.translate die cn need va = (r, u)) (t : ThreadId) : u.thread t = s.thread t := by
  rw [translate_eq h]; rfl

theorem translate_pcAt {s u : State} {die cn : Nat} {need : Need} {va : VAddr} {r : Translation}
    (h : s.translate die cn need va = (r, u)) (t : ThreadId) : u.pcAt t = s.pcAt t := by
  rw [translate_eq h]; rfl

theorem translate_coreOf {s u : State} {die cn : Nat} {need : Need} {va : VAddr} {r : Translation}
    (h : s.translate die cn need va = (r, u)) (t : ThreadId) : u.coreOf t = s.coreOf t := by
  rw [translate_eq h]; rfl

theorem translate_mem {s u : State} {die cn : Nat} {need : Need} {va : VAddr} {r : Translation}
    (h : s.translate die cn need va = (r, u)) : u.mem = s.mem := by
  rw [translate_eq h]

/-! The caches -/

/-- A change of caches, leases, page counters, counts and draws: no register, no byte, nothing in flight. -/
def CacheOnly (s u : State) : Prop :=
  u = { s with cores := u.cores, dies := u.dies, llc := u.llc, pages := u.pages, leases := u.leases, drawn := u.drawn }

theorem CacheOnly.refl (s : State) : CacheOnly s s := rfl

theorem CacheOnly.trans {s u v : State} (h : CacheOnly s u) (h' : CacheOnly u v) : CacheOnly s v := by
  unfold CacheOnly at *
  rw [h', h]

/-- The same, with timestamps of threads. -/
def CacheAndTime (s u : State) : Prop :=
  u = { s with threads := u.threads, cores := u.cores, dies := u.dies, llc := u.llc, pages := u.pages, leases := u.leases, drawn := u.drawn }
    ∧ ∀ id, ∃ f : Thread → BitVec 48, u.thread id = (s.thread id).map fun x => { x with ts := f x }

theorem CacheAndTime.refl (s : State) : CacheAndTime s s :=
  ⟨rfl, fun id => ⟨Thread.ts, by cases s.thread id <;> rfl⟩⟩

theorem CacheAndTime.trans {s u v : State} (h : CacheAndTime s u) (h' : CacheAndTime u v) : CacheAndTime s v := by
  refine ⟨by rw [h'.1, h.1], fun id => ?_⟩
  obtain ⟨f, hf⟩ := h.2 id
  obtain ⟨k, hk⟩ := h'.2 id
  exact ⟨fun x => k { x with ts := f x }, by rw [hk, hf, Option.map_map]; rfl⟩

theorem CacheOnly.timed {s u : State} (h : CacheOnly s u) : CacheAndTime s u := by
  unfold CacheOnly at h
  refine ⟨by rw [h], fun id => ⟨Thread.ts, ?_⟩⟩
  have : u.thread id = s.thread id := by rw [h]; rfl
  rw [this]
  cases s.thread id <;> rfl

theorem CacheAndTime.mem {s u : State} (h : CacheAndTime s u) : u.mem = s.mem := by rw [h.1]

theorem countOne_cores (s : State) (c : CoreId) (n k : Nat) (who : Name) :
    s.countOne c n k who = { s with cores := (s.countOne c n k who).cores } := rfl

theorem count_cores (s : State) (c : CoreId) (code k : Nat) (who : Name) (gate : Bool) :
    s.count c code k who gate = { s with cores := (s.count c code k who gate).cores } := by
  unfold State.count
  generalize List.range 4 = l
  induction l generalizing s with
  | nil => rfl
  | cons n l ih =>
    rw [List.foldl_cons]
    split
    · rw [ih (s.countOne c n k who), countOne_cores s]
    · exact ih s

theorem count_cacheOnly (s : State) (c : CoreId) (code k : Nat) (who : Name) (gate : Bool) :
    CacheOnly s (s.count c code k who gate) := by
  unfold CacheOnly
  rw [count_cores]

theorem KeptOnly.cacheOnly {s u : State} (h : KeptOnly s u) : CacheOnly s u := by
  unfold CacheOnly
  rw [h.1]

theorem CacheOnly.setDie (s : State) (d : Nat) (x : Die) : CacheOnly s (s.setDie d x) := rfl
theorem CacheOnly.setCore (s : State) (c : CoreId) (x : Core) : CacheOnly s (s.setCore c x) := rfl

theorem tally_cacheOnly (s : State) (a : Asker) (code : Nat) : CacheOnly s (s.tally a code) := by
  unfold State.tally
  split
  · exact count_cacheOnly _ _ _ _ _ _
  · exact CacheOnly.refl s

theorem putL2_cacheOnly (s : State) (die : Nat) (a : Asker) (new : CacheLine) : CacheOnly s (s.putL2 die a new) := by
  unfold State.putL2
  dsimp only
  split
  · split
    · exact (CacheOnly.setDie _ _ _).trans (writeBack_keptOnly _ _).cacheOnly
    · exact CacheOnly.setDie _ _ _
  · split
    · exact CacheOnly.refl s
    · exact tally_cacheOnly _ _ _

/-- A request at the home changes caches and counts alone (R224, R225). -/
theorem useHome_cacheOnly (s : State) (a : Asker) (pa : Nat) (u : CacheUse) (cls : Option Nat) (w : Bool) :
    CacheOnly s (s.useHome a pa u cls w) := by
  unfold State.useHome
  dsimp only
  split
  · split
    · exact CacheOnly.setDie _ _ _
    · exact ((CacheOnly.setDie _ _ _).trans (tally_cacheOnly _ _ _)).trans (putLlc_keptOnly _ _ _ _).cacheOnly
  · exact ((tally_cacheOnly _ _ _).trans (putLlc_keptOnly _ _ _ _).cacheOnly).trans (putL2_cacheOnly _ _ _ _)

theorem useRemote_cacheOnly (s : State) (die : Nat) (a : Asker) (pa : Nat) (u : CacheUse) (cls : Option Nat) (copy : Copy) :
    CacheOnly s (s.useRemote die a pa u cls copy) := by
  unfold State.useRemote
  dsimp only
  have h : CacheOnly s (if (findSector (s.die die).l2 pa).isSome = true then s else s.tally a 0x07) := by
    split
    · exact CacheOnly.refl s
    · exact tally_cacheOnly _ _ _
  split
  · exact h.trans (CacheOnly.setDie _ _ _)
  · exact h.trans (putL2_cacheOnly _ _ _ _)

theorem countPage_cacheOnly (s : State) (d pa : Nat) (w : Bool) : CacheOnly s (s.countPage d pa w) := by
  unfold State.countPage
  split
  · exact CacheOnly.refl s
  · rfl

theorem readAt_cacheOnly (s : State) (pa : Nat) (ts : BitVec 48) : CacheOnly s (s.readAt pa ts) := rfl

theorem dropLapsed_cacheOnly (s : State) (c : CoreId) (pa : Nat) : CacheOnly s (s.dropLapsed c pa) := by
  unfold State.dropLapsed
  split
  · split
    · exact CacheOnly.setDie _ _ _
    · exact CacheOnly.refl s
  · exact CacheOnly.refl s

theorem fetchCopy_cacheOnly (s : State) (a : Asker) (pa : Nat) (u : CacheUse) (cls : Option Nat) (ts : BitVec 48) (lw : Nat) (held r : Bool) :
    CacheOnly s (s.fetchCopy a pa u cls ts lw held r).2 := by
  unfold State.fetchCopy
  dsimp only
  split
  · exact CacheOnly.setDie _ _ _
  · have h := dropLapsed_cacheOnly s a.core pa
    split
    · exact h
    · have ht : ∀ b : Bool, CacheOnly s (if b = true then (s.dropLapsed a.core pa).tally a 0x09 else s.dropLapsed a.core pa) := by
        intro b
        split
        · exact h.trans (tally_cacheOnly _ _ _)
        · exact h
      have h2 : ∀ b : Bool, CacheOnly s (((if b = true then (s.dropLapsed a.core pa).tally a 0x09 else s.dropLapsed a.core pa).countPage
          a.core.die pa false).grant a pa ts).2 := fun b =>
        ((ht b).trans (countPage_cacheOnly _ _ _ _)).trans rfl
      have h2 := h2 (held || (s.nearCopy a.core.die pa).isSome)
      have h3 := h2.trans (useHome_cacheOnly _ a pa u cls false)
      dsimp only
      generalize (if (held || (s.nearCopy a.core.die pa).isSome) = true then (s.dropLapsed a.core pa).tally a 0x09
        else s.dropLapsed a.core pa) = v at h3 ⊢
      split
      · exact h3.trans (useRemote_cacheOnly _ _ _ _ _ _ _)
      · exact h3

theorem fillL1_cacheOnly (s : State) (a : Asker) (pa : Nat) (u : CacheUse) (cls : Option Nat) (copy : Copy) :
    CacheOnly s (s.fillL1 a pa u cls copy) := by
  unfold State.fillL1
  dsimp only
  split
  · exact CacheOnly.setCore _ _ _
  · split
    · exact CacheOnly.setCore _ _ _
    · exact CacheOnly.refl s

theorem storeL1_cacheOnly (s : State) (c : CoreId) (pa : Nat) (u : CacheUse) (w ts : BitVec 48) : CacheOnly s (s.storeL1 c pa u w ts) := by
  unfold State.storeL1
  split
  · exact CacheOnly.setCore _ _ _
  · exact CacheOnly.setCore _ _ _
  · exact CacheOnly.refl s

/-- A copy found or fetched for a thread changes caches and counts alone (R225, R245). -/
theorem copyFor_cacheOnly (s : State) (a : Asker) (x : Thread) (pa : Nat) (u : CacheUse) (cls : Option Nat) (r : Bool) :
    CacheOnly s (s.copyFor a x pa u cls r).2 := by
  unfold State.copyFor
  dsimp only
  split
  · exact CacheOnly.setCore _ _ _
  · have h : ∀ b : Bool, CacheOnly s (((s.tally a 0x06).fetchCopy a pa u cls x.ts (max x.lastWrite (s.gaveAt pa)) b r).2) :=
      fun b => (tally_cacheOnly _ _ _).trans (fetchCopy_cacheOnly _ _ _ _ _ _ _ _ _)
    have h := h (copyIn (s.core a.core).l1 pa).isSome
    split <;> rename_i hq <;> rw [hq] at h
    · exact h.trans (fillL1_cacheOnly _ _ _ _ _ _)
    · exact h

theorem raise_timed (s : State) (t : ThreadId) (ts : BitVec 48) : CacheAndTime s (s.raise t ts) := by
  refine ⟨rfl, fun id => ?_⟩
  unfold State.raise
  rw [State.alterThread_thread]
  by_cases h : id = t
  · subst h
    exact ⟨fun x => tsMax x.ts ts, by simp⟩
  · exact ⟨Thread.ts, by simp only [h, if_false]; cases s.thread id <;> rfl⟩

theorem loadCached_timed (s : State) (t : ThreadId) (va : VAddr) (pa : Nat) (u : CacheUse) (cls : Option Nat) (r : Bool) :
    CacheAndTime s (s.loadCached t va pa u cls r).2 := by
  unfold State.loadCached
  split
  · exact CacheAndTime.refl s
  · rename_i x _
    have h := (copyFor_cacheOnly s (s.asker t va) x pa u cls r).timed
    split <;> rename_i hq <;> rw [hq] at h
    · exact h.trans (raise_timed _ _ _)
    · exact h

/-! Fetching and targets -/

/-- A fetch changes caches and its thread's time alone (R69, R370). -/
theorem fetchWord_timed {s u : State} {t : ThreadId} {va : VAddr} {f : Fetched} (h : s.fetchWord t va = .got f u) : CacheAndTime s u := by
  unfold State.fetchWord State.fetchAt at h
  have hk := (translate_keptOnly s (s.coreOf t).die (s.cnOf t) needFetch va).cacheOnly.timed
  rcases hq : s.translate (s.coreOf t).die (s.cnOf t) needFetch va with ⟨r, v⟩
  rw [hq] at hk
  simp only [hq] at h
  match r with
  | .ok (.hbm pa) =>
    have hc := hk.trans (loadCached_timed v t va pa (.normal 2) (v.classFor t va) false)
    rcases hl : v.loadCached t va pa (.normal 2) (v.classFor t va) false with ⟨_ | _, w⟩ <;>
      simp only [hl] at h hc <;> cases h <;> exact hc
  | .ok (.window _ _) => cases h; exact hk
  | .ok (.failed _) => cases h; exact hk
  | .cause _ => cases h; exact hk
  | .closed => cases h

/-- The checks of a target that pass change caches and its thread's time alone (R51, R68). -/
theorem checkTarget_timed {s u : State} {t : ThreadId} {va : VAddr} (h : s.checkTarget t va = .ok u) : CacheAndTime s u := by
  unfold State.checkTarget at h
  split at h
  · cases h
  · split at h
    · cases h
    · cases h
    · rename_i hf
      split at h
      · cases h; exact fetchWord_timed hf
      · cases h

theorem CacheAndTime.nextAt {s u : State} (h : CacheAndTime s u) (t : ThreadId) : u.nextAt t = s.nextAt t := by
  have hg : ∀ n, u.group n = s.group n := fun n => by unfold State.group; rw [h.1]
  obtain ⟨f, hf⟩ := h.2 t
  unfold State.nextAt State.groupOf
  rw [hf]
  cases s.thread t <;> simp [hg]

/-- A prefetch that executes changes caches alone (R240). -/
theorem prefetch_cacheOnly {s v : State} {t : ThreadId} {va : VAddr} {u : CacheUse} (hp : s.prefetch t va u = .done v) : CacheOnly s v := by
  have h := (translate_keptOnly s (s.coreOf t).die (s.cnOf t) needRead va).cacheOnly
  unfold State.prefetch at hp
  rcases hq : s.translate (s.coreOf t).die (s.cnOf t) needRead va with ⟨r, w⟩
  rw [hq] at h hp
  match r, hx : s.thread t with
  | .ok (.hbm pa), some x => rw [hx] at hp; cases hp; exact h.trans (copyFor_cacheOnly _ _ _ _ _ _ _)
  | .ok (.hbm pa), none => rw [hx] at hp; cases hp; exact h
  | .ok (.window _ _), _ => cases hp; exact h
  | .ok (.failed _), _ => cases hp; exact h
  | .cause _, _ => cases hp; exact h
  | .closed, _ => cases hp

/-- A prefetch executes, but in a closed range, where it waits (R240, R353). -/
theorem prefetch_done_or_wait (s : State) (t : ThreadId) (va : VAddr) (u : CacheUse) :
    (∃ v, s.prefetch t va u = .done v)
      ∨ ∃ v, s.translate (s.coreOf t).die (s.cnOf t) needRead va = (.closed, v) ∧ s.prefetch t va u = .wait (v.closedHold t va) v := by
  unfold State.prefetch
  rcases s.translate (s.coreOf t).die (s.cnOf t) needRead va with ⟨r, w⟩
  match r, s.thread t with
  | .ok (.hbm pa), some x => exact .inl ⟨_, rfl⟩
  | .ok (.hbm pa), none => exact .inl ⟨_, rfl⟩
  | .ok (.window _ _), _ => exact .inl ⟨_, rfl⟩
  | .ok (.failed _), _ => exact .inl ⟨_, rfl⟩
  | .cause _, _ => exact .inl ⟨_, rfl⟩
  | .closed, _ => exact .inr ⟨_, rfl, rfl⟩

/-! Loads -/

theorem alterThread_timed (s : State) (t : ThreadId) (f : Thread → Thread) (p : Thread → BitVec 48)
    (hf : ∀ x, f x = { x with ts := p x }) : CacheAndTime s (s.alterThread t f) := by
  refine ⟨rfl, fun id => ?_⟩
  rw [State.alterThread_thread]
  by_cases h : id = t
  · subst h
    exact ⟨p, by simp only [if_true]; congr 1; funext x; exact hf x⟩
  · exact ⟨Thread.ts, by simp only [h, if_false]; cases s.thread id <;> rfl⟩

theorem fenceHere_mem (s : State) (t : ThreadId) : (s.fenceHere t).mem = s.mem := rfl

theorem loadHome_mem (s : State) (t : ThreadId) (va : VAddr) (pa : Nat) : (s.loadHome t va pa).mem = s.mem := by
  unfold State.loadHome
  dsimp only
  show (State.useHome _ _ _ _ _ _).mem = _
  rw [(useHome_cacheOnly _ _ _ _ _ _).timed.mem, (countPage_cacheOnly _ _ _ _).timed.mem]

/-- The bytes that a load of a thread reads, and the fence point of a .vol access, change no memory (R238, R239). -/
theorem loadBytes_mem (s : State) (t : ThreadId) (va : VAddr) (pa n : Nat) (u : Option CacheUse) :
    (s.loadBytes t va pa n u).2.2.mem = s.mem := by
  unfold State.loadBytes
  dsimp only
  split
  · rename_i u
    have h := (loadCached_timed s.place t va pa u (s.place.classFor t va) false).mem
    split <;> rename_i hq <;> rw [hq] at h <;> exact h
  · split
    · rfl
    · exact loadHome_mem _ _ _ _

/-! Stores -/

theorem putByte_byte (s : State) (pa a : Nat) (b : Byte) :
    (s.putByte pa b).byte a = if a = pa then b else s.byte a :=
  Sparse.get_set s.mem pa b a

theorem putByte_wf {s : State} (h : Memory.wf s.mem = true) (pa : Nat) (b : Byte) :
    Memory.wf (s.putByte pa b).mem = true :=
  Sparse.wf_set pa b h

theorem putBytes_mem (bs : List Byte) : ∀ (s : State) (pa : Nat), (s.putBytes pa bs).mem = s.mem.setList pa bs := by
  induction bs with
  | nil => exact fun _ _ => rfl
  | cons b bs ih => exact fun s pa => ih (s.putByte pa b) (pa + 1)

theorem putBytes_wf (bs : List Byte) {s : State} (pa : Nat) (h : Memory.wf s.mem = true) :
    Memory.wf (s.putBytes pa bs).mem = true := by
  rw [putBytes_mem]
  exact Sparse.wf_setList bs pa h

/-- Consecutive bytes written: the bytes themselves, and every other byte as before. -/
theorem putBytes_byte (bs : List Byte) (s : State) (pa a : Nat) :
    (s.putBytes pa bs).byte a = if pa ≤ a ∧ a < pa + bs.length then bs.getD (a - pa) 0 else s.byte a := by
  unfold State.byte
  rw [putBytes_mem]
  exact Sparse.get_setList bs s.mem pa a

/-- What the trace units write keeps the canonical form (R388). -/
theorem rawBytes_wf {s : State} (h : Memory.wf s.mem = true) (pa : Nat) (bs : List Byte) :
    Memory.wf (s.rawBytes pa bs).mem = true :=
  Sparse.wf_setList bs pa h

/-- A copied range keeps the canonical form (R391). -/
theorem copyRange_wf {m : Sparse 8} (src dst n : Nat) (h : m.wf = true) : (Sparse.copyRange m src dst n).wf = true := by
  unfold Sparse.copyRange
  have : ∀ (l : List (Nat × BitVec 8)) (x : Sparse 8), x.wf = true →
      (l.foldl (fun (x : Sparse 8) e => x.set (dst + (e.1 - src)) e.2) x).wf = true := by
    intro l
    induction l with
    | nil => exact fun _ h => h
    | cons e l ih => exact fun x hx => ih _ (Sparse.wf_set _ _ hx)
  exact this _ _ (Sparse.wf_clear dst n h)

/-- The capture of a page keeps the canonical form (R391). -/
theorem capture_wf {s : State} (h : Memory.wf s.mem = true) (lid pa : Nat) : Memory.wf (s.capture lid pa).mem = true := by
  unfold State.capture
  split
  · exact h
  · dsimp only
    repeat' split
    all_goals first | exact h | exact copyRange_wf _ _ _ h

theorem capture_none {s : State} (hr : s.replay = none) (lid pa : Nat) : s.capture lid pa = s := by
  unfold State.capture
  simp [hr]

theorem capture_replay {s : State} (hr : s.replay = none) (lid pa : Nat) : (s.capture lid pa).replay = none := by
  rw [capture_none hr]; exact hr

theorem putBytes_replay (bs : List Byte) : ∀ (s : State) (pa : Nat), (s.putBytes pa bs).replay = s.replay := by
  induction bs with
  | nil => exact fun _ _ => rfl
  | cons b bs ih => exact fun s pa => ih (s.putByte pa b) (pa + 1)

/-- Bytes written at their home: what becomes of memory is what writing the bytes makes of it (R245). -/
theorem homeBytes_mem (s : State) (pa : Nat) (bs : List Byte) : (s.homeBytes pa bs).mem = s.mem.setList pa bs := by
  unfold State.homeBytes
  dsimp only
  rw [putBytes_mem]

theorem homeBytes_wf {s : State} (h : Memory.wf s.mem = true) (pa : Nat) (bs : List Byte) :
    Memory.wf (s.homeBytes pa bs).mem = true := by
  rw [homeBytes_mem]
  exact Sparse.wf_setList bs pa h

theorem homeBytes_byte (s : State) (pa : Nat) (bs : List Byte) (a : Nat) :
    (s.homeBytes pa bs).byte a = if pa ≤ a ∧ a < pa + bs.length then bs.getD (a - pa) 0 else s.byte a := by
  unfold State.byte
  rw [homeBytes_mem]
  exact Sparse.get_setList bs s.mem pa a

/-- A state whose memory differs from another's in canonical form and, outside a replay session, at one byte alone. -/
def TouchesAt (pa : Nat) (s u : State) : Prop :=
  (Memory.wf s.mem = true → Memory.wf u.mem = true)
    ∧ (s.replay = none → u.replay = none ∧ ∀ a, a ≠ pa → u.byte a = s.byte a)

theorem TouchesAt.refl (pa : Nat) (s : State) : TouchesAt pa s s := ⟨id, fun h => ⟨h, fun _ _ => rfl⟩⟩

theorem TouchesAt.trans {pa : Nat} {s u v : State} (h : TouchesAt pa s u) (h' : TouchesAt pa u v) : TouchesAt pa s v :=
  ⟨fun w => h'.1 (h.1 w), fun r => ⟨(h'.2 (h.2 r).1).1, fun a ha => ((h'.2 (h.2 r).1).2 a ha).trans ((h.2 r).2 a ha)⟩⟩

theorem TouchesAt.commands (pa : Nat) (s : State) (c : Table Nat Command) : TouchesAt pa s { s with commands := c } :=
  ⟨id, fun h => ⟨h, fun _ _ => rfl⟩⟩

theorem performWrite_touches (s : State) (x : Command) (w : EngineWrite) : TouchesAt w.pa s (s.performWrite x w) := by
  have hm : (s.performWrite x w).mem = ((s.capture (s.nameOf x.t).lid w.pa).homeBytes w.pa [w.byte]).mem := by
    rfl
  have hq : (s.performWrite x w).replay = ((s.capture (s.nameOf x.t).lid w.pa).homeBytes w.pa [w.byte]).replay := by
    rfl
  refine ⟨fun h => ?_, fun hr => ⟨?_, fun a ha => ?_⟩⟩
  · rw [hm]; exact homeBytes_wf (capture_wf h _ _) _ _
  · rw [hq, capture_none hr]
    exact (putBytes_replay _ _ _).trans hr
  · have : (s.performWrite x w).byte a = ((s.capture (s.nameOf x.t).lid w.pa).homeBytes w.pa [w.byte]).byte a := by
      unfold State.byte; rw [hm]
    rw [this, capture_none hr, homeBytes_byte, if_neg (by simp; omega)]

theorem mem_insertLanding (e f : Command × EngineWrite) : ∀ l, f ∈ insertLanding e l → f = e ∨ f ∈ l := by
  intro l
  induction l with
  | nil => intro h; simpa [insertLanding] using h
  | cons x l ih =>
    intro h
    unfold insertLanding at h
    split at h
    · simpa using h
    · rcases List.mem_cons.mp h with rfl | h
      · simp
      · rcases ih h with h | h <;> simp [h]

theorem mem_sortedLandings (f : Command × EngineWrite) (l : List (Command × EngineWrite)) :
    f ∈ l.foldr insertLanding [] → f ∈ l := by
  induction l with
  | nil => exact id
  | cons e l ih =>
    intro h
    rcases mem_insertLanding e f _ h with rfl | h
    · simp
    · simp [ih h]

theorem foldl_performWrite_touches (pa : Nat) (l : List (Command × EngineWrite)) (hl : ∀ e ∈ l, e.2.pa = pa) :
    ∀ s : State, TouchesAt pa s (l.foldl (fun s e => s.performWrite e.1 e.2) s) := by
  induction l with
  | nil => exact TouchesAt.refl pa
  | cons e l ih =>
    intro s
    have h := performWrite_touches s e.1 e.2
    rw [hl e (by simp)] at h
    exact h.trans (ih (fun f hf => hl f (by simp [hf])) _)

theorem settleByte_touches (s : State) (pa : Nat) : TouchesAt pa s (s.settleByte pa) := by
  unfold State.settleByte
  dsimp only
  split
  · exact TouchesAt.refl pa s
  · refine (TouchesAt.commands pa s _).trans (foldl_performWrite_touches pa _ ?_ _)
    intro e he
    have he := mem_sortedLandings e _ he
    simp only [List.mem_flatMap, List.mem_map, List.mem_filter, Bool.and_eq_true, beq_iff_eq] at he
    obtain ⟨_, _, w, ⟨_, hw, _⟩, rfl⟩ := he
    exact hw

theorem settleRange_keeps (pa : Nat) (l : List Nat) : ∀ (s : State),
    (Memory.wf s.mem = true → Memory.wf (l.foldl (fun (s : State) k => s.settleByte (pa + k)) s).mem = true)
    ∧ (s.replay = none → (l.foldl (fun (s : State) k => s.settleByte (pa + k)) s).replay = none
      ∧ ∀ a, (∀ k ∈ l, a ≠ pa + k) → (l.foldl (fun (s : State) k => s.settleByte (pa + k)) s).byte a = s.byte a) := by
  induction l with
  | nil => exact fun _ => ⟨id, fun h => ⟨h, fun _ _ => rfl⟩⟩
  | cons k l ih =>
    intro s
    have hs := settleByte_touches s (pa + k)
    obtain ⟨h1, h2⟩ := ih (s.settleByte (pa + k))
    refine ⟨fun h => h1 (hs.1 h), fun hr => ?_⟩
    obtain ⟨h3, h4⟩ := hs.2 hr
    obtain ⟨h5, h6⟩ := h2 h3
    exact ⟨h5, fun a ha => by rw [List.foldl_cons, h6 a fun j hj => ha j (by simp [hj]), h4 a (ha k (by simp))]⟩

/-- Settling keeps the canonical form, and outside a replay session every byte but those settled (R253). -/
theorem settle_keeps (s : State) (pa n : Nat) :
    (Memory.wf s.mem = true → Memory.wf (s.settle pa n).mem = true)
    ∧ (s.replay = none → (s.settle pa n).replay = none ∧ ∀ a, ¬ (pa ≤ a ∧ a < pa + n) → (s.settle pa n).byte a = s.byte a) := by
  obtain ⟨h1, h2⟩ := settleRange_keeps pa (List.range n) s
  refine ⟨h1, fun hr => ⟨(h2 hr).1, fun a ha => (h2 hr).2 a fun k hk => ?_⟩⟩
  have := List.mem_range.mp hk
  omega

/-- The home side of a write changes no memory (R245). -/
theorem homeWrite_mem (s : State) (t : ThreadId) (va : VAddr) (pa : Nat) (u : CacheUse) :
    (s.homeWrite t va pa u).mem = s.mem := by
  unfold State.homeWrite
  split
  · rfl
  · dsimp only
    show (State.storeL1 _ _ _ _ _ _).mem = _
    rw [(storeL1_cacheOnly _ _ _ _ _ _).timed.mem, (useHome_cacheOnly _ _ _ _ _ _).timed.mem,
      (countPage_cacheOnly _ _ _ _).timed.mem]

/-- A write of a thread keeps the canonical form of memory. -/
theorem writeHere_wf {s : State} (h : Memory.wf s.mem = true) (t : ThreadId) (va : VAddr) (pa : Nat) (bs : List Byte)
    (u : CacheUse) : Memory.wf (s.writeHere t va pa bs u).mem = true := by
  refine putBytes_wf bs pa ?_
  rw [homeWrite_mem]
  exact capture_wf h _ _

/-- A write of a thread outside a replay session: its bytes in order, and every other byte as before (R238, R244). -/
theorem writeHere_byte {s : State} (hr : s.replay = none) (t : ThreadId) (va : VAddr)
    (pa : Nat) (bs : List Byte) (u : CacheUse) (a : Nat) :
    (s.writeHere t va pa bs u).byte a = if pa ≤ a ∧ a < pa + bs.length then bs.getD (a - pa) 0 else s.byte a := by
  unfold State.writeHere
  rw [putBytes_byte]
  by_cases ha : pa ≤ a ∧ a < pa + bs.length
  · rw [if_pos ha, if_pos ha]
  · rw [if_neg ha, if_neg ha, capture_none hr]
    unfold State.byte
    rw [homeWrite_mem]

/-- A store keeps the canonical form of memory. -/
theorem storeBytes_wf {s : State} (h : Memory.wf s.mem = true) (t : ThreadId) (va : VAddr) (pa : Nat) (bs : List Byte)
    (u : CacheUse) : Memory.wf (s.storeBytes t va pa bs u).mem = true :=
  writeHere_wf ((settle_keeps s.place pa bs.length).1 h) _ _ _ _ _

/-- A store of a thread outside a replay session: its bytes in order, and every other byte as before (R238, R244). -/
theorem storeBytes_byte {s : State} (hr : s.replay = none) (t : ThreadId) (va : VAddr)
    (pa : Nat) (bs : List Byte) (u : CacheUse) (a : Nat) :
    (s.storeBytes t va pa bs u).byte a = if pa ≤ a ∧ a < pa + bs.length then bs.getD (a - pa) 0 else s.byte a := by
  obtain ⟨h1, h2⟩ := (settle_keeps s.place pa bs.length).2 hr
  refine (writeHere_byte h1 t va pa bs u a).trans ?_
  by_cases ha : pa ≤ a ∧ a < pa + bs.length
  · rw [if_pos ha, if_pos ha]
  · rw [if_neg ha, if_neg ha]
    exact h2 a ha

end Sys2Proof.Machine
end

