-- ==== Sys2Proof/Laws/PerInstr.lean ====
section
/-! SUPPORT. The round trip of every row of the opcode table: the word that the encoder writes for a well-formed instruction is decoded by the LV3 table to that instruction. The rows that are events have no word. -/

namespace Sys2Proof.Laws.RoundTrip

/-- What the encoder writes for a well-formed instruction, the LV3 table decodes to it. -/
def Statement (i : Instr) : Prop :=
  i.WellFormed = true → ∀ w, encode i = some w → decodeWord .lv3 w = .ok i

/-- A packed word decodes to the instruction that its opcode and format build, when that is well formed. -/
theorem decodeWord_of_build {i : Instr} {op : Nat} {g : Guard} {F : Format} {p : BitVec 48}
    (hop : lv3Mapped op = true) (hlt : op % 1024 = op)
    (hb : build op F (packWord op g F p) = some i) (hwf : i.WellFormed = true) :
    decodeWord .lv3 (packWord op g F p) = .ok i := by
  have hc : i.check = none := Option.isNone_iff_eq_none.mp hwf
  simp [decodeWord, DecodeTable.lookup, hlt, hop, hb, hc]

/-- The round trip of an instruction whose encoding is the pack of its opcode, format and fields. -/
theorem of_build {i : Instr} {op : Nat} {g : Guard} {F : Format} {p : BitVec 48}
    (he : encode i = some (packWord op g F p)) (hop : lv3Mapped op = true) (hlt : op % 1024 = op)
    (hb : build op F (packWord op g F p) = some i) : Statement i := by
  intro hwf w hw
  obtain rfl : packWord op g F p = w := Option.some.inj (he.symm.trans hw)
  exact decodeWord_of_build hop hlt hb hwf

/-- The round trip of a row whose fields are read back whole by its layout. -/
theorem of_layout {α : Type} {mk : α → Instr} {guard : α → Guard} {payload : α → BitVec 48} {unpack : DWord → α}
    {op : Nat} {F : Format} (hu : ∀ f, unpack (packWord op (guard f) F (payload f)) = f)
    (he : ∀ f, encode (mk f) = some (packWord op (guard f) F (payload f)))
    (hop : lv3Mapped op = true) (hlt : op % 1024 = op)
    (hb : ∀ w, build op F w = some (mk (unpack w))) (f : α) : Statement (mk f) :=
  of_build (he f) hop hlt (by rw [hb, hu])

/-- The round trip of a row that has no word. -/
theorem of_event {i : Instr} (he : encode i = none) : Statement i := by
  intro _ w hw
  rw [he] at hw
  cases hw

theorem iadd (f : RF) : Statement (.iadd f) :=
  of_layout (unpackR_packWord 0x000 .r) (fun _ => rfl) rfl rfl (fun _ => rfl) f

theorem iaddI (f : IF) : Statement (.iaddI f) :=
  of_layout (unpackI_packWord 0x000 .i) (fun _ => rfl) rfl rfl (fun _ => rfl) f

theorem isub (f : RF) : Statement (.isub f) :=
  of_layout (unpackR_packWord 0x001 .r) (fun _ => rfl) rfl rfl (fun _ => rfl) f

theorem isubI (f : IF) : Statement (.isubI f) :=
  of_layout (unpackI_packWord 0x001 .i) (fun _ => rfl) rfl rfl (fun _ => rfl) f

theorem imul (f : RF) : Statement (.imul f) :=
  of_layout (unpackR_packWord 0x002 .r) (fun _ => rfl) rfl rfl (fun _ => rfl) f

theorem imulI (f : IF) : Statement (.imulI f) :=
  of_layout (unpackI_packWord 0x002 .i) (fun _ => rfl) rfl rfl (fun _ => rfl) f

theorem imulh (f : RF) : Statement (.imulh f) :=
  of_layout (unpackR_packWord 0x003 .r) (fun _ => rfl) rfl rfl (fun _ => rfl) f

theorem imulhI (f : IF) : Statement (.imulhI f) :=
  of_layout (unpackI_packWord 0x003 .i) (fun _ => rfl) rfl rfl (fun _ => rfl) f

theorem imad (f : RF) : Statement (.imad f) :=
  of_layout (unpackR_packWord 0x004 .r) (fun _ => rfl) rfl rfl (fun _ => rfl) f

theorem idiv (f : RF) : Statement (.idiv f) :=
  of_layout (unpackR_packWord 0x005 .r) (fun _ => rfl) rfl rfl (fun _ => rfl) f

theorem idivI (f : IF) : Statement (.idivI f) :=
  of_layout (unpackI_packWord 0x005 .i) (fun _ => rfl) rfl rfl (fun _ => rfl) f

theorem irem (f : RF) : Statement (.irem f) :=
  of_layout (unpackR_packWord 0x006 .r) (fun _ => rfl) rfl rfl (fun _ => rfl) f

theorem iremI (f : IF) : Statement (.iremI f) :=
  of_layout (unpackI_packWord 0x006 .i) (fun _ => rfl) rfl rfl (fun _ => rfl) f

theorem iabs (f : RF) : Statement (.iabs f) :=
  of_layout (unpackR_packWord 0x007 .r) (fun _ => rfl) rfl rfl (fun _ => rfl) f

theorem ineg (f : RF) : Statement (.ineg f) :=
  of_layout (unpackR_packWord 0x008 .r) (fun _ => rfl) rfl rfl (fun _ => rfl) f

theorem imin (f : RF) : Statement (.imin f) :=
  of_layout (unpackR_packWord 0x009 .r) (fun _ => rfl) rfl rfl (fun _ => rfl) f

theorem iminI (f : IF) : Statement (.iminI f) :=
  of_layout (unpackI_packWord 0x009 .i) (fun _ => rfl) rfl rfl (fun _ => rfl) f

theorem imax (f : RF) : Statement (.imax f) :=
  of_layout (unpackR_packWord 0x00A .r) (fun _ => rfl) rfl rfl (fun _ => rfl) f

theorem imaxI (f : IF) : Statement (.imaxI f) :=
  of_layout (unpackI_packWord 0x00A .i) (fun _ => rfl) rfl rfl (fun _ => rfl) f

theorem and (f : RF) : Statement (.and f) :=
  of_layout (unpackR_packWord 0x00B .r) (fun _ => rfl) rfl rfl (fun _ => rfl) f

theorem andI (f : IF) : Statement (.andI f) :=
  of_layout (unpackI_packWord 0x00B .i) (fun _ => rfl) rfl rfl (fun _ => rfl) f

theorem or (f : RF) : Statement (.or f) :=
  of_layout (unpackR_packWord 0x00C .r) (fun _ => rfl) rfl rfl (fun _ => rfl) f

theorem orI (f : IF) : Statement (.orI f) :=
  of_layout (unpackI_packWord 0x00C .i) (fun _ => rfl) rfl rfl (fun _ => rfl) f

theorem xor (f : RF) : Statement (.xor f) :=
  of_layout (unpackR_packWord 0x00D .r) (fun _ => rfl) rfl rfl (fun _ => rfl) f

theorem xorI (f : IF) : Statement (.xorI f) :=
  of_layout (unpackI_packWord 0x00D .i) (fun _ => rfl) rfl rfl (fun _ => rfl) f

theorem andn (f : RF) : Statement (.andn f) :=
  of_layout (unpackR_packWord 0x00E .r) (fun _ => rfl) rfl rfl (fun _ => rfl) f

theorem andnI (f : IF) : Statement (.andnI f) :=
  of_layout (unpackI_packWord 0x00E .i) (fun _ => rfl) rfl rfl (fun _ => rfl) f

theorem not (f : RF) : Statement (.not f) :=
  of_layout (unpackR_packWord 0x00F .r) (fun _ => rfl) rfl rfl (fun _ => rfl) f

theorem shl (f : RF) : Statement (.shl f) :=
  of_layout (unpackR_packWord 0x010 .r) (fun _ => rfl) rfl rfl (fun _ => rfl) f

theorem shlI (f : IF) : Statement (.shlI f) :=
  of_layout (unpackI_packWord 0x010 .i) (fun _ => rfl) rfl rfl (fun _ => rfl) f

theorem shr (f : RF) : Statement (.shr f) :=
  of_layout (unpackR_packWord 0x011 .r) (fun _ => rfl) rfl rfl (fun _ => rfl) f

theorem shrI (f : IF) : Statement (.shrI f) :=
  of_layout (unpackI_packWord 0x011 .i) (fun _ => rfl) rfl rfl (fun _ => rfl) f

theorem sar (f : RF) : Statement (.sar f) :=
  of_layout (unpackR_packWord 0x012 .r) (fun _ => rfl) rfl rfl (fun _ => rfl) f

theorem sarI (f : IF) : Statement (.sarI f) :=
  of_layout (unpackI_packWord 0x012 .i) (fun _ => rfl) rfl rfl (fun _ => rfl) f

theorem rotl (f : RF) : Statement (.rotl f) :=
  of_layout (unpackR_packWord 0x013 .r) (fun _ => rfl) rfl rfl (fun _ => rfl) f

theorem rotlI (f : IF) : Statement (.rotlI f) :=
  of_layout (unpackI_packWord 0x013 .i) (fun _ => rfl) rfl rfl (fun _ => rfl) f

theorem popc (f : RF) : Statement (.popc f) :=
  of_layout (unpackR_packWord 0x014 .r) (fun _ => rfl) rfl rfl (fun _ => rfl) f

theorem clz (f : RF) : Statement (.clz f) :=
  of_layout (unpackR_packWord 0x015 .r) (fun _ => rfl) rfl rfl (fun _ => rfl) f

theorem ctz (f : RF) : Statement (.ctz f) :=
  of_layout (unpackR_packWord 0x016 .r) (fun _ => rfl) rfl rfl (fun _ => rfl) f

theorem brev (f : RF) : Statement (.brev f) :=
  of_layout (unpackR_packWord 0x017 .r) (fun _ => rfl) rfl rfl (fun _ => rfl) f

theorem bfe (f : RF) : Statement (.bfe f) :=
  of_layout (unpackR_packWord 0x018 .r) (fun _ => rfl) rfl rfl (fun _ => rfl) f

theorem bfi (f : RF) : Statement (.bfi f) :=
  of_layout (unpackR_packWord 0x019 .r) (fun _ => rfl) rfl rfl (fun _ => rfl) f

theorem sel (f : RF) : Statement (.sel f) :=
  of_layout (unpackR_packWord 0x01A .r) (fun _ => rfl) rfl rfl (fun _ => rfl) f

theorem icmp (f : RF) : Statement (.icmp f) :=
  of_layout (unpackR_packWord 0x01B .r) (fun _ => rfl) rfl rfl (fun _ => rfl) f

theorem icmpI (f : IF) : Statement (.icmpI f) :=
  of_layout (unpackI_packWord 0x01B .i) (fun _ => rfl) rfl rfl (fun _ => rfl) f

theorem iaddc (f : RF) : Statement (.iaddc f) :=
  of_layout (unpackR_packWord 0x01C .r) (fun _ => rfl) rfl rfl (fun _ => rfl) f

theorem add64 (f : RF) : Statement (.add64 f) :=
  of_layout (unpackR_packWord 0x01D .r) (fun _ => rfl) rfl rfl (fun _ => rfl) f

theorem sub64 (f : RF) : Statement (.sub64 f) :=
  of_layout (unpackR_packWord 0x01E .r) (fun _ => rfl) rfl rfl (fun _ => rfl) f

theorem lea (f : RF) : Statement (.lea f) :=
  of_layout (unpackR_packWord 0x01F .r) (fun _ => rfl) rfl rfl (fun _ => rfl) f

theorem leaI (f : IF) : Statement (.leaI f) :=
  of_layout (unpackI_packWord 0x01F .i) (fun _ => rfl) rfl rfl (fun _ => rfl) f

theorem lea64 (f : RF) : Statement (.lea64 f) :=
  of_layout (unpackR_packWord 0x020 .r) (fun _ => rfl) rfl rfl (fun _ => rfl) f

theorem fadd (f : RF) : Statement (.fadd f) :=
  of_layout (unpackR_packWord 0x080 .r) (fun _ => rfl) rfl rfl (fun _ => rfl) f

theorem faddI (f : IF) : Statement (.faddI f) :=
  of_layout (unpackI_packWord 0x080 .i) (fun _ => rfl) rfl rfl (fun _ => rfl) f

theorem fsub (f : RF) : Statement (.fsub f) :=
  of_layout (unpackR_packWord 0x081 .r) (fun _ => rfl) rfl rfl (fun _ => rfl) f

theorem fsubI (f : IF) : Statement (.fsubI f) :=
  of_layout (unpackI_packWord 0x081 .i) (fun _ => rfl) rfl rfl (fun _ => rfl) f

theorem fmul (f : RF) : Statement (.fmul f) :=
  of_layout (unpackR_packWord 0x082 .r) (fun _ => rfl) rfl rfl (fun _ => rfl) f

theorem fmulI (f : IF) : Statement (.fmulI f) :=
  of_layout (unpackI_packWord 0x082 .i) (fun _ => rfl) rfl rfl (fun _ => rfl) f

theorem ffma (f : RF) : Statement (.ffma f) :=
  of_layout (unpackR_packWord 0x083 .r) (fun _ => rfl) rfl rfl (fun _ => rfl) f

theorem fmin (f : RF) : Statement (.fmin f) :=
  of_layout (unpackR_packWord 0x084 .r) (fun _ => rfl) rfl rfl (fun _ => rfl) f

theorem fminI (f : IF) : Statement (.fminI f) :=
  of_layout (unpackI_packWord 0x084 .i) (fun _ => rfl) rfl rfl (fun _ => rfl) f

theorem fmax (f : RF) : Statement (.fmax f) :=
  of_layout (unpackR_packWord 0x085 .r) (fun _ => rfl) rfl rfl (fun _ => rfl) f

theorem fmaxI (f : IF) : Statement (.fmaxI f) :=
  of_layout (unpackI_packWord 0x085 .i) (fun _ => rfl) rfl rfl (fun _ => rfl) f

theorem fabs (f : RF) : Statement (.fabs f) :=
  of_layout (unpackR_packWord 0x086 .r) (fun _ => rfl) rfl rfl (fun _ => rfl) f

theorem fneg (f : RF) : Statement (.fneg f) :=
  of_layout (unpackR_packWord 0x087 .r) (fun _ => rfl) rfl rfl (fun _ => rfl) f

theorem fcmp (f : RF) : Statement (.fcmp f) :=
  of_layout (unpackR_packWord 0x088 .r) (fun _ => rfl) rfl rfl (fun _ => rfl) f

theorem fcmpI (f : IF) : Statement (.fcmpI f) :=
  of_layout (unpackI_packWord 0x088 .i) (fun _ => rfl) rfl rfl (fun _ => rfl) f

theorem fclass (f : RF) : Statement (.fclass f) :=
  of_layout (unpackR_packWord 0x089 .r) (fun _ => rfl) rfl rfl (fun _ => rfl) f

theorem frnd (f : RF) : Statement (.frnd f) :=
  of_layout (unpackR_packWord 0x08A .r) (fun _ => rfl) rfl rfl (fun _ => rfl) f

theorem fscale (f : RF) : Statement (.fscale f) :=
  of_layout (unpackR_packWord 0x08B .r) (fun _ => rfl) rfl rfl (fun _ => rfl) f

theorem rcpe (f : RF) : Statement (.rcpe f) :=
  of_layout (unpackR_packWord 0x08C .r) (fun _ => rfl) rfl rfl (fun _ => rfl) f

theorem rsqrte (f : RF) : Statement (.rsqrte f) :=
  of_layout (unpackR_packWord 0x08D .r) (fun _ => rfl) rfl rfl (fun _ => rfl) f

theorem fsqrt (f : RF) : Statement (.fsqrt f) :=
  of_layout (unpackR_packWord 0x08E .r) (fun _ => rfl) rfl rfl (fun _ => rfl) f

theorem exp2e (f : RF) : Statement (.exp2e f) :=
  of_layout (unpackR_packWord 0x08F .r) (fun _ => rfl) rfl rfl (fun _ => rfl) f

theorem log2e (f : RF) : Statement (.log2e f) :=
  of_layout (unpackR_packWord 0x090 .r) (fun _ => rfl) rfl rfl (fun _ => rfl) f

theorem hadd2 (f : RF) : Statement (.hadd2 f) :=
  of_layout (unpackR_packWord 0x091 .r) (fun _ => rfl) rfl rfl (fun _ => rfl) f

theorem hmul2 (f : RF) : Statement (.hmul2 f) :=
  of_layout (unpackR_packWord 0x092 .r) (fun _ => rfl) rfl rfl (fun _ => rfl) f

theorem hfma2 (f : RF) : Statement (.hfma2 f) :=
  of_layout (unpackR_packWord 0x093 .r) (fun _ => rfl) rfl rfl (fun _ => rfl) f

theorem bfadd2 (f : RF) : Statement (.bfadd2 f) :=
  of_layout (unpackR_packWord 0x094 .r) (fun _ => rfl) rfl rfl (fun _ => rfl) f

theorem bfmul2 (f : RF) : Statement (.bfmul2 f) :=
  of_layout (unpackR_packWord 0x095 .r) (fun _ => rfl) rfl rfl (fun _ => rfl) f

theorem bffma2 (f : RF) : Statement (.bffma2 f) :=
  of_layout (unpackR_packWord 0x096 .r) (fun _ => rfl) rfl rfl (fun _ => rfl) f

theorem cvt (f : CvtF) : Statement (.cvt f) :=
  of_layout (unpackCvt_packWord 0x0C0 .r) (fun _ => rfl) rfl rfl (fun _ => rfl) f

theorem pk (f : RF) : Statement (.pk f) :=
  of_layout (unpackR_packWord 0x0C1 .r) (fun _ => rfl) rfl rfl (fun _ => rfl) f

theorem upk (f : RF) : Statement (.upk f) :=
  of_layout (unpackR_packWord 0x0C2 .r) (fun _ => rfl) rfl rfl (fun _ => rfl) f

theorem alnb (f : RF) : Statement (.alnb f) :=
  of_layout (unpackR_packWord 0x0C3 .r) (fun _ => rfl) rfl rfl (fun _ => rfl) f

theorem mov (f : RF) : Statement (.mov f) :=
  of_layout (unpackR_packWord 0x100 .r) (fun _ => rfl) rfl rfl (fun _ => rfl) f

theorem movi (f : IF) : Statement (.movi f) :=
  of_layout (unpackI_packWord 0x101 .i) (fun _ => rfl) rfl rfl (fun _ => rfl) f

theorem movh (f : IF) : Statement (.movh f) :=
  of_layout (unpackI_packWord 0x102 .i) (fun _ => rfl) rfl rfl (fun _ => rfl) f

theorem movc (f : RF) : Statement (.movc f) :=
  of_layout (unpackR_packWord 0x103 .r) (fun _ => rfl) rfl rfl (fun _ => rfl) f

theorem movs (f : RF) : Statement (.movs f) :=
  of_layout (unpackR_packWord 0x104 .r) (fun _ => rfl) rfl rfl (fun _ => rfl) f

theorem pand (f : RF) : Statement (.pand f) :=
  of_layout (unpackR_packWord 0x105 .r) (fun _ => rfl) rfl rfl (fun _ => rfl) f

theorem por (f : RF) : Statement (.por f) :=
  of_layout (unpackR_packWord 0x106 .r) (fun _ => rfl) rfl rfl (fun _ => rfl) f

theorem pxor (f : RF) : Statement (.pxor f) :=
  of_layout (unpackR_packWord 0x107 .r) (fun _ => rfl) rfl rfl (fun _ => rfl) f

theorem pnot (f : RF) : Statement (.pnot f) :=
  of_layout (unpackR_packWord 0x108 .r) (fun _ => rfl) rfl rfl (fun _ => rfl) f

theorem pmov (f : RF) : Statement (.pmov f) :=
  of_layout (unpackR_packWord 0x109 .r) (fun _ => rfl) rfl rfl (fun _ => rfl) f

theorem br (f : BrF) : Statement (.br f) :=
  of_layout (unpackBr_packWord 0x140 .x) (fun _ => rfl) rfl rfl (fun _ => rfl) f

theorem brc (f : BrcF) : Statement (.brc f) :=
  of_layout (unpackBrc_packWord 0x141 .x) (fun _ => rfl) rfl rfl (fun _ => rfl) f

theorem brx (f : RF) : Statement (.brx f) :=
  of_layout (unpackR_packWord 0x142 .r) (fun _ => rfl) rfl rfl (fun _ => rfl) f

theorem call (f : BrF) : Statement (.call f) :=
  of_layout (unpackBr_packWord 0x143 .x) (fun _ => rfl) rfl rfl (fun _ => rfl) f

theorem callx (f : RF) : Statement (.callx f) :=
  of_layout (unpackR_packWord 0x144 .r) (fun _ => rfl) rfl rfl (fun _ => rfl) f

theorem ret (f : RF) : Statement (.ret f) :=
  of_layout (unpackR_packWord 0x145 .r) (fun _ => rfl) rfl rfl (fun _ => rfl) f

theorem exit (f : RF) : Statement (.exit f) :=
  of_layout (unpackR_packWord 0x146 .r) (fun _ => rfl) rfl rfl (fun _ => rfl) f

theorem yield (f : RF) : Statement (.yield f) :=
  of_layout (unpackR_packWord 0x147 .r) (fun _ => rfl) rfl rfl (fun _ => rfl) f

theorem nop (f : RF) : Statement (.nop f) :=
  of_layout (unpackR_packWord 0x148 .r) (fun _ => rfl) rfl rfl (fun _ => rfl) f

theorem shfl (f : RF) : Statement (.shfl f) :=
  of_layout (unpackR_packWord 0x149 .r) (fun _ => rfl) rfl rfl (fun _ => rfl) f

theorem vote (f : RF) : Statement (.vote f) :=
  of_layout (unpackR_packWord 0x14A .r) (fun _ => rfl) rfl rfl (fun _ => rfl) f

theorem gred (f : RF) : Statement (.gred f) :=
  of_layout (unpackR_packWord 0x14B .r) (fun _ => rfl) rfl rfl (fun _ => rfl) f

theorem gsync (f : RF) : Statement (.gsync f) :=
  of_layout (unpackR_packWord 0x14C .r) (fun _ => rfl) rfl rfl (fun _ => rfl) f

theorem ld (f : MF) : Statement (.ld f) :=
  of_layout (unpackM_packWord 0x200 .m) (fun _ => rfl) rfl rfl (fun _ => rfl) f

theorem st (f : MF) : Statement (.st f) :=
  of_layout (unpackM_packWord 0x201 .m) (fun _ => rfl) rfl rfl (fun _ => rfl) f

theorem pf (f : MF) : Statement (.pf f) :=
  of_layout (unpackM_packWord 0x202 .m) (fun _ => rfl) rfl rfl (fun _ => rfl) f

theorem atom (f : MF) : Statement (.atom f) :=
  of_layout (unpackM_packWord 0x203 .m) (fun _ => rfl) rfl rfl (fun _ => rfl) f

theorem red (f : MF) : Statement (.red f) :=
  of_layout (unpackM_packWord 0x204 .m) (fun _ => rfl) rfl rfl (fun _ => rfl) f

theorem fld (f : MF) : Statement (.fld f) :=
  of_layout (unpackM_packWord 0x205 .m) (fun _ => rfl) rfl rfl (fun _ => rfl) f

theorem fst (f : MF) : Statement (.fst f) :=
  of_layout (unpackM_packWord 0x206 .m) (fun _ => rfl) rfl rfl (fun _ => rfl) f

theorem fatom (f : MF) : Statement (.fatom f) :=
  of_layout (unpackM_packWord 0x207 .m) (fun _ => rfl) rfl rfl (fun _ => rfl) f

theorem feset (f : MF) : Statement (.feset f) :=
  of_layout (unpackM_packWord 0x208 .m) (fun _ => rfl) rfl rfl (fun _ => rfl) f

theorem feclr (f : MF) : Statement (.feclr f) :=
  of_layout (unpackM_packWord 0x209 .m) (fun _ => rfl) rfl rfl (fun _ => rfl) f

theorem fetest (f : MF) : Statement (.fetest f) :=
  of_layout (unpackM_packWord 0x20A .m) (fun _ => rfl) rfl rfl (fun _ => rfl) f

theorem kmov (f : KF) : Statement (.kmov f) :=
  of_layout (unpackK_packWord 0x240 .x) (fun _ => rfl) rfl rfl (fun _ => rfl) f

theorem kset (f : KF) : Statement (.kset f) :=
  of_layout (unpackK_packWord 0x241 .x) (fun _ => rfl) rfl rfl (fun _ => rfl) f

theorem kmul (f : KF) : Statement (.kmul f) :=
  of_layout (unpackK_packWord 0x242 .x) (fun _ => rfl) rfl rfl (fun _ => rfl) f

theorem kmax (f : KF) : Statement (.kmax f) :=
  of_layout (unpackK_packWord 0x243 .x) (fun _ => rfl) rfl rfl (fun _ => rfl) f

theorem kmin (f : KF) : Statement (.kmin f) :=
  of_layout (unpackK_packWord 0x244 .x) (fun _ => rfl) rfl rfl (fun _ => rfl) f

theorem krcp (f : KF) : Statement (.krcp f) :=
  of_layout (unpackK_packWord 0x245 .x) (fun _ => rfl) rfl rfl (fun _ => rfl) f

theorem kcvtf (f : KF) : Statement (.kcvtf f) :=
  of_layout (unpackK_packWord 0x246 .x) (fun _ => rfl) rfl rfl (fun _ => rfl) f

theorem kcvtk (f : KF) : Statement (.kcvtk f) :=
  of_layout (unpackK_packWord 0x247 .x) (fun _ => rfl) rfl rfl (fun _ => rfl) f

theorem kbind (f : KF) : Statement (.kbind f) :=
  of_layout (unpackK_packWord 0x248 .x) (fun _ => rfl) rfl rfl (fun _ => rfl) f

theorem ktag (f : KF) : Statement (.ktag f) :=
  of_layout (unpackK_packWord 0x249 .x) (fun _ => rfl) rfl rfl (fun _ => rfl) f

theorem kld (f : MF) : Statement (.kld f) :=
  of_layout (unpackM_packWord 0x24A .m) (fun _ => rfl) rfl rfl (fun _ => rfl) f

theorem kst (f : MF) : Statement (.kst f) :=
  of_layout (unpackM_packWord 0x24B .m) (fun _ => rfl) rfl rfl (fun _ => rfl) f

theorem kclr (f : KF) : Statement (.kclr f) :=
  of_layout (unpackK_packWord 0x24C .x) (fun _ => rfl) rfl rfl (fun _ => rfl) f

theorem ldmx (f : LdmxF) : Statement (.ldmx f) :=
  of_layout (unpackLdmx_packWord 0x24D .x) (fun _ => rfl) rfl rfl (fun _ => rfl) f

theorem mmaI4x (f : MmaF) : Statement (.mmaI4x f) :=
  of_layout (unpackMma_packWord 0x280 .x) (fun _ => rfl) rfl rfl (fun _ => rfl) f

theorem mmaI4 (f : MmaF) : Statement (.mmaI4 f) :=
  of_layout (unpackMma_packWord 0x281 .x) (fun _ => rfl) rfl rfl (fun _ => rfl) f

theorem mmaI8 (f : MmaF) : Statement (.mmaI8 f) :=
  of_layout (unpackMma_packWord 0x282 .x) (fun _ => rfl) rfl rfl (fun _ => rfl) f

theorem mmaE4m3 (f : MmaF) : Statement (.mmaE4m3 f) :=
  of_layout (unpackMma_packWord 0x283 .x) (fun _ => rfl) rfl rfl (fun _ => rfl) f

theorem mmaE5m2 (f : MmaF) : Statement (.mmaE5m2 f) :=
  of_layout (unpackMma_packWord 0x284 .x) (fun _ => rfl) rfl rfl (fun _ => rfl) f

theorem mmaE2m1 (f : MmaF) : Statement (.mmaE2m1 f) :=
  of_layout (unpackMma_packWord 0x285 .x) (fun _ => rfl) rfl rfl (fun _ => rfl) f

theorem mmaBf16 (f : MmaF) : Statement (.mmaBf16 f) :=
  of_layout (unpackMma_packWord 0x286 .x) (fun _ => rfl) rfl rfl (fun _ => rfl) f

theorem acwin (f : XF) : Statement (.acwin f) :=
  of_layout (unpackX_packWord 0x287 .x) (fun _ => rfl) rfl rfl (fun _ => rfl) f

theorem acrd (f : AcF) : Statement (.acrd f) :=
  of_layout (unpackAc_packWord 0x288 .x) (fun _ => rfl) rfl rfl (fun _ => rfl) f

theorem acwr (f : AcF) : Statement (.acwr f) :=
  of_layout (unpackAc_packWord 0x289 .x) (fun _ => rfl) rfl rfl (fun _ => rfl) f

theorem aczero (f : XF) : Statement (.aczero f) :=
  of_layout (unpackX_packWord 0x28A .x) (fun _ => rfl) rfl rfl (fun _ => rfl) f

theorem acst (f : AcF) : Statement (.acst f) :=
  of_layout (unpackAc_packWord 0x28B .x) (fun _ => rfl) rfl rfl (fun _ => rfl) f

theorem mstat (f : XF) : Statement (.mstat f) :=
  of_layout (unpackX_packWord 0x28C .x) (fun _ => rfl) rfl rfl (fun _ => rfl) f

theorem amode (f : AmodeF) : Statement (.amode f) :=
  of_layout (unpackAmode_packWord 0x28D .x) (fun _ => rfl) rfl rfl (fun _ => rfl) f

theorem resize (f : XF) : Statement (.resize f) :=
  of_layout (unpackX_packWord 0x28E .x) (fun _ => rfl) rfl rfl (fun _ => rfl) f

theorem barinit (f : SyncF) : Statement (.barinit f) :=
  of_layout (unpackSync_packWord 0x300 .x) (fun _ => rfl) rfl rfl (fun _ => rfl) f

theorem barlink (f : SyncF) : Statement (.barlink f) :=
  of_layout (unpackSync_packWord 0x301 .x) (fun _ => rfl) rfl rfl (fun _ => rfl) f

theorem bararr (f : SyncF) : Statement (.bararr f) :=
  of_layout (unpackSync_packWord 0x302 .x) (fun _ => rfl) rfl rfl (fun _ => rfl) f

theorem bartry (f : SyncF) : Statement (.bartry f) :=
  of_layout (unpackSync_packWord 0x303 .x) (fun _ => rfl) rfl rfl (fun _ => rfl) f

theorem barwait (f : SyncF) : Statement (.barwait f) :=
  of_layout (unpackSync_packWord 0x304 .x) (fun _ => rfl) rfl rfl (fun _ => rfl) f

theorem bartest (f : SyncF) : Statement (.bartest f) :=
  of_layout (unpackSync_packWord 0x305 .x) (fun _ => rfl) rfl rfl (fun _ => rfl) f

theorem bardrop (f : SyncF) : Statement (.bardrop f) :=
  of_layout (unpackSync_packWord 0x306 .x) (fun _ => rfl) rfl rfl (fun _ => rfl) f

theorem chsend (f : SyncF) : Statement (.chsend f) :=
  of_layout (unpackSync_packWord 0x307 .x) (fun _ => rfl) rfl rfl (fun _ => rfl) f

theorem chrecv (f : SyncF) : Statement (.chrecv f) :=
  of_layout (unpackSync_packWord 0x308 .x) (fun _ => rfl) rfl rfl (fun _ => rfl) f

theorem chtry (f : SyncF) : Statement (.chtry f) :=
  of_layout (unpackSync_packWord 0x309 .x) (fun _ => rfl) rfl rfl (fun _ => rfl) f

theorem launch (f : XF) : Statement (.launch f) :=
  of_layout (unpackX_packWord 0x30A .x) (fun _ => rfl) rfl rfl (fun _ => rfl) f

theorem spawn (f : XF) : Statement (.spawn f) :=
  of_layout (unpackX_packWord 0x30B .x) (fun _ => rfl) rfl rfl (fun _ => rfl) f

theorem rinv (f : RinvF) : Statement (.rinv f) :=
  of_layout (unpackRinv_packWord 0x30C .x) (fun _ => rfl) rfl rfl (fun _ => rfl) f

theorem rret (f : XF) : Statement (.rret f) :=
  of_layout (unpackX_packWord 0x30D .x) (fun _ => rfl) rfl rfl (fun _ => rfl) f

theorem hndalloc (f : XF) : Statement (.hndalloc f) :=
  of_layout (unpackX_packWord 0x30E .x) (fun _ => rfl) rfl rfl (fun _ => rfl) f

theorem hndpass (f : XF) : Statement (.hndpass f) :=
  of_layout (unpackX_packWord 0x30F .x) (fun _ => rfl) rfl rfl (fun _ => rfl) f

theorem hndfree (f : XF) : Statement (.hndfree f) :=
  of_layout (unpackX_packWord 0x310 .x) (fun _ => rfl) rfl rfl (fun _ => rfl) f

theorem kvgive (f : XF) : Statement (.kvgive f) :=
  of_layout (unpackX_packWord 0x311 .x) (fun _ => rfl) rfl rfl (fun _ => rfl) f

theorem kvtake (f : XF) : Statement (.kvtake f) :=
  of_layout (unpackX_packWord 0x312 .x) (fun _ => rfl) rfl rfl (fun _ => rfl) f

theorem edrain (f : XF) : Statement (.edrain f) :=
  of_layout (unpackX_packWord 0x313 .x) (fun _ => rfl) rfl rfl (fun _ => rfl) f

theorem trap (f : TrapF) : Statement (.trap f) :=
  of_layout (unpackTrap_packWord 0x340 .x) (fun _ => rfl) rfl rfl (fun _ => rfl) f

theorem rfe (f : TrapF) : Statement (.rfe f) :=
  of_layout (unpackTrap_packWord 0x341 .x) (fun _ => rfl) rfl rfl (fun _ => rfl) f

theorem csrr (f : CsrF) : Statement (.csrr f) :=
  of_layout (unpackCsr_packWord 0x342 .x) (fun _ => rfl) rfl rfl (fun _ => rfl) f

theorem csrw (f : CsrF) : Statement (.csrw f) :=
  of_layout (unpackCsr_packWord 0x343 .x) (fun _ => rfl) rfl rfl (fun _ => rfl) f

theorem dtload (f : XF) : Statement (.dtload f) :=
  of_layout (unpackX_packWord 0x344 .x) (fun _ => rfl) rfl rfl (fun _ => rfl) f

theorem preq (f : PreqF) : Statement (.preq f) :=
  of_layout (unpackPreq_packWord 0x345 .x) (fun _ => rfl) rfl rfl (fun _ => rfl) f

theorem tlbinv (f : XF) : Statement (.tlbinv f) :=
  of_layout (unpackX_packWord 0x346 .x) (fun _ => rfl) rfl rfl (fun _ => rfl) f

theorem wspill (f : XF) : Statement (.wspill f) :=
  of_layout (unpackX_packWord 0x347 .x) (fun _ => rfl) rfl rfl (fun _ => rfl) f

theorem wfill (f : XF) : Statement (.wfill f) :=
  of_layout (unpackX_packWord 0x348 .x) (fun _ => rfl) rfl rfl (fun _ => rfl) f

theorem brk (f : XF) : Statement (.brk f) :=
  of_layout (unpackX_packWord 0x349 .x) (fun _ => rfl) rfl rfl (fun _ => rfl) f

theorem mark (f : MarkF) : Statement (.mark f) :=
  of_layout (unpackMark_packWord 0x34A .x) (fun _ => rfl) rfl rfl (fun _ => rfl) f

theorem ecopy e n at_ : Statement (.ecopy e n at_) := of_event rfl

theorem etld e n at_ : Statement (.etld e n at_) := of_event rfl

theorem etst e n at_ : Statement (.etst e n at_) := of_event rfl

theorem egath e n at_ : Statement (.egath e n at_) := of_event rfl

theorem escat e n at_ : Statement (.escat e n at_) := of_event rfl

theorem econv e n at_ : Statement (.econv e n at_) := of_event rfl

theorem enginePushAccepted e : Statement (.enginePushAccepted e) := of_event rfl

theorem engineWriteLanding e n upTo : Statement (.engineWriteLanding e n upTo) := of_event rfl

theorem engineCompletion e : Statement (.engineCompletion e) := of_event rfl

theorem mmaUpdate c a : Statement (.mmaUpdate c a) := of_event rfl

theorem computeModeLoadServed c a : Statement (.computeModeLoadServed c a) := of_event rfl

theorem accumulatorAccessPerformed c n : Statement (.accumulatorAccessPerformed c n) := of_event rfl

theorem amodeComplete c a : Statement (.amodeComplete c a) := of_event rfl

theorem resizeComplete team : Statement (.resizeComplete team) := of_event rfl

theorem class0TieTake cn n a : Statement (.class0TieTake cn n a) := of_event rfl

theorem barrierLinkMessage n : Statement (.barrierLinkMessage n) := of_event rfl

theorem barrierArrivalMessage n : Statement (.barrierArrivalMessage n) := of_event rfl

theorem barrierFlipMessage n : Statement (.barrierFlipMessage n) := of_event rfl

theorem barrierWaiterWake c o : Statement (.barrierWaiterWake c o) := of_event rfl

theorem channelSlotLanding n : Statement (.channelSlotLanding n) := of_event rfl

theorem loadReply n : Statement (.loadReply n) := of_event rfl

theorem errorReply n : Statement (.errorReply n) := of_event rfl

theorem leaseExpiry c line : Statement (.leaseExpiry c line) := of_event rfl

theorem pageCounterEpoch  : Statement (.pageCounterEpoch ) := of_event rfl

theorem groupFormation c slot : Statement (.groupFormation c slot) := of_event rfl

theorem unitPromotion c : Statement (.unitPromotion c) := of_event rfl

theorem regroupHoldExpiry c slot : Statement (.regroupHoldExpiry c slot) := of_event rfl

theorem yieldDelayEnd t : Statement (.yieldDelayEnd t) := of_event rfl

theorem clk c : Statement (.clk c) := of_event rfl

theorem teamStart die n c : Statement (.teamStart die n c) := of_event rfl

theorem teamRetire team : Statement (.teamRetire team) := of_event rfl

theorem dispatchWait1ms die n : Statement (.dispatchWait1ms die n) := of_event rfl

theorem coresPending100us lid : Statement (.coresPending100us lid) := of_event rfl

theorem binTimerExpiry die bin : Statement (.binTimerExpiry die bin) := of_event rfl

theorem invocationArrival n : Statement (.invocationArrival n) := of_event rfl

theorem replyArrival n : Statement (.replyArrival n) := of_event rfl

theorem kvgiveClose n : Statement (.kvgiveClose n) := of_event rfl

theorem ownershipChange n : Statement (.ownershipChange n) := of_event rfl

theorem kvtakeComplete t : Statement (.kvtakeComplete t) := of_event rfl

theorem deferredCauseDelivery t : Statement (.deferredCauseDelivery t) := of_event rfl

theorem preqDeadline team : Statement (.preqDeadline team) := of_event rfl

theorem teamSaveComplete team : Statement (.teamSaveComplete team) := of_event rfl

theorem teamRestore die n c : Statement (.teamRestore die n c) := of_event rfl

theorem binload die v : Statement (.binload die v) := of_event rfl

theorem restore die v : Statement (.restore die v) := of_event rfl

theorem dierst v : Statement (.dierst v) := of_event rfl

theorem dieReadmit die : Statement (.dieReadmit die) := of_event rfl

theorem mstWrite die n v : Statement (.mstWrite die n v) := of_event rfl

theorem ctxidWrite cn v : Statement (.ctxidWrite cn v) := of_event rfl

theorem trsizeWrite die v : Statement (.trsizeWrite die v) := of_event rfl

theorem rpstart v : Statement (.rpstart v) := of_event rfl

theorem stepEnter die v : Statement (.stepEnter die v) := of_event rfl

theorem stepStep die v : Statement (.stepStep die v) := of_event rfl

theorem stepLeave die v : Statement (.stepLeave die v) := of_event rfl

theorem stepEnd team : Statement (.stepEnd team) := of_event rfl

theorem counterSample c n : Statement (.counterSample c n) := of_event rfl

theorem memoryReadMessage n : Statement (.memoryReadMessage n) := of_event rfl

theorem memoryWriteMessage n : Statement (.memoryWriteMessage n) := of_event rfl

theorem managementMessage n : Statement (.managementMessage n) := of_event rfl

theorem attestationRequest nonce : Statement (.attestationRequest nonce) := of_event rfl

theorem retransmitTimeout n : Statement (.retransmitTimeout n) := of_event rfl

theorem ethernetLinkUp port : Statement (.ethernetLinkUp port) := of_event rfl

theorem coldStart inp : Statement (.coldStart inp) := of_event rfl

theorem warmStart inp clear : Statement (.warmStart inp clear) := of_event rfl

theorem thermalStep die temp : Statement (.thermalStep die temp) := of_event rfl

theorem tempFallsBelow96c die temp : Statement (.tempFallsBelow96c die temp) := of_event rfl

theorem packagePowerLimitStep die step : Statement (.packagePowerLimitStep die step) := of_event rfl

theorem uncorrectableError die kind t addr : Statement (.uncorrectableError die kind t addr) := of_event rfl

end Sys2Proof.Laws.RoundTrip
end

