-- ==== Sys2Proof/Tests/Slice0.lean ====
section
/-! SUPPORT. Tests of one step or one operation each: the checks of WellFormed, words written out from the spec's encodings, results of the spec's worked examples, and for each obligation with hypotheses states that meet them. -/

open Sys2Proof Sys2Proof.Machine

set_option maxRecDepth 8192

namespace Sys2Proof.Tests

/-! Samples -/

/-- The guard that always holds. -/
def always : Guard := ⟨false, 0⟩
/-- Format R with operand bytes and no modifiers. -/
def r3 (d a b c : Byte) : RF := ⟨always, d, a, b, c, false, false, false, 0, 0, false, false, 0, 0⟩
/-- Format M with the default REUSE. -/
def mem (data base : Byte) (ofs : BitVec 24) (sz : BitVec 4) : MF := ⟨always, data, base, ofs, 8, sz⟩
def sync (d a n : Byte) (var : BitVec 2) : SyncF := ⟨always, d, a, n, false, 0, var⟩
def xf (d a b c : Byte) (lo : BitVec 16) : XF := ⟨always, d, a, b, c, lo⟩

/-! An ill-formed term for each check of WellFormed (R55, R57, R59, R61, R67) -/

theorem test_reject_source_byte : (Instr.iadd (r3 8 0x50 5 0x58)).WellFormed = false := by decide
theorem test_reject_unused_position : (Instr.iadd (r3 8 3 5 0x59)).WellFormed = false := by decide
theorem test_reject_destination_byte : (Instr.iadd (r3 0x40 3 5 0x58)).WellFormed = false := by decide
theorem test_reject_odd_pair : (Instr.add64 (r3 8 3 4 0x58)).WellFormed = false := by decide
theorem test_reject_bt_on_immediate : (Instr.iadd { r3 8 3 0x85 0x58 with btb := true }).WellFormed = false := by decide
theorem test_reject_type : (Instr.iadd { r3 8 3 5 0x58 with type := 4 }).WellFormed = false := by decide
theorem test_reject_saturated_minimum : (Instr.imin { r3 8 3 5 0x58 with sat := true }).WellFormed = false := by decide
theorem test_reject_condition : (Instr.icmp { r3 1 3 5 0x58 with cmp := 6 }).WellFormed = false := by decide
theorem test_reject_predicate_byte : (Instr.pand (r3 1 0x12 3 0x58)).WellFormed = false := by decide
theorem test_reject_size : (Instr.ld (mem 8 4 0 9)).WellFormed = false := by decide
theorem test_reject_register_range : (Instr.ld (mem 60 4 0 7)).WellFormed = false := by decide
theorem test_reject_base : (Instr.ld (mem 8 5 0 4)).WellFormed = false := by decide
theorem test_reject_class : (Instr.ld { mem 8 4 0 4 with ctl := 3 }).WellFormed = false := by decide
theorem test_reject_field_mode : (Instr.fld (mem 8 4 0 4)).WellFormed = false := by decide
theorem test_reject_matrix_reserved : (Instr.mmaI4 ⟨always, 3, false, false, false, 1, 4, 1, 8, false, false, 0, false, 0⟩).WellFormed = false := by
  decide
theorem test_reject_accumulator_count : (Instr.acrd ⟨always, 0x10, 4, 5, 0x58, 4, 7, 0, false, false, 0⟩).WellFormed = false := by decide
theorem test_reject_x_reserved : (Instr.brk (xf 7 0 0 0 1)).WellFormed = false := by decide
theorem test_reject_queue : (Instr.chsend (sync 0x58 0x51 2 0)).WellFormed = false := by decide
theorem test_reject_conversion : (Instr.cvt ⟨always, 6, 7, 0x58, 0x58, false, 1, 7, 0, false, false, 4, false⟩).WellFormed = false := by decide
theorem test_reject_branch_reserved : (Instr.br ⟨always, 5, 1⟩).WellFormed = false := by decide
theorem test_accept_plain : (Instr.iadd (r3 8 3 0x85 0x58)).WellFormed = true := by decide

/-! Words written out in the spec's examples, one of each family and format -/

theorem test_word_iadd : decodeTableWord 64 0x0000080385580000 = some (.iadd (r3 8 3 0x85 0x58)) := by decide
theorem test_word_fmul : decodeTableWord 64 0x20A809090A584080
    = some (.fmul { r3 9 9 10 0x58 with g := ⟨true, 2⟩, btb := true, rnd := 1 }) := by decide
theorem test_word_hfma2 : decodeTableWord 64 0x24C0171415160001 = some (.hfma2 { r3 0x17 0x14 0x15 0x16 with var := 1 }) := by decide
theorem test_word_cvt : decodeTableWord 64 0x3000060758580E08
    = some (.cvt ⟨always, 6, 7, 0x58, 0x58, false, 0, 7, 0, false, false, 4, false⟩) := by decide
theorem test_word_movi : decodeTableWord 64 0x40410B5800014000 = some (.movi ⟨always, 0x0B, 0x58, 0x14000⟩) := by decide
theorem test_word_pand : decodeTableWord 64 0x414001020B580000 = some (.pand (r3 1 2 0x0B 0x58)) := by decide
theorem test_word_brc : decodeTableWord 64 0x504304A00BFFFFF9
    = some (.brc ⟨always, 4, 0xA0, false, false, false, 2, 0x3FFFFF9⟩) := by decide
theorem test_word_shfl : decodeTableWord 64 0x52400A0A818F0003 = some (.shfl { r3 10 10 0x81 0x8F with var := 3 }) := by decide
theorem test_word_nop : decodeTableWord 64 0x5200585858580000 = some (.nop (r3 0x58 0x58 0x58 0x58)) := by decide
theorem test_word_ld : decodeTableWord 64 0x80021408FFFFF095 = some (.ld { mem 0x14 8 0xFFFFF0 5 with ctl := 9 }) := by decide
theorem test_word_st : decodeTableWord 64 0x8042180A00010086 = some (.st (mem 0x18 0x0A 0x100 6)) := by decide
theorem test_word_fld : decodeTableWord 64 0x81420C1E0000408A = some (.fld (mem 0x0C 0x1E 0x40 0xA)) := by decide
theorem test_word_ldmx : decodeTableWord 64 0x934310282A208000 = some (.ldmx ⟨always, 0x10, 0x28, 0x2A, 8, 0, 2, 0, 0⟩) := by decide
theorem test_word_mma_i8 : decodeTableWord 64 0xA0832D480CD80000
    = some (.mmaI8 ⟨always, 5, true, false, true, 1, 8, 0, 12, true, true, 1, true, 0⟩) := by decide
theorem test_word_acrd : decodeTableWord 64 0xA2031459BC056240 = some (.acrd ⟨always, 0x14, 0x59, 0xBC, 5, 6, 1, 0, true, false, 0⟩) := by decide
theorem test_word_bararr : decodeTableWord 64 0xC0830A8103000000 = some (.bararr (sync 10 0x81 3 0)) := by decide
theorem test_word_chrecv : decodeTableWord 64 0xC203555802000000 = some (.chrecv (sync 0x55 0x58 2 0)) := by decide
theorem test_word_spawn : decodeTableWord 64 0xC2C30C0820000000 = some (.spawn (xf 12 8 32 0 0)) := by decide
theorem test_word_kvtake : decodeTableWord 64 0xC483088258010001 = some (.kvtake (xf 8 0x82 0x58 1 1)) := by decide
theorem test_word_csrr : decodeTableWord 64 0xD083145800000000 = some (.csrr ⟨always, 0x14, 0x58, 0, 0⟩) := by decide
theorem test_word_trap : decodeTableWord 64 0xD003300000000000 = some (.trap ⟨always, 3, 0⟩) := by decide
theorem test_word_brk : decodeTableWord 64 0xD243070000000000 = some (.brk (xf 7 0 0 0 0)) := by decide
theorem test_word_kmul : decodeTableWord 64 0x9083040102585800 = some (.kmul ⟨always, 0, 4, 0, 1, 0, 2, 0x58, 0x58, false, false, 0, 0⟩) := by decide
theorem test_word_kset : decodeTableWord 64 0x90430400000A5808 = some (.kset ⟨always, 0, 4, 0, 0, 0, 0, 0x0A, 0x58, false, false, 1, 0⟩) := by decide
theorem test_word_amode : decodeTableWord 64 0xA343030000000000 = some (.amode ⟨always, 0, 3, false, 0⟩) := by decide
theorem test_word_acwin : decodeTableWord 64 0xA1C7008180A00000 = some (.acwin { xf 0 0x81 0x80 0xA0 0 with g := ⟨false, 1⟩ }) := by decide
theorem test_word_rinv : decodeTableWord 64 0xC303140818380001 = some (.rinv ⟨always, 0x14, 8, 0x18, 3, 2, 0, 1⟩) := by decide
theorem test_word_preq : decodeTableWord 64 0xD1431A4042434404 = some (.preq ⟨always, 0x1A, 0x40, 0x42, 0x43, 0x44, 0, true, 0⟩) := by decide
theorem test_word_mark : decodeTableWord 64 0xD283050012000000 = some (.mark ⟨always, 5, 0x12, 0, 0⟩) := by decide
theorem test_word_unmapped_opcode : decodeTableWord 64 0xFFC0000000000000 = none := by decide
theorem test_word_encodes : encode (.trap ⟨always, 3, 0⟩) = some 0xD003300000000000 := by decide

/-! Results of the spec's examples -/

/-- R135: imad.un.sat of 0x0001_0000 squared and 5 is 0xFFFF_FFFF, and 5 without .sat. -/
theorem test_imad_saturates : BitVec.ofInt 32 (satInt 32 true (0x10000 * 0x10000 + 5)) = (0xFFFFFFFF : Word) := by decide
/-- R136: the two corners of idiv. -/
theorem test_idiv_by_zero : idivOp false false 0xFFFFFFFB 0 = 0x80000000 := by decide
theorem test_idiv_overflow : idivOp true false 0x80000000 0xFFFFFFFF = 0x7FFFFFFF := by decide
/-- R137: a shift by 32 gives 0, and 32 sign bits under sar. -/
theorem test_clz_zero : clzOp 0 = 32 := by decide
theorem test_brev_lowest : brevOp 1 = 0x80000000 := by decide

/-- The example after R166: products of scale bytes. -/
theorem test_kmul_products : e5m3 (mulNum (e5m3v 0x79) (e5m3v 0x80)) = 0x81 ∧ e5m3 (mulNum (e5m3v 0xFE) (e5m3v 0x80)) = 0xFE
    ∧ e5m3 (mulNum (e5m3v 0x01) (e5m3v 0x70)) = 0x00 := by decide +kernel

/-- The first step after reset runs the word placed for the fetch: iadd w8, w3, 5 leaves 5 in w8 (R135). -/
theorem test_first_step_runs : (match step (State.reset.withFetchWord 64 0x0000080385580000) with
    | .next s => s.threads.map fun e => e.2.reg 8
    | _ => []) = [5] := by decide +kernel
/-- trap.3 of a thread without a handler stops it with a report (R362, R365). -/
theorem test_first_step_traps : (match step (State.reset.withFetchWord 64 0xD003300000000000) with
    | .next s => s.reports.map fun r => r.trap.cause
    | _ => []) = [0x1F3] := by decide +kernel

/-! Sample states for the hypotheses of the obligations: one thread of one team, about to execute -/

/-- The sample thread: privileged, with every word full and 0. -/
def thread0 : Thread := { Thread.start 0 true 0 0 with status := .member 0 }
/-- The sample team: `placedTeam`, with array 3, two accumulator rows, two scale registers and one barrier. -/
def team0 : Team := { placedTeam with fm := [3], nacc := 2, nk := 8, nbar := 1, windows := [(0, (0, 2))] }
/-- The sample group, at the first word of a clause of two. -/
def group0 : Group := ⟨1, 3, ⟨0, 0⟩, 0, ⟨0x1000, [.word 0x5200585858580000, .word 0x5200585858580000], .lv3, .alu⟩, 0, [0], [], [], none, false, [], none⟩
/-- The sample state: context 1 is SYS, with a page table that maps the lowest addresses to themselves for every access, the page at 2^33 to the register window of die 0, and the page after it to a page of HBM4E that context 1 owns. -/
def state0 (x : Thread) (m : Team) : State :=
  { State.reset with
    contexts := [(1, Context.fresh true)], teams := [(1, m)], threads := [(⟨1, 0⟩, x)], groups := [(0, group0)], cur := some 0
    mem := [(0, 0x01), (2, 0x08), (0x80000, 0x79), (0x80008, 0x01), (0x8000A, 0x09), (0x90000, 0x01), (0x90001, 0x10), (0x90002, 0x09),
      (0x91000, 0x01), (0x91001, 0x20), (0x91002, 0x09), (0x92000, 0xB9), (0x92005, 0xF0), (0x92006, 0x0F), (0x92008, 0x39), (0x9200A, 0x01), (0x9200E, 0x10)] }
def t0 : ThreadId := ⟨1, 0⟩
def va1 : Nat := 0x200010000
def give0 (closed : Bool) : Give := ⟨t0, 1, va1, 1, 5, [0x92008], closed⟩
/-- The sample state with the page at `va1` in a closed range, and the one in which a read of the top page table meets an error reply. -/
def closed0 : State := { state0 thread0 team0 with gives := [(2, give0 true)] }
def poisoned0 : State := { state0 thread0 team0 with poison := [0] }
/-- `closed0` where the page may be executed too. -/
def closedX : State := { closed0 with mem := closed0.mem.map fun c => if c.1 = 0x92008 then (c.1, 0x79) else c }

theorem solo {x : Thread} {m : Team} {sh : Shape} (hs : x.status = .member 0) (hg : x.guard sh.guard = true)
    (hb : (state0 x m).blockOf sh t0 = none) : Solo (state0 x m) 0 group0 t0 x m sh :=
  ⟨rfl, rfl, rfl, rfl, rfl, rfl, rfl, hs, rfl, hg, hb⟩

/-- The same for any state that holds the sample group. -/
theorem solo_in {s : State} {x : Thread} {m : Team} {sh : Shape}
    (hs : s.cur = some 0 ∧ s.group 0 = some group0 ∧ s.thread t0 = some x ∧ x.status = .member 0 ∧ s.team 1 = some m)
    (hb : x.guard sh.guard = true ∧ s.blockOf sh t0 = none) : Solo s 0 group0 t0 x m sh :=
  ⟨hs.1, hs.2.1, rfl, rfl, rfl, rfl, hs.2.2.1, hs.2.2.2.1, hs.2.2.2.2, hb.1, hb.2⟩

/-! States and operands that meet the hypotheses of each obligation -/

theorem witness_DecodingInvertsEncoding : (Instr.iadd (r3 8 3 0x85 0x58)).WellFormed = true
    ∧ encode (.iadd (r3 8 3 0x85 0x58)) = some 0x0000080385580000 := by decide
theorem witness_EncodingInvertsDecoding : decodeWord .lv3 0x0000080385580000 = .ok (.iadd (r3 8 3 0x85 0x58)) := by rfl

/-- Every shape of the lane families in the sample state: one, two and three sources, an immediate, pairs, a destination queue; and a header that joins an assembly, as last word of none. -/
theorem witness_IntegerArithmeticWritesTheExactResult :
    Ready (state0 thread0 team0) 0 group0 (shape1 (r3 0x3F 3 0x58 0x58)) ∧ Ready (state0 thread0 team0) 0 group0 (shape2 (r3 8 3 0x85 0x58))
    ∧ Ready (state0 thread0 team0) 0 group0 (shape3 (r3 8 3 5 6)) ∧ Ready (state0 thread0 team0) 0 group0 (shapeI ⟨always, 0x54, 3, 1⟩) :=
  ⟨(solo rfl (by decide) (by decide)).ready, (solo rfl (by decide) (by decide)).ready, (solo rfl (by decide) (by decide)).ready,
   (solo rfl (by decide) (by decide)).ready⟩
theorem witness_pushed_header : Ready (state0 thread0 team0) 0 group0 { guard := always, dsts := [.one 0x50] }
    ∧ ∀ p ∈ (writeDst 0x50 0x0B000000).pushes, p.1 < 4 → thread0.assembles p.1 p.2 = true :=
  ⟨(solo rfl (by decide) (by decide)).ready, by decide⟩
theorem witness_SaturationClampsToTheRange : 0 < (1 : Nat) := by decide
theorem witness_IntegerDivisionNeverTraps :
    Ready (state0 thread0 team0) 0 group0 (shape2 (r3 8 0x81 0x80 0x58)) ∧ Ready (state0 thread0 team0) 0 group0 (shapeI ⟨always, 8, 3, 0⟩) :=
  ⟨(solo rfl (by decide) (by decide)).ready, (solo rfl (by decide) (by decide)).ready⟩
theorem witness_LogicShiftsAndBitFields : Ready (state0 thread0 team0) 0 group0 (shape3 (r3 8 3 0x81 0x9F))
    ∧ (1 : Word) ≠ 0 ∧ (0x80000000 : Word) ≠ 0 ∧ (31 : Nat) < 32 :=
  ⟨(solo rfl (by decide) (by decide)).ready, by decide⟩
theorem witness_SelectsComparesAndWideSums :
    Ready (state0 thread0 team0) 0 group0 { guard := always, srcs := [.pair 4 false, .pair 6 false], dsts := [.pair 0x3E] }
    ∧ (r3 1 3 4 0x58).var ≠ 1 ∧ ({ r3 8 3 4 0x58 with var := 1 } : RF).var = 1 :=
  ⟨(solo rfl (by decide) (by decide)).ready, by decide, rfl⟩
theorem witness_FloatInstructionsExecute : Ready (state0 thread0 team0) 0 group0 (shape2 (r3 1 3 0x80 0x58)) :=
  (solo rfl (by decide) (by decide)).ready
theorem witness_ConversionsMovesAndPredicatesExecute :
    Ready (state0 thread0 team0) 0 group0 { guard := always, srcs := [.pair 4 false], dsts := [.pair 6] }
    ∧ Ready (state0 thread0 team0) 0 group0 { guard := always } ∧ (0 : Nat) < 8 ∧ (7 : Nat) < 8 :=
  ⟨(solo rfl (by decide) (by decide)).ready, (solo rfl (by decide) (by decide)).ready, by decide⟩
/-- Each kind of format; a magnitude of zero, the greatest finite one, the infinity and a NaN; quotients past the greatest number, between two numbers and at a tie; the three ranges of E5M3 and their ends; sums that are and are not 0. -/
theorem witness_NumbersRoundAsSpecified :
    fp32 ∈ [fp32, fp16, bf16] ∧ e2m1 ∈ [e4m3, e5m2, e2m1] ∧ (0x7F7FFFFF : Nat) < 2 ^ 31 ∧ fp32.inf = some 0x7F800000 ∧ fp32.inf ≠ some 0x7F800001
    ∧ fp32.max < 0x7F800001 ∧ 0 < 2 ^ 128 ∧ (1 : Nat) * 2 ^ 17 < 131073 ∧ ¬ (1 : Nat) * 2 ^ 17 < 131072 ∧ 114688 * 1 ≤ 114688 ∧ (114687 : Nat) < 114688 * 1
    ∧ (-3 : Int) < 0 ∧ (1 * 2 ^ 0 + 1 * 2 ^ 0 : Int) ≠ 0 ∧ (1 * 2 ^ 0 + -1 * 2 ^ 0 : Int) = 0 := by decide
/-- R29, R32: a tie in FP32 goes to the even neighbour; R30: a tie of E5M3; R25: narrowing to E4M3 past its greatest number. -/
theorem test_rounding : round fp32 .rne (.fin 0x1000001 0) = 0x4B800000 ∧ round fp32 .rne (.fin 0x1000003 0) = 0x4B800002
    ∧ narrow e4m3 (.fin 1000 0) = 0x7E ∧ e5m3 (.fin 17 0) = 0x98 := by decide +kernel

/-- A branch to the next word's clause: its target is a header. -/
theorem witness_BranchesReachTheirTargets :
    Solo (state0 thread0 team0) 0 group0 t0 thread0 team0 { guard := always }
    ∧ (∃ u, ((state0 thread0 team0).resumed 0).checkTarget t0 (group0.pc + BitVec.ofInt 57 8) = .ok u)
    ∧ icmpOp 1 false 0 1 = true ∧ icmpOp 1 false 0 0 = false :=
  ⟨solo rfl (by decide) (by decide), ⟨_, rfl⟩, by decide⟩
theorem witness_TargetChecksComeInOrder :
    (4 : VAddr).toNat % 8 ≠ 0
    ∧ (∃ c aux u, (state0 thread0 team0).fetchWord t0 0x100000000000000 = .got (.fail c aux) u)
    ∧ (∃ w u, (state0 thread0 team0).fetchWord t0 0x100 = .got (.word w) u ∧ (headerOf w).cause = none)
    ∧ (∃ w u, (state0 { thread0 with pc := 0 } team0).fetchWord t0 0 = .got (.word w) u ∧ (headerOf w).cause ≠ none) :=
  ⟨by decide, ⟨_, _, _, rfl⟩, ⟨_, _, rfl, by decide⟩, ⟨_, _, rfl, by decide⟩⟩

/-- A target that traps, one in a closed range, and one whose walk and one whose read meet an error reply. -/
theorem witness_targets_that_trap_or_wait :
    (∃ u, ((state0 thread0 team0).resumed 0).checkTarget t0 4 = .trap 0x00D [4] u)
    ∧ (∃ u, (closedX.resumed 0).checkTarget t0 (BitVec.ofNat 57 va1) = .closed u)
    ∧ (∃ c u, poisoned0.translate 0 1 needFetch 0x100 = (.ok (.failed c), u))
    ∧ (∃ c v, ({ state0 thread0 team0 with poison := [4] } : State).loadCached t0 0x100 0x100 (.normal 2)
        (({ state0 thread0 team0 with poison := [4] } : State).classFor t0 0x100) false = (.error c, v)) :=
  ⟨⟨_, rfl⟩, ⟨_, rfl⟩, ⟨_, _, rfl⟩, ⟨_, _, rfl⟩⟩
theorem witness_CallsAndReturnsMoveTheWindow :
    Solo (state0 thread0 team0) 0 group0 t0 thread0 team0 { guard := always }
    ∧ (∃ u, ((state0 thread0 team0).resumed 0).checkTarget t0 0x100 = .ok u ∧ u.callCause t0 = none ∧ u.nextAt t0 = group0.clause.next)
    ∧ (state0 thread0 team0).roleOf t0 = some ⟨3, 0, 32, 8 + 56 * 2, 4, 0⟩ :=
  ⟨solo rfl (by decide) (by decide), ⟨_, rfl, by decide⟩, by decide⟩
/-- The depths at which the clauses of call and ret meet, in a role of two frames and S = 4. -/
theorem witness_call_depths :
    let at_ (d o : Nat) : Option (Cause × List DWord) := (state0 { thread0 with depth := d, oldest := o } team0).callCause t0
    at_ 4 3 = some (0x046, [4, 3]) ∧ at_ 3 2 = some (0x044, [3, 2]) ∧ at_ 3 3 = none := by decide
/-- A target that is a header, at each of those depths: call and callx go on to the trap. -/
def atDepth (d o : Nat) : Thread := { thread0 with depth := d, oldest := o }
def callTraps (d o : Nat) : Option Cause :=
  match ((state0 (atDepth d o) team0).resumed 0).checkTarget t0 0x100 with
  | .ok u => (u.callCause t0).map Prod.fst
  | _ => none
theorem witness_call_traps :
    Solo (state0 (atDepth 4 3) team0) 0 group0 t0 (atDepth 4 3) team0 { guard := always, srcs := [.pair 4 false] }
    ∧ callTraps 4 3 = some 0x046 ∧ callTraps 3 2 = some 0x044 := ⟨solo rfl (by decide) (by decide), by decide⟩
theorem witness_ret :
    let s := state0 { thread0 with depth := 1, links := [(1, 0x100)] } team0
    (∃ u, (s.resumed 0).checkTarget t0 0x100 = .ok u) ∧ thread0.fullRange 8 56 = true :=
  ⟨⟨_, rfl⟩, by decide⟩
theorem witness_ExitYieldAndNop : Solo (state0 thread0 team0) 0 group0 t0 thread0 team0 { guard := always, srcs := [.one 0x80 false] } :=
  solo rfl (by decide) (by decide)
/-- A mask of the own lane alone, and one that names a lane still to come; a mask without the own lane. -/
theorem witness_CollectivesMeet :
    let r := (state0 thread0 team0).resumed 0
    Solo (state0 thread0 team0) 0 group0 t0 thread0 team0 (shape3 (r3 8 3 4 0x81))
    ∧ r.collectiveCause t0 team0 group0.pc 1 = none ∧ r.collectiveCause t0 team0 group0.pc 0x80000001 = none
    ∧ team0.rendezvous = [] ∧ (0x80000000 : Word).getLsbD 0 = false
    ∧ ∃ v, (((r.alterTeam 1 fun m => { m with rendezvous := [] }).joinMembers [t0]).countFor t0 0x0F 1).attemptEffect t0 [] false
        (writeDst 8 5) = .done v :=
  ⟨solo rfl (by decide) (by decide), by decide, by decide, rfl, by decide, ⟨_, rfl⟩⟩
/-- Two lanes of a home group: lane 1 waits in the rendezvous that lane 0 completes; a rendezvous of another mask that lane 1 has come to; a named lane whose thread has exited. -/
theorem witness_LastLaneCompletesTheRendezvous :
    let two (mask : Word) (y : Thread) : State :=
      { state0 thread0 { team0 with rendezvous := [⟨group0.pc, 0, mask, [(1, (5, 5))]⟩] } with threads := [(t0, thread0), (⟨1, 1⟩, y)] }
    Solo (two 3 thread0) 0 group0 t0 thread0 { team0 with rendezvous := [⟨group0.pc, 0, 3, [(1, (5, 5))]⟩] } (shape3 (r3 8 3 4 0x83))
    ∧ (two 3 thread0).valuesOf (shape3 (r3 8 3 4 0x83)) t0 = [0, 0, 3] ∧ (3 : Word).getLsbD 0 = true ∧ thread0.gone = false
    ∧ (∀ l, l < 32 → (3 : Word).getLsbD l = true → (Table.find (Table.put [(1, ((5 : DWord), (5 : DWord)))] 0 (0, 0)) l).isSome = true)
    ∧ (∀ r ∈ [(⟨group0.pc, 0, 3, [(1, (5, 5))]⟩ : Rendezvous)], r.mask = 3) ∧ (7 : Word) ≠ 3 ∧ 1 ∈ Table.keys [(1, ((5 : DWord), (5 : DWord)))]
    ∧ (two 7 thread0).collectiveCause t0 { team0 with rendezvous := [⟨group0.pc, 0, 7, [(1, (5, 5))]⟩] } group0.pc 3 = some 0x04A
    ∧ (two 3 { thread0 with status := .exited }).collectiveCause t0 team0 group0.pc 3 = some 0x048 :=
  ⟨solo_in (by decide) (by decide), by decide⟩

def needs : List Need := [needLoad 4, needStore 4, needAtomic, needRead, needWrite]
/-- The sample page table maps an address to its place for every access, at the lowest addresses and at the last byte of its leaf. -/
theorem witness_translation : needs.all (fun n =>
    (((state0 thread0 team0).resumed 0).translate 0 1 n 0x100).1 == .ok (.hbm 0x100)
    && (((state0 thread0 team0).resumed 0).translate 0 1 n 0x1FFFFFFC0).1 == .ok (.hbm 0x1FFFFFFC0)) = true := by decide
/-- An address that the table does not map has a cause. -/
theorem witness_translation_fails : ∃ c, (((state0 thread0 team0).resumed 0).translate 0 1 needRead 0x100000000000000).1 = .cause c :=
  ⟨_, rfl⟩
theorem witness_window : (((state0 thread0 team0).resumed 0).translate 0 1 (needStore 4) 0x200003A00).1 = .ok (.window 0 0x3A00) := by decide
/-- A walk that meets an error reply, for each kind of access; a closed range for a prefetch. -/
theorem witness_failed_walk : needs.all (fun n => match ((poisoned0.resumed 0).translate 0 1 n 0x100).1 with | .ok (.failed c) => c == 0x086 | _ => false) = true
    ∧ (match ((closed0.resumed 0).translate 0 1 needRead (BitVec.ofNat 57 va1)).1 with | .closed => true | _ => false) = true := by decide
theorem witness_LoadsAndStoresExecute :
    Solo (state0 thread0 team0) 0 group0 t0 thread0 team0 { guard := always, srcs := [.pair 4 false], dsts := [.one 8], inS := true }
    ∧ Solo (state0 thread0 team0) 0 group0 t0 thread0 team0 { guard := always, srcs := [.pair 4 false, .regs 0x30 16], inS := true }
    ∧ Solo (state0 thread0 team0) 0 group0 t0 thread0 team0 { guard := always, srcs := [.pair 4 false] } :=
  ⟨solo rfl (by decide) (by decide), solo rfl (by decide) (by decide), solo rfl (by decide) (by decide)⟩
/-- A misaligned and an aligned address; a window page asked to execute, read by a prefetch and loaded; an atomic where the table maps nothing. -/
theorem witness_AccessChecksRaiseTheirCauses :
    let s := state0 thread0 team0
    (3 : VAddr).toNat % accessSize 4 ≠ 0 ∧ (4 : VAddr).toNat % accessSize 4 = 0
    ∧ (s.translate 0 1 needFetch 0x200003A00).1 = .cause 0x082 ∧ (s.translate 0 1 needRead 0x200003A00).1 = .cause 0x083
    ∧ (match (s.translate 0 1 needAtomic 0x100000000000000).1 with | .cause _ => true | _ => false) = true := by decide
theorem witness_AtomicsExecute :
    Solo (state0 thread0 team0) 0 group0 t0 thread0 team0
      { guard := always, srcs := [.pair 4 false, .regs 0x3C 4], dsts := [.regs 0x3C 2], inS := true }
    ∧ Solo (state0 thread0 team0) 0 group0 t0 thread0 team0 { guard := always, srcs := [.pair 4 false, .one 8 false], inS := true }
    ∧ 0 < (1 : Nat) :=
  ⟨solo rfl (by decide) (by decide), solo rfl (by decide) (by decide), by decide⟩
/-- An atomic on memory's bytes: no error reply, no replay session, and no engine write at its bytes that has landed. -/
theorem witness_AtomicsChangeOnlyTheirBytes : (state0 thread0 team0).thread t0 = some thread0 ∧ (state0 thread0 team0).errorAt 0x100 = none
    ∧ (state0 thread0 team0).replay = none ∧ (state0 thread0 team0).commands = [] ∧ ((4 : Nat) = 4 ∨ (4 : Nat) = 8) := by decide
/-- R257, R259: an atomic add of 3 to the four bytes 0x01 0x00 0x08 0x00 changes the lowest. -/
theorem test_atomic_add : ((state0 thread0 team0).issueAtomic t0 0 (.ok 0) 4 0 3 0 []).bytes 0 4 = [0x04, 0x00, 0x08, 0x00] := by decide +kernel
theorem witness_StoreChangesOnlyItsBytes : Memory.wf (state0 thread0 team0).mem = true ∧ (state0 thread0 team0).replay = none := by decide
def reply0 : Access := ⟨t0, ⟨0, 0⟩, [(8, 7)], none, [], none, 0, 0, 0, false, none⟩
/-- A load of one register; a reply with and without an error, of an atomic and of a plain load, in a thread that lives and one that has exited. -/
theorem witness_LoadsReplyIntoTheirRegisters :
    let s := { state0 thread0 team0 with accesses := [(5, reply0)] }
    s.thread t0 = some thread0 ∧ (s.loadBytes t0 0x100 0x100 4 none).2.1 = none ∧ Table.find s.accesses 5 = some reply0
    ∧ thread0.gone = false ∧ ({ thread0 with status := .exited } : Thread).gone = true ∧ reply0.err = none ∧ reply0.atomic = false
    ∧ ({ reply0 with err := some 0x0E2 } : Access).err = some 0x0E2 ∧ ({ reply0 with atomic := true } : Access).words ≠ []
    ∧ (∀ e ∈ s.cores, e.2.checked = []) := by decide
/-- A copy in L1 that may serve, of a sector whose bytes no engine has written; and a sector that stands nowhere. -/
def copy0 : Copy := ⟨0, 0, 0, 5, []⟩
theorem witness_load_values :
    let k : Core := { Core.init with l1 := [⟨1, 0, 1, 0, 0, none, [(0, copy0)], 0, none, (0, 0), false⟩] }
    let s : State := { state0 thread0 team0 with cores := [(⟨0, 0⟩, k)] }
    copyIn (s.core (s.coreOf t0)).l1 0x100 = some copy0 ∧ copy0.serves ⟨0, 0⟩ k.ltime thread0.ts (max thread0.lastWrite (s.gaveAt 0x100)) = true
    ∧ (s.loadBytes t0 0x100 0x100 4 (some (.normal 2))).2.1 = none
    ∧ copyIn ((state0 thread0 team0).core ⟨0, 0⟩).l1 0x100 = none ∧ (state0 thread0 team0).nearCopy 0 0x100 = none ∧ s.hist = [] ∧ s.commands = [] := by
  decide

def array0 (compute : Bool) : FieldArray := { FieldArray.init with compute := compute, fmt0 := some .i8, fmt1 := some .i8 }
/-- The sample state with array 3 in a mode. -/
def stateF (compute : Bool) : State := { state0 thread0 team0 with cores := [(⟨0, 0⟩, { Core.init with arrays := [(3, array0 compute)] })] }
/-- A field address of array 3, at its last word. -/
def field0 : Nat := 3 * 16384 + 16380
/-- A load of that word in a mode. -/
def wait0 (mode : Nat) : Waiter := ⟨0, t0, .load, 16380, 4, mode, 0, [], none⟩
def req0 : ModeReq := ⟨5, true, [], [], [], [], [], none⟩

theorem witness_FieldInstructionsExecute :
    Solo (state0 thread0 team0) 0 group0 t0 thread0 team0 { guard := always, srcs := [.one 4 false], dsts := [.one 8], inS := true }
    ∧ field0 % 4 = 0 ∧ fieldArrayOf field0 = 3 ∧ team0.inField 3 = true
    ∧ ((stateF false).array ⟨0, 0⟩ 3).sees = false ∧ ((stateF true).array ⟨0, 0⟩ 3).sees = true
    ∧ ((stateF false).array ⟨0, 0⟩ 3).storagePending = none ∧ ((stateF true).array ⟨0, 0⟩ 3).storagePending = none
    ∧ ({ array0 true with requests := [{ req0 with compute := false }] } : FieldArray).storagePending = some 5
    ∧ ((stateF false).array ⟨0, 0⟩ 3).meets (wait0 1) = true ∧ ((stateF false).array ⟨0, 0⟩ 3).meets (wait0 3) = false
    ∧ ({ array0 false with empties := NatSet.add [] 4095 } : FieldArray).meets (wait0 3) = true
    ∧ ({ array0 false with empties := NatSet.add [] 4095 } : FieldArray).meets (wait0 1) = false
    ∧ (wait0 0).mode = 0 ∧ 3 % 4 ≠ 0 ∧ team0.inField 2 = false :=
  ⟨solo rfl (by decide) (by decide), by decide⟩
theorem witness_ScaleSliceInstructionsExecute :
    Solo (state0 thread0 team0) 0 group0 t0 thread0 team0 { guard := always }
    ∧ (1#6).toNat < team0.nk ∧ (state0 thread0 team0).kInFlight ⟨0, 0⟩ (team0.kBase + 1) = false ∧ team0.nk ≤ (8#6).toNat
    ∧ 255 + [(7 : Byte)].length ≤ 256
    ∧ (∃ u, ((state0 thread0 team0).resumed 0).attemptEffect t0 [] false (writeDst 8 (scaleF32 0)) = .done u) :=
  ⟨solo rfl (by decide) (by decide), by decide, by decide, by decide, by decide, ⟨_, rfl⟩⟩
theorem witness_WholeScaleRegisterInstructionsExecute :
    (1 : Nat) < team0.nk ∧ (state0 thread0 team0).blockOf { guard := always, srcs := [.one 0x83 false] } t0 = none
    ∧ bindObject team0 1 0 3 = some (.block 0 3) ∧ bindObject team0 2 0 0x23 = some (.half 3 1) ∧ bindObject team0 3 0 3 = some (.whole 3)
    ∧ team0.scaleGroup 0 = 0
    ∧ (∃ u, ((state0 thread0 team0).resumed 0).attemptEffect t0 [] false (writeDst 8 0) = .done u) :=
  ⟨by decide, by decide, by decide, by decide, by decide, by decide, ⟨_, rfl⟩⟩
/-- A register past the allotment, addresses off their alignment, an address that is not mapped for a load and for a store, and a word that names no object. -/
theorem witness_ScaleChecksRaiseTheirCauses :
    let s := (state0 thread0 team0).resumed 0
    team0.nk ≤ (8#6).toNat ∧ (7#6).toNat < team0.nk ∧ (4 : VAddr).toNat % 8 ≠ 0 ∧ (8 : VAddr).toNat % 8 = 0
    ∧ (match (s.translate 0 1 needRead 0x100000000000000).1 with | .cause _ => true | _ => false) = true ∧ bindObject team0 2 0 0x22 = none := by decide
theorem witness_ScaleMemoryInstructionsExecute :
    let s := (state0 thread0 team0).resumed 0
    Solo (state0 thread0 team0) 0 group0 t0 thread0 team0
      { guard := always, srcs := [.pair 4 false, .pair 6 false], dsts := [.regs 0x10 16], inS := true }
    ∧ (s.translate 0 1 needRead 0x1C0).1 = .ok (.hbm 0x1C0)
    ∧ ((s.translate 0 1 needRead 0x1C0).2.translate 0 1 needRead 0x102).1 = .ok (.hbm 0x102) ∧ (1 : Nat) + team0.scaleGroup 0 < team0.nk :=
  ⟨solo rfl (by decide) (by decide), by decide⟩
/-- The other ends of those walks: error replies, of a kld, a kst and an ldmx, and the register window of an .s4. -/
theorem witness_scale_windows :
    let s := (state0 thread0 team0).resumed 0
    ([needRead, needWrite, needLoad 2, needLoad 4].all fun n => match ((poisoned0.resumed 0).translate 0 1 n 0x100).1 with | .ok (.failed _) => true | _ => false) = true
    ∧ (s.translate 0 1 (needLoad 4) 0x200003A00).1 = .ok (.window 0 0x3A00) ∧ (0x200003A00 : VAddr).toNat % 4 = 0 := by decide

def ran0 : Mma := ⟨7, 1, 3, .i8, false, false, false, false, 0, [], [], 0, some 0, []⟩
/-- An mma that passes its checks: array 3 in compute mode with its format, and the tags of its scale registers. -/
def mma0 : MmaF := ⟨always, 3, false, false, false, 0, 0, 0, 1, false, false, 0, true, 0⟩
def stateM (f : TileFormat) (b : GenObject) : State :=
  { state0 thread0 team0 with cores := [(⟨0, 0⟩, { Core.init with
      arrays := [(3, { array0 true with fmt0 := some f, fmt1 := some f })]
      ktags := [(0, ⟨.block 0 0, 0⟩), (1, ⟨b, 0⟩), (2, ⟨b, 0⟩), (3, ⟨b, 0⟩), (4, ⟨b, 0⟩)] })] }
/-- Each format with its tags; a half or a format that fails its check; an array with a request of storage mode, for which an mma waits. -/
theorem witness_MatrixMultiplyIssuesOrTraps :
    let passes (f : TileFormat) (b : GenObject) : Bool :=
      (((stateM f b).resumed 0).mmaWait team0 1 none ⟨f, mma0⟩ [0]).isNone && (((stateM f b).resumed 0).mmaCheck team0 false 0 ⟨f, mma0⟩).isNone
    passes .i4x (.whole 3) = true ∧ passes .i4 (.whole 3) = true ∧ passes .i8 (.half 3 0) = true ∧ passes .e4m3 (.half 3 0) = true
    ∧ passes .e5m2 (.half 3 0) = true ∧ passes .e2m1 (.half 3 0) = true ∧ passes .bf16 (.half 3 0) = true
    ∧ (((stateM .i8 (.half 3 1)).resumed 0).mmaCheck team0 false 0 ⟨.i8, mma0⟩).map Prod.fst = some 0x102
    ∧ (((stateM .i8 (.half 3 0)).resumed 0).mmaCheck team0 false 0 ⟨.i4, mma0⟩).map Prod.fst = some 0x10D
    ∧ (((state0 { thread0 with empties := NatSet.add [] 3 } team0).resumed 0).mmaWait team0 1 none ⟨.i8, mma0⟩ [0]).isSome = true
    ∧ group0.asked.isSome = false := by decide
/-- What an mma waits for and stops on: a pending request; scale registers in flight; A registers that are empty and no latch; a full array; a reserved REP and combination; a scale register past the allotment; an array outside the field role and one in storage mode; a row at the limit of the window; a stale A tag. -/
theorem witness_matrix_checks :
    let s := (stateM .i8 (.half 3 0)).resumed 0
    let ar := s.array ⟨0, 0⟩ 3
    let past : MmaF := { mma0 with ka := 8 }
    ({ ar with requests := [req0] } : FieldArray).computePending = some 5 ∧ ar.computePending = none
    ∧ ({ state0 thread0 team0 with accesses := [(5, { reply0 with kreg := some 0 })] } : State).kInFlight ⟨0, 0⟩ 0 = true
    ∧ (s.latchFor team0 0 ⟨.i8, mma0⟩).isSome = false ∧ ({ thread0 with empties := NatSet.add [] 3 } : Thread).fullRange 0 16 = false
    ∧ thread0.fullRange 0 16 = true ∧ ar.mmas.length < 4 ∧ (List.replicate 4 ran0).length = 4
    ∧ (s.mmaCheck team0 false 0 ⟨.i8, { mma0 with rep := 3 }⟩).map Prod.fst = some 0x100
    ∧ (s.mmaCheck team0 false 0 ⟨.i8, { mma0 with seg := true }⟩).map Prod.fst = some 0x100
    ∧ (s.mmaCheck team0 false 0 ⟨.i8, past⟩).map Prod.fst = some 0x103 ∧ (s.mmaWait team0 1 none ⟨.i8, past⟩ [0]).isNone = true
    ∧ (s.mmaCheck team0 false 0 ⟨.i8, { mma0 with arr := 2 }⟩).map Prod.fst = some 0x10C
    ∧ (((stateF false).resumed 0).mmaCheck team0 false 0 ⟨.i8, mma0⟩).map Prod.fst = some 0x10C
    ∧ (s.mmaCheck { team0 with windows := [(0, (0, 0))] } false 0 ⟨.i8, mma0⟩).map Prod.fst = some 0x10E
    ∧ ((s.setTag ⟨0, 0⟩ 0 none).mmaCheck team0 false 0 ⟨.i8, mma0⟩).map Prod.fst = some 0x101 := by decide
/-- An i8 update with no noise and a REP in range; a column where each scale and the old word is a number, B scales of NaN, an infinite old word, and keys on both sides of a row's columns. -/
theorem witness_TheUpdateRoundsTheExactSumOnce :
    let row : MmaRow := ⟨0, 0, 0, [0x01010101], [], [0x78, 0x78]⟩
    let m : Mma := { ran0 with rows := [row], bscales := [0xFF :: List.replicate 255 0x78] }
    m.noise = [] ∧ m.rep < 3 ∧ (m.bscales.getD 0 []).getD 0 0 = 0xFF ∧ (m.bscales.getD 0 []).getD 1 0 ≠ 0xFF ∧ (m.bscales.getD 0 []).getD 129 0 ≠ 0xFF
    ∧ row.scales.getD 0 0 ≠ 0xFF ∧ row.scales.getD 1 0 ≠ 0xFF ∧ (array0 true).odd.get 1 = 0 ∧ (array0 true).odd.get 129 = 0
    ∧ valF32 0 ≠ .nan ∧ (valF32 0).finite = true ∧ valF32 0x7F800000 = .inf false ∧ (127 : Nat) < 128 ∧ 0 + 128 ≤ 128 := by decide +kernel
theorem witness_MatrixMultiplyIssuesOrTraps_group :
    Solo (stateM .i8 (.half 3 0)) 0 group0 t0 thread0 team0 { guard := always } := solo_in (by decide) (by decide)
/-- Rows 0 and 1 of a window of two rows, the last columns, and a scale. -/
theorem witness_AccumulatorInstructionsExecute :
    let f : AcF := ⟨always, 0x10, 4, 5, 0x58, 4, 0, 0, false, false, 0⟩
    Solo (state0 thread0 team0) 0 group0 t0 thread0 team0 { guard := always, srcs := acSources f, dsts := [.regs f.dr.toNat f.regs] }
    ∧ Solo (state0 thread0 team0) 0 group0 t0 thread0 team0 { guard := always, srcs := .pair 4 false :: acSources f, inS := true }
    ∧ team0.window (homeGroupOf 0) = (0, 2) ∧ 0 + 1 < 2 ∧ 255 % 1 = 0 ∧ 255 + 1 ≤ 256 ∧ 32 * 0 < team0.size ∧ 2 ≤ team0.nacc :=
  ⟨solo rfl (by decide) (by decide), solo rfl (by decide) (by decide), by decide⟩
/-- The first row past the window and the last within it; a column off its alignment and one past the end; a misaligned address and one that is not mapped; home groups, limits and rows at their bounds. -/
theorem witness_AccumulatorChecksRaiseTheirCauses :
    (team0.window 0).2 ≤ (team0.window 0).1 + 2 ∧ (team0.window 0).1 + 1 < (team0.window 0).2 ∧ 1 % 2 ≠ 0 ∧ 256 < 255 + 2 ∧ 4 % min (4 * 2) 64 ≠ 0
    ∧ (⟨1, 1⟩ : ThreadId).t ≠ 0 ∧ team0.size ≤ 32 * 1 ∧ (0 : Nat) < 1 ∧ team0.nacc < 3 ∧ team0.inField 2 = false := by decide
theorem witness_MatrixStatusIsReadAndWritten :
    Solo (state0 thread0 team0) 0 group0 t0 thread0 team0 { guard := always, srcs := [.one 4 false], dsts := [.one 0x58] }
    ∧ ((state0 thread0 team0).resumed 0).mmaBefore 1 ((state0 thread0 team0).resumed 0).newId = false ∧ (3 : BitVec 16) ≠ 2 :=
  ⟨solo rfl (by decide) (by decide), by decide⟩
/-- Masks that grow by one cache array and by one that is the team's own or too many; shrinks of a free and of a tied array. -/
theorem witness_ArrayRolesAndModesChange :
    team0.inField 3 = true ∧ 2 ∈ (stateF false).cacheArrays ⟨0, 0⟩
    ∧ [2].length + 2 ≤ ((stateF false).cacheArrays ⟨0, 0⟩).length ∧ ((stateF false).array ⟨0, 0⟩ 3).tie = none
    ∧ ((stateF false).alterArray ⟨0, 0⟩ 3 fun a => { a with tie := some 0 }).array ⟨0, 0⟩ 3 ≠ (stateF false).array ⟨0, 0⟩ 3
    ∧ 32 ∉ (stateF false).cacheArrays ⟨0, 0⟩ ∧ t0.t = 0 := by decide
def accState (e : AccEffect) (ms : List Mma) : State :=
  { state0 thread0 team0 with cores := [(⟨0, 0⟩, { Core.init with arrays := [(3, { array0 true with mmas := ms })], accq := [(7, e)] })] }
/-- A write of the last column, a read for a thread and for one that has exited, a store, and an mma that has run. -/
theorem witness_AccumulatorEffectsTakePlaceInOrder :
    let first (e : AccEffect) : Bool :=
      let k := (accState e []).core ⟨0, 0⟩
      accFirst k.accq 7 && Table.find k.accq 7 == some e
    let u := accState (.update 7 [0]) [ran0]
    first (.write 1 0 255 [5] false) = true ∧ first (.read t0 0 0 0 1 0 none [8]) = true
    ∧ first (.store t0 0 0 0 1 0 none 0x100 0x100 0x1000) = true
    ∧ ({ thread0 with status := .exited } : Thread).gone = true ∧ (∀ e ∈ u.cores, e.2.checked = [])
    ∧ ((u.array ⟨0, 0⟩ 3).mmas.find? fun m => m.left == some 0 && accFirst (u.core ⟨0, 0⟩).accq m.id) = some ran0 := by decide

/-- An object of the last number of the allotment and a number past it; counts at their bounds; an object that is idle, busy or broken; the values of a link. -/
theorem witness_BarriersAreInitialisedAndLinked :
    let m := { team0 with nbar := 1 }
    let link : Shape := { guard := always, srcs := [.pair 4 false] }
    let given (lo hi : Word) : DWord := arg64 ((state0 { thread0 with regs := [(4, lo), (5, hi)] } m).valuesOf link t0) 0
    let b := (state0 thread0 m).barrier ⟨0, 0⟩ 0
    Solo (state0 thread0 m) 0 group0 t0 thread0 m { guard := always, srcs := [.one 0x81 false], dsts := [.pair 6] }
    ∧ Solo (state0 thread0 m) 0 group0 t0 thread0 m link ∧ 0 < m.nbar ∧ m.nbar ≤ 1
    ∧ (1 : Nat) ≤ 65535 ∧ 65535 < 65536 ∧ b.idle = true ∧ b.broken = false ∧ ({ b with cnt := 1 } : Barrier).idle = false
    ∧ ({ b with broken := true } : Barrier).broken = true ∧ b.parent = none ∧ ({ b with parent := some ⟨0, ⟨0, 0⟩, 1⟩ } : Barrier).parent ≠ none
    ∧ given 0xFFFFFFFF 0xFFFFFFFF = 0xFFFFFFFFFFFFFFFF ∧ given 0 0xFF000000 ≠ 0xFFFFFFFFFFFFFFFF
    ∧ handleOfBits 0xFF00000000000000 = none ∧ handleOfBits 0x0000000100000005 = some ⟨1, ⟨0, 0⟩, 5⟩
    ∧ handleOfBits ((state0 thread0 m).handleOf ⟨0, 0⟩ 0).bits = some ((state0 thread0 m).handleOf ⟨0, 0⟩ 0) :=
  ⟨solo rfl (by decide) (by decide), solo rfl (by decide) (by decide), by decide⟩
def team1 : Team := { team0 with nbar := 1 }
/-- The sample state with barrier 0 as given and a registration of the thread. -/
def stateB (b : Barrier) (g : Option Registration) : State :=
  { state0 { thread0 with regd := (g.map fun r => [(0, r)]).getD [] } team1 with cores := [(⟨0, 0⟩, { Core.init with barriers := [(0, b)] })] }
def busy0 : Barrier := { Barrier.init with exp := 2, cnt := 1 }
/-- A barrier one arrival short of its phase, one that refuses, one without a count; an arrival that just fits and one that passes EXP; the three registrations. -/
theorem witness_ArrivalsAreAcceptedInOrder :
    let s := stateB busy0 (some .flipped)
    Solo s 0 group0 t0 { thread0 with regd := [(0, .flipped)] } team1 { guard := always, srcs := [.one 0x81 false], dsts := [.one 8] }
    ∧ ((s.resumed 0).observe t0 0).barrier ⟨0, 0⟩ 0 = busy0 ∧ busy0.refused = false ∧ busy0.cnt + 1 ≤ busy0.exp ∧ busy0.broken = false
    ∧ busy0.exp < busy0.cnt + 2 ∧ Barrier.init.exp = 0 ∧ busy0.exp ≠ 0 ∧ 0 < team1.nbar
    ∧ (((stateB { busy0 with unobs := 2 } (some .flipped)).resumed 0).observe t0 0 |>.barrier ⟨0, 0⟩ 0).refused = true
    ∧ (({ thread0 with regd := [(0, .flipped)] } : Thread).regOf 0) = some Registration.flipped
    ∧ (((stateB { busy0 with wreg := 1 } (some .armed)).resumed 0).withdraw t0 0 |>.barrier ⟨0, 0⟩ 0).refused = false
    ∧ thread0.regOf 0 ≠ some Registration.armed :=
  ⟨solo_in (by decide) (by decide), by decide⟩
/-- A number past the allotment, and an object with a broken link. -/
theorem witness_barrier_stops : team1.nbar ≤ 1 ∧ 0 < team1.nbar
    ∧ ((stateB { busy0 with broken := true } none).barrier ⟨0, 0⟩ 0).broken = true
    ∧ Solo (stateB { busy0 with broken := true } none) 0 group0 t0 thread0 team1 { guard := always } :=
  ⟨by decide, by decide, by decide, solo_in (by decide) (by decide)⟩
theorem witness_WaitsAndTestsFollowTheFlip :
    (({ thread0 with regd := [(0, .armed)] } : Thread).regOf 0) = some Registration.armed ∧ thread0.regOf 0 = none
    ∧ Solo (stateB busy0 (some .armed)) 0 group0 t0 { thread0 with regd := [(0, .armed)] } team1 { guard := always } :=
  ⟨by decide, by decide, solo_in (by decide) (by decide)⟩
theorem witness_TheLastArrivalCompletesThePhase :
    let b := (stateB busy0 none).barrier ⟨0, 0⟩ 0
    b.cnt + 1 = b.exp ∧ b.cnt + 0 ≠ b.exp ∧ b.parent = none
    ∧ (({ busy0 with parent := some ⟨0, ⟨0, 0⟩, 1⟩ } : Barrier).parent) = some ⟨(stateB busy0 none).deviceNumber, ⟨0, 0⟩, 1⟩ := by decide
/-- A message that is next, a child that the object knows, a parent, and a held thread whose phase has flipped. -/
theorem witness_BarrierMessagesAndSlotsAreDelivered :
    let h : Handle := ⟨0, ⟨0, 0⟩, 0⟩
    let p : Handle := ⟨0, ⟨0, 0⟩, 3⟩
    let s := stateB { busy0 with sleepers := [t0], parent := some p, child := [p] } (some .flipped)
    let next (m : Msg) : Bool :=
      let s := { s with msgs := [(9, m)] }
      Table.find s.msgs 9 == some m && !s.waitsAtTarget m && s.firstInLine 9 m && (s.savedOwner h p).isNone
    next (.link h p) = true ∧ next (.unlink h p) = true ∧ next (.linkReply h p true) = true ∧ next (.broken h p) = true
    ∧ next (.arrival h p false) = true ∧ next (.flip h p false) = true
    ∧ (s.barrier ⟨0, 0⟩ 0).broken = false ∧ (s.barrier ⟨0, 0⟩ 0).child.contains p = true ∧ (s.barrier ⟨0, 0⟩ 0).parent = some p
    ∧ s.objectOwner ⟨0, 0⟩ 0 = some (1, team1) ∧ (s.barrier ⟨0, 0⟩ 0).sleepers = [t0] ∧ 0 - team1.barBase = 0
    ∧ s.thread t0 = some { thread0 with regd := [(0, .flipped)] } := by decide
def channel0 : Channel := ⟨0, 0, 2, 4, 3 * 16384, 1, 3, [(2, [5, 6], false)], false, false, [], []⟩
/-- A slot on its way to the last slot but one of a ring in array 3. -/
theorem witness_slot_landing :
    let m : Msg := .slot 0x100 0 0 2 ⟨0, 0⟩ ⟨0, 0⟩
    let s := { stateF false with channels := [((0x100, 0, 0), channel0)], msgs := [(9, m)] }
    Table.find s.msgs 9 = some m ∧ Table.find s.channels (0x100, 0, 0) = some channel0 ∧ s.clusterTeam 0x100 0 0 = some (1, team0)
    ∧ team0.frozen = false ∧ s.firstInLine 9 m = true
    ∧ (channel0.slots.find? fun x => x.1 == 2) = some (2, [5, 6], false) ∧ [(5 : Word), 6].length = channel0.sw
    ∧ (s.array ⟨0, 0⟩ 3).waiters = [] := by decide
def thread2 : Thread := { thread0 with queues := [(4, [5, 6])] }
/-- A send of exactly SW words to a free slot, one with too few words, and one without a free slot; a receive of a full oldest slot that just fits 16 entries, one that does not, and one whose slot has not landed; ends of another team, and of one that has retired. -/
theorem witness_ChannelsMoveWholeSlots :
    let s := { state0 thread2 team0 with channels := [((0x100, 0, 0), channel0)] }
    let full := { channel0 with slots := [(2, [5, 6], true)] }
    Solo s 0 group0 t0 thread2 team0 { guard := always } ∧ Table.find s.channels (team0.channelKey 0) = some channel0
    ∧ Table.find (state0 thread2 team0).channels (team0.channelKey 0) = none
    ∧ channel0.src = team0.pos ∧ channel0.dst = team0.pos ∧ channel0.dstGone = false ∧ channel0.srcGone = false
    ∧ channel0.sw ≤ (thread2.queue 4).length ∧ 0 < channel0.free ∧ firstOf (Table.keys channel0.senders) t0 = true
    ∧ s.clusterTeam team0.lid team0.cluster channel0.dst = some (1, team0)
    ∧ (s.array team0.core (fieldArrayOf channel0.ring)).compute = false ∧ (s.array team0.core (fieldArrayOf channel0.ring)).requests = []
    ∧ (thread2.queue 5).length < channel0.sw ∧ ¬ 0 < ({ channel0 with free := 0 } : Channel).free
    ∧ full.slots = (2, [5, 6], true) :: [] ∧ firstOf full.receivers t0 = true
    ∧ (({ thread0 with queues := [(4, List.replicate 14 0)] } : Thread).queue 4).length + channel0.sw ≤ 16
    ∧ 16 < (({ thread0 with queues := [(4, List.replicate 15 0)] } : Thread).queue 4).length + channel0.sw
    ∧ ({ channel0 with src := 1 } : Channel).src ≠ team0.pos ∧ ({ channel0 with dst := 1 } : Channel).dst ≠ team0.pos
    ∧ ({ channel0 with srcGone := true, slots := [] } : Channel).slots = [] :=
  ⟨solo_in (by decide) (by decide), by decide⟩
/-- An older arrival on its way between the two cores of a channel, for which a send and its test wait, and none. -/
theorem witness_send_order :
    let m : Msg := .arrival ⟨0, ⟨0, 0⟩, 1⟩ ⟨0, ⟨0, 0⟩, 2⟩ false
    let s := { state0 thread2 team0 with msgs := [(0, m)], fresh := 5 }
    s.pathOf m = some (.sync, .core ⟨0, 0⟩, .core ⟨0, 0⟩) ∧ s.waitsAtTarget m = false ∧ (0 : Nat) < Table.findD channel0.senders t0 s.fresh
    ∧ (state0 thread2 team0).msgs = [] := by decide

/-- The sample state with no array of the core in the cache role, so that no copy in L1 serves a load. -/
def bare (x : Thread) (m : Team) : State :=
  { state0 x m with cores := [(⟨0, 0⟩, { Core.init with arrays := (List.range 32).map fun a => (a, { FieldArray.init with owner := some 1 }) })] }
def accessesDone (p : Spill) : Bool := match p with | .ok _ => true | _ => false
def bin0 : Bin := ⟨true, 0x100, 0, 0, 0, 1, 0, 256, 0, 0, 0, 0, 1, none, []⟩
/-- A bin of room 1 for context 1 with records of 64 registers: it takes one record, is full with one, and its records just fit from register 0; a spawn that is due and one that is not. -/
theorem witness_WorkIsLaunchedSpawnedAndDrained :
    let s := { state0 thread0 team0 with dies := [(0, { (state0 thread0 team0).die 0 with bins := [(2, bin0)] })] }
    Solo (state0 thread0 team0) 0 group0 t0 thread0 team0 { guard := always, srcs := [.pair 4 false], dsts := [.pair 6], inS := true }
    ∧ (s.die 0).binFor 1 0x100 = some (2, bin0) ∧ (s.die 0).binFor 1 0x108 = none ∧ (s.core ⟨0, 0⟩).spawnAt ≤ (s.core ⟨0, 0⟩).clk
    ∧ ({ Core.init with spawnAt := 1 } : Core).clk < 1
    ∧ 0 + bin0.rs / 4 ≤ 64 ∧ 64 < 1 + bin0.rs / 4 ∧ bin0.full 0 = false
    ∧ ({ bin0 with held := [⟨[], 0, none, none, false⟩] } : Bin).full 0 = true ∧ thread0.fullRange 0 64 = true
    ∧ ({ thread0 with empties := NatSet.add [] 63 } : Thread).fullRange 0 64 = false
    ∧ (4 : DWord).toNat % 8 ≠ 0 ∧ s.undrained t0 = false ∧ ({ thread0 with failures := 1 } : Thread).failures ≠ 0 :=
  ⟨solo rfl (by decide) (by decide), by decide⟩
/-- A record that can be read and is refused. -/
theorem witness_launch_refused :
    (((state0 thread0 team0).resumed 0).launchBy (readAsThread t0) 0 1 0x300000000 none).map (fun r => r.1) = some 1 := by decide
/-- A record of one team of 32 threads with 64 registers. -/
theorem witness_launch_accepted :
    let s := bare thread0 team0
    let s := { s with mem := [(0, 0x01), (2, 0x08), (0x110, 1), (0x112, 1), (0x114, 1), (0x116, 1), (0x117, 1), (0x138, 0x20), (0x13A, 0x40), (0x80000, 0x79)] }
    ((s.resumed 0).launchBy (readAsThread t0) 0 1 0x100 none).map (fun r => r.1) = some 0 := by decide +kernel
def command0 (ws : List Word) : Command := ⟨t0, ⟨0, 0⟩, 1, none, ws, 0, 0, [], [], [], [], [], [], [], [], none, 0, false⟩
theorem witness_undrained : ({ state0 thread0 team0 with commands := [(3, command0 [])] } : State).undrained t0 = true := by decide
def fullTeam : Team := { team0 with replies := (List.range 64).map fun k => (k, ⟨1, true, none, none⟩) }
theorem witness_InvocationsAndRepliesExecute :
    Solo (state0 thread0 team0) 0 group0 t0 thread0 team0
      { guard := always, srcs := [.one 4 false, .regs 0x30 16], dsts := [.pair 6], inS := true }
    ∧ team0.freeSlot = some 0 ∧ fullTeam.freeSlot = none ∧ team0.slotFor 0 1 5 = none
    ∧ fullTeam.slotFor 0 1 (tokenOf 1 0 1 63) = some ⟨1, true, none, none⟩ ∧ (5 : DWord) ∉ team0.owed
    ∧ (5 : DWord) ∈ ({ team0 with owed := [5] } : Team).owed
    ∧ (⟨1, true, none, some (0, 7, 0)⟩ : ReplySlot).reply = some (0, 7, 0) :=
  ⟨solo rfl (by decide) (by decide), by decide, by decide, by decide, by decide, by decide, by decide, rfl⟩
/-- An array that can be a buffer, and one outside the field role; a handle of the team's buffer, one of a passed buffer, and one with a stale serial. -/
theorem witness_ResultBuffersAreHanded :
    let y := (stateF false).array ⟨0, 0⟩ 3
    let s := (stateF false).setArray ⟨0, 0⟩ 3 { y with serial := 1, buffer := true }
    let p := (stateF false).setArray ⟨0, 0⟩ 4 { y with serial := 1, buffer := true, owner := none, passed := some 1 }
    Solo (stateF false) 0 group0 t0 thread0 team0 { guard := always, srcs := [.one 0x83 false], dsts := [.pair 6] }
    ∧ Solo (stateF false) 0 group0 t0 thread0 team0 { guard := always, srcs := [.pair 4 false] }
    ∧ team0.inField 3 = true ∧ y.tie = none ∧ y.compute = false ∧ y.requests = [] ∧ y.buffer = false ∧ team0.inField 2 = false
    ∧ s.bufferNamed team0 (bufferHandle 1 ⟨0, 0⟩ 3) false = some (3, false) ∧ s.bufferNamed team0 (bufferHandle 1 ⟨0, 0⟩ 3) true = some (3, false)
    ∧ s.bufferNamed team0 (bufferHandle 2 ⟨0, 0⟩ 3) false = none ∧ s.bufferNamed team0 (bufferHandle 2 ⟨0, 0⟩ 3) true = none
    ∧ p.bufferNamed team0 (bufferHandle 1 ⟨0, 0⟩ 4) true = some (4, true) :=
  ⟨solo_in (by decide) (by decide), solo_in (by decide) (by decide),
   by decide⟩
/-- One page of context 1, its range closed and not, and a page that is not mapped. -/
theorem witness_PagesChangeTheirOwner :
    let s := { state0 thread0 team0 with gives := [(2, give0 true)] }
    let w := s.rangeWalks 1 va1 1
    Solo (state0 thread0 team0) 0 group0 t0 thread0 team0 { guard := always, srcs := [.pair 4 false, .one 0x81 false, .one 0x85 false], inS := true }
    ∧ va1 % 65536 = 0 ∧ 2 ^ 57 - 65536 + 1 * 65536 ≤ 2 ^ 57 ∧ 2 ^ 57 < 2 ^ 57 - 65536 + 2 * 65536
    ∧ (state0 thread0 team0).takeTest t0 va1 1 = (none, true)
    ∧ ((state0 thread0 team0).takeTest t0 (va1 + 0x10000) 1).1 = some (.check 0x081 (va1 + 0x10000))
    ∧ Table.find s.gives 2 = some (give0 true) ∧ (give0 false).closed = false ∧ s.undrained t0 = false
    ∧ s.firstGive 2 (give0 true) = true ∧ s.writesInto w = false ∧ rangeFails w (some 1) = none ∧ rangeFails w (some 7) = some (.check 0x099 va1) :=
  ⟨solo rfl (by decide) (by decide), by decide⟩
/-- A range whose walk meets an error reply, of a kvtake and at the change of owner. -/
theorem witness_range_lost :
    poisoned0.takeTest t0 va1 1 = (some (.lost 0x086 va1), false) ∧ rangeFails (poisoned0.rangeWalks 1 va1 1) (some 1) = some (.lost 0x086 va1) := by decide
/-- A taker of another context than the page's owner. -/
theorem witness_take_not_yet :
    let s := { state0 thread0 { team0 with cn := 2 } with contexts := [(1, Context.fresh true), (2, Context.fresh true)] }
    s.takeTest t0 va1 1 = (none, false) := by decide
def takeGroup : Group := { group0 with clause := ⟨0x1000, [.word 0xC483088258580000, .word 0x5200585858580000], .lv3, .sys⟩, engaged := [0] }
theorem witness_kvtake_held :
    let s := { state0 thread0 team0 with groups := [(0, takeGroup)] }
    (s.presentInstr t0).map (fun i => match i with | .kvtake f => f.lo == 0 | _ => false) = some true ∧ s.groupOf t0 = some takeGroup
    ∧ (takeGroup.members.find? fun u => takeGroup.engaged.contains u) = some t0.t := by decide

def user0 : Thread := { thread0 with priv := 0 }
def handler0 : Thread := { thread0 with inHandler := true, tret := 0x100 }
/-- The sample state with a handler at 0x100. -/
def stateH (x : Thread) : State := { state0 x team0 with contexts := [(1, { Context.fresh true with hvec := 0x100 })] }
theorem witness_CausesEnterTheHandlerOrStop :
    (stateH user0).thread t0 = some user0 ∧ user0.inHandler = false ∧ (stateH user0).hvecOf t0 ≠ 0 ∧ user0.shadowReady = true
    ∧ handler0.inHandler = true ∧ (state0 user0 team0).hvecOf t0 = 0
    ∧ ({ user0 with empties := NatSet.add [] 56 } : Thread).shadowReady = false := by decide
def lacking : Thread := { thread0 with empties := NatSet.add [] 3 }
theorem witness_EmptySourcesTrapOrWait :
    let s := state0 lacking team0
    s.cur = some 0 ∧ s.group 0 = some group0 ∧ group0.team = t0.team ∧ group0.members = [t0.t] ∧ group0.done = [] ∧ group0.engaged = []
    ∧ s.thread t0 = some lacking ∧ lacking.status = .member 0 ∧ s.team t0.team = some team0 ∧ lacking.guard always = true
    ∧ lacking.empties.contains (lacking.word 3) = true ∧ lacking.queue (0x57 - 0x50) = [] := by decide
theorem witness_TrapsAndReturnsExecute :
    Solo (stateH handler0) 0 group0 t0 handler0 team0 { guard := always } ∧ 1 ≤ handler0.priv ∧ handler0.depth = handler0.edepth
    ∧ handler0.shadowReady = true ∧ handler0.resume = none ∧ user0.priv = 0 ∧ thread0.inHandler = false
    ∧ (∃ u, ((((stateH handler0).resumed 0).returnTrap t0).checkTarget t0 0x100) = .ok u)
    ∧ (∃ c u, ((((stateH handler0).resumed 0).returnTrap t0).refetch t0 ⟨0x100, [.word 0, .word 0], .lv3, .alu⟩ 0) = some (c, u)) :=
  ⟨solo_in (by decide) (by decide), by decide, by decide, by decide, by decide, by decide, by decide,
   ⟨_, rfl⟩, ⟨_, _, rfl⟩⟩
/-- A thread register, a register of the device, a number of no row, and a register above the user's privilege. -/
theorem witness_ControlRegistersAreReadAndWritten :
    let s := state0 thread0 team0
    s.csrCheck t0 thread0 0 none = none ∧ csrRow 0xFFFF = none ∧ s.csrCheck t0 user0 0xFFFF none = some 0x1E4
    ∧ Solo s 0 group0 t0 thread0 team0 { guard := always, srcs := [.pair 4 false], inS := csrInS 0 } :=
  ⟨by decide, by decide, by decide, solo rfl (by decide) (by decide)⟩
def deep : Thread := { thread0 with depth := 1 }
def stackTeam : Team := { team0 with roles := [⟨3, 0, 32, 8 + 56 * 2, 4, 0x100000⟩] }
theorem witness_FramesAreSpilledAndFilled :
    let role : Role := ⟨3, 0, 32, 8 + 56 * 2, 4, 0x100000⟩
    let r := (bare deep stackTeam).resumed 0
    (bare deep stackTeam).roleOf t0 = some role ∧ deep.oldest < deep.depth ∧ (List.range 56).all (fun k => !deep.empties.contains k) = true
    ∧ accessesDone (r.spillPieces t0 (role.slot 0 0) (deep.frameBytes 0)) = true
    ∧ accessesDone (r.fillPieces t0 (role.slot 0 0) 0 56).2.2 = true ∧ role.frames = 2
    ∧ ({ deep with oldest := 1 } : Thread).depth - 1 + 1 < role.frames ∧ role.frames ≤ ({ deep with depth := 2 } : Thread).depth - 1 + 1 := by
  decide +kernel
theorem witness_TablesTranslationsAndRequests :
    let s := state0 thread0 team0
    Solo s 0 group0 t0 thread0 team0 { guard := always, srcs := [.pair 4 false], inS := true } ∧ thread0.contextPriv 1 ≤ thread0.priv
    ∧ (s.context (s.selected t0)).isSome = true ∧ s.commands = [] ∧ user0.priv < 2
    ∧ accessesDone (((bare thread0 team0).resumed 0).readImage t0 0x100 256).2 = true :=
  ⟨solo rfl (by decide) (by decide), by decide, by decide, rfl, by decide, by decide +kernel⟩
/-- An image word of a poisoned sector, and a write on its way in context 1. -/
theorem witness_image_error_and_landing :
    (match (({ bare thread0 team0 with poison := [0x100 / 64 * 2, 0x100 / 64 * 2 + 1, 0x100 / 64] } : State).resumed 0).readImage t0 0x100 256 with
      | (_, .error _ _ _) => true | _ => false) = true
    ∧ ({ state0 thread0 team0 with commands := [(3, { command0 [] with writes := [⟨0, 0x200, 0x200, 5, []⟩] })] } : State).landingIn (some 1) = true
    ∧ (state0 thread0 team0).landingIn none = false := by decide +kernel
theorem witness_request : ∃ st u, ((state0 thread0 team0).resumed 0).request ⟨always, 8, 4, 5, 6, 10, 0, false, 0⟩ t0 0 0 0 0 = (st, u) := ⟨_, _, rfl⟩
theorem witness_BreaksAndMarksExecute :
    Solo (state0 thread0 team0) 0 group0 t0 thread0 team0 { guard := always, srcs := [.one 4 false] } ∧ thread0.brkPass ≠ some group0.pc
    ∧ ({ thread0 with brkPass := some 0x1008 } : Thread).brkPass = some group0.pc ∧ (state0 thread0 team0).brkStops t0 = false
    ∧ ({ state0 thread0 team0 with cores := [(⟨0, 0⟩, { Core.init with obs := [(8, 2)] })] } : State).brkStops t0 = true :=
  ⟨solo rfl (by decide) (by decide), by decide⟩

/-- Whether exec moves element 0 of command 3. -/
def movesFirst (ws : List Word) (f : Option TileFormat) (i : Instr) : Bool :=
  match exec i { stateF false with commands := [(3, { command0 ws with format := f })] } with
  | .next s => (Table.find s.commands 3).any fun x => x.moved == [0] && !x.failed
  | _ => false
/-- Commands of each type whose first element moves: one byte of an ecopy, the first rows of an etld and an etst, element 0 of an egath and an escat, block 0 of an econv. -/
theorem witness_EngineElementsMove :
    movesFirst [0x0B000000, 0x100, 0, 0x200, 0, 1, 1, 0, 0, 1, 0, 0] none (.ecopy 3 0 0) = true
    ∧ movesFirst [0x16000002, 0x100, 0, 128, 0x200, 0, 3] none (.etld 3 0 0) = true
    ∧ movesFirst [0x26000000, 0x100, 0, 128, 0x200, 0, 3] (some .i8) (.etst 3 0 0) = true
    ∧ movesFirst [0x37000004, 0x100, 0, 0x200, 0, 1, 0x300, 0] none (.egath 3 0 0) = true
    ∧ movesFirst [0x47000000, 0x100, 0, 0x200, 0, 1, 0x300, 0] none (.escat 3 0 0) = true
    ∧ movesFirst [0x57000000, 0x100, 0, 0x200, 0, 0x300, 0, 1] none (.econv 3 0 0) = true := by decide +kernel
/-- An ecopy from an address that no table maps: a fault. -/
theorem witness_element_fault : movesFirst [0x0B000000, 0, 0x1000000, 0x200, 0, 1, 1, 0, 0, 1, 0, 0] none (.ecopy 3 0 0) = false := by
  decide +kernel

def copyWords : List Word := [0x0B000000, 0x100, 0, 0x200, 0, 1, 1, 0, 0, 1, 0, 0]
def held0 : HeldPush := ⟨t0, ⟨0, 0⟩, 0, 0, none, 0, 0, [], [(1, true)], false, false⟩
def written : EngineWrite := ⟨0, 0x200, 0x200, 5, []⟩
/-- A held push of the last word of an ecopy; a write that may land and one that has; a field word that may and one of another element; a copy that may complete and one whose element has not moved. -/
theorem witness_EngineEventsTakeEffect :
    let x : Thread := { thread0 with queues := [(0, copyWords.take 11)] }
    let s : State := { state0 x team0 with heldPushes := [(2, held0)] }
    let c : Command := { command0 copyWords with moved := [0] }
    let w : Command := { c with writes := [written] }
    let f : Command := { command0 [0x0B000001, 0x100, 0, 0xC000, 0, 1, 1, 0, 0, 1, 0, 0] with moved := [0], field := [(0, 3, 0, 5)], targets := [(3, 0)] }
    Table.find s.heldPushes 2 = some held0 ∧ s.pushReady 2 held0 = true ∧ s.thread t0 = some x
    ∧ { s with heldPushes := [(1, held0), (2, held0)] }.pushReady 2 held0 = false
    ∧ ({ s with heldPushes := Table.drop s.heldPushes 2 } : State).lastCause t0 0 (x.queue 0 ++ [held0.word]) held0.pops = none
    ∧ ({ s with heldPushes := [] } : State).lastCause t0 0 (copyWords.set 5 0) [] = some 0x142
    ∧ x.status = .member 0 ∧ s.group 0 = some group0 ∧ s.clash = false
    ∧ w.toField = false ∧ s.landable w 0 .package = true ∧ s.landable w 0 .team = true ∧ s.landable { w with writes := [written, { written with n := 1 }] } 1 .team = false
    ∧ f.toField = true ∧ f.wordReady 3 0 = true ∧ f.wordReady 3 1 = false ∧ (stateF false).landingHeld 3 f 3 = false ∧ f.completed = false
    ∧ c.mayComplete = true ∧ c.targets = [] ∧ (command0 copyWords).mayComplete = false ∧ (3 * 4096 + 5) / 4096 = 3 := by decide
def load0 : ComputeLoad := ⟨1, t0, [8], 7⟩
/-- A load to serve; requests that are ready, that wait for the load, and that are due; resizes that are over and that wait; a range register that ties array 4 of core 0; an epoch at its end and one before it. -/
theorem witness_ArrayAndPageEventsTakeEffect :
    let s := (stateF true).alterArray ⟨0, 0⟩ 3 fun a => { a with loads := [load0], requests := [req0] }
    let m (k : Nat) (as : NatSet) : Team := { team0 with resizing := [⟨0, k, as, none⟩] }
    let due (k : Nat) (as : NatSet) (s : State) : Bool :=
      ((m k as).resizing.find? fun r => r.kind == 0 || r.arrays.all fun a => s.arrayIdle ⟨0, 0⟩ a 1) == some ⟨0, k, as, none⟩
    let x : Context := { Context.fresh true with rc := [(0, 1), (16, 0), (32, 0x10)] }
    (s.array ⟨0, 0⟩ 3).loads = load0 :: [] ∧ (s.array ⟨0, 0⟩ 3).requests = req0 :: [] ∧ (∀ r ∈ ([] : List ModeReq), r.id ≠ req0.id)
    ∧ s.requestReady 3 (s.array ⟨0, 0⟩ 3) req0 = true
    ∧ s.requestReady 3 (s.array ⟨0, 0⟩ 3) { req0 with compute := false, loads := [1] } = false
    ∧ ({ req0 with due := some 0 } : ModeReq).due = some 0 ∧ 0 ≤ (s.core ⟨0, 0⟩).clk ∧ (s.core ⟨0, 0⟩).clk < 1
    ∧ (state0 thread0 (m 0 [4])).team 1 = some (m 0 [4]) ∧ due 0 [4] s = true ∧ due 1 [5] s = true ∧ due 2 [5] s = true ∧ due 3 [3] s = false
    ∧ x.range 0 = some (0, 0, 0, 0, 0x10) ∧ coreOfSource 0 = ⟨0, 0⟩ ∧ x.tiesBy ⟨0, 0⟩ 4 0 = true
    ∧ (s.array ⟨0, 0⟩ 4).isCache = true ∧ 4 < Config.arrays ∧ 2 < (s.cacheArrays ⟨0, 0⟩).length
    ∧ (let t := { s with dtime := s.epochLength }; (t.epochAt / t.epochLength + 1) * t.epochLength ≤ t.dtime)
    ∧ s.dtime < (s.epochAt / s.epochLength + 1) * s.epochLength := by decide

/-- A delay that has just ended and one that has not; a unit of one thread at the age of 4,096 clk and one clk younger; a sample owed; a deferred cause of a thread that can take it, in and out of a group, and of one in a handler. -/
theorem witness_IssueEventsTakeEffect :
    let d : Trap := ⟨0x086, 0, []⟩
    let lone (stamp : Int) (clk : Nat) : State :=
      { state0 { thread0 with status := .eligible stamp, pc := 0x1000, stamp := stamp } team0 with groups := [], cores := [(⟨0, 0⟩, { Core.init with clk := clk })] }
    (lone 0 4096).allUnits ⟨0, 0⟩ = [(1, [0])] ∧ (0 : Int) + 4096 ≤ (4096 : Int) ∧ (4095 : Int) < 0 + 4096 ∧ thread0.aged = false
    ∧ (1 : Nat) ≤ ({ Core.init with clk := 1 } : Core).clk ∧ ({ Core.init with clk := 1 } : Core).clk < 2 ∧ 255 % 256 = 255
    ∧ Table.find ({ Core.init with samples := [(0, ⟨true, 0, 0, 0, 0⟩)] } : Core).samples 0 = some ⟨true, 0, 0, 0, 0⟩
    ∧ Core.init.sampled.contains 0 = false ∧ (0 : Nat) < 32 * Config.slots ∧ (State.reset.slotMay ⟨0, 0⟩ 0) = true
    ∧ ({ State.reset with cores := [(⟨0, 0⟩, { Core.init with issued := [0], turn := 1 })] } : State).slotMay ⟨0, 0⟩ 0 = false
    ∧ group0.done.contains 0 = false ∧ ({ group0 with done := [0] } : Group).done.contains 0 = true
    ∧ group0.idx + 1 < group0.clause.words.length ∧ group0.clause.words.length ≤ ({ group0 with idx := 1 } : Group).idx + 1
    ∧ (state0 { thread0 with deferred := [d] } team0).deliverable t0 = true
    ∧ (state0 { thread0 with deferred := [d], inHandler := true } team0).deliverable t0 = false
    ∧ (state0 { thread0 with deferred := [d], status := .waiting 0 } team0).deliverable t0 = true := by decide
/-- A thread at a header whose slot forms its group from a clause of one word, and the conditions of its clauses: the header is fetched and sound, the words follow; a header that fails its check, one that holds REGROUP, one whose waits do not hold. -/
theorem witness_GroupsAreFormed :
    let s := { bare { thread0 with status := .eligible 0, pc := 0x1000 } team0 with groups := [] }
    let all := s.candidateThreads team0 ⟨1, 3, 0x1000, false⟩
    let header (k : DWord) : Clause × Bool := (⟨0, [], .lv3, (headerOf k).engineClass⟩, (headerOf k).regroup)
    s.slotMay ⟨0, 0⟩ 0 = true ∧ s.slotMay ⟨0, 0⟩ 4 = false ∧ (s.pick ⟨0, 0⟩ 0).map (fun u => (u.group, u.key.team, u.key.pc)) = some (none, 1, 0x1000)
    ∧ (state0 thread0 team0).pick ⟨0, 0⟩ 1 = none ∧ ((state0 thread0 team0).pick ⟨0, 0⟩ 0).any (fun u => u.group == some 0) = true
    ∧ all = [0] ∧ s.takeThreads 1 all = [0]
    ∧ (match s.place.fetchWord t0 0x1000 with | .got (.word w) _ => (headerOf w).cause | _ => some 0) = none
    ∧ (match s.place.fetchWord t0 0x100000000000000 with | .got (.fail _ _) _ => true | _ => false) = true
    ∧ (headerOf 0xFFFFFFFFFFFFFFFF).cause ≠ none ∧ (header 0).2 = false
    ∧ (match exec (.groupFormation ⟨0, 0⟩ 0) s with | .next u => u.groups.length | _ => 0) = 1 := by decide +kernel
def grid0 : Grid := ⟨0, recordOf (List.replicate 280 0), 1, false, 0, [], 0, false, none, false, []⟩
def pending0 : Pending := ⟨4, .grid 0x200 0, 0, 0, 0, 0, none, 0⟩
/-- A queued team of a grid that fits, one behind a team of a higher priority and one that fits nowhere; a team whose thread has exited, and one whose has not; a co-resident grid; a wait of exactly 1 ms and of exactly 100 µs; a bin with one record that is full, and one that is empty. -/
theorem witness_TeamsStartAndRetire :
    let rec0 : Record := { grid0.record with cr := 1, cc := 1, gx := 1, gy := 1, gz := 1, roles := [(32, 64, 0, 0)] }
    let s : State := { State.reset with
      grids := [(0x200, { grid0 with record := rec0 })]
      dies := [(0, { State.reset.die 0 with queue := [pending0] })] }
    let big : State := { s with grids := [(0x200, { grid0 with record := { rec0 with nacc := 5000 } })] }
    ((s.die 0).queue.find? fun p => p.n == 4) = some pending0 ∧ s.turnOf 0 pending0 = true ∧ (s.tryStart 0 pending0).isSome = true
    ∧ { s with dies := [(0, { State.reset.die 0 with queue := [pending0, { pending0 with n := 5, pri := 3 }] })] }.turnOf 0 pending0 = false
    ∧ (s.placeUnit 0 1 rec0).isSome = true ∧ (big.tryStart 0 pending0).isNone = true
    ∧ (state0 { thread0 with status := .exited } team0).retirable 1 team0 = true ∧ thread0.gone = false
    ∧ s.lidOf pending0 = some 0x200 ∧ pending0.origin = .grid 0x200 0 ∧ rec0.cor = false ∧ ({ rec0 with flags := 1 } : Record).cor = true
    ∧ pending0.since + 1000000 ≤ ({ s with dtime := 1000000 } : State).dtime
    ∧ s.pendingSince pending0 + 100000 ≤ ({ s with dtime := 100000 } : State).dtime
    ∧ (bin0.v && bin0.ready 0) = false ∧ ({ bin0 with held := [⟨[], 0, none, none, false⟩] } : Bin).ready 0 = true := by decide +kernel
/-- An image that lies past HBM4E, so that BINLOAD is refused, and one of zeros, which is accepted. -/
theorem witness_binload : State.reset.binImage 0 2 0x10000000000 = none ∧ (State.reset.binImage 0 2 0).isSome = true := by decide +kernel
def invocation0 : Msg := .invocation 1 5 0 false 0 []
/-- A packet sent a number of times, for the last time at a time. -/
def packet0 (sent last : Nat) : Packet := ⟨sent, last, .rejected⟩
/-- The packets of a list that are due at a time. -/
def dueAt (time : Nat) (ps : Table Nat Packet) : Table Nat Packet := ps.filter fun e => decide (e.2.last + 20000 ≤ time)
/-- The two services, an entry that is not valid, a number past the table, and a bin as handlers; a reply for a resident team, for a saved one and for none; a connection with packets that are due, sent seven times and eight times, with one that is not due, and with none. -/
theorem witness_InvocationsAndRepliesArrive :
    let s := { state0 thread0 team0 with msgs := [(9, invocation0)], devnum := 1 }
    let h (b c : Byte) : Handler := ({ State.reset with htsize := 17, htbase := 0x1000, mem := [(0x1086, b), (0x1087, c)] } : State).handler 16
    Table.find s.msgs 9 = some invocation0 ∧ s.nextInvocation 9 1 5 0 = true ∧ s.deviceNumber ≠ 0 ∧ State.reset.deviceNumber = 0
    ∧ { s with msgs := [(8, invocation0), (9, invocation0)] }.nextInvocation 9 1 5 0 = false
    ∧ s.handler 0 = .service 0 ∧ s.handler 1 = .service 1 ∧ s.handler 15 = .error 2 ∧ s.handler 16 = .error 1 ∧ h 7 0x81 = .bin 1 7
    ∧ (s.die 1).out = false ∧ ({ s.die 1 with out := true } : Die).out = true
    ∧ s.team (tokenTeam (tokenOf 1 1 1 0)) = some team0 ∧ s.team (tokenTeam (tokenOf 1 1 2 0)) = none
    ∧ (s.images.find? fun e => e.2.teamId == 2) = none ∧ s.rejected = false ∧ s.firstInLine 9 (.reply .vetch 0 0 0 0) = true
    ∧ dueAt 20000 [(1, packet0 7 0), (2, packet0 8 1)] = [(1, packet0 7 0)] ∧ (packet0 7 0).sent < 8 ∧ dueAt 20001 [(2, packet0 8 1)] = [(2, packet0 8 1)]
    ∧ dueAt 20000 [(2, packet0 8 1)] = [] ∧ (8 : Nat) ≤ (packet0 8 1).sent ∧ Connection.init.lost = false ∧ 20 % 4 = 0 ∧ 22 % 4 ≠ 0 := by decide
def draining : Preempt := ⟨0, false, false, false, 0, 0, 0, 0, 0, 0⟩
/-- A drain at its deadline and one that has missed it; a unit with nothing under way that is discarded, and one that is saved. -/
theorem witness_PreemptionEventsTakeEffect :
    let m (k : Nat) : Team := { team0 with preempt := some { draining with choice := k } }
    let s (k : Nat) : State := state0 thread0 (m k)
    (s 0).team 1 = some (m 0) ∧ draining.deadline ≤ ((s 0).core ⟨0, 0⟩).clk ∧ draining.missed = false ∧ draining.hold = false
    ∧ ({ draining with missed := true, hold := true } : Preempt).missed = true
    ∧ ((s 1).unitTeams (m 1)).all (fun e => (s 1).quiet e.1 e.2) = true ∧ ((s 2).unitTeams (m 2)).all (fun e => (s 2).quiet e.1 e.2) = true := by
  decide +kernel
/-- An image of 48 bytes at 0x10000 that RESTORE accepts, and the same image in the queue with room on core 0; an address that no image may have. -/
theorem witness_restore :
    let i : Image := { die := 0, size := 48, num := 0, head := [], record := { grid0.record with cr := 1, cc := 1 }, team := { team0 with lid := 0x999 }, teamId := 7, threads := []
                       groups := [], arrays := [], kbytes := [], ktags := [], gens := [], acc := [], latch := [], barriers := [], core := false
                       queued := true, clk := 0, kept := [], block := [0x10000] }
    let p : Pending := ⟨4, .image 0x10000, 0, 0, 0, 0, none, 0⟩
    let s : State := { State.reset with
      contexts := [(1, Context.fresh true)], images := [(0x10000, i)], dies := [(0, { State.reset.die 0 with queue := [p] })] }
    (match s.restoreBlock 0 1 with | .error st => st | .ok _ => 0) = 1
    ∧ (s.placesAt 0x10000).map Prod.fst = [0x10000] ∧ (s.placeImages 0 ((s.placesAt 0x10000).map Prod.snd)).map (fun as => as.map Allot.core) = some [⟨0, 0⟩]
    ∧ (s.die (homeDie 0x10000)).out = false ∧ ({ s with dies := [(homeDie 0x10000, { State.reset.die 0 with out := true })] }.die (homeDie 0x10000)).out = true
    ∧ ((s.die 0).queue.find? fun p => p.n == 4) = some p ∧ p.origin = .image 0x10000 ∧ s.turnOf 0 p = true ∧ (s.lidOf p).isSome = true := by decide +kernel
/-- The value that MST0 refuses and one it accepts; a context in use, one that is not and one that is not live; a die to take out and the seventh out; each phase of a reset; a team to step; a descriptor. -/
theorem witness_RegisterWritesWithRowsTakeEffect :
    let s := state0 thread0 team0
    State.reset.mstRefused 0 7 0 = false ∧ s.mstRefused 0 0 0x00030001 = true ∧ s.context 2 = none ∧ s.context 1 = some (Context.fresh true)
    ∧ s.contextBusy 1 = true ∧ ({ s with teams := [] } : State).contextBusy 1 = false ∧ s.outDies.length < 7 ∧ (s.die 0).out = false
    ∧ ({ s.die 0 with out := true, phase := 2 } : Die).phase = 2 ∧ (1 : Nat) < 2 ∧ 3 ≤ ({ s.die 0 with phase := 3 } : Die).phase
    ∧ s.stepTarget 0 0 = none ∧ s.stepTarget 0 0x10000000000 = some (1, team0) ∧ team0.stepMode = .none
    ∧ team0.frozen = false ∧ ({ team0 with preempt := some { draining with choice := 2 } } : Team).frozen = true
    ∧ (s.settled 1 team0 0 thread0) = false ∧ s.settled 1 team0 0 { thread0 with status := .exited } = true ∧ s.underWay 1 team0 = false ∧ s.stirring 1 team0 = false
    ∧ s.replay = none ∧ s.descriptor 4 = none ∧ (({ s with mem := [(0x114, 1)] } : State).descriptor 0x100).isSome = true := by decide +kernel
def placed (r : Except (Option Cause) Target) : Option Target := match r with | .ok a => some a | .error _ => none
/-- A bound connection and an unbound one; a message with and without an earlier one of its connection; a piece of a read and of a write, a piece in a window, one too long for it, and a place that no table maps; a rejected and an accepted firmware; a port that is up, and none; port 7 with its link. -/
theorem witness_MessagesFromOutsideAreServed :
    let s := { state0 thread0 team0 with devnum := 1, conns := [(2, { Connection.init with cn := some 1 })] }
    s.boundContext 2 = some 1 ∧ s.boundContext 3 = none ∧ placed (s.messagePlace 1 needRead 0x100 64).1 = some (.hbm 0x100)
    ∧ placed (s.messagePlace 1 needWrite 0x1FFFFFFC0 64).1 = some (.hbm 0x1FFFFFFC0) ∧ placed (s.messagePlace 1 needRead 0x100000000000000 64).1 = none
    ∧ placed (s.messagePlace 1 needWrite 0x200003A00 4).1 = some (.window 0 0x3A00) ∧ placed (s.messagePlace 1 needWrite 0x200003A00 8).1 = none
    ∧ (Msg.memRead 2 0 0 []).readsOrWrites 2 = true ∧ (Msg.memRead 6 0 0 []).readsOrWrites 2 = false
    ∧ pieceLength 0x13F 3 = 1 ∧ pieceLength 0x100 64 = 64 ∧ (0 : Nat) ≠ 1
    ∧ ({ s with rejected := true } : State).rejected = true ∧ s.rejected = false ∧ State.reset.netcfg.getLsbD 7 = true ∧ 7 < 8
    ∧ s.portUp = true ∧ ({ s with ports := [] } : State).portUp = false := by decide
/-- Temperatures at the bounds; a thread that lives and one that has exited. -/
theorem witness_StartsPowerAndErrorsTakeEffect : 100 < 101 ∧ 111 < 112 ∧ 95 < 96 ∧ thread0.gone = false
    ∧ ({ thread0 with status := .exited } : Thread).gone = true ∧ (state0 thread0 team0).thread t0 = some thread0 := by decide
/-- The turn of slot 0 with the sample group formed, and with a word that the table rejects. -/
theorem witness_StepRunsTheDecodedInstruction :
    let s : State := { state0 thread0 team0 with sched := [.slot ⟨0, 0⟩ 0] }
    let r : State := { s with sched := [], cur := none }
    s.sched = .slot ⟨0, 0⟩ 0 :: [] ∧ r.slotMay ⟨0, 0⟩ 0 = true
    ∧ (r.pick ⟨0, 0⟩ 0).any (fun u => u.group == some 0) = true ∧ s.group 0 = some group0
    ∧ (∀ t ∈ group0.members, r.deliverable ⟨group0.team, t⟩ = false) ∧ group0.clause.words[group0.idx]? = some (.word 0x5200585858580000) := by
  decide
theorem witness_decoded_word : decodeWord .lv3 0x5200585858580000 = .ok (.nop (r3 0x58 0x58 0x58 0x58))
    ∧ ∃ e, decodeWord .lv3 0xFFC0000000000000 = .error e := ⟨rfl, ⟨_, rfl⟩⟩
theorem witness_StepTakesTheNextTurn : encode (.clk ⟨0, 0⟩) = none ∧ (encode (.nop (r3 0x58 0x58 0x58 0x58))).isSome = true := by decide
theorem witness_EveryStepKeepsMemoryCanonical :
    Memory.wf State.reset.mem = true ∧ Memory.wf (state0 thread0 team0).mem = true ∧ ∃ u, step State.reset = .next u := ⟨rfl, by decide, _, rfl⟩

end Sys2Proof.Tests
end

section
/-! SUPPORT. The state after reset. No die, core or array is listed in it, so each reads as its initial record. -/

namespace Sys2Proof.Machine

@[simp] theorem State.reset_die (d : Nat) : State.reset.die d = Die.init := rfl
@[simp] theorem State.reset_core (c : CoreId) : State.reset.core c = Core.init := rfl
@[simp] theorem State.reset_array (c : CoreId) (a : Nat) : State.reset.array c a = FieldArray.init := rfl

/-- Settles O60: the package's fields are those of `State.reset` as written; a die, a core and an array are their initial records, whose fields give the rest. -/
theorem resetHoldsTheSpecifiedValues : Obligations.ResetHoldsTheSpecifiedValues := by
  unfold Obligations.ResetHoldsTheSpecifiedValues
  refine ⟨rfl, rfl, rfl, rfl, rfl, rfl, rfl, rfl, rfl, rfl, rfl, rfl, rfl, rfl, fun d => ?_, fun c => ?_⟩
  · rw [State.reset_die]
    exact ⟨rfl, rfl, rfl, rfl⟩
  · simp only [State.reset_core, State.reset_array]
    exact ⟨rfl, rfl, fun _ => rfl⟩

end Sys2Proof.Machine
end

section
/-! SUPPORT. Starts, temperature and power, and machine checks (R16, R17, R398, R400, R403, R404): the cores after a warm start, the steps of a die, and what stopping a thread from outside leaves of it. -/

namespace Sys2Proof.Machine

/-! Starts -/

/-- A record found in a table whose records have all been changed alike. -/
theorem Table.find_mapRecords {κ ν μ : Type} [DecidableEq κ] (t : Table κ ν) (f : ν → μ) (k : κ) :
    Table.find (t.map fun e => (e.1, f e.2)) k = (Table.find t k).map f := by
  induction t with
  | nil => rfl
  | cons e xs ih =>
    simp only [List.map_cons, Table.find, ih]
    split <;> rfl

/-- A core as after reset, but for its clk and its ltime. -/
def Core.clocksOnly (x : Core) : Core := { Core.init with clk := x.clk, ltime := x.ltime }

theorem State.warmStarted_cores (s : State) (i : StartInput) (clear : Bool) :
    (s.warmStarted i clear).cores = s.cores.map fun e => (e.1, e.2.clocksOnly) := by
  cases clear <;> rfl

/-- A warm start leaves a core its clk and its ltime, and nothing else (R16, R17, R400). -/
theorem State.warmStarted_core (s : State) (i : StartInput) (clear : Bool) (c : CoreId) :
    (s.warmStarted i clear).core c = (s.core c).clocksOnly := by
  unfold State.core Table.findD
  rw [State.warmStarted_cores, Table.find_mapRecords]
  cases Table.find s.cores c <;> rfl

/-! Temperature and power -/

theorem exec_thermalStep (s : State) (die temp : Nat) : exec (.thermalStep die temp) s = execThermalStep die temp s := rfl
theorem exec_tempFallsBelow96c (s : State) (die temp : Nat) :
    exec (.tempFallsBelow96c die temp) s = execTempFallsBelow96c die temp s := rfl
theorem exec_packagePowerLimitStep (s : State) (die step : Nat) :
    exec (.packagePowerLimitStep die step) s = execPackagePowerLimitStep die step s := rfl

/-- Up to 100 °C a reading is noted and does nothing else. -/
theorem execThermalStep_cool (s : State) {die temp : Nat} (ht : temp ≤ 100) :
    execThermalStep die temp s = .next (s.alterDie die fun d => { d with temp := temp }) := by
  simp [execThermalStep, ht]

/-- Between 100 °C and 112 °C the die's own limit becomes its step and one more. -/
theorem execThermalStep_warm (s : State) {die temp : Nat} (hd : die < 8) (h100 : 100 < temp) (h112 : temp < 112) :
    execThermalStep die temp s = .next ((s.alterDie die fun d => { d with temp := temp }).alterDie die
      fun d => { d with heat := min 15 (d.step + 1) }) := by
  have hhot : ¬ (8 ≤ die ∨ temp ≤ 100) := by omega
  simp [execThermalStep, hhot, Nat.not_le.mpr h112]

/-- From 112 °C on the die reports a machine check and its reset begins. -/
theorem execThermalStep_hot (s : State) {die temp : Nat} (hd : die < 8) (h112 : 112 ≤ temp) :
    execThermalStep die temp s = .next
      ((((s.alterDie die fun d => { d with temp := temp }).machineCheck die 8).reportCheck die).startReset (BitVec.ofNat 64 die)) := by
  have hhot : ¬ (8 ≤ die ∨ temp ≤ 100) := by omega
  simp [execThermalStep, hhot, h112]

/-- Below 96 °C the die's own limit becomes some number up to what it was. -/
theorem execTempFallsBelow96c_below (s : State) {die temp : Nat} (hd : die < 8) (ht : temp < 96) :
    execTempFallsBelow96c die temp s = .next (s.draw.alterDie die fun d =>
      { d with temp := temp, heat := Config.cooled s.drawn % (d.heat + 1) }) := by
  have hcool : ¬ (8 ≤ die ∨ 96 ≤ temp) := by omega
  simp [execTempFallsBelow96c, hcool]

/-- The rows of temperature and power on a die of the package (R403). -/
theorem temperature_and_power_take_effect (s : State) {die : Nat} (hd : die < 8) (temp : Nat) :
    (100 < temp → temp < 112 → ∃ u, exec (.thermalStep die temp) s = .next u ∧ (u.die die).temp = temp
        ∧ (u.die die).heat = min 15 ((s.die die).step + 1))
    ∧ (112 ≤ temp → exec (.thermalStep die temp) s = .next
        ((((s.alterDie die fun d => { d with temp := temp }).machineCheck die 8).reportCheck die).startReset (BitVec.ofNat 64 die)))
    ∧ (temp ≤ 100 → exec (.thermalStep die temp) s = .next (s.alterDie die fun d => { d with temp := temp }))
    ∧ (temp < 96 → ∃ u, exec (.tempFallsBelow96c die temp) s = .next u ∧ (u.die die).temp = temp
        ∧ (u.die die).heat ≤ (s.die die).heat)
    ∧ (96 ≤ temp → exec (.tempFallsBelow96c die temp) s = .next s)
    ∧ exec (.packagePowerLimitStep die temp) s = .next (s.alterDie die fun d => { d with limited := min 15 temp }) := by
  rw [exec_thermalStep, exec_tempFallsBelow96c, exec_packagePowerLimitStep]
  refine ⟨fun h100 h112 => ⟨_, execThermalStep_warm s hd h100 h112, ?_, ?_⟩, execThermalStep_hot s hd,
    execThermalStep_cool s, fun h96 => ⟨_, execTempFallsBelow96c_below s hd h96, ?_, ?_⟩, fun h96 => ?_, ?_⟩
  · simp
  · simp [Die.step]
  · simp
  · have hle : Config.cooled s.drawn % ((s.die die).heat + 1) ≤ (s.die die).heat :=
      Nat.lt_succ_iff.mp (Nat.mod_lt _ (Nat.succ_pos _))
    simpa using hle
  · simp [execTempFallsBelow96c, h96]
  · simp [execPackagePowerLimitStep, hd]

/-! A thread taken out of what it waits in -/

/-- What a thread keeps while it is taken out of everything that it waits in: its status and its registers. -/
def Thread.kept (x : Thread) : Status × Sparse 32 := (x.status, x.regs)

theorem takeBack_kept (s : State) (w : Waiter) (t : ThreadId) :
    ((s.takeBack w).thread t).map Thread.kept = (s.thread t).map Thread.kept := by
  simp only [State.takeBack, State.alterTeam_thread, State.alterThread_thread]
  split
  · rename_i ht
    subst ht
    rw [Option.map_map]
    rfl
  · rfl

theorem foldl_takeBack_kept (ws : List Waiter) (s : State) (t : ThreadId) :
    ((ws.foldl (fun (s : State) w => s.takeBack w) s).thread t).map Thread.kept = (s.thread t).map Thread.kept := by
  induction ws generalizing s with
  | nil => rfl
  | cons w ws ih => exact (ih _).trans (takeBack_kept s w t)

/-- A thread abandoned keeps its status and its registers, and so does every other. -/
theorem abandon_kept (s : State) (t id : ThreadId) :
    ((s.abandon t).thread id).map Thread.kept = (s.thread id).map Thread.kept := by
  unfold State.abandon
  split
  · rfl
  · simp only [State.alterTeam_thread, State.alterCore_thread]
    exact foldl_takeBack_kept _ s id

/-! A thread out of its group -/

/-- A thread that leaves its group changes groups, held pushes and channels, and nothing else. -/
theorem leaveGroup_changes (s : State) (t : ThreadId) : ∃ groups heldPushes channels,
    s.leaveGroup t = { s with groups := groups, heldPushes := heldPushes, channels := channels } := by
  unfold State.leaveGroup
  dsimp only
  repeat' split
  all_goals exact ⟨_, _, _, rfl⟩

@[simp] theorem leaveGroup_thread (s : State) (t id : ThreadId) : (s.leaveGroup t).thread id = s.thread id := by
  obtain ⟨_, _, _, h⟩ := leaveGroup_changes s t
  rw [h]
  rfl

@[simp] theorem leaveGroup_reports (s : State) (t : ThreadId) : (s.leaveGroup t).reports = s.reports := by
  obtain ⟨_, _, _, h⟩ := leaveGroup_changes s t
  rw [h]

/-- The group that a thread has left does not count it among its members. -/
theorem not_mem_of_leaveGroup {s : State} {t : ThreadId} {x : Thread} {n : Nat} {g : Group} (hx : s.thread t = some x)
    (hm : x.status = .member n) (hg : (s.leaveGroup t).group n = some g) : t.t ∉ g.members := by
  simp only [State.leaveGroup, hx, hm] at hg
  cases hn : s.group n with
  | none =>
    rw [hn] at hg
    exact absurd (hn.symm.trans hg) (by simp)
  | some g₀ =>
    rw [hn] at hg
    dsimp only at hg
    split at hg
    · simp [State.group] at hg
    · obtain rfl : _ = g := by simpa [State.group] using hg
      simp

theorem stop_reports (s : State) (t : ThreadId) (p : Option (Clause × Nat)) : (s.stop t p).reports = s.reports := by
  simp [State.stop]

theorem stop_thread (s : State) (t : ThreadId) (p : Option (Clause × Nat)) :
    (s.stop t p).thread t = (s.thread t).map fun x => { x with status := .stopped p } := by
  simp [State.stop]

/-- A group passes on only when all its members have executed, and otherwise nothing changes. -/
theorem passOn_cases (s : State) (n : Nat) : s.passOn n = s ∨ ∃ g, s.group n = some g ∧ Passed s (s.passOn n) n g := by
  cases hg : s.group n with
  | none => exact .inl (by simp [State.passOn, hg])
  | some g =>
    by_cases hd : ∀ t ∈ g.members, t ∈ g.done
    · exact .inr ⟨g, rfl, passOn_done hg hd⟩
    · have hall : ¬ (g.members.all fun t => g.done.contains t) = true := by simpa using hd
      exact .inl (by simp only [State.passOn, hg, hall]; rfl)

theorem passOn_reports (s : State) (n : Nat) : (s.passOn n).reports = s.reports := by
  obtain h | ⟨g, -, hp⟩ := passOn_cases s n
  · rw [h]
  · rw [hp.quiet.1]

/-- A group that passes on leaves a thread that is no member of it as it was. -/
theorem passOn_thread {s : State} {n : Nat} {t : ThreadId} (ht : ∀ g, s.group n = some g → t.t ∉ g.members) :
    (s.passOn n).thread t = s.thread t := by
  obtain h | ⟨g, hg, hp⟩ := passOn_cases s n
  · rw [h]
  · exact hp.outside t fun hmem => ht g hg hmem.2

/-! Machine checks -/

theorem exec_uncorrectableError (s : State) (die : Nat) (kind : EccKind) (t : Option ThreadId) (addr : Nat) :
    exec (.uncorrectableError die kind t addr) s = .next (if die ≤ 8 then s.uncorrectable die kind t addr else s) := rfl

/-- A report for no thread leaves the threads and memory, and is the last one. -/
theorem reportNone_done (s : State) (c : CoreId) (n : Name) (x : Trap) :
    (s.reportNone c n x).threads = s.threads ∧ (s.reportNone c n x).mem = s.mem
      ∧ ((s.reportNone c n x).reports.getLast?.map fun r => r.trap.cause) = some x.cause := by
  have hc := count_coreOnly s c 0x0E 1 n false
  simp only [State.reportNone]
  refine ⟨hc.threads, ?_, by simp⟩
  rw [hc.quiet.1]

/-- A machine check reported for no thread (R404). -/
theorem reportCheck_done (s : State) (die : Nat) : (s.reportCheck die).threads = s.threads ∧ (s.reportCheck die).mem = s.mem
    ∧ ((s.reportCheck die).reports.getLast?.map fun r => r.trap.cause) = some 0x1E0 :=
  reportNone_done s (checkCore die) Name.none ⟨0x1E0, 0, auxWords []⟩

theorem report_thread (s : State) (t id : ThreadId) (x : Trap) : (s.report t x).thread id = s.thread id := rfl

/-- A stopped thread whose group passes on without it stays stopped, with the registers that it had. -/
theorem stop_passOn_thread {s : State} {t : ThreadId} {x : Thread} {n : Nat} (hx : s.thread t = some x)
    (hm : x.status = .member n) (p : Option (Clause × Nat)) : ((s.stop t p).passOn n).thread t = (s.stop t p).thread t :=
  passOn_thread fun _ hg => not_mem_of_leaveGroup hx hm hg

/-- The state in which a thread is stopped for a system cause: it waits nowhere, and the cause is reported (R362). -/
def State.reportedOutside (s : State) (t : ThreadId) (cause : Cause) (x : Thread) : State :=
  ((s.countFor t 0x0E 1).abandon t).report t ⟨cause, ((s.groupOf t).map Group.pc).getD x.pc, auxWords []⟩

theorem reportedOutside_kept (s : State) (t : ThreadId) (cause : Cause) (x : Thread) :
    ((s.reportedOutside t cause x).thread t).map Thread.kept = (s.thread t).map Thread.kept := by
  rw [State.reportedOutside, report_thread, abandon_kept, (countFor_coreOnly s t 0x0E 1).thread]

theorem reportedOutside_last (s : State) (t : ThreadId) (cause : Cause) (x : Thread) :
    ((s.reportedOutside t cause x).reports.getLast?.map fun r => r.trap.cause) = some cause := by
  simp [State.reportedOutside, State.report]

/-- A thread that lives is stopped once it is reported, and a group that it leaves goes on. -/
theorem stopSystem_of_live {s : State} {t : ThreadId} {x : Thread} (hx : s.thread t = some x) (hlive : x.gone = false) (cause : Cause) :
    (∃ n, x.status = .member n ∧ s.stopSystem t cause = ((s.reportedOutside t cause x).stop t none).passOn n)
      ∨ s.stopSystem t cause = (s.reportedOutside t cause x).stop t none := by
  unfold State.stopSystem
  simp only [hx, hlive, Bool.false_eq_true, if_false]
  split
  · exact .inl ⟨_, ‹_›, rfl⟩
  · exact .inr rfl

/-- A thread that lives, stopped for a system cause, keeps its registers, and the cause is the last report (R362). -/
theorem stopSystem_done {s : State} {t : ThreadId} {x : Thread} (hx : s.thread t = some x) (hlive : x.gone = false) (cause : Cause) :
    (∃ y, (s.stopSystem t cause).thread t = some y ∧ y.status = .stopped none ∧ y.regs = x.regs)
      ∧ ((s.stopSystem t cause).reports.getLast?.map fun r => r.trap.cause) = some cause := by
  have hcases := stopSystem_of_live hx hlive cause
  have hkept := reportedOutside_kept s t cause x
  have hlast := reportedOutside_last s t cause x
  generalize s.reportedOutside t cause x = v at hcases hkept hlast
  rw [hx] at hkept
  obtain ⟨z, hz, hzx⟩ := Option.map_eq_some_iff.mp hkept
  obtain ⟨hstatus, hregs⟩ := Prod.mk.inj hzx
  have hstopped : (v.stop t none).thread t = some { z with status := .stopped none } := by
    rw [stop_thread, hz]
    rfl
  obtain ⟨n, hn, hstop⟩ | hstop := hcases
  · rw [hstop, stop_passOn_thread hz (hstatus.trans hn), passOn_reports, stop_reports]
    exact ⟨⟨_, hstopped, rfl, hregs⟩, hlast⟩
  · rw [hstop, stop_reports]
    exact ⟨⟨_, hstopped, rfl, hregs⟩, hlast⟩

/-- The state in which an uncorrectable error is dealt with: recorded in MCSTAT, and its sector spoiled where it is in memory or in the L2 (R241, R404). -/
def State.errorNoted (s : State) (die : Nat) (kind : EccKind) (addr : Nat) : State :=
  let s := s.machineCheck die (kindCode kind)
  if (kind = .l2 ∨ kind = .dram) ∧ inHbm addr then { s with poison := s.poison.add (addr / 64) } else s

theorem errorNoted_threads (s : State) (die : Nat) (kind : EccKind) (addr : Nat) : (s.errorNoted die kind addr).threads = s.threads := by
  unfold State.errorNoted
  dsimp only
  split <;> rfl

theorem errorNoted_mem (s : State) (die : Nat) (kind : EccKind) (addr : Nat) : (s.errorNoted die kind addr).mem = s.mem := by
  unfold State.errorNoted
  dsimp only
  split <;> rfl

theorem errorNoted_thread (s : State) (die : Nat) (kind : EccKind) (addr : Nat) (t : ThreadId) :
    (s.errorNoted die kind addr).thread t = s.thread t := by
  unfold State.thread
  rw [errorNoted_threads]

/-- An error for no thread that lives is reported for none. -/
theorem uncorrectable_of_no_live_thread {s : State} {t : Option ThreadId} (ht : ∀ x, t.bind s.thread = some x → x.gone = true)
    (die : Nat) (kind : EccKind) (addr : Nat) :
    s.uncorrectable die kind t addr = (s.errorNoted die kind addr).reportCheck die := by
  cases t with
  | none => rfl
  | some u =>
    have hdead : ((s.errorNoted die kind addr).thread u).any (fun x => !x.gone) = false := by
      rw [errorNoted_thread]
      cases hu : s.thread u with
      | none => rfl
      | some x => simp [ht x hu]
    show (if ((s.errorNoted die kind addr).thread u).any (fun x => !x.gone) then _ else _) = _
    rw [hdead]
    rfl

/-- An error for a thread that lives stops it. -/
theorem uncorrectable_of_live_thread {s : State} {t : ThreadId} {x : Thread} (hx : s.thread t = some x) (hlive : x.gone = false)
    (die : Nat) (kind : EccKind) (addr : Nat) :
    s.uncorrectable die kind (some t) addr = (s.errorNoted die kind addr).stopSystem t 0x1E0 := by
  have hsome : ((s.errorNoted die kind addr).thread t).any (fun x => !x.gone) = true := by
    rw [errorNoted_thread, hx]
    simp [hlive]
  exact if_pos hsome

/-- Settles O56: the starts by their definitions and the clocks by `State.warmStarted_core`, R403 by the rows of temperature and power, and R404 by the thread of the error, dead or alive. -/
theorem startsPowerAndErrorsTakeEffect : Obligations.StartsPowerAndErrorsTakeEffect := by
  unfold Obligations.StartsPowerAndErrorsTakeEffect
  intro s die
  refine ⟨fun i => ⟨s.coldStarted i, rfl, rfl, rfl, rfl, rfl, rfl, rfl, rfl, rfl, rfl, rfl, rfl, rfl⟩, fun i clear => ?_,
    fun temp hd => temperature_and_power_take_effect s hd temp, fun kind addr t hd => ?_, fun kind addr t hd ht => ?_,
    fun kind t x addr hd hx hlive => ?_⟩
  · have hclocks : ∀ e ∈ s.cores, ((s.warmStarted i clear).core e.1).clk = (s.core e.1).clk
        ∧ ((s.warmStarted i clear).core e.1).ltime = (s.core e.1).ltime := fun e _ => by
      rw [State.warmStarted_core]
      exact ⟨rfl, rfl⟩
    refine ⟨s.warmStarted i clear, rfl, ?_⟩
    cases clear with
    | false => exact ⟨rfl, rfl, rfl, rfl, hclocks, rfl, rfl, rfl, rfl, fun _ => rfl, nofun⟩
    | true => exact ⟨rfl, rfl, rfl, rfl, hclocks, rfl, rfl, rfl, rfl, nofun, fun _ => rfl⟩
  · rw [exec_uncorrectableError, if_neg (Nat.not_le.mpr hd)]
  · obtain ⟨hthreads, hmem, hlast⟩ := reportCheck_done (s.errorNoted die kind addr) die
    rw [exec_uncorrectableError, if_pos hd, uncorrectable_of_no_live_thread ht]
    exact ⟨_, rfl, hthreads.trans (errorNoted_threads ..), hmem.trans (errorNoted_mem ..), hlast⟩
  · obtain ⟨⟨y, hy, hstatus, hregs⟩, hlast⟩ :=
      stopSystem_done ((errorNoted_thread s die kind addr t).trans hx) hlive 0x1E0
    rw [exec_uncorrectableError, if_pos hd, uncorrectable_of_live_thread hx hlive]
    exact ⟨_, y, rfl, hy, hstatus, hregs, hlast⟩

end Sys2Proof.Machine
end

section
/-! SUPPORT. Rounding (R22, R29 to R31): the finite patterns of a format as multiples of its smallest step, the binary exponent of a quotient, and `roundMag` as a choice between the two patterns about a quotient. -/

namespace Sys2Proof.Machine

/-! The patterns of a format, in steps -/

/-- The value of the magnitude pattern `mag`, in units of the smallest step 2^(1 - bias - m) of the format (R22). -/
def FloatFormat.steps (f : FloatFormat) (mag : Nat) : Nat :=
  if mag / 2 ^ f.m = 0 then mag else (mag % 2 ^ f.m + 2 ^ f.m) * 2 ^ (mag / 2 ^ f.m - 1)

/-- How many smallest steps make 1, times `n`: the quotient n / d is `f.scaled n / d` steps. -/
def FloatFormat.scaled (f : FloatFormat) (n : Nat) : Nat := n * 2 ^ (f.bias + f.m - 1)

/-- A significand below 2^(m+1) in binade `j`, counted from the subnormals on, is that many steps of size 2^j; so is 2^(m+1), the first pattern of the next binade. -/
theorem FloatFormat.steps_binade (f : FloatFormat) {j q : Nat} (hlow : j = 0 ∨ 2 ^ f.m ≤ q) (hq : q ≤ 2 ^ (f.m + 1)) :
    f.steps (j * 2 ^ f.m + q) = q * 2 ^ j := by
  have hpos : 0 < 2 ^ f.m := Nat.two_pow_pos f.m
  have hdouble : 2 ^ (f.m + 1) = 2 ^ f.m + 2 ^ f.m := by omega
  have hdiv : (j * 2 ^ f.m + q) / 2 ^ f.m = j + q / 2 ^ f.m := by
    rw [Nat.add_comm, Nat.add_mul_div_right _ _ hpos, Nat.add_comm]
  have hmod : (j * 2 ^ f.m + q) % 2 ^ f.m = q % 2 ^ f.m := by
    rw [Nat.add_comm, Nat.add_mul_mod_self_right]
  unfold FloatFormat.steps
  rw [hdiv, hmod]
  obtain hsub | hnormal | hnext : q < 2 ^ f.m ∨ (2 ^ f.m ≤ q ∧ q < 2 ^ f.m + 2 ^ f.m) ∨ q = 2 ^ f.m * 2 := by omega
  · obtain rfl : j = 0 := by omega
    simp [Nat.div_eq_of_lt hsub]
  · have hone : q / 2 ^ f.m = 1 := Nat.div_eq_of_lt_le (by omega) (by omega)
    have hrest : q % 2 ^ f.m + 2 ^ f.m = q := by rw [Nat.mod_eq_sub_mod hnormal.1, Nat.mod_eq_of_lt (by omega)]; omega
    simp [hone, hrest]
  · have htwo : q / 2 ^ f.m = 2 := by rw [hnext, Nat.mul_div_cancel_left _ hpos]
    have hzero : q % 2 ^ f.m = 0 := by rw [hnext, Nat.mul_mod_right]
    rw [htwo, hzero, hnext, if_neg (Nat.succ_ne_zero _ ∘ congrArg id), Nat.zero_add]
    grind

/-- Every pattern lies in a binade. -/
theorem FloatFormat.exists_binade (f : FloatFormat) (k : Nat) :
    ∃ j q, k = j * 2 ^ f.m + q ∧ (j = 0 ∨ 2 ^ f.m ≤ q) ∧ q < 2 ^ (f.m + 1) := by
  have hmod : k % 2 ^ f.m < 2 ^ f.m := Nat.mod_lt _ (Nat.two_pow_pos f.m)
  have hk := Nat.div_add_mod' k (2 ^ f.m)
  cases hj : k / 2 ^ f.m with
  | zero => exact ⟨0, k, by simp, .inl rfl, by rw [hj] at hk; omega⟩
  | succ j =>
    rw [hj, Nat.succ_mul] at hk
    exact ⟨j, k % 2 ^ f.m + 2 ^ f.m, by omega, .inr (by omega), by omega⟩

theorem FloatFormat.steps_lt_succ (f : FloatFormat) (k : Nat) : f.steps k < f.steps (k + 1) := by
  obtain ⟨j, q, rfl, hlow, hq⟩ := f.exists_binade k
  rw [Nat.add_assoc, f.steps_binade hlow (Nat.le_of_lt hq), f.steps_binade (hlow.imp_right Nat.le_succ_of_le) hq]
  exact Nat.mul_lt_mul_of_pos_right (Nat.lt_succ_self q) (Nat.two_pow_pos j)

theorem FloatFormat.steps_lt (f : FloatFormat) {j k : Nat} (h : j < k) : f.steps j < f.steps k := by
  induction k with
  | zero => exact absurd h (Nat.not_lt_zero j)
  | succ k ih =>
    obtain hlt | rfl := Nat.lt_succ_iff_lt_or_eq.mp h
    · exact Nat.lt_trans (ih hlt) (f.steps_lt_succ k)
    · exact f.steps_lt_succ j

theorem FloatFormat.steps_mono (f : FloatFormat) {j k : Nat} (h : j ≤ k) : f.steps j ≤ f.steps k := by
  obtain hlt | rfl := Nat.lt_or_eq_of_le h
  · exact Nat.le_of_lt (f.steps_lt hlt)
  · exact Nat.le_refl _

theorem steps_mul_lt_iff (f : FloatFormat) {d : Nat} (hd : 0 < d) {j k : Nat} : f.steps j * d < f.steps k * d ↔ j < k := by
  rw [Nat.mul_lt_mul_right hd]
  exact ⟨fun h => Nat.not_le.mp fun hle => Nat.not_le.mpr h (f.steps_mono hle), f.steps_lt⟩

theorem steps_mul_le_iff (f : FloatFormat) {d : Nat} (hd : 0 < d) {j k : Nat} : f.steps j * d ≤ f.steps k * d ↔ j ≤ k := by
  rw [← Nat.not_lt, steps_mul_lt_iff f hd, Nat.not_lt]

/-! The exponent of a quotient -/

/-- 2^(a - b) ≤ n / d, as `scaleQuot` writes 2^(a - b) and multiplied out. -/
theorem scaleQuot_one_le_iff (n d a b : Nat) :
    (scaleQuot 1 1 ((a : Int) - b)).1 * d ≤ n * (scaleQuot 1 1 ((a : Int) - b)).2 ↔ 2 ^ a * d ≤ n * 2 ^ b := by
  unfold scaleQuot
  split
  · obtain ⟨k, rfl⟩ : ∃ k, a = b + k := ⟨a - b, by omega⟩
    have hk : ((b + k : Nat) - b : Int).toNat = k := by omega
    rw [hk, Nat.pow_add, Nat.mul_assoc (2 ^ b), Nat.mul_comm n (2 ^ b), Nat.mul_le_mul_left_iff (Nat.two_pow_pos b)]
    simp
  · obtain ⟨k, rfl⟩ : ∃ k, b = a + k := ⟨b - a, by omega⟩
    have hk : (-((a : Int) - (a + k : Nat))).toNat = k := by omega
    rw [hk, Nat.pow_add, Nat.mul_left_comm n (2 ^ a), Nat.mul_le_mul_left_iff (Nat.two_pow_pos a)]
    simp

/-- `expoQuot` is ⌊log2 (n / d)⌋: it is at least a - b just where 2^a / 2^b is at most n / d (R29). -/
theorem le_expoQuot_iff {n d : Nat} (hn : 0 < n) (hd : 0 < d) (a b : Nat) :
    (a : Int) - b ≤ expoQuot n d ↔ 2 ^ a * d ≤ n * 2 ^ b := by
  have hle : (a : Int) - b ≤ (n.log2 : Int) - d.log2 - 1 → 2 ^ a * d ≤ n * 2 ^ b := fun h => by
    calc 2 ^ a * d ≤ 2 ^ a * 2 ^ (d.log2 + 1) := Nat.mul_le_mul_left _ (Nat.le_of_lt Nat.lt_log2_self)
      _ = 2 ^ (a + (d.log2 + 1)) := (Nat.pow_add ..).symm
      _ ≤ 2 ^ (n.log2 + b) := Nat.pow_le_pow_right (by decide) (by omega)
      _ = 2 ^ n.log2 * 2 ^ b := Nat.pow_add ..
      _ ≤ n * 2 ^ b := Nat.mul_le_mul_right _ (Nat.log2_self_le (Nat.ne_of_gt hn))
  have hlt : (n.log2 : Int) - d.log2 + 1 ≤ (a : Int) - b → n * 2 ^ b < 2 ^ a * d := fun h => by
    calc n * 2 ^ b < 2 ^ (n.log2 + 1) * 2 ^ b := Nat.mul_lt_mul_of_pos_right Nat.lt_log2_self (Nat.two_pow_pos b)
      _ = 2 ^ (n.log2 + 1 + b) := (Nat.pow_add ..).symm
      _ ≤ 2 ^ (a + d.log2) := Nat.pow_le_pow_right (by decide) (by omega)
      _ = 2 ^ a * 2 ^ d.log2 := Nat.pow_add ..
      _ ≤ 2 ^ a * d := Nat.mul_le_mul_left _ (Nat.log2_self_le (Nat.ne_of_gt hd))
  simp only [expoQuot]
  obtain h | h | h : (a : Int) - b ≤ (n.log2 : Int) - d.log2 - 1 ∨ (a : Int) - b = (n.log2 : Int) - d.log2
      ∨ (n.log2 : Int) - d.log2 + 1 ≤ (a : Int) - b := by omega
  · exact iff_of_true (by split <;> omega) (hle h)
  · rw [← h, ← scaleQuot_one_le_iff n d a b]
    split
    case isTrue hs => exact iff_of_true (Int.le_refl _) hs
    case isFalse hs => exact iff_of_false (by omega) hs
  · exact iff_of_false (by split <;> omega) (Nat.not_le.mpr (hlt h))

/-! Rounding a quotient -/

/-- Whether rounding goes away from 0, for a quotient that lies `lo` above the magnitude below it, of parity `odd`, and `hi` below the next (R29). -/
def RoundMode.away (mode : RoundMode) (neg odd : Bool) (lo hi : Nat) : Bool :=
  match mode with
  | .rne => decide (hi < lo) || (decide (lo = hi) && odd)
  | .rtz => false
  | .rup => !neg && decide (lo ≠ 0)
  | .rdn => neg && decide (lo ≠ 0)

theorem roundQuot_eq (mode : RoundMode) (neg : Bool) (n : Nat) {d : Nat} (hd : 0 < d) :
    roundQuot mode neg n d = n / d + (mode.away neg (decide (n / d % 2 = 1)) (n % d) (d - n % d)).toNat := by
  have hr : n % d < d := Nat.mod_lt _ hd
  cases mode with
  | rne =>
    have hlt : d < 2 * (n % d) ↔ d - n % d < n % d := by omega
    have heq : 2 * (n % d) = d ↔ n % d = d - n % d := by omega
    simp only [roundQuot, RoundMode.away, hlt, heq]
    split
    case isTrue h => simp [h]
    case isFalse h => simp [h]
  | rtz => rfl
  | rup => cases neg <;> by_cases h : n % d = 0 <;> simp [roundQuot, RoundMode.away, h]
  | rdn => cases neg <;> by_cases h : n % d = 0 <;> simp [roundQuot, RoundMode.away, h]

/-- A common factor does not change how a quotient rounds. -/
theorem roundQuot_mul_right (mode : RoundMode) (neg : Bool) (n d : Nat) {c : Nat} (hc : 0 < c) :
    roundQuot mode neg (n * c) (d * c) = roundQuot mode neg n d := by
  have hlt : d * c < 2 * (n % d * c) ↔ d < 2 * (n % d) := by
    rw [← Nat.mul_assoc]; exact Nat.mul_lt_mul_right hc
  have hne : c ≠ 0 := Nat.ne_of_gt hc
  have heq : 2 * (n % d * c) = d * c ↔ 2 * (n % d) = d := by
    rw [← Nat.mul_assoc]; exact Nat.mul_left_inj hne
  have hzero : n % d * c = 0 ↔ n % d = 0 := by
    rw [Nat.mul_eq_zero]; exact or_iff_left hne
  simp only [roundQuot, Nat.mul_div_mul_right _ _ hc, Nat.mul_mod_mul_right, hlt, heq, ne_eq, hzero]

/-- The binade of a quotient: its exponent above the least, 0 for subnormals. -/
def binadeOf (f : FloatFormat) (n d : Nat) : Nat := (max (expoQuot n d) (1 - (f.bias : Int)) - (1 - (f.bias : Int))).toNat

/-- `roundMag` rounds the quotient, counted in steps of its binade, to an integer. -/
theorem roundMag_eq (f : FloatFormat) (hb : 0 < f.bias) (mode : RoundMode) (neg : Bool) (n d : Nat) :
    roundMag f mode neg n d
      = binadeOf f n d * 2 ^ f.m + roundQuot mode neg (f.scaled n) (d * 2 ^ binadeOf f n d) := by
  obtain ⟨e, he⟩ : ∃ e, max (expoQuot n d) (1 - (f.bias : Int)) = e := ⟨_, rfl⟩
  have hmin : 1 - (f.bias : Int) ≤ e := he ▸ Int.le_max_right ..
  simp only [roundMag, binadeOf, FloatFormat.scaled, he, scaleQuot]
  congr 1
  split
  case isTrue h =>
    have hexp : f.bias + f.m - 1 = ((f.m : Int) - e).toNat + (e - (1 - (f.bias : Int))).toNat := by omega
    rw [hexp, Nat.pow_add, ← Nat.mul_assoc, roundQuot_mul_right _ _ _ _ (Nat.two_pow_pos _)]
  case isFalse h =>
    have hexp : (e - (1 - (f.bias : Int))).toNat = (-((f.m : Int) - e)).toNat + (f.bias + f.m - 1) := by omega
    rw [hexp, Nat.pow_add, ← Nat.mul_assoc, roundQuot_mul_right _ _ _ _ (Nat.two_pow_pos _)]

/-- In its binade, a quotient has m + 1 significant bits before the point, or fewer if it is subnormal. -/
theorem binadeOf_bounds (f : FloatFormat) (hb : 0 < f.bias) {n d : Nat} (hn : 0 < n) (hd : 0 < d) :
    (binadeOf f n d = 0 ∨ 2 ^ f.m * (d * 2 ^ binadeOf f n d) ≤ f.scaled n) ∧ f.scaled n < 2 ^ (f.m + 1) * (d * 2 ^ binadeOf f n d) := by
  have hscale : ∀ k j, 2 ^ k * (d * 2 ^ j) = 2 ^ (k + j) * d := fun k j => by grind
  have hiff := fun a => le_expoQuot_iff hn hd a (f.bias + f.m - 1)
  simp only [hscale, FloatFormat.scaled]
  constructor
  · by_cases h : binadeOf f n d = 0
    · exact .inl h
    · exact .inr ((hiff _).mp (by unfold binadeOf at h ⊢; omega))
  · exact Nat.not_le.mp fun h => by
      have := (hiff _).mpr h
      unfold binadeOf at this
      omega

/-- The pattern `a` and the next one lie about the quotient n / d: the first not above it, the second above. -/
def FloatFormat.Brackets (f : FloatFormat) (n d a : Nat) : Prop :=
  f.steps a * d ≤ f.scaled n ∧ f.scaled n < f.steps (a + 1) * d

/-- `roundMag` takes one of the two patterns about the quotient, the one that the mode chooses by the distances to them (R29). -/
theorem roundMag_spec (f : FloatFormat) (hm : 0 < f.m) (hb : 0 < f.bias) (mode : RoundMode) (neg : Bool) {n d : Nat} (hn : 0 < n) (hd : 0 < d) :
    ∃ a, f.Brackets n d a ∧ roundMag f mode neg n d
      = a + (mode.away neg (decide (a % 2 = 1)) (f.scaled n - f.steps a * d) (f.steps (a + 1) * d - f.scaled n)).toNat := by
  obtain ⟨hlow, hhigh⟩ := binadeOf_bounds f hb hn hd
  generalize hj : binadeOf f n d = j at hlow hhigh
  have hpos : 0 < d * 2 ^ j := Nat.mul_pos hd (Nat.two_pow_pos j)
  obtain ⟨q, hq⟩ : ∃ q, f.scaled n / (d * 2 ^ j) = q := ⟨_, rfl⟩
  have hqlow : j = 0 ∨ 2 ^ f.m ≤ q := hlow.imp_right fun h => hq ▸ (Nat.le_div_iff_mul_le hpos).mpr h
  have hqhigh : q < 2 ^ (f.m + 1) := hq ▸ Nat.div_lt_of_lt_mul (by rwa [Nat.mul_comm])
  have hsteps : f.steps (j * 2 ^ f.m + q) * d = q * (d * 2 ^ j) := by
    rw [f.steps_binade hqlow (Nat.le_of_lt hqhigh)]; grind
  have hnext : f.steps (j * 2 ^ f.m + q + 1) * d = q * (d * 2 ^ j) + d * 2 ^ j := by
    rw [Nat.add_assoc, f.steps_binade (hqlow.imp_right Nat.le_succ_of_le) hqhigh]; grind
  have hdecomp : q * (d * 2 ^ j) + f.scaled n % (d * 2 ^ j) = f.scaled n := hq ▸ Nat.div_add_mod' ..
  have hmod : f.scaled n % (d * 2 ^ j) < d * 2 ^ j := Nat.mod_lt _ hpos
  have hparity : (j * 2 ^ f.m + q) % 2 = q % 2 := by
    obtain ⟨m, hm'⟩ : ∃ m, f.m = m + 1 := ⟨f.m - 1, by omega⟩
    rw [hm', Nat.pow_succ, ← Nat.mul_assoc, Nat.add_comm, Nat.add_mul_mod_self_right]
  have hlo : f.scaled n - q * (d * 2 ^ j) = f.scaled n % (d * 2 ^ j) := by omega
  have hhi : q * (d * 2 ^ j) + d * 2 ^ j - f.scaled n = d * 2 ^ j - f.scaled n % (d * 2 ^ j) := by omega
  refine ⟨j * 2 ^ f.m + q, ⟨by omega, by omega⟩, ?_⟩
  rw [roundMag_eq f hb, hj, roundQuot_eq _ _ _ hpos, hq, hparity, hsteps, hnext, hlo, hhi, Nat.add_assoc]

end Sys2Proof.Machine
end

section
/-! SUPPORT. What the rounding functions give (R29 to R31): the nearest pattern, the magnitude at or below a quotient, the magnitude at or above it. -/

namespace Sys2Proof.Machine

/-- The distance of the pattern `mag` from the quotient n / d, in steps and times d. -/
def FloatFormat.off (f : FloatFormat) (n d mag : Nat) : Nat := ((f.scaled n : Int) - f.steps mag * d).natAbs

/-- Among the patterns up to `last`, `k` is the nearest to n / d, and the even one where two are (R29). -/
def FloatFormat.Nearest (f : FloatFormat) (last n d k : Nat) : Prop :=
  k ≤ last ∧ ∀ j, j ≤ last → f.off n d k < f.off n d j ∨ (f.off n d k = f.off n d j ∧ (k = j ∨ k % 2 = 0))

/-- The modes that round toward 0 a value of the given sign (R29). -/
def RoundMode.Inward (mode : RoundMode) (neg : Bool) : Prop :=
  mode = .rtz ∨ (mode = .rup ∧ neg = true) ∨ (mode = .rdn ∧ neg = false)

/-- The modes that round away from 0 a value of the given sign (R29). -/
def RoundMode.Outward (mode : RoundMode) (neg : Bool) : Prop :=
  (mode = .rup ∧ neg = false) ∨ (mode = .rdn ∧ neg = true)

section
variable {f : FloatFormat} (hm : 0 < f.m) (hb : 0 < f.bias) {mode : RoundMode} {neg : Bool} {n d : Nat} (hn : 0 < n) (hd : 0 < d)
include hm hb hn hd

/-- A pattern not above the quotient is not above what it rounds to, under any mode. -/
theorem le_roundMag_of_steps_le {j : Nat} (h : f.steps j * d ≤ f.scaled n) : j ≤ roundMag f mode neg n d := by
  obtain ⟨a, ⟨-, hhigh⟩, hround⟩ := roundMag_spec f hm hb mode neg hn hd
  have hja : j < a + 1 := (steps_mul_lt_iff f hd).mp (Nat.lt_of_le_of_lt h hhigh)
  omega

/-- Toward 0: the greatest pattern that is not above the quotient. -/
theorem le_roundMag_iff (hmode : mode.Inward neg) (j : Nat) : j ≤ roundMag f mode neg n d ↔ f.steps j * d ≤ f.scaled n := by
  refine ⟨fun h => ?_, le_roundMag_of_steps_le hm hb hn hd⟩
  obtain ⟨a, ⟨hlow, -⟩, hround⟩ := roundMag_spec f hm hb mode neg hn hd
  have hstay : ∀ odd lo hi, mode.away neg odd lo hi = false := by
    obtain rfl | ⟨rfl, rfl⟩ | ⟨rfl, rfl⟩ := hmode <;> exact fun _ _ _ => rfl
  rw [hround, hstay] at h
  exact Nat.le_trans ((steps_mul_le_iff f hd).mpr h) hlow

/-- Away from 0: the least pattern that is not below the quotient. -/
theorem roundMag_le_iff (hmode : mode.Outward neg) (j : Nat) : roundMag f mode neg n d ≤ j ↔ f.scaled n ≤ f.steps j * d := by
  obtain ⟨a, ⟨hlow, hhigh⟩, hround⟩ := roundMag_spec f hm hb mode neg hn hd
  have hup : ∀ odd lo hi, mode.away neg odd lo hi = decide (lo ≠ 0) := by
    obtain ⟨rfl, rfl⟩ | ⟨rfl, rfl⟩ := hmode <;> exact fun _ _ _ => rfl
  rw [hround, hup]
  have hja := steps_mul_le_iff f hd (j := a) (k := j)
  have hnext := steps_mul_le_iff f hd (j := a + 1) (k := j)
  have hlast := steps_mul_le_iff f hd (j := j) (k := a)
  by_cases hexact : f.scaled n - f.steps a * d = 0
  · simp only [hexact, ne_eq, not_true_eq_false, decide_false, Bool.toNat_false]
    omega
  · simp only [hexact, ne_eq, not_false_eq_true, decide_true, Bool.toNat_true]
    omega

/-- To nearest: the pattern nearest to the quotient, and among those up to `last` the same or the last. -/
theorem nearest_min_roundMag (last : Nat) : f.Nearest last n d (min (roundMag f .rne neg n d) last) := by
  obtain ⟨a, ⟨hlow, hhigh⟩, hround⟩ := roundMag_spec f hm hb .rne neg hn hd
  refine ⟨Nat.min_le_right .., fun j hj => ?_⟩
  have hbefore := steps_mul_lt_iff f hd (j := j) (k := a)
  have hafter := steps_mul_lt_iff f hd (j := a + 1) (k := j)
  have hlast := steps_mul_lt_iff f hd (j := j) (k := last)
  have hlasta := steps_mul_le_iff f hd (j := last) (k := a)
  have hoff : ∀ k, f.off n d k = ((f.scaled n : Int) - (f.steps k * d : Nat)).natAbs := fun k => by
    rw [FloatFormat.off, Int.natCast_mul]
  rw [hround, hoff, hoff]
  by_cases hcut : last ≤ a
  · rw [Nat.min_eq_right (by omega)]
    obtain rfl | hlt : j = last ∨ j < last := by omega
    all_goals omega
  · cases hup : RoundMode.away .rne neg (decide (a % 2 = 1)) (f.scaled n - f.steps a * d) (f.steps (a + 1) * d - f.scaled n) with
    | true =>
      rw [Bool.toNat_true, Nat.min_eq_left (by omega)]
      simp only [RoundMode.away, Bool.or_eq_true, Bool.and_eq_true, decide_eq_true_eq] at hup
      obtain h | rfl | rfl | h : j < a ∨ j = a ∨ j = a + 1 ∨ a + 1 < j := by omega
      all_goals omega
    | false =>
      rw [Bool.toNat_false, Nat.add_zero, Nat.min_eq_left (by omega)]
      simp only [RoundMode.away, Bool.or_eq_false_iff, Bool.and_eq_false_iff, decide_eq_false_iff_not] at hup
      obtain h | rfl | rfl | h : j < a ∨ j = a ∨ j = a + 1 ∨ a + 1 < j := by omega
      all_goals omega
end

/-! ROUND and NARROW: the pattern limited to the format -/

section
variable {f : FloatFormat} {mode : RoundMode} {neg : Bool} (n d : Nat)

variable {n d} in
theorem roundRat_of_le (h : roundMag f mode neg n d ≤ f.max) : roundRat f mode neg n d = withSign f neg (roundMag f mode neg n d) := if_pos h

theorem roundRat_rne (hinf : f.inf = some (f.max + 1)) :
    roundRat f .rne neg n d = withSign f neg (min (roundMag f .rne neg n d) (f.max + 1)) := by
  simp only [roundRat, infOf, hinf, Option.getD_some]
  split
  · rw [Nat.min_eq_left (by omega)]
  · rw [Nat.min_eq_right (by omega)]

theorem roundRat_inward (hmode : mode.Inward neg) :
    roundRat f mode neg n d = withSign f neg (min (roundMag f mode neg n d) f.max) := by
  have hover : f.max < roundMag f mode neg n d → roundRat f mode neg n d = withSign f neg f.max := fun h => by
    refine (if_neg (Nat.not_le.mpr h)).trans ?_
    obtain rfl | ⟨rfl, rfl⟩ | ⟨rfl, rfl⟩ := hmode <;> rfl
  obtain h | h := Nat.lt_or_ge f.max (roundMag f mode neg n d)
  · rw [hover h, Nat.min_eq_right (Nat.le_of_lt h)]
  · rw [roundRat_of_le h, Nat.min_eq_left h]

theorem roundRat_outward (hinf : f.inf = some (f.max + 1)) (hmode : mode.Outward neg) :
    roundRat f mode neg n d = withSign f neg (min (roundMag f mode neg n d) (f.max + 1)) := by
  have hover : f.max < roundMag f mode neg n d → roundRat f mode neg n d = infOf f neg := fun h => by
    refine (if_neg (Nat.not_le.mpr h)).trans ?_
    obtain ⟨rfl, rfl⟩ | ⟨rfl, rfl⟩ := hmode <;> rfl
  obtain h | h := Nat.lt_or_ge f.max (roundMag f mode neg n d)
  · rw [hover h, infOf, hinf, Option.getD_some, Nat.min_eq_right (by omega)]
  · rw [roundRat_of_le h, Nat.min_eq_left (by omega)]
end

end Sys2Proof.Machine
end

section
/-! SUPPORT. Values of patterns and scale bytes (R22, R27, R28), dyadic numbers, and saturation (SAT). -/

namespace Sys2Proof.Machine

/-! Patterns of a format (R22) -/

theorem withSign_mod (f : FloatFormat) (neg : Bool) {mag : Nat} (h : mag < 2 ^ (f.width - 1)) :
    withSign f neg mag % 2 ^ (f.width - 1) = mag := by
  cases neg <;> simp [withSign, Nat.mod_eq_of_lt h]

theorem withSign_testBit (f : FloatFormat) (neg : Bool) {mag : Nat} (h : mag < 2 ^ (f.width - 1)) :
    (withSign f neg mag).testBit (f.width - 1) = neg := by
  cases neg with
  | false => exact Nat.testBit_lt_two_pow h
  | true => simp [withSign, Nat.add_comm mag, Nat.testBit_two_pow_add_eq, Nat.testBit_lt_two_pow h]

/-- VAL of a pattern with its sign, by what the magnitude is (R22, R29). -/
theorem valOf_withSign (f : FloatFormat) (neg : Bool) {mag : Nat} (h : mag < 2 ^ (f.width - 1)) :
    valOf f (withSign f neg mag) =
      if mag = 0 then .zero neg
      else if mag ≤ f.max then
        .fin (if neg then -((if mag / 2 ^ f.m = 0 then mag else mag % 2 ^ f.m + 2 ^ f.m : Nat) : Int)
            else (if mag / 2 ^ f.m = 0 then mag else mag % 2 ^ f.m + 2 ^ f.m : Nat))
          ((if mag / 2 ^ f.m = 0 then 1 else ((mag / 2 ^ f.m : Nat) : Int)) - f.bias - f.m)
      else if f.inf = some mag then .inf neg
      else .nan := by
  simp only [valOf, withSign_mod f neg h, withSign_testBit f neg h]

/-- A finite pattern is the number of smallest steps that `FloatFormat.steps` says. -/
theorem valOf_withSign_finite (f : FloatFormat) (neg : Bool) {mag : Nat} (h : mag < 2 ^ (f.width - 1)) (hpos : 0 < mag) (hmax : mag ≤ f.max) :
    ∃ m e, valOf f (withSign f neg mag) = .fin m e ∧ 1 - (f.bias : Int) - f.m ≤ e
      ∧ m * 2 ^ (e - (1 - (f.bias : Int) - f.m)).toNat = if neg then -(f.steps mag : Int) else f.steps mag := by
  rw [valOf_withSign f neg h, if_neg (Nat.ne_of_gt hpos), if_pos hmax]
  refine ⟨_, _, rfl, ?_⟩
  by_cases he : mag / 2 ^ f.m = 0
  · simp [he, FloatFormat.steps]
  · simp only [FloatFormat.steps, if_neg he]
    generalize mag / 2 ^ f.m = j at he ⊢
    have hexp : ((j : Int) - f.bias - f.m - (1 - (f.bias : Int) - f.m)).toNat = j - 1 := by omega
    refine ⟨by omega, ?_⟩
    rw [hexp]
    cases neg
    · simp
    · rw [if_pos rfl, if_pos rfl, Int.neg_mul]
      simp

/-! The magnitude of a number as a quotient -/

theorem quotOf_natCast (m : Int) (e : Nat) : quotOf m e = (m.natAbs * 2 ^ e, 1) := by
  simp [quotOf, scaleQuot]

theorem quotOf_neg_natCast (m : Int) {e : Nat} (he : 0 < e) : quotOf m (-e) = (m.natAbs, 2 ^ e) := by
  simp [quotOf, scaleQuot, Nat.ne_of_gt he]

/-! Dyadic numbers -/

theorem ofIntWithPrec_add (a b p : Int) : Dyadic.ofIntWithPrec (a + b) p = Dyadic.ofIntWithPrec a p + Dyadic.ofIntWithPrec b p := by
  simp only [← Dyadic.toRat_inj, Dyadic.toRat_add, Dyadic.toRat_ofIntWithPrec_eq_mul_two_pow, Rat.intCast_add, Rat.add_mul]

theorem ofIntWithPrec_mul (a b p q : Int) : Dyadic.ofIntWithPrec (a * b) (p + q) = Dyadic.ofIntWithPrec a p * Dyadic.ofIntWithPrec b q := by
  simp only [← Dyadic.toRat_inj, Dyadic.toRat_mul, Dyadic.toRat_ofIntWithPrec_eq_mul_two_pow, Rat.intCast_mul, Int.neg_add,
    Rat.zpow_add (show (2 : Rat) ≠ 0 by decide), Rat.mul_assoc]
  exact congrArg _ (by rw [← Rat.mul_assoc, ← Rat.mul_assoc, Rat.mul_comm (b : Rat)])

theorem ofIntWithPrec_mul_two_pow (a p : Int) (k : Nat) : Dyadic.ofIntWithPrec (a * 2 ^ k) p = Dyadic.ofIntWithPrec a (p - k) := by
  have h : Dyadic.ofIntWithPrec (a <<< k) (p - k + k) = Dyadic.ofIntWithPrec a (p - k) := Dyadic.ofIntWithPrec_shiftLeft_add
  rwa [Int.shiftLeft_eq, Int.sub_add_cancel] at h

theorem ofIntWithPrec_ne_zero {a : Int} (h : a ≠ 0) (p : Int) : Dyadic.ofIntWithPrec a p ≠ 0 := by
  rw [Dyadic.ofIntWithPrec, dif_neg h]
  exact Dyadic.of_ne_zero

/-! The block scale E5M3 (R27) -/

theorem e5m3v_subnormal {b : Byte} (h : b.toNat / 8 = 0) : e5m3v b = Num.of (b.toNat % 8 : Nat) (-17) := by
  have hlow : b.toNat % 8 = b.toNat := by omega
  simp only [e5m3v, h, hlow, if_true]
  exact if_neg (by omega)

theorem e5m3v_normal {b : Byte} (hnan : b ≠ 0xFF) (h : b.toNat / 8 ≠ 0) :
    e5m3v b = .fin ((b.toNat % 8 + 8 : Nat) : Int) ((b.toNat / 8 : Nat) - 18) := by
  have hb : b.toNat ≠ 0xFF := fun hb => hnan (BitVec.eq_of_toNat_eq hb)
  simp only [e5m3v, if_neg hb, if_neg h]

theorem Num.exact_of (m e : Int) : (Num.of m e).exact = Dyadic.ofIntWithPrec m (-e) := by
  unfold Num.of
  split
  case isTrue h => rw [h]; rfl
  case isFalse => rfl

/-- E5M3V of a code that is not NaN, by its fields (R27). -/
theorem e5m3v_exact {b : Byte} (h : b ≠ 0xFF) :
    (e5m3v b).exact = if b.toNat / 8 = 0 then Dyadic.ofIntWithPrec (b.toNat % 8 : Nat) 17
      else Dyadic.ofIntWithPrec (8 + (b.toNat % 8 : Nat)) (18 - (b.toNat / 8 : Nat)) := by
  split
  case isTrue he => rw [e5m3v_subnormal he, Num.exact_of]; rfl
  case isFalse he =>
    rw [e5m3v_normal h he, Num.exact]
    congr 1 <;> omega

/-- A scale byte is NaN, +0 or a positive number (R27). -/
theorem e5m3v_cases (b : Byte) : (b = 0xFF ∧ e5m3v b = .nan) ∨ (b ≠ 0xFF ∧ (e5m3v b = .zero false ∨ ∃ m e, 0 < m ∧ e5m3v b = .fin m e)) := by
  by_cases hnan : b = 0xFF
  · exact .inl ⟨hnan, by rw [hnan]; rfl⟩
  refine .inr ⟨hnan, ?_⟩
  by_cases he : b.toNat / 8 = 0
  · rw [e5m3v_subnormal he, Num.of]
    split
    case isTrue => exact .inl rfl
    case isFalse h => exact .inr ⟨_, _, by omega, rfl⟩
  · rw [e5m3v_normal hnan he]
    exact .inr ⟨_, _, by omega, rfl⟩

/-- Codes of one exponent are one step of that exponent apart (R27). -/
theorem e5m3v_succ {b : Byte} (h : b.toNat < 0xFE) (hf : b.toNat % 8 < 7) :
    (e5m3v (b + 1)).exact = (e5m3v b).exact + Dyadic.ofIntWithPrec 1 (if b.toNat / 8 = 0 then 17 else 18 - (b.toNat / 8 : Nat)) := by
  have hnext : (b + 1).toNat = b.toNat + 1 := by
    rw [BitVec.toNat_add]
    exact Nat.mod_eq_of_lt (by simp; omega)
  have hnan : ∀ c : Byte, c.toNat < 0xFF → c ≠ 0xFF := fun c hc he => by simp [he] at hc
  have hexp : (b.toNat + 1) / 8 = b.toNat / 8 := by omega
  have hfrac : (b.toNat + 1) % 8 = b.toNat % 8 + 1 := by omega
  rw [e5m3v_exact (hnan _ (by omega)), e5m3v_exact (hnan _ (by omega)), hnext, hexp, hfrac]
  split
  · rw [Int.natCast_add, ofIntWithPrec_add]; rfl
  · rw [Int.natCast_add, ← Int.add_assoc, ofIntWithPrec_add]; rfl

/-! SAT -/

theorem clampInt_eq (x : Int) {lo hi : Int} (h : lo ≤ hi) : clampInt x lo hi = max lo (min x hi) := by
  unfold clampInt
  split
  · omega
  · split <;> omega

theorem satInt_unsigned (n : Nat) (r : Int) : satInt n true r = max 0 (min r (2 ^ n - 1)) :=
  clampInt_eq r (by
    have : (0 : Int) < 2 ^ n := Int.pow_pos (by decide)
    simp only [intLo, intHi, if_true]; omega)

theorem satInt_signed (n : Nat) (r : Int) : satInt n false r = max (-2 ^ (n - 1)) (min r (2 ^ (n - 1) - 1)) :=
  clampInt_eq r (by
    have : (0 : Int) < 2 ^ (n - 1) := Int.pow_pos (by decide)
    simp only [intLo, intHi, Bool.false_eq_true, if_false]; omega)

/-- Without .sat a result is written modulo 2^32 (R135). -/
theorem writeInt_wraps (un : Bool) (r : Int) : ((writeInt false un r).toNat : Int) = r % 2 ^ 32 := by
  simp [writeInt, BitVec.toNat_ofInt]
  omega

/-- With .sat the word holds the limited result (R135). -/
theorem intOf_writeInt_sat (un : Bool) (r : Int) : intOf un (writeInt true un r) = satInt 32 un r := by
  cases un with
  | true =>
    simp only [intOf, writeInt, satInt_unsigned, if_true, BitVec.toNat_ofInt]
    omega
  | false =>
    simp only [intOf, writeInt, satInt_signed, if_true, Bool.false_eq_true, if_false, BitVec.toInt_ofInt, Int.bmod_def]
    omega

end Sys2Proof.Machine
end

section
/-! CERTIFICATES. The numbers (R22, R27 to R31, R426): O4, from the rules of rounding and of values. -/

namespace Sys2Proof.Machine

/-- What ROUND needs of FP32, FP16 and BF16: a fraction, a bias, and the infinity just above the largest finite pattern. -/
theorem wide_formats : ∀ f ∈ [fp32, fp16, bf16], 0 < f.m ∧ 0 < f.bias ∧ f.inf = some (f.max + 1) := by decide

theorem narrowed_formats : ∀ f ∈ [e4m3, e5m2, e2m1], 0 < f.m ∧ 0 < f.bias := by decide

/-- In the formats of R22 an infinity stands above the finite patterns. -/
theorem formats_max_lt_inf : ∀ f ∈ [fp32, fp16, bf16] ++ [e4m3, e5m2, e2m1], ∀ mag, f.inf = some mag → f.max < mag := by
  simp [fp32, fp16, bf16, e4m3, e5m2, e2m1]

/-- R29: the four values of a magnitude pattern of a format of R22. -/
theorem valOf_of_pattern (f : FloatFormat) (hf : ∀ mag, f.inf = some mag → f.max < mag) (neg : Bool) (mag : Nat) (h : mag < 2 ^ (f.width - 1)) :
    (mag = 0 → valOf f (withSign f neg mag) = .zero neg)
    ∧ (0 < mag → mag ≤ f.max → ∃ m e, valOf f (withSign f neg mag) = .fin m e ∧ 1 - (f.bias : Int) - f.m ≤ e
        ∧ m * 2 ^ (e - (1 - (f.bias : Int) - f.m)).toNat = if neg then -(f.steps mag : Int) else f.steps mag)
    ∧ (f.inf = some mag → valOf f (withSign f neg mag) = .inf neg)
    ∧ (f.max < mag → f.inf ≠ some mag → valOf f (withSign f neg mag) = .nan) := by
  refine ⟨fun hz => ?_, valOf_withSign_finite f neg h, fun hinf => ?_, fun hmax hinf => ?_⟩
  · rw [valOf_withSign f neg h, if_pos hz]
  · have hmax := hf mag hinf
    rw [valOf_withSign f neg h, if_neg (by omega), if_neg (by omega), if_pos hinf]
  · rw [valOf_withSign f neg h, if_neg (by omega), if_neg (by omega), if_neg hinf]

/-- R29: ROUND of a positive quotient under each mode. -/
theorem roundRat_under_each_mode {f : FloatFormat} (hf : 0 < f.m ∧ 0 < f.bias ∧ f.inf = some (f.max + 1)) (neg : Bool) {n d : Nat} (hn : 0 < n) (hd : 0 < d) :
      (∃ k, roundRat f .rne neg n d = withSign f neg k ∧ (f.steps (f.max + 1) * d ≤ f.scaled n → k = f.max + 1)
        ∧ (f.scaled n ≤ f.steps (f.max + 1) * d → f.Nearest (f.max + 1) n d k))
      ∧ (∀ mode : RoundMode, mode.Inward neg →
          ∃ k, k ≤ f.max ∧ roundRat f mode neg n d = withSign f neg k ∧ f.steps k * d ≤ f.scaled n
            ∧ ∀ j, j ≤ f.max → f.steps j * d ≤ f.scaled n → f.steps j ≤ f.steps k)
      ∧ (∀ mode : RoundMode, mode.Outward neg →
          ∃ k, k ≤ f.max + 1 ∧ roundRat f mode neg n d = withSign f neg k
            ∧ (f.scaled n ≤ f.steps (f.max + 1) * d → f.scaled n ≤ f.steps k * d)
            ∧ (f.steps (f.max + 1) * d < f.scaled n → k = f.max + 1)
            ∧ ∀ j, j ≤ f.max → f.scaled n ≤ f.steps j * d → f.steps k ≤ f.steps j) := by
  obtain ⟨hm, hb, hinf⟩ := hf
  refine ⟨⟨_, roundRat_rne n d hinf, fun h => ?_, fun _ => nearest_min_roundMag hm hb hn hd _⟩, fun mode hmode => ?_, fun mode hmode => ?_⟩
  · exact Nat.min_eq_right (le_roundMag_of_steps_le hm hb hn hd h)
  · have hiff := le_roundMag_iff hm hb hn hd hmode
    refine ⟨_, Nat.min_le_right .., roundRat_inward n d hmode, (hiff _).mp (Nat.min_le_left ..), fun j hj h => ?_⟩
    exact f.steps_mono (Nat.le_min.mpr ⟨(hiff j).mpr h, hj⟩)
  · have hiff := roundMag_le_iff hm hb hn hd hmode
    refine ⟨_, Nat.min_le_right .., roundRat_outward n d hinf hmode, fun h => ?_, fun h => ?_, fun j hj h => ?_⟩
    · rw [Nat.min_eq_left ((hiff _).mpr h)]
      exact (hiff _).mp (Nat.le_refl _)
    · exact Nat.min_eq_right (Nat.le_of_not_le fun hle => Nat.not_le.mpr h ((hiff _).mp hle))
    · exact f.steps_mono (Nat.le_trans (Nat.min_le_left ..) ((hiff j).mpr h))

/-- R29: ROUND of NaN, infinities and zeros, and of a number as that of its quotient. -/
theorem round_values {f : FloatFormat} (hinf : f.inf = some (f.max + 1)) (mode : RoundMode) :
    round f mode .nan = f.qnan ∧ (∀ neg, round f mode (.zero neg) = withSign f neg 0)
      ∧ (∀ neg, round f mode (.inf neg) = withSign f neg (f.max + 1))
      ∧ (∀ (m : Int) (e : Nat), round f mode (.fin m e) = roundRat f mode (decide (m < 0)) (m.natAbs * 2 ^ e) 1)
      ∧ (∀ (m : Int) (e : Nat), 0 < e → round f mode (.fin m (-e)) = roundRat f mode (decide (m < 0)) m.natAbs (2 ^ e)) := by
  refine ⟨rfl, fun _ => rfl, fun neg => ?_, fun m e => ?_, fun m e he => ?_⟩
  · simp only [round, infOf, hinf, Option.getD_some]
  · simp only [round, quotOf_natCast]
  · simp only [round, quotOf_neg_natCast m he]

/-- R31: NARROW, which never leaves the finite patterns. -/
theorem narrow_values {f : FloatFormat} (hf : 0 < f.m ∧ 0 < f.bias) :
    narrow f .nan = f.qnan ∧ (∀ neg, narrow f (.zero neg) = withSign f neg 0 ∧ narrow f (.inf neg) = withSign f neg f.max)
      ∧ (∀ (m : Int) (e : Nat), narrow f (.fin m e) = narrowRat f (decide (m < 0)) (m.natAbs * 2 ^ e) 1)
      ∧ (∀ (m : Int) (e : Nat), 0 < e → narrow f (.fin m (-e)) = narrowRat f (decide (m < 0)) m.natAbs (2 ^ e))
      ∧ ∀ (neg : Bool) (n d : Nat), 0 < n → 0 < d → ∃ k, narrowRat f neg n d = withSign f neg k ∧ f.Nearest f.max n d k := by
  obtain ⟨hm, hb⟩ := hf
  refine ⟨rfl, fun _ => ⟨rfl, rfl⟩, fun m e => ?_, fun m e he => ?_, fun neg n d hn hd => ⟨_, rfl, ?_⟩⟩
  · simp only [narrow, quotOf_natCast]
  · simp only [narrow, quotOf_neg_natCast m he]
  · exact nearest_min_roundMag hm hb hn hd f.max

/-- R30: the three ranges of E5M3 of a positive quotient. -/
theorem e5m3Rat_ranges {n d : Nat} (hn : 0 < n) (hd : 0 < d) :
    (n * 2 ^ 17 < d → e5m3Rat n d = 0) ∧ (114688 * d ≤ n → e5m3Rat n d = 0xFE)
    ∧ (d ≤ n * 2 ^ 17 → n < 114688 * d → e5m3Format.Nearest 0xFE n d (e5m3Rat n d).toNat) := by
  have hcode : d ≤ n * 2 ^ 17 → e5m3Rat n d = BitVec.ofNat 8 (min (roundMag e5m3Format .rne false n d) 0xFE) :=
    fun h => if_neg (Nat.not_lt.mpr h)
  refine ⟨fun h => if_pos h, fun h => ?_, fun h _ => ?_⟩
  · have hsteps : e5m3Format.steps 0xFE * d ≤ e5m3Format.scaled n := by
      have hlast : e5m3Format.steps 0xFE = 114688 * 2 ^ 17 := by decide
      rw [hlast, Nat.mul_right_comm]
      exact Nat.mul_le_mul_right _ h
    have hlast : 0xFE ≤ roundMag e5m3Format .rne false n d := le_roundMag_of_steps_le (by decide) (by decide) hn hd hsteps
    rw [hcode (by omega), Nat.min_eq_right hlast]
    rfl
  · rw [hcode h, BitVec.toNat_ofNat, Nat.mod_eq_of_lt (by omega)]
    exact nearest_min_roundMag (by decide) (by decide) hn hd 0xFE

/-- R30: E5M3 of what is not a positive number, and of a number as that of its quotient. -/
theorem e5m3_values : e5m3 .nan = 0xFF ∧ e5m3 (.inf true) = 0xFF ∧ e5m3 (.inf false) = 0xFE ∧ (∀ neg, e5m3 (.zero neg) = 0)
    ∧ (∀ m e, m < 0 → e5m3 (.fin m e) = 0xFF)
    ∧ (∀ (m : Int) (e : Nat), 0 < m → e5m3 (.fin m e) = e5m3Rat (m.natAbs * 2 ^ e) 1
      ∧ (0 < e → e5m3 (.fin m (-e)) = e5m3Rat m.natAbs (2 ^ e))) := by
  refine ⟨rfl, rfl, rfl, fun _ => rfl, fun m e h => if_pos h, fun m e h => ⟨?_, fun he => ?_⟩⟩
  · simp only [e5m3, if_neg (Int.not_lt.mpr (Int.le_of_lt h)), quotOf_natCast]
  · simp only [e5m3, if_neg (Int.not_lt.mpr (Int.le_of_lt h)), quotOf_neg_natCast m he]

/-- R27: what a scale byte is, by its fields. -/
theorem e5m3v_values (b : Byte) :
    (b = 0xFF → e5m3v b = .nan) ∧ (b = 0 → e5m3v b = .zero false)
    ∧ (b ≠ 0xFF → (e5m3v b).exact = if b.toNat / 8 = 0 then Dyadic.ofIntWithPrec (b.toNat % 8 : Nat) 17
        else Dyadic.ofIntWithPrec (8 + (b.toNat % 8 : Nat)) (18 - (b.toNat / 8 : Nat)))
    ∧ (∀ neg, e5m3v b ≠ .inf neg) ∧ e5m3v b ≠ .zero true ∧ (e5m3v b).neg = false
    ∧ (b.toNat < 0xFE → b.toNat % 8 < 7 → (e5m3v (b + 1)).exact
        = (e5m3v b).exact + Dyadic.ofIntWithPrec 1 (if b.toNat / 8 = 0 then 17 else 18 - (b.toNat / 8 : Nat))) := by
  have hsign : (∀ neg, e5m3v b ≠ .inf neg) ∧ e5m3v b ≠ .zero true ∧ (e5m3v b).neg = false := by
    obtain ⟨-, h⟩ | ⟨-, h | ⟨m, e, hm, h⟩⟩ := e5m3v_cases b <;> rw [h]
    · exact ⟨nofun, nofun, rfl⟩
    · exact ⟨nofun, nofun, rfl⟩
    · exact ⟨nofun, nofun, decide_eq_false (Int.not_lt.mpr (Int.le_of_lt hm))⟩
  obtain ⟨hinf, hzero, hneg⟩ := hsign
  exact ⟨fun h => by rw [h]; rfl, fun h => by rw [h]; rfl, e5m3v_exact, hinf, hzero, hneg, e5m3v_succ⟩

/-- R426: sums and products are exact, a zero adds nothing, and the sign of a zero is fixed. -/
theorem exact_sums_and_products (mode : RoundMode) (m1 e1 m2 e2 : Int) :
    let low := min e1 e2
    let sum := m1 * 2 ^ (e1 - low).toNat + m2 * 2 ^ (e2 - low).toNat
    (sum ≠ 0 → addNum mode (.fin m1 e1) (.fin m2 e2) = .fin sum low)
    ∧ (sum = 0 → addNum mode (.fin m1 e1) (.fin m2 e2) = .zero (mode == .rdn))
    ∧ mulNum (.fin m1 e1) (.fin m2 e2) = .fin (m1 * m2) (e1 + e2)
    ∧ (∀ neg, addNum mode (.zero neg) (.fin m1 e1) = .fin m1 e1 ∧ addNum mode (.fin m1 e1) (.zero neg) = .fin m1 e1)
    ∧ ∀ a b, addNum mode (.zero a) (.zero b) = .zero (if a = b then a else mode == .rdn)
      ∧ mulNum (.zero a) (.zero b) = .zero (a != b) ∧ mulNum (.zero a) (.fin m1 e1) = .zero (a != decide (m1 < 0)) := by
  refine ⟨fun h => if_neg h, fun h => if_pos h, rfl, fun _ => ⟨rfl, rfl⟩, fun a b => ⟨?_, rfl, rfl⟩⟩
  exact (apply_ite Num.zero _ _ _).symm

/-- Settles O4: `roundMag_spec` puts the rounded pattern beside the quotient, from which each mode and the limits of ROUND, NARROW and E5M3 follow; the values of patterns and of scale bytes go by their fields, and R426 and SAT by the definitions. -/
theorem numbersRoundAsSpecified : Obligations.NumbersRoundAsSpecified := by
  unfold Obligations.NumbersRoundAsSpecified
  obtain ⟨hnan, hneginf, hinf, hzero, hneg, hpos⟩ := e5m3_values
  refine ⟨⟨⟨rfl, rfl, rfl, rfl, rfl, rfl⟩, fun f hf => valOf_of_pattern f (formats_max_lt_inf f hf),
    fun f hf neg n d hn hd => roundRat_under_each_mode (wide_formats f hf) neg hn hd,
    fun f hf mode => round_values (wide_formats f hf).2.2 mode, fun f hf => narrow_values (narrowed_formats f hf),
    ⟨hnan, hneginf, hinf, hzero, hneg, hpos, fun n d hn hd => e5m3Rat_ranges hn hd⟩, ⟨e5m3v_values, ?_⟩, exact_sums_and_products⟩,
    fun n r _ => ⟨satInt_unsigned n r, satInt_signed n r⟩, fun un r => ⟨writeInt_wraps un r, intOf_writeInt_sat un r⟩⟩
  decide

end Sys2Proof.Machine
end

section
/-! SUPPORT. Exact arithmetic (R29, R426): finite sums, and a value that is a number, with the dyadic number it holds, through sums and products. -/

namespace Sys2Proof.Machine

/-! Finite sums -/

/-- The sum of h 0 to h (n - 1). -/
def sumTo {α : Type} [Add α] [OfNat α 0] (n : Nat) (h : Nat → α) : α := ((List.range n).map h).foldl (· + ·) 0

section
variable {α β : Type} [Add α] [OfNat α 0] [Add β] [OfNat β 0]

theorem sumTo_succ (n : Nat) (h : Nat → α) : sumTo (n + 1) h = sumTo n h + h n := by
  rw [sumTo, List.range_succ, List.map_append, List.foldl_append]
  rfl

theorem sumTo_congr {n : Nat} {g h : Nat → α} (hgh : ∀ k, k < n → g k = h k) : sumTo n g = sumTo n h := by
  induction n with
  | zero => rfl
  | succ n ih => rw [sumTo_succ, sumTo_succ, ih fun k hk => hgh k (Nat.lt_succ_of_lt hk), hgh n (Nat.lt_succ_self n)]

/-- A function that keeps sums keeps finite sums. -/
theorem map_sumTo (φ : α → β) (hzero : φ 0 = 0) (hadd : ∀ a b, φ (a + b) = φ a + φ b) (n : Nat) (h : Nat → α) :
    φ (sumTo n h) = sumTo n fun k => φ (h k) := by
  induction n with
  | zero => exact hzero
  | succ n ih => rw [sumTo_succ, hadd, ih, sumTo_succ]
end

theorem mul_sumTo (c : Int) (n : Nat) (h : Nat → Int) : c * sumTo n h = sumTo n fun k => c * h k :=
  map_sumTo (c * ·) (Int.mul_zero c) (Int.mul_add c) n h

theorem sumTo_mul (c : Int) (n : Nat) (h : Nat → Int) : sumTo n h * c = sumTo n fun k => h k * c :=
  map_sumTo (· * c) (Int.zero_mul c) (fun a b => Int.add_mul a b c) n h

theorem sumTo_add (n : Nat) (g h : Nat → Int) : (sumTo n fun k => g k + h k) = sumTo n g + sumTo n h := by
  induction n with
  | zero => rfl
  | succ n ih => rw [sumTo_succ, sumTo_succ, sumTo_succ, ih]; omega

theorem sumTo_comm (n m : Nat) (g : Nat → Nat → Int) : (sumTo n fun i => sumTo m fun j => g i j) = sumTo m fun j => sumTo n fun i => g i j := by
  induction n with
  | zero => exact map_sumTo (fun _ : Int => (0 : Int)) rfl (fun _ _ => rfl) m fun _ => 0
  | succ n ih =>
    rw [sumTo_succ, ih, ← sumTo_add]
    exact sumTo_congr fun j _ => (sumTo_succ n fun i => g i j).symm

/-- What a sum has over another is the sum of the differences. -/
theorem sumTo_add_sub (n : Nat) (g h : Nat → Dyadic) : sumTo n h + (sumTo n fun k => g k - h k) = sumTo n g := by
  induction n with
  | zero => rfl
  | succ n ih => rw [sumTo_succ, sumTo_succ, sumTo_succ, ← ih]; grind

theorem ofIntWithPrec_sumTo (p : Int) (n : Nat) (h : Nat → Int) :
    Dyadic.ofIntWithPrec (sumTo n h) p = sumTo n fun k => Dyadic.ofIntWithPrec (h k) p :=
  map_sumTo (Dyadic.ofIntWithPrec · p) rfl (fun a b => ofIntWithPrec_add a b p) n h

/-! Values that are numbers -/

/-- The value is the number `q`, and written as a mantissa and an exponent only where it is not 0. -/
def Num.Holds (v : Num) (q : Dyadic) : Prop :=
  match v with
  | .zero _ => q = 0
  | .fin m e => m ≠ 0 ∧ Dyadic.ofIntWithPrec m (-e) = q
  | _ => False

namespace Num.Holds

variable {v w : Num} {p q : Dyadic}

theorem finite (h : v.Holds q) : v.finite = true := by
  cases v with
  | nan | inf => exact h.elim
  | zero | fin => rfl

theorem exact_eq (h : v.Holds q) : v.exact = q := by
  cases v with
  | nan | inf => exact h.elim
  | zero => exact Eq.symm h
  | fin m e => exact h.2

theorem eq_zero (h : v.Holds 0) : ∃ neg, v = .zero neg := by
  cases v with
  | nan | inf => exact h.elim
  | zero neg => exact ⟨neg, rfl⟩
  | fin m e =>
    obtain ⟨hm, hq⟩ := h
    exact absurd hq (ofIntWithPrec_ne_zero hm (-e))

theorem zero (neg : Bool) : (Num.zero neg).Holds 0 := rfl

theorem of (m e : Int) : (Num.of m e).Holds (Dyadic.ofIntWithPrec m (-e)) := by
  unfold Num.of
  split
  case isTrue h => rw [h]; rfl
  case isFalse h => exact ⟨h, rfl⟩

theorem ofInt (i : Int) : (Num.ofInt i).Holds (Dyadic.ofIntWithPrec i 0) := of i 0

/-- A mantissa brought to a lower exponent is the same number. -/
theorem lowered (m : Int) {e low : Int} (h : low ≤ e) : Dyadic.ofIntWithPrec (m * 2 ^ (e - low).toNat) (-low) = Dyadic.ofIntWithPrec m (-e) := by
  rw [ofIntWithPrec_mul_two_pow]
  congr 1
  omega

theorem add (mode : RoundMode) (hv : v.Holds p) (hw : w.Holds q) : (addNum mode v w).Holds (p + q) := by
  cases v with
  | nan | inf => exact hv.elim
  | zero a =>
    obtain rfl : p = 0 := hv
    rw [Dyadic.zero_add]
    cases w with
    | nan | inf => exact hw.elim
    | zero b =>
      obtain rfl : q = 0 := hw
      cases a <;> cases b <;> exact zero _
    | fin m e => exact hw
  | fin m1 e1 =>
    cases w with
    | nan | inf => exact hw.elim
    | zero b =>
      obtain rfl : q = 0 := hw
      rw [Dyadic.add_zero]
      exact hv
    | fin m2 e2 =>
      obtain ⟨-, rfl⟩ := hv
      obtain ⟨-, rfl⟩ := hw
      have hsum : Dyadic.ofIntWithPrec (addFin m1 e1 m2 e2).1 (-(addFin m1 e1 m2 e2).2)
          = Dyadic.ofIntWithPrec m1 (-e1) + Dyadic.ofIntWithPrec m2 (-e2) := by
        simp only [addFin, ofIntWithPrec_add, lowered _ (Int.min_le_left ..), lowered _ (Int.min_le_right ..)]
      rw [← hsum]
      by_cases hz : (addFin m1 e1 m2 e2).1 = 0
      · have hres : addNum mode (.fin m1 e1) (.fin m2 e2) = .zero (mode == .rdn) := if_pos hz
        rw [hres, hz]
        exact zero _
      · have hres : addNum mode (.fin m1 e1) (.fin m2 e2) = .fin (addFin m1 e1 m2 e2).1 (addFin m1 e1 m2 e2).2 := if_neg hz
        rw [hres]
        exact ⟨hz, rfl⟩

theorem mul (hv : v.Holds p) (hw : w.Holds q) : (mulNum v w).Holds (p * q) := by
  cases v with
  | nan | inf => exact hv.elim
  | zero a =>
    obtain rfl : p = 0 := hv
    rw [Dyadic.zero_mul]
    cases w with
    | nan | inf => exact hw.elim
    | zero | fin => exact zero _
  | fin m1 e1 =>
    cases w with
    | nan | inf => exact hw.elim
    | zero b =>
      obtain rfl : q = 0 := hw
      rw [Dyadic.mul_zero]
      exact zero _
    | fin m2 e2 =>
      obtain ⟨hm1, rfl⟩ := hv
      obtain ⟨hm2, rfl⟩ := hw
      refine ⟨Int.mul_ne_zero hm1 hm2, ?_⟩
      rw [Int.neg_add, ofIntWithPrec_mul]

/-- A running sum of numbers holds the sum of what they hold. -/
theorem foldl_add (mode : RoundMode) (n : Nat) {g : Nat → Num} {h : Nat → Dyadic} (hg : ∀ k, k < n → (g k).Holds (h k)) :
    ((List.range n).foldl (fun acc k => addNum mode acc (g k)) (.zero false)).Holds (sumTo n h) := by
  induction n with
  | zero => exact zero false
  | succ n ih =>
    rw [List.range_succ, List.foldl_append, sumTo_succ]
    exact (ih fun k hk => hg k (Nat.lt_succ_of_lt hk)).add mode (hg n (Nat.lt_succ_self n))

/-- A value that is a number holds its exact number. -/
theorem self (h : v.Holds q) : v.Holds v.exact := h.exact_eq.symm ▸ h

end Num.Holds

/-! The sign of a zero (R426) -/

/-- Rounding to nearest, a sum is -0 only where both terms are. -/
theorem eq_negZero_of_addNum_rne {x y : Num} (h : addNum .rne x y = .zero true) : x = .zero true ∧ y = .zero true := by
  cases x with
  | nan => exact nomatch h
  | inf a =>
    cases y with
    | inf b => cases a <;> cases b <;> exact nomatch h
    | nan | zero | fin => exact nomatch h
  | zero a =>
    cases y with
    | zero b =>
      cases a with
      | false => cases b <;> exact nomatch h
      | true =>
        cases b with
        | false => exact nomatch h
        | true => exact ⟨rfl, rfl⟩
    | nan | inf | fin => exact nomatch h
  | fin m1 e1 =>
    cases y with
    | nan | inf | zero => exact nomatch h
    | fin m2 e2 =>
      simp only [addNum] at h
      split at h <;> exact nomatch h

theorem foldl_addNum_rne_ne_negZero {α : Type} (l : List α) (g : α → Num) {v : Num} (hv : v ≠ .zero true) :
    l.foldl (fun acc a => addNum .rne acc (g a)) v ≠ .zero true := by
  induction l generalizing v with
  | nil => exact hv
  | cons a l ih => exact ih fun h => hv (eq_negZero_of_addNum_rne h).1

/-- A sum that is 0, whose second term is not -0, is +0 under rounding to nearest. -/
theorem addNum_rne_eq_posZero {x y : Num} {p q : Dyadic} (hx : x.Holds p) (hy : y.Holds q) (hne : y ≠ .zero true) (hsum : p + q = 0) :
    addNum .rne x y = .zero false := by
  obtain ⟨neg, hneg⟩ := (hsum ▸ hx.add .rne hy).eq_zero
  cases neg with
  | false => exact hneg
  | true => exact absurd (eq_negZero_of_addNum_rne hneg).2 hne

/-! Patterns and scale bytes -/

/-- A finite value holds its exact number where its mantissa is not 0. -/
theorem Num.holds_exact {v : Num} (hv : v.finite = true) (hm : ∀ m e, v = .fin m e → m ≠ 0) : v.Holds v.exact := by
  cases v with
  | nan | inf => exact nomatch hv
  | zero neg => rfl
  | fin m e => exact ⟨hm m e rfl, rfl⟩

/-- The mantissa of a pattern is not 0. -/
theorem valOf_mantissa_ne_zero {f : FloatFormat} {b : Nat} {m e : Int} (h : valOf f b = .fin m e) : m ≠ 0 := by
  have hpos : 0 < 2 ^ f.m := Nat.two_pow_pos f.m
  simp only [valOf] at h
  split at h
  case isTrue => exact nomatch h
  case isFalse hmag =>
    split at h
    case isTrue =>
      generalize hsig : (if b % 2 ^ (f.width - 1) / 2 ^ f.m = 0 then b % 2 ^ (f.width - 1) else b % 2 ^ (f.width - 1) % 2 ^ f.m + 2 ^ f.m) = sig at h
      have hne : sig ≠ 0 := by split at hsig <;> omega
      obtain ⟨rfl, -⟩ := Num.fin.inj h
      split <;> omega
    case isFalse => split at h <;> exact nomatch h

theorem valOf_holds {f : FloatFormat} {b : Nat} (h : (valOf f b).finite = true) : (valOf f b).Holds (valOf f b).exact :=
  Num.holds_exact h fun _ _ => valOf_mantissa_ne_zero

theorem e5m3v_holds {b : Byte} (h : b ≠ 0xFF) : (e5m3v b).Holds (e5m3v b).exact := by
  obtain ⟨hnan, -⟩ | ⟨-, hv | ⟨m, e, hm, hv⟩⟩ := e5m3v_cases b
  · exact absurd hnan h
  · exact Num.holds_exact (by rw [hv]; rfl) fun _ _ hfin => nomatch hv.symm.trans hfin
  · refine Num.holds_exact (by rw [hv]; rfl) fun m' e' hfin => ?_
    obtain ⟨rfl, -⟩ := Num.fin.inj (hv.symm.trans hfin)
    exact Int.ne_of_gt hm

end Sys2Proof.Machine
end

section
/-! SUPPORT. Digits and counts of an mma (R36, R37, R40): the range of digits, a digit as the sum of its weighted bits, and what the converters return without noise. -/

namespace Sys2Proof.Machine

/-! Bits of a digit -/

/-- Bit `i` of a digit as a number. -/
def bitNum (d : Int) (i : Nat) : Int := (digitBit d i).toNat

theorem bitNum_eq (d : Int) (i : Nat) : bitNum d i = ((d % 256).toNat / 2 ^ i % 2 : Nat) := by
  rw [bitNum, digitBit, Nat.toNat_testBit]

/-- The low bits of a number, by their powers. -/
theorem sum_low_bits (x n : Nat) : (sumTo n fun i => 2 ^ i * (x / 2 ^ i % 2 : Nat) : Int) = (x % 2 ^ n : Nat) := by
  induction n with
  | zero => rw [Nat.pow_zero, Nat.mod_one]; rfl
  | succ n ih => rw [sumTo_succ, ih, Nat.mod_pow_succ, Int.natCast_add, Int.natCast_mul, Int.natCast_pow]; rfl

/-- The weight of the top bit is negative, those of the others are positive (R40). -/
theorem sum_weights (n : Nat) (g : Nat → Int) :
    (sumTo (n + 1) fun i => weight (n + 1) i * g i) = (sumTo n fun i => 2 ^ i * g i) - 2 ^ n * g n := by
  have hlow : ∀ i, i < n → weight (n + 1) i * g i = 2 ^ i * g i := fun i hi => by
    rw [weight, if_neg (by omega)]
  rw [sumTo_succ, sumTo_congr hlow, weight, if_pos rfl, Int.neg_mul, Int.sub_eq_add_neg]

/-- A digit of the range of `nb` bits is the sum of its weighted bits (R40). -/
theorem sum_weighted_bits (f : TileFormat) {d : Int} (hlow : -2 ^ (f.bits - 1) ≤ d) (hhigh : d < 2 ^ (f.bits - 1)) :
    (sumTo f.bits fun i => weight f.bits i * bitNum d i) = d := by
  obtain h | h : f.bits = 3 + 1 ∨ f.bits = 7 + 1 := by cases f <;> decide
  all_goals
    rw [h] at hlow hhigh ⊢
    simp only [sum_weights, bitNum_eq, sum_low_bits]
    omega

/-! The range of digits (R36) -/

theorem int4_bounds (n : Nat) : -8 ≤ int4 n ∧ int4 n < 8 := by
  unfold int4
  split <;> omega

theorem clampInt_bounds (x : Int) {lo hi : Int} (h : lo ≤ hi) : lo ≤ clampInt x lo hi ∧ clampInt x lo hi ≤ hi := by
  rw [clampInt_eq x h]
  omega

theorem alignQ_bounds (v : Num) (e : Int) : -127 ≤ alignQ v e ∧ alignQ v e ≤ 127 := by
  cases v with
  | fin m x => exact clampInt_bounds _ (by decide)
  | nan | inf | zero => simp [alignQ]

theorem e2m1Digit_bounds : ∀ n < 16, -12 ≤ e2m1Digit n ∧ e2m1Digit n ≤ 12 := by decide

theorem nibbleOf_lt (bs : List Byte) (k : Nat) : nibbleOf bs k < 16 := Nat.mod_lt _ (by decide)

/-- The digits of an A row fit the bits of their format. -/
theorem rowDigit_bounds (f : TileFormat) (bs : List Byte) (sidecars : List Int) (k : Nat) :
    -2 ^ (f.bits - 1) ≤ rowDigit f bs sidecars k ∧ rowDigit f bs sidecars k < 2 ^ (f.bits - 1) := by
  cases f with
  | i4x =>
    change -8 ≤ (if _ then 0 else int4 (nibbleOf bs k)) ∧ (if _ then 0 else int4 (nibbleOf bs k)) < 8
    have := int4_bounds (nibbleOf bs k)
    split <;> omega
  | i4 => exact int4_bounds (nibbleOf bs k)
  | i8 => exact ⟨BitVec.le_toInt _, BitVec.toInt_lt⟩
  | e2m1 =>
    have := e2m1Digit_bounds _ (nibbleOf_lt bs k)
    change -128 ≤ e2m1Digit (nibbleOf bs k) ∧ e2m1Digit (nibbleOf bs k) < 128
    omega
  | e4m3 | e5m2 | bf16 =>
    exact ⟨Int.le_trans (by decide) (alignQ_bounds _ _).1, Int.lt_of_le_of_lt (alignQ_bounds _ _).2 (by decide)⟩

/-- The digits of a tile fit the bits of the format. -/
theorem tileDigit_bounds (f : TileFormat) (x : Tile) (row n : Nat) :
    -2 ^ (f.bits - 1) ≤ x.digit f.four row n ∧ x.digit f.four row n < 2 ^ (f.bits - 1) := by
  unfold Tile.digit TileFormat.bits
  cases f.four with
  | true => exact int4_bounds _
  | false => exact ⟨BitVec.le_toInt _, BitVec.toInt_lt⟩

/-! Counts and conversions -/

/-- The count of the converters, over the 32 rows (R37). -/
theorem idealCount_map (a b : Nat → Int) (n i j : Nat) :
    idealCount ((List.range n).map a) ((List.range n).map b) i j
      = (List.range n).countP fun k => digitBit (a k) i && digitBit (b k) j := by
  rw [idealCount, List.zip_map', ← List.countP_eq_length_filter, List.countP_map]
  rfl

theorem countP_and_eq_sum (n : Nat) (p q : Nat → Bool) :
    (((List.range n).countP fun k => p k && q k : Nat) : Int) = sumTo n fun k => ((p k).toNat : Int) * (q k).toNat := by
  induction n with
  | zero => rfl
  | succ n ih =>
    rw [List.range_succ, List.countP_append, Int.natCast_add, ih, sumTo_succ]
    cases hp : p n <;> cases hq : q n <;> simp [hp, hq]

/-- The weighted counts add up to the products of the digits (R40). -/
theorem sum_weighted_counts (f : TileFormat) {a b : Nat → Int} (n : Nat)
    (ha : ∀ k, -2 ^ (f.bits - 1) ≤ a k ∧ a k < 2 ^ (f.bits - 1)) (hb : ∀ k, -2 ^ (f.bits - 1) ≤ b k ∧ b k < 2 ^ (f.bits - 1)) :
    (sumTo f.bits fun i => sumTo f.bits fun j => weight f.bits i * weight f.bits j
      * ((List.range n).countP fun k => digitBit (a k) i && digitBit (b k) j : Nat)) = sumTo n fun k => a k * b k := by
  have hdigits : ∀ k, a k * b k
      = sumTo f.bits fun i => sumTo f.bits fun j => weight f.bits i * weight f.bits j * (bitNum (a k) i * bitNum (b k) j) := fun k => by
    conv => lhs; rw [← sum_weighted_bits f (ha k).1 (ha k).2, ← sum_weighted_bits f (hb k).1 (hb k).2, sumTo_mul]
    refine sumTo_congr fun i _ => ?_
    rw [mul_sumTo]
    exact sumTo_congr fun j _ => by grind
  have hcounts : ∀ i j, weight f.bits i * weight f.bits j * ((List.range n).countP fun k => digitBit (a k) i && digitBit (b k) j : Nat)
      = sumTo n fun k => weight f.bits i * weight f.bits j * (bitNum (a k) i * bitNum (b k) j) := fun i j => by
    rw [countP_and_eq_sum, mul_sumTo]
    rfl
  simp only [hcounts, hdigits]
  refine Eq.trans (sumTo_congr fun i _ => ?_) (sumTo_comm f.bits n _)
  exact sumTo_comm f.bits n _

/-- Without noise the converters return the count, or under .c4 the sum of its dithered conversions (R37, R38). -/
theorem convert_quiet (c4 : Bool) {rep : Nat} (hrep : rep < 3) (c : Nat) {d : Nat → Int} (hd : ∀ t, d t = 0) :
    (convert c4 rep c d).1 = if c4 then ((4 * (c * 2 ^ rep / 4) : Nat) : Int) else c := by
  obtain rfl : d = fun _ => 0 := funext hd
  obtain rfl | rfl | rfl : rep = 0 ∨ rep = 1 ∨ rep = 2 := by omega
  · cases c4 <;> simp [convert]
  · cases c4 with
    | false => simp [convert, firstTwice, List.range_succ]
    | true =>
      simp [convert, List.range_succ]
      omega
  · cases c4 with
    | false => simp [convert, firstTwice, List.range_succ]
    | true =>
      simp [convert, List.range_succ]
      omega

end Sys2Proof.Machine
end

section
/-! SUPPORT. The update of an mma (R40, R41): the segment partial, the new value of a column, and the columns that a row's update writes. -/

namespace Sys2Proof.Machine

/-! Values of I4X (R24) -/

theorem outlier_finite : ∀ p < 16, (valOf e4m3 (16 * p + 8)).finite = true := by decide

theorem eq_outlierByte_of_i4xSlot {byte b : Nat} {hi : Bool} (h : i4xSlot byte hi = .outlier b) : ∃ p, b = outlierByte p := by
  simp only [i4xSlot] at h
  generalize (if hi = true then byte / 16 % 16 else byte % 16) = own at h
  generalize (if hi = true then byte % 16 else byte / 16 % 16) = other at h
  split at h
  · exact nomatch h
  split at h
  · exact ⟨other, (Slot.outlier.inj h).symm⟩
  split at h <;> exact nomatch h

/-- Every I4X slot is a number: the outliers are, since no E4M3 byte ending in 1000 is NaN. -/
theorem i4xValue_holds (byte : Nat) (hi : Bool) : (i4xValue byte hi).Holds (i4xValue byte hi).exact := by
  unfold i4xValue
  cases hslot : i4xSlot byte hi with
  | value v => exact (Num.Holds.ofInt v).self
  | outlier b =>
    obtain ⟨p, rfl⟩ := eq_outlierByte_of_i4xSlot hslot
    exact valOf_holds (outlier_finite (p % 16) (Nat.mod_lt _ (by decide)))
  | partner | doubleMarker => exact (Num.Holds.zero false).self

theorem valueI4x_holds (x : Tile) (row n : Nat) : (x.valueI4x row n).Holds (x.valueI4x row n).exact := by
  simp only [Tile.valueI4x]
  split
  · exact (Num.Holds.ofInt _).self
  · exact i4xValue_holds ..

/-! The segment partial (R40) -/

/-- What the product of element `k` of the row and of the column has over that of their digits (R40). -/
def sideTerm (x : Tile) (bs : List Byte) (r0 k0 n k : Nat) : Dyadic :=
  (elemValue .i4x bs (k0 + k)).exact * (x.valueI4x (r0 + k) n).exact
    - Dyadic.ofIntWithPrec (rowDigit .i4x bs [] (k0 + k) * x.digit true (r0 + k) n) 0

/-- SIDE is the sum of what the products of the values have over those of the digits (R40). -/
theorem sideOf_holds (x : Tile) (bs : List Byte) (r0 k0 n : Nat) :
    (sideOf x bs r0 k0 n).Holds (sumTo 32 (sideTerm x bs r0 k0 n)) := by
  refine Num.Holds.foldl_add .rne 32 fun k _ => ?_
  have hva : (elemValue .i4x bs (k0 + k)).Holds (elemValue .i4x bs (k0 + k)).exact := i4xValue_holds ..
  have hterm := (hva.mul (valueI4x_holds x (r0 + k) n)).add .rne (Num.Holds.ofInt (-(rowDigit .i4x bs [] (k0 + k) * x.digit true (r0 + k) n)))
  rwa [← Dyadic.neg_ofIntWithPrec] at hterm

/-- A sum over all pairs below `n` is the sum of the sums. -/
theorem foldl_add_pairs (n : Nat) (g : Nat × Nat → Int) :
    ((List.range n).flatMap fun i => (List.range n).map fun j => (i, j)).foldl (fun acc p => acc + g p) 0
      = sumTo n fun i => sumTo n fun j => g (i, j) := by
  have hrow : ∀ (c : Int) (i m : Nat), (List.range m).foldl (fun acc j => acc + g (i, j)) c = c + sumTo m fun j => g (i, j) := by
    intro c i m
    induction m with
    | zero => exact (Int.add_zero c).symm
    | succ m ih => rw [List.range_succ, List.foldl_append, ih, sumTo_succ, ← Int.add_assoc]; rfl
  rw [List.foldl_flatMap, sumTo, List.foldl_map]
  simp only [List.foldl_map, hrow]

/-- What the converters return for one pass and one bit-column of a segment partial. -/
def Mma.converted (m : Mma) (slot : Nat) (a b : Nat → Int) (s n i j : Nat) : Int :=
  (convert m.c4 m.rep ((List.range 32).countP fun k => digitBit (a k) i && digitBit (b k) j)
    fun t => noiseAt m.noise (convNumber slot s i (m.format.bits * n + j) t)).1

/-- SIDE of a segment of an mma, 0 for formats other than I4X. -/
def Mma.sideValue (m : Mma) (x : Tile) (bs : List Byte) (s n : Nat) : Dyadic :=
  if m.format = .i4x then sumTo 32 (sideTerm x bs (m.firstRow s) (32 * s) n) else 0

/-- The segment partial is a number: the weighted conversions and SIDE, added exactly (R40). -/
theorem partialSum_holds (m : Mma) (x : Tile) (slot : Nat) (bs : List Byte) (a : Nat → Int) (s n : Nat) :
    (m.partialSum x slot bs ((List.range 32).map a) s n).1.Holds
      (Dyadic.ofIntWithPrec (sumTo m.format.bits fun i => sumTo m.format.bits fun j => weight m.format.bits i * weight m.format.bits j
          * m.converted slot a (fun k => x.digit m.format.four (m.firstRow s + k) n) s n i j) (-convertExp m.c4 m.rep)
        + m.sideValue x bs s n) := by
  simp only [Mma.partialSum, List.foldl_map, foldl_add_pairs, idealCount_map]
  refine (Num.Holds.of _ _).add .rne ?_
  unfold Mma.sideValue
  by_cases hf : m.format = .i4x
  · rw [if_pos hf, if_pos (beq_iff_eq.mpr hf)]
    exact sideOf_holds ..
  · rw [if_neg hf, if_neg (mt beq_iff_eq.mp hf)]
    exact Num.Holds.zero false

/-! One column (R41) -/

/-- The B-scale byte of segment `s` of column `n` (R41). -/
def Mma.scaleB (m : Mma) (s n : Nat) : Byte :=
  if m.format.four then (m.bscales.getD s []).getD n 0 else (m.bscales.getD 0 []).getD (128 * m.blockOf s + n) 0

/-- Where the sidecar and the odd mark of segment `s` of column `n` stand. -/
def Mma.markOf (m : Mma) (s n : Nat) : Nat := (if m.half then 256 else 0) + 128 * m.blockOf s + n

/-- X of segment `s` of a row and a column together (R36). -/
def Mma.segmentExp (m : Mma) (x : Tile) (r : MmaRow) (s n : Nat) : Int :=
  blockExp m.format (r.sidecars.getD s 0) + blockExp m.format (x.sidecars.get (m.markOf s n)).toInt

/-- The term of segment `s` in T (R41). -/
def Mma.segmentTerm (m : Mma) (x : Tile) (r : MmaRow) (s n : Nat) (part : Num) : Num :=
  mulNum (mulNum part (mulNum (e5m3v (r.scales.getD s 0)) (e5m3v (m.scaleB s n)))) (Num.of 1 (m.segmentExp x r s n))

/-- T of a column, from the partials of its segments (R41). -/
def Mma.columnSum (m : Mma) (x : Tile) (r : MmaRow) (n : Nat) (part : Nat → Num) : Num :=
  (List.range m.format.segments).foldl (fun t s => addNum .rne t (m.segmentTerm x r s n (part s))) (.zero false)

theorem foldl_range_congr {α : Type} {g h : α → Nat → α} (n : Nat) (a : α) (hgh : ∀ k, k < n → ∀ b, g b k = h b k) :
    (List.range n).foldl g a = (List.range n).foldl h a := by
  induction n with
  | zero => rfl
  | succ n ih =>
    rw [List.range_succ, List.foldl_append, List.foldl_append, ih fun k hk => hgh k (Nat.lt_succ_of_lt hk)]
    exact hgh n (Nat.lt_succ_self n) _

theorem columnSum_congr (m : Mma) (x : Tile) (r : MmaRow) (n : Nat) {p q : Nat → Num} (h : ∀ s, s < m.format.segments → p s = q s) :
    m.columnSum x r n p = m.columnSum x r n q :=
  foldl_range_congr _ _ fun s hs t => congrArg (fun part => addNum .rne t (m.segmentTerm x r s n part)) (h s hs)

/-- What makes a column of a row NaN (R41). -/
def Mma.oddColumn (m : Mma) (x : Tile) (r : MmaRow) (oddRow : Bool) (n : Nat) (acc : Word) : Prop :=
  (∃ s, s < m.format.segments ∧ (r.scales.getD s 0 = 0xFF ∨ m.scaleB s n = 0xFF)) ∨ oddRow = true
    ∨ (m.format.four = false ∧ ∃ s, s < m.format.segments ∧ x.odd.get (m.markOf s n) ≠ 0) ∨ valF32 acc = .nan

theorem Num.isNan_iff (v : Num) : v.isNan = true ↔ v = .nan := by
  cases v with
  | nan => exact iff_of_true rfl rfl
  | inf | zero | fin => exact iff_of_false nofun nofun

section
variable (m : Mma) (x : Tile) (r : MmaRow) (bs : List Byte) (digits : List (List Int)) (oddRow : Bool) (n : Nat) (acc : Word)

theorem column_test_iff :
    (((List.range m.format.segments).any fun s => r.scales.getD s 0 == 0xFF || m.scaleB s n == 0xFF) || oddRow
      || (!m.format.four && (List.range m.format.segments).any fun s => x.odd.get (m.markOf s n) != 0) || (valF32 acc).isNan) = true
      ↔ m.oddColumn x r oddRow n acc := by
  simp only [Mma.oddColumn, Bool.or_eq_true, Bool.and_eq_true, Bool.not_eq_true', List.any_eq_true, List.mem_range, beq_iff_eq, bne_iff_ne,
    Num.isNan_iff, or_assoc]

theorem column_of_odd (h : m.oddColumn x r oddRow n acc) : (m.column x r bs digits oddRow n acc).1 = 0x7FC00000 :=
  congrArg Prod.fst (if_pos ((column_test_iff m x r oddRow n acc).mpr h))

theorem column_of_not_odd (h : ¬ m.oddColumn x r oddRow n acc) :
    (m.column x r bs digits oddRow n acc).1 = round32 .rne (addNum .rne (valF32 acc)
      (m.columnSum x r n fun s => (m.partialSum x r.lane bs (digits.getD s []) s n).1)) := by
  refine (congrArg Prod.fst (if_neg (mt (column_test_iff m x r oddRow n acc).mp h))).trans ?_
  simp only [List.foldl_map]
  rfl

end

/-- T is the exact sum over the segments of P, the two scales and the block exponents, where no scale is NaN (R41). -/
theorem columnSum_holds (m : Mma) (x : Tile) (r : MmaRow) (n : Nat) {part : Nat → Num} {p : Nat → Dyadic} (hpart : ∀ s, (part s).Holds (p s))
    (hscales : ∀ s, s < m.format.segments → r.scales.getD s 0 ≠ 0xFF ∧ m.scaleB s n ≠ 0xFF) :
    (m.columnSum x r n part).Holds (sumTo m.format.segments fun s =>
      p s * (e5m3v (r.scales.getD s 0)).exact * (e5m3v (m.scaleB s n)).exact * Dyadic.ofIntWithPrec 1 (-m.segmentExp x r s n)) := by
  refine Num.Holds.foldl_add .rne m.format.segments fun s hs => ?_
  obtain ⟨ha, hb⟩ := hscales s hs
  have hmul := ((hpart s).mul ((e5m3v_holds ha).mul (e5m3v_holds hb))).mul (Num.Holds.of 1 (m.segmentExp x r s n))
  rwa [← Dyadic.mul_assoc (p s)] at hmul

theorem columnSum_ne_negZero (m : Mma) (x : Tile) (r : MmaRow) (n : Nat) (part : Nat → Num) : m.columnSum x r n part ≠ .zero true :=
  foldl_addNum_rne_ne_negZero _ _ (by decide)

/-! Infinite accumulators (R41) -/

theorem addNum_inf_of_finite (mode : RoundMode) (neg : Bool) {v : Num} (h : v.finite = true) : addNum mode (.inf neg) v = .inf neg := by
  cases v with
  | nan | inf => exact nomatch h
  | zero | fin => rfl

theorem eq_inf_of_valOf {f : FloatFormat} {b : Nat} {neg : Bool} (h : valOf f b = .inf neg) :
    f.inf = some (b % 2 ^ (f.width - 1)) ∧ b.testBit (f.width - 1) = neg := by
  simp only [valOf] at h
  split at h
  · exact nomatch h
  split at h
  · exact nomatch h
  split at h
  case isTrue hinf => exact ⟨hinf, Num.inf.inj h⟩
  case isFalse => exact nomatch h

/-- An infinity rounds to the register word that holds it. -/
theorem round32_of_valF32_inf {w : Word} {neg : Bool} (mode : RoundMode) (h : valF32 w = .inf neg) : round32 mode (.inf neg) = w := by
  obtain ⟨hmag, hsign⟩ := eq_inf_of_valOf h
  have hmag : 0x7F800000 = w.toNat % 2 ^ 31 := Option.some.inj hmag
  have hlt : w.toNat < 2 ^ 32 := w.isLt
  apply BitVec.eq_of_toNat_eq
  have hsign : w.toNat.testBit 31 = neg := hsign
  rw [Nat.testBit_eq_decide_div_mod_eq] at hsign
  cases neg with
  | false =>
    change 0x7F800000 = _
    have := of_decide_eq_false hsign
    omega
  | true =>
    change 0xFF800000 = _
    have := of_decide_eq_true hsign
    omega

/-! The columns of a row (R205) -/

/-- The digits of the row, by segment. -/
def Mma.rowDigits (m : Mma) (r : MmaRow) : List (List Int) :=
  (List.range m.format.segments).map fun s =>
    (List.range 32).map fun k => rowDigit m.format (r.arow.flatMap fun w => bytesOf w 4) r.sidecars (32 * s + k)

/-- Whether the row has an element that is NaN or infinite (R35). -/
def Mma.oddRow (m : Mma) (r : MmaRow) : Bool :=
  m.format.blocked && (List.range (32 * m.format.segments)).any fun k => oddNum (elemValue m.format (r.arow.flatMap fun w => bytesOf w 4) k)

/-- The first accumulator word that the update of a row writes. -/
def Mma.firstKey (m : Mma) (r : MmaRow) : Nat := 256 * r.row + if m.format.four then 0 else if m.ch then 128 else 0

/-- The new word of column `n` of a row. -/
def Mma.newWord (m : Mma) (x : Tile) (acc : Sparse 32) (r : MmaRow) (n : Nat) : Word :=
  (m.column x r (r.arow.flatMap fun w => bytesOf w 4) (m.rowDigits r) (m.oddRow r) n (acc.get (m.firstKey r + n))).1

theorem get_foldl_set {w : Nat} (first : Nat) (v : Nat → BitVec w) (fell : Nat → Bool) (acc : Sparse w) (key columns : Nat) :
    (((List.range columns).foldl (fun (a : Sparse w × Bool) n => (a.1.set (first + n) (v n), a.2 || fell n)) (acc, false)).1).get key
      = if first ≤ key ∧ key < first + columns then v (key - first) else acc.get key := by
  induction columns with
  | zero => exact (if_neg (by omega)).symm
  | succ c ih =>
    rw [List.range_succ, List.foldl_append, List.foldl_cons, List.foldl_nil, Sparse.get_set, ih]
    by_cases hlast : key = first + c
    · rw [if_pos hlast, if_pos (by omega), hlast, Nat.add_sub_cancel_left]
    · rw [if_neg hlast]
      by_cases hin : first ≤ key ∧ key < first + c
      · rw [if_pos hin, if_pos (by omega)]
      · rw [if_neg hin, if_neg (by omega)]

/-- The update writes the columns of its row, each from the word that stood there, and no other word. -/
theorem rowUpdate_get (m : Mma) (x : Tile) (acc : Sparse 32) (r : MmaRow) (key : Nat) :
    (m.rowUpdate x acc r).1.get key
      = if m.firstKey r ≤ key ∧ key < m.firstKey r + m.format.columns then m.newWord x acc r (key - m.firstKey r) else acc.get key :=
  get_foldl_set (m.firstKey r) (m.newWord x acc r) _ acc key m.format.columns

theorem rowUpdate_get_column (m : Mma) (x : Tile) (acc : Sparse 32) (r : MmaRow) {n : Nat} (hn : n < m.format.columns) :
    (m.rowUpdate x acc r).1.get (m.firstKey r + n) = m.newWord x acc r n := by
  rw [rowUpdate_get, if_pos (by omega), Nat.add_sub_cancel_left]

end Sys2Proof.Machine
end

section
/-! CERTIFICATES. The update of an mma (R36, R37, R40, R41, R205): O5, from the partials and the columns. -/

namespace Sys2Proof.Machine

/-! The names of the statement -/

theorem TileFormat.segments_eq (f : TileFormat) : f.segments = if f.four then 4 else if f = .bf16 then 1 else 2 := by
  cases f <;> rfl

theorem TileFormat.blocked_iff (f : TileFormat) : f.blocked = true ↔ f = .e4m3 ∨ f = .e5m2 ∨ f = .bf16 := by
  cases f <;> decide

theorem Mma.blockOf_eq (m : Mma) (s : Nat) : m.blockOf s = if m.format = .bf16 then (if m.seg then 1 else 0) else s := by
  simp only [Mma.blockOf, beq_iff_eq]

theorem Mma.firstRow_eq (m : Mma) (s : Nat) :
    m.firstRow s = if m.format.four then 32 * s else (if m.half then 64 else 0) + 32 * m.blockOf s := by
  unfold Mma.firstRow
  cases m.half <;> rfl

theorem blockExp_eq (f : TileFormat) (emax : Int) :
    blockExp f emax = if f = .e4m3 ∨ f = .e5m2 ∨ f = .bf16 then emax - 6 else if f = .e2m1 then -1 else 0 := by
  cases f <;> rfl

theorem oddNum_eq_not_finite (v : Num) : oddNum v = !v.finite := by
  cases v <;> rfl

theorem Mma.oddRow_iff (m : Mma) (r : MmaRow) :
    m.oddRow r = true ↔ (m.format = .e4m3 ∨ m.format = .e5m2 ∨ m.format = .bf16)
      ∧ ∃ k, k < 32 * m.format.segments ∧ (elemValue m.format (r.arow.flatMap fun w => bytesOf w 4) k).finite = false := by
  simp only [Mma.oddRow, Bool.and_eq_true, TileFormat.blocked_iff, List.any_eq_true, List.mem_range, oddNum_eq_not_finite, Bool.not_eq_true']

/-! A column of the row -/

/-- The segment partial of a row that the statement speaks of: that of the digits of the segment. -/
def Mma.rowPartial (m : Mma) (x : Tile) (r : MmaRow) (s n : Nat) : Num :=
  (m.partialSum x r.lane (r.arow.flatMap fun w => bytesOf w 4)
    ((List.range 32).map fun k => rowDigit m.format (r.arow.flatMap fun w => bytesOf w 4) r.sidecars (32 * s + k)) s n).1

theorem rowPartial_holds (m : Mma) (x : Tile) (r : MmaRow) (s n : Nat) : (m.rowPartial x r s n).Holds (m.rowPartial x r s n).exact :=
  (partialSum_holds ..).self

/-- The exact sum T of column `n` of a row (R41). -/
def Mma.total (m : Mma) (x : Tile) (r : MmaRow) (n : Nat) : Num := m.columnSum x r n fun s => m.rowPartial x r s n

theorem newWord_of_odd {m : Mma} {x : Tile} {acc : Sparse 32} {r : MmaRow} {n : Nat}
    (h : m.oddColumn x r (m.oddRow r) n (acc.get (m.firstKey r + n))) : m.newWord x acc r n = 0x7FC00000 :=
  column_of_odd m x r _ _ _ n _ h

section
variable {m : Mma} {x : Tile} {acc : Sparse 32} {r : MmaRow} {n : Nat}
  (h : ¬ m.oddColumn x r (m.oddRow r) n (acc.get (m.firstKey r + n)))
include h

/-- The accumulator plus T, rounded once (R41). -/
theorem newWord_of_not_odd :
    m.newWord x acc r n = round32 .rne (addNum .rne (valF32 (acc.get (m.firstKey r + n))) (m.total x r n)) := by
  have hdigits : ∀ s, s < m.format.segments → (m.rowDigits r).getD s []
      = (List.range 32).map fun k => rowDigit m.format (r.arow.flatMap fun w => bytesOf w 4) r.sidecars (32 * s + k) := fun s hs => by
    rw [Mma.rowDigits, List.getD_eq_getElem?_getD, List.getElem?_map, List.getElem?_range hs]
    rfl
  rw [Mma.newWord, column_of_not_odd m x r _ _ _ n _ h]
  exact congrArg (fun t => round32 .rne (addNum .rne _ t)) (columnSum_congr m x r n fun s hs =>
    congrArg (fun a => (m.partialSum x r.lane _ a s n).1) (hdigits s hs))

theorem total_holds :
    (m.total x r n).Holds (sumTo m.format.segments fun s => (m.rowPartial x r s n).exact * (e5m3v (r.scales.getD s 0)).exact
      * (e5m3v (m.scaleB s n)).exact * Dyadic.ofIntWithPrec 1 (-m.segmentExp x r s n)) :=
  columnSum_holds m x r n (fun s => rowPartial_holds m x r s n) fun s hs =>
    not_or.mp fun hnan => h (.inl ⟨s, hs, hnan⟩)

/-- An infinite accumulator stays (R41). -/
theorem newWord_of_inf {neg : Bool} (hinf : valF32 (acc.get (m.firstKey r + n)) = .inf neg) :
    m.newWord x acc r n = acc.get (m.firstKey r + n) := by
  rw [newWord_of_not_odd h, hinf, addNum_inf_of_finite .rne neg (total_holds h).finite, round32_of_valF32_inf .rne hinf]

/-- An exact zero is +0 (R41, R426). -/
theorem newWord_of_zero (hfin : (valF32 (acc.get (m.firstKey r + n))).finite = true)
    (hzero : (valF32 (acc.get (m.firstKey r + n))).exact + (m.total x r n).exact = 0) : m.newWord x acc r n = 0 := by
  have hold : (valF32 (acc.get (m.firstKey r + n))).Holds (valF32 (acc.get (m.firstKey r + n))).exact := valOf_holds hfin
  have hsum := addNum_rne_eq_posZero hold (total_holds h).self (columnSum_ne_negZero m x r n _) hzero
  rw [newWord_of_not_odd h, hsum]
  rfl
end

/-! The segment partial without noise -/

/-- What the converters return for a count `c`, under .c4 times the number of conversions (R37). -/
def Mma.conversion (m : Mma) (c : Nat) : Int := if m.c4 then (4 * (c * 2 ^ m.rep / 4) : Nat) else c

theorem conversion_value (m : Mma) (c : Nat) : Dyadic.ofIntWithPrec (m.conversion c) (-convertExp m.c4 m.rep)
    = if m.c4 then Dyadic.ofIntWithPrec (4 * (c * 2 ^ m.rep / 4) : Nat) m.rep else Dyadic.ofIntWithPrec c 0 := by
  unfold Mma.conversion convertExp
  cases m.c4 with
  | true => exact congrArg _ (Int.neg_neg m.rep)
  | false => rfl

/-- Six-bit conversions, and four of the four-bit ones together, return the count (R37). -/
theorem conversion_exact (m : Mma) (h : m.c4 = false ∨ m.rep = 2) (c : Nat) :
    Dyadic.ofIntWithPrec (m.conversion c) (-convertExp m.c4 m.rep) = Dyadic.ofIntWithPrec c 0 := by
  rw [conversion_value]
  split
  case isTrue hc4 =>
    have hrep : m.rep = 2 := h.resolve_left (Bool.not_eq_false _ ▸ hc4)
    have hdiv : 4 * (c * 2 ^ m.rep / 4) = c * 2 ^ 2 := by rw [hrep]; omega
    rw [hdiv, hrep, Int.natCast_mul]
    exact ofIntWithPrec_mul_two_pow c 2 2
  case isFalse => rfl

section
variable (m : Mma) (x : Tile) (r : MmaRow) (s n : Nat)

/-- Digit `k` of segment `s` of the row. -/
def Mma.digitA (k : Nat) : Int := rowDigit m.format (r.arow.flatMap fun w => bytesOf w 4) r.sidecars (32 * s + k)

/-- Digit `k` of segment `s` of column `n` of the tile. -/
def Mma.digitB (k : Nat) : Int := x.digit m.format.four (m.firstRow s + k) n

/-- The count of pass `i` and bit-column `j` of segment `s` (R37). -/
def Mma.count (i j : Nat) : Nat := (List.range 32).countP fun k => digitBit (m.digitA r s k) i && digitBit (m.digitB x s n k) j

/-- P without noise: the weighted conversions and SIDE (R40). -/
theorem rowPartial_quiet (hnoise : m.noise = []) (hrep : m.rep < 3) :
    (m.rowPartial x r s n).exact = (sumTo m.format.bits fun i => sumTo m.format.bits fun j =>
        Dyadic.ofIntWithPrec (weight m.format.bits i) 0 * Dyadic.ofIntWithPrec (weight m.format.bits j) 0
          * Dyadic.ofIntWithPrec (m.conversion (m.count x r s n i j)) (-convertExp m.c4 m.rep))
      + m.sideValue x (r.arow.flatMap fun w => bytesOf w 4) s n := by
  have hquiet : ∀ k, noiseAt m.noise k = 0 := fun k => by rw [hnoise]; rfl
  have hconverted : ∀ i j, m.converted r.lane (m.digitA r s) (m.digitB x s n) s n i j = m.conversion (m.count x r s n i j) := fun i j =>
    convert_quiet m.c4 hrep _ fun t => hquiet _
  refine (partialSum_holds ..).exact_eq.trans (congrArg (· + _) ?_)
  rw [ofIntWithPrec_sumTo]
  refine sumTo_congr fun i _ => ?_
  rw [ofIntWithPrec_sumTo]
  refine sumTo_congr fun j _ => ?_
  rw [← ofIntWithPrec_mul, ← ofIntWithPrec_mul, ← hconverted, Int.zero_add, Int.zero_add]
  rfl

/-- Where the conversions are exact, the converters' part of P is the sum of the products of the digits (R40). -/
theorem sum_exact_conversions (h : m.c4 = false ∨ m.rep = 2) :
    (sumTo m.format.bits fun i => sumTo m.format.bits fun j =>
        Dyadic.ofIntWithPrec (weight m.format.bits i) 0 * Dyadic.ofIntWithPrec (weight m.format.bits j) 0
          * Dyadic.ofIntWithPrec (m.conversion (m.count x r s n i j)) (-convertExp m.c4 m.rep))
      = sumTo 32 fun k => Dyadic.ofIntWithPrec (m.digitA r s k * m.digitB x s n k) 0 := by
  simp only [conversion_exact m h, ← ofIntWithPrec_mul, ← ofIntWithPrec_sumTo, Int.add_zero]
  exact congrArg (Dyadic.ofIntWithPrec · 0)
    (sum_weighted_counts m.format 32 (fun k => rowDigit_bounds ..) (fun k => tileDigit_bounds ..))

/-- The product of an element of the row and one of the column: of the values for I4X, of the digits otherwise (R40). -/
def Mma.product (k : Nat) : Dyadic :=
  if m.format = .i4x then
    (elemValue .i4x (r.arow.flatMap fun w => bytesOf w 4) (32 * s + k)).exact * (x.valueI4x (m.firstRow s + k) n).exact
  else Dyadic.ofIntWithPrec (m.digitA r s k * m.digitB x s n k) 0

theorem sideTerm_of_i4x (h : m.format = .i4x) (k : Nat) :
    sideTerm x (r.arow.flatMap fun w => bytesOf w 4) (m.firstRow s) (32 * s) n k
      = m.product x r s n k - Dyadic.ofIntWithPrec (m.digitA r s k * m.digitB x s n k) 0 := by
  simp only [Mma.product, Mma.digitA, Mma.digitB, h]
  rfl

/-- Where the conversions are exact, P is the sum of the products (R40). -/
theorem rowPartial_exact (hnoise : m.noise = []) (hrep : m.rep < 3) (h : m.c4 = false ∨ m.rep = 2) :
    (m.rowPartial x r s n).exact = sumTo 32 (m.product x r s n) := by
  rw [rowPartial_quiet m x r s n hnoise hrep, sum_exact_conversions m x r s n h, Mma.sideValue]
  by_cases hf : m.format = .i4x
  · rw [if_pos hf, sumTo_congr fun k _ => sideTerm_of_i4x m x r s n hf k]
    exact sumTo_add_sub ..
  · rw [if_neg hf, Dyadic.add_zero]
    exact sumTo_congr fun k _ => (if_neg hf).symm
end

/-- Settles O5: `rowUpdate_get` gives the words that change, `newWord_of_odd` and `newWord_of_not_odd` each of them, and `rowPartial_quiet` and `rowPartial_exact` the partials. -/
theorem theUpdateRoundsTheExactSumOnce : Obligations.TheUpdateRoundsTheExactSumOnce := by
  unfold Obligations.TheUpdateRoundsTheExactSumOnce
  intro m x acc r f four nb segments columns first u bs block tileRow column digitA digitB int total partial_ product
  have hsegments : segments = m.format.segments := m.format.segments_eq.symm
  have hblock : ∀ s, block s = m.blockOf s := fun s => (m.blockOf_eq s).symm
  have hcolumn : ∀ s n, column s n = m.markOf s n := fun s n => by
    rw [Mma.markOf, ← hblock]
  have hrow : ∀ s, tileRow s = m.firstRow s := fun s => by
    rw [m.firstRow_eq, ← hblock]
    rfl
  have hdigitB : ∀ s n k, digitB s n k = m.digitB x s n k := fun s n k => by
    rw [Mma.digitB, ← hrow]
    rfl
  have hproduct : ∀ s n k, product s n k = m.product x r s n k := fun s n k => by
    rw [Mma.product, ← hdigitB, ← hrow]
    rfl
  refine ⟨fun key hkey => ?_, fun n hn => ?_, fun hnoise hrep s n hs hn => ?_⟩
  · have hout : key < m.firstKey r ∨ m.firstKey r + m.format.columns ≤ key := hkey
    exact (rowUpdate_get m x acc r key).trans (if_neg (by omega))
  · intro old new scaleA scaleB blocked odd exponent t
    have hscaleB : ∀ s, scaleB s = m.scaleB s n := fun s => by
      rw [Mma.scaleB, ← hblock]
      rfl
    have hnew : new = m.newWord x acc r n := rowUpdate_get_column m x acc r hn
    have hodd : odd ↔ m.oddColumn x r (m.oddRow r) n (acc.get (m.firstKey r + n)) := by
      simp only [odd, Mma.oddColumn, m.oddRow_iff, hsegments, hcolumn, hscaleB]
      rfl
    have hexponent : ∀ emax, exponent emax = blockExp m.format emax := fun emax => (blockExp_eq m.format emax).symm
    have hsum : ¬ odd → (m.total x r n).exact = t := fun h => by
      refine (total_holds (mt hodd.mpr h)).exact_eq.trans ?_
      rw [← hsegments]
      refine sumTo_congr fun s _ => ?_
      rw [Mma.segmentExp, ← hexponent, ← hexponent, ← hcolumn, ← hscaleB]
      rfl
    refine ⟨fun h => hnew.trans (newWord_of_odd (hodd.mp h)), fun h => ?_⟩
    have hnot := mt hodd.mpr h
    refine ⟨⟨m.total x r n, (total_holds hnot).finite, hsum h, hnew.trans (newWord_of_not_odd hnot)⟩,
      fun neg hinf => hnew.trans (newWord_of_inf hnot hinf), fun hfin hzero => hnew.trans (newWord_of_zero hnot hfin ?_)⟩
    rw [hsum h]
    exact hzero
  · intro bit count converted weight' side
    have hcount : ∀ i j, count i j = m.count x r s n i j := fun i j => by
      simp only [count, hdigitB]
      rfl
    have hweight : ∀ i, weight' i = Dyadic.ofIntWithPrec (weight m.format.bits i) 0 := fun i =>
      (apply_ite (Dyadic.ofIntWithPrec · 0) (i + 1 = m.format.bits) (-2 ^ i) (2 ^ i)).symm
    have hconverted : ∀ c, converted c = Dyadic.ofIntWithPrec (m.conversion c) (-convertExp m.c4 m.rep) := fun c => (conversion_value m c).symm
    have hside : side = m.sideValue x bs s n := by
      show (if m.format = .i4x then total 32 fun k => product s n k - int (digitA s k * digitB s n k) 0 else 0) = _
      rw [Mma.sideValue]
      by_cases hf : m.format = .i4x
      · rw [if_pos hf, if_pos hf]
        refine sumTo_congr fun k _ => ?_
        rw [hproduct, hdigitB, sideTerm_of_i4x m x r s n hf]
        rfl
      · rw [if_neg hf, if_neg hf]
    refine ⟨?_, fun h => ?_⟩
    · refine (rowPartial_quiet m x r s n hnoise hrep).trans ?_
      simp only [hweight, hconverted, hcount, hside]
      rfl
    · refine (rowPartial_exact m x r s n hnoise hrep h).trans ?_
      exact sumTo_congr fun k _ => (hproduct s n k).symm

end Sys2Proof.Machine
end

section
/-! SUPPORT. The encoding (R52 to R58): the round trip of every row from instruction to word, and of every word that decodes from word to instruction. -/

namespace Sys2Proof.Laws.RoundTrip

/-- Every row of the opcode table has its round trip; the rows after the families are events, which have no word. -/
theorem of_instr (i : Instr) : Statement i := by
  cases i with
  -- family A, lane integer (R134)
  | iadd f => exact iadd f | iaddI f => exact iaddI f | isub f => exact isub f | isubI f => exact isubI f | imul f => exact imul f
  | imulI f => exact imulI f | imulh f => exact imulh f | imulhI f => exact imulhI f | imad f => exact imad f | idiv f => exact idiv f
  | idivI f => exact idivI f | irem f => exact irem f | iremI f => exact iremI f | iabs f => exact iabs f | ineg f => exact ineg f
  | imin f => exact imin f | iminI f => exact iminI f | imax f => exact imax f | imaxI f => exact imaxI f | and f => exact and f
  | andI f => exact andI f | or f => exact or f | orI f => exact orI f | xor f => exact xor f | xorI f => exact xorI f | andn f => exact andn f
  | andnI f => exact andnI f | not f => exact not f | shl f => exact shl f | shlI f => exact shlI f | shr f => exact shr f | shrI f => exact shrI f
  | sar f => exact sar f | sarI f => exact sarI f | rotl f => exact rotl f | rotlI f => exact rotlI f | popc f => exact popc f | clz f => exact clz f
  | ctz f => exact ctz f | brev f => exact brev f | bfe f => exact bfe f | bfi f => exact bfi f | sel f => exact sel f | icmp f => exact icmp f
  | icmpI f => exact icmpI f | iaddc f => exact iaddc f | add64 f => exact add64 f | sub64 f => exact sub64 f | lea f => exact lea f
  | leaI f => exact leaI f | lea64 f => exact lea64 f
  -- family B, float (R141)
  | fadd f => exact fadd f | faddI f => exact faddI f | fsub f => exact fsub f | fsubI f => exact fsubI f | fmul f => exact fmul f
  | fmulI f => exact fmulI f | ffma f => exact ffma f | fmin f => exact fmin f | fminI f => exact fminI f | fmax f => exact fmax f
  | fmaxI f => exact fmaxI f | fabs f => exact fabs f | fneg f => exact fneg f | fcmp f => exact fcmp f | fcmpI f => exact fcmpI f
  | fclass f => exact fclass f | frnd f => exact frnd f | fscale f => exact fscale f | rcpe f => exact rcpe f | rsqrte f => exact rsqrte f
  | fsqrt f => exact fsqrt f | exp2e f => exact exp2e f | log2e f => exact log2e f | hadd2 f => exact hadd2 f | hmul2 f => exact hmul2 f
  | hfma2 f => exact hfma2 f | bfadd2 f => exact bfadd2 f | bfmul2 f => exact bfmul2 f | bffma2 f => exact bffma2 f
  -- family C, convert (R147 to R151)
  | cvt f => exact cvt f | pk f => exact pk f | upk f => exact upk f | alnb f => exact alnb f
  -- family D, moves and predicates (R124, R127)
  | mov f => exact mov f | movi f => exact movi f | movh f => exact movh f | movc f => exact movc f | movs f => exact movs f | pand f => exact pand f
  | por f => exact por f | pxor f => exact pxor f | pnot f => exact pnot f | pmov f => exact pmov f
  -- family E, control transfer and collectives (R92, R100)
  | br f => exact br f | brc f => exact brc f | brx f => exact brx f | call f => exact call f | callx f => exact callx f | ret f => exact ret f
  | exit f => exact exit f | yield f => exact yield f | nop f => exact nop f | shfl f => exact shfl f | vote f => exact vote f
  | gred f => exact gred f | gsync f => exact gsync f
  -- family F, memory (R192, R236, R257)
  | ld f => exact ld f | st f => exact st f | pf f => exact pf f | atom f => exact atom f | red f => exact red f | fld f => exact fld f
  | fst f => exact fst f | fatom f => exact fatom f | feset f => exact feset f | feclr f => exact feclr f | fetest f => exact fetest f
  -- family G, scale registers (R165, R172, R173)
  | kmov f => exact kmov f | kset f => exact kset f | kmul f => exact kmul f | kmax f => exact kmax f | kmin f => exact kmin f
  | krcp f => exact krcp f | kcvtf f => exact kcvtf f | kcvtk f => exact kcvtk f | kbind f => exact kbind f | ktag f => exact ktag f
  | kld f => exact kld f | kst f => exact kst f | kclr f => exact kclr f | ldmx f => exact ldmx f
  -- family H, matrix (R202, R212, R216 to R218, R190, R191)
  | mmaI4x f => exact mmaI4x f | mmaI4 f => exact mmaI4 f | mmaI8 f => exact mmaI8 f | mmaE4m3 f => exact mmaE4m3 f | mmaE5m2 f => exact mmaE5m2 f
  | mmaE2m1 f => exact mmaE2m1 f | mmaBf16 f => exact mmaBf16 f | acwin f => exact acwin f | acrd f => exact acrd f | acwr f => exact acwr f
  | aczero f => exact aczero f | acst f => exact acst f | mstat f => exact mstat f | amode f => exact amode f | resize f => exact resize f
  -- family I, synchronisation and work (R299, R330, R338, R346, R348, R340, R356, R283)
  | barinit f => exact barinit f | barlink f => exact barlink f | bararr f => exact bararr f | bartry f => exact bartry f
  | barwait f => exact barwait f | bartest f => exact bartest f | bardrop f => exact bardrop f | chsend f => exact chsend f
  | chrecv f => exact chrecv f | chtry f => exact chtry f | launch f => exact launch f | spawn f => exact spawn f | rinv f => exact rinv f
  | rret f => exact rret f | hndalloc f => exact hndalloc f | hndpass f => exact hndpass f | hndfree f => exact hndfree f | kvgive f => exact kvgive f
  | kvtake f => exact kvtake f | edrain f => exact edrain f
  -- family J, system (R365, R366, R374, R376, R373, R117, R393, R394)
  | trap f => exact trap f | rfe f => exact rfe f | csrr f => exact csrr f | csrw f => exact csrw f | dtload f => exact dtload f
  | preq f => exact preq f | tlbinv f => exact tlbinv f | wspill f => exact wspill f | wfill f => exact wfill f | brk f => exact brk f
  | mark f => exact mark f
  | _ => exact of_event rfl

end Sys2Proof.Laws.RoundTrip

namespace Sys2Proof

/-- Settles O1: row by row, the layout of the row's format is read back whole and its opcode and format build the row again. -/
theorem decodingInvertsEncoding : Obligations.DecodingInvertsEncoding := by
  unfold Obligations.DecodingInvertsEncoding
  exact fun i w hwf hw => Laws.RoundTrip.of_instr i hwf w hw

/-! From a word to its instruction and back -/

@[simp] theorem unpackR_g (w : DWord) : (unpackR w).g = guardField w := rfl
@[simp] theorem unpackCvt_g (w : DWord) : (unpackCvt w).g = guardField w := rfl
@[simp] theorem unpackI_g (w : DWord) : (unpackI w).g = guardField w := rfl
@[simp] theorem unpackM_g (w : DWord) : (unpackM w).g = guardField w := rfl
@[simp] theorem unpackBr_g (w : DWord) : (unpackBr w).g = guardField w := rfl
@[simp] theorem unpackBrc_g (w : DWord) : (unpackBrc w).g = guardField w := rfl
@[simp] theorem unpackK_g (w : DWord) : (unpackK w).g = guardField w := rfl
@[simp] theorem unpackLdmx_g (w : DWord) : (unpackLdmx w).g = guardField w := rfl
@[simp] theorem unpackMma_g (w : DWord) : (unpackMma w).g = guardField w := rfl
@[simp] theorem unpackAc_g (w : DWord) : (unpackAc w).g = guardField w := rfl
@[simp] theorem unpackX_g (w : DWord) : (unpackX w).g = guardField w := rfl
@[simp] theorem unpackAmode_g (w : DWord) : (unpackAmode w).g = guardField w := rfl
@[simp] theorem unpackSync_g (w : DWord) : (unpackSync w).g = guardField w := rfl
@[simp] theorem unpackRinv_g (w : DWord) : (unpackRinv w).g = guardField w := rfl
@[simp] theorem unpackTrap_g (w : DWord) : (unpackTrap w).g = guardField w := rfl
@[simp] theorem unpackCsr_g (w : DWord) : (unpackCsr w).g = guardField w := rfl
@[simp] theorem unpackPreq_g (w : DWord) : (unpackPreq w).g = guardField w := rfl
@[simp] theorem unpackMark_g (w : DWord) : (unpackMark w).g = guardField w := rfl

/-- The word that opcode `op` and format `F` have with the guard and the format bits of `w`. -/
def recoded (w : DWord) (op : Nat) (F : Format) : DWord := packWord op (guardField w) F (w.extractLsb' 0 48)

/-! Row by row of a family: the instruction built of a word is encoded under the opcode and the format it was built for (R62) -/

section
variable {k : Nat} {F : Format} {w : DWord} {i : Instr}

theorem encode_of_buildInt (h : buildInt k F w = some i) : encode i = some (recoded w (0x000 + k) F) := by
  unfold buildInt at h
  split at h <;> cases h <;> simp [encode, recoded]

theorem encode_of_buildFloat (h : buildFloat k F w = some i) : encode i = some (recoded w (0x080 + k) F) := by
  unfold buildFloat at h
  split at h <;> cases h <;> simp [encode, recoded]

theorem encode_of_buildConvert (h : buildConvert k F w = some i) : encode i = some (recoded w (0x0C0 + k) F) := by
  unfold buildConvert at h
  split at h <;> cases h <;> simp [encode, recoded]

theorem encode_of_buildMove (h : buildMove k F w = some i) : encode i = some (recoded w (0x100 + k) F) := by
  unfold buildMove at h
  split at h <;> cases h <;> simp [encode, recoded]

theorem encode_of_buildControl (h : buildControl k F w = some i) : encode i = some (recoded w (0x140 + k) F) := by
  unfold buildControl at h
  split at h <;> cases h <;> simp [encode, recoded]

theorem encode_of_buildMemory (h : buildMemory k F w = some i) : encode i = some (recoded w (0x200 + k) F) := by
  unfold buildMemory at h
  split at h <;> cases h <;> simp [encode, recoded]

theorem encode_of_buildScale (h : buildScale k F w = some i) : encode i = some (recoded w (0x240 + k) F) := by
  unfold buildScale at h
  split at h <;> cases h <;> simp [encode, recoded]

theorem encode_of_buildMatrix (h : buildMatrix k F w = some i) : encode i = some (recoded w (0x280 + k) F) := by
  unfold buildMatrix at h
  split at h <;> cases h <;> simp [encode, recoded]

theorem encode_of_buildWork (h : buildWork k F w = some i) : encode i = some (recoded w (0x300 + k) F) := by
  unfold buildWork at h
  split at h <;> cases h <;> simp [encode, recoded]

theorem encode_of_buildSystem (h : buildSystem k F w = some i) : encode i = some (recoded w (0x340 + k) F) := by
  unfold buildSystem at h
  split at h <;> cases h <;> simp [encode, recoded]

end

/-- An instruction built of a word has the word that its opcode and format give the guard and the format bits it was built of. -/
theorem encode_of_build {op : Nat} {F : Format} {w : DWord} {i : Instr} (h : build op F w = some i) :
    encode i = some (recoded w op F) := by
  unfold build at h
  split at h
  · exact (encode_of_buildInt h).trans (by rw [Nat.zero_add])
  split at h
  · exact (encode_of_buildFloat h).trans (by rw [Nat.add_sub_of_le (by omega)])
  split at h
  · exact (encode_of_buildConvert h).trans (by rw [Nat.add_sub_of_le (by omega)])
  split at h
  · exact (encode_of_buildMove h).trans (by rw [Nat.add_sub_of_le (by omega)])
  split at h
  · exact (encode_of_buildControl h).trans (by rw [Nat.add_sub_of_le (by omega)])
  split at h
  · exact (encode_of_buildMemory h).trans (by rw [Nat.add_sub_of_le (by omega)])
  split at h
  · exact (encode_of_buildScale h).trans (by rw [Nat.add_sub_of_le (by omega)])
  split at h
  · exact (encode_of_buildMatrix h).trans (by rw [Nat.add_sub_of_le (by omega)])
  split at h
  · exact (encode_of_buildWork h).trans (by rw [Nat.add_sub_of_le (by omega)])
  · exact (encode_of_buildSystem h).trans (by rw [Nat.add_sub_of_le (by omega)])

/-- A word that the LV3 table decodes is built, under its own opcode and format, into an instruction that passes its checks (R64, R67, R68). -/
theorem build_of_decodeWord {w : DWord} {i : Instr} (h : decodeWord .lv3 w = .ok i) :
    build (opcodeField w) (formatField w) w = some i ∧ i.WellFormed = true := by
  unfold decodeWord DecodeTable.lookup at h
  by_cases hmap : lv3Mapped (opcodeField w) = true
  · simp only [hmap, if_true] at h
    cases hb : build (opcodeField w) (formatField w) w with
    | none => rw [hb] at h; cases h
    | some j =>
      rw [hb] at h
      cases hc : j.check with
      | none =>
        simp only [hc] at h
        cases h
        exact ⟨rfl, by simp [Instr.WellFormed, hc]⟩
      | some c => simp only [hc] at h; cases h
  · simp [hmap] at h

/-- Settles O2: the word decoded is built under its own opcode and format, so its instruction is encoded with them, the guard and the format bits, which are all of the word. -/
theorem encodingInvertsDecoding : Obligations.EncodingInvertsDecoding := by
  unfold Obligations.EncodingInvertsDecoding
  intro w i h
  obtain ⟨hbuild, hwf⟩ := build_of_decodeWord h
  exact ⟨hwf, (encode_of_build hbuild).trans (congrArg some (packWord_fields w))⟩

end Sys2Proof
end

section
/-! SUPPORT. Calls and returns (R95, R96, R112, R115): the frame that a call pushes, and what comes of the checks of a target in a group of one thread. -/

namespace Sys2Proof.Machine

theorem exec_call (f : BrF) (s : State) : exec (.call f) s = execCall f s := rfl
theorem exec_callx (f : RF) (s : State) : exec (.callx f) s = execCallx f s := rfl
theorem exec_ret (f : RF) (s : State) : exec (.ret f) s = execRet f s := rfl

/-! The frame that a call pushes -/

/-- One value written at several keys: it is read at those, and every other key reads as before. -/
theorem Sparse.get_setEach {w : Nat} (v : BitVec w) (a : Nat) (ks : List Nat) : ∀ m : Sparse w,
    ((ks.map fun k => (k, v)).foldl (fun m e => m.set e.1 e.2) m).get a = if a ∈ ks then v else m.get a := by
  induction ks with
  | nil => exact fun _ => rfl
  | cons k ks ih =>
    intro m
    rw [List.map_cons, List.foldl_cons, ih, Sparse.get_set]
    by_cases hk : a = k <;> by_cases hks : a ∈ ks <;> simp [hk, hks]

theorem Thread.word_mem_words {x : Thread} {r n k : Nat} : x.word k ∈ x.words r n ↔ r ≤ k ∧ k < r + n := by
  simp only [Thread.words, Thread.word, List.mem_map, List.mem_range]
  constructor
  · rintro ⟨j, hj, h⟩
    omega
  · rintro ⟨h, h'⟩
    exact ⟨k - r, by omega, by omega⟩

/-- The registers of a range written 0: they read 0, and the others as before. -/
theorem Thread.fill_zero_reg (x : Thread) (r n k : Nat) :
    (x.fill ((x.words r n).map fun w => (w, 0))).reg k = if r ≤ k ∧ k < r + n then 0 else x.reg k := by
  simp only [← Thread.word_mem_words (x := x)]
  exact Sparse.get_setEach 0 (x.word k) (x.words r n) x.regs

/-- A register of a range written is full (R121). -/
theorem Thread.fill_zero_full {x : Thread} {r n k : Nat} (h : r ≤ k) (h' : k < r + n) :
    (x.fill ((x.words r n).map fun w => (w, 0))).full k = true := by
  have hmem : x.word k ∈ x.words r n := Thread.word_mem_words.mpr ⟨h, h'⟩
  have hempties : (x.fill ((x.words r n).map fun w => (w, 0))).empties
      = x.empties.filter fun e => !(((x.words r n).map fun w => (w, (0 : Word))).map Prod.fst).contains e := rfl
  have hword : (x.fill ((x.words r n).map fun w => (w, 0))).word k = x.word k := rfl
  unfold Thread.full
  rw [hempties, hword]
  simp [hmem]

/-- A call moves the window on by one frame of 56 registers and keeps the link; the callee's w8 to w63 are 0 and full, and its w0 to w7 the caller's w56 to w63 (R95, R112). -/
theorem Thread.pushFrame_spec (x : Thread) (link : VAddr) :
    (x.pushFrame link).depth = x.depth + 1
    ∧ (∀ r, (8 ≤ r → r < 64 → (x.pushFrame link).reg r = 0 ∧ (x.pushFrame link).full r = true)
        ∧ (r < 8 → (x.pushFrame link).reg r = x.reg (56 + r)))
    ∧ (x.pushFrame link).links.get (x.depth + 1) = link := by
  refine ⟨rfl, fun r => ⟨fun h8 h64 => ⟨?_, Thread.fill_zero_full h8 h64⟩, fun h8 => ?_⟩, ?_⟩
  · exact (Thread.fill_zero_reg _ 8 56 r).trans (if_pos ⟨h8, h64⟩)
  · have hword : ({ x with depth := x.depth + 1, links := x.links.set (x.depth + 1) link } : Thread).word r = x.word (56 + r) := by
      simp only [Thread.word]
      omega
    exact ((Thread.fill_zero_reg _ 8 56 r).trans (if_neg (by omega))).trans (congrArg x.regs.get hword)
  · exact (Sparse.get_set x.links (x.depth + 1) link (x.depth + 1)).trans (if_pos rfl)

/-- The window checks of a call, in their order: 0x046 at depth S, then 0x044 in the last frame (R115). -/
theorem callCause_spec {s : State} {t : ThreadId} {x : Thread} {r : Role} (hx : s.thread t = some x) (hr : s.roleOf t = some r) :
    let aux : List DWord := [BitVec.ofNat 64 x.depth, BitVec.ofNat 64 x.oldest]
    (x.depth = r.s → s.callCause t = some (0x046, aux))
    ∧ (x.depth ≠ r.s → x.depth - x.oldest + 1 = (r.q - 8) / 56 → s.callCause t = some (0x044, aux))
    ∧ (x.depth ≠ r.s → x.depth - x.oldest + 1 ≠ (r.q - 8) / 56 → s.callCause t = none) := by
  have hc : s.callCause t = if x.depth = r.s then some (0x046, x.windowAux)
      else if x.depth - x.oldest + 1 = r.frames then some (0x044, x.windowAux) else none := by
    unfold State.callCause
    rw [hx, hr]
  exact ⟨fun h => hc.trans (if_pos h), fun h h' => (hc.trans (if_neg h)).trans (if_pos h'),
    fun h h' => (hc.trans (if_neg h)).trans (if_neg h')⟩

/-! Targets in a group of one thread -/

/-- The checks of a target in a closed range leave each thread in its context (R353). -/
theorem checkTarget_closed_cnOf {s u : State} {t : ThreadId} {va : VAddr} (h : s.checkTarget t va = .closed u) : u.cnOf t = s.cnOf t := by
  have hk := translate_keptOnly s (s.coreOf t).die (s.cnOf t) needFetch va
  unfold State.checkTarget State.fetchWord State.fetchAt at h
  split at h
  · cases h
  · rcases hq : s.translate (s.coreOf t).die (s.cnOf t) needFetch va with ⟨r, v⟩
    rw [hq] at hk
    simp only [hq] at h
    have hv : u = v := by
      match r with
      | .closed => cases h; rfl
      | .ok (.hbm pa) =>
        rcases hl : v.loadCached t va pa (.normal 2) (v.classFor t va) false with ⟨_ | _, w⟩ <;> simp only [hl] at h
        · cases h
        · split at h <;> cases h
      | .ok (.window _ _) => cases h
      | .ok (.failed _) => cases h
      | .cause _ => cases h
    rw [hv, translate_eq hq]
    rfl

/-- What an instruction of a group of one thread comes to where it goes to a target: the cause of the target's checks, the wait for a closed range (R51, R68, R95, R353). -/
structure TargetBlocks (i : Instr) (s : State) (n : Nat) (g : Group) (t : ThreadId) (m : Team) (va : VAddr) : Prop where
  traps : ∀ c aux u, (s.resumed n).checkTarget t va = .trap c aux u → Traps i s n g t c aux u
  waits : ∀ u, (s.resumed n).checkTarget t va = .closed u → Waits i s n (.closed m.cn (va.toNat / 65536)) (s.resumed n)

section
variable {s : State} {n : Nat} {g : Group} {t : ThreadId} {x : Thread} {m : Team} {sh : Shape}
  {i : Instr} {body : State → ThreadId → List DWord → Attempt} {va : VAddr}

/-- A body that answers the checks of its target by their cause or by their wait blocks there. -/
theorem targetBlocks_of_body (h : Solo s n g t x m sh) (hi : exec i s = runGroup s sh body)
    (htrap : ∀ c aux u, (s.resumed n).checkTarget t va = .trap c aux u → body (s.resumed n) t (s.valuesOf sh t) = .trap c aux u)
    (hclosed : ∀ u, (s.resumed n).checkTarget t va = .closed u → body (s.resumed n) t (s.valuesOf sh t) = .wait (u.closedHold t va) u) :
    TargetBlocks i s n g t m va := by
  refine ⟨fun c aux u hu => ?_, fun u hu => ?_⟩
  · exact hi.trans (runGroup_solo_trap h (htrap c aux u hu))
  · have hcn : u.cnOf t = m.cn := (checkTarget_closed_cnOf hu).trans h.cnOf
    rw [← hcn]
    exact hi.trans (runGroup_solo_wait h (hclosed u hu))

/-- A call whose body is a call to a target: the target's checks, then the window's, then the move to the callee with NEXT as its link (R68, R95, R115). -/
theorem callTo_spec (h : Solo s n g t x m sh) (hi : exec i s = runGroup s sh body) {sign : State → State}
    (hbody : body (s.resumed n) t (s.valuesOf sh t) = (s.resumed n).callTo t va sign) :
    TargetBlocks i s n g t m va ∧ ∀ u, (s.resumed n).checkTarget t va = .ok u →
      (u.callCause t = none →
        Commits i s n t sh (((sign (u.alterThread t fun x => x.pushFrame g.clause.next)).stepBlocks t).arrive t va))
      ∧ ∀ c aux, u.callCause t = some (c, aux) → Traps i s n g t c aux u := by
  refine ⟨targetBlocks_of_body h hi ?_ ?_, fun u hu => ⟨fun hc => ?_, fun c aux hc => ?_⟩⟩
  · exact fun c aux u hu => hbody.trans (by simp only [State.callTo, hu])
  · exact fun u hu => hbody.trans (by simp only [State.callTo, hu])
  · have hnext : u.nextAt t = g.clause.next := ((checkTarget_timed hu).nextAt t).trans h.nextAt
    exact hi.trans (runGroup_solo_done h (hbody.trans (by simp only [State.callTo, hu, hc, hnext])))
  · exact hi.trans (runGroup_solo_trap h (hbody.trans (by simp only [State.callTo, hu, hc])))

/-- A body that is a transfer to a target: the target's checks, then the transfer (R68, R95). -/
theorem transfer_spec (h : Solo s n g t x m sh) (hi : exec i s = runGroup s sh body) {move : State → State}
    (hbody : body (s.resumed n) t (s.valuesOf sh t) = (s.resumed n).transfer t va move) :
    TargetBlocks i s n g t m va ∧ ∀ u, (s.resumed n).checkTarget t va = .ok u → Commits i s n t sh ((move u).arrive t va) := by
  refine ⟨targetBlocks_of_body h hi ?_ ?_, fun u hu => ?_⟩
  · exact fun c aux u hu => hbody.trans (by simp only [State.transfer, hu])
  · exact fun u hu => hbody.trans (by simp only [State.transfer, hu])
  · exact hi.trans (runGroup_solo_done h (hbody.trans (by simp only [State.transfer, hu])))

end

/-! ret -/

/-- ret in a group of one thread: 0x04B at depth 0, 0x045 where the caller's frame is spilled, the wait for w8 to w63, and the return to the link (R95, R96, R112, R115). -/
theorem ret_spec {s : State} {n : Nat} {g : Group} {t : ThreadId} {x : Thread} {m : Team} (f : RF)
    (h : Solo s n g t x m { guard := f.g }) :
    (x.depth = 0 → Traps (.ret f) s n g t 0x04B [] (s.resumed n))
    ∧ (x.depth ≠ 0 → x.oldest = x.depth → Traps (.ret f) s n g t 0x045 x.windowAux (s.resumed n))
    ∧ (x.depth ≠ 0 → x.oldest ≠ x.depth → x.fullRange 8 56 = false → Waits (.ret f) s n (.words t (x.words 8 56)) (s.resumed n))
    ∧ (x.depth ≠ 0 → x.oldest ≠ x.depth → x.fullRange 8 56 = true →
        TargetBlocks (.ret f) s n g t m (x.links.get x.depth) ∧ ∀ u, (s.resumed n).checkTarget t (x.links.get x.depth) = .ok u →
          Commits (.ret f) s n t { guard := f.g }
            (((u.alterThread t Thread.popFrame).stepBlocks t).arrive t (x.links.get x.depth))) := by
  have hi := exec_ret f s
  have hx : (s.resumed n).thread t = some x := h.thread
  unfold execRet at hi
  refine ⟨fun h0 => ?_, fun h0 ho => ?_, fun h0 ho hf => ?_, fun h0 ho hf => ?_⟩
  · exact hi.trans (runGroup_solo_trap h (by simp only [hx, if_pos h0]))
  · exact hi.trans (runGroup_solo_trap h (by simp only [hx, if_neg h0, if_pos ho]))
  · refine hi.trans (runGroup_solo_wait (w := .words t (x.words 8 56)) (u := s.resumed n) h ?_)
    simp only [hx, if_neg h0, if_neg ho, hf, Bool.not_false, if_true]
  · refine transfer_spec (move := fun s => (s.alterThread t Thread.popFrame).stepBlocks t) h hi ?_
    simp only [hx, if_neg h0, if_neg ho, hf, Bool.not_true, Bool.false_eq_true, if_false]

/-- Settles O13: `callTo_spec` for call and callx, `Thread.pushFrame_spec` and `callCause_spec` for the window, `ret_spec` for ret. -/
theorem callsAndReturnsMoveTheWindow : Obligations.CallsAndReturnsMoveTheWindow := by
  unfold Obligations.CallsAndReturnsMoveTheWindow
  refine ⟨⟨fun s n g t x m => ⟨fun f h => ?_, fun f h => ?_⟩, Thread.pushFrame_spec, fun s t x r hx hr => callCause_spec hx hr⟩,
    fun f s n g t x m h => ?_⟩
  · obtain ⟨hb, hgo⟩ := callTo_spec (va := g.pc + BitVec.ofInt 57 (8 * f.wofs.toInt)) h (exec_call f s) (by rw [h.pcAt]; rfl)
    exact ⟨⟨hb.traps, hb.waits⟩, hgo⟩
  · obtain ⟨hb, hgo⟩ := callTo_spec h (exec_callx f s) rfl
    exact ⟨⟨hb.traps, hb.waits⟩, hgo⟩
  · obtain ⟨h0, hspilled, hflight, hgo⟩ := ret_spec f h
    refine ⟨h0, hspilled, hflight, fun hd ho hf => ?_⟩
    obtain ⟨hb, hc⟩ := hgo hd ho hf
    exact ⟨hb.traps, hb.waits, hc⟩

end Sys2Proof.Machine
end

section
/-! SUPPORT. The turn of a slot (R46, R81, R83): what the step, the turn and the issue of a group come to, one lemma for each. -/

namespace Sys2Proof.Machine

/-- An answer with its next state changed; a stop stays as it is. -/
def onNext (f : State → State) : Result → Result
  | .next t => .next (f t)
  | r => r

theorem step_of_slot {s : State} {c : CoreId} {k : Nat} {rest : List Turn} (h : s.sched = .slot c k :: rest) :
    step s = afterTurn (stepSlot { s with sched := rest, cur := none } c k) := by
  unfold step
  rw [h]

/-- The turn of a slot that may act, whose choice is a formed group without a deferred cause to take, is an issue of the group (R83, R360). -/
theorem stepSlot_of_group {s : State} {c : CoreId} {k n : Nat} {u : Pickable} {g : Group} (hmay : s.slotMay c k = true)
    (hpick : s.pick c k = some u) (hunit : u.group = some n) (hgroup : s.group n = some g)
    (hnone : ∀ t ∈ g.members, s.deliverable ⟨g.team, t⟩ = false) : stepSlot s c k = issueGroup s c k n g := by
  have hfind : (g.members.find? fun t => s.deliverable ⟨g.team, t⟩) = none := by simpa using hnone
  unfold stepSlot
  simp only [hmay, hpick, hunit, hgroup, hfind, Bool.not_true, Bool.false_eq_true, if_false]

section
variable {s : State} {c : CoreId} {k n : Nat} {g : Group} {w : DWord}

/-- A word that decodes is issued: its instruction runs with the group current (R81). -/
theorem issueGroup_of_ok {i : Instr} (hw : g.clause.words[g.idx]? = some (.word w)) (hi : decodeWord g.clause.table w = .ok i) :
    issueGroup s c k n g = onNext (fun t => t.afterIssue s c k n g (guardField w)) (exec i { s with cur := some n }) := by
  unfold issueGroup
  simp only [hw, hi]
  cases exec i { s with cur := some n } <;> rfl

/-- A word that the table rejects raises the cause of the rejection in every member (R68). -/
theorem issueGroup_of_error {e : Reject} (hw : g.clause.words[g.idx]? = some (.word w)) (he : decodeWord g.clause.table w = .error e) :
    issueGroup s c k n g = .next ((trapGroup { s with cur := some n } g e.cause []).atSlot c k) := by
  unfold issueGroup
  simp only [hw, he]

end

/-- Settles O57: the step is the slot's turn, the turn the issue of its group, and the issue the decoded instruction or the cause of the rejection. -/
theorem stepRunsTheDecodedInstruction : Obligations.StepRunsTheDecodedInstruction := by
  unfold Obligations.StepRunsTheDecodedInstruction
  intro s c k rest u n g w hsched r hmay hpick hunit hgroup hnone hw
  have hstep : step s = afterTurn (issueGroup r c k n g) :=
    (step_of_slot hsched).trans (congrArg afterTurn (stepSlot_of_group hmay hpick hunit hgroup hnone))
  refine ⟨fun i hi => ?_, fun e he => ?_⟩
  · rw [hstep, issueGroup_of_ok hw hi]
    show afterTurn (onNext _ (exec i { s with sched := rest, cur := some n })) = _
    cases exec i { s with sched := rest, cur := some n } <;> rfl
  · rw [hstep, issueGroup_of_error hw he]
    rfl

end Sys2Proof.Machine
end

section
/-! SUPPORT. The formation of groups (R48, R49, R66 to R69, R78 to R80, R83, R243): the parts of a formation by name, and what it comes to in each of its cases. -/

namespace Sys2Proof.Machine

theorem exec_groupFormation (c : CoreId) (k : Nat) (s : State) : exec (.groupFormation c k) s = execGroupFormation c k s := rfl

/-! The parts of a formation -/

/-- The threads that a slot takes of a candidate (R80). -/
abbrev State.taken (s : State) (u : Pickable) (m : Team) : List Nat := s.takeThreads u.key.team (s.candidateThreads m u.key)

/-- The thread that fetches the clause of a candidate: the oldest of those taken (R80). -/
abbrev State.fetcher (s : State) (u : Pickable) (m : Team) : ThreadId :=
  ⟨u.key.team, ((s.taken u m).find? fun t => ((s.thread ⟨u.key.team, t⟩).map Thread.stamp) == some u.stamp && m.placeOf t == u.place
    && laneOf t == u.lane).getD ((s.taken u m).headD 0)⟩

/-- The threads of a candidate whose header waits hold (R48). -/
abbrev State.readyOf (s : State) (u : Pickable) (m : Team) (h : Header) : List Nat :=
  (s.candidateThreads m u.key).filter fun t => (s.thread ⟨u.key.team, t⟩).any fun x => x.waitsHold h

/-- The threads of a candidate that wait at its header again (R48, R78). -/
abbrev State.lateOf (s : State) (u : Pickable) (m : Team) (h : Header) : List Nat :=
  (s.candidateThreads m u.key).filter fun t => !(s.readyOf u m h).contains t

/-- What holding back the formation at a REGROUP header leaves, where the slot holds it back (R49). -/
abbrev State.heldAt (s : State) (c : CoreId) (k : Nat) (u : Pickable) (h : Header) : Option State :=
  if h.regroup then s.holdBack c k u else none

/-- The clause of a candidate, of the words fetched (R50, R66). -/
abbrev State.clauseOf (s : State) (u : Pickable) (m : Team) (h : Header) (ws : List Fetched) : Clause :=
  ⟨u.key.pc, ws, ((s.context m.cn).map Context.table).getD .lv3, h.engineClass⟩

theorem check_of_sound_header {x : Clause} {h : Header} (hc : h.cause = none) : x.check h = x.late := by
  unfold Clause.check
  rw [hc]

/-! The cases of a formation -/

section
variable {s : State} {c : CoreId} {k : Nat} {u : Pickable} {m : Team} {renew : Bool}

theorem formWith_of_unaligned (ha : u.key.pc.toNat % 8 ≠ 0) :
    s.formWith c k u m renew = some (s.trapAll u.key.team (s.taken u m) u.key.pc 0x00D [u.key.pc.zeroExtend 64]) := by
  unfold State.formWith
  exact if_pos ha

section
variable {v : State} {look : Look} (ha : u.key.pc.toNat % 8 = 0)
include ha

theorem formWith_of_closed (hf : s.place.fetchAt (s.fetcher u m) u.key.pc renew = (.closed v, look)) :
    s.formWith c k u m renew = some s := by
  unfold State.formWith
  simp only [ha, hf, ne_eq, not_true_eq_false, if_false]

theorem formWith_of_fail {cause : Cause} {aux : List DWord}
    (hf : s.place.fetchAt (s.fetcher u m) u.key.pc renew = (.got (.fail cause aux) v, look)) :
    s.formWith c k u m renew = some (v.trapAll u.key.team (s.taken u m) u.key.pc cause aux) := by
  unfold State.formWith
  simp only [ha, hf, ne_eq, not_true_eq_false, if_false]

variable {w : DWord} (hf : s.place.fetchAt (s.fetcher u m) u.key.pc renew = (.got (.word w) v, look))
include hf

theorem formWith_of_bad_header {cause : Cause} (hc : (headerOf w).cause = some cause) :
    s.formWith c k u m renew = some (v.trapAll u.key.team (s.taken u m) u.key.pc cause [0]) := by
  unfold State.formWith
  simp only [ha, hf, hc, ne_eq, not_true_eq_false, if_false]

variable (hc : (headerOf w).cause = none)
include hc

theorem formWith_of_held {y : State} (hh : s.heldAt c k u (headerOf w) = some y) :
    s.formWith c k u m renew = some (y.sendBack u.key.team (s.lateOf u m (headerOf w))) := by
  unfold State.formWith
  simp only [ha, hf, hc, hh, ne_eq, not_true_eq_false, if_false]

variable (hh : s.heldAt c k u (headerOf w) = none)
include hh

theorem formWith_of_none_ready (hr : s.readyOf u m (headerOf w) = []) :
    s.formWith c k u m renew = some (s.sendBack u.key.team (s.lateOf u m (headerOf w))) := by
  unfold State.formWith
  simp only [ha, hf, hc, hh, ne_eq, not_true_eq_false, if_false]
  exact if_pos hr

variable (hr : s.readyOf u m (headerOf w) ≠ [])
include hr

theorem formWith_of_closed_word (hw : v.fetchWords (s.fetcher u m) (u.key.pc + 8) renew (headerOf w).length = none) :
    s.formWith c k u m renew = some s := by
  unfold State.formWith
  simp only [ha, hf, hc, hh, hr, hw, ne_eq, not_true_eq_false, if_false]

variable {ws : List Fetched} {looks : List Look} {z : State}
  (hw : v.fetchWords (s.fetcher u m) (u.key.pc + 8) renew (headerOf w).length = some (ws, looks, z))
include hw

/-- Copies that hold no one state of the clause do not serve it (R243). -/
theorem formWith_of_torn (h1 : z.ofOnePlace (s.fetcher u m) (look :: looks) = false) : s.formWith c k u m renew = none := by
  unfold State.formWith
  simp only [ha, hf, hc, hh, hr, hw, h1, ne_eq, not_true_eq_false, if_false, Bool.not_false, if_true]

variable (h1 : z.ofOnePlace (s.fetcher u m) (look :: looks) = true)
include h1

theorem formWith_of_bad_clause {cause : Cause} {j : Nat} (hl : (s.clauseOf u m (headerOf w) ws).late = some (cause, j)) :
    s.formWith c k u m renew = some (z.trapAll u.key.team (s.takeThreads u.key.team (s.readyOf u m (headerOf w))) u.key.pc cause
      [BitVec.ofNat 64 j]) := by
  unfold State.formWith
  simp only [ha, hf, hc, hh, hr, hw, h1, check_of_sound_header hc, hl, ne_eq, not_true_eq_false, if_false, Bool.not_true,
    Bool.false_eq_true]

theorem formWith_of_sound (hl : (s.clauseOf u m (headerOf w) ws).late = none) :
    s.formWith c k u m renew = some ((z.sendBack u.key.team (s.lateOf u m (headerOf w))).makeGroup c k u.key
      (s.clauseOf u m (headerOf w) ws) (s.takeThreads u.key.team (s.readyOf u m (headerOf w))) (s.fetcher u m)) := by
  unfold State.formWith
  simp only [ha, hf, hc, hh, hr, hw, h1, check_of_sound_header hc, hl, ne_eq, not_true_eq_false, if_false, Bool.not_true,
    Bool.false_eq_true]

end
end

/-- A slot that may act forms the candidate that it chooses (R80, R83). -/
theorem groupFormation_of_candidate {s : State} {c : CoreId} {k : Nat} {u : Pickable} {m : Team} (hmay : s.slotMay c k = true)
    (hpick : s.pick c k = some u) (hunit : u.group = none) (hteam : s.team u.key.team = some m) :
    exec (.groupFormation c k) s = .next (s.form c k u m) := by
  rw [exec_groupFormation]
  unfold execGroupFormation
  simp only [hmay, hpick, hunit, hteam, Bool.not_true, Bool.false_eq_true, if_false]

/-- A slot that may not act, or that has no choice, forms nothing. -/
theorem groupFormation_of_no_turn {s : State} {c : CoreId} {k : Nat} (h : s.slotMay c k = false ∨ s.pick c k = none) :
    exec (.groupFormation c k) s = .next s := by
  rw [exec_groupFormation]
  unfold execGroupFormation
  cases hmay : s.slotMay c k with
  | false => rfl
  | true =>
    have hpick : s.pick c k = none := h.resolve_left (by simp [hmay])
    rw [hpick]
    rfl

/-- A slot whose choice is a formed group forms nothing. -/
theorem groupFormation_of_group {s : State} {c : CoreId} {k : Nat} {u : Pickable} (hpick : s.pick c k = some u)
    (hunit : u.group ≠ none) : exec (.groupFormation c k) s = .next s := by
  obtain ⟨n, hn⟩ := Option.ne_none_iff_exists'.mp hunit
  rw [exec_groupFormation]
  unfold execGroupFormation
  cases s.slotMay c k with
  | false => rfl
  | true => simp only [hpick, hn, Bool.not_true, Bool.false_eq_true, if_false]

/-- Settles O49: the event by the slot's turn and choice, and the formation by the case that its fetch, its header, its waits and its clause put it in. -/
theorem groupsAreFormed : Obligations.GroupsAreFormed := by
  unfold Obligations.GroupsAreFormed
  intro s c k
  refine ⟨groupFormation_of_no_turn, fun u => groupFormation_of_group, fun u m hmay hpick hunit hteam => ?_⟩
  intro r
  refine ⟨groupFormation_of_candidate hmay hpick hunit hteam, fun renew => ?_⟩
  intro n pc all ts old table forms f
  have hfetch : ∀ a, f.1 = a → r.place.fetchAt (r.fetcher u m) u.key.pc renew = (a, f.2) := fun a h => Prod.ext h rfl
  refine ⟨formWith_of_unaligned, fun ha => ⟨fun v hf => ?_, fun cause aux v hf => ?_, fun w v hf => ?_⟩⟩
  · exact formWith_of_closed ha (hfetch _ hf)
  · exact formWith_of_fail ha (hfetch _ hf)
  · replace hf := hfetch _ hf
    intro h ready late held
    refine ⟨fun cause hc => formWith_of_bad_header ha hf hc, fun hc => ⟨fun y hh => formWith_of_held ha hf hc hh, fun hh hr => ?_,
      fun hh hr => ⟨fun hw => formWith_of_closed_word ha hf hc hh hr hw, fun ws looks z hw => ?_⟩⟩⟩
    · exact formWith_of_none_ready ha hf hc hh hr
    · intro x one
      exact ⟨formWith_of_torn ha hf hc hh hr hw, fun cause j h1 hl => formWith_of_bad_clause ha hf hc hh hr hw h1 hl,
        formWith_of_sound ha hf hc hh hr hw⟩

end Sys2Proof.Machine
end

section
/-! SUPPORT. The turns of the schedule (R232; DESIGN CHOICE, log 1): a step is a turn and then the ties. -/

namespace Sys2Proof.Machine

/-- What a turn of the schedule does, before the ties. -/
def runTurn (s : State) : Turn → Result
  | .slot c k => stepSlot s c k
  | .event i => if (encode i).isNone then exec i s else .next s
  | .tick => .next { s with dtime := s.dtime + 1 }
  | .arrive m => .next (s.arriveMsg m)
  | .packet conn seq m => .next (s.arrivePacket conn seq m)
  | .spoil n => .next (s.spoilSector n)
  | .correct d => .next (s.correctError d)
  | .strike c a w v => .next (s.strikeWord c a w v)

theorem step_of_no_turn {s : State} (h : s.sched = []) : step s = .next s.passTime.takeTies := by
  unfold step
  rw [h]
  rfl

theorem step_of_turn {s : State} {turn : Turn} {rest : List Turn} (h : s.sched = turn :: rest) :
    step s = afterTurn (runTurn { s with sched := rest, cur := none } turn) := by
  unfold step
  rw [h]
  cases turn <;> rfl

/-- A turn runs a row that has no word (log 1). -/
theorem runTurn_event_of_no_word {s : State} {i : Instr} (h : encode i = none) : runTurn s (.event i) = exec i s :=
  if_pos (Option.isNone_iff_eq_none.mpr h)

/-- A turn runs no instruction: those are a slot's (R81). -/
theorem runTurn_event_of_word {s : State} {i : Instr} {w : DWord} (h : encode i = some w) : runTurn s (.event i) = .next s :=
  if_neg (by simp [h])

/-- Settles O58: a step is a turn and then the ties; of a row that runs, the end of the turn by its outcome. -/
theorem stepTakesTheNextTurn : Obligations.StepTakesTheNextTurn := by
  unfold Obligations.StepTakesTheNextTurn
  intro s rest r
  refine ⟨step_of_no_turn, fun i h hi => ?_, fun i w h hi => ?_, step_of_turn, fun m => step_of_turn,
    fun conn seq m => step_of_turn, fun d => step_of_turn, fun p => step_of_turn, fun c a w v => step_of_turn⟩
  · rw [step_of_turn h, runTurn_event_of_no_word hi]
    cases exec i r <;> rfl
  · rw [step_of_turn h, runTurn_event_of_word hi]
    rfl

end Sys2Proof.Machine
end

section
/-! SUPPORT. exit, yield, nop and the branches (R51, R95, R97 to R99) in a group of one thread, and the checks of a target by the answer of its fetch (R51, R68, R363, R370). -/

namespace Sys2Proof.Machine

theorem exec_exit (f : RF) (s : State) : exec (.exit f) s = execExit f s := rfl
theorem exec_yield (f : RF) (s : State) : exec (.yield f) s = execYield f s := rfl
theorem exec_nop (f : RF) (s : State) : exec (.nop f) s = execNop f s := rfl
theorem exec_br (f : BrF) (s : State) : exec (.br f) s = execBr f s := rfl
theorem exec_brc (f : BrcF) (s : State) : exec (.brc f) s = execBrc f s := rfl
theorem exec_brx (f : RF) (s : State) : exec (.brx f) s = execBrx f s := rfl

/-! exit, yield and nop -/

section
variable {s : State} {n : Nat} {g : Group} {t : ThreadId} {x : Thread} {m : Team} (f : RF)

theorem exit_commits (h : Solo s n g t x m { guard := f.g }) :
    Commits (.exit f) s n t { guard := f.g } ((s.resumed n).exitThread t) :=
  (exec_exit f s).trans (runGroup_solo_done h rfl)

theorem nop_commits (h : Solo s n g t x m { guard := f.g }) : Commits (.nop f) s n t { guard := f.g } (s.resumed n) :=
  (exec_nop f s).trans (runGroup_solo_done h rfl)

/-- A yield sends its thread to NEXT until the clk that its delay ends at (R98). -/
theorem yield_commits (h : Solo s n g t x m { guard := f.g, srcs := [srcA f] }) :
    Commits (.yield f) s n t { guard := f.g, srcs := [srcA f] } (((s.resumed n).leaveGroup t).alterThread t fun x =>
      { x with pc := g.clause.next,
               status := .waiting ((s.core m.core).clk + min (arg (s.valuesOf { guard := f.g, srcs := [srcA f] } t) 0).toNat 4095) }) := by
  refine (exec_yield f s).trans (runGroup_solo_done h ?_)
  simp only [State.resumed_core, State.resumed_coreOf, h.coreOf, h.nextAt]

end

/-- Settles O14: each is done at once, with the effect that its body answers. -/
theorem exitYieldAndNop : Obligations.ExitYieldAndNop := by
  unfold Obligations.ExitYieldAndNop
  intro f s n g t x m
  exact ⟨fun h => ⟨exit_commits f h, nop_commits f h⟩, yield_commits f⟩

/-! Branches -/

section
variable {s : State} {n : Nat} {g : Group} {t : ThreadId} {x : Thread} {m : Team}

theorem br_spec (f : BrF) (h : Solo s n g t x m { guard := f.g }) :
    let va := g.pc + BitVec.ofInt 57 (8 * f.wofs.toInt)
    TargetBlocks (.br f) s n g t m va ∧ ∀ u, (s.resumed n).checkTarget t va = .ok u →
      Commits (.br f) s n t { guard := f.g } (u.arrive t va) :=
  transfer_spec (move := id) h (exec_br f s) (by rw [h.pcAt]; rfl)

/-- What a conditional branch reads. -/
abbrev brcShape (f : BrcF) : Shape := { guard := f.g, srcs := [.one f.a f.bta, .one f.b f.btb] }

theorem brc_not_taken (f : BrcF) (h : Solo s n g t x m (brcShape f))
    (hc : icmpOp f.cmp f.un (arg (s.valuesOf (brcShape f) t) 0) (arg (s.valuesOf (brcShape f) t) 1) = false) :
    Commits (.brc f) s n t (brcShape f) ((s.resumed n).alterThread t fun x => { x with sig := x.sig.rotateLeft 1 }) := by
  refine (exec_brc f s).trans (runGroup_solo_done h ?_)
  simp [hc, Thread.sign]

theorem brc_taken (f : BrcF) (h : Solo s n g t x m (brcShape f))
    (hc : icmpOp f.cmp f.un (arg (s.valuesOf (brcShape f) t) 0) (arg (s.valuesOf (brcShape f) t) 1) = true) :
    let va := g.pc + BitVec.ofInt 57 (8 * f.wofs.toInt)
    TargetBlocks (.brc f) s n g t m va ∧ ∀ u, (s.resumed n).checkTarget t va = .ok u →
      Commits (.brc f) s n t (brcShape f) ((u.alterThread t fun x => { x with sig := x.sig.rotateLeft 1 ^^^ 1 }).arrive t va) := by
  refine transfer_spec (move := fun s => s.alterThread t fun x => x.sign 1) h (exec_brc f s) ?_
  simp only [hc, if_true, h.pcAt]
  rfl

theorem brx_spec (f : RF) (h : Solo s n g t x m { guard := f.g, srcs := [.pair f.a f.bta] }) :
    let sh : Shape := { guard := f.g, srcs := [.pair f.a f.bta] }
    let va := (arg64 (s.valuesOf sh t) 0).truncate 57
    TargetBlocks (.brx f) s n g t m va ∧ ∀ u, (s.resumed n).checkTarget t va = .ok u →
      Commits (.brx f) s n t sh ((u.alterThread t fun x => { x with sig := x.sig.rotateLeft 1 ^^^ va.zeroExtend 64 }).arrive t va) :=
  transfer_spec (move := fun u => u.alterThread t fun x => x.sign _) h (exec_brx f s) rfl

end

/-! The checks of a target -/

section
variable {s u v : State} {t : ThreadId} {va : VAddr} {c : Cause}

theorem checkTarget_of_unaligned (h : va.toNat % 8 ≠ 0) : s.checkTarget t va = .trap 0x00D [va.zeroExtend 64] s := by
  unfold State.checkTarget
  exact if_pos h

section
variable (ha : va.toNat % 8 = 0)
include ha

theorem checkTarget_of_closed (hf : s.fetchWord t va = .closed u) : s.checkTarget t va = .closed u := by
  unfold State.checkTarget
  simp only [ha, hf, ne_eq, not_true_eq_false, if_false]

theorem checkTarget_of_fail {aux : List DWord} (hf : s.fetchWord t va = .got (.fail c aux) u) :
    s.checkTarget t va = .trap c aux u := by
  unfold State.checkTarget
  simp only [ha, hf, ne_eq, not_true_eq_false, if_false]

theorem checkTarget_of_word {w : DWord} (hf : s.fetchWord t va = .got (.word w) u) :
    s.checkTarget t va = if (headerOf w).valid then .ok u else .trap 0x00C [va.zeroExtend 64] u := by
  unfold State.checkTarget
  simp only [ha, hf, ne_eq, not_true_eq_false, if_false]

end

/-! The fetch of a target, by the answer of its translation and of its load -/

theorem fetchWord_of_closed (h : s.translate (s.coreOf t).die (s.cnOf t) needFetch va = (.closed, u)) :
    s.fetchWord t va = .closed u := by
  unfold State.fetchWord State.fetchAt
  simp only [h]

/-- A translation that raises a cause, or whose walk meets an error reply, fails the fetch (R363, R370). -/
theorem fetchWord_of_cause (h : s.translate (s.coreOf t).die (s.cnOf t) needFetch va = (.cause c, u) ∨
    s.translate (s.coreOf t).die (s.cnOf t) needFetch va = (.ok (.failed c), u)) :
    s.fetchWord t va = .got (.fail c [va.zeroExtend 64, 1]) u := by
  unfold State.fetchWord State.fetchAt
  rcases h with h | h <;> simp only [h]

/-- An error reply to the load fails the fetch (R241, R363). -/
theorem fetchWord_of_load_error {pa : Nat} (h : s.translate (s.coreOf t).die (s.cnOf t) needFetch va = (.ok (.hbm pa), u))
    (hl : u.loadCached t va pa (.normal 2) (u.classFor t va) false = (.error c, v)) :
    s.fetchWord t va = .got (.fail c [va.zeroExtend 64, 1]) v := by
  unfold State.fetchWord State.fetchAt
  simp only [h, hl]

/-- The auxiliary words of a fetch that fails: the address, and bit 0 of TAUX1 (R363, R370). -/
theorem fetchWord_fail_aux {aux : List DWord} (h : s.fetchWord t va = .got (.fail c aux) u) : aux = [va.zeroExtend 64, 1] := by
  unfold State.fetchWord State.fetchAt at h
  rcases hq : s.translate (s.coreOf t).die (s.cnOf t) needFetch va with ⟨r, w⟩
  simp only [hq] at h
  match r with
  | .ok (.hbm pa) =>
    rcases hl : w.loadCached t va pa (.normal 2) (w.classFor t va) false with ⟨_ | _, z⟩ <;> simp only [hl] at h <;> cases h
    rfl
  | .ok (.window _ _) => cases h; rfl
  | .ok (.failed _) => cases h; rfl
  | .cause _ => cases h; rfl
  | .closed => cases h

end

/-- Settles O12: `br_spec`, `brc_not_taken`, `brc_taken` and `brx_spec` for the branches; the checks of a target by the answer of its fetch. -/
theorem branchesReachTheirTargets : Obligations.BranchesReachTheirTargets := by
  unfold Obligations.BranchesReachTheirTargets
  refine ⟨fun s n g t x m => ⟨fun f h => ?_, fun f h => ⟨brc_not_taken f h, fun hc => ?_⟩, fun f h => ?_⟩, fun s t va => ?_⟩
  · obtain ⟨hb, hgo⟩ := br_spec f h
    exact ⟨⟨hb.traps, hb.waits⟩, hgo⟩
  · obtain ⟨hb, hgo⟩ := brc_taken f h hc
    exact ⟨⟨hb.traps, hb.waits⟩, hgo⟩
  · obtain ⟨hb, hgo⟩ := brx_spec f h
    exact ⟨⟨hb.traps, hb.waits⟩, hgo⟩
  · refine ⟨checkTarget_of_unaligned, fun c aux u hf => ?_, fun c u h ha => checkTarget_of_fail ha (fetchWord_of_cause h),
      fun pa u c v h hl ha => checkTarget_of_fail ha (fetchWord_of_load_error h hl),
      fun ha u h => checkTarget_of_closed ha (fetchWord_of_closed h), fun ha w u hf => ⟨fun hc => ?_, fun hc => ?_⟩⟩
    · obtain rfl := fetchWord_fail_aux hf
      exact ⟨rfl, fun ha => checkTarget_of_fail ha hf⟩
    · exact (checkTarget_of_word ha hf).trans (if_neg (by simpa [Header.valid] using hc))
    · exact (checkTarget_of_word ha hf).trans (if_pos (by simp [Header.valid, hc]))

end Sys2Proof.Machine
end

section
/-! SUPPORT. The clk of a core and the events of issue (R17, R49, R84, R98, R360, R386 to R388): what keeps a core's clocks, and each event by its cases. -/

namespace Sys2Proof.Machine

theorem exec_regroupHoldExpiry (c : CoreId) (k : Nat) (s : State) :
    exec (.regroupHoldExpiry c k) s = execRegroupHoldExpiry c k s := rfl
theorem exec_yieldDelayEnd (t : ThreadId) (s : State) : exec (.yieldDelayEnd t) s = execYieldDelayEnd t s := rfl
theorem exec_clk (c : CoreId) (s : State) : exec (.clk c) s = execClk c s := rfl
theorem exec_unitPromotion (c : CoreId) (s : State) : exec (.unitPromotion c) s = execUnitPromotion c s := rfl
theorem exec_counterSample (c : CoreId) (n : Nat) (s : State) : exec (.counterSample c n) s = execCounterSample c n s := rfl
theorem exec_deferredCauseDelivery (t : ThreadId) (s : State) :
    exec (.deferredCauseDelivery t) s = execDeferredCauseDelivery t s := rfl

/-! The end of a yield's delay -/

theorem yieldDelayEnd_of_waiting {s : State} {t : ThreadId} {x : Thread} {d : Nat} (hx : s.thread t = some x)
    (hw : x.status = .waiting d) : exec (.yieldDelayEnd t) s = .next (if 0 < d ∧ d ≤ (s.core (s.coreOf t)).clk then
      s.alterThread t fun x => { x with status := .waiting 0 } else s) := by
  rw [exec_yieldDelayEnd]
  unfold execYieldDelayEnd
  simp only [hx, hw, Option.map_some]

/-! What keeps the clocks of a core -/

/-- A core's clk and ltime are as they were (R17). -/
def SameClocks (c : CoreId) (s u : State) : Prop := (u.core c).clk = (s.core c).clk ∧ (u.core c).ltime = (s.core c).ltime

section
variable {c : CoreId} {s u v : State}

theorem SameClocks.refl (c : CoreId) (s : State) : SameClocks c s s := ⟨rfl, rfl⟩

theorem SameClocks.trans (h : SameClocks c s u) (h' : SameClocks c u v) : SameClocks c s v :=
  ⟨h'.1.trans h.1, h'.2.trans h.2⟩

theorem SameClocks.of_cores (h : u.cores = s.cores) : SameClocks c s u := by
  unfold SameClocks State.core
  rw [h]
  exact ⟨rfl, rfl⟩

theorem SameClocks.alterCore (s : State) (e : CoreId) (f : Core → Core) (hclk : (f (s.core e)).clk = (s.core e).clk)
    (hltime : (f (s.core e)).ltime = (s.core e).ltime) : SameClocks c s (s.alterCore e f) := by
  unfold SameClocks
  rw [State.alterCore_core]
  split
  · rename_i h
    rw [h]
    exact ⟨hclk, hltime⟩
  · exact ⟨rfl, rfl⟩

theorem SameClocks.of_quiet (h : Quiet s u) : SameClocks c s u := by
  obtain ⟨_, _, _, _, _, _, hc⟩ := h.2 c
  unfold SameClocks
  rw [hc]
  exact ⟨rfl, rfl⟩

/-- A fold of updates that each keep the clocks keeps them. -/
theorem SameClocks.foldl {α : Type} (l : List α) {f : State → α → State} (s : State) (hf : ∀ u, ∀ a ∈ l, SameClocks c u (f u a)) :
    SameClocks c s (l.foldl f s) :=
  List.foldlRecOn l f (SameClocks.refl c s) fun u hu a ha => hu.trans (hf u a ha)

end

theorem settleThread_cores (s : State) (t : ThreadId) (x : Thread) : (s.settleThread t x).cores = s.cores := by
  unfold State.settleThread
  dsimp only
  split
  · split
    · rfl
    · split <;> split <;> rfl
  · split <;> rfl
  · rfl

theorem settleCore_sameClocks (s : State) (c : CoreId) : SameClocks c s (s.settleCore c) := by
  refine SameClocks.foldl s.threads s fun u e _ => ?_
  split
  · exact SameClocks.of_cores (settleThread_cores u e.1 e.2)
  · exact SameClocks.refl c u

theorem foldl_aged_quiet (team : Nat) (l : List Nat) (s : State) :
    Quiet s (l.foldl (fun (s : State) t => s.alterThread ⟨team, t⟩ fun x => { x with aged := true }) s) := by
  induction l generalizing s with
  | nil => exact Quiet.refl s
  | cons t l ih => exact (Quiet.alterThread s _ _).trans (ih _)

theorem promoteUnit_quiet (s : State) (clk : Int) (u : Nat × List Nat) : Quiet s (s.promoteUnit clk u) := by
  unfold State.promoteUnit
  dsimp only
  split
  · exact Quiet.refl s
  · have hfold := foldl_aged_quiet u.1 (u.2.filter fun t => (s.thread ⟨u.1, t⟩).any fun x => decide (x.stamp + 4096 ≤ clk) && !x.aged) s
    split
    · exact hfold
    · exact hfold.trans (countFor_coreOnly _ _ _ _).quiet

theorem promoteUnits_sameClocks (s : State) (c : CoreId) : SameClocks c s (s.promoteUnits c) :=
  SameClocks.foldl (s.allUnits c) s fun u e _ => SameClocks.of_quiet (promoteUnit_quiet u _ e)

theorem foldl_rawBytes_cores (pa : Nat → Nat) (bs : Nat → List Byte) (l : List Nat) (s : State) :
    (l.foldl (fun (s : State) k => s.rawBytes (pa k) (bs k)) s).cores = s.cores := by
  induction l generalizing s with
  | nil => rfl
  | cons k l ih => exact ih _

theorem trace_cores (s : State) (c : CoreId) (n : Name) (pc : VAddr) (kind : Nat) (data : DWord) :
    (s.trace c n pc kind data).cores = s.cores := by
  unfold State.trace
  dsimp only
  split
  · rfl
  · rw [State.setDie_cores, foldl_rawBytes_cores]

theorem sample_sameClocks (s : State) (c : CoreId) (n : Nat) : SameClocks c s (s.sample c n) := by
  unfold State.sample
  dsimp only
  split
  · exact SameClocks.refl c s
  · split
    · exact SameClocks.refl c s
    · exact (SameClocks.alterCore s c (fun x => { x with sampled := x.sampled.add n }) rfl rfl).trans
        (SameClocks.of_cores (trace_cores _ _ _ _ _ _))

theorem endCounts_sameClocks (s : State) (c : CoreId) : SameClocks c s (s.endCounts c) := by
  unfold State.endCounts
  dsimp only
  have hsamples : ∀ u, SameClocks c u ((List.range 4).foldl (fun (s : State) n => s.sample c n) u) := fun u =>
    SameClocks.foldl (List.range 4) u fun v n _ => sample_sameClocks v c n
  have hcounts : SameClocks c s ((List.range 4).foldl (fun (s : State) n =>
      if s.clkCounted c n then s.countOne c n 1 Name.none else s) s) := by
    refine SameClocks.foldl (List.range 4) s fun u n _ => ?_
    split
    · exact SameClocks.of_quiet (countOne_coreOnly u c n 1 Name.none).quiet
    · exact SameClocks.refl c u
  generalize (List.range 4).foldl (fun (s : State) n => if s.clkCounted c n then s.countOne c n 1 Name.none else s) s = u at hcounts
  refine SameClocks.trans (hcounts.trans ?_) (hsamples _)
  split
  · exact SameClocks.refl c u
  · exact SameClocks.alterCore u c (fun x => x.add 0x30 (32 * (Config.slots - x.issued.length))) rfl rfl

theorem setArray_sameClocks (s : State) (c : CoreId) (a : Nat) (x : FieldArray) : SameClocks c s (s.setArray c a x) :=
  SameClocks.alterCore s c (fun k => { k with arrays := Table.put k.arrays a x }) rfl rfl

theorem startMma_sameClocks (s : State) (c : CoreId) (a : Nat) : SameClocks c s (s.startMma c a) := by
  unfold State.startMma
  dsimp only
  split
  · exact (setArray_sameClocks s c a _).trans (SameClocks.of_cores rfl)
  · exact SameClocks.refl c s

theorem tickArrays_sameClocks (s : State) (c : CoreId) : SameClocks c s (s.tickArrays c) :=
  SameClocks.foldl _ s fun u a _ => (setArray_sameClocks u c a _).trans (startMma_sameClocks _ c a)

/-! The clk of a core -/

theorem floorHomes_cores (s : State) (die : Nat) (ltime : BitVec 48) : (s.floorHomes die ltime).cores = s.cores := by
  unfold State.floorHomes
  dsimp only
  split <;> rfl

/-- The stamps that follow a core's ltime are no count of its clk (R247). -/
theorem floorStamps_core (s : State) (c : CoreId) (ltime : BitVec 48) : (s.floorStamps c ltime).core c =
    { s.core c with fieldTs := floorTs ltime (s.core c).fieldTs, l1 := (s.core c).l1.map (CacheLine.floor c ltime) } := by
  have hcores : (s.floorStamps c ltime).cores = (s.alterCore c fun k =>
      { k with fieldTs := floorTs ltime k.fieldTs, l1 := k.l1.map (CacheLine.floor c ltime) }).cores := by
    unfold State.floorStamps
    dsimp only
    split
    · exact floorHomes_cores _ _ _
    · rfl
  have hcore := State.alterCore_core s c c fun k =>
    { k with fieldTs := floorTs ltime k.fieldTs, l1 := k.l1.map (CacheLine.floor c ltime) }
  rw [if_pos rfl] at hcore
  rw [← hcore]
  unfold State.core
  rw [hcores]

/-- What a core is as its next clk begins: what the next clk makes of a core with its clocks, but for the holds of its formations and the stamps that follow its ltime (R17, R49, R247). -/
theorem tickCore_core (s : State) (c : CoreId) : ∃ (x : Core) (advance : Bool) (regroup : Table CandidateKey (Nat × Nat))
    (fieldTs : BitVec 48) (l1 : List CacheLine), x.clk = (s.core c).clk ∧ x.ltime = (s.core c).ltime
    ∧ (s.tickCore c).core c = { x.nextClk advance with regroup := regroup, fieldTs := fieldTs, l1 := l1 } := by
  have hsettled := (settleCore_sameClocks s c).trans (promoteUnits_sameClocks (s.settleCore c) c)
  have hcounted := hsettled.trans (endCounts_sameClocks _ c)
  have harrays := hcounted.trans (tickArrays_sameClocks _ c)
  unfold State.tickCore
  dsimp only
  generalize (((s.settleCore c).promoteUnits c).endCounts c).tickArrays c = v at harrays
  have hclocks : SameClocks c s (v.noteProgress c).draw := harrays.trans (SameClocks.of_cores rfl)
  generalize (v.noteProgress c).draw = u at hclocks
  rw [floorStamps_core, State.setCore_core, if_pos rfl]
  exact ⟨u.core c, Config.advance u.drawn, _, _, _, hclocks.1, hclocks.2, rfl⟩

/-- The next clk of a core (R17, R83, R156; DESIGN CHOICE, log 9). -/
theorem clk_spec (s : State) (c : CoreId) : ∃ u, exec (.clk c) s = .next u ∧ (u.core c).clk = (s.core c).clk + 1
    ∧ (u.core c).issued = [] ∧ (u.core c).turn = 0 ∧ (u.core c).stepped = [] ∧ (u.core c).checked = []
    ∧ ((u.core c).ltime = (s.core c).ltime ∨ (u.core c).ltime = (s.core c).ltime + 1)
    ∧ ((s.core c).clk % 256 = 255 → (u.core c).ltime = (s.core c).ltime + 1) := by
  obtain ⟨x, advance, _, _, _, hclk, hltime, hcore⟩ := tickCore_core s c
  refine ⟨s.tickCore c, exec_clk c s, ?_⟩
  rw [hcore, ← hclk, ← hltime]
  refine ⟨rfl, rfl, rfl, rfl, rfl, ?_, fun h => ?_⟩
  · exact (Classical.em _).elim (fun h => .inr (if_pos h)) fun h => .inl (if_neg h)
  · exact if_pos (by simp [h])

/-! The age of a unit -/

theorem allUnits_single {s : State} {c : CoreId} {team t : Nat} (h : s.allUnits c = [(team, [t])]) :
    exec (.unitPromotion c) s = .next (s.promoteUnit (s.core c).clk (team, [t])) := by
  rw [exec_unitPromotion]
  unfold execUnitPromotion State.promoteUnits
  rw [h]
  rfl

/-- A unit of one thread that has reached the age is counted once (R84). -/
theorem promoteUnit_of_due {s : State} {clk : Int} {team t : Nat} {x : Thread} (hx : s.thread ⟨team, t⟩ = some x)
    (hage : x.stamp + 4096 ≤ clk) (hnew : x.aged = false) : s.promoteUnit clk (team, [t]) =
      (s.alterThread ⟨team, t⟩ fun x => { x with aged := true }).countFor ⟨team, t⟩ 0x05 1 := by
  unfold State.promoteUnit
  simp [hx, hage, hnew]

/-- One that is younger, or has been counted, is not (R84). -/
theorem promoteUnit_of_not_due {s : State} {clk : Int} {team t : Nat} {x : Thread} (hx : s.thread ⟨team, t⟩ = some x)
    (h : clk < x.stamp + 4096 ∨ x.aged = true) : s.promoteUnit clk (team, [t]) = s := by
  have hdue : (decide (x.stamp + 4096 ≤ clk) && !x.aged) = false := by
    rcases h with h | h
    · simp [Int.not_le.mpr h]
    · simp [h]
  unfold State.promoteUnit
  simp [hx, hdue]

/-! The samples of a counter -/

/-- Whether a counter's sample is taken now: it is owed, not yet emitted in this clk, and no slot as low as its event's may act (R387). -/
theorem counterSample_of_owed {s : State} {c : CoreId} {k : Nat} {o : Sample} (hfind : Table.find (s.core c).samples k = some o)
    (howed : o.owed = true) (hnew : (s.core c).sampled.contains k = false) (hrank : o.rank < 32 * Config.slots)
    (hknown : ∀ j, j ≤ o.rank / 32 → s.slotMay c j = false) :
    exec (.counterSample c k) s = .next ((s.setCore c { s.core c with sampled := (s.core c).sampled.add k }).trace c ⟨o.lid, o.b, o.t⟩
      0 4 (BitVec.ofNat 64 (k + ((s.core c).obs.get (4 + k)).toNat / 4 * 4))) := by
  have hk : s.sampleKnown c k = true := by
    unfold State.sampleKnown
    simpa [hfind, hrank, Nat.lt_succ_iff] using hknown
  rw [exec_counterSample]
  unfold execCounterSample State.sample
  simp only [hk, hfind, howed, hnew, Bool.not_true, Bool.or_false, if_true, Bool.false_eq_true, if_false]

/-- A counter that owes none, or whose event a slot may still forestall, emits none (R387). -/
theorem counterSample_of_none {s : State} {c : CoreId} {k : Nat} (h : ∀ o, Table.find (s.core c).samples k = some o →
    o.owed = false ∨ (s.core c).sampled.contains k = true ∨ 32 * Config.slots ≤ o.rank ∨ ∃ j, j ≤ o.rank / 32 ∧ s.slotMay c j = true) :
    exec (.counterSample c k) s = .next s := by
  rw [exec_counterSample]
  unfold execCounterSample
  cases hk : s.sampleKnown c k with
  | false => rfl
  | true =>
    simp only [if_true]
    congr 1
    unfold State.sampleKnown at hk
    unfold State.sample
    cases hfind : Table.find (s.core c).samples k with
    | none => simp only [hfind]
    | some o =>
      simp only [hfind]
      simp only [hfind, Option.any_some, Bool.and_eq_true, decide_eq_true_eq, List.all_eq_true, List.mem_range, Bool.not_eq_true',
        Nat.lt_succ_iff] at hk
      obtain ⟨hrank, hslots⟩ := hk
      refine if_pos ?_
      rcases h o hfind with h | h | h | ⟨j, hj, hmay⟩
      · simp only [h, Bool.not_false, Bool.true_or]
      · simp only [h, Bool.or_true]
      · omega
      · rw [hslots j hj] at hmay
        cases hmay

/-! Deferred causes -/

section
variable {s : State} {t : ThreadId} {x : Thread} {tr : Trap} {rest : List Trap} (hq : x.deferred = tr :: rest)
include hq

theorem deferredCauseDelivery_of_undeliverable (hx : s.thread t = some x) (hd : s.deliverable t = false) : exec (.deferredCauseDelivery t) s = .next s := by
  rw [exec_deferredCauseDelivery]
  unfold execDeferredCauseDelivery
  simp [hx, hq, hd]

theorem deferredCauseDelivery_of_deliverable (hx : s.thread t = some x) (hd : s.deliverable t = true) :
    exec (.deferredCauseDelivery t) s = .next (s.deliverDeferred t x tr) := by
  rw [exec_deferredCauseDelivery]
  unfold execDeferredCauseDelivery
  simp [hx, hq, hd]

/-- Outside a group a thread takes its cause at its PC (R360). -/
theorem deliverDeferred_of_no_group (hs : ∀ n, x.status ≠ .member n) :
    s.deliverDeferred t x tr = (s.setThread t { x with deferred := rest }).takeTrap t tr x.pc none := by
  unfold State.deliverDeferred
  simp only [hq, List.drop_one, List.tail_cons]

/-- In a group it takes it at the boundary that it stands at (R81, R360). -/
theorem deliverDeferred_of_member {n : Nat} {g : Group} (hs : x.status = .member n) (hg : s.group n = some g) :
    s.deliverDeferred t x tr = (((s.setThread t { x with deferred := rest }).takeTrap t tr (g.boundary t.t).1 (g.boundary t.t).2).passOn n) := by
  have hgroup : ∀ y, (s.setThread t y).group n = some g := fun _ => hg
  unfold State.deliverDeferred
  simp only [hq, List.drop_one, List.tail_cons, hs, hgroup]

end

section
variable {g : Group} {t : Nat}

/-- Before the present instruction (R81). -/
theorem Group.boundary_of_not_done (h : g.done.contains t = false) : g.boundary t = (g.pc, some (g.clause, g.idx)) := by
  simp only [Group.boundary, h, Bool.not_false, if_true]

/-- After it, inside the clause (R81). -/
theorem Group.boundary_of_done (h : g.done.contains t = true) (hm : g.idx + 1 < g.clause.words.length) :
    g.boundary t = (g.clause.address (g.idx + 1), some (g.clause, g.idx + 1)) := by
  simp only [Group.boundary, h, hm, Bool.not_true, Bool.false_eq_true, if_false, if_true]

/-- After the last instruction of the clause (R81). -/
theorem Group.boundary_of_done_last (h : g.done.contains t = true) (hm : g.clause.words.length ≤ g.idx + 1) :
    g.boundary t = (g.clause.next, none) := by
  simp only [Group.boundary, h, Nat.not_lt.mpr hm, Bool.not_true, Bool.false_eq_true, if_false]

end

/-- Settles O50: each event by its cases; the clk of a core by what the turns before its end keep of its clocks. -/
theorem issueEventsTakeEffect : Obligations.IssueEventsTakeEffect := by
  unfold Obligations.IssueEventsTakeEffect
  intro s c k
  refine ⟨exec_regroupHoldExpiry c k s, fun t x d hx hw => ⟨fun h0 hle => ?_, fun h => ?_⟩, clk_spec s c,
    fun team t x hu hx => ⟨fun hage hnew => ?_, fun h => ?_⟩,
    ⟨fun o => counterSample_of_owed, counterSample_of_none⟩, fun t x tr rest hx hq => ?_⟩
  · exact (yieldDelayEnd_of_waiting hx hw).trans (by rw [if_pos ⟨h0, hle⟩])
  · exact (yieldDelayEnd_of_waiting hx hw).trans (by rw [if_neg (by omega)])
  · rw [allUnits_single hu, promoteUnit_of_due hx hage hnew]
  · rw [allUnits_single hu, promoteUnit_of_not_due hx h]
  · intro r
    refine ⟨deferredCauseDelivery_of_undeliverable hq hx, fun hd => ?_⟩
    rw [deferredCauseDelivery_of_deliverable hq hx hd]
    refine ⟨fun hs => by rw [deliverDeferred_of_no_group hq hs], fun n g hs hg => ?_⟩
    rw [deliverDeferred_of_member hq hs hg]
    refine ⟨fun h => ?_, fun h hm => ?_, fun h hm => ?_⟩
    · rw [Group.boundary_of_not_done h]
    · rw [Group.boundary_of_done h hm]
    · rw [Group.boundary_of_done_last h hm]

end Sys2Proof.Machine
end

section
/-! CERTIFICATES. O20: an error reply that reaches a thread which a pre-emption has stopped raises no cause (R383). -/

namespace Sys2Proof.Machine

theorem exec_errorReply (n : Nat) (s : State) : exec (.errorReply n) s = execErrorReply n s := rfl

/-- A cause that is raised after a pre-emption has stopped its thread is never raised (R383). -/
theorem defer_of_stoppedOutside {s : State} {t : ThreadId} {x : Thread} (hx : s.thread t = some x) (hgone : x.gone = false)
    (hstop : s.stoppedOutside t x = true) (tr : Trap) : s.defer t tr = s := by
  unfold State.defer
  simp only [hx, hgone, hstop, Bool.false_eq_true, if_false, if_true]

/-- An error reply of a load, without a register to fill. -/
def lateReply : Access := ⟨⟨1, 0⟩, ⟨0, 0⟩, [], none, [], some 0x086, 0, 0, 0, false, none⟩

/-- The placed team under a save (R378). -/
def savedTeam : Team := { placedTeam with preempt := some ⟨2, false, false, false, 0, 0, 1, 0, 0, 0⟩ }

/-- Thread 0 of a team under a save, waiting at a header, with an error reply on its way to it. -/
def stoppedState : State :=
  { State.reset with teams := [(1, savedTeam)], threads := [(⟨1, 0⟩, Thread.start 0 false 0 0)], accesses := [(5, lateReply)] }

theorem stoppedState_stoppedOutside : stoppedState.stoppedOutside ⟨1, 0⟩ (Thread.start 0 false 0 0) = true := rfl

/-- The error reply leaves the stopped thread as it was (R383). -/
theorem errorReply_stoppedState : exec (.errorReply 5) stoppedState = .next { stoppedState with accesses := [] } := by
  have hrun : execErrorReply 5 stoppedState = .next (stoppedState.orLater (stoppedState.reply 5 lateReply)) := rfl
  have hquiet : stoppedState.reply 5 lateReply = { stoppedState with accesses := [] } :=
    defer_of_stoppedOutside (s := { stoppedState with accesses := [] }) rfl rfl stoppedState_stoppedOutside ⟨0x086, 0, errorAux 0 0⟩
  rw [exec_errorReply, hrun, hquiet]
  rfl

/-- Refutes O20: its clause for error replies lets every live thread queue the cause, but a thread that a pre-emption has stopped outside a handler queues none; in `stoppedState` the reply leaves thread 0 without a deferred cause (R378, R383). -/
theorem not_loadsReplyIntoTheirRegisters : ¬ Obligations.LoadsReplyIntoTheirRegisters := by
  unfold Obligations.LoadsReplyIntoTheirRegisters
  rintro ⟨-, hreplies⟩
  obtain ⟨-, herror, -⟩ := hreplies stoppedState 5 lateReply (Thread.start 0 false 0 0) rfl rfl
  obtain ⟨u, -, hnext, hthread, -⟩ := herror rfl 0x086 rfl
  have hu : u = { stoppedState with accesses := [] } :=
    Host.Outcome.next.inj ((hnext fun e he => nomatch he).symm.trans errorReply_stoppedState)
  have hnone : u.thread ⟨1, 0⟩ = some (Thread.start 0 false 0 0) := by rw [hu]; rfl
  have hdeferred := congrArg (Option.map Thread.deferred) (hnone.symm.trans hthread)
  exact absurd hdeferred (by decide)

end Sys2Proof.Machine
end

section
/-! SUPPORT. What an instruction leaves of threads but for their places in a clause and their times (R79, R81, R245): frames that compose. -/

namespace Sys2Proof.Machine

/-! Threads but for place, time and queues -/

/-- A thread but for its place in a clause. -/
def Thread.placeless (x : Thread) : Thread := { x with pc := 0, status := .exited }
/-- The same, but for its times in the order of memory (R245, R252). -/
def Thread.timeless (x : Thread) : Thread := { x.placeless with ts := 0, fence := 0 }
/-- The same, but for its queues. -/
def Thread.queueless (x : Thread) : Thread := { x.timeless with queues := [] }

/-- Two threads alike but for their places differ in these alone. -/
theorem Thread.eq_of_placeless {z w : Thread} (h : z.placeless = w.placeless) : z = { w with pc := z.pc, status := z.status } :=
  congrArg (fun x => { x with pc := z.pc, status := z.status }) h

theorem Thread.eq_of_queueless {z w : Thread} (h : z.queueless = w.queueless) :
    z = { w with pc := z.pc, status := z.status, ts := z.ts, fence := z.fence, queues := z.queues } :=
  congrArg (fun x => { x with pc := z.pc, status := z.status, ts := z.ts, fence := z.fence, queues := z.queues }) h

theorem Thread.popAll_queueless (srcs : List Src) (x : Thread) : (x.popAll srcs).queueless = x.queueless := by
  induction srcs generalizing x with
  | nil => rfl
  | cons a srcs ih =>
    refine (ih _).trans ?_
    dsimp only
    split <;> rfl

theorem Thread.caughtUp_timeless (x : Thread) (srcs : List Src) (w : BitVec 48) : (x.caughtUp srcs w).timeless = x.timeless := by
  unfold Thread.caughtUp
  split <;> rfl

theorem Group.onward_placeless (g : Group) (x : Thread) : (g.onward x).placeless = x.placeless := by
  unfold Group.onward
  split <;> rfl

/-- Threads alike in one respect are alike in every coarser one. -/
theorem map_coarser {p q f : Thread → Thread} (hq : ∀ x, q (p x) = q x) {a b : Option Thread} (h : a.map p = b.map fun y => p (f y)) :
    a.map q = b.map fun y => q (f y) := by
  have h' := congrArg (Option.map q) h
  simpa only [Option.map_map, Function.comp_def, hq] using h'

/-! Threads that go on -/

/-- Threads may have changed their places in a clause; they are otherwise as they were, and so are memory and every pending rendezvous. -/
structure GoesOn (s u : State) : Prop where
  threads    : ∀ id, (u.thread id).map Thread.placeless = (s.thread id).map Thread.placeless
  rendezvous : ∀ k, (u.team k).map Team.rendezvous = (s.team k).map Team.rendezvous
  mem        : u.mem = s.mem

theorem GoesOn.refl (s : State) : GoesOn s s := ⟨fun _ => rfl, fun _ => rfl, rfl⟩

theorem GoesOn.trans {s u v : State} (h : GoesOn s u) (h' : GoesOn u v) : GoesOn s v :=
  ⟨fun id => (h'.threads id).trans (h.threads id), fun k => (h'.rendezvous k).trans (h.rendezvous k), h'.mem.trans h.mem⟩

theorem Quiet.mem {s u : State} (h : Quiet s u) : u.mem = s.mem := by rw [h.1]

theorem CoreOnly.goesOn {s u : State} (h : CoreOnly s u) : GoesOn s u :=
  ⟨fun id => by rw [h.thread], fun k => by rw [h.team], h.quiet.mem⟩

theorem alterGroup_goesOn (s : State) (n : Nat) (f : Group → Group) : GoesOn s (s.alterGroup n f) :=
  ⟨fun _ => rfl, fun _ => rfl, rfl⟩

theorem progress_goesOn (s : State) (t : ThreadId) : GoesOn s (s.progress t) := by
  refine ⟨fun _ => rfl, fun k => ?_, rfl⟩
  unfold State.progress
  rw [State.alterTeam_team]
  split
  · rename_i h
    rw [h]
    cases s.team t.team <;> rfl
  · rfl

theorem passOn_goesOn (s : State) (n : Nat) : GoesOn s (s.passOn n) := by
  cases hg : s.group n with
  | none =>
    unfold State.passOn
    rw [hg]
    exact GoesOn.refl s
  | some g =>
    by_cases hd : ∀ t ∈ g.members, t ∈ g.done
    · have hp := passOn_done hg hd
      refine ⟨fun id => ?_, fun k => by unfold State.team; rw [hp.teams], hp.quiet.mem⟩
      by_cases hid : id.team = g.team ∧ id.t ∈ g.members
      · obtain ⟨team, t⟩ := id
        obtain ⟨rfl, ht⟩ := hid
        rw [hp.inside t ht, Option.map_map]
        exact congrArg (fun f => (s.thread ⟨g.team, t⟩).map f) (funext g.onward_placeless)
      · rw [hp.outside id hid]
    · unfold State.passOn
      simp only [hg]
      rw [if_neg (by simpa using hd)]
      exact GoesOn.refl s

/-- An execution under way that ends moves its group on, and does nothing else (R81). -/
theorem finish_goesOn (s : State) (t : ThreadId) : GoesOn s (s.finish t) := by
  unfold State.finish
  split
  · exact (alterGroup_goesOn _ _ _).trans (passOn_goesOn _ _)
  · exact GoesOn.refl s

/-- A commit beside the thread that executes, and in it but for its queues and its time (R60, R81, R253). -/
structure CommitFrame (s u : State) (t : ThreadId) : Prop where
  own        : (u.thread t).map Thread.queueless = (s.thread t).map Thread.queueless
  others     : ∀ id, id ≠ t → (u.thread id).map Thread.placeless = (s.thread id).map Thread.placeless
  rendezvous : ∀ k, (u.team k).map Team.rendezvous = (s.team k).map Team.rendezvous
  mem        : u.mem = s.mem

theorem commit_frame (s : State) (n : Nat) (t : ThreadId) (srcs : List Src) : CommitFrame s (s.commit n t srcs) t := by
  have hon : GoesOn (s.popFor t srcs) (s.commit n t srcs) :=
    ((progress_goesOn _ t).trans (alterGroup_goesOn _ _ _)).trans (passOn_goesOn _ n)
  refine ⟨(map_coarser (p := Thread.placeless) (fun _ => rfl) (hon.threads t)).trans ?_, fun id hid => (hon.threads id).trans ?_, hon.rendezvous, hon.mem⟩
  · unfold State.popFor
    rw [State.alterThread_thread, if_pos rfl, Option.map_map]
    refine congrArg (fun f => (s.thread t).map f) (funext fun x => ?_)
    exact (congrArg (fun y : Thread => { y with queues := [] }) (Thread.caughtUp_timeless _ srcs s.wmax)).trans (Thread.popAll_queueless srcs x)
  · unfold State.popFor
    rw [State.alterThread_thread, if_neg hid]

end Sys2Proof.Machine
end

section
/-! SUPPORT. Collectives (R100 to R109): the checks of an arrival, and what an arrival comes to: a cause, a hold, or the completion of its rendezvous. -/

namespace Sys2Proof.Machine

theorem exec_shfl (f : RF) (s : State) : exec (.shfl f) s = execShfl f s := rfl
theorem exec_vote (f : RF) (s : State) : exec (.vote f) s = execVote f s := rfl
theorem exec_gred (f : RF) (s : State) : exec (.gred f) s = execGred f s := rfl
theorem exec_gsync (f : RF) (s : State) : exec (.gsync f) s = execGsync f s := rfl

/-! The lanes of a mask -/

/-- The member of a thread's home group in a lane (R75). -/
def inLane (t : ThreadId) (l : Nat) : ThreadId := ⟨t.team, 32 * (t.t / 32) + l⟩

/-- The members of a thread's home group that a mask names (R101). -/
def namedBy (t : ThreadId) (mask : Word) : List ThreadId := (bitsOf mask.toNat 32).map (inLane t)

theorem mem_bitsOf_mask {mask : Word} {l : Nat} : l ∈ bitsOf mask.toNat 32 ↔ l < 32 ∧ mask.getLsbD l = true := by
  simp [bitsOf, BitVec.testBit_toNat]

theorem bitsOf_nodup (m n : Nat) : (bitsOf m n).Nodup := List.nodup_range.filter _

theorem inLane_own (t : ThreadId) : inLane t (t.t % 32) = t := by
  obtain ⟨team, t⟩ := t
  simp only [inLane, ThreadId.mk.injEq, true_and]
  omega

theorem inLane_injective (t : ThreadId) : Function.Injective (inLane t) := by
  intro a b h
  simp only [inLane, ThreadId.mk.injEq, true_and] at h
  omega

theorem laneOf_inLane (t : ThreadId) {l : Nat} (h : l < 32) : laneOf (inLane t l).t = l := by
  simp only [inLane, laneOf]
  omega

theorem inLane_eq_self {t : ThreadId} {l : Nat} (h : l < 32) : inLane t l = t ↔ l = t.t % 32 := by
  refine ⟨fun he => ?_, fun he => by rw [he, inLane_own t]⟩
  have := laneOf_inLane t h
  rw [he] at this
  exact this.symm

theorem mem_namedBy {t id : ThreadId} {mask : Word} :
    id ∈ namedBy t mask ↔ ∃ l, (l < 32 ∧ mask.getLsbD l = true) ∧ inLane t l = id := by
  simp only [namedBy, List.mem_map, mem_bitsOf_mask]

theorem namedBy_nodup (t : ThreadId) (mask : Word) : (namedBy t mask).Nodup :=
  List.Pairwise.map (inLane t) (fun _ _ => mt (@inLane_injective t _ _)) (bitsOf_nodup _ _)

/-- The mask of a lane alone names its thread alone. -/
theorem bitsOf_single {l : Nat} (h : l < 32) : bitsOf (BitVec.ofNat 32 (2 ^ l)).toNat 32 = [l] := by
  have hall : ∀ l : Fin 32, bitsOf (BitVec.ofNat 32 (2 ^ l.val)).toNat 32 = [l.val] := by decide
  exact hall ⟨l, h⟩

/-! The checks of an arrival (R102) -/

section
variable {s : State} {t : ThreadId} {m : Team} {pc : VAddr} {mask : Word}

/-- A mask without its own lane (R102). -/
theorem collectiveCause_of_own_lane (h : mask.getLsbD (t.t % 32) = false) : s.collectiveCause t m pc mask = some 0x049 := by
  unfold State.collectiveCause
  exact if_pos (by simp [laneOf, h])

/-- Whether a mask names a lane whose thread has exited (R104). -/
def State.namesExited (s : State) (t : ThreadId) (mask : Word) : Prop :=
  ∃ l y, l < 32 ∧ mask.getLsbD l = true ∧ s.thread (inLane t l) = some y ∧ y.status = .exited

/-- Whether a mask names a member of a rendezvous that is pending at the same PC with another mask (R102). -/
def Team.othersAt (m : Team) (t : ThreadId) (pc : VAddr) (mask : Word) : Prop :=
  ∃ r l, r ∈ m.rendezvous ∧ r.pc = pc ∧ r.hg = t.t / 32 ∧ r.mask ≠ mask ∧ l ∈ Table.keys r.arrived ∧ mask.getLsbD l = true

theorem Thread.gone_iff (x : Thread) : x.gone = true ↔ x.status = .exited := by
  unfold Thread.gone
  split <;> simp_all

theorem any_gone_iff : ((bitsOf mask.toNat 32).any fun l =>
    ((s.thread ⟨t.team, 32 * homeGroupOf t.t + l⟩).map Thread.gone).getD false) = true ↔ s.namesExited t mask := by
  simp only [List.any_eq_true, mem_bitsOf_mask]
  constructor
  · rintro ⟨l, ⟨hl, hm⟩, hg⟩
    cases hx : s.thread ⟨t.team, 32 * homeGroupOf t.t + l⟩ with
    | none => simp [hx] at hg
    | some y =>
      simp only [hx, Option.map_some, Option.getD_some] at hg
      exact ⟨l, y, hl, hm, hx, y.gone_iff.mp hg⟩
  · rintro ⟨l, y, hl, hm, hx, hy⟩
    refine ⟨l, ⟨hl, hm⟩, ?_⟩
    have hx' : s.thread ⟨t.team, 32 * homeGroupOf t.t + l⟩ = some y := hx
    simp only [hx', Option.map_some, Option.getD_some, y.gone_iff.mpr hy]

theorem any_other_iff : (m.rendezvous.any fun r => decide (r.pc = pc) && r.hg == homeGroupOf t.t && r.mask != mask
    && (Table.keys r.arrived).any fun l => mask.getLsbD l) = true ↔ m.othersAt t pc mask := by
  simp only [List.any_eq_true, Bool.and_eq_true, decide_eq_true_eq, beq_iff_eq, bne_iff_ne, ne_eq]
  constructor
  · rintro ⟨r, hr, ⟨⟨hpc, hhg⟩, hmask⟩, l, hl, hm⟩
    exact ⟨r, l, hr, hpc, hhg, hmask, hl, hm⟩
  · rintro ⟨r, l, hr, hpc, hhg, hmask, hl, hm⟩
    exact ⟨r, hr, ⟨⟨hpc, hhg⟩, hmask⟩, l, hl, hm⟩

section
variable (hown : mask.getLsbD (t.t % 32) = true)
include hown

theorem collectiveCause_of_exited (h : s.namesExited t mask) : s.collectiveCause t m pc mask = some 0x048 := by
  unfold State.collectiveCause
  simp only [laneOf, hown, any_gone_iff.mpr h, Bool.not_true, Bool.false_eq_true, if_false, if_true]

theorem collectiveCause_of_other (he : ¬ s.namesExited t mask) (h : m.othersAt t pc mask) :
    s.collectiveCause t m pc mask = some 0x04A := by
  unfold State.collectiveCause
  have he' := mt any_gone_iff.mp he
  simp only [laneOf, hown, he', any_other_iff.mpr h, Bool.not_true, Bool.false_eq_true, if_false, if_true]

theorem collectiveCause_of_none (he : ¬ s.namesExited t mask) (h : ¬ m.othersAt t pc mask) :
    s.collectiveCause t m pc mask = none := by
  unfold State.collectiveCause
  have he' := mt any_gone_iff.mp he
  have h' := mt any_other_iff.mp h
  simp only [laneOf, hown, he', h', Bool.not_true, Bool.false_eq_true, if_false]

end
end

/-! An arrival -/

/-- Whether a rendezvous is the one of a PC, a home group and a mask (R101). -/
def Rendezvous.isOf (r : Rendezvous) (pc : VAddr) (hg : Nat) (mask : Word) : Bool := decide (r.pc = pc) && r.hg == hg && r.mask == mask

/-- The rendezvous that a thread arrives at: the pending one, or a new one (R101). -/
def Team.meeting (m : Team) (pc : VAddr) (hg : Nat) (mask : Word) : Rendezvous :=
  (m.rendezvous.find? fun r => r.isOf pc hg mask).getD ⟨pc, hg, mask, []⟩

/-- The rendezvous of a team but the one of a PC, a home group and a mask. -/
def Team.apartFrom (m : Team) (pc : VAddr) (hg : Nat) (mask : Word) : List Rendezvous :=
  m.rendezvous.filter fun r => !r.isOf pc hg mask

/-- Where no rendezvous is pending, a thread arrives at a new one (R101). -/
theorem Team.meeting_of_none {m : Team} (hnone : m.rendezvous = []) (pc : VAddr) (hg : Nat) (mask : Word) :
    m.meeting pc hg mask = ⟨pc, hg, mask, []⟩ := by
  unfold Team.meeting
  rw [hnone]
  rfl

theorem Team.apartFrom_of_none {m : Team} (hnone : m.rendezvous = []) (pc : VAddr) (hg : Nat) (mask : Word) :
    m.apartFrom pc hg mask = [] := by
  unfold Team.apartFrom
  rw [hnone]
  rfl

/-- What a member's result writes: D, where the instruction has one and makes a value (R106 to R109). -/
def effectFor (d : Option Byte) (v : Option Word) : Effect :=
  match d, v with
  | some d, some v => writeDst d v
  | _, _ => {}

/-- A rendezvous over, with the order of its members' accesses and its count (R103, R252, R387). -/
def State.joined (s : State) (t : ThreadId) (others : List Rendezvous) (us : List ThreadId) : State :=
  ((s.alterTeam t.team fun m => { m with rendezvous := others }).joinMembers us).countFor t 0x0F 1

section
variable {s : State} {t : ThreadId} {m : Team} {d : Option Byte} {pops : List Nat} {a b mask : Word} {f : Combine}

theorem meet_of_cause {c : Cause} (hc : s.collectiveCause t m (s.pcAt t) mask = some c) :
    s.meet t m d pops a b mask f = .trap c [] s := by
  unfold State.meet
  simp only [hc]

section
variable {arrived : Table Nat (Word × Word)} (hc : s.collectiveCause t m (s.pcAt t) mask = none)
  (harr : Table.put (m.meeting (s.pcAt t) (t.t / 32) mask).arrived (t.t % 32) (a, b) = arrived)
include hc harr

/-- One that lanes are still to come to holds its thread (R101). -/
theorem meet_of_incomplete (hall : ¬ ∀ l, l < 32 → mask.getLsbD l = true → (Table.find arrived l).isSome = true) :
    s.meet t m d pops a b mask f = .engage (s.alterTeam t.team fun k =>
      { k with rendezvous := m.apartFrom (s.pcAt t) (t.t / 32) mask ++
                [{ m.meeting (s.pcAt t) (t.t / 32) mask with arrived := arrived }] }) := by
  subst harr
  unfold State.meet
  simp only [hc]
  refine if_neg fun h => hall fun l hl hm => ?_
  exact List.all_eq_true.mp h l (mem_bitsOf_mask.mpr ⟨hl, hm⟩)

/-- The last lane to come gives every other member its result, and takes its own (R101, R103). -/
theorem meet_of_complete (hall : ∀ l, l < 32 → mask.getLsbD l = true → (Table.find arrived l).isSome = true) :
    s.meet t m d pops a b mask f =
      (((namedBy t mask).filter (· ≠ t)).foldl (fun (s : State) u => s.giveResult u (effectFor d (f mask arrived (laneOf u.t))))
        (s.joined t (m.apartFrom (s.pcAt t) (t.t / 32) mask) (namedBy t mask))).attemptEffect t pops false
        (effectFor d (f mask arrived (laneOf t.t))) := by
  subst harr
  unfold State.meet
  simp only [hc]
  exact if_pos (List.all_eq_true.mpr fun l hl => hall l (mem_bitsOf_mask.mp hl).1 (mem_bitsOf_mask.mp hl).2)

end
end

end Sys2Proof.Machine
end

section
/-! SUPPORT. The completion of a rendezvous (R101, R103, R106 to R109): what each of its members is given, and what stays as it was. -/

namespace Sys2Proof.Machine

/-! What a member is given -/

/-- The registers that a member's result writes (R106 to R109). -/
def resultRegs (d : Option Byte) (v : Option Word) : List (Nat × Word) :=
  match d, v with
  | some d, some v => [(d.toNat, v)]
  | _, _ => []

/-- A thread with window registers written (R121). -/
def Thread.received (x : Thread) (rs : List (Nat × Word)) : Thread := x.fill (rs.map fun r => (x.word r.1, r.2))

/-- A destination that is a register takes its result, and nothing else is written. -/
theorem effectFor_register {d : Option Byte} (hd : ∀ k, d = some k → k.toNat < 64) (v : Option Word) :
    effectFor d v = { regs := resultRegs d v } := by
  match d, v with
  | some k, some v => exact if_pos (hd k rfl)
  | some _, none => rfl
  | none, _ => rfl

/-- Registers written in one thread, which may have gone on; the other threads, memory and every pending rendezvous as before. -/
structure Gave (s v : State) (u : ThreadId) (rs : List (Nat × Word)) : Prop where
  own        : (v.thread u).map Thread.placeless = (s.thread u).map fun y => (y.received rs).placeless
  others     : ∀ id, id ≠ u → (v.thread id).map Thread.placeless = (s.thread id).map Thread.placeless
  rendezvous : ∀ k, (v.team k).map Team.rendezvous = (s.team k).map Team.rendezvous
  mem        : v.mem = s.mem

theorem Gave.goesOn {s v w : State} {u : ThreadId} {rs : List (Nat × Word)} (h : Gave s v u rs) (h' : GoesOn v w) : Gave s w u rs :=
  ⟨(h'.threads u).trans h.own, fun id hid => (h'.threads id).trans (h.others id hid),
    fun k => (h'.rendezvous k).trans (h.rendezvous k), h'.mem.trans h.mem⟩

theorem writeRegs_teams (s : State) (u : ThreadId) (rs : List (Nat × Word)) : (s.writeRegs u rs).teams = s.teams := by
  unfold State.writeRegs
  split
  · exact (stepGens_coreOnly _ _ _).teams
  · rfl

theorem applyEffect_teams (s : State) (u : ThreadId) (rs : List (Nat × Word)) : (s.applyEffect u { regs := rs }).teams = s.teams := by
  unfold State.applyEffect
  simp only [Bool.false_eq_true, if_false, State.alterThread_teams]
  split
  · rfl
  · exact writeRegs_teams s u rs

/-- A thread that is not there is given nothing. -/
theorem applyEffect_of_no_thread {s : State} {u : ThreadId} (hx : s.thread u = none) (rs : List (Nat × Word)) :
    s.applyEffect u { regs := rs } = s := by
  have halter : ∀ f, s.alterThread u f = s := fun f => by
    unfold State.alterThread Table.alter
    unfold State.thread at hx
    rw [hx]
  unfold State.applyEffect State.writeRegs
  simp only [hx, ite_self, halter, Bool.false_eq_true, if_false]

theorem applyEffect_gave (s : State) (u : ThreadId) (rs : List (Nat × Word)) : Gave s (s.applyEffect u { regs := rs }) u rs := by
  have hteam : ∀ k, (s.applyEffect u { regs := rs }).team k = s.team k := fun k => by
    unfold State.team
    rw [applyEffect_teams]
  cases hx : s.thread u with
  | none =>
    rw [applyEffect_of_no_thread hx]
    exact ⟨by rw [hx]; rfl, fun _ _ => rfl, fun _ => rfl, rfl⟩
  | some x =>
    have h := applyEffect_done hx { regs := rs }
    refine ⟨?_, fun id hid => by rw [h.others id hid], fun k => by rw [hteam], h.quiet.mem⟩
    rw [h.thread x hx, hx]
    rfl

/-- A member other than the last is given its result, and its group goes on (R101). -/
theorem giveResult_gave (s : State) (u : ThreadId) (rs : List (Nat × Word)) : Gave s (s.giveResult u { regs := rs }) u rs :=
  (applyEffect_gave s u rs).goesOn (finish_goesOn _ u)

/-- Several members have each been given theirs. -/
structure GaveAll (s v : State) (us : List ThreadId) (rs : ThreadId → List (Nat × Word)) : Prop where
  inside     : ∀ id ∈ us, (v.thread id).map Thread.placeless = (s.thread id).map fun y => (y.received (rs id)).placeless
  outside    : ∀ id, id ∉ us → (v.thread id).map Thread.placeless = (s.thread id).map Thread.placeless
  rendezvous : ∀ k, (v.team k).map Team.rendezvous = (s.team k).map Team.rendezvous
  mem        : v.mem = s.mem

theorem giveResults_gaveAll (rs : ThreadId → List (Nat × Word)) : ∀ (us : List ThreadId) (s : State), us.Nodup →
    GaveAll s (us.foldl (fun (s : State) u => s.giveResult u { regs := rs u }) s) us rs := by
  intro us
  induction us with
  | nil => exact fun s _ => ⟨fun _ h => absurd h List.not_mem_nil, fun _ _ => rfl, fun _ => rfl, rfl⟩
  | cons u us ih =>
    intro s hnodup
    obtain ⟨hu, hus⟩ := List.nodup_cons.mp hnodup
    have hone := giveResult_gave s u (rs u)
    obtain ⟨hin, hout, hrv, hmem⟩ := ih (s.giveResult u { regs := rs u }) hus
    refine ⟨fun id hid => ?_, fun id hid => ?_, fun k => (hrv k).trans (hone.rendezvous k), hmem.trans hone.mem⟩
    · rcases List.mem_cons.mp hid with rfl | hid
      · exact (hout id hu).trans hone.own
      · have hne : id ≠ u := fun h => hu (h ▸ hid)
        exact (hin id hid).trans (map_coarser (p := Thread.placeless) (fun _ => rfl) (hone.others id hne))
    · obtain ⟨hne, hid⟩ := not_or.mp (mt List.mem_cons.mpr hid)
      exact (hout id hid).trans (hone.others id hne)

/-! The members joined -/

/-- Threads may stand at other times, those of a list alone; they are otherwise as they were, and so are teams and memory. -/
structure Retimed (s v : State) (us : List ThreadId) : Prop where
  threads : ∀ id, (v.thread id).map Thread.timeless = (s.thread id).map Thread.timeless
  outside : ∀ id, id ∉ us → v.thread id = s.thread id
  teams   : v.teams = s.teams
  mem     : v.mem = s.mem

theorem alterThread_timeless {f : Thread → Thread} (hf : ∀ x, (f x).timeless = x.timeless) (s : State) (u id : ThreadId) :
    ((s.alterThread u f).thread id).map Thread.timeless = (s.thread id).map Thread.timeless := by
  rw [State.alterThread_thread]
  split
  · rename_i h
    rw [h, Option.map_map]
    exact congrArg (fun k => (s.thread u).map k) (funext hf)
  · rfl

/-- A member at the time of the completion of its rendezvous (R103, R252). -/
def joinMember (s : State) (u : ThreadId) : State := (s.alterThread u fun x => { x with fence := s.seq }).acquire u

theorem joinMembers_eq (s : State) (us : List ThreadId) : s.joinMembers us = us.foldl joinMember s.place := rfl

theorem joinMember_retimed (s : State) (u : ThreadId) : Retimed s (joinMember s u) [u] := by
  refine ⟨fun id => ?_, fun id hid => ?_, rfl, rfl⟩
  · unfold joinMember State.acquire State.raise
    rw [alterThread_timeless, alterThread_timeless] <;> exact fun _ => rfl
  · have hne : id ≠ u := mt List.mem_singleton.mpr hid
    unfold joinMember State.acquire State.raise
    rw [State.alterThread_thread, if_neg hne, State.alterThread_thread, if_neg hne]

theorem joinMembers_retimed (s : State) (us : List ThreadId) : Retimed s (s.joinMembers us) us := by
  rw [joinMembers_eq]
  suffices h : ∀ v, Retimed v (us.foldl joinMember v) us from ⟨(h s.place).threads, (h s.place).outside, (h s.place).teams, (h s.place).mem⟩
  induction us with
  | nil => exact fun v => ⟨fun _ => rfl, fun _ _ => rfl, rfl, rfl⟩
  | cons u us ih =>
    intro v
    have hone := joinMember_retimed v u
    obtain ⟨hthreads, hout, hteams, hmem⟩ := ih (joinMember v u)
    refine ⟨fun id => (hthreads id).trans (hone.threads id), fun id hid => ?_, hteams.trans hone.teams, hmem.trans hone.mem⟩
    obtain ⟨hne, hid⟩ := not_or.mp (mt List.mem_cons.mpr hid)
    exact (hout id hid).trans (hone.outside id (mt List.mem_singleton.mp hne))

/-- What the end of a rendezvous leaves, before its members are given their results. -/
structure Joined (s v : State) (t : ThreadId) (others : List Rendezvous) (us : List ThreadId) : Prop where
  threads    : ∀ id, (v.thread id).map Thread.timeless = (s.thread id).map Thread.timeless
  outside    : ∀ id, id ∉ us → v.thread id = s.thread id
  rendezvous : (v.team t.team).map Team.rendezvous = (s.team t.team).map fun _ => others
  mem        : v.mem = s.mem

theorem joined_frame (s : State) (t : ThreadId) (others : List Rendezvous) (us : List ThreadId) :
    Joined s (s.joined t others us) t others us := by
  have hcount := countFor_coreOnly ((s.alterTeam t.team fun m => { m with rendezvous := others }).joinMembers us) t 0x0F 1
  obtain ⟨hthreads, hout, hteams, hmem⟩ := joinMembers_retimed (s.alterTeam t.team fun m => { m with rendezvous := others }) us
  refine ⟨fun id => ?_, fun id hid => (hcount.thread id).trans (hout id hid), ?_, hcount.quiet.mem.trans hmem⟩
  · exact (congrArg (Option.map Thread.timeless) (hcount.thread id)).trans (hthreads id)
  · have hteam : (s.joined t others us).team t.team = (s.alterTeam t.team fun m => { m with rendezvous := others }).team t.team := by
      unfold State.team
      exact congrArg (fun l => Table.find l t.team) (hcount.teams.trans hteams)
    rw [hteam, State.alterTeam_team, if_pos rfl, Option.map_map]
    rfl

/-! The completion -/

/-- What the completion of a rendezvous leaves, before the instruction of the last member commits. -/
structure Completed (s v : State) (t : ThreadId) (us : List ThreadId) (rs : ThreadId → List (Nat × Word)) (others : List Rendezvous) :
    Prop where
  inside     : ∀ id ∈ us, (v.thread id).map Thread.timeless = (s.thread id).map fun y => (y.received (rs id)).timeless
  outside    : ∀ id, id ∉ us → (v.thread id).map Thread.placeless = (s.thread id).map Thread.placeless
  rendezvous : (v.team t.team).map Team.rendezvous = (s.team t.team).map fun _ => others
  mem        : v.mem = s.mem

/-- Joined, then the results of the other members, then the last member's own (R101, R103). -/
theorem completed_frame (s : State) (t : ThreadId) (us : List ThreadId) (rs : ThreadId → List (Nat × Word)) (others : List Rendezvous)
    (hnodup : us.Nodup) (ht : t ∈ us) :
    Completed s ((((us.filter (· ≠ t)).foldl (fun (s : State) u => s.giveResult u { regs := rs u })
      (s.joined t others us))).applyEffect t { regs := rs t }) t us rs others := by
  have hj := joined_frame s t others us
  have hall := giveResults_gaveAll rs (us.filter (· ≠ t)) (s.joined t others us) (hnodup.filter _)
  generalize (us.filter (· ≠ t)).foldl (fun (s : State) u => s.giveResult u { regs := rs u }) (s.joined t others us) = v at hall
  have hown := applyEffect_gave v t (rs t)
  generalize v.applyEffect t { regs := rs t } = u at hown
  refine ⟨fun id hid => ?_, fun id hid => ?_, ?_, hown.mem.trans (hall.mem.trans hj.mem)⟩
  · have hgiven : (u.thread id).map Thread.placeless = ((s.joined t others us).thread id).map fun y => (y.received (rs id)).placeless := by
      by_cases hne : id = t
      · subst hne
        exact hown.own.trans (map_coarser (p := Thread.placeless) (fun _ => rfl) (hall.outside id (by simp)))
      · exact (hown.others id hne).trans (hall.inside id (List.mem_filter.mpr ⟨hid, by simpa using hne⟩))
    exact (map_coarser (p := Thread.placeless) (fun _ => rfl) hgiven).trans
      (map_coarser (p := Thread.timeless) (fun _ => rfl) (hj.threads id))
  · have hne : id ≠ t := fun h => hid (h ▸ ht)
    have hnot : id ∉ us.filter (· ≠ t) := fun h => hid (List.mem_filter.mp h).1
    exact ((hown.others id hne).trans (hall.outside id hnot)).trans (congrArg _ (hj.outside id hid))
  · exact (hown.rendezvous _).trans ((hall.rendezvous _).trans hj.rendezvous)

end Sys2Proof.Machine
end

section
/-! SUPPORT. A collective in a group of one thread (R101 to R109): each of its outcomes, and O15 from them. -/

namespace Sys2Proof.Machine

/-- A thread given the result of a collective in its destination register, where there is one (R106 to R109). -/
def Thread.given (y : Thread) (d : Option Nat) (v : Option Word) : Thread :=
  match d, v with
  | some k, some v => y.fill [(56 * y.depth + k, v)]
  | _, _ => y

theorem Thread.received_resultRegs (y : Thread) (d : Option Byte) (v : Option Word) :
    y.received (resultRegs d v) = y.given (d.map BitVec.toNat) v := by
  match d, v with
  | some _, some _ => rfl
  | some _, none => exact y.fill_nil
  | none, _ => exact y.fill_nil

theorem Thread.given_queues (y : Thread) (d : Option Nat) (v : Option Word) : (y.given d v).queues = y.queues := by
  unfold Thread.given
  split <;> rfl

/-- What the completion of a rendezvous by its last lane leaves (R101 to R109). -/
def RendezvousOver (s u : State) (t : ThreadId) (pc : VAddr) (mask : Word) (d : Option Nat) (v : Nat → Option Word) : Prop :=
  u.mem = s.mem
  ∧ (∀ m, u.team t.team = some m → ∀ p ∈ m.rendezvous, p.isOf pc (t.t / 32) mask = false)
  ∧ (∀ l, l < 32 → mask.getLsbD l = true → ∀ y, s.thread (inLane t l) = some y → ∃ z, u.thread (inLane t l) = some z ∧
      z = { y.given d (v l) with pc := z.pc, status := z.status, ts := z.ts, fence := z.fence, queues := z.queues }
      ∧ (l ≠ t.t % 32 → z.queues = y.queues))
  ∧ ∀ id, (∀ l, l < 32 → mask.getLsbD l = true → id ≠ inLane t l) → ∀ y, s.thread id = some y →
      ∃ z, u.thread id = some z ∧ z = { y with pc := z.pc, status := z.status }

/-- A completion and the commit of the last lane's instruction are the end of the rendezvous. -/
theorem rendezvousOver_of_completed {s v : State} {t : ThreadId} {m : Team} {pc : VAddr} {mask : Word} {d : Option Byte}
    {f : Nat → Option Word} (hteam : s.team t.team = some m) (hown : t ∈ namedBy t mask)
    (h : Completed s v t (namedBy t mask) (fun u => resultRegs d (f (laneOf u.t))) (m.apartFrom pc (t.t / 32) mask))
    (n : Nat) (srcs : List Src) : RendezvousOver s (v.commit n t srcs) t pc mask (d.map BitVec.toNat) f := by
  have hc := commit_frame v n t srcs
  generalize v.commit n t srcs = u at hc
  refine ⟨hc.mem.trans h.mem, fun k hk p hp => ?_, fun l hl hm y hy => ?_, fun id hid y hy => ?_⟩
  · have hrest := (hc.rendezvous t.team).trans h.rendezvous
    rw [hk, hteam] at hrest
    rw [show k.rendezvous = m.apartFrom pc (t.t / 32) mask from Option.some.inj hrest] at hp
    simpa using (List.mem_filter.mp hp).2
  · have hin := h.inside (inLane t l) (mem_namedBy.mpr ⟨l, ⟨hl, hm⟩, rfl⟩)
    simp only [laneOf_inLane t hl, Thread.received_resultRegs] at hin
    have htime : inLane t l ≠ t → (u.thread (inLane t l)).map Thread.timeless
        = (s.thread (inLane t l)).map fun y => (y.given (d.map BitVec.toNat) (f l)).timeless := fun hne =>
      (map_coarser (p := Thread.placeless) (fun _ => rfl) (hc.others _ hne)).trans hin
    have hqueue : (u.thread (inLane t l)).map Thread.queueless
        = (s.thread (inLane t l)).map fun y => (y.given (d.map BitVec.toNat) (f l)).queueless := by
      by_cases ht : inLane t l = t
      · rw [ht] at hin ⊢
        exact hc.own.trans (map_coarser (p := Thread.timeless) (fun _ => rfl) hin)
      · exact map_coarser (p := Thread.timeless) (fun _ => rfl) (htime ht)
    rw [hy] at htime hqueue
    obtain ⟨z, hz, he⟩ := Option.map_eq_some_iff.mp hqueue
    refine ⟨z, hz, Thread.eq_of_queueless he, fun hlane => ?_⟩
    have hsame := htime (mt (inLane_eq_self hl).mp hlane)
    rw [hz] at hsame
    exact (congrArg Thread.queues (Option.some.inj hsame)).trans (Thread.given_queues y _ _)
  · have hnot : id ∉ namedBy t mask := fun hmem => by
      obtain ⟨l, ⟨hl, hm⟩, he⟩ := mem_namedBy.mp hmem
      exact hid l hl hm he.symm
    have hz := (hc.others id fun he => hnot (he ▸ hown)).trans (h.outside id hnot)
    rw [hy] at hz
    obtain ⟨z, hz, he⟩ := Option.map_eq_some_iff.mp hz
    exact ⟨z, hz, Thread.eq_of_placeless he⟩

/-! The outcomes of a collective -/

/-- An instruction is an arrival of the one thread of a group at a rendezvous, with its values A and B and its mask (R101). -/
structure Arrives (i : Instr) (s : State) (n : Nat) (g : Group) (t : ThreadId) (m : Team) (sh : Shape) (d : Option Byte)
    (va vb mask : Word) (f : Combine) : Prop where
  solo : ∃ x, Solo s n g t x m sh
  body : ∃ body, exec i s = runGroup s sh body ∧
    body (s.resumed n) t (s.valuesOf sh t) = (s.resumed n).meet t m d (sh.srcs.filterMap Src.pops) va vb mask f

theorem arrives_of_runCollective {i : Instr} {s : State} {n : Nat} {g : Group} {t : ThreadId} {x : Thread} {m : Team} {sh : Shape}
    {d : Option Byte} {a b k : Nat} {f : Combine} (h : Solo s n g t x m sh) (hi : exec i s = runCollective sh d a b k f s) :
    Arrives i s n g t m sh d (arg (s.valuesOf sh t) a) (arg (s.valuesOf sh t) b) (arg (s.valuesOf sh t) k) f :=
  ⟨⟨x, h⟩, _, hi, by simp only [State.resumed_teamOf, h.teamOf]⟩

section
variable {i : Instr} {s : State} {n : Nat} {g : Group} {t : ThreadId} {m : Team} {sh : Shape} {d : Option Byte} {va vb mask : Word}
  {f : Combine} (h : Arrives i s n g t m sh d va vb mask f)
include h

/-- An arrival that a check refuses raises its cause (R102). -/
theorem Arrives.traps {c : Cause} (hc : (s.resumed n).collectiveCause t m g.pc mask = some c) :
    Traps i s n g t c [] (s.resumed n) := by
  obtain ⟨⟨x, hsolo⟩, body, hrun, hbody⟩ := h
  rw [← hsolo.pcAt] at hc
  exact hrun.trans (runGroup_solo_trap hsolo (hbody.trans (meet_of_cause hc)))

section
variable {arrived : Table Nat (Word × Word)} (hc : (s.resumed n).collectiveCause t m g.pc mask = none)
  (harr : Table.put (m.meeting g.pc (t.t / 32) mask).arrived (t.t % 32) (va, vb) = arrived)
include hc harr

/-- An arrival before the last holds its thread (R101). -/
theorem Arrives.held (hall : ¬ ∀ l, l < 32 → mask.getLsbD l = true → (Table.find arrived l).isSome = true) :
    Engages i s n t sh ((s.resumed n).alterTeam t.team fun x =>
      { x with rendezvous := m.apartFrom g.pc (t.t / 32) mask ++ [{ m.meeting g.pc (t.t / 32) mask with arrived := arrived }] }) := by
  obtain ⟨⟨x, hsolo⟩, body, hrun, hbody⟩ := h
  rw [← hsolo.pcAt] at hc harr ⊢
  exact hrun.trans (runGroup_solo_engage hsolo (hbody.trans (meet_of_incomplete hc harr hall)))

/-- The last arrival completes the rendezvous, and its instruction with it (R101, R103). -/
theorem Arrives.done {v : State} (hall : ∀ l, l < 32 → mask.getLsbD l = true → (Table.find arrived l).isSome = true)
    (hv : (((namedBy t mask).filter (· ≠ t)).foldl (fun (s : State) u => s.giveResult u (effectFor d (f mask arrived (laneOf u.t))))
        ((s.resumed n).joined t (m.apartFrom g.pc (t.t / 32) mask) (namedBy t mask))).attemptEffect t (sh.srcs.filterMap Src.pops) false
        (effectFor d (f mask arrived (laneOf t.t))) = .done v) :
    Commits i s n t sh v := by
  obtain ⟨⟨x, hsolo⟩, body, hrun, hbody⟩ := h
  rw [← hsolo.pcAt] at hc harr hv
  exact hrun.trans (runGroup_solo_done hsolo ((hbody.trans (meet_of_complete hc harr hall)).trans hv))

end

/-- A thread that names itself alone completes its own rendezvous, with its own values (R101). -/
theorem Arrives.alone (hc : (s.resumed n).collectiveCause t m g.pc mask = none) (hmask : mask = BitVec.ofNat 32 (2 ^ (t.t % 32)))
    (hnone : m.rendezvous = []) {v : State}
    (hv : ((s.resumed n).joined t [] [t]).attemptEffect t (sh.srcs.filterMap Src.pops) false
      (effectFor d (f mask [(t.t % 32, (va, vb))] (t.t % 32))) = .done v) : Commits i s n t sh v := by
  have hlane : t.t % 32 < 32 := Nat.mod_lt _ (by decide)
  have hbits : bitsOf mask.toNat 32 = [t.t % 32] := by rw [hmask, bitsOf_single hlane]
  have hnamed : namedBy t mask = [t] := by
    unfold namedBy
    rw [hbits, List.map_singleton, inLane_own]
  have hothers : [t].filter (· ≠ t) = [] := by simp
  refine h.done hc (arrived := [(t.t % 32, (va, vb))]) (by rw [Team.meeting_of_none hnone]; rfl) (fun l hl hm => ?_) ?_
  · have hmem : l ∈ bitsOf mask.toNat 32 := mem_bitsOf_mask.mpr ⟨hl, hm⟩
    rw [hbits, List.mem_singleton] at hmem
    simp [Table.find, hmem]
  · rw [hnamed, Team.apartFrom_of_none hnone, hothers, List.foldl_nil]
    exact hv

/-- A thread that names a lane still to come is held at a rendezvous of its own (R101). -/
theorem Arrives.waits (hc : (s.resumed n).collectiveCause t m g.pc mask = none)
    (hmore : ∃ l, l < 32 ∧ mask.getLsbD l = true ∧ l ≠ t.t % 32) (hnone : m.rendezvous = []) :
    Engages i s n t sh ((s.resumed n).alterTeam t.team fun x =>
      { x with rendezvous := [⟨g.pc, t.t / 32, mask, [(t.t % 32, (va, vb))]⟩] }) := by
  have hheld := h.held hc (arrived := [(t.t % 32, (va, vb))]) (by rw [Team.meeting_of_none hnone]; rfl) fun hall => by
    obtain ⟨l, hl, hm, hne⟩ := hmore
    have hfound := hall l hl hm
    simp [Table.find, Ne.symm hne] at hfound
  rwa [Team.apartFrom_of_none hnone, Team.meeting_of_none hnone] at hheld

/-- The last lane to come to a pending rendezvous completes it for all (R101 to R109). -/
theorem Arrives.completes (hd : ∀ r, d = some r → r.toNat < 64) (hown : mask.getLsbD (t.t % 32) = true)
    (hc : (s.resumed n).collectiveCause t m g.pc mask = none) {r : Rendezvous}
    (hr : (m.rendezvous.find? fun r => r.isOf g.pc (t.t / 32) mask) = some r)
    (hall : ∀ l, l < 32 → mask.getLsbD l = true → (Table.find (Table.put r.arrived (t.t % 32) (va, vb)) l).isSome = true) :
    ∃ u, exec i s = .next u ∧
      RendezvousOver s u t g.pc mask (d.map BitVec.toNat) (f mask (Table.put r.arrived (t.t % 32) (va, vb))) := by
  obtain ⟨x, hsolo⟩ := h.solo
  have hmeet : m.meeting g.pc (t.t / 32) mask = r := by
    unfold Team.meeting
    rw [hr]
    rfl
  have ht : t ∈ namedBy t mask := mem_namedBy.mpr ⟨t.t % 32, ⟨Nat.mod_lt _ (by decide), hown⟩, inLane_own t⟩
  have hdone := completed_frame (s.resumed n) t (namedBy t mask)
    (fun u => resultRegs d (f mask (Table.put r.arrived (t.t % 32) (va, vb)) (laneOf u.t))) (m.apartFrom g.pc (t.t / 32) mask)
    (namedBy_nodup t mask) ht
  have hover := rendezvousOver_of_completed (s := s.resumed n) hsolo.team ht hdone n sh.srcs
  refine ⟨_, h.done hc (by rw [hmeet]) hall ?_, hover⟩
  simp only [effectFor_register hd]
  rfl

end

/-! The collectives -/

/-- What an arrival comes to where no rendezvous is pending (R101 to R103). -/
theorem Arrives.at_new_rendezvous {i : Instr} {s : State} {n : Nat} {g : Group} {t : ThreadId} {m : Team} {sh : Shape} {d : Option Byte}
    {va vb mask : Word} {f : Combine} (h : Arrives i s n g t m sh d va vb mask f) :
    let r := s.resumed n
    let lane := t.t % 32
    (mask.getLsbD lane = false → exec i s = .next ((r.trapAt t g.clause g.idx 0x049 []).passOn n))
    ∧ (r.collectiveCause t m g.pc mask = none →
        (mask = BitVec.ofNat 32 (2 ^ lane) → m.rendezvous = [] →
          let joined := ((r.alterTeam t.team fun m => { m with rendezvous := [] }).joinMembers [t]).countFor t 0x0F 1
          ∀ v, joined.attemptEffect t (sh.srcs.filterMap Src.pops) false (effectFor d (f mask [(lane, (va, vb))] lane)) = .done v →
            Commits i s n t sh v)
        ∧ ((∃ l, l < 32 ∧ mask.getLsbD l = true ∧ l ≠ lane) → m.rendezvous = [] →
          Engages i s n t sh (r.alterTeam t.team fun x => { x with rendezvous := [⟨g.pc, t.t / 32, mask, [(lane, (va, vb))]⟩] }))) :=
  ⟨fun hlane => h.traps (collectiveCause_of_own_lane hlane),
    fun hc => ⟨fun hmask hnone _ hv => h.alone hc hmask hnone hv, fun hmore hnone => h.waits hc hmore hnone⟩⟩

/-- What an arrival comes to at a pending rendezvous (R101 to R109). -/
theorem Arrives.at_pending_rendezvous {i : Instr} {s : State} {n : Nat} {g : Group} {t : ThreadId} {m : Team} {sh : Shape} {d : Option Byte}
    {va vb mask : Word} {f : Combine} (h : Arrives i s n g t m sh d va vb mask f) (hd : ∀ k, d.map BitVec.toNat = some k → k < 64)
    (hown : mask.getLsbD (t.t % 32) = true) :
    (s.namesExited t mask → Traps i s n g t 0x048 [] (s.resumed n))
    ∧ (¬ s.namesExited t mask → m.othersAt t g.pc mask → Traps i s n g t 0x04A [] (s.resumed n))
    ∧ (¬ s.namesExited t mask → ¬ m.othersAt t g.pc mask →
        ∀ r, (m.rendezvous.find? fun r => r.isOf g.pc (t.t / 32) mask) = some r →
          (∀ l, l < 32 → mask.getLsbD l = true → (Table.find (Table.put r.arrived (t.t % 32) (va, vb)) l).isSome = true) →
          ∃ u, exec i s = .next u ∧
            RendezvousOver s u t g.pc mask (d.map BitVec.toNat) (f mask (Table.put r.arrived (t.t % 32) (va, vb)))) :=
  ⟨fun he => h.traps (collectiveCause_of_exited hown he),
    fun he ho => h.traps (collectiveCause_of_other (s := s.resumed n) hown he ho),
    fun he ho _ hr hall => h.completes (fun r hr => hd r.toNat (by rw [hr]; rfl)) hown (collectiveCause_of_none (s := s.resumed n) hown he ho) hr hall⟩

/-- Settles O15: each collective is an arrival, and an arrival comes to `Arrives.at_new_rendezvous` and `Arrives.at_pending_rendezvous`. -/
theorem collectivesMeet : Obligations.CollectivesMeet := by
  unfold Obligations.CollectivesMeet
  refine ⟨fun f s n g t x m => ?_, fun f s n g t x m => ?_⟩
  · intro collective
    refine ⟨fun h => ?_, fun h => ?_, fun h => ?_, fun h => ?_⟩
    · exact (arrives_of_runCollective h (exec_shfl f s)).at_new_rendezvous
    · exact (arrives_of_runCollective h (exec_vote f s)).at_new_rendezvous
    · exact (arrives_of_runCollective h (exec_gred f s)).at_new_rendezvous
    · exact (arrives_of_runCollective h (exec_gsync f s)).at_new_rendezvous
  · intro collective
    refine ⟨fun h hd => ?_, fun h hd => ?_, fun h hd => ?_, fun h hd => ?_⟩
    · exact (arrives_of_runCollective h (exec_shfl f s)).at_pending_rendezvous hd
    · exact (arrives_of_runCollective h (exec_vote f s)).at_pending_rendezvous hd
    · exact (arrives_of_runCollective h (exec_gred f s)).at_pending_rendezvous hd
    · exact (arrives_of_runCollective h (exec_gsync f s)).at_pending_rendezvous hd

end Sys2Proof.Machine
end

section
/-! SUPPORT. Spills and fills of frames (R116 to R118, R241) in a group of one thread, and O43 from them. -/

namespace Sys2Proof.Machine

theorem exec_wspill (f : XF) (s : State) : exec (.wspill f) s = execWspill f s := rfl
theorem exec_wfill (f : XF) (s : State) : exec (.wfill f) s = execWfill f s := rfl

@[simp] theorem State.resumed_roleOf (s : State) (n : Nat) (t : ThreadId) : (s.resumed n).roleOf t = s.roleOf t := rfl
@[simp] theorem State.resumed_closedHold (s : State) (n : Nat) (t : ThreadId) (va : VAddr) :
    (s.resumed n).closedHold t va = s.closedHold t va := rfl

/-! The privilege of an instruction (R364) -/

section
variable {s : State} {t : ThreadId} {x : Thread} (hx : s.thread t = some x) {p csr : Nat}
  {body : State → ThreadId → List DWord → Attempt} {vs : List DWord}
include hx

theorem needPriv_of_le (hp : p ≤ x.priv) : needPriv p csr body s t vs = body s t vs := by
  simp only [needPriv, hx, Thread.mayDo, hp, decide_true, if_true]

theorem needPriv_of_lt (hp : x.priv < p) : needPriv p csr body s t vs = .trap 0x1E1 [BitVec.ofNat 64 csr] s := by
  simp only [needPriv, hx, Thread.mayDo, Nat.not_le.mpr hp, decide_false, Bool.false_eq_true, if_false]

end

section
variable {i : Instr} {s : State} {n : Nat} {g : Group} {t : ThreadId} {x : Thread} {m : Team} {sh : Shape}
  {body : State → ThreadId → List DWord → Attempt} (h : Solo s n g t x m sh)
include h

/-- An instruction below its privilege raises 0x1E1 and does nothing else. -/
theorem traps_of_needPriv {p csr : Nat} (hi : exec i s = runGroup s sh (needPriv p csr body)) (hp : x.priv < p) :
    Traps i s n g t 0x1E1 [BitVec.ofNat 64 csr] (s.resumed n) :=
  hi.trans (runGroup_solo_trap h (needPriv_of_lt (s := s.resumed n) h.thread hp))

/-! The accesses of a frame -/

/-- What an instruction of a group of one thread comes to where the accesses to a frame's slot do not succeed: the cause of an access, D written 0 with the deferred cause of an error reply, the wait for a closed range (R118, R241; log 21). -/
structure FrameBlocks (i : Instr) (s : State) (n : Nat) (g : Group) (t : ThreadId) (sh : Shape) (d : Byte) (va : VAddr) (res : Spill) :
    Prop where
  traps  : ∀ c aux u, res = .trap c aux u → Traps i s n g t c aux u
  errors : ∀ c aux u, res = .error c aux u → Commits i s n t sh ((u.defer t ⟨c, g.pc, aux⟩).writeRegs t (writeDst d 0).regs)
  waits  : ∀ u, res = .closed u → Waits i s n (s.closedHold t va) (s.resumed n)

/-- A body that answers the accesses to a frame's slot: it blocks where they do, and otherwise `done` follows them and D is 1 (R118). -/
theorem frame_spec (hi : exec i s = runGroup s sh body) {res : Spill} {va : VAddr} {done : State → State} {d : Byte}
    (hbody : body (s.resumed n) t (s.valuesOf sh t) = res.answer t va (s.resumed n) done d) :
    FrameBlocks i s n g t sh d va res
      ∧ ∀ u, res = .ok u → Commits i s n t sh ((done u).writeRegs t (writeDst d 1).regs) := by
  refine ⟨⟨?_, ?_, ?_⟩, ?_⟩
  · rintro c aux u rfl
    exact hi.trans (runGroup_solo_trap h hbody)
  · rintro c aux u rfl
    have hdone : body (s.resumed n) t (s.valuesOf sh t) = .done ((u.defer t ⟨c, g.pc, aux⟩).writeRegs t (writeDst d 0).regs) := by
      rw [← h.pcAt]
      exact hbody
    exact hi.trans (runGroup_solo_done h hdone)
  · rintro u rfl
    exact hi.trans (runGroup_solo_wait h hbody)
  · rintro u rfl
    exact hi.trans (runGroup_solo_done h hbody)

end

/-- What wspill and wfill read and write before their own meaning: the register D, and places of S (R118). -/
def frameShape (f : XF) : Shape := { guard := f.g, dsts := [.one f.d], inS := true }

/-- The words of the oldest frame that stands in the stack (R117, R118). -/
def Thread.oldestWords (x : Thread) : List Nat := (List.range 56).map fun k => 56 * x.oldest + k

/-- A frame filled with the words and the link word of its slot, and the oldest unspilled from then on (R116, R118). -/
def State.refilled (s : State) (t : ThreadId) (k : Nat) (ws : List Word) (link : DWord) : State :=
  (s.fillWords t ((List.range 56).map fun j => (56 * k + j, ws.getD j 0))).alterThread t fun y =>
    { y with oldest := k, links := y.links.set k (link.truncate 57) }

section
variable {f : XF} {s : State} {n : Nat} {g : Group} {t : ThreadId} {x : Thread} {m : Team} {role : Role}
  (h : Solo s n g t x m (frameShape f)) (hrole : s.roleOf t = some role) (hp : 1 ≤ x.priv)

/-! wspill -/

include h hrole hp

/-- wspill without an unspilled frame below the current one writes 0 (R118). -/
theorem wspill_of_none (ho : x.depth ≤ x.oldest) :
    Commits (.wspill f) s n t (frameShape f) ((s.resumed n).writeRegs t (writeDst f.d 0).regs) := by
  refine (exec_wspill f s).trans (runGroup_solo_done h ?_)
  rw [needPriv_of_le (s := s.resumed n) h.thread hp]
  simp only [State.resumed_thread, h.thread, State.resumed_roleOf, hrole, if_pos ho]

/-- wspill waits while a register of the oldest frame is empty (R118). -/
theorem wspill_of_empty (ho : x.oldest < x.depth) (he : ∃ w ∈ x.oldestWords, x.empties.contains w = true) :
    Waits (.wspill f) s n (.words t x.oldestWords) (s.resumed n) := by
  have hany : (x.oldestWords.any fun w => x.empties.contains w) = true := List.any_eq_true.mpr he
  refine (exec_wspill f s).trans (runGroup_solo_wait (w := .words t x.oldestWords) (u := s.resumed n) h ?_)
  rw [needPriv_of_le (s := s.resumed n) h.thread hp]
  unfold Thread.oldestWords at hany ⊢
  simp only [State.resumed_thread, h.thread, State.resumed_roleOf, hrole, if_neg (Nat.not_le.mpr ho), hany, if_true]

/-- wspill of a full frame comes to what its stores answer (R118). -/
theorem wspill_of_full (ho : x.oldest < x.depth) (hfull : ∀ w ∈ x.oldestWords, x.empties.contains w = false) :
    let va := role.slot t.t x.oldest
    let res := (s.resumed n).spillPieces t va (x.frameBytes x.oldest)
    FrameBlocks (.wspill f) s n g t (frameShape f) f.d va res
      ∧ ∀ u, res = .ok u → Commits (.wspill f) s n t (frameShape f)
          ((u.alterThread t fun y => { y with oldest := y.oldest + 1 }).writeRegs t (writeDst f.d 1).regs) := by
  have hany : (x.oldestWords.any fun w => x.empties.contains w) = false := by simpa using hfull
  refine frame_spec h (exec_wspill f s) ?_
  rw [needPriv_of_le (s := s.resumed n) h.thread hp]
  unfold Thread.oldestWords at hany
  simp only [State.resumed_thread, h.thread, State.resumed_roleOf, hrole, if_neg (Nat.not_le.mpr ho), hany, Bool.false_eq_true, if_false]

/-! wfill -/

/-- wfill without a spilled frame, or without room for one, writes 0 (R118). -/
theorem wfill_of_none (hn : x.oldest = 0 ∨ role.frames ≤ x.depth - x.oldest + 1) :
    Commits (.wfill f) s n t (frameShape f) ((s.resumed n).writeRegs t (writeDst f.d 0).regs) := by
  refine (exec_wfill f s).trans (runGroup_solo_done h ?_)
  rw [needPriv_of_le (s := s.resumed n) h.thread hp]
  simp only [State.resumed_thread, h.thread, State.resumed_roleOf, hrole, if_pos hn]

/-- wfill of a spilled frame with room for it comes to what its loads answer (R116, R118). -/
theorem wfill_of_room (ho : x.oldest ≠ 0) (hroom : x.depth - x.oldest + 1 < role.frames) {ws : List Word} {link : DWord} {res : Spill}
    (hres : (s.resumed n).fillPieces t (role.slot t.t (x.oldest - 1)) 0 56 = (ws, link, res)) :
    FrameBlocks (.wfill f) s n g t (frameShape f) f.d (role.slot t.t (x.oldest - 1)) res
      ∧ ∀ u, res = .ok u → Commits (.wfill f) s n t (frameShape f)
          ((u.refilled t (x.oldest - 1) ws link).writeRegs t (writeDst f.d 1).regs) := by
  have hn : ¬ (x.oldest = 0 ∨ role.frames ≤ x.depth - x.oldest + 1) := by omega
  refine frame_spec (done := fun u => u.refilled t (x.oldest - 1) ws link) h (exec_wfill f s) ?_
  rw [needPriv_of_le (s := s.resumed n) h.thread hp]
  simp only [State.resumed_thread, h.thread, State.resumed_roleOf, hrole, if_neg hn, hres]
  rfl

end

/-- Settles O43: 0x1E1 below PRIV 1, and then the cases of wspill and of wfill, whose accesses are answered alike (`frame_spec`). -/
theorem framesAreSpilledAndFilled : Obligations.FramesAreSpilledAndFilled := by
  unfold Obligations.FramesAreSpilledAndFilled
  intro f s n g t x m role sh r put fails h hrole
  have hfails {i : Instr} {va : VAddr} {res : Spill} (hb : FrameBlocks i s n g t sh f.d va res) : fails i va res :=
    ⟨hb.traps, hb.errors, hb.waits⟩
  refine ⟨fun hp => ?_, fun hp ho => wspill_of_none h hrole hp ho, fun hp ho => ?_,
    fun hp hn => wfill_of_none h hrole hp hn, fun hp ho hroom ws link res hres => ?_⟩
  · have hlt : x.priv < 1 := by omega
    exact ⟨traps_of_needPriv h (exec_wspill f s) hlt, traps_of_needPriv h (exec_wfill f s) hlt⟩
  · refine ⟨fun he => wspill_of_empty h hrole hp ho he, fun hfull => ?_⟩
    obtain ⟨hblocks, hok⟩ := wspill_of_full h hrole hp ho hfull
    exact ⟨hfails hblocks, hok⟩
  · obtain ⟨hblocks, hok⟩ := wfill_of_room h hrole hp ho hroom hres
    exact ⟨hfails hblocks, hok⟩

end Sys2Proof.Machine
end

section
/-! SUPPORT. A source that blocks (R60, R81, R120) in a group of one thread: its group is held, or its cause is raised; and O40 from them. -/

namespace Sys2Proof.Machine

theorem exec_iabs (f : RF) (s : State) : exec (.iabs f) s = execIabs f s := rfl

/-! What an empty source answers (R120, R263) -/

/-- A full register, and an empty one with its block-or-trap bit set or clear, as a source. -/
theorem emptySource_one {t : ThreadId} {x : Thread} {pos r : Nat} {bt : Bool} (he : x.empties.contains (x.word r) = true) :
    emptySource t x pos r 1 bt =
      some (if bt then .trap 0x040 [BitVec.ofNat 64 pos, BitVec.ofNat 64 r] else .wait (.words t [x.word r])) := by
  have hfind : (List.range 1).find? (fun k => !x.full (r + k)) = some 0 := by
    have hlacks : x.full r = false := by rw [Thread.full, he]; rfl
    simp [List.range_succ, hlacks]
  unfold emptySource
  rw [hfind]
  cases bt <;> rfl

/-- An empty window register as the first source. -/
theorem Src.block_of_empty_register {t : ThreadId} {x : Thread} {b : Byte} {bt : Bool} (hb : b.toNat < 0x40)
    (he : x.empties.contains (x.word b.toNat) = true) :
    (Src.one b bt).block t x 0 [] =
      some (if bt then .trap 0x040 [0, BitVec.ofNat 64 b.toNat] else .wait (.words t [x.word b.toNat])) :=
  (if_pos hb).trans (emptySource_one he)

/-- An empty queue as the first source. -/
theorem Src.block_of_empty_queue {t : ThreadId} {x : Thread} {b : Byte} {bt : Bool} (hlo : 0x50 ≤ b.toNat) (hhi : b.toNat < 0x58)
    (he : x.queue (b.toNat - 0x50) = []) :
    (Src.one b bt).block t x 0 [] = some (.wait (.pop t (b.toNat - 0x50) 1)) := by
  have hq : queueOf b = some (b.toNat - 0x50) := if_pos ⟨hlo, by omega⟩
  have hreg : ¬ b.toNat < 0x40 := by omega
  simp only [Src.block, if_neg hreg, hq, he]
  rfl

/-- The first source decides where it blocks (R120). -/
theorem State.blockOf_of_first_source {s : State} {sh : Shape} {t : ThreadId} {x : Thread} {src : Src} {rest : List Src} {b : Block}
    (hx : s.thread t = some x) (hsrcs : sh.srcs = src :: rest) (hb : src.block t x 0 [] = some b) : s.blockOf sh t = some b := by
  have hfrom : blockFrom t x [] sh.srcs = some b := by
    rw [hsrcs]
    unfold blockFrom
    simp only [List.length_nil, hb]
  unfold State.blockOf
  simp only [hx, hfrom]

/-! A blocked instruction in a group of one thread -/

section
variable {s : State} {n : Nat} {g : Group} {t : ThreadId} {x : Thread} {m : Team} {sh : Shape}
  (h : Solo s n g t x m { guard := sh.guard }) (body : State → ThreadId → List DWord → Attempt)
include h

/-- The one thread's group begins its instruction. -/
theorem Solo.begins :
    (s.skipOthers n (s.activeOf g sh.guard)).alterGroup n (fun g => { g with hold := if g.engaged = [] then none else some .engaged })
      = s.resumed n := by
  obtain ⟨-, -, -, hbegun⟩ := ready_parts h.ready
  exact hbegun.trans h.begun

/-- A source or destination that must wait holds the group, and nothing else happens (R81). -/
theorem runGroup_solo_held {w : Hold} (hb : s.blockOf sh t = some (.wait w)) :
    runGroup s sh body = .next (((s.resumed n).alterGroup n fun g => { g with hold := some w }).passOn n) := by
  have ht : (⟨g.team, t.t⟩ : ThreadId) = t := by rw [h.ofTeam]
  have htraps : s.trapsOf g sh (s.activeOf g sh.guard) = [] := by simp [State.trapsOf, h.activeOf, ht, hb]
  have hwait : s.waitOf g sh [t.t] = some w := by simp [State.waitOf, ht, hb]
  have hrest : (s.activeOf g sh.guard).filter (fun t => !(([] : List (Nat × Cause × List DWord)).map Prod.fst).contains t) = [t.t] :=
    (List.filter_eq_self.mpr fun _ _ => rfl).trans h.activeOf
  unfold runGroup State.runIn
  simp only [h.cur, h.group, htraps, h.begins, hrest, hwait]

/-- A source that traps raises its cause at the instruction, which has no other effect (R120, R361). -/
theorem runGroup_solo_source_trap {c : Cause} {aux : List DWord} (hb : s.blockOf sh t = some (.trap c aux)) :
    runGroup s sh body = .next (((s.resumed n).trapAt t g.clause g.idx c aux).passOn n) := by
  have ht : (⟨g.team, t.t⟩ : ThreadId) = t := by rw [h.ofTeam]
  have htraps : s.trapsOf g sh (s.activeOf g sh.guard) = [(t.t, c, aux)] := by simp [State.trapsOf, h.activeOf, ht, hb]
  unfold runGroup State.runIn
  simp only [h.cur, h.group, htraps, h.begins]
  simp [h.activeOf, State.waitOf, State.attemptAll, State.trapIn, ht]

/-- A group of one thread that is held stays at its instruction. -/
theorem Solo.held_passOn (w : Hold) :
    let u := (s.resumed n).alterGroup n fun g => { g with hold := some w }
    u.passOn n = u ∧ u.group n = some { g with hold := some w } := by
  intro u
  have hg : u.group n = some { g with hold := some w } := by simp [u, State.resumed, h.group]
  refine ⟨?_, hg⟩
  unfold State.passOn
  simp [hg, h.members, h.done]

end

/-- Settles O40: iabs has the one source A, which blocks as `Src.block_of_empty_register` and `Src.block_of_empty_queue` say. -/
theorem emptySourcesTrapOrWait : Obligations.EmptySourcesTrapOrWait := by
  unfold Obligations.EmptySourcesTrapOrWait
  intro f s n g t x m hcur hgroup hof hmembers hdone hengaged hx hstatus hteam hguard
  have h : Solo s n g t x m { guard := (shape1 f).guard } :=
    ⟨hcur, hgroup, hof, hmembers, hdone, hengaged, hx, hstatus, hteam, hguard, by simp [State.blockOf, hx, blockFrom, blockDsts]⟩
  have hblock {b : Block} (hb : (srcA f).block t x 0 [] = some b) : s.blockOf (shape1 f) t = some b :=
    State.blockOf_of_first_source hx rfl hb
  have hwaits {w : Hold} (hb : (srcA f).block t x 0 [] = some (.wait w)) :
      ∃ u, exec (.iabs f) s = .next u ∧ u.thread t = some x ∧ u.mem = s.mem ∧ u.group n = some { g with hold := some w } := by
    obtain ⟨hpass, hheld⟩ := h.held_passOn w
    exact ⟨_, ((exec_iabs f s).trans (runGroup_solo_held h _ (hblock hb))).trans (congrArg _ hpass), hx, rfl, hheld⟩
  refine ⟨fun hreg he hbt => ?_, fun hreg he hbt => ?_, fun hlo hhi he => hwaits (Src.block_of_empty_queue hlo hhi he)⟩
  · exact (exec_iabs f s).trans (runGroup_solo_source_trap h _
      (hblock ((Src.block_of_empty_register hreg he).trans (congrArg some (if_pos hbt)))))
  · exact hwaits ((Src.block_of_empty_register hreg he).trans (congrArg some (if_neg (by simp [hbt]))))

end Sys2Proof.Machine
end

section
/-! SUPPORT. Field instructions (R119, R179, R182, R184, R186, R192 to R196) in a group of one thread, and O21 from them. -/

namespace Sys2Proof.Machine

theorem exec_fld (f : MF) (s : State) : exec (.fld f) s = execFld f s := rfl
theorem exec_fst (f : MF) (s : State) : exec (.fst f) s = execFst f s := rfl
theorem exec_fatom (f : MF) (s : State) : exec (.fatom f) s = execFatom f s := rfl
theorem exec_feset (f : MF) (s : State) : exec (.feset f) s = execFeset f s := rfl
theorem exec_feclr (f : MF) (s : State) : exec (.feclr f) s = execFeclr f s := rfl
theorem exec_fetest (f : MF) (s : State) : exec (.fetest f) s = execFetest f s := rfl

@[simp] theorem State.resumed_array (s : State) (n : Nat) (c : CoreId) (a : Nat) : (s.resumed n).array c a = s.array c a := rfl

/-- An access at its place: its thread, its offset in its array, its size. -/
def Waiter.placed (w : Waiter) (t : ThreadId) (addr size : Nat) : Waiter := { w with t := t, off := fieldOffset addr, size := size }

/-- The words of an access at its place: two for 64 bits, otherwise one. -/
theorem Waiter.placed_words (w : Waiter) (t : ThreadId) (addr size : Nat) :
    (w.placed t addr size).words =
      if size = 8 then [fieldOffset addr / 4, fieldOffset addr / 4 + 1] else [fieldOffset addr / 4] := by
  by_cases h8 : size = 8 <;> simp [Waiter.words, Waiter.wide, Waiter.word, Waiter.placed, h8]

/-- A field access waits for its words where it has a mode and they do not meet it (R182). -/
theorem FieldArray.keepsWaiting_iff (y : FieldArray) (w : Waiter) : y.keepsWaiting w = true ↔ w.mode ≠ 0 ∧ y.meets w = false := by
  simp [FieldArray.keepsWaiting]

/-- A field access as an event of S draws no number. -/
theorem State.fieldPlace_fresh (s : State) (t : ThreadId) : (s.fieldPlace t).fresh = s.fresh := by
  unfold State.fieldPlace
  dsimp only
  split <;> rfl

/-! One thread's access: the checks in their order (R192), the pending storage request (R184), the state of the words (R182) -/

section
variable {s : State} {t : ThreadId} {x : Thread} {m : Team} {size addr : Nat} {ofs : BitVec 24} {vs : List DWord}
  {access : Thread → List DWord → Waiter} {w : Waiter} (hx : s.thread t = some x) (hm : s.teamOf t = some m)
  (haddr : fieldAddr (arg vs 0) ofs = addr) (hw : (access x vs).placed t addr size = w)
include hx hm haddr

theorem fieldTurn_of_misaligned (halign : addr % size ≠ 0) : fieldTurn size ofs access s t vs = .trap 0x106 [] s := by
  simp only [fieldTurn, hm, hx, haddr, if_pos halign]

section
variable (halign : addr % size = 0)
include halign

theorem fieldTurn_of_outside (hin : m.inField (fieldArrayOf addr) = false) : fieldTurn size ofs access s t vs = .trap 0x107 [] s := by
  simp only [fieldTurn, hm, hx, haddr, halign, ne_eq, not_true_eq_false, if_false, hin, Bool.not_false, if_true]

variable (hin : m.inField (fieldArrayOf addr) = true)
include hin hw

theorem fieldTurn_of_frozen (hchange : w.changes = true) (hsees : (s.array m.core (fieldArrayOf addr)).sees = true) :
    fieldTurn size ofs access s t vs = .trap 0x108 [] s := by
  unfold Waiter.placed at hw
  simp only [fieldTurn, hm, hx, haddr, halign, hw, ne_eq, not_true_eq_false, if_false, hin, Bool.not_true, Bool.false_eq_true, hchange,
    hsees, Bool.and_self, if_true]

/-- An access that its checks let through joins the waiters behind a pending storage request, or while its words do not meet its mode, and is performed otherwise (R182, R184). -/
theorem fieldTurn_of_checked {y : FieldArray} (hy : s.array m.core (fieldArrayOf addr) = y) (hfree : w.changes = true → y.sees = false) :
    fieldTurn size ofs access s t vs = y.storagePending.elim
      (if y.keepsWaiting w then .engage (s.parkOn m.core (fieldArrayOf addr) w)
        else .done (s.performField m.core (fieldArrayOf addr) w y.sees))
      fun q => .engage (s.enqueue m.core (fieldArrayOf addr) { w with req := some q }) := by
  have hmay : ¬ (w.changes && y.sees) = true := by simpa using hfree
  subst hw hy
  unfold Waiter.placed at hmay
  simp only [fieldTurn, hm, hx, haddr, halign, ne_eq, not_true_eq_false, if_false, hin, Bool.not_true, Bool.false_eq_true, if_neg hmay]
  cases (s.array m.core (fieldArrayOf addr)).storagePending <;> rfl

end

end

/-! A field instruction in a group of one thread -/

section
variable {i : Instr} {s : State} {n : Nat} {g : Group} {t : ThreadId} {x : Thread} {m : Team} {sh : Shape} {size : Nat} {ofs : BitVec 24}
  {access : Thread → List DWord → Waiter} (h : Solo s n g t x m sh) (hi : exec i s = runField size ofs sh access s)
include h hi

/-- The walks of its core's arrays follow a field instruction (R182, R194). -/
theorem exec_field_of_next {u : State} (hu : runGroup s sh (fieldTurn size ofs access) = .next u) : exec i s = .next (u.walkCore g.core) := by
  rw [hi]
  unfold runField
  simp only [hu, h.cur, Option.bind_some, h.group]

variable {addr : Nat} {w : Waiter} (haddr : fieldAddr (arg (s.valuesOf sh t) 0) ofs = addr)
  (hw : (access x (s.valuesOf sh t)).placed t addr size = w)
include haddr hw

/-- The checks of a field access, in their order (R192). -/
theorem field_checks :
    let traps (c : Cause) : Prop := exec i s = .next ((((s.resumed n).trapAt t g.clause g.idx c []).passOn n).walkCore g.core)
    (addr % size ≠ 0 → traps 0x106)
    ∧ (addr % size = 0 → m.inField (fieldArrayOf addr) = false → traps 0x107)
    ∧ (addr % size = 0 → m.inField (fieldArrayOf addr) = true → w.changes = true →
        (s.array m.core (fieldArrayOf addr)).sees = true → traps 0x108) :=
  have hx : (s.resumed n).thread t = some x := h.thread
  have hm : (s.resumed n).teamOf t = some m := h.teamOf
  ⟨fun ha => exec_field_of_next h hi (runGroup_solo_trap h (fieldTurn_of_misaligned hx hm haddr ha)),
    fun ha hin => exec_field_of_next h hi (runGroup_solo_trap h (fieldTurn_of_outside hx hm haddr ha hin)),
    fun ha hin hc hs => exec_field_of_next h hi (runGroup_solo_trap h (fieldTurn_of_frozen hx hm haddr hw ha hin hc hs))⟩

/-- A field access that its checks let through: it joins the waiters of its array, or it is performed (R182, R184). -/
theorem field_acts (halign : addr % size = 0) (hin : m.inField (fieldArrayOf addr) = true)
    (hfree : w.changes = true → (s.array m.core (fieldArrayOf addr)).sees = false) :
    let a := fieldArrayOf addr
    let r := s.resumed n
    (∀ q, (s.array m.core a).storagePending = some q → Parks i s n g t sh (r.enqueue m.core a { w with req := some q }))
    ∧ ((s.array m.core a).storagePending = none →
      (w.mode ≠ 0 → (s.array m.core a).meets w = false → Parks i s n g t sh (r.parkOn m.core a w))
      ∧ (w.mode = 0 ∨ (s.array m.core a).meets w = true → Walks i s n g t sh (r.performField m.core a w (s.array m.core a).sees))) := by
  have hx : (s.resumed n).thread t = some x := h.thread
  have hm : (s.resumed n).teamOf t = some m := h.teamOf
  have hy : (s.resumed n).array m.core (fieldArrayOf addr) = s.array m.core (fieldArrayOf addr) := rfl
  have hturn := fieldTurn_of_checked hx hm haddr hw halign hin hy hfree
  refine ⟨fun q hq => ?_, fun hnone => ⟨fun hmode hmeets => ?_, fun hgo => ?_⟩⟩
  · rw [hq] at hturn
    exact exec_field_of_next h hi (runGroup_solo_engage h hturn)
  · have hwait := (FieldArray.keepsWaiting_iff (s.array m.core (fieldArrayOf addr)) w).mpr ⟨hmode, hmeets⟩
    rw [hnone, if_pos hwait] at hturn
    exact exec_field_of_next h hi (runGroup_solo_engage h hturn)
  · have hwait : ¬ (s.array m.core (fieldArrayOf addr)).keepsWaiting w = true := by
      rw [FieldArray.keepsWaiting_iff]
      rintro ⟨hmode, hmeets⟩
      exact hgo.elim hmode fun hmet => Bool.false_ne_true (hmeets.symm.trans hmet)
    rw [hnone, if_neg hwait] at hturn
    exact exec_field_of_next h hi (runGroup_solo_done h hturn)

end

/-- Settles O21: each field instruction is one access (`field_acts`, `field_checks`). -/
theorem fieldInstructionsExecute : Obligations.FieldInstructionsExecute := by
  unfold Obligations.FieldInstructionsExecute
  refine ⟨fun f s n g t x m => ?_, fun f s n g t x m => ?_⟩
  · intro size mode r p acts num words loadShape storeShape bitShape testShape atomShape v cmp
    have hacts {i : Instr} {sh : Shape} {size : Nat} {change : Bool} {op : FieldOp} {mode : Nat} {data : List DWord → DWord} {dest : List Nat}
        {empty : List Nat} {done : Nat → Nat → List DWord → State} {access : Thread → List DWord → Waiter}
        (hi : exec i s = runField size f.ofs sh access s) (ha : ∀ vs, access x vs = fieldAccess op mode (data vs) dest)
        (hchange : (fieldAccess op mode 0 dest).changes = change) (hempty : (fieldAccess op mode 0 dest).empties = empty)
        (hdone : ∀ addr vs, r.performField m.core (fieldArrayOf addr) ((fieldAccess op mode (data vs) dest).placed t addr size)
          (s.array m.core (fieldArrayOf addr)).sees = done (fieldArrayOf addr) (fieldOffset addr) vs) :
        acts i sh size change (fun vs => fieldAccess op mode (data vs) dest) empty done := by
      intro h vs addr a ar w joins halign hin hfree
      subst hchange hempty
      obtain ⟨hpending, hclear⟩ := field_acts h hi rfl (congrArg (Waiter.placed · t addr size) (ha vs)) halign hin hfree
      refine ⟨hpending, fun hnone => ?_⟩
      obtain ⟨hunmet, hmet⟩ := hclear hnone
      exact ⟨hunmet, fun hgo => hdone addr vs ▸ hmet hgo⟩
    -- From here on `acts` is matched by name: unfolded, its parts would be compared case by case.
    clear_value acts
    refine ⟨?_, ?_, ?_, ?_, ?_, ?_⟩
    · refine hacts (exec_fld f s) (fun _ => rfl) rfl rfl fun addr vs => ?_
      have hwords := Waiter.placed_words (fieldAccess .load mode 0 words) t addr size
      have hnew : s.newId = (p.alterThread t fun y => y.markEmpty words).newId := (State.fieldPlace_fresh r t).symm
      simp only [← hwords, hnew]
      rfl
    · exact hacts (exec_fst f s) (fun _ => rfl) rfl rfl fun addr vs => rfl
    · refine hacts (exec_fatom f s) (fun _ => rfl) rfl rfl fun addr vs => ?_
      have hv : (v.zeroExtend 64).truncate 32 = v := by simp
      simp only [State.performField, Waiter.placed, fieldAccess, hv]
      rfl
    · exact hacts (exec_feset f s) (fun _ => rfl) rfl rfl fun addr vs => rfl
    · exact hacts (exec_feclr f s) (fun _ => rfl) rfl rfl fun addr vs => rfl
    · exact hacts (exec_fetest f s) (fun _ => rfl) rfl rfl fun addr vs => rfl
  · intro checks size bit store atomic
    have hchecks {i : Instr} {sh : Shape} {size : Nat} {change : Bool} {access : Thread → List DWord → Waiter}
        (hi : exec i s = runField size f.ofs sh access s) (hchange : ∀ vs, (access x vs).changes = change) : checks i sh size change := by
      intro h addr a traps
      obtain ⟨hmisaligned, houtside, hfrozen⟩ := field_checks h hi rfl rfl
      exact ⟨hmisaligned, houtside, fun ha hin hc hs => hfrozen ha hin ((hchange _).trans hc) hs⟩
    clear_value checks
    exact ⟨hchecks (exec_fld f s) fun _ => rfl, hchecks (exec_fst f s) fun _ => rfl, hchecks (exec_fatom f s) fun _ => rfl,
      hchecks (exec_feset f s) fun _ => rfl, hchecks (exec_feclr f s) fun _ => rfl, hchecks (exec_fetest f s) fun _ => rfl⟩

end Sys2Proof.Machine
end

section
/-! SUPPORT. Scale registers named by an instruction (R152, R153, R158, R166 to R168) in a group of one thread, and O22 from them. -/

namespace Sys2Proof.Machine

theorem exec_kmov (f : KF) (s : State) : exec (.kmov f) s = execKmov f s := rfl
theorem exec_krcp (f : KF) (s : State) : exec (.krcp f) s = execKrcp f s := rfl
theorem exec_kset (f : KF) (s : State) : exec (.kset f) s = execKset f s := rfl
theorem exec_kmul (f : KF) (s : State) : exec (.kmul f) s = execKmul f s := rfl
theorem exec_kmax (f : KF) (s : State) : exec (.kmax f) s = execKmax f s := rfl
theorem exec_kmin (f : KF) (s : State) : exec (.kmin f) s = execKmin f s := rfl
theorem exec_kcvtf (f : KF) (s : State) : exec (.kcvtf f) s = execKcvtf f s := rfl
theorem exec_kcvtk (f : KF) (s : State) : exec (.kcvtk f) s = execKcvtk f s := rfl

/-! Names and physical registers (R152, R153) -/

theorem Team.kreg_of_lt {m : Team} {k : Nat} (h : k < m.nk) : m.kreg k = some (m.kBase + k) := if_pos h

theorem Team.kreg_of_le {m : Team} {k : Nat} (h : m.nk ≤ k) : m.kreg k = none := if_neg (Nat.not_lt.mpr h)

theorem Team.mapM_kreg_of_lt {m : Team} {ks : List Nat} (h : ∀ k ∈ ks, k < m.nk) : ks.mapM m.kreg = some (ks.map (m.kBase + ·)) := by
  induction ks with
  | nil => rfl
  | cons k ks ih =>
    rw [List.mapM_cons, Team.kreg_of_lt (h k (by simp)), ih fun j hj => h j (by simp [hj])]
    rfl

theorem Team.mapM_kreg_of_le {m : Team} {ks : List Nat} (h : ∃ k ∈ ks, m.nk ≤ k) : ks.mapM m.kreg = none := by
  induction ks with
  | nil => simp at h
  | cons k ks ih =>
    rw [List.mapM_cons]
    obtain hk | hk := Nat.lt_or_ge k m.nk
    · rw [Team.kreg_of_lt hk, ih (by simpa [Nat.not_le.mpr hk] using h)]
      rfl
    · rw [Team.kreg_of_le hk]
      rfl

@[simp] theorem State.resumed_kInFlight (s : State) (n : Nat) (c : CoreId) (k : Nat) : (s.resumed n).kInFlight c k = s.kInFlight c k := rfl

/-- Whether names lie in the allotment and have no write in flight (R153, R166). -/
def State.kFree (s : State) (m : Team) (ks : List Nat) : Prop := ∀ k ∈ ks, k < m.nk ∧ s.kInFlight m.core (m.kBase + k) = false

section
variable {s : State} {t : ThreadId} {m : Team} {ks : List Nat} {body : State → ThreadId → CoreId → List Nat → List DWord → Attempt}
  {vs : List DWord} (hm : s.teamOf t = some m)
include hm

theorem withKregs_of_kFree (hk : s.kFree m ks) : withKregs ks body s t vs = body s t m.core (ks.map (m.kBase + ·)) vs := by
  have hfree : ¬ (ks.map (m.kBase + ·)).any (s.kInFlight m.core) = true := by simpa using fun k hk' => (hk k hk').2
  simp only [withKregs, hm, Team.mapM_kreg_of_lt fun k hk' => (hk k hk').1, if_neg hfree]

theorem withKregs_of_outside (hk : ∃ k ∈ ks, m.nk ≤ k) : withKregs ks body s t vs = .trap 0x103 [] s := by
  simp only [withKregs, hm, Team.mapM_kreg_of_le hk]

end

section
variable {i : Instr} {s : State} {n : Nat} {g : Group} {t : ThreadId} {x : Thread} {m : Team} {sh : Shape} {ks : List Nat}
  {body : State → ThreadId → CoreId → List Nat → List DWord → Attempt} (h : Solo s n g t x m sh)
  (hi : exec i s = runGroup s sh (withKregs ks body))
include h hi

/-- An instruction whose scale registers are free executes on them (R153, R166). -/
theorem commits_of_kFree (hk : s.kFree m ks) {u : State}
    (hbody : body (s.resumed n) t m.core (ks.map (m.kBase + ·)) (s.valuesOf sh t) = .done u) : Commits i s n t sh u :=
  hi.trans (runGroup_solo_done h ((withKregs_of_kFree (s := s.resumed n) h.teamOf hk).trans hbody))

/-- An instruction that names a scale register outside the allotment raises 0x103 (R153). -/
theorem traps_of_outside (hk : ∃ k ∈ ks, m.nk ≤ k) : Traps i s n g t 0x103 [] (s.resumed n) :=
  hi.trans (runGroup_solo_trap h (withKregs_of_outside (s := s.resumed n) h.teamOf hk))

end

/-! Bytes of a scale register (R152) -/

theorem State.writeKreg_kbyte (s : State) (c : CoreId) (k at_ : Nat) (bs : List Byte) (k' b : Nat) :
    (s.writeKreg c k at_ bs).kbyte c k' b =
      if 256 * k + at_ ≤ 256 * k' + b ∧ 256 * k' + b < 256 * k + at_ + bs.length then bs.getD (256 * k' + b - (256 * k + at_)) 0
      else s.kbyte c k' b := by
  unfold State.kbyte State.writeKreg
  rw [State.alterCore_core, if_pos rfl]
  exact Sparse.get_setList bs (s.core c).kbytes (256 * k + at_) (256 * k' + b)

/-- A write of bytes of a scale register: those bytes in order, and every other byte of every register as before. -/
theorem writeKreg_changes_its_bytes (s : State) (c : CoreId) {k at_ : Nat} {bs : List Byte} (hfit : at_ + bs.length ≤ 256) :
    (∀ j, j < bs.length → (s.writeKreg c k at_ bs).kbyte c k (at_ + j) = bs.getD j 0)
    ∧ ∀ k' b, b < 256 → k' ≠ k ∨ b < at_ ∨ at_ + bs.length ≤ b → (s.writeKreg c k at_ bs).kbyte c k' b = s.kbyte c k' b := by
  refine ⟨fun j hj => ?_, fun k' b hb hout => ?_⟩
  · rw [State.writeKreg_kbyte, if_pos (by omega)]
    congr 1
    omega
  · rw [State.writeKreg_kbyte, if_neg (by omega)]

/-- Settles O22: an instruction on free names executes (`commits_of_kFree`), one on a name outside the allotment traps (`traps_of_outside`), and a write of bytes is `writeKreg_changes_its_bytes`. -/
theorem scaleSliceInstructionsExecute : Obligations.ScaleSliceInstructionsExecute := by
  unfold Obligations.ScaleSliceInstructionsExecute
  refine ⟨fun f s n g t x m => ?_, fun s c k at_ bs hfit => ?_, fun f s n g t x m h => ?_⟩
  · intro c k named byte r plain two
    have free1 {a : BitVec 6} (ha : named a) : s.kFree m [a.toNat] := by simpa [State.kFree] using ha
    have free2 {a b : BitVec 6} (ha : named a) (hb : named b) : s.kFree m [a.toNat, b.toNat] := by
      simpa [State.kFree] using ⟨ha, hb⟩
    have free3 {a b d : BitVec 6} (ha : named a) (hb : named b) (hd : named d) : s.kFree m [a.toNat, b.toNat, d.toNat] := by
      simpa [State.kFree] using ⟨ha, hb, hd⟩
    have htwo {i : Instr} {op : Byte → Byte → Byte}
        (hi : exec i s = sliceOp f.g [f.k1.toNat, f.k2.toNat, f.k3.toNat] (scaleOp2 op) s) : two i op :=
      fun h h1 h2 h3 => commits_of_kFree h hi (free3 h1 h2 h3) rfl
    clear_value two
    refine ⟨fun h h1 h2 => ⟨?_, ?_⟩, ?_, htwo (exec_kmul f s), htwo (exec_kmax f s), htwo (exec_kmin f s), ?_, ?_⟩
    · exact commits_of_kFree h (exec_kmov f s) (free2 h1 h2) rfl
    · exact commits_of_kFree h (exec_krcp f s) (free2 h1 h2) rfl
    · exact fun h h1 => commits_of_kFree h (exec_kset f s) (free1 h1) rfl
    · intro sh h h2 v u hu
      exact commits_of_kFree h (exec_kcvtf f s) (free1 h2) hu
    · exact fun h h1 => commits_of_kFree h (exec_kcvtk f s) (free1 h1) rfl
  · obtain ⟨hin, hout⟩ := writeKreg_changes_its_bytes s c (k := k) hfit
    exact ⟨hin, hout, rfl, rfl⟩
  · refine ⟨fun hk => ?_, fun hk => ?_⟩
    · have hk : ∃ k ∈ [f.k1.toNat, f.k2.toNat], m.nk ≤ k := by simpa using hk
      exact ⟨traps_of_outside h (exec_kmov f s) hk, traps_of_outside h (exec_krcp f s) hk⟩
    · have hk : ∃ k ∈ [f.k1.toNat, f.k2.toNat, f.k3.toNat], m.nk ≤ k := by simpa using hk
      exact ⟨traps_of_outside h (exec_kmul f s) hk, traps_of_outside h (exec_kmax f s) hk, traps_of_outside h (exec_kmin f s) hk⟩

end Sys2Proof.Machine
end

section
/-! SUPPORT. Instructions on a whole scale register (R166, R169 to R171) in a group of one thread, and O23 from them. -/

namespace Sys2Proof.Machine

theorem exec_kclr (f : KF) (s : State) : exec (.kclr f) s = execKclr f s := rfl
theorem exec_kbind (f : KF) (s : State) : exec (.kbind f) s = execKbind f s := rfl
theorem exec_ktag (f : KF) (s : State) : exec (.ktag f) s = execKtag f s := rfl

@[simp] theorem State.resumed_blockOf (s : State) (n : Nat) (sh : Shape) (t : ThreadId) : (s.resumed n).blockOf sh t = s.blockOf sh t := rfl
@[simp] theorem State.resumed_gen (s : State) (n : Nat) (c : CoreId) (o : GenObject) : (s.resumed n).gen c o = s.gen c o := rfl
@[simp] theorem State.resumed_tagOf (s : State) (n : Nat) (c : CoreId) (k : Nat) : (s.resumed n).tagOf c k = s.tagOf c k := rfl

/-! The one thread of ACTIVE is its home group (R166) -/

section
variable {i : Instr} {s : State} {n : Nat} {g : Group} {t : ThreadId} {x : Thread} {m : Team} {sh : Shape} {src : Option Src}
  {body : State → Team → Nat → ThreadId → DWord → Whole} (h : Solo s n g t x m sh)
  (hi : exec i s = runKwhole sh src body s) (hfree : s.blockOf { guard := sh.guard, srcs := src.toList } t = none)
include h hi hfree

/-- A whole-register instruction that its body lets act: the register's change, then what the thread receives. -/
theorem commits_of_whole {u v : State} {e : Effect}
    (hbody : body (s.resumed n) m (homeGroupOf t.t) t (arg64 (s.valuesOf { guard := sh.guard, srcs := src.toList } t) 0) = .ok u e)
    (hgive : u.attemptEffect t (src.toList.filterMap Src.pops) false e = .done v) :
    exec i s = .next (v.commit n t src.toList) := by
  have ht : (⟨g.team, t.t⟩ : ThreadId) = t := by rw [h.ofTeam]
  have hteam : (s.resumed n).team g.team = some m := h.ofTeam ▸ h.team
  rw [hi]
  unfold runKwhole
  rw [runWhole_solo h]
  simp [homeGroups, NatSet.add, hteam, ht, hfree, hbody, State.giveWhole, hgive, State.commit]

/-- A whole-register instruction that its body stops: the cause, and nothing else. -/
theorem traps_of_whole {c : Cause} {aux : List DWord}
    (hbody : body (s.resumed n) m (homeGroupOf t.t) t (arg64 (s.valuesOf { guard := sh.guard, srcs := src.toList } t) 0) = .cause c aux) :
    Traps i s n g t c aux (s.resumed n) := by
  have ht : (⟨g.team, t.t⟩ : ThreadId) = t := by rw [h.ofTeam]
  have hteam : (s.resumed n).team g.team = some m := h.ofTeam ▸ h.team
  unfold Traps
  rw [hi]
  unfold runKwhole
  rw [runWhole_solo h]
  simp [homeGroups, NatSet.add, hteam, ht, hfree, hbody, State.trapIn]

end

/-! The checks of a whole register -/

theorem wholeK_of_free {k p : Nat} {c : CoreId} {s : State} {waits : Bool} {f : Nat → Whole} {m : Team} (hk : k < m.nk)
    (hp : p = m.kBase + k) (hfree : waits = true → s.kInFlight c p = false) : wholeK (m.kreg k) c s waits f = f p := by
  subst hp
  have hgo : ¬ (waits && s.kInFlight c (m.kBase + k)) = true := by
    rw [Bool.and_eq_true]
    rintro ⟨hw, hf⟩
    exact Bool.false_ne_true ((hfree hw).symm.trans hf)
  simp only [Team.kreg_of_lt hk, wholeK, if_neg hgo]

theorem wholeK_of_outside {k : Nat} {c : CoreId} {s : State} {waits : Bool} {f : Nat → Whole} {m : Team} (hk : m.nk ≤ k) :
    wholeK (m.kreg k) c s waits f = .cause 0x103 [] := by
  simp only [Team.kreg_of_le hk, wholeK]

theorem attemptEffect_nil (s : State) (t : ThreadId) (pops : List Nat) (counted : Bool) :
    s.attemptEffect t pops counted {} = .done (s.applyEffect t {}) := rfl

@[simp] theorem State.blockOf_plain (s : State) (guard : Guard) (t : ThreadId) : s.blockOf { guard := guard } t = none := by
  unfold State.blockOf
  cases s.thread t <;> simp [blockFrom, blockDsts]

/-! kbind: without an object, and with one (R171) -/

theorem exec_kbind_none {f : KF} (hv : f.var = 0) (s : State) : exec (.kbind f) s = runKwhole { guard := f.g } none
    (fun s m _ _ _ => wholeK (m.kreg f.k1.toNat) m.core s false fun k => .ok (s.setTag m.core k none) {}) s := by
  rw [exec_kbind]
  unfold execKbind
  simp [hv]

/-- The name that kbind binds: in its A-scale form that of the home group within its role (R153, R171). -/
def Team.bindName (m : Team) (f : KF) (t : Nat) : Nat := if f.var = 1 then f.k1.toNat + m.scaleGroup t else f.k1.toNat

/-- kbind of an object, for one home group (R171). -/
def bindWhole (f : KF) (s : State) (m : Team) (h : Nat) (t : ThreadId) (v : DWord) : Whole :=
  wholeK (m.kreg (m.bindName f t.t)) m.core s false fun k =>
    match bindObject m f.var.toNat h (v.truncate 32) with
    | none => .cause 0x104 []
    | some o => .ok ((s.noteChecked m.core [o]).setTag m.core k (some ⟨o, s.gen m.core o⟩)) {}

theorem exec_kbind_object {f : KF} (hv : f.var ≠ 0) (s : State) : exec (.kbind f) s =
    runKwhole { guard := f.g } (some (.one f.oa f.bta)) (bindWhole f) s := by
  have h0 : f.var.toNat ≠ 0 := fun h => hv (BitVec.eq_of_toNat_eq h)
  have h1 : f.var.toNat = 1 ↔ f.var = 1 := ⟨fun h => BitVec.eq_of_toNat_eq h, fun h => congrArg BitVec.toNat h⟩
  rw [exec_kbind]
  unfold execKbind
  simp only [if_neg h0]
  congr 1
  funext s m h t v
  have hname : (if f.var.toNat = 1 then m.kregA t.t f.k1.toNat else m.kreg f.k1.toNat) = m.kreg (m.bindName f t.t) := by
    unfold Team.bindName Team.kregA
    simp only [h1, apply_ite m.kreg]
  rw [hname]
  rfl

section
variable {f : KF} {s : State} {n : Nat} {g : Group} {t : ThreadId} {x : Thread} {m : Team}

theorem kbind_none_traps (h : Solo s n g t x m { guard := f.g }) (hv : f.var = 0) (hk : m.nk ≤ f.k1.toNat) :
    Traps (.kbind f) s n g t 0x103 [] (s.resumed n) :=
  traps_of_whole h (exec_kbind_none hv s) (s.blockOf_plain _ _) (wholeK_of_outside hk)

variable (h : Solo s n g t x m { guard := f.g }) (hfree : s.blockOf { guard := f.g, srcs := [.one f.oa f.bta] } t = none) (hv : f.var ≠ 0)
include h hfree hv

theorem kbind_object_commits (hk : m.bindName f t.t < m.nk) {o : GenObject}
    (ho : bindObject m f.var.toNat (homeGroupOf t.t) (arg (s.valuesOf { guard := f.g, srcs := [.one f.oa f.bta] } t) 0) = some o) :
    Commits (.kbind f) s n t { guard := f.g, srcs := [.one f.oa f.bta] } ((((s.resumed n).noteChecked m.core [o]).setTag m.core
      (m.kBase + m.bindName f t.t) (some ⟨o, s.gen m.core o⟩)).applyEffect t {}) := by
  refine commits_of_whole h (exec_kbind_object hv s) hfree (u := ((s.resumed n).noteChecked m.core [o]).setTag m.core
    (m.kBase + m.bindName f t.t) (some ⟨o, s.gen m.core o⟩)) ?_ (attemptEffect_nil _ _ _ _)
  unfold bindWhole
  rw [wholeK_of_free hk rfl (by simp)]
  simp only [arg] at ho
  simp only [arg64, Option.toList, ho]
  rfl

theorem kbind_traps_outside (hk : m.nk ≤ m.bindName f t.t) : Traps (.kbind f) s n g t 0x103 [] (s.resumed n) :=
  traps_of_whole h (exec_kbind_object hv s) hfree (wholeK_of_outside hk)

theorem kbind_traps_no_object (hk : m.bindName f t.t < m.nk)
    (ho : bindObject m f.var.toNat (homeGroupOf t.t) (arg (s.valuesOf { guard := f.g, srcs := [.one f.oa f.bta] } t) 0) = none) :
    Traps (.kbind f) s n g t 0x104 [] (s.resumed n) := by
  refine traps_of_whole h (exec_kbind_object hv s) hfree ?_
  unfold bindWhole
  rw [wholeK_of_free hk rfl (by simp)]
  simp only [arg] at ho
  simp only [arg64, Option.toList, ho]

end

/-- Settles O23: each is a whole-register instruction that its body lets act (`commits_of_whole`). -/
theorem wholeScaleRegisterInstructionsExecute : Obligations.WholeScaleRegisterInstructionsExecute := by
  unfold Obligations.WholeScaleRegisterInstructionsExecute
  intro f s n g t x m c k r plain
  refine ⟨fun h hk hfree => ?_, fun h hv hk => ?_, ?_, ?_⟩
  · exact commits_of_whole h (exec_kclr f s) (s.blockOf_plain _ _) (wholeK_of_free hk rfl fun _ => hfree) (attemptEffect_nil _ _ _ _)
  · exact commits_of_whole h (exec_kbind_none hv s) (s.blockOf_plain _ _) (wholeK_of_free hk rfl (by simp)) (attemptEffect_nil _ _ _ _)
  · exact fun h hfree hv hk o ho => kbind_object_commits h hfree hv hk ho
  · intro sh h hk hfree tag live u hu
    exact commits_of_whole h (exec_ktag f s) (s.blockOf_plain _ _) (wholeK_of_free hk rfl fun _ => hfree) hu

end Sys2Proof.Machine
end

section
/-! SUPPORT. Accesses of global memory by a group of one thread (R222, R237, R241), kld, kst and ldmx (R172 to R175), and O24 from them. -/

namespace Sys2Proof.Machine

theorem exec_kld (f : MF) (s : State) : exec (.kld f) s = execKld f s := rfl
theorem exec_kst (f : MF) (s : State) : exec (.kst f) s = execKst f s := rfl
theorem exec_ldmx (f : LdmxF) (s : State) : exec (.ldmx f) s = execLdmx f s := rfl

@[simp] theorem State.resumed_kbyte (s : State) (n : Nat) (c : CoreId) (k b : Nat) : (s.resumed n).kbyte c k b = s.kbyte c k b := rfl

/-! What a translation leaves -/

section
variable {s u : State} {die cn : Nat} {need : Need} {va : VAddr} {r : Translation} (h : s.translate die cn need va = (r, u))
include h

theorem translate_cnOf (t : ThreadId) : u.cnOf t = s.cnOf t := by
  rw [translate_eq h]; rfl

theorem translate_kbyte (c : CoreId) (k b : Nat) : u.kbyte c k b = s.kbyte c k b := by
  rw [translate_eq h]; rfl

end

/-! An address and its translation (R237) -/

/-- A place that an access of memory goes on with, as its translation gives it: an address in HBM4E, or the error reply that the walk has met (R241). -/
inductive Place.Given : Place → Translation → Prop
  | hbm (pa : Nat) : Place.Given (.ok pa) (.ok (.hbm pa))
  | failed (c : Cause) : Place.Given (.error c) (.ok (.failed c))

theorem Place.given_of {q : Place} {pa : Nat} {c : Cause} {a : Translation × State} {v : State}
    (h : (q = .ok pa ∧ a = (.ok (.hbm pa), v)) ∨ (q = .error c ∧ a = (.ok (.failed c), v))) : ∃ r, q.Given r ∧ a = (r, v) := by
  obtain ⟨rfl, h⟩ | ⟨rfl, h⟩ := h
  · exact ⟨_, .hbm pa, h⟩
  · exact ⟨_, .failed c, h⟩

section
variable {s u : State} {t : ThreadId} {c : CoreId} {cn : Nat} {va : VAddr} {size : Nat} {mis : Cause} {need : Need}

section
variable {body : State → Target → Attempt}

theorem withGlobal_of_misaligned (ha : va.toNat % size ≠ 0) : s.withGlobal t va size mis need body = .trap mis [va.zeroExtend 64] s :=
  if_pos ha

variable (hc : s.coreOf t = c) (hcn : s.cnOf t = cn) (ha : va.toNat % size = 0)
include hc hcn ha

theorem withGlobal_of_cause {cause : Cause} (htr : s.translate c.die cn need va = (.cause cause, u)) :
    s.withGlobal t va size mis need body = .trap cause [va.zeroExtend 64] u := by
  simp only [State.withGlobal, ha, ne_eq, not_true_eq_false, if_false, hc, hcn, htr]

theorem withGlobal_of_target {p : Target} (htr : s.translate c.die cn need va = (.ok p, u)) :
    s.withGlobal t va size mis need body = body u p := by
  simp only [State.withGlobal, ha, ne_eq, not_true_eq_false, if_false, hc, hcn, htr]

end

variable {body : State → Place → Attempt}

theorem withMemory_of_misaligned (ha : va.toNat % size ≠ 0) : s.withMemory t va size mis need body = .trap mis [va.zeroExtend 64] s :=
  withGlobal_of_misaligned ha

variable (hc : s.coreOf t = c) (hcn : s.cnOf t = cn) (ha : va.toNat % size = 0)
include hc hcn ha

theorem withMemory_of_cause {cause : Cause} (htr : s.translate c.die cn need va = (.cause cause, u)) :
    s.withMemory t va size mis need body = .trap cause [va.zeroExtend 64] u :=
  withGlobal_of_cause hc hcn ha htr

theorem withMemory_of_place {q : Place} {r : Translation} (hq : q.Given r) (htr : s.translate c.die cn need va = (r, u)) :
    s.withMemory t va size mis need body = body u q := by
  cases hq <;> exact withGlobal_of_target hc hcn ha htr

end

/-! An instruction that is one access of memory -/

section
variable {i : Instr} {s : State} {n : Nat} {g : Group} {t : ThreadId} {x : Thread} {m : Team} {sh : Shape}
  {body : State → ThreadId → List DWord → Attempt} {va : VAddr} {size : Nat} {mis : Cause} {need : Need} {done : State → Place → State}
  (h : Solo s n g t x m sh) (hi : exec i s = runGroup s sh body)
  (hbody : body (s.resumed n) t (s.valuesOf sh t) = (s.resumed n).withMemory t va size mis need fun u q => .done (done u q))
include h hi hbody

/-- An access off its boundary, and one whose translation fails, raise their causes, with the address (R237). -/
theorem access_traps :
    (va.toNat % size ≠ 0 → Traps i s n g t mis [va.zeroExtend 64] (s.resumed n))
    ∧ (va.toNat % size = 0 → ∀ cause u, (s.resumed n).translate m.core.die m.cn need va = (.cause cause, u) →
        Traps i s n g t cause [va.zeroExtend 64] u) :=
  ⟨fun ha => hi.trans (runGroup_solo_trap h (hbody.trans (withMemory_of_misaligned ha))),
    fun ha _ _ htr => hi.trans (runGroup_solo_trap h (hbody.trans (withMemory_of_cause (s := s.resumed n) h.coreOf h.cnOf ha htr)))⟩

/-- An aligned access executes at the place that its translation gives (R237, R241). -/
theorem access_commits (ha : va.toNat % size = 0) {q : Place} {r : Translation} (hq : q.Given r) {u : State}
    (htr : (s.resumed n).translate m.core.die m.cn need va = (r, u)) : Commits i s n t sh (done u q) :=
  hi.trans (runGroup_solo_done h (hbody.trans (withMemory_of_place (s := s.resumed n) h.coreOf h.cnOf ha hq htr)))

end

/-! kld and kst (R172) -/

/-- What kld and kst read before their own meaning. -/
abbrev scaleAccess (f : MF) : Shape := { guard := f.g, srcs := [.pair f.base false], inS := true }

section
variable {f : MF} {s : State} {n : Nat} {g : Group} {t : ThreadId} {x : Thread} {m : Team} (h : Solo s n g t x m (scaleAccess f))
include h

theorem kld_traps_outside (hk : m.nk ≤ f.data.toNat) : Traps (.kld f) s n g t 0x103 [] (s.resumed n) := by
  refine (exec_kld f s).trans (runGroup_solo_trap h ?_)
  simp only [State.resumed_teamOf, h.teamOf, Option.bind_some, Team.kreg_of_le hk]

/-- kld of a register of the allotment is an access of 8 bytes, which takes the register's tag and sends the reply on its way. -/
theorem kld_access (hk : f.data.toNat < m.nk) : ∃ body, exec (.kld f) s = runGroup s (scaleAccess f) body
    ∧ body (s.resumed n) t (s.valuesOf (scaleAccess f) t) =
      (s.resumed n).withMemory t (globalAddr (arg64 (s.valuesOf (scaleAccess f) t) 0) f.ofs) 8 0x080 needRead fun u q =>
        .done ((u.setTag (u.coreOf t) (m.kBase + f.data.toNat) none).issueScaleLoad t
          (globalAddr (arg64 (s.valuesOf (scaleAccess f) t) 0) f.ofs) q 8 (cacheUse f) (m.kBase + f.data.toNat) (8 * laneOf t.t)) := by
  refine ⟨_, exec_kld f s, ?_⟩
  simp only [State.resumed_teamOf, h.teamOf, Option.bind_some, Team.kreg_of_lt hk]

/-- kst of a register that is free is an access of 8 bytes, which stores the thread's slice. -/
theorem kst_access (hk : s.kFree m [f.data.toNat]) : ∃ body, exec (.kst f) s = runGroup s (scaleAccess f) body
    ∧ body (s.resumed n) t (s.valuesOf (scaleAccess f) t) =
      (s.resumed n).withMemory t (globalAddr (arg64 (s.valuesOf (scaleAccess f) t) 0) f.ofs) 8 0x080 needWrite fun u q =>
        .done (u.issueStore t (globalAddr (arg64 (s.valuesOf (scaleAccess f) t) 0) f.ofs) q
          ((List.range 8).map fun b => u.kbyte m.core (m.kBase + f.data.toNat) (8 * laneOf t.t + b)) (cacheUse f) (u.pcAt t)) :=
  ⟨_, exec_kst f s, withKregs_of_kFree (s := s.resumed n) h.teamOf hk⟩

section
variable {q : Place} {r : Translation} (hq : q.Given r) {u : State}
  (ha : (globalAddr (arg64 (s.valuesOf (scaleAccess f) t) 0) f.ofs).toNat % 8 = 0)
include hq ha

theorem kld_commits (hk : f.data.toNat < m.nk)
    (htr : (s.resumed n).translate m.core.die m.cn needRead (globalAddr (arg64 (s.valuesOf (scaleAccess f) t) 0) f.ofs) = (r, u)) :
    Commits (.kld f) s n t (scaleAccess f) ((u.setTag m.core (m.kBase + f.data.toNat) none).issueScaleLoad t
      (globalAddr (arg64 (s.valuesOf (scaleAccess f) t) 0) f.ofs) q 8 (cacheUse f) (m.kBase + f.data.toNat) (8 * (t.t % 32))) := by
  obtain ⟨_, hi, hbody⟩ := kld_access h hk
  have hcore : u.coreOf t = m.core := (translate_coreOf htr t).trans h.coreOf
  exact hcore ▸ access_commits h hi hbody ha hq htr

theorem kst_commits (hk : s.kFree m [f.data.toNat])
    (htr : (s.resumed n).translate m.core.die m.cn needWrite (globalAddr (arg64 (s.valuesOf (scaleAccess f) t) 0) f.ofs) = (r, u)) :
    Commits (.kst f) s n t (scaleAccess f) (u.issueStore t (globalAddr (arg64 (s.valuesOf (scaleAccess f) t) 0) f.ofs) q
      ((List.range 8).map fun b => s.kbyte m.core (m.kBase + f.data.toNat) (8 * (t.t % 32) + b)) (cacheUse f) g.pc) := by
  obtain ⟨_, hi, hbody⟩ := kst_access h hk
  have hpc : u.pcAt t = g.pc := (translate_pcAt htr t).trans h.pcAt
  have hcommit := access_commits h hi hbody ha hq htr
  simp only [hpc, translate_kbyte htr, State.resumed_kbyte] at hcommit
  exact hcommit

end

end

/-! ldmx (R173 to R175) -/

/-- What ldmx reads and writes before its own meaning. -/
abbrev ldmxShape (f : LdmxF) : Shape :=
  { guard := f.g, srcs := [.pair f.dbase false, .pair f.sbase false], dsts := [.regs f.data.toNat 16], inS := true }

/-- How many scale bytes an ldmx loads (R174). -/
def ldmxCount (f : LdmxF) : Nat := if f.sc = 0 then 4 else 2

/-- The first byte of kE that an ldmx of a thread loads (R174). -/
def ldmxFirst (f : LdmxF) (t : Nat) : Nat := 4 * (t % 32) + if f.sc = 0 ∨ f.sc = 1 then 0 else 2

theorem ldmxScales_eq (f : LdmxF) (t : Nat) : ldmxScales f.sc.toNat (laneOf t) = (ldmxCount f, ldmxFirst f t) := by
  unfold ldmxCount ldmxFirst
  have hcases : ∀ sc : BitVec 2, sc = 0 ∨ sc = 1 ∨ sc = 2 ∨ sc = 3 := by decide
  have hsc := hcases f.sc
  generalize f.sc = sc at hsc
  obtain rfl | rfl | rfl | rfl := hsc <;> rfl

/-- An ldmx whose addresses have been translated: the generation of its block steps, kE takes its tag, and the data are on their way (R173, R175). -/
def State.ldmxTagged (s : State) (f : LdmxF) (t : ThreadId) (x : Thread) (m : Team) (va : VAddr) (q : Place) : State :=
  let o : GenObject := .block (m.placeOf t.t) (f.data.toNat / 16)
  let z := (s.stepGens m.core [o]).noteChecked m.core [o]
  (z.setTag m.core (m.kBase + (f.k.toNat + m.scaleGroup t.t)) (some ⟨o, z.gen m.core o⟩)).issueLoad t va q 64
    (useOf f.reuse.toNat f.cls.toNat) (x.words f.data.toNat 16) wordsOfBytes (some (f.data.toNat / 16))

/-- The scale bytes of an ldmx on their way to kE, from where their address leads (R174, R222). -/
def State.ldmxScaleLoad (s : State) (f : LdmxF) (t : ThreadId) (m : Team) (sa : VAddr) (p : Target) : State :=
  let k := m.kBase + (f.k.toNat + m.scaleGroup t.t)
  let u := useOf f.reuse.toNat f.cls.toNat
  match p with
  | .hbm pb => s.issueScaleLoad t sa (.ok pb) (ldmxCount f) u k (ldmxFirst f t.t)
  | .failed e => s.issueScaleLoad t sa (.error e) (ldmxCount f) u k (ldmxFirst f t.t)
  | .window d off => s.issueScaleWindow t sa d off k (ldmxFirst f t.t)

section
variable {f : LdmxF} {s : State} {n : Nat} {g : Group} {t : ThreadId} {x : Thread} {m : Team} (h : Solo s n g t x m (ldmxShape f))
  {va sa : VAddr} (hva : addressOf (arg64 (s.valuesOf (ldmxShape f) t) 0) = va)
  (hsa : addressOf (arg64 (s.valuesOf (ldmxShape f) t) 1) = sa)
include h

theorem ldmx_traps_outside (hk : m.nk ≤ f.k.toNat + m.scaleGroup t.t) : Traps (.ldmx f) s n g t 0x103 [] (s.resumed n) := by
  refine (exec_ldmx f s).trans (runGroup_solo_trap h ?_)
  simp only [State.resumed_teamOf, h.teamOf, State.resumed_thread, h.thread, Team.kregA, Team.kreg_of_le hk]

variable (hk : f.k.toNat + m.scaleGroup t.t < m.nk)
include hva hsa hk

/-- ldmx on a register of the allotment: 0x105 off its boundaries, and otherwise its two accesses, both translated before it has an effect (R174). -/
theorem ldmx_access : ∃ body, exec (.ldmx f) s = runGroup s (ldmxShape f) body
    ∧ body (s.resumed n) t (s.valuesOf (ldmxShape f) t) =
      if va.toNat % 64 ≠ 0 ∨ sa.toNat % ldmxCount f ≠ 0 then .trap 0x105 [] (s.resumed n)
      else (s.resumed n).withMemory t va 64 0x105 needRead fun v q =>
        v.withGlobal t sa (ldmxCount f) 0x105 (needLoad (ldmxCount f)) fun w p => .done ((w.ldmxTagged f t x m va q).ldmxScaleLoad f t m sa p) := by
  refine ⟨_, exec_ldmx f s, ?_⟩
  simp only [State.resumed_teamOf, h.teamOf, State.resumed_thread, h.thread, Team.kregA, Team.kreg_of_lt hk, ldmxScales_eq, hva, hsa]
  rfl

theorem ldmx_traps_misaligned (ha : va.toNat % 64 ≠ 0 ∨ sa.toNat % ldmxCount f ≠ 0) : Traps (.ldmx f) s n g t 0x105 [] (s.resumed n) := by
  obtain ⟨_, hi, hbody⟩ := ldmx_access h hva hsa hk
  exact hi.trans (runGroup_solo_trap h (hbody.trans (if_pos ha)))

variable (ha : va.toNat % 64 = 0) (hb : sa.toNat % ldmxCount f = 0)
include ha hb

theorem ldmx_traps_data {cause : Cause} {u : State} (htr : (s.resumed n).translate m.core.die m.cn needRead va = (.cause cause, u)) :
    Traps (.ldmx f) s n g t cause [va.zeroExtend 64] u := by
  obtain ⟨_, hi, hbody⟩ := ldmx_access h hva hsa hk
  rw [if_neg (by simp [ha, hb]), withMemory_of_cause (s := s.resumed n) h.coreOf h.cnOf ha htr] at hbody
  exact hi.trans (runGroup_solo_trap h hbody)

variable {q : Place} {r : Translation} (hq : q.Given r) {v : State} (htr : (s.resumed n).translate m.core.die m.cn needRead va = (r, v))
include hq htr

theorem ldmx_traps_scales {cause : Cause} {u : State} (htr' : v.translate m.core.die m.cn (needLoad (ldmxCount f)) sa = (.cause cause, u)) :
    Traps (.ldmx f) s n g t cause [sa.zeroExtend 64] u := by
  obtain ⟨_, hi, hbody⟩ := ldmx_access h hva hsa hk
  rw [if_neg (by simp [ha, hb]), withMemory_of_place (s := s.resumed n) h.coreOf h.cnOf ha hq htr,
    withGlobal_of_cause ((translate_coreOf htr t).trans h.coreOf) ((translate_cnOf htr t).trans h.cnOf) hb htr'] at hbody
  exact hi.trans (runGroup_solo_trap h hbody)

theorem ldmx_commits {p : Target} {w : State} (htr' : v.translate m.core.die m.cn (needLoad (ldmxCount f)) sa = (.ok p, w)) :
    Commits (.ldmx f) s n t (ldmxShape f) ((w.ldmxTagged f t x m va q).ldmxScaleLoad f t m sa p) := by
  obtain ⟨_, hi, hbody⟩ := ldmx_access h hva hsa hk
  rw [if_neg (by simp [ha, hb]), withMemory_of_place (s := s.resumed n) h.coreOf h.cnOf ha hq htr,
    withGlobal_of_target ((translate_coreOf htr t).trans h.coreOf) ((translate_cnOf htr t).trans h.cnOf) hb htr'] at hbody
  exact hi.trans (runGroup_solo_done h hbody)

end

/-- Settles O24: kld and kst are one access each (`access_commits`, `access_traps`), ldmx two (`ldmx_access`), and the others are whole-register instructions that their body stops (`traps_of_whole`). -/
theorem scaleMemoryInstructionsExecute : Obligations.ScaleMemoryInstructionsExecute := by
  unfold Obligations.ScaleMemoryInstructionsExecute
  refine ⟨fun s n g t x m => ⟨?_, ?_⟩, fun s n g t x m => ⟨?_, ?_, ?_⟩⟩
  · intro f sh h hk k va ha ends
    have hends {i : Instr} {issued : Place → State → State} {p : Target} {u : State}
        (hq : ∀ q : Place, q.Given (.ok p) → Commits i s n t sh (issued q u)) : ends i issued p u :=
      ⟨fun pa hp => hq _ (hp ▸ .hbm pa), fun e hp => hq _ (hp ▸ .failed e)⟩
    clear_value ends
    refine ⟨fun p u htr => hends fun q hq => ?_, fun hfree p u htr => hends fun q hq => ?_⟩
    · exact kld_commits h hq ha hk htr
    · exact kst_commits h hq ha (by simpa [State.kFree] using ⟨hk, hfree⟩) htr
  · intro f sh h hk k u va sa count at_ ha hb q e pa v hq p w htr'
    obtain ⟨r, hq, htr⟩ := Place.given_of hq
    have hcommit := ldmx_commits h (va := va) (sa := sa) rfl rfl hk ha hb hq htr htr'
    refine ⟨?_, ?_, ?_⟩
    · rintro pb rfl
      exact hcommit
    · rintro e' rfl
      exact hcommit
    · rintro d off rfl
      exact hcommit
  · intro f sh va aux access
    refine ⟨fun h => ⟨kld_traps_outside h, fun hk _ => ?_⟩, fun h => ⟨fun hk => ?_, fun hk hfree => ?_⟩⟩
    · obtain ⟨_, hi, hbody⟩ := kld_access h hk
      exact access_traps h hi hbody
    · exact traps_of_outside h (exec_kst f s) ⟨_, List.mem_singleton_self _, hk⟩
    · obtain ⟨_, hi, hbody⟩ := kst_access h (by simpa [State.kFree] using ⟨hk, hfree⟩)
      exact access_traps h hi hbody
  · intro f sh h name va sa count
    refine ⟨ldmx_traps_outside h, fun hk => ⟨ldmx_traps_misaligned h rfl rfl hk, fun ha hb => ⟨fun cause u htr => ?_, ?_⟩⟩⟩
    · exact ldmx_traps_data h rfl rfl hk ha hb htr
    · rintro pa e v (htr | htr) cause u htr'
      · exact ldmx_traps_scales h rfl rfl hk ha hb (.hbm pa) htr htr'
      · exact ldmx_traps_scales h rfl rfl hk ha hb (.failed e) htr htr'
  · intro f
    refine ⟨fun h hk => ?_, fun h hk => ?_, kbind_none_traps, fun h hfree hv => ?_⟩
    · exact traps_of_whole h (exec_kclr f s) (s.blockOf_plain _ _) (wholeK_of_outside hk)
    · exact traps_of_whole h (exec_ktag f s) (s.blockOf_plain _ _) (wholeK_of_outside hk)
    · exact ⟨kbind_traps_outside h hfree hv, kbind_traps_no_object h hfree hv⟩

end Sys2Proof.Machine
end

section
/-! SUPPORT. The issue of an mma (R159, R184, R202 to R207) by a group of one thread: its waits and its checks, each in its order, and O25 from them. -/

namespace Sys2Proof.Machine

theorem exec_mmaI4x (f : MmaF) (s : State) : exec (.mmaI4x f) s = runMma ⟨.i4x, f⟩ s := rfl
theorem exec_mmaI4 (f : MmaF) (s : State) : exec (.mmaI4 f) s = runMma ⟨.i4, f⟩ s := rfl
theorem exec_mmaI8 (f : MmaF) (s : State) : exec (.mmaI8 f) s = runMma ⟨.i8, f⟩ s := rfl
theorem exec_mmaE4m3 (f : MmaF) (s : State) : exec (.mmaE4m3 f) s = runMma ⟨.e4m3, f⟩ s := rfl
theorem exec_mmaE5m2 (f : MmaF) (s : State) : exec (.mmaE5m2 f) s = runMma ⟨.e5m2, f⟩ s := rfl
theorem exec_mmaE2m1 (f : MmaF) (s : State) : exec (.mmaE2m1 f) s = runMma ⟨.e2m1, f⟩ s := rfl
theorem exec_mmaBf16 (f : MmaF) (s : State) : exec (.mmaBf16 f) s = runMma ⟨.bf16, f⟩ s := rfl

/-! An mma in a group of one thread, by its wait and its checks -/

section
variable {i : Instr} {o : MmaOp} {s : State} {n : Nat} {g : Group} {t : ThreadId} {x : Thread} {m : Team}
  (h : Solo s n g t x m { guard := o.f.g }) (hi : exec i s = runMma o s)
include h hi

/-- The first wait of an mma that has not ended holds its group; otherwise its checks are read, and the mma is formed or their cause is raised (R206). -/
theorem exec_mma_solo :
    let r := s.resumed n
    let noted := r.noteChecked m.core [o.bObject, .block (m.placeOf t.t) o.f.ablk.toNat]
    exec i s = .next ((match r.mmaWait m t.team g.asked o [t.t] with
      | some w => (match w with | .mode _ a q => r.askMode n a q | _ => r).holdGroup n w
      | none => match r.mmaCheck m g.asked.isSome t.t o with
        | none => (((noted.formMma m g o [t.t]).answerMode n m.core o.f.arr.toNat).progress t).markDone n t.t
        | some x => (noted.trapAt t g.clause g.idx x.1 x.2).answerMode n m.core o.f.arr.toNat).passOn n) := by
  have hteam : (s.resumed n).team g.team = some m := h.ofTeam ▸ h.team
  have ht : (⟨t.team, t.t⟩ : ThreadId) = t := rfl
  rw [hi]
  unfold runMma
  rw [runWhole_solo h, hteam]
  simp only [h.ofTeam, reduceCtorEq, if_false]
  cases (s.resumed n).mmaWait m t.team g.asked o [t.t] with
  | some w => cases w <;> rfl
  | none => cases hc : (s.resumed n).mmaCheck m g.asked.isSome t.t o <;> simp [hc, State.trapIn, h.ofTeam, ht]

theorem mma_waits {w : Hold} (hw : (s.resumed n).mmaWait m t.team g.asked o [t.t] = some w) (hmode : ∀ c a q, w ≠ .mode c a q) :
    Waits i s n w (s.resumed n) := by
  refine (exec_mma_solo h hi).trans ?_
  rw [hw]
  cases w with
  | mode c a q => exact absurd rfl (hmode c a q)
  | _ => rfl

theorem mma_waits_for_mode {c : CoreId} {a q : Nat} (hw : (s.resumed n).mmaWait m t.team g.asked o [t.t] = some (.mode c a q)) :
    Waits i s n (.mode c a q) ((s.resumed n).askMode n a q) := by
  refine (exec_mma_solo h hi).trans ?_
  rw [hw]

variable (hw : (s.resumed n).mmaWait m t.team g.asked o [t.t] = none)
include hw

/-- An mma whose waits have ended and whose checks pass issues (R206). -/
theorem mma_issues (hc : (s.resumed n).mmaCheck m g.asked.isSome t.t o = none) :
    exec i s = .next ((((((s.resumed n).noteChecked m.core [o.bObject, .block (m.placeOf t.t) o.f.ablk.toNat]).formMma m g o [t.t]).answerMode
      n m.core o.f.arr.toNat).progress t).markDone n t.t |>.passOn n) := by
  refine (exec_mma_solo h hi).trans ?_
  rw [hw, hc]

/-- An mma whose waits have ended raises the cause of its checks, and does nothing else (R206). -/
theorem mma_traps {cause : Cause} {aux : List DWord} (hc : (s.resumed n).mmaCheck m g.asked.isSome t.t o = some (cause, aux)) :
    exec i s = .next (((((s.resumed n).noteChecked m.core [o.bObject, .block (m.placeOf t.t) o.f.ablk.toNat]).trapAt
      t g.clause g.idx cause aux).answerMode n m.core o.f.arr.toNat).passOn n) := by
  refine (exec_mma_solo h hi).trans ?_
  rw [hw, hc]

end

/-! The scale registers of an mma (R153, R202) -/

/-- Whether the scale registers that an mma of a thread names lie in the allotment (R153). -/
def MmaOp.Named (o : MmaOp) (m : Team) (t : Nat) : Prop := o.f.ka.toNat + m.scaleGroup t < m.nk ∧ ∀ k ∈ o.bNames, k < m.nk

/-- The A-scale register of an mma of a thread. -/
def MmaOp.aReg (o : MmaOp) (m : Team) (t : Nat) : Nat := m.kBase + o.f.ka.toNat + m.scaleGroup t

theorem MmaOp.bNames_eq (o : MmaOp) : o.bNames = (List.range (if o.format.four then 4 else 1)).map fun k => o.f.kb.toNat + k := by
  unfold MmaOp.bNames
  cases o.format.four <;> rfl

theorem MmaOp.reserved_eq (o : MmaOp) : o.reserved = (o.f.rep == 3 || (!o.f.c4 && o.f.rep == 2)
    || (o.format.four && (o.f.half || o.f.ch || o.f.bsel)) || (o.f.seg && o.format != .bf16)) := by
  have h (k : BitVec 2) : (o.f.rep.toNat == k.toNat) = (o.f.rep == k) := by
    rw [Bool.eq_iff_iff, beq_iff_eq, beq_iff_eq]
    exact BitVec.toNat_inj
  have h2 : (o.f.rep.toNat == 2) = (o.f.rep == 2) := h 2
  have h3 : (o.f.rep.toNat == 3) = (o.f.rep == 3) := h 3
  simp only [MmaOp.reserved, h2, h3]

theorem Team.filterMap_kreg_of_lt {m : Team} {ks : List Nat} (h : ∀ k ∈ ks, k < m.nk) : ks.filterMap m.kreg = ks.map (m.kBase + ·) := by
  induction ks with
  | nil => rfl
  | cons k ks ih =>
    rw [List.filterMap_cons_some (Team.kreg_of_lt (h k List.mem_cons_self)), ih fun j hj => h j (List.mem_cons_of_mem _ hj), List.map_cons]

section
variable {s : State} {m : Team} {team t : Nat} {o : MmaOp}

theorem MmaOp.Named.kregA (hn : o.Named m t) : m.kregA t o.f.ka.toNat = some (o.aReg m t) := by
  unfold Team.kregA MmaOp.aReg
  rw [Team.kreg_of_lt hn.1, Nat.add_assoc]

/-! The waits of an mma, in their order (R206) -/

section
variable {asked : Option Asked}

theorem mmaWait_of_request {q : Nat} (hq : s.mmaRequest m asked o.f.arr.toNat = some q) (active : List Nat) :
    s.mmaWait m team asked o active = some (.mode m.core o.f.arr.toNat q) := by
  simp only [State.mmaWait, hq]

variable (hq : s.mmaRequest m asked o.f.arr.toNat = none) (hn : o.Named m t)
include hq hn

theorem mmaWait_of_inFlight (hf : s.kInFlight m.core (o.aReg m t) = true ∨ ∃ k ∈ o.bNames, s.kInFlight m.core (m.kBase + k) = true) :
    ∃ ks, s.mmaWait m team asked o [t] = some (.kregs m.core ks) := by
  have hany : ([o.aReg m t] ++ o.bNames.map (m.kBase + ·)).any (s.kInFlight m.core) = true := by simpa using hf
  simp only [State.mmaWait, hq, List.filterMap_cons, List.filterMap_nil, hn.kregA, Team.filterMap_kreg_of_lt hn.2, hany, if_true]
  exact ⟨_, rfl⟩

variable (hf : ¬ (s.kInFlight m.core (o.aReg m t) = true ∨ ∃ k ∈ o.bNames, s.kInFlight m.core (m.kBase + k) = true))
  {x : Thread} (hx : s.thread ⟨team, t⟩ = some x)
include hf hx

/-- The waits of an mma whose scale registers are free: its A registers where it cannot use the latch, then room in its array. -/
theorem mmaWait_of_free : s.mmaWait m team asked o [t] =
    if (s.latchFor m t o).isSome = true ∨ x.fullRange (16 * o.f.ablk.toNat) 16 = true then
      (if m.inField o.f.arr.toNat = false ∨ (s.array m.core o.f.arr.toNat).mmas.length < 4 then none
        else some (.array m.core o.f.arr.toNat))
    else some (.words ⟨team, t⟩ (x.words (16 * o.f.ablk.toNat) 16)) := by
  have hany : ([o.aReg m t] ++ o.bNames.map (m.kBase + ·)).any (s.kInFlight m.core) = false := by simpa using hf
  simp only [State.mmaWait, hq, List.filterMap_cons, List.filterMap_nil, hn.kregA, Team.filterMap_kreg_of_lt hn.2, hany, Bool.false_eq_true, if_false,
    List.findSome?_cons, List.findSome?_nil, hx]
  have hroom : (m.inField o.f.arr.toNat && decide (4 ≤ (s.array m.core o.f.arr.toNat).mmas.length)) = true
      ↔ ¬ (m.inField o.f.arr.toNat = false ∨ (s.array m.core o.f.arr.toNat).mmas.length < 4) := by simp
  simp only [hroom, ite_not]
  cases (s.latchFor m t o).isSome <;> cases x.fullRange (16 * o.f.ablk.toNat) 16 <;> simp

end

/-! The checks of an mma, in their order (R159, R206) -/

/-- The tag that the A-scale register of an mma of a thread must hold: its block, at the generation of the latch entry that it uses (R159, R207). -/
def State.wantA (s : State) (m : Team) (t : Nat) (o : MmaOp) : Tag :=
  ⟨.block (m.placeOf t) o.f.ablk.toNat, ((s.latchFor m t o).map Latch.gen).getD (s.gen m.core (.block (m.placeOf t) o.f.ablk.toNat))⟩

/-- The tag that the B-scale registers of an mma must hold (R159). -/
def State.wantB (s : State) (m : Team) (o : MmaOp) : Tag := ⟨o.bObject, s.gen m.core o.bObject⟩

/-- The auxiliary words of a stale tag: the register, the tag that it holds and the tag wanted (R159). -/
def State.staleAux (s : State) (m : Team) (k : Nat) (want : Tag) : List DWord :=
  [BitVec.ofNat 64 k, (tagBits m (s.tagOf m.core k)).zeroExtend 64, (tagBits m (some want)).zeroExtend 64]

/-- Whether the format records of an array hold an mma's format: both of them for a 4-bit form, otherwise that of its half (R206). -/
def State.Recorded (s : State) (m : Team) (o : MmaOp) : Prop :=
  let x := s.array m.core o.f.arr.toNat
  if o.format.four = true then x.fmt0 = some o.format ∧ x.fmt1 = some o.format
  else (if o.f.half = true then x.fmt1 else x.fmt0) = some o.format

theorem State.not_recorded_iff : ¬ s.Recorded m o ↔
    if o.format.four = true then
      (s.array m.core o.f.arr.toNat).fmt0 ≠ some o.format ∨ (s.array m.core o.f.arr.toNat).fmt1 ≠ some o.format
    else (if o.half = 0 then (s.array m.core o.f.arr.toNat).fmt0 else (s.array m.core o.f.arr.toNat).fmt1) ≠ some o.format := by
  unfold State.Recorded MmaOp.half
  cases o.format.four with
  | true => exact Classical.not_and_iff_not_or_not
  | false => cases o.f.half <;> exact Iff.rfl

/-- The checks of an mma of a thread that follow those of its array: its row, then its tags (R159, R206). -/
def State.rowCheck (s : State) (m : Team) (t : Nat) (o : MmaOp) : Option (Cause × List DWord) :=
  let w := m.window (homeGroupOf t)
  if w.2 ≤ w.1 + laneOf t then some (0x10E, [])
  else match s.tagCheck m (o.aReg m t) (s.wantA m t o) with
    | some aux => some (0x101, aux)
    | none => match (o.bNames.map (m.kBase + ·)).findSome? fun k => s.tagCheck m k (s.wantB m o) with
      | some aux => some (0x102, aux)
      | none => none

theorem tagCheck_of_held {k : Nat} {want : Tag} (h : s.tagOf m.core k = some want) : s.tagCheck m k want = none := if_pos h

theorem tagCheck_of_stale {k : Nat} {want : Tag} (h : s.tagOf m.core k ≠ some want) : s.tagCheck m k want = some (s.staleAux m k want) :=
  if_neg h

theorem findSome?_tagCheck (ks : List Nat) (want : Tag) :
    (ks.findSome? fun k => s.tagCheck m k want) = (ks.find? fun k => s.tagOf m.core k != some want).map fun k => s.staleAux m k want := by
  induction ks with
  | nil => rfl
  | cons k ks ih =>
    by_cases hk : s.tagOf m.core k = some want
    · simp [tagCheck_of_held hk, hk, ih]
    · simp [tagCheck_of_stale hk, hk]

section
variable {granted : Bool}

/-- An array may take an mma that has been held for its request, and one that sees compute mode in the field role (R184, R206). -/
theorem mmaRefused_iff {mine sees : Bool} : (!granted && (!mine || !sees)) = true ↔ ¬ (granted = true ∨ (mine = true ∧ sees = true)) := by
  cases granted <;> cases mine <;> simp

theorem mmaCheck_of_reserved (hr : o.reserved = true) : s.mmaCheck m granted t o = some (0x100, []) := if_pos hr

variable (hr : o.reserved = false)
include hr

theorem mmaCheck_of_outside (hn : ¬ o.Named m t) : s.mmaCheck m granted t o = some (0x103, []) := by
  simp only [State.mmaCheck, hr, Bool.false_eq_true, if_false]
  obtain hA | hA := Nat.lt_or_ge (o.f.ka.toNat + m.scaleGroup t) m.nk
  · have hB : ∃ k ∈ o.bNames, m.nk ≤ k := by simpa [MmaOp.Named, hA] using hn
    rw [Team.mapM_kreg_of_le hB]
    cases m.kregA t o.f.ka.toNat <;> rfl
  · have hA : m.kregA t o.f.ka.toNat = none := Team.kreg_of_le hA
    rw [hA]

variable (hn : o.Named m t)
include hn

theorem mmaCheck_of_refused (hmode : ¬ (granted = true ∨ (m.inField o.f.arr.toNat = true ∧ (s.array m.core o.f.arr.toNat).sees = true))) :
    s.mmaCheck m granted t o = some (0x10C, []) := by
  simp only [State.mmaCheck, hr, Bool.false_eq_true, if_false, hn.kregA, Team.mapM_kreg_of_lt hn.2, if_pos (mmaRefused_iff.mpr hmode)]

variable (hmode : granted = true ∨ (m.inField o.f.arr.toNat = true ∧ (s.array m.core o.f.arr.toNat).sees = true))
include hmode

theorem mmaCheck_of_format (hrec : ¬ s.Recorded m o) : s.mmaCheck m granted t o = some (0x10D, []) := by
  simp only [State.mmaCheck, hr, Bool.false_eq_true, if_false, hn.kregA, Team.mapM_kreg_of_lt hn.2, if_neg fun h => mmaRefused_iff.mp h hmode]
  exact if_pos (s.not_recorded_iff.mp hrec)

/-- An mma whose array may take it is left to the checks of its row (R206). -/
theorem mmaCheck_of_recorded (hrec : s.Recorded m o) : s.mmaCheck m granted t o = s.rowCheck m t o := by
  simp only [State.mmaCheck, hr, Bool.false_eq_true, if_false, hn.kregA, Team.mapM_kreg_of_lt hn.2, if_neg fun h => mmaRefused_iff.mp h hmode]
  exact if_neg fun h => s.not_recorded_iff.mpr h hrec

end

/-! The checks of a row -/

theorem rowCheck_of_window (hrow : (m.window (homeGroupOf t)).2 ≤ (m.window (homeGroupOf t)).1 + laneOf t) :
    s.rowCheck m t o = some (0x10E, []) := if_pos hrow

variable (hrow : (m.window (homeGroupOf t)).1 + laneOf t < (m.window (homeGroupOf t)).2)
include hrow

theorem rowCheck_of_staleA (hA : s.tagOf m.core (o.aReg m t) ≠ some (s.wantA m t o)) :
    s.rowCheck m t o = some (0x101, s.staleAux m (o.aReg m t) (s.wantA m t o)) := by
  simp only [State.rowCheck, if_neg (Nat.not_le.mpr hrow), tagCheck_of_stale hA]

variable (hA : s.tagOf m.core (o.aReg m t) = some (s.wantA m t o))
include hA

theorem rowCheck_of_staleB {k : Nat} (hB : ((o.bNames.map (m.kBase + ·)).find? fun k => s.tagOf m.core k != some (s.wantB m o)) = some k) :
    s.rowCheck m t o = some (0x102, s.staleAux m k (s.wantB m o)) := by
  simp only [State.rowCheck, if_neg (Nat.not_le.mpr hrow), tagCheck_of_held hA, findSome?_tagCheck, hB, Option.map_some]

theorem rowCheck_of_fresh (hB : ∀ k ∈ o.bNames, s.tagOf m.core (m.kBase + k) = some (s.wantB m o)) : s.rowCheck m t o = none := by
  have hB : ((o.bNames.map (m.kBase + ·)).find? fun k => s.tagOf m.core k != some (s.wantB m o)) = none := by simpa using hB
  simp only [State.rowCheck, if_neg (Nat.not_le.mpr hrow), tagCheck_of_held hA, findSome?_tagCheck, hB, Option.map_none]

end

/-- Settles O25: an mma by its waits and checks is `mma_waits`, `mma_traps` and `mma_issues`; the waits in their order are those of `mmaWait_of_free`, and the checks those of the lemmas on `mmaCheck` and `rowCheck`. -/
theorem matrixMultiplyIssuesOrTraps : Obligations.MatrixMultiplyIssuesOrTraps := by
  unfold Obligations.MatrixMultiplyIssuesOrTraps
  refine ⟨fun f s n g t x m h => ?_, fun f s n g t x m h => ?_⟩
  · intro r issues
    have hissues {i : Instr} {fmt : TileFormat} (hi : exec i s = runMma ⟨fmt, f⟩ s) : issues i fmt := fun hw hc => mma_issues h hi hw hc
    clear_value issues
    exact ⟨hissues (exec_mmaI4x f s), hissues (exec_mmaI4 f s), hissues (exec_mmaI8 f s), hissues (exec_mmaE4m3 f s),
      hissues (exec_mmaE5m2 f s), hissues (exec_mmaE2m1 f s), hissues (exec_mmaBf16 f s)⟩
  · intro r c a ar traps
    have htraps {i : Instr} {fmt : TileFormat} (hi : exec i s = runMma ⟨fmt, f⟩ s) : traps i fmt := by
      unfold traps
      intro o four reserved ka kbs named latch asked inFlight ready room stops record recorded win block object wantA wantB stale
      have hstops {cause : Cause} {aux : List DWord} (hw : r.mmaWait m t.team g.asked o [t.t] = none)
          (hc : r.mmaCheck m g.asked.isSome t.t o = some (cause, aux)) : stops cause aux := mma_traps h hi hw hc
      have hkbs : kbs = o.bNames := o.bNames_eq.symm
      have hres : o.reserved = reserved := o.reserved_eq
      have hasked : asked = r.mmaRequest m g.asked o.f.arr.toNat := by
        unfold asked State.mmaRequest
        cases g.asked <;> rfl
      clear_value kbs reserved asked stops
      subst hkbs hres hasked
      refine ⟨fun q hq => mma_waits_for_mode h hi (mmaWait_of_request hq _), fun hq hn hf => ?_, fun hq hn hf => ?_, fun hn hw => ?_⟩
      · obtain ⟨ks, hw⟩ := mmaWait_of_inFlight (s := r) (team := t.team) hq hn hf
        exact ⟨_, mma_waits h hi hw (by simp), ks, rfl⟩
      · have hwait := mmaWait_of_free (s := r) (team := t.team) hq hn hf h.thread
        refine ⟨fun hready => ?_, fun hready hroom => ?_, fun hready hroom => ?_⟩
        · exact mma_waits h hi (hwait.trans (if_neg hready)) (by simp)
        · exact mma_waits h hi (hwait.trans ((if_pos hready).trans (if_neg hroom))) (by simp)
        · have hgo := hwait.trans ((if_pos hready).trans (if_pos hroom))
          refine ⟨fun hr => hstops hgo (mmaCheck_of_reserved hr), fun hr => ⟨fun hg hmode => ?_, fun hmode => ?_⟩⟩
          · have hmode : ¬ (g.asked.isSome = true ∨ (m.inField a = true ∧ ar.sees = true)) := by
              rintro (h | ⟨hin, hsees⟩)
              · simp only [hg, Option.isSome_none, Bool.false_eq_true] at h
              · exact hmode.elim (fun h => Bool.false_ne_true (h.symm.trans hin)) fun h => Bool.false_ne_true (h.symm.trans hsees)
            exact hstops hgo (mmaCheck_of_refused hr hn hmode)
          · have hmode : g.asked.isSome = true ∨ (m.inField a = true ∧ ar.sees = true) :=
              hmode.imp_left Option.isSome_iff_ne_none.mpr
            refine ⟨fun hrec => hstops hgo (mmaCheck_of_format (s := r) hr hn hmode hrec), fun hrec => ?_⟩
            have hcheck := mmaCheck_of_recorded (s := r) hr hn hmode hrec
            refine ⟨fun hrow => hstops hgo (hcheck.trans (rowCheck_of_window hrow)), fun hrow => ⟨fun hA => ?_, fun hA => ⟨fun k hB => ?_, fun hB => ?_⟩⟩⟩
            · exact hstops hgo (hcheck.trans (rowCheck_of_staleA (s := r) (o := o) hrow hA))
            · exact hstops hgo (hcheck.trans (rowCheck_of_staleB (s := r) (o := o) hrow hA hB))
            · exact ⟨hgo, hcheck.trans (rowCheck_of_fresh (s := r) (o := o) hrow hA hB)⟩
      · cases hr : o.reserved
        · exact hstops hw (mmaCheck_of_outside hr hn)
        · exact hstops hw (mmaCheck_of_reserved hr)
    clear_value traps
    exact ⟨htraps (exec_mmaI4x f s), htraps (exec_mmaI4 f s), htraps (exec_mmaI8 f s), htraps (exec_mmaE4m3 f s),
      htraps (exec_mmaE5m2 f s), htraps (exec_mmaE2m1 f s), htraps (exec_mmaBf16 f s)⟩

end Sys2Proof.Machine
end

section
/-! SUPPORT. The effects on accumulator rows (R156, R159, R200, R208, R213 to R216): what keeps the accumulator of a core, and each effect as it is performed; O29 from them. -/

namespace Sys2Proof.Machine

theorem exec_mmaUpdate (c : CoreId) (a : Nat) (s : State) : exec (.mmaUpdate c a) s = execMmaUpdate c a s := rfl
theorem exec_accumulatorAccessPerformed (c : CoreId) (n : Nat) (s : State) :
    exec (.accumulatorAccessPerformed c n) s = execAccumulatorAccessPerformed c n s := rfl

/-! Events that step no generation which a check of the same clk has read (R156, R159) -/

/-- Whether no check has read a generation in this clk, on any core. -/
def State.Unchecked (s : State) : Prop := ∀ e ∈ s.cores, e.2.checked = []

theorem Table.mem_of_mem_put {κ ν : Type} [DecidableEq κ] {t : Table κ ν} {k : κ} {v : ν} {e : κ × ν} (h : e ∈ Table.put t k v) :
    e = (k, v) ∨ e ∈ t := by
  induction t with
  | nil => exact .inl (by simpa [Table.put] using h)
  | cons d t ih =>
    obtain ⟨j, w⟩ := d
    unfold Table.put at h
    split at h
    · exact (List.mem_cons.mp h).imp_right (List.mem_cons_of_mem _)
    · obtain rfl | h := List.mem_cons.mp h
      · exact .inr (by simp)
      · exact (ih h).imp_right (List.mem_cons_of_mem _)

theorem Table.mem_of_find {κ ν : Type} [DecidableEq κ] {t : Table κ ν} {k : κ} {v : ν} (h : Table.find t k = some v) : (k, v) ∈ t := by
  induction t with
  | nil => cases h
  | cons d t ih =>
    obtain ⟨j, w⟩ := d
    unfold Table.find at h
    split at h
    · rename_i hj
      obtain rfl := Option.some.inj h
      simp [hj]
    · exact List.mem_cons_of_mem _ (ih h)

theorem stepGen_checked (k : Core) (o : GenObject) : (stepGen k o).checked = k.checked := by
  unfold stepGen
  split <;> rfl

theorem foldl_stepGen_checked (os : List GenObject) (k : Core) : (os.foldl stepGen k).checked = k.checked := by
  induction os generalizing k with
  | nil => rfl
  | cons o os ih => exact (ih (stepGen k o)).trans (stepGen_checked k o)

namespace State.Unchecked
variable {s u : State} (h : s.Unchecked)
include h

theorem core (c : CoreId) : (s.core c).checked = [] := by
  unfold State.core Table.findD
  cases hf : Table.find s.cores c with
  | none => rfl
  | some x => exact h _ (Table.mem_of_find hf)

theorem of_cores (hu : u.cores = s.cores) : u.Unchecked := by
  unfold State.Unchecked
  rw [hu]
  exact h

theorem alterCore {c : CoreId} {f : Core → Core} (hf : (f (s.core c)).checked = (s.core c).checked) : (s.alterCore c f).Unchecked := by
  intro e he
  obtain rfl | he := Table.mem_of_mem_put he
  · exact hf.trans (h.core c)
  · exact h e he

theorem stepGens (c : CoreId) (os : List GenObject) : (s.stepGens c os).Unchecked := by
  unfold State.stepGens
  split
  · exact h
  · exact h.alterCore (foldl_stepGen_checked os _)

theorem clash : s.clash = false := by
  simp only [State.clash, List.any_eq_false]
  intro e he
  simp [h e he]

end State.Unchecked

theorem orLater_of_unchecked (s : State) {u : State} (h : u.Unchecked) : s.orLater u = u := by
  unfold State.orLater
  rw [h.clash]
  rfl

/-! What keeps the accumulator of a core, and memory -/

/-- The accumulator of a core and memory are as they were. -/
structure KeepsAcc (c : CoreId) (s u : State) : Prop where
  acc : (u.core c).acc = (s.core c).acc
  mem : u.mem = s.mem

theorem KeepsAcc.refl (c : CoreId) (s : State) : KeepsAcc c s s := ⟨rfl, rfl⟩

theorem KeepsAcc.trans {c : CoreId} {s u v : State} (h : KeepsAcc c s u) (h' : KeepsAcc c u v) : KeepsAcc c s v :=
  ⟨h'.acc.trans h.acc, h'.mem.trans h.mem⟩

theorem KeepsAcc.foldl {α : Type} {c : CoreId} {f : State → α → State} (hf : ∀ u a, KeepsAcc c u (f u a)) (l : List α) (s : State) :
    KeepsAcc c s (l.foldl f s) := by
  induction l generalizing s with
  | nil => exact KeepsAcc.refl c s
  | cons a l ih => exact (hf s a).trans (ih (f s a))

theorem KeepsAcc.alterCore {c : CoreId} (s : State) (d : CoreId) {f : Core → Core} (hf : (f (s.core d)).acc = (s.core d).acc) :
    KeepsAcc c s (s.alterCore d f) := by
  refine ⟨?_, rfl⟩
  rw [State.alterCore_core]
  split
  · rename_i h
    rw [h, hf]
  · rfl

theorem Quiet.keepsAcc {s u : State} (h : Quiet s u) (c : CoreId) : KeepsAcc c s u := by
  obtain ⟨_, _, _, _, _, _, hc⟩ := h.2 c
  exact ⟨by rw [hc], h.mem⟩

theorem writeRegs_quiet (s : State) (t : ThreadId) (rs : List (Nat × Word)) : Quiet s (s.writeRegs t rs) := by
  unfold State.writeRegs
  split
  · exact (Quiet.alterThread _ _ _).trans (stepGens_coreOnly _ _ _).quiet
  · exact Quiet.refl s

theorem passOn_quiet (s : State) (n : Nat) : Quiet s (s.passOn n) := by
  obtain h | ⟨_, -, hp⟩ := passOn_cases s n
  · rw [h]
    exact Quiet.refl s
  · exact hp.quiet

theorem finish_quiet (s : State) (t : ThreadId) : Quiet s (s.finish t) := by
  unfold State.finish
  split
  · exact (Quiet.alterGroup _ _ _).trans (passOn_quiet _ _)
  · exact Quiet.refl s

theorem lateError_keepsAcc (c : CoreId) (s : State) (d : CoreId) : KeepsAcc c s (s.lateError d) := by
  have hcount := (count_coreOnly (s.machineCheck d.die 7) d 0x0E 1 Name.none false).quiet.keepsAcc c
  unfold State.lateError State.reportNone
  generalize (s.machineCheck d.die 7).count d 0x0E 1 Name.none false = u at hcount ⊢
  exact ⟨hcount.acc, hcount.mem⟩

theorem defer_keepsAcc (c : CoreId) (s : State) (t : ThreadId) (tr : Trap) : KeepsAcc c s (s.defer t tr) := by
  unfold State.defer
  split
  · split
    · split
      · exact lateError_keepsAcc c s _
      · exact KeepsAcc.refl c s
    · split
      · exact KeepsAcc.refl c s
      · exact (Quiet.alterThread _ _ _).keepsAcc c
  · exact KeepsAcc.refl c s

/-- An ANALOG event keeps every accumulator, and memory (R43, R211). -/
theorem analogEvent_keepsAcc (c : CoreId) (s : State) (team : Nat) (pc : VAddr) (t : Option Nat) : KeepsAcc c s (s.analogEvent team pc t) := by
  have hcount : KeepsAcc c s ((s.alterTeam team fun x => { x with analog := true }).countFor ⟨team, t.getD 0⟩ 0x0B 1) :=
    ((Quiet.alterTeam _ _ _).trans (countFor_coreOnly _ _ _ _).quiet).keepsAcc c
  unfold State.analogEvent
  dsimp only
  split
  · split
    · exact hcount.trans (defer_keepsAcc _ _ _ _)
    · exact hcount
  · exact hcount

/-- The groups that mstat.wait holds go on, and every accumulator and memory stay as they were (R218). -/
theorem wakeUpdates_keepsAcc (c : CoreId) (s : State) : KeepsAcc c s s.wakeUpdates := by
  unfold State.wakeUpdates
  refine KeepsAcc.foldl (fun u e => ?_) _ _
  split
  · split
    · exact KeepsAcc.refl c u
    · refine KeepsAcc.foldl (fun v t => ?_) _ _
      dsimp only
      split
      · exact ((writeRegs_quiet _ _ _).trans (finish_quiet _ _)).keepsAcc c
      · exact (finish_quiet _ _).keepsAcc c
  · exact KeepsAcc.refl c u

/-! The update of an mma (R208) -/

theorem foldl_rows_acc (m : Mma) (x : Tile) (rows : List MmaRow) (acc : Sparse 32) (fell : List (Nat × Bool)) :
    (rows.foldl (fun (a : Sparse 32 × List (Nat × Bool)) row => ((m.rowUpdate x a.1 row).1, a.2 ++ [(row.lane, (m.rowUpdate x a.1 row).2)]))
      (acc, fell)).1 = rows.foldl (fun acc r => (m.rowUpdate x acc r).1) acc := by
  induction rows generalizing acc fell with
  | nil => rfl
  | cons r rows ih => exact ih _ _

/-- An update changes the accumulator of its core row by row, and no byte of memory (R208). -/
theorem updateMma_acc (s : State) (c : CoreId) (m : Mma) :
    ((s.updateMma c m).core c).acc = m.rows.foldl (fun acc r => (m.rowUpdate ⟨(s.array c m.array).cells, (s.array c m.array).outliers,
      (s.array c m.array).sidecars, (s.array c m.array).odd⟩ acc r).1) (s.core c).acc ∧ (s.updateMma c m).mem = s.mem := by
  unfold State.updateMma
  dsimp only
  have hevents : ∀ (u : State) (fell : List (Nat × Bool)), KeepsAcc c u ((List.range 32).foldl (fun (s : State) l =>
      if (m.miscompares l || fell.any fun e => e.1 == l && e.2) = true then
        s.analogEvent m.team m.pc ((m.rows.find? fun row => row.lane == l).map MmaRow.t) else s) u) := by
    intro u fell
    refine KeepsAcc.foldl (fun v l => ?_) _ _
    split
    · exact analogEvent_keepsAcc c v _ _ _
    · exact KeepsAcc.refl c v
  refine ⟨(hevents _ _).acc.trans ?_, (hevents _ _).mem⟩
  rw [State.alterCore_core, if_pos rfl]
  exact foldl_rows_acc m _ m.rows _ []

/-! An access performed (R213 to R216) -/

theorem Sparse.get_foldl_alter {w : Nat} (first : Nat) (f : Nat → BitVec w → BitVec w) (m : Sparse w) (n key : Nat) :
    ((List.range n).foldl (fun m i => m.set (first + i) (f i (m.get (first + i)))) m).get key =
      if first ≤ key ∧ key < first + n then f (key - first) (m.get key) else m.get key := by
  induction n with
  | zero => exact (if_neg (by omega)).symm
  | succ n ih =>
    rw [List.range_succ, List.foldl_append, List.foldl_cons, List.foldl_nil, Sparse.get_set]
    by_cases hlast : key = first + n
    · subst hlast
      rw [if_pos rfl, ih, if_neg (by omega), if_pos (by omega), Nat.add_sub_cancel_left]
    · rw [if_neg hlast, ih]
      by_cases hin : first ≤ key ∧ key < first + n
      · rw [if_pos hin, if_pos (by omega)]
      · rw [if_neg hin, if_neg (by omega)]

/-- The state in which an effect on accumulator rows is performed: it has left the order of effects (R200). -/
def State.dequeued (s : State) (c : CoreId) (n : Nat) : State := s.alterCore c fun k => { k with accq := Table.drop k.accq n }

section
variable {s : State} {c : CoreId} {n : Nat} (hfirst : accFirst (s.core c).accq n = true)
include hfirst

theorem accessPerformed_of_read {t : ThreadId} {row col type regs rnd : Nat} {scale : Option Word} {dest : List Nat}
    (hfind : Table.find (s.core c).accq n = some (.read t row col type regs rnd scale dest)) :
    exec (.accumulatorAccessPerformed c n) s =
      .next (s.orLater ((s.dequeued c n).performAcc c (.read t row col type regs rnd scale dest))) := by
  rw [exec_accumulatorAccessPerformed]
  simp only [execAccumulatorAccessPerformed, hfind, hfirst, if_true]
  rfl

theorem accessPerformed_of_write {team row col : Nat} {vals : List Word} {add : Bool}
    (hfind : Table.find (s.core c).accq n = some (.write team row col vals add)) :
    exec (.accumulatorAccessPerformed c n) s = .next ((s.dequeued c n).performAcc c (.write team row col vals add)) := by
  rw [exec_accumulatorAccessPerformed]
  simp only [execAccumulatorAccessPerformed, hfind, hfirst, if_true]
  rfl

theorem accessPerformed_of_store {t : ThreadId} {row col type regs rnd : Nat} {scale : Option Word} {va : VAddr} {pa : Nat} {pc : VAddr}
    (hfind : Table.find (s.core c).accq n = some (.store t row col type regs rnd scale va pa pc)) :
    exec (.accumulatorAccessPerformed c n) s =
      .next ((s.dequeued c n).performAcc c (.store t row col type regs rnd scale va pa pc)) := by
  rw [exec_accumulatorAccessPerformed]
  simp only [execAccumulatorAccessPerformed, hfind, hfirst, if_true]
  rfl

end

/-- A write changes its columns of its row, by the old words where it adds, and no other word of the accumulator (R214, R216). -/
theorem performAcc_write_get (s : State) (c : CoreId) (team row col : Nat) (vals : List Word) (add : Bool) (key : Nat) :
    ((s.performAcc c (.write team row col vals add)).core c).acc.get key =
      if 256 * row + col ≤ key ∧ key < 256 * row + col + vals.length then
        if add then round32 .rne (addNum .rne (valF32 ((s.core c).acc.get key)) (valF32 (vals.getD (key - (256 * row + col)) 0)))
        else vals.getD (key - (256 * row + col)) 0
      else (s.core c).acc.get key := by
  unfold State.performAcc
  rw [State.alterCore_core, if_pos rfl]
  exact Sparse.get_foldl_alter (256 * row + col)
    (fun i old => if add then round32 .rne (addNum .rne (valF32 old) (valF32 (vals.getD i 0))) else vals.getD i 0) _ _ key

/-- What an acrd leaves: its registers written and full in its thread while that lives, and nothing else of threads, accumulators and memory (R90, R213). -/
structure AccRead (c : CoreId) (s u : State) (t : ThreadId) (x : Thread) (ws : List (Nat × Word)) : Prop where
  own       : u.thread t = some (if x.gone = true then x else x.fill ws)
  others    : ∀ id, id ≠ t → u.thread id = s.thread id
  keeps     : KeepsAcc c s u
  unchecked : s.Unchecked → u.Unchecked

theorem performAcc_read (c : CoreId) {s : State} {t : ThreadId} {x : Thread} (hx : s.thread t = some x) (row col type regs rnd : Nat)
    (scale : Option Word) (dest : List Nat) : AccRead c s (s.performAcc c (.read t row col type regs rnd scale dest)) t x
      (dest.zip (wordsOfBytes (s.accBytes c row col type regs rnd scale))) := by
  unfold State.performAcc State.alive
  cases hgone : x.gone
  · have hcore (ws : List (Nat × Word)) := stepGens_coreOnly (s.alterThread t fun x => x.fill ws) (s.coreOf t) (s.blocksOf t (ws.map Prod.fst))
    simp only [hx, hgone, Option.map_some, Option.getD_some, Bool.not_false, if_true, State.fillWords]
    refine ⟨?_, fun id hid => ?_, ((Quiet.alterThread _ _ _).trans (hcore _).quiet).keepsAcc c, fun h => (h.of_cores (u := s.alterThread t _) rfl).stepGens _ _⟩
    · simp [(hcore _).thread, hx, hgone]
    · simp [(hcore _).thread, hid]
  · simp only [hx, hgone, Option.map_some, Option.getD_some, Bool.not_true, Bool.false_eq_true, if_false]
    exact ⟨hx.trans (by rw [if_pos hgone]), fun _ _ => rfl, KeepsAcc.refl c s, id⟩

/-- Settles O29: the update by `updateMma_acc` and `wakeUpdates_keepsAcc`, a read by `performAcc_read`, a write by `performAcc_write_get`. -/
theorem accumulatorEffectsTakePlaceInOrder : Obligations.AccumulatorEffectsTakePlaceInOrder := by
  unfold Obligations.AccumulatorEffectsTakePlaceInOrder
  refine fun s c => ⟨fun a m hm => ?_, fun n team row col vals add hfirst hfind => ?_,
    fun n t x row col type regs rnd scale dest hfirst hx hfind => ?_, fun n t row col type regs rnd scale va pa pc hfirst hfind => ?_⟩
  · intro u ar
    have hexec : exec (.mmaUpdate c a) s = .next (s.orLater u) := by
      rw [exec_mmaUpdate]
      simp only [execMmaUpdate, hm]
      rfl
    have hkeeps : KeepsAcc c (s.updateMma c m) u := by
      unfold u State.alterArray State.setArray
      exact ((KeepsAcc.alterCore _ c rfl).trans (KeepsAcc.alterCore _ c rfl)).trans (wakeUpdates_keepsAcc c _)
    obtain ⟨hacc, hmem⟩ := updateMma_acc s c m
    exact ⟨hkeeps.acc.trans hacc, hkeeps.mem.trans hmem, hexec, fun h => hexec.trans (congrArg _ (orLater_of_unchecked s h))⟩
  · have hget := performAcc_write_get (s.dequeued c n) c team row col vals add
    have hacc : ((s.dequeued c n).core c).acc = (s.core c).acc := (KeepsAcc.alterCore s c rfl).acc
    refine ⟨_, accessPerformed_of_write hfirst hfind, fun i hi => ?_, fun key hkey => ?_, rfl, rfl⟩
    · rw [hget, if_pos (by omega), Nat.add_sub_cancel_left, hacc]
    · rw [hget, if_neg (by omega), hacc]
  · have hdeq : KeepsAcc c s (s.dequeued c n) := KeepsAcc.alterCore s c rfl
    have hbytes : (s.dequeued c n).accBytes c row col type regs rnd scale = s.accBytes c row col type regs rnd scale := by
      unfold State.accBytes
      rw [hdeq.acc]
    obtain ⟨hown, hothers, hkeeps, hunchecked⟩ := performAcc_read c (s := s.dequeued c n) hx row col type regs rnd scale dest
    have hkeeps := hdeq.trans hkeeps
    have hexec := accessPerformed_of_read hfirst hfind
    rw [hbytes] at hown
    refine ⟨_, hexec, fun h => ?_, hown, hothers, fun key => by rw [hkeeps.acc], hkeeps.mem⟩
    exact hexec.trans (congrArg _ (orLater_of_unchecked s (hunchecked (State.Unchecked.alterCore h rfl))))
  · exact accessPerformed_of_store hfirst hfind

end Sys2Proof.Machine
end

section
/-! SUPPORT. amode and resize (R190, R191) in a group of one thread, and O28 from them. -/

namespace Sys2Proof.Machine

theorem exec_amode (f : AmodeF) (s : State) : exec (.amode f) s = execAmode f s := rfl
theorem exec_resize (f : XF) (s : State) : exec (.resize f) s = execResize f s := rfl

@[simp] theorem State.resumed_cacheArrays (s : State) (n : Nat) (c : CoreId) : (s.resumed n).cacheArrays c = s.cacheArrays c := rfl

/-! amode (R191) -/

section
variable {f : AmodeF} {s : State} {n : Nat} {g : Group} {t : ThreadId} {x : Thread} {m : Team} (h : Solo s n g t x m { guard := f.g })
include h

theorem amode_traps_outside (hin : m.inField f.arr.toNat = false) : Traps (.amode f) s n g t 0x107 [] (s.resumed n) := by
  have hteam : (s.resumed n).team g.team = some m := h.ofTeam ▸ h.team
  have ht : (⟨g.team, t.t⟩ : ThreadId) = t := by rw [h.ofTeam]
  refine (exec_amode f s).trans ((runWhole_solo h _).trans ?_)
  simp [hteam, hin, State.trapIn, ht]

theorem amode_requests (hin : m.inField f.arr.toNat = true) :
    exec (.amode f) s = .next (((((s.resumed n).requestMode m.core f.arr.toNat f.mode).progress t).alterGroup n fun g =>
      { g with engaged := g.engaged ++ [t.t], hold := some (.amode m.core f.arr.toNat (s.resumed n).newId) }).passOn n) := by
  have hteam : (s.resumed n).team g.team = some m := h.ofTeam ▸ h.team
  have ht : (⟨g.team, t.t⟩ : ThreadId) = t := by rw [h.ofTeam]
  refine (exec_amode f s).trans ((runWhole_solo h _).trans ?_)
  simp [hteam, hin, ht]

end

/-! resize (R190) -/

/-- What a resize reads and writes. -/
abbrev resizeShape (f : XF) : Shape := { guard := f.g, srcs := [.one f.a false], dsts := [.one f.d] }

/-- The arrays that the mask of a resize names. -/
def State.resizeMask (s : State) (f : XF) (t : ThreadId) : NatSet := maskArrays (arg (s.valuesOf (resizeShape f) t) 0)

section
variable {f : XF} {s : State} {n : Nat} {g : Group} {t : ThreadId} {x : Thread} {m : Team} (h : Solo s n g t x m (resizeShape f))
include h

theorem resize_traps_elsewhere (ht : t.t ≠ 0) : Traps (.resize f) s n g t 0x10B [] (s.resumed n) := by
  refine (exec_resize f s).trans (runGroup_solo_trap h ?_)
  simp only [State.resumed_teamOf, State.resumed_thread, h.teamOf, h.thread, ne_eq, ht, not_false_eq_true, if_true]

section
variable (ht : t.t = 0) (hlo : f.lo = 0) {grow : List Nat} (hgrow : (s.resizeMask f t).filter (fun a => !m.inField a) = grow)
include ht hlo hgrow

theorem resize_grow_refused (hno : (∃ a ∈ grow, a ∉ s.cacheArrays m.core) ∨ (s.cacheArrays m.core).length < grow.length + 2) :
    Commits (.resize f) s n t (resizeShape f) ((s.resumed n).resizeStatus t f.d 1) := by
  unfold State.resizeMask at hgrow
  refine (exec_resize f s).trans (runGroup_solo_done h ?_)
  simp only [State.resumed_teamOf, State.resumed_thread, State.resumed_cacheArrays, h.teamOf, h.thread, ht, hlo, hgrow, ne_eq, not_true_eq_false,
    if_false, if_true]
  exact if_pos (by simpa using hno)

theorem resize_grow_begins (hin : ∀ a ∈ grow, a ∈ s.cacheArrays m.core) (hroom : grow.length + 2 ≤ (s.cacheArrays m.core).length) :
    Engages (.resize f) s n t (resizeShape f) ((grow.foldl (fun (s : State) a => (s.prepare m.core a).own m.core a t.team)
      (s.resumed n)).beginResize t.team ⟨t.t, 0, grow, x.destWord f.d⟩) := by
  unfold State.resizeMask at hgrow
  refine (exec_resize f s).trans (runGroup_solo_engage h ?_)
  simp only [State.resumed_teamOf, State.resumed_thread, State.resumed_cacheArrays, h.teamOf, h.thread, ht, hlo, hgrow, ne_eq, not_true_eq_false,
    if_false, if_true]
  exact if_neg (by simpa using ⟨hin, hroom⟩)

end

section
variable (ht : t.t = 0) (hlo : f.lo ≠ 0) {shrink : List Nat} (hshrink : (s.resizeMask f t).filter m.inField = shrink)
include ht hlo hshrink

theorem resize_shrink_refused (htied : ∃ a ∈ shrink, (s.array m.core a).tie ≠ none) :
    Commits (.resize f) s n t (resizeShape f) ((s.resumed n).resizeStatus t f.d 2) := by
  unfold State.resizeMask at hshrink
  refine (exec_resize f s).trans (runGroup_solo_done h ?_)
  simp only [State.resumed_teamOf, State.resumed_thread, State.resumed_array, h.teamOf, h.thread, ht, hlo, hshrink, ne_eq, not_true_eq_false,
    if_false]
  exact if_pos (by simpa [Option.isSome_iff_ne_none] using htied)

theorem resize_shrink_begins (hfree : ∀ a ∈ shrink, (s.array m.core a).tie = none) :
    Engages (.resize f) s n t (resizeShape f) (((s.resumed n).alterTeam t.team fun m =>
      { m with fm := m.fm.filter fun a => !shrink.contains a }).beginResize t.team ⟨t.t, 1, shrink, x.destWord f.d⟩) := by
  unfold State.resizeMask at hshrink
  refine (exec_resize f s).trans (runGroup_solo_engage h ?_)
  simp only [State.resumed_teamOf, State.resumed_thread, State.resumed_array, h.teamOf, h.thread, ht, hlo, hshrink, ne_eq, not_true_eq_false,
    if_false]
  exact if_neg (by simpa using hfree)

end

end

/-- Settles O28: amode by `amode_traps_outside` and `amode_requests`, resize by its five outcomes. -/
theorem arrayRolesAndModesChange : Obligations.ArrayRolesAndModesChange := by
  unfold Obligations.ArrayRolesAndModesChange
  refine ⟨fun f s n g t x m h => ⟨amode_traps_outside h, amode_requests h⟩, ?_⟩
  intro f s n g t x m sh h
  refine ⟨resize_traps_elsewhere h, fun ht => ⟨?_, ?_, ?_, ?_⟩⟩
  · exact fun hlo => resize_grow_refused h ht hlo rfl
  · exact fun hlo => resize_grow_begins h ht hlo rfl
  · exact fun hlo => resize_shrink_refused h ht hlo rfl
  · exact fun hlo => resize_shrink_begins h ht hlo rfl

end Sys2Proof.Machine
end

section
/-! SUPPORT. Events of the arrays of a core (R184 to R186, R190, R232) and of leases and page counters (R234, R245), and O48 from them. -/

namespace Sys2Proof.Machine

theorem exec_computeModeLoadServed (c : CoreId) (a : Nat) (s : State) : exec (.computeModeLoadServed c a) s = execComputeModeLoadServed c a s := rfl
theorem exec_amodeComplete (c : CoreId) (a : Nat) (s : State) : exec (.amodeComplete c a) s = execAmodeComplete c a s := rfl
theorem exec_resizeComplete (team : Nat) (s : State) : exec (.resizeComplete team) s = execResizeComplete team s := rfl
theorem exec_class0TieTake (cn n a : Nat) (s : State) : exec (.class0TieTake cn n a) s = .next (s.takeTie cn n a) := rfl
theorem exec_leaseExpiry (c : CoreId) (line : Nat) (s : State) : exec (.leaseExpiry c line) s = execLeaseExpiry c line s := rfl
theorem exec_pageCounterEpoch (s : State) : exec .pageCounterEpoch s = execPageCounterEpoch s := rfl

/-! An array put into a state -/

/-- Of two puts under one key the second holds. -/
theorem Table.put_put {κ ν : Type} [DecidableEq κ] (t : Table κ ν) (k : κ) (v w : ν) : Table.put (Table.put t k v) k w = Table.put t k w := by
  induction t with
  | nil => simp [Table.put]
  | cons e t ih =>
    obtain ⟨j, u⟩ := e
    by_cases hj : j = k <;> simp [Table.put, hj, ih]

theorem State.setArray_array_self (s : State) (c : CoreId) (a : Nat) (x : FieldArray) : (s.setArray c a x).array c a = x := by
  simp [State.setArray, State.array]

theorem State.alterArray_array_self (s : State) (c : CoreId) (a : Nat) (f : FieldArray → FieldArray) :
    (s.alterArray c a f).array c a = f (s.array c a) := s.setArray_array_self c a _

theorem State.setArray_setArray (s : State) (c : CoreId) (a : Nat) (x y : FieldArray) : (s.setArray c a x).setArray c a y = s.setArray c a y := by
  simp [State.setArray, State.alterCore, State.setCore, State.core, Table.put_put]

theorem State.setArray_clk (s : State) (c : CoreId) (a : Nat) (x : FieldArray) : ((s.setArray c a x).core c).clk = (s.core c).clk := by
  simp [State.setArray]

/-! Compute-mode loads (R186) -/

theorem computeModeLoadServed_of_none {s : State} {c : CoreId} {a : Nat} (hl : (s.array c a).loads = []) :
    exec (.computeModeLoadServed c a) s = .next s := by
  rw [exec_computeModeLoadServed]
  simp only [execComputeModeLoadServed, hl]

theorem computeModeLoadServed_of_load {s : State} {c : CoreId} {a : Nat} {l : ComputeLoad} {ls : List ComputeLoad}
    (hl : (s.array c a).loads = l :: ls) :
    let r := s.setArray c a { s.array c a with loads := ls, mmas := lengthenRunning (s.array c a).mmas }
    exec (.computeModeLoadServed c a) s = .next
      (if l.dest = [] then r else r.issueAccess (replyFor l.t c (splitWords l.dest l.value) 0 false)) := by
  rw [exec_computeModeLoadServed]
  simp only [execComputeModeLoadServed, hl]

/-! The oldest mode request of an array (R184, R185) -/

/-- The state in which the oldest request of an array has reached its mode, with the scrub of a switch to compute mode (R185). -/
def State.reachMode (s : State) (c : CoreId) (a : Nat) (q : ModeReq) (qs : List ModeReq) : State :=
  (if q.compute = true ∧ (s.array c a).compute = false then s.scrub c a else s).alterArray c a fun y =>
    { y with requests := qs, compute := q.compute }

theorem amodeComplete_of_none {s : State} {c : CoreId} {a : Nat} (hreq : (s.array c a).requests = []) :
    exec (.amodeComplete c a) s = .next s := by
  rw [exec_amodeComplete]
  simp only [execAmodeComplete, hreq]

section
variable {s : State} {c : CoreId} {a : Nat} {q : ModeReq} {qs : List ModeReq} (hreq : (s.array c a).requests = q :: qs)
include hreq

theorem dueRequest_of_due {d : Nat} (hdue : q.due = some d) : s.dueRequest c a = s := by
  simp only [State.dueRequest, hreq, hdue, Option.isNone_some, Bool.false_and, Bool.false_eq_true, if_false]

theorem dueRequest_of_waiting (hready : s.requestReady a (s.array c a) q = false) : s.dueRequest c a = s := by
  simp only [State.dueRequest, hreq, hready, Bool.and_false, Bool.false_eq_true, if_false]

theorem dueRequest_of_ready (hdue : q.due = none) (hready : s.requestReady a (s.array c a) q = true) :
    s.dueRequest c a = s.setArray c a { s.array c a with
      requests := { q with due := some ((s.core c).clk + requestCost (s.array c a) q) } :: qs } := by
  simp only [State.dueRequest, hreq, hdue, hready, Option.isNone_none, Bool.and_self, if_true]

/-- A request that is not due stays. -/
theorem completeRequest_of_waiting (hdue : q.due = none) (hready : s.requestReady a (s.array c a) q = false) : s.completeRequest c a = s := by
  simp only [State.completeRequest, dueRequest_of_waiting hreq hready, hreq, hdue]

theorem completeRequest_of_early {d : Nat} (hdue : q.due = some d) (hd : (s.core c).clk < d) : s.completeRequest c a = s := by
  simp only [State.completeRequest, dueRequest_of_due hreq hdue, hreq, hdue, if_neg (Nat.not_le.mpr hd)]

/-- A request whose waits have ended is due after its cost, and stays till then (R185). -/
theorem completeRequest_of_cost (hdue : q.due = none) (hready : s.requestReady a (s.array c a) q = true)
    (hcost : requestCost (s.array c a) q ≠ 0) :
    s.completeRequest c a = s.setArray c a { s.array c a with
      requests := { q with due := some ((s.core c).clk + requestCost (s.array c a) q) } :: qs } := by
  have hlater : ¬ (s.core c).clk + requestCost (s.array c a) q ≤ (s.core c).clk := by omega
  simp only [State.completeRequest, dueRequest_of_ready hreq hdue hready, State.setArray_array_self, State.setArray_clk, if_neg hlater]

/-- A request that is due reaches its mode (R185). -/
theorem completeRequest_of_due {d : Nat} (hdue : q.due = some d) (hd : d ≤ (s.core c).clk) :
    s.completeRequest c a = s.reachMode c a q qs := by
  simp only [State.completeRequest, dueRequest_of_due hreq hdue, hreq, hdue, if_pos hd, State.reachMode, Bool.and_eq_true, Bool.not_eq_true']

/-- A request for the mode already reached costs nothing and needs no scrub (R185). -/
theorem completeRequest_of_reached (hdue : q.due = none) (hready : s.requestReady a (s.array c a) q = true)
    (hcost : requestCost (s.array c a) q = 0) : s.completeRequest c a = s.reachMode c a q qs := by
  have hmode : (s.array c a).compute = q.compute := by
    unfold requestCost at hcost
    split at hcost
    · assumption
    · split at hcost <;> omega
  have hscrub : ¬ (q.compute = true ∧ q.compute = false) := fun h => Bool.noConfusion (h.1.symm.trans h.2)
  simp only [State.completeRequest, dueRequest_of_ready hreq hdue hready, hcost, Nat.add_zero, Nat.le_refl, if_true, State.setArray_array_self,
    State.setArray_clk, State.reachMode, State.alterArray, State.setArray_setArray, hmode, Bool.and_eq_true, Bool.not_eq_true', if_neg hscrub]

/-- While the oldest request stays pending, nothing else of its completion happens. -/
theorem amodeComplete_of_pending {u : State} {r : ModeReq} {rs : List ModeReq} (hu : s.completeRequest c a = u)
    (hpending : (u.array c a).requests = r :: rs) (hid : r.id = q.id) : exec (.amodeComplete c a) s = .next u := by
  rw [exec_amodeComplete]
  simp only [execAmodeComplete, hreq, hu, State.requestPending, hpending, List.any_cons, hid, BEq.rfl, Bool.true_or, if_true]

/-- Once the oldest request has reached its mode, what it has held goes on (R184, R191). -/
theorem amodeComplete_of_reached (hother : ∀ r ∈ qs, r.id ≠ q.id) (hu : s.completeRequest c a = s.reachMode c a q qs) :
    exec (.amodeComplete c a) s = .next (s.orLater ((s.reachMode c a q qs).wakeMode c a q.id)) := by
  have hpending : (s.reachMode c a q qs).requestPending c a q.id = false := by
    unfold State.requestPending State.reachMode
    rw [State.alterArray_array_self]
    simpa using hother
  rw [exec_amodeComplete]
  simp only [execAmodeComplete, hreq, hu, hpending, Bool.false_eq_true, if_false]

end

/-! The end of a resize, hndpass or hndfree (R190, R340) -/

theorem State.alterTeam_congr {s : State} {n : Nat} {m : Team} {f f' : Team → Team} (hm : s.team n = some m) (hf : f m = f' m) :
    s.alterTeam n f = s.alterTeam n f' := by
  unfold State.team at hm
  simp only [State.alterTeam, Table.alter, hm, hf]

theorem foldl_teams {α : Type} {f : State → α → State} (hf : ∀ u a, (f u a).teams = u.teams) (l : List α) (s : State) :
    (l.foldl f s).teams = s.teams := by
  induction l generalizing s with
  | nil => rfl
  | cons a l ih => exact (ih _).trans (hf s a)

theorem applyResize_teams (s : State) (m : Team) (r : Resizing) : (s.applyResize m r).teams = s.teams := by
  unfold State.applyResize
  split
  · rfl
  · refine foldl_teams (fun u a => ?_) _ _
    exact (stepGens_coreOnly _ _ _).teams
  · refine foldl_teams (fun u a => ?_) _ _
    exact (stepGens_coreOnly _ _ _).teams

theorem applyResize_of_back (s : State) (m : Team) {r : Resizing} (h0 : r.kind ≠ 0) (h2 : r.kind ≠ 2) :
    s.applyResize m r = r.arrays.foldl (fun (v : State) a => v.releaseArray m.core a) s := by
  unfold State.applyResize
  split
  · exact absurd ‹_› h0
  · exact absurd ‹_› h2
  · rfl

/-- The resize of a team that may end: the oldest whose arrays are idle; a grow waits for none (R190). -/
def State.resizeDue (s : State) (team : Nat) (m : Team) : Option Resizing :=
  m.resizing.find? fun r => r.kind == 0 || r.arrays.all fun a => s.arrayIdle m.core a team

section
variable {s : State} {team : Nat} {m : Team} (hm : s.team team = some m)
include hm

theorem resizeComplete_of_waiting (hdue : s.resizeDue team m = none) : exec (.resizeComplete team) s = .next s := by
  unfold State.resizeDue at hdue
  rw [exec_resizeComplete]
  simp only [execResizeComplete, hm, hdue]

/-- A resize that ends: its arrays change their role, the team its list, and the thread goes on with 0 in its destination (R190, R340). -/
theorem resizeComplete_of_due {q : Resizing} (hdue : s.resizeDue team m = some q) {v : State} {fm : NatSet} (hv : s.applyResize m q = v)
    (hfm : (if q.kind = 0 then NatSet.addAll m.fm q.arrays else m.fm) = fm) :
    let w := v.alterTeam team fun m => { m with resizing := m.resizing.filter fun r => decide (r ≠ q), fm := fm }
    (q.dest = none → exec (.resizeComplete team) s = .next (s.orLater (w.finish ⟨team, q.t⟩)))
    ∧ (∀ r, q.dest = some r → exec (.resizeComplete team) s = .next (s.orLater ((w.fillWords ⟨team, q.t⟩ [(r, 0)]).finish ⟨team, q.t⟩))) := by
  have hteam : (s.applyResize m q).team team = some m := by
    unfold State.team
    rw [applyResize_teams]
    exact hm
  intro w
  have hw : (s.applyResize m q).alterTeam team (fun m =>
      { m with resizing := m.resizing.filter fun r => decide (r ≠ q), fm := if q.kind = 0 then NatSet.addAll m.fm q.arrays else m.fm }) = w := by
    subst hv hfm
    exact State.alterTeam_congr hteam rfl
  unfold State.resizeDue at hdue
  rw [exec_resizeComplete]
  constructor
  · intro hdest
    simp only [execResizeComplete, hm, hdue, hdest, hw]
  · intro r hdest
    simp only [execResizeComplete, hm, hdue, hdest, hw]

end

/-! Ties, leases and page counters (R232, R234, R245) -/

theorem takeTie_of_no_context {s : State} {cn : Nat} (n a : Nat) (hy : s.context cn = none) : s.takeTie cn n a = s := by
  simp [State.takeTie, hy]

/-- A tie takes its array where its context has it and the array may leave the cache role (R232). -/
theorem takeTie_of_range {s : State} {cn n a : Nat} {y : Context} {lo hi src cls mask : Nat} (hy : s.context cn = some y)
    (hrange : y.range n = some (lo, hi, src, cls, mask)) :
    s.takeTie cn n a =
      if y.tiesBy (coreOfSource src) a n = true ∧ (s.array (coreOfSource src) a).isCache = true ∧ a < Config.arrays
          ∧ 2 < (s.cacheArrays (coreOfSource src)).length
      then (s.prepare (coreOfSource src) a).alterArray (coreOfSource src) a fun y => { y with tie := some cn } else s := by
  simp [State.takeTie, hy, hrange, and_assoc]

theorem Copy.lapsed_iff (y : Copy) (c : CoreId) (ltime : BitVec 48) :
    y.lapsed c ltime = true ↔ tsBefore y.lease ltime = true ∨ 64 < (ltime - Table.findD y.since c 0).toNat := by
  simp [Copy.lapsed]

/-- Settles O48: a served load by `computeModeLoadServed_of_load`, a mode request by what `completeRequest` leaves of it, the end of a resize by `resizeComplete_of_due`, a tie by `takeTie_of_range`. -/
theorem arrayAndPageEventsTakeEffect : Obligations.ArrayAndPageEventsTakeEffect := by
  unfold Obligations.ArrayAndPageEventsTakeEffect
  intro s c a x k
  refine ⟨⟨fun hl => ?_, fun l ls hl => ?_⟩, ⟨fun hreq => ?_, fun q qs hreq hother => ?_⟩, fun team m hm => ?_,
    fun cn n => ⟨fun hy => ?_, fun y lo hi src cls mask hy hrange hcore => ?_⟩, ?_, fun hdue => ?_, fun hdue => ?_⟩
  · exact computeModeLoadServed_of_none hl
  · exact computeModeLoadServed_of_load hl
  · exact amodeComplete_of_none hreq
  · intro cost reached ends
    have hends (hu : s.completeRequest c a = s.reachMode c a q qs) : ends :=
      have hexec := amodeComplete_of_reached hreq hother hu
      ⟨hexec, fun h => hexec.trans (congrArg _ (orLater_of_unchecked s h))⟩
    refine ⟨fun hdue hready => ?_, fun hdue hready hcost => ?_, fun hdue hready hcost => ?_, fun d hdue hd => ?_, fun d hdue hd => ?_⟩
    · exact amodeComplete_of_pending hreq (completeRequest_of_waiting hreq hdue hready) hreq rfl
    · exact amodeComplete_of_pending hreq (completeRequest_of_cost hreq hdue hready hcost)
        (congrArg FieldArray.requests (s.setArray_array_self c a _)) rfl
    · exact hends (completeRequest_of_reached hreq hdue hready hcost)
    · exact amodeComplete_of_pending hreq (completeRequest_of_early hreq hdue hd) hreq rfl
    · exact hends (completeRequest_of_due hreq hdue hd)
  · refine ⟨resizeComplete_of_waiting hm, fun q hdue => ⟨fun hkind => ?_, fun hkind => ?_, fun h0 h2 => ?_⟩⟩
    · exact resizeComplete_of_due hm hdue (by simp only [State.applyResize, hkind]) (if_pos hkind)
    · exact resizeComplete_of_due hm hdue (by simp only [State.applyResize, hkind]) (if_neg (by omega))
    · exact resizeComplete_of_due hm hdue (applyResize_of_back s m h0 h2) (if_neg h0)
  · exact (exec_class0TieTake cn n a s).trans (congrArg _ (takeTie_of_no_context n a hy))
  · subst hcore
    rw [exec_class0TieTake, takeTie_of_range hy hrange]
    exact ⟨fun hfree => congrArg _ (if_pos hfree), fun hheld => congrArg _ (if_neg hheld)⟩
  · refine ⟨_, exec_leaseExpiry c a s, ?_, rfl, rfl⟩
    simp only [State.alterCore_core, if_true, changeLine, Copy.lapsed_iff]
    rfl
  · exact (exec_pageCounterEpoch s).trans (congrArg _ (if_pos hdue))
  · exact (exec_pageCounterEpoch s).trans (congrArg _ (if_neg (by omega)))

end Sys2Proof.Machine
end

section
/-! SUPPORT. The matrix status (R218, R219) in a group of one thread, and O27 from it. -/

namespace Sys2Proof.Machine

theorem exec_mstat (f : XF) (s : State) : exec (.mstat f) s = execMstat f s := rfl

/-- What mstat reads and writes before its own meaning: the clearing and the control form read A. -/
abbrev mstatShape (f : XF) : Shape := { guard := f.g, srcs := if f.lo == 1 || f.lo == 2 then [.one f.a false] else [], dsts := [.one f.d] }

/-- The status given to the thread that asks for it, where its destination is a register (R218). -/
def State.mstatGiven (s : State) (f : XF) (t : ThreadId) : State :=
  if f.d.toNat < 0x40 then s.writeRegs t [(f.d.toNat, s.mstatImage t.team)] else s

section
variable {f : XF} {s : State} {n : Nat} {g : Group} {t : ThreadId} {x : Thread} {m : Team}

theorem mstat_commits (h : Solo s n g t x m (mstatShape f)) (hlo : f.lo ≠ 3) {a : Word} (ha : arg (s.valuesOf (mstatShape f) t) 0 = a)
    (hctl : f.lo = 2 → t.t = 0) :
    Commits (.mstat f) s n t (mstatShape f) (((s.resumed n).mstatGiven f t).alterTeam t.team fun m =>
      if f.lo = 1 then { m with analog := m.analog && !a.getLsbD 0, fmtanom := m.fmtanom && !a.getLsbD 1 }
      else if f.lo = 2 then { m with ate := a.getLsbD 16 }
      else m) := by
  subst ha
  exact (exec_mstat f s).trans ((if_neg hlo).trans (runGroup_solo_done h (if_neg fun ⟨h2, ht⟩ => ht (hctl h2))))

theorem mstatControl_traps_elsewhere (h : Solo s n g t x m (mstatShape f)) (hlo : f.lo = 2) (ht : t.t ≠ 0) :
    Traps (.mstat f) s n g t 0x110 [] (s.resumed n) :=
  (exec_mstat f s).trans ((if_neg (by simp [hlo])).trans (runGroup_solo_trap h (if_pos ⟨hlo, ht⟩)))

/-- mstat.wait with no mma of the team outstanding goes on at once (R218). -/
theorem mstatWait_goes_on (h : Solo s n g t x m { guard := f.g, dsts := [.one f.d] }) (hlo : f.lo = 3)
    (hidle : (s.resumed n).mmaBefore t.team (s.resumed n).newId = false) :
    exec (.mstat f) s = .next (((((s.resumed n).mstatGiven f t).progress t).markDone n t.t).passOn n) := by
  refine (exec_mstat f s).trans ((if_pos hlo).trans ((runWhole_solo h _).trans ?_))
  simp only [h.ofTeam, hidle, Bool.false_and, Bool.false_eq_true, if_false, List.foldl_cons, List.foldl_nil, State.mstatGiven]

end

/-- Settles O27: the reading, the clearing and the control form by `mstat_commits`, the wait form by `mstatWait_goes_on`. -/
theorem matrixStatusIsReadAndWritten : Obligations.MatrixStatusIsReadAndWritten := by
  unfold Obligations.MatrixStatusIsReadAndWritten
  exact fun f s n g t x m => ⟨fun h hlo hctl => mstat_commits h hlo rfl hctl, mstatWait_goes_on⟩

end Sys2Proof.Machine
end

section
/-! SUPPORT. Accumulator instructions (R212 to R217) in a group of one thread, and O26 from them. -/

namespace Sys2Proof.Machine

theorem exec_acrd (f : AcF) (s : State) : exec (.acrd f) s = execAcrd f s := rfl
theorem exec_acwr (f : AcF) (s : State) : exec (.acwr f) s = execAcwr f s := rfl
theorem exec_acst (f : AcF) (s : State) : exec (.acst f) s = execAcst f s := rfl
theorem exec_aczero (f : XF) (s : State) : exec (.aczero f) s = execAczero f s := rfl
theorem exec_acwin (f : XF) (s : State) : exec (.acwin f) s = execAcwin f s := rfl

/-! The row and the columns of an access (R212) -/

/-- Whether a row lies in the window of a thread's home group, or past its end. -/
abbrev Team.rowIn (m : Team) (t : Nat) (v : Word) : Prop := (m.window (homeGroupOf t)).1 + v.toNat < (m.window (homeGroupOf t)).2
abbrev Team.rowPast (m : Team) (t : Nat) (v : Word) : Prop := (m.window (homeGroupOf t)).2 ≤ (m.window (homeGroupOf t)).1 + v.toNat

theorem Team.accRow_of_inside {m : Team} {t : Nat} {v : Word} (hin : m.rowIn t v) :
    m.accRow t v = .ok (m.accBase + (m.window (homeGroupOf t)).1 + v.toNat) := if_neg (Nat.not_le.mpr hin)

theorem Team.accRow_of_outside {m : Team} {t : Nat} {v : Word} (hout : m.rowPast t v) :
    m.accRow t v = .error 0x10E := if_pos hout

theorem columnsOk_iff (c e : Nat) : columnsOk c e = true ↔ c % e = 0 ∧ c + e ≤ 256 := by
  simp [columnsOk]

/-- Whether the row of an access lies in its thread's window, and its `e` columns in the row at a multiple of `e` (R212). -/
def Team.accFits (m : Team) (t : Nat) (vs : List DWord) (e : Nat) : Prop :=
  m.rowIn t (arg vs 0) ∧ (arg vs 1).toNat % e = 0 ∧ (arg vs 1).toNat + e ≤ 256

/-- The physical row that a window gives an access inside it (R212). -/
abbrev Team.accRowAt (m : Team) (t : Nat) (vs : List DWord) : Nat := m.accBase + (m.window (homeGroupOf t)).1 + (arg vs 0).toNat

section
variable {s : State} {t : ThreadId} {m : Team} {vs : List DWord} {e : Nat} {body : State → ThreadId → Team → Nat → Nat → List DWord → Attempt}
  (hm : s.teamOf t = some m)
include hm

theorem withAcc_of_fits (hfit : m.accFits t.t vs e) : withAcc e body s t vs = body s t m (m.accRowAt t.t vs) (arg vs 1).toNat vs := by
  obtain ⟨hrow, hcols⟩ := hfit
  simp only [withAcc, hm, Team.accRow_of_inside hrow, (columnsOk_iff _ _).mpr hcols, if_true]

theorem withAcc_of_row_outside (hout : m.rowPast t.t (arg vs 0)) :
    withAcc e body s t vs = .trap 0x10E [] s := by
  simp only [withAcc, hm, Team.accRow_of_outside hout]

theorem withAcc_of_columns_off (hrow : m.rowIn t.t (arg vs 0))
    (hcols : (arg vs 1).toNat % e ≠ 0 ∨ 256 < (arg vs 1).toNat + e) : withAcc e body s t vs = .trap 0x10F [] s := by
  have hcols : ¬ columnsOk (arg vs 1).toNat e = true := by
    rw [columnsOk_iff]
    omega
  simp only [withAcc, hm, Team.accRow_of_inside hrow, if_neg hcols]

end

/-- An instruction that is one accumulator access raises 0x10E for its row and then 0x10F for its columns (R212). -/
theorem accAccess_traps {i : Instr} {s : State} {n : Nat} {g : Group} {t : ThreadId} {x : Thread} {m : Team} {sh : Shape} {vs : List DWord}
    {e : Nat} {outer : State → ThreadId → List DWord → Attempt} {body : State → ThreadId → Team → Nat → Nat → List DWord → Attempt}
    (h : Solo s n g t x m sh) (hi : exec i s = runGroup s sh outer)
    (houter : outer (s.resumed n) t (s.valuesOf sh t) = withAcc e body (s.resumed n) t vs) :
    (m.rowPast t.t (arg vs 0) → Traps i s n g t 0x10E [] (s.resumed n))
    ∧ (m.rowIn t.t (arg vs 0) →
      (arg vs 1).toNat % e ≠ 0 ∨ 256 < (arg vs 1).toNat + e → Traps i s n g t 0x10F [] (s.resumed n)) :=
  ⟨fun hout => hi.trans (runGroup_solo_trap h (houter.trans (withAcc_of_row_outside (s := s.resumed n) h.teamOf hout))),
    fun hrow hcols => hi.trans (runGroup_solo_trap h (houter.trans (withAcc_of_columns_off (s := s.resumed n) h.teamOf hrow hcols)))⟩

/-! acrd, acwr and acst (R213 to R215) -/

/-- What acrd, acwr and acst read and write before their own meaning. -/
abbrev acrdShape (f : AcF) : Shape := { guard := f.g, srcs := acSources f, dsts := [.regs f.dr.toNat f.regs] }
abbrev acwrShape (f : AcF) : Shape := { guard := f.g, srcs := acSources f ++ [.regs f.dr.toNat f.regs] }
abbrev acstShape (f : AcF) : Shape := { guard := f.g, srcs := .pair f.dr false :: acSources f, inS := true }

/-- The elements that an acrd or acst moves (R212). -/
abbrev acElements (f : AcF) : Nat := f.regs * perRegister f.type.toNat

section
variable {f : AcF} {s : State} {n : Nat} {g : Group} {t : ThreadId} {x : Thread} {m : Team}

theorem acrd_commits (h : Solo s n g t x m (acrdShape f)) {vs : List DWord} (hvs : s.valuesOf (acrdShape f) t = vs)
    (hfit : m.accFits t.t vs (acElements f)) :
    Commits (.acrd f) s n t (acrdShape f) (((s.resumed n).emptyRegs t f.dr.toNat f.regs).queueAcc m.core
      (.read t (m.accRowAt t.t vs) (arg vs 1).toNat f.type.toNat f.regs f.rnd.toNat (acScale f vs) (x.words f.dr.toNat f.regs))) := by
  subst hvs
  refine (exec_acrd f s).trans (runGroup_solo_done h ((withAcc_of_fits (s := s.resumed n) h.teamOf hfit).trans ?_))
  simp only [State.resumed_thread, h.thread]

theorem acwr_commits (h : Solo s n g t x m (acwrShape f)) {vs : List DWord} (hvs : s.valuesOf (acwrShape f) t = vs)
    (hfit : m.accFits t.t vs f.regs) :
    Commits (.acwr f) s n t (acwrShape f) ((s.resumed n).queueAcc m.core
      (.write t.team (m.accRowAt t.t vs) (arg vs 1).toNat ((List.range f.regs).map fun k => x.reg (f.dr.toNat + k)) f.add)) := by
  subst hvs
  refine (exec_acwr f s).trans (runGroup_solo_done h ((withAcc_of_fits (s := s.resumed n) h.teamOf hfit).trans ?_))
  simp only [State.resumed_thread, h.thread]

/-- An acst whose address has been translated: in the core's order of effects, or answered by the error reply that the walk has met (R215, R241). -/
def State.acstIssued (s : State) (f : AcF) (t : ThreadId) (m : Team) (vs : List DWord) (va : VAddr) (pc : VAddr) (p : Target) : State :=
  let queued (pa : Nat) : State := s.queueAcc m.core
    (.store t (m.accRowAt t.t vs) (arg vs 1).toNat f.type.toNat f.regs f.rnd.toNat (acScale f vs) va pa pc)
  match p with
  | .hbm pa => queued pa
  | .window d off => queued (windowAddr d off)
  | .failed c => s.issueStore t va (.error c) [] (some (.normal 2)) pc

section
variable (h : Solo s n g t x m (acstShape f)) {vs : List DWord} (hvs : (s.valuesOf (acstShape f) t).drop 1 = vs)
  {va : VAddr} (hva : addressOf (arg64 (s.valuesOf (acstShape f) t) 0) = va) (hfit : m.accFits t.t vs (acElements f))
include h hvs hva hfit

/-- An acst whose row and columns fit is one access of memory (R215). -/
theorem acst_access : ∃ outer, exec (.acst f) s = runGroup s (acstShape f) outer
    ∧ outer (s.resumed n) t (s.valuesOf (acstShape f) t) =
      (s.resumed n).withGlobal t va (min (4 * f.regs) 64) 0x080 (needStore (4 * f.regs))
        fun u p => .done (u.acstIssued f t m vs va (u.pcAt t) p) := by
  subst hvs hva
  refine ⟨_, exec_acst f s, (withAcc_of_fits (s := s.resumed n) h.teamOf hfit).trans ?_⟩
  refine congrArg (State.withGlobal (s.resumed n) t _ _ _ _) (funext fun u => funext fun p => ?_)
  cases p <;> rfl

theorem acst_traps_misaligned (ha : va.toNat % min (4 * f.regs) 64 ≠ 0) :
    Traps (.acst f) s n g t 0x080 [va.zeroExtend 64] (s.resumed n) := by
  obtain ⟨_, hi, houter⟩ := acst_access h hvs hva hfit
  exact hi.trans (runGroup_solo_trap h (houter.trans (withGlobal_of_misaligned ha)))

variable (ha : va.toNat % min (4 * f.regs) 64 = 0) {u : State}
include ha

theorem acst_traps_translation {cause : Cause}
    (htr : (s.resumed n).translate m.core.die m.cn (needStore (4 * f.regs)) va = (.cause cause, u)) :
    Traps (.acst f) s n g t cause [va.zeroExtend 64] u := by
  obtain ⟨_, hi, houter⟩ := acst_access h hvs hva hfit
  exact hi.trans (runGroup_solo_trap h (houter.trans (withGlobal_of_cause (s := s.resumed n) h.coreOf h.cnOf ha htr)))

theorem acst_commits {p : Target} (htr : (s.resumed n).translate m.core.die m.cn (needStore (4 * f.regs)) va = (.ok p, u)) :
    Commits (.acst f) s n t (acstShape f) (u.acstIssued f t m vs va g.pc p) := by
  obtain ⟨_, hi, houter⟩ := acst_access h hvs hva hfit
  have hpc : u.pcAt t = g.pc := (translate_pcAt htr t).trans h.pcAt
  rw [withGlobal_of_target (s := s.resumed n) h.coreOf h.cnOf ha htr, hpc] at houter
  exact hi.trans (runGroup_solo_done h houter)

end

end

/-! aczero and acwin (R216, R217) -/

/-- What aczero and acwin read before their own meaning. -/
abbrev aczeroShape (f : XF) : Shape := { guard := f.g, srcs := [.one f.a false] }
abbrev acwinShape (f : XF) : Shape := { guard := f.g, srcs := [.one f.a false, .one f.b false, .one f.c false] }

section
variable {f : XF} {s : State} {n : Nat} {g : Group} {t : ThreadId} {x : Thread} {m : Team}

section
variable (h : Solo s n g t x m (aczeroShape f)) {vs : List DWord} (hvs : s.valuesOf (aczeroShape f) t = vs)
include h hvs

theorem aczero_commits (hin : m.rowIn t.t (arg vs 0)) :
    Commits (.aczero f) s n t (aczeroShape f) ((s.resumed n).queueAcc m.core
      (.write t.team (m.accRowAt t.t vs) (if f.lo = 2 then 128 else 0) (List.replicate (if f.lo = 0 then 256 else 128) 0) false)) := by
  subst hvs
  refine (exec_aczero f s).trans (runGroup_solo_done h ?_)
  simp only [State.resumed_teamOf, h.teamOf, Team.accRow_of_inside hin]

theorem aczero_traps_outside (hout : m.rowPast t.t (arg vs 0)) :
    Traps (.aczero f) s n g t 0x10E [] (s.resumed n) := by
  subst hvs
  refine (exec_aczero f s).trans (runGroup_solo_trap h ?_)
  simp only [State.resumed_teamOf, h.teamOf, Team.accRow_of_outside hout]

end

section
variable (h : Solo s n g t x m (acwinShape f))
include h

theorem acwin_traps_elsewhere (ht : t.t ≠ 0) : Traps (.acwin f) s n g t 0x110 [] (s.resumed n) := by
  refine (exec_acwin f s).trans (runGroup_solo_trap h ?_)
  simp only [State.resumed_teamOf, h.teamOf, if_pos ht]

variable {vs : List DWord} (hvs : s.valuesOf (acwinShape f) t = vs) (ht : t.t = 0)
include hvs ht

theorem acwin_traps_unfit (hno : m.size ≤ 32 * (arg vs 0).toNat ∨ (arg vs 2).toNat < (arg vs 1).toNat ∨ m.nacc < (arg vs 2).toNat) :
    Traps (.acwin f) s n g t 0x111 [] (s.resumed n) := by
  subst hvs
  refine (exec_acwin f s).trans (runGroup_solo_trap h ?_)
  simp only [State.resumed_teamOf, h.teamOf, if_neg (not_not_intro ht), if_pos hno]

theorem acwin_commits (hgroup : 32 * (arg vs 0).toNat < m.size) (hle : (arg vs 1).toNat ≤ (arg vs 2).toNat) (hrows : (arg vs 2).toNat ≤ m.nacc) :
    Commits (.acwin f) s n t (acwinShape f) ((s.resumed n).alterTeam t.team fun m =>
      { m with windows := Table.put m.windows (arg vs 0).toNat ((arg vs 1).toNat, (arg vs 2).toNat) }) := by
  subst hvs
  refine (exec_acwin f s).trans (runGroup_solo_done h ?_)
  simp only [State.resumed_teamOf, h.teamOf, if_neg (not_not_intro ht)]
  exact if_neg (by omega)

end

end

/-- Settles O26: acrd, acwr and acst go by the row and columns of their access (`withAcc_of_fits`, `accAccess_traps`), acst then by its access of memory (`acst_access`), and aczero, acwin and mstat.ctl by their own checks. -/
theorem accumulatorInstructionsExecute : Obligations.AccumulatorInstructionsExecute := by
  unfold Obligations.AccumulatorInstructionsExecute
  refine ⟨⟨fun f s n g t x m => ⟨?_, ?_, ?_⟩, fun f s n g t x m => ⟨?_, ?_⟩⟩, fun s n g t x m => ⟨fun f => ⟨?_, ?_, ?_, ?_⟩, fun f => ⟨?_, ?_, ?_⟩⟩⟩
  · exact fun h => acrd_commits h rfl
  · exact fun h => acwr_commits h rfl
  · intro sh h vs va size hfit ha p u htr queued
    have hcommit := acst_commits h rfl rfl hfit ha htr
    refine ⟨?_, ?_, ?_⟩
    · rintro pa rfl
      exact hcommit
    · rintro d off rfl
      exact hcommit
    · rintro c rfl
      exact hcommit
  · exact fun h => aczero_commits h rfl
  · exact fun h ht => acwin_commits h rfl ht
  · exact fun h => accAccess_traps h (exec_acrd f s) rfl
  · exact fun h => accAccess_traps h (exec_acwr f s) rfl
  · exact fun h => accAccess_traps h (exec_acst f s) rfl
  · intro h vs va hrow hcol hend
    have hfit : m.accFits t.t vs (acElements f) := ⟨hrow, hcol, hend⟩
    exact ⟨acst_traps_misaligned h rfl rfl hfit, fun ha c u htr => acst_traps_translation h rfl rfl hfit ha htr⟩
  · exact fun h => aczero_traps_outside h rfl
  · exact fun h => ⟨acwin_traps_elsewhere h, acwin_traps_unfit h rfl⟩
  · intro hlo h
    have hsh : mstatShape f = { guard := f.g, srcs := [.one f.a false], dsts := [.one f.d] } := by simp [mstatShape, hlo]
    exact mstatControl_traps_elsewhere (hsh ▸ h) hlo

end Sys2Proof.Machine
end

section
/-! SUPPORT. Loads, stores and prefetches of global memory (R222, R236 to R241, R353) in a group of one thread; O16 and O19. -/

namespace Sys2Proof.Machine

theorem exec_ld (f : MF) (s : State) : exec (.ld f) s = execLd f s := rfl
theorem exec_st (f : MF) (s : State) : exec (.st f) s = execSt f s := rfl
theorem exec_pf (f : MF) (s : State) : exec (.pf f) s = execPf f s := rfl

/-- What ld and st read and write before their own meaning. -/
abbrev loadShape (f : MF) : Shape :=
  { guard := f.g, srcs := [.pair f.base false]
    dsts := [if f.sz.toNat < 5 then .one f.data else .regs f.data.toNat (accessSize f.sz.toNat / 4)], inS := true }
abbrev storeShape (f : MF) : Shape :=
  { guard := f.g
    srcs := [.pair f.base false, if f.sz.toNat < 5 then .one f.data false else .regs f.data.toNat (accessSize f.sz.toNat / 4)], inS := true }
abbrev prefetchShape (f : MF) : Shape := { guard := f.g, srcs := [.pair f.base false] }

/-- What ld and st leave where their translation ends (R222, R238, R241). -/
def State.loadAt (s : State) (f : MF) (t : ThreadId) (x : Thread) (va : VAddr) : Target → State
  | .hbm pa => s.issueLoad t va (.ok pa) (accessSize f.sz.toNat) (cacheUse f) (x.loadDest f.data f.sz.toNat) (loadValues f.sz.toNat) none
  | .failed c => s.issueLoad t va (.error c) (accessSize f.sz.toNat) (cacheUse f) (x.loadDest f.data f.sz.toNat) (loadValues f.sz.toNat) none
  | .window d off => s.issueWindowLoad t va d off (x.loadDest f.data f.sz.toNat)
def State.storeAt (s : State) (f : MF) (t : ThreadId) (x : Thread) (m : Team) (va : VAddr) (v : Word) (pc : VAddr) : Target → State
  | .hbm pa => s.issueStore t va (.ok pa) (x.storeData f.data f.sz.toNat v) (cacheUse f) pc
  | .failed c => s.issueStore t va (.error c) (x.storeData f.data f.sz.toNat v) (cacheUse f) pc
  | .window d off => (s.place.fenceHere t).writeWindow m.core d off v

/-! An instruction that is one access of memory or of a register window -/

section
variable {i : Instr} {s : State} {n : Nat} {g : Group} {t : ThreadId} {x : Thread} {m : Team} {sh : Shape}
  {body : State → ThreadId → List DWord → Attempt} {rest : State → Target → Attempt} {va : VAddr} {size : Nat} {mis : Cause} {need : Need}
  (h : Solo s n g t x m sh) (hi : exec i s = runGroup s sh body)
  (hbody : body (s.resumed n) t (s.valuesOf sh t) = (s.resumed n).withGlobal t va size mis need rest)
include h hi hbody

/-- An access off its boundary, and one whose translation fails, raise their causes, with the address (R222, R237). -/
theorem globalAccess_traps :
    (va.toNat % size ≠ 0 → Traps i s n g t mis [va.zeroExtend 64] (s.resumed n))
    ∧ (va.toNat % size = 0 → ∀ cause u, (s.resumed n).translate m.core.die m.cn need va = (.cause cause, u) →
        Traps i s n g t cause [va.zeroExtend 64] u) :=
  ⟨fun ha => hi.trans (runGroup_solo_trap h (hbody.trans (withGlobal_of_misaligned ha))),
    fun ha _ _ htr => hi.trans (runGroup_solo_trap h (hbody.trans (withGlobal_of_cause (s := s.resumed n) h.coreOf h.cnOf ha htr)))⟩

/-- An aligned access executes where its translation ends (R222, R237, R241). -/
theorem globalAccess_commits (ha : va.toNat % size = 0) {p : Target} {u w : State}
    (htr : (s.resumed n).translate m.core.die m.cn need va = (.ok p, u)) (hrest : rest u p = .done w) : Commits i s n t sh w :=
  hi.trans (runGroup_solo_done h (hbody.trans ((withGlobal_of_target (s := s.resumed n) h.coreOf h.cnOf ha htr).trans hrest)))

end

section
variable {f : MF} {s u : State} {n : Nat} {g : Group} {t : ThreadId} {x : Thread} {m : Team} {p : Target}

theorem ld_commits (h : Solo s n g t x m (loadShape f))
    (ha : (globalAddr (arg64 (s.valuesOf (loadShape f) t) 0) f.ofs).toNat % accessSize f.sz.toNat = 0)
    (htr : (s.resumed n).translate m.core.die m.cn (needLoad (accessSize f.sz.toNat))
      (globalAddr (arg64 (s.valuesOf (loadShape f) t) 0) f.ofs) = (.ok p, u)) :
    Commits (.ld f) s n t (loadShape f) (u.loadAt f t x (globalAddr (arg64 (s.valuesOf (loadShape f) t) 0) f.ofs) p) := by
  have hx : u.thread t = some x := (translate_thread htr t).trans h.thread
  refine globalAccess_commits h (exec_ld f s) rfl ha htr ?_
  simp only [hx]
  cases p <;> rfl

theorem st_commits (h : Solo s n g t x m (storeShape f))
    (ha : (globalAddr (arg64 (s.valuesOf (storeShape f) t) 0) f.ofs).toNat % accessSize f.sz.toNat = 0)
    (htr : (s.resumed n).translate m.core.die m.cn (needStore (accessSize f.sz.toNat))
      (globalAddr (arg64 (s.valuesOf (storeShape f) t) 0) f.ofs) = (.ok p, u)) :
    Commits (.st f) s n t (storeShape f)
      (u.storeAt f t x m (globalAddr (arg64 (s.valuesOf (storeShape f) t) 0) f.ofs) (arg (s.valuesOf (storeShape f) t) 1) g.pc p) := by
  have hx : u.thread t = some x := (translate_thread htr t).trans h.thread
  have hpc : u.pcAt t = g.pc := (translate_pcAt htr t).trans h.pcAt
  have hcore : u.coreOf t = m.core := (translate_coreOf htr t).trans h.coreOf
  refine globalAccess_commits h (exec_st f s) rfl ha htr ?_
  simp only [hx, hpc, hcore]
  cases p <;> rfl

end

/-! Prefetches (R240, R353) -/

theorem translate_closedHold {s u : State} {die cn : Nat} {need : Need} {va : VAddr} {r : Translation}
    (h : s.translate die cn need va = (r, u)) (t : ThreadId) (va' : VAddr) : u.closedHold t va' = s.closedHold t va' := by
  rw [translate_eq h]; rfl

section
variable {f : MF} {s : State} {n : Nat} {g : Group} {t : ThreadId} {x : Thread} {m : Team} (h : Solo s n g t x m (prefetchShape f))
include h

theorem pf_waits {u : State} (htr : (s.resumed n).translate m.core.die m.cn needRead
      (globalAddr (arg64 (s.valuesOf (prefetchShape f) t) 0) f.ofs) = (.closed, u)) :
    Waits (.pf f) s n (.closed m.cn ((globalAddr (arg64 (s.valuesOf (prefetchShape f) t) 0) f.ofs).toNat / 65536)) (s.resumed n) := by
  have hold : u.closedHold t (globalAddr (arg64 (s.valuesOf (prefetchShape f) t) 0) f.ofs)
      = .closed m.cn ((globalAddr (arg64 (s.valuesOf (prefetchShape f) t) 0) f.ofs).toNat / 65536) := by
    rw [translate_closedHold htr, State.closedHold, State.resumed_cnOf, h.cnOf]
  have hbody : (s.resumed n).prefetch t (globalAddr (arg64 (s.valuesOf (prefetchShape f) t) 0) f.ofs) ((cacheUse f).getD .str)
      = .wait (u.closedHold t (globalAddr (arg64 (s.valuesOf (prefetchShape f) t) 0) f.ofs)) u := by
    simp only [State.prefetch, State.resumed_coreOf, State.resumed_cnOf, h.coreOf, h.cnOf, htr]
  have hexec := runGroup_solo_wait h (body := fun s t vs => s.prefetch t (globalAddr (arg64 vs 0) f.ofs) ((cacheUse f).getD .str))
    (hbody.trans (congrArg (Attempt.wait · u) hold))
  exact (exec_pf f s).trans hexec

/-- A prefetch outside a closed range changes caches alone. -/
theorem pf_commits (htr : ((s.resumed n).translate m.core.die m.cn needRead
      (globalAddr (arg64 (s.valuesOf (prefetchShape f) t) 0) f.ofs)).1 ≠ .closed) :
    ∃ u, Commits (.pf f) s n t (prefetchShape f) u ∧ CacheOnly (s.resumed n) u := by
  obtain ⟨u, hu⟩ | ⟨u, hclosed, _⟩ := prefetch_done_or_wait (s.resumed n) t
    (globalAddr (arg64 (s.valuesOf (prefetchShape f) t) 0) f.ofs) ((cacheUse f).getD .str)
  · exact ⟨u, (exec_pf f s).trans (runGroup_solo_done h hu), prefetch_cacheOnly hu⟩
  · rw [State.resumed_coreOf, State.resumed_cnOf, h.coreOf, h.cnOf] at hclosed
    exact absurd (congrArg Prod.fst hclosed) htr

end

/-- Settles O16: ld and st execute where their translation ends (`ld_commits`, `st_commits`), and pf waits or changes caches alone (`pf_waits`, `pf_commits`). -/
theorem loadsAndStoresExecute : Obligations.LoadsAndStoresExecute := by
  unfold Obligations.LoadsAndStoresExecute
  refine ⟨fun f s n g t x m => ⟨?_, ?_⟩, ?_⟩
  · intro h va ha p u htr
    have hcommit := ld_commits h ha htr
    refine ⟨?_, ?_, ?_⟩
    · rintro pa rfl
      exact hcommit
    · rintro c rfl
      exact hcommit
    · rintro d off rfl
      exact hcommit
  · intro h vs va ha p u htr
    have hcommit := st_commits h ha htr
    refine ⟨?_, ?_, ?_⟩
    · rintro pa rfl
      exact hcommit
    · rintro c rfl
      exact hcommit
    · rintro d off rfl
      exact hcommit
  · intro f s n g t x m sh h va
    refine ⟨fun u htr => pf_waits h htr, fun htr => ?_⟩
    obtain ⟨u, hu, hc⟩ := pf_commits h htr
    unfold CacheOnly at hc
    exact ⟨u, hu, by rw [hc]; rfl, by rw [hc]; rfl, by rw [hc]; rfl, by rw [hc]; rfl⟩


/-- Settles O19: `storeBytes_byte` says every byte that a store leaves, inside and outside the bytes it writes, and `storeBytes_wf` keeps the canonical form. -/
theorem storeChangesOnlyItsBytes : Obligations.StoreChangesOnlyItsBytes := by
  unfold Obligations.StoreChangesOnlyItsBytes
  intro s t va pa bs u v
  refine ⟨fun h => storeBytes_wf h t va pa bs u, fun hr => ⟨fun k hk => ?_, fun a ha => ?_⟩⟩
  · rw [storeBytes_byte hr, if_pos ⟨by omega, by omega⟩, Nat.add_sub_cancel_left]
  · rw [storeBytes_byte hr, if_neg (by omega)]

end Sys2Proof.Machine
end

section
/-! SUPPORT. The checks of an access (R222, R237, R259, R371): alignment and translation in a group of one thread, and those of a leaf; O17. -/

namespace Sys2Proof.Machine

theorem exec_atom (f : MF) (s : State) : exec (.atom f) s = execAtom f s := rfl
theorem exec_red (f : MF) (s : State) : exec (.red f) s = execRed f s := rfl

/-! Alignment and translation -/

/-- The causes of an access before its own effect: misalignment, and then those of its translation, which leave memory as it was (R222, R237). -/
structure AccessCauses (i : Instr) (s : State) (n : Nat) (g : Group) (t : ThreadId) (m : Team) (va : VAddr) (size : Nat) (need : Need) : Prop where
  misaligned : va.toNat % size ≠ 0 → Traps i s n g t 0x080 [va.zeroExtend 64] (s.resumed n)
  untranslated : va.toNat % size = 0 → ∀ c u, (s.resumed n).translate m.core.die m.cn need va = (.cause c, u) →
    Traps i s n g t c [va.zeroExtend 64] u ∧ u.mem = s.mem

section
variable {i : Instr} {s : State} {n : Nat} {g : Group} {t : ThreadId} {x : Thread} {m : Team} {sh : Shape}
  {body : State → ThreadId → List DWord → Attempt} {va : VAddr} {size : Nat} {need : Need}
  (h : Solo s n g t x m sh) (hi : exec i s = runGroup s sh body)
include h hi

theorem accessCauses_of_global {rest : State → Target → Attempt}
    (hbody : body (s.resumed n) t (s.valuesOf sh t) = (s.resumed n).withGlobal t va size 0x080 need rest) :
    AccessCauses i s n g t m va size need := by
  obtain ⟨hmis, htr⟩ := globalAccess_traps h hi hbody
  exact ⟨hmis, fun ha c u hu => ⟨htr ha c u hu, translate_mem (s := s.resumed n) hu⟩⟩

theorem accessCauses_of_memory {rest : State → Place → Attempt}
    (hbody : body (s.resumed n) t (s.valuesOf sh t) = (s.resumed n).withMemory t va size 0x080 need rest) :
    AccessCauses i s n g t m va size need :=
  accessCauses_of_global h hi hbody

end

/-! A leaf -/

/-- Whether a leaf permits what an access needs (R222). -/
def Need.permitted (need : Need) (e : DWord) : Prop :=
  (need.r = true → e.getLsbD 4 = true) ∧ (need.w = true → e.getLsbD 5 = true) ∧ (need.x = true → e.getLsbD 6 = true)

/-- Whether an access may reach the place that a leaf gives: HBM4E without DEV, or a register of a window (R222). -/
def Need.reaches (need : Need) (e : DWord) (log pa : Nat) : Prop :=
  if pa < 2 ^ 40 then e.getLsbD 7 = false else
    ∃ d off, windowOf pa = some (d, off) ∧ e.getLsbD 7 = true ∧ log = 16 ∧ need.window = true ∧ decodedCsr d (off / 8) = true

section
variable {s : State} {cn : Nat} {need : Need} {e : DWord} {addr log : Nat} {va : VAddr}

theorem Need.permitted_iff : need.permitted e ↔
    ((need.r && !entryBit e 4) || (need.w && !entryBit e 5) || (need.x && !entryBit e 6)) = false := by
  simp [Need.permitted, entryBit, and_assoc]

/-- The place of a leaf that an access may reach, as `leafCheck` finds it (R222). -/
def Need.target (need : Need) (e : DWord) (log pa : Nat) : Option Target :=
  if inHbm pa then (if entryBit e 7 then none else some (.hbm pa))
  else match windowOf pa with
    | some (d, off) => if entryBit e 7 && log == 16 && need.window && decodedCsr d (off / 8) then some (.window d off) else none
    | none => none

theorem Need.target_of_unreached {pa : Nat} (h : ¬ need.reaches e log pa) : need.target e log pa = none := by
  unfold Need.reaches at h
  unfold Need.target
  by_cases hpa : pa < 2 ^ 40
  · rw [if_pos hpa, Bool.not_eq_false] at h
    rw [if_pos (by simpa [inHbm] using hpa)]
    exact if_pos h
  · rw [if_neg hpa] at h
    rw [if_neg (by simpa [inHbm] using hpa)]
    rcases hw : windowOf pa with _ | ⟨d, off⟩
    · rfl
    · refine if_neg fun hreach => h ⟨d, off, hw, ?_⟩
      simpa [entryBit, and_assoc] using hreach

theorem leafCheck_eq : leafCheck s cn need e addr log va =
    if (need.r && !entryBit e 4) || (need.w && !entryBit e 5) || (need.x && !entryBit e 6) then .cause 0x082
    else match need.target e log (leafAddr e log va) with
      | none => .cause 0x083
      | some t =>
        if s.gives.any fun g => g.2.closed && g.2.leaves.contains addr then .closed
        else if entryOwn e ≠ 0 ∧ entryOwn e ≠ cn then .cause 0x09A
        else .ok t := rfl

theorem leafCheck_of_refused (h : ¬ need.permitted e) : leafCheck s cn need e addr log va = .cause 0x082 :=
  if_pos (by rwa [Need.permitted_iff, Bool.not_eq_false] at h)

theorem leafCheck_of_unreached (hp : need.permitted e) (hr : ¬ need.reaches e log (leafAddr e log va)) :
    leafCheck s cn need e addr log va = .cause 0x083 := by
  rw [leafCheck_eq, Need.permitted_iff.mp hp, Need.target_of_unreached hr]
  rfl

end

/-- Settles O17: ld and st check what they reach with `withGlobal`, atom and red with `withMemory` (`AccessCauses`), and a leaf is refused and then out of reach in that order (`leafCheck_of_refused`, `leafCheck_of_unreached`). -/
theorem accessChecksRaiseTheirCauses : Obligations.AccessChecksRaiseTheirCauses := by
  unfold Obligations.AccessChecksRaiseTheirCauses
  refine ⟨fun f s n g t x m => ?_, fun s cn need e addr log va => ?_, fun size => ?_, rfl, rfl, rfl, rfl⟩
  · intro size dst src access w data
    have causes {i : Instr} {sh : Shape} {need : Need}
        (hc : Solo s n g t x m sh → AccessCauses i s n g t m (globalAddr (arg64 (s.valuesOf sh t) 0) f.ofs) size need) :
        access i sh need := fun h => ⟨(hc h).misaligned, (hc h).untranslated⟩
    refine ⟨causes fun h => ?_, causes fun h => ?_, causes fun h => ?_, causes fun h => ?_⟩
    · exact accessCauses_of_global h (exec_ld f s) rfl
    · exact accessCauses_of_global h (exec_st f s) rfl
    · exact accessCauses_of_memory h (exec_atom f s) rfl
    · exact accessCauses_of_memory h (exec_red f s) rfl
  · exact ⟨leafCheck_of_refused, leafCheck_of_unreached⟩
  · exact ⟨rfl, rfl⟩

end Sys2Proof.Machine
end

section
/-! SUPPORT. Memory messages (R222, R256, R397), management messages, attestation and the links of ports (R396 to R399); O55. -/

namespace Sys2Proof.Machine

theorem exec_memoryReadMessage (n : Nat) (s : State) : exec (.memoryReadMessage n) s = execMemoryReadMessage n s := rfl
theorem exec_memoryWriteMessage (n : Nat) (s : State) : exec (.memoryWriteMessage n) s = execMemoryWriteMessage n s := rfl
theorem exec_managementMessage (n : Nat) (s : State) : exec (.managementMessage n) s = execManagementMessage n s := rfl
theorem exec_attestationRequest (nonce : BitVec 512) (s : State) : exec (.attestationRequest nonce) s = execAttestationRequest nonce s := rfl
theorem exec_ethernetLinkUp (n : Nat) (s : State) : exec (.ethernetLinkUp n) s = execEthernetLinkUp n s := rfl

/-! The order of a connection's messages (R256, R397) -/

theorem State.firstOn_of_none_before {s : State} {n conn : Nat} (h : ∀ e ∈ s.msgs, e.2.readsOrWrites conn = true → n ≤ e.1) :
    s.firstOn n conn = true := by
  simp only [State.firstOn, Bool.not_eq_true', List.any_eq_false, Bool.and_eq_true, decide_eq_true_eq, not_and]
  exact fun e he hlt hr => absurd (h e he hr) (Nat.not_le.mpr hlt)

theorem State.firstOn_of_one_before {s : State} {n conn : Nat} (h : ∃ e ∈ s.msgs, e.1 < n ∧ e.2.readsOrWrites conn = true) :
    s.firstOn n conn = false := by
  obtain ⟨e, he, hlt, hr⟩ := h
  simp only [State.firstOn, Bool.not_eq_false', List.any_eq_true, Bool.and_eq_true, decide_eq_true_eq]
  exact ⟨e, he, hlt, hr⟩

/-! A read (R256) -/

section
variable {s : State} {n conn cn len : Nat} {va : VAddr} {got : List Byte} (hm : Table.find s.msgs n = some (.memRead conn va len got))
include hm

theorem memRead_dropped (hc : s.boundContext conn = none) :
    exec (.memoryReadMessage n) s = .next { s with msgs := Table.drop s.msgs n } := by
  simp only [exec_memoryReadMessage, execMemoryReadMessage, hm, hc]

variable (hc : s.boundContext conn = some cn)
include hc

theorem memRead_waits (hf : s.firstOn n conn = false) : exec (.memoryReadMessage n) s = .next s := by
  simp only [exec_memoryReadMessage, execMemoryReadMessage, hm, hc, hf, Bool.not_false, if_true]

variable (hf : s.firstOn n conn = true)
include hf

theorem memRead_empty (hl : len = 0) : exec (.memoryReadMessage n) s = .next (s.endMessage n conn (.data conn got)) := by
  simp only [exec_memoryReadMessage, execMemoryReadMessage, hm, hc, hf, Bool.not_true, Bool.false_eq_true, if_false, hl, if_true]

variable (hl : len ≠ 0) {u : State}
include hl

theorem memRead_closed (hp : s.messagePlace cn needRead va (pieceLength va len) = (.error none, u)) :
    exec (.memoryReadMessage n) s = .next s := by
  simp only [exec_memoryReadMessage, execMemoryReadMessage, hm, hc, hf, Bool.not_true, Bool.false_eq_true, if_false, hl, hp]

theorem memRead_fails {c : Cause} (hp : s.messagePlace cn needRead va (pieceLength va len) = (.error (some c), u)) :
    exec (.memoryReadMessage n) s = .next (u.endMessage n conn (.error conn c)) := by
  simp only [exec_memoryReadMessage, execMemoryReadMessage, hm, hc, hf, Bool.not_true, Bool.false_eq_true, if_false, hl, hp]

/-- A piece that has a place: the message ends with its data, or goes on with the rest. -/
theorem memRead_moves {g : Target} (hp : s.messagePlace cn needRead va (pieceLength va len) = (.ok g, u)) {w : State} {bs : List Byte}
    (hr : u.readPiece cn va g (pieceLength va len) = (bs, w)) :
    (len ≤ pieceLength va len → exec (.memoryReadMessage n) s = .next (w.endMessage n conn (.data conn (got ++ bs))))
    ∧ (pieceLength va len < len → exec (.memoryReadMessage n) s = .next
        { w with msgs := Table.put w.msgs n (.memRead conn (va + BitVec.ofNat 57 (pieceLength va len)) (len - pieceLength va len) (got ++ bs)) }) := by
  simp only [exec_memoryReadMessage, execMemoryReadMessage, hm, hc, hf, Bool.not_true, Bool.false_eq_true, if_false, hl, hp, hr]
  exact ⟨fun h => by rw [if_pos h], fun h => by rw [if_neg (Nat.not_le.mpr h)]⟩

end

/-! A write (R223, R256) -/

section
variable {s : State} {n conn cn : Nat} {va : VAddr} {bs : List Byte} (hm : Table.find s.msgs n = some (.memWrite conn va bs))
include hm

theorem memWrite_dropped (hc : s.boundContext conn = none) :
    exec (.memoryWriteMessage n) s = .next { s with msgs := Table.drop s.msgs n } := by
  simp only [exec_memoryWriteMessage, execMemoryWriteMessage, hm, hc]

variable (hc : s.boundContext conn = some cn)
include hc

theorem memWrite_waits (hf : s.firstOn n conn = false) : exec (.memoryWriteMessage n) s = .next s := by
  simp only [exec_memoryWriteMessage, execMemoryWriteMessage, hm, hc, hf, Bool.not_false, if_true]

variable (hf : s.firstOn n conn = true)
include hf

theorem memWrite_empty (hl : bs = []) : exec (.memoryWriteMessage n) s = .next (s.endMessage n conn (.done conn)) := by
  simp only [exec_memoryWriteMessage, execMemoryWriteMessage, hm, hc, hf, Bool.not_true, Bool.false_eq_true, if_false, hl, if_true]

variable (hl : bs ≠ []) {u : State}
include hl

theorem memWrite_closed (hp : s.messagePlace cn needWrite va (pieceLength va bs.length) = (.error none, u)) :
    exec (.memoryWriteMessage n) s = .next s := by
  simp only [exec_memoryWriteMessage, execMemoryWriteMessage, hm, hc, hf, Bool.not_true, Bool.false_eq_true, if_false, hl, hp]

theorem memWrite_fails {c : Cause} (hp : s.messagePlace cn needWrite va (pieceLength va bs.length) = (.error (some c), u)) :
    exec (.memoryWriteMessage n) s = .next (u.endMessage n conn (.error conn c)) := by
  simp only [exec_memoryWriteMessage, execMemoryWriteMessage, hm, hc, hf, Bool.not_true, Bool.false_eq_true, if_false, hl, hp]

/-- A piece that has a place: the message ends with its confirmation, or goes on with the rest. -/
theorem memWrite_moves {g : Target} (hp : s.messagePlace cn needWrite va (pieceLength va bs.length) = (.ok g, u)) {w : State}
    (hw : u.writePiece cn va g (bs.take (pieceLength va bs.length)) = w) :
    (bs.length ≤ pieceLength va bs.length → exec (.memoryWriteMessage n) s = .next (w.endMessage n conn (.done conn)))
    ∧ (pieceLength va bs.length < bs.length → exec (.memoryWriteMessage n) s = .next
        { w with msgs := Table.put w.msgs n (.memWrite conn (va + BitVec.ofNat 57 (pieceLength va bs.length)) (bs.drop (pieceLength va bs.length))) }) := by
  simp only [exec_memoryWriteMessage, execMemoryWriteMessage, hm, hc, hf, Bool.not_true, Bool.false_eq_true, if_false, hl, hp, hw]
  exact ⟨fun h => by rw [if_pos h], fun h => by rw [if_neg (Nat.not_le.mpr h)]⟩

end

/-! Management messages, attestation and links (R396 to R399) -/

section
variable {s : State} {n : Nat}

theorem management_answered {r : Request} (hm : Table.find s.msgs n = some (.management r)) :
    (s.rejected = true → exec (.managementMessage n) s = .next ({ s with msgs := Table.drop s.msgs n }.emit .rejected))
    ∧ (s.rejected = false → exec (.managementMessage n) s = .next ({ s with msgs := Table.drop s.msgs n }.manage r)) := by
  simp only [exec_managementMessage, execManagementMessage, hm]
  exact ⟨fun h => by rw [if_pos h], fun h => by rw [h]; rfl⟩

theorem attestation_answered (nonce : BitVec 512) :
    (s.portUp = false → exec (.attestationRequest nonce) s = .next s)
    ∧ (s.portUp = true → s.rejected = true → exec (.attestationRequest nonce) s = .next (s.emit .rejected))
    ∧ (s.portUp = true → s.rejected = false → exec (.attestationRequest nonce) s = .next (s.emit (.attestation (s.attestation nonce)))) := by
  simp only [exec_attestationRequest, execAttestationRequest, State.attest]
  refine ⟨fun hp => by rw [hp]; rfl, fun hp hr => ?_, fun hp hr => ?_⟩
  · rw [if_pos hp, if_pos hr]
  · rw [if_pos hp, hr]; rfl

/-- A report has 208 bytes and a signature of 512 (R399). -/
theorem attestation_length (nonce : BitVec 512) : (s.attestation nonce).length = 720 := by
  simp [State.attestation, State.attestationBody, bytesOf]

theorem linkUp_of_enabled (hn : n < 8) (he : s.netcfg.getLsbD n = true) :
    exec (.ethernetLinkUp n) s = .next { s with ports := Table.put s.ports n s.netcfg }.flush := by
  rw [exec_ethernetLinkUp, execEthernetLinkUp, if_pos ⟨hn, he⟩]

theorem linkUp_of_disabled (h : 8 ≤ n ∨ s.netcfg.getLsbD n = false) : exec (.ethernetLinkUp n) s = .next s := by
  rw [exec_ethernetLinkUp, execEthernetLinkUp, if_neg]
  rintro ⟨hn, he⟩
  rcases h with h | h
  · omega
  · rw [h] at he; cases he

end

/-- Settles O55: the outcomes of a read (`memRead_waits`, `memRead_moves`) and of a write (`memWrite_waits`, `memWrite_moves`) of the first message of its connection, and of the messages of the security core. -/
theorem messagesFromOutsideAreServed : Obligations.MessagesFromOutsideAreServed := by
  unfold Obligations.MessagesFromOutsideAreServed
  intro s n
  refine ⟨fun conn va len got hm => ⟨memRead_dropped hm, fun cn hc hb => ?_, fun cn hc hb => ?_⟩,
    fun conn va bs hm => ⟨memWrite_dropped hm, fun cn hc hb => ?_, fun cn hc hb => ?_⟩, fun r hm => management_answered hm,
    fun nonce => ?_, linkUp_of_enabled, linkUp_of_disabled⟩
  · exact memRead_waits hm hc (State.firstOn_of_one_before hb)
  · have hf := State.firstOn_of_none_before hb
    refine ⟨memRead_empty hm hc hf, fun hl u hp => memRead_closed hm hc hf hl hp, fun hl c u hp => memRead_fails hm hc hf hl hp, ?_, ?_⟩
    · exact fun hl pa u hp => memRead_moves hm hc hf hl hp rfl
    · exact fun hl d o u hp => memRead_moves hm hc hf hl hp rfl
  · exact memWrite_waits hm hc (State.firstOn_of_one_before hb)
  · have hf := State.firstOn_of_none_before hb
    refine ⟨memWrite_empty hm hc hf, fun hl u hp => memWrite_closed hm hc hf hl hp, fun hl c u hp => memWrite_fails hm hc hf hl hp, ?_, ?_⟩
    · exact fun hl pa u hp => memWrite_moves hm hc hf hl hp rfl
    · exact fun hl d o u hp => memWrite_moves hm hc hf hl hp rfl
  · obtain ⟨hdown, hrejected, hserved⟩ := attestation_answered (s := s) nonce
    exact ⟨hdown, hrejected, hserved, attestation_length nonce⟩

end Sys2Proof.Machine
end

section
/-! SUPPORT. The handover of pages (R350 to R357): kvgive and kvtake in a group of one thread, the close of a range, its change of owner, and the later test of a kvtake.wait; O38. -/

namespace Sys2Proof.Machine

theorem exec_kvgive (f : XF) (s : State) : exec (.kvgive f) s = execKvgive f s := rfl
theorem exec_kvtake (f : XF) (s : State) : exec (.kvtake f) s = execKvtake f s := rfl
theorem exec_kvgiveClose (i : Nat) (s : State) : exec (.kvgiveClose i) s = execKvgiveClose i s := rfl
theorem exec_ownershipChange (i : Nat) (s : State) : exec (.ownershipChange i) s = execOwnershipChange i s := rfl
theorem exec_kvtakeComplete (t : ThreadId) (s : State) : exec (.kvtakeComplete t) s = execKvtakeComplete t s := rfl

/-- What kvgive and kvtake read before their own meaning. -/
abbrev giveShape (f : XF) : Shape := { guard := f.g, srcs := giveSources f, inS := true }
abbrev takeShape (f : XF) : Shape := { guard := f.g, srcs := takeSources f, inS := true }

/-! kvgive (R353, R357) -/

/-- The check of a kvgive: its range and its receiver (check 1 of R357). -/
def giveValid (va k receiver : Nat) : Bool := rangeValid va k && receiver != 0 && decide (receiver ≤ 4095)

theorem giveValid_iff {va k receiver : Nat} : giveValid va k receiver = true ↔
    va % 65536 = 0 ∧ 1 ≤ k ∧ k ≤ 32768 ∧ va + k * 65536 ≤ 2 ^ 57 ∧ 1 ≤ receiver ∧ receiver ≤ 4095 := by
  simp only [giveValid, rangeValid, Bool.and_eq_true, decide_eq_true_eq, bne_iff_ne]
  omega

theorem giveValid_not (va k receiver : Nat) :
    (!rangeValid va k || receiver == 0 || decide (4095 < receiver)) = !giveValid va k receiver := by
  have hle : decide (4095 < receiver) = !decide (receiver ≤ 4095) := by simp only [← Nat.not_le, decide_not]
  simp [giveValid, hle, bne]

section
variable {f : XF} {s : State} {n : Nat} {g : Group} {t : ThreadId} {x : Thread} {m : Team} (h : Solo s n g t x m (giveShape f))
  {va : DWord} {k receiver : Nat} (hva : arg64 (s.valuesOf (giveShape f) t) 0 = va)
  (hk : (arg (s.valuesOf (giveShape f) t) 1).toNat = k) (hr : (arg (s.valuesOf (giveShape f) t) 2).toNat = receiver)
include h hva hk hr

theorem kvgive_stays (hv : giveValid va.toNat k receiver = true) : Stays (.kvgive f) s n t
    { (s.resumed n).bump with gives := Table.put s.gives s.newId ⟨t, m.cn, va.toNat, k, receiver, [], false⟩ } := by
  refine (exec_kvgive f s).trans (runGroup_solo_park h ?_)
  simp only [hva, hk, hr, giveValid_not, hv, Bool.not_true, Bool.false_eq_true, if_false, State.resumed_cnOf, h.cnOf]
  rfl

theorem kvgive_traps (hv : giveValid va.toNat k receiver = false) : Traps (.kvgive f) s n g t 0x098 [va] (s.resumed n) := by
  refine (exec_kvgive f s).trans (runGroup_solo_trap h ?_)
  simp only [hva, hk, hr, giveValid_not, hv, Bool.not_false, if_true]

end

/-! kvtake (R355, R357) -/

theorem walkNowFrom_resumed (s : State) (n va : Nat) (ls : List Level) :
    ∀ top base, walkNowFrom (s.resumed n) va ls top base = walkNowFrom s va ls top base := by
  induction ls with
  | nil => exact fun _ _ => rfl
  | cons l ls ih =>
    intro top base
    simp only [walkNowFrom, ih]
    rfl

@[simp] theorem State.resumed_takeTest (s : State) (n : Nat) (t : ThreadId) (va k : Nat) :
    (s.resumed n).takeTest t va k = s.takeTest t va k := by
  have hw : ∀ cn va, (s.resumed n).walkNow cn va = s.walkNow cn va := fun cn va => by
    simp only [State.walkNow, walkNowFrom_resumed]
    rfl
  simp only [State.takeTest, State.rangeWalks, hw, State.resumed_cnOf]

/-- A group of one thread that tries its instruction is held in no kvtake.wait. -/
theorem Solo.takeWaits {s : State} {n : Nat} {g : Group} {t : ThreadId} {x : Thread} {m : Team} {sh : Shape}
    (h : Solo s n g t x m sh) : (s.resumed n).takeWaits t = false := by
  simp [State.takeWaits, State.groupOf, h.thread, h.status, State.resumed, h.group, h.engaged]

section
variable {f : XF} {s : State} {n : Nat} {g : Group} {t : ThreadId} {x : Thread} {m : Team} (h : Solo s n g t x m (takeShape f))
  {res : Option RangeFail × Bool}
  (hres : s.takeTest t (arg64 (s.valuesOf (takeShape f) t) 0).toNat (arg (s.valuesOf (takeShape f) t) 1).toNat = res)
include h hres

/-- The state of a kvtake whose walk has met an error reply: the cause is queued (R241, R401; log 20). -/
theorem kvtake_lost {c : Cause} {va : Nat} {b : Bool} (hl : res = (some (.lost c va), b)) : Commits (.kvtake f) s n t (takeShape f)
    (if f.lo = 0 then (s.resumed n).defer t ⟨c, g.pc, errorAux (BitVec.ofNat 57 va) va⟩
      else ((s.resumed n).defer t ⟨c, g.pc, errorAux (BitVec.ofNat 57 va) va⟩).alterThread t fun x => x.setPred (f.c.toNat % 8) false) := by
  refine (exec_kvtake f s).trans (runGroup_solo_done h ?_)
  simp only [h.takeWaits, Bool.false_eq_true, and_false, if_false, State.resumed_takeTest, hres, hl, State.deferLost, h.pcAt]

theorem kvtake_traps {c : Cause} {va : Nat} {b : Bool} (hc : res = (some (.check c va), b)) :
    Traps (.kvtake f) s n g t c [BitVec.ofNat 64 va] (s.resumed n) := by
  refine (exec_kvtake f s).trans (runGroup_solo_trap h ?_)
  simp only [h.takeWaits, Bool.false_eq_true, and_false, if_false, State.resumed_takeTest, hres, hc]

theorem kvtakeWait_commits (hlo : f.lo = 0) (hyes : res = (none, true)) :
    Commits (.kvtake f) s n t (takeShape f) ((s.resumed n).takePages t) := by
  refine (exec_kvtake f s).trans (runGroup_solo_done h ?_)
  simp only [h.takeWaits, Bool.false_eq_true, and_false, if_false, State.resumed_takeTest, hres, hyes, hlo, if_true]

theorem kvtakeWait_stays (hlo : f.lo = 0) (hno : res = (none, false)) : Stays (.kvtake f) s n t (s.resumed n) := by
  refine (exec_kvtake f s).trans (runGroup_solo_park h ?_)
  simp only [h.takeWaits, Bool.false_eq_true, and_false, if_false, State.resumed_takeTest, hres, hno, hlo, if_true]

theorem kvtakeTest_takes (hlo : f.lo ≠ 0) (hyes : res = (none, true)) : Commits (.kvtake f) s n t (takeShape f)
    (((s.resumed n).takePages t).alterThread t fun x => x.setPred (f.c.toNat % 8) true) := by
  refine (exec_kvtake f s).trans (runGroup_solo_done h ?_)
  simp only [hlo, false_and, if_false, State.resumed_takeTest, hres, hyes, if_true]

theorem kvtakeTest_fails (hlo : f.lo ≠ 0) (hno : res = (none, false)) : Commits (.kvtake f) s n t (takeShape f)
    ((s.resumed n).alterThread t fun x => x.setPred (f.c.toNat % 8) false) := by
  refine (exec_kvtake f s).trans (runGroup_solo_done h ?_)
  simp only [hlo, false_and, if_false, State.resumed_takeTest, hres, hno, Bool.false_eq_true]

end

/-! The close of a range and its change of owner (R353, R354, R357) -/

section
variable {s : State} {i : Nat} {g : Give} (hg : Table.find s.gives i = some g)
include hg

theorem kvgiveClose_closes (ho : g.closed = false) (hu : s.undrained g.t = false) : exec (.kvgiveClose i) s = .next
    { s with gives := Table.put s.gives i { g with leaves := leafAddrs (s.rangeWalks g.cn g.va g.pages), closed := true } } := by
  simp only [exec_kvgiveClose, execKvgiveClose, hg, ho, hu, Bool.or_self, Bool.false_eq_true, if_false]

theorem kvgiveClose_waits (h : g.closed = true ∨ s.undrained g.t = true) : exec (.kvgiveClose i) s = .next s := by
  simp only [exec_kvgiveClose, execKvgiveClose, hg]
  exact if_pos (by simpa using h)

theorem ownershipChange_waits (h : ¬ (g.closed = true ∧ s.firstGive i g = true ∧ s.writesInto (s.rangeWalks g.cn g.va g.pages) = false)) :
    exec (.ownershipChange i) s = .next s := by
  simp only [exec_ownershipChange, execOwnershipChange, hg]
  exact if_pos (by simpa [imp_iff_not_or, or_assoc] using h)

variable (h : g.closed = true ∧ s.firstGive i g = true ∧ s.writesInto (s.rangeWalks g.cn g.va g.pages) = false)
include h

theorem ownershipChange_traps {c : Cause} {va : Nat} (hf : rangeFails (s.rangeWalks g.cn g.va g.pages) (some g.cn) = some (.check c va)) :
    exec (.ownershipChange i) s = .next ({ s with gives := Table.drop s.gives i }.trapThread g.t c [BitVec.ofNat 64 va]) := by
  obtain ⟨hc, hfirst, hw⟩ := h
  simp only [exec_ownershipChange, execOwnershipChange, hg, hc, hfirst, hw, hf, Bool.not_true, Bool.or_self, Bool.false_eq_true, if_false]

theorem ownershipChange_lost {c : Cause} {va : Nat} (hf : rangeFails (s.rangeWalks g.cn g.va g.pages) (some g.cn) = some (.lost c va)) :
    exec (.ownershipChange i) s = .next ((s.defer g.t ⟨c, s.pcAt g.t, errorAux (BitVec.ofNat 57 va) va⟩).endGive i g.t) := by
  obtain ⟨hc, hfirst, hw⟩ := h
  simp only [exec_ownershipChange, execOwnershipChange, hg, hc, hfirst, hw, hf, Bool.not_true, Bool.or_self, Bool.false_eq_true, if_false]
  rfl

/-- G: every page of the range changes its owner in one event of S, and the giver goes on. -/
theorem ownershipChange_changes {v : State} (hv : (leafAddrs (s.rangeWalks g.cn g.va g.pages)).foldl
      (fun (v : State) a => v.setOwn (s.nameOf g.t).lid g.owner a) s.place = v)
    (hf : rangeFails (s.rangeWalks g.cn g.va g.pages) (some g.cn) = none) : exec (.ownershipChange i) s = .next
      (({ v with gave := (pagesOf (s.rangeWalks g.cn g.va g.pages)).foldl (fun (m : Table Nat Nat) p => Table.put m p v.seq) v.gave }.dropLeaves
        (leafAddrs (s.rangeWalks g.cn g.va g.pages))).endGive i g.t) := by
  obtain ⟨hc, hfirst, hw⟩ := h
  simp only [exec_ownershipChange, execOwnershipChange, hg, hc, hfirst, hw, hf, hv, Bool.not_true, Bool.or_self, Bool.false_eq_true, if_false]

end

/-! The later test of a kvtake.wait (R355, R357) -/

section
variable {s : State} {t : ThreadId} {f : XF} {g : Group} (hi : s.presentInstr t = some (.kvtake f)) (hg : s.groupOf t = some g)
  (hlo : f.lo = 0) (hfirst : (g.members.find? fun u => g.engaged.contains u) = some t.t)
include hi hg hlo hfirst

/-- What the first thread that is held in a kvtake.wait comes to, by what its range shows. -/
theorem kvtakeComplete_tests {res : Option RangeFail × Bool} :
    s.takeTest t (arg64 (s.valuesOf { guard := f.g, srcs := takeSources f } t) 0).toNat
      (arg (s.valuesOf { guard := f.g, srcs := takeSources f } t) 1).toNat = res →
    exec (.kvtakeComplete t) s = match res with
    | (some (.check c va), _) => .next (s.trapThread t c [BitVec.ofNat 64 va])
    | (some (.lost c va), _) => .next ((s.deferLost t c va).completeParked t (takeSources f))
    | (none, true) => .next ((s.takePages t).completeParked t (takeSources f))
    | (none, false) => .next s := by
  intro hres
  have hf : ¬ (f.lo ≠ 0 ∨ (g.members.find? fun u => g.engaged.contains u) ≠ some t.t) := by
    rw [hfirst]
    simp [hlo]
  simp only [exec_kvtakeComplete, execKvtakeComplete, hi, hg, hres, if_neg hf] <;> rfl

end

/-- Settles O38: kvgive by its check (`giveValid`), kvtake by its test of the range (`kvtake_traps`, `kvtakeWait_commits`, `kvtakeTest_takes`), the events of a give (`kvgiveClose_closes`, `ownershipChange_changes`) and the later test (`kvtakeComplete_tests`). -/
theorem pagesChangeTheirOwner : Obligations.PagesChangeTheirOwner := by
  unfold Obligations.PagesChangeTheirOwner
  refine ⟨fun f s n g t x m => ⟨?_, ?_⟩, fun s i g hg => ?_, ?_⟩
  · intro sh h vs va k receiver good
    refine ⟨fun hv => kvgive_stays h rfl rfl rfl (giveValid_iff.mpr hv), fun hv => kvgive_traps h rfl rfl rfl ?_⟩
    exact Bool.eq_false_iff.mpr (mt giveValid_iff.mp hv)
  · intro sh h vs put lost res
    refine ⟨fun hyes => ⟨fun hlo => ?_, fun hlo => ?_⟩, fun hno => ⟨fun hlo => ?_, fun hlo => ?_⟩, fun c va b hc => ?_, fun c va b hl => ?_⟩
    · exact kvtakeWait_commits h rfl hlo hyes
    · exact kvtakeTest_takes h rfl hlo hyes
    · exact kvtakeWait_stays h rfl hlo hno
    · exact kvtakeTest_fails h rfl hlo hno
    · exact kvtake_traps h rfl hc
    · exact kvtake_lost h rfl hl
  · intro ws ready
    refine ⟨kvgiveClose_closes hg, kvgiveClose_waits hg, fun hready => ⟨fun hf => ?_, fun c va hf => ?_, fun c va hf => ?_⟩, ownershipChange_waits hg⟩
    · exact ownershipChange_changes hg hready rfl hf
    · exact ownershipChange_traps hg hready hf
    · exact ownershipChange_lost hg hready hf
  · intro s t f g hi hg hlo hfirst vs res
    have htests {r : Option RangeFail × Bool} (hr : res = r) := kvtakeComplete_tests hi hg hlo hfirst hr
    exact ⟨htests, htests, fun c va b => htests, fun c va b => htests⟩

end Sys2Proof.Machine
end

section
/-! SUPPORT. What leaves memory as it is: one lemma for each function of the model that answers with a state and writes no byte, in the order of the model (O59) -/

namespace Sys2Proof.Machine

/-! What an answer leaves -/

/-- The state that a turn at an instruction leaves. -/
def Attempt.state : Attempt → State
  | .done s => s
  | .wait _ s => s
  | .engage s => s
  | .park s => s
  | .left s => s
  | .trap _ _ s => s

/-- The states that the parts of an instruction leave: a push, a fetch, the check of a target, a piece that is read, a launch record, and the pieces of a spill or a fill. -/
def Pushed.state : Pushed → State
  | .ok s => s
  | .trap _ s => s
  | .full _ s => s
def Fetch.state : Fetch → State
  | .got _ s => s
  | .closed s => s
def TargetCheck.state : TargetCheck → State
  | .ok s => s
  | .trap _ _ s => s
  | .closed s => s
def Piece.state : Piece → State
  | .got _ s => s
  | .bad s => s
  | .closed s => s
def RecordRead.state : RecordRead → State
  | .ok _ _ s => s
  | .unreadable s => s
  | .closed s => s
def Spill.state : Spill → State
  | .ok s => s
  | .trap _ _ s => s
  | .error _ _ s => s
  | .closed s => s

/-- The state after an answer that may give none: `s` itself then. -/
def Moved.after {α : Type} (s : State) : Moved α → State
  | .ok _ _ u => u
  | .fault _ u => u
  | .later => s
def Whole.after (s : State) : Whole → State
  | .ok u _ => u
  | .wait _ => s
  | .cause _ _ => s
def State.after (s : State) : Result → State
  | .next u => u
  | .fault _ => s
  | .refused _ => s

@[simp] theorem Attempt.state_done (s : State) : (Attempt.done s).state = s := rfl
@[simp] theorem Attempt.state_wait (h : Hold) (s : State) : (Attempt.wait h s).state = s := rfl
@[simp] theorem Attempt.state_engage (s : State) : (Attempt.engage s).state = s := rfl
@[simp] theorem Attempt.state_park (s : State) : (Attempt.park s).state = s := rfl
@[simp] theorem Attempt.state_left (s : State) : (Attempt.left s).state = s := rfl
@[simp] theorem Attempt.state_trap (c : Cause) (aux : List DWord) (s : State) : (Attempt.trap c aux s).state = s := rfl
@[simp] theorem Pushed.state_ok (s : State) : (Pushed.ok s).state = s := rfl
@[simp] theorem Pushed.state_trap (c : Cause) (s : State) : (Pushed.trap c s).state = s := rfl
@[simp] theorem Pushed.state_full (stack : Option Nat) (s : State) : (Pushed.full stack s).state = s := rfl
@[simp] theorem Fetch.state_got (f : Fetched) (s : State) : (Fetch.got f s).state = s := rfl
@[simp] theorem Fetch.state_closed (s : State) : (Fetch.closed s).state = s := rfl
@[simp] theorem TargetCheck.state_ok (s : State) : (TargetCheck.ok s).state = s := rfl
@[simp] theorem TargetCheck.state_trap (c : Cause) (aux : List DWord) (s : State) : (TargetCheck.trap c aux s).state = s := rfl
@[simp] theorem TargetCheck.state_closed (s : State) : (TargetCheck.closed s).state = s := rfl
@[simp] theorem Piece.state_got (bs : List Byte) (s : State) : (Piece.got bs s).state = s := rfl
@[simp] theorem Piece.state_bad (s : State) : (Piece.bad s).state = s := rfl
@[simp] theorem Piece.state_closed (s : State) : (Piece.closed s).state = s := rfl
@[simp] theorem RecordRead.state_ok (bs range : List Byte) (s : State) : (RecordRead.ok bs range s).state = s := rfl
@[simp] theorem RecordRead.state_unreadable (s : State) : (RecordRead.unreadable s).state = s := rfl
@[simp] theorem RecordRead.state_closed (s : State) : (RecordRead.closed s).state = s := rfl
@[simp] theorem Spill.state_ok (s : State) : (Spill.ok s).state = s := rfl
@[simp] theorem Spill.state_trap (c : Cause) (aux : List DWord) (s : State) : (Spill.trap c aux s).state = s := rfl
@[simp] theorem Spill.state_error (c : Cause) (aux : List DWord) (s : State) : (Spill.error c aux s).state = s := rfl
@[simp] theorem Spill.state_closed (s : State) : (Spill.closed s).state = s := rfl
@[simp] theorem Moved.after_ok {α : Type} (s : State) (v : α) (x : Command) (u : State) : (Moved.ok v x u).after s = u := rfl
@[simp] theorem Moved.after_fault {α : Type} (s : State) (n : Nat) (u : State) : (Moved.fault n u : Moved α).after s = u := rfl
@[simp] theorem Moved.after_later {α : Type} (s : State) : (Moved.later : Moved α).after s = s := rfl
@[simp] theorem Whole.after_ok (s u : State) (e : Effect) : (Whole.ok u e).after s = u := rfl
@[simp] theorem Whole.after_wait (s : State) (h : Hold) : (Whole.wait h).after s = s := rfl
@[simp] theorem Whole.after_cause (s : State) (c : Cause) (aux : List DWord) : (Whole.cause c aux).after s = s := rfl
@[simp] theorem State.after_next (s u : State) : s.after (.next u) = u := rfl
@[simp] theorem State.after_fault (s : State) (f : Fault) : s.after (.fault f) = s := rfl
@[simp] theorem State.after_refused (s : State) (f : Refusal) : s.after (.refused f) = s := rfl

@[simp] theorem State.ite_mem (c : Prop) [Decidable c] (a b : State) : (if c then a else b).mem = if c then a.mem else b.mem :=
  apply_ite State.mem c a b

/-- A state with the memory of another. A structure, so that `simp` proves it, where the two memories are equal by definition, as a fact of its own. -/
structure State.SameMem (u s : State) : Prop where
  mem : u.mem = s.mem

@[simp] theorem State.sameMem_iff (u s : State) : u.SameMem s ↔ u.mem = s.mem :=
  ⟨fun h => h.mem, fun h => ⟨h⟩⟩

/-- A fold of updates that each leave memory as it is leaves it as it is. -/
@[simp] theorem State.foldl_mem {α : Type} (f : State → α → State) (hf : ∀ s a, (f s a).SameMem s) (l : List α) (s : State) :
    (l.foldl f s).mem = s.mem := by
  induction l generalizing s with
  | nil => rfl
  | cons a l ih => exact (ih (f s a)).trans (hf s a).mem

/-! Machine/Ops -/

@[simp] theorem State.setThread_mem (s : State) (t : ThreadId) (x : Thread) : (s.setThread t x).mem = s.mem := rfl

@[simp] theorem State.setArray_mem (s : State) (c : CoreId) (a : Nat) (x : FieldArray) : (s.setArray c a x).mem = s.mem := rfl

@[simp] theorem State.alterArray_mem (s : State) (c : CoreId) (a : Nat) (f : FieldArray → FieldArray) :
    (s.alterArray c a f).mem = s.mem := rfl

@[simp] theorem State.setBarrier_mem (s : State) (c : CoreId) (o : Nat) (b : Barrier) : (s.setBarrier c o b).mem = s.mem := rfl

@[simp] theorem State.raise_mem (s : State) (t : ThreadId) (ts : BitVec 48) : (s.raise t ts).mem = s.mem := rfl

@[simp] theorem State.acquire_mem (s : State) (t : ThreadId) : (s.acquire t).mem = s.mem := rfl

@[simp] theorem State.fieldPlace_mem (s : State) (t : ThreadId) : (s.fieldPlace t).mem = s.mem := by
  unfold State.fieldPlace
  dsimp only
  split <;> simp

@[simp] theorem State.stepGens_mem (s : State) (c : CoreId) (os : List GenObject) : (s.stepGens c os).mem = s.mem := by
  simp [State.stepGens]

@[simp] theorem State.noteChecked_mem (s : State) (c : CoreId) (os : List GenObject) : (s.noteChecked c os).mem = s.mem := rfl

@[simp] theorem State.orLater_mem {s u : State} (h : u.mem = s.mem) : (s.orLater u).mem = s.mem := by
  unfold State.orLater
  split
  · rfl
  · exact h

@[simp] theorem State.fillWords_mem (s : State) (t : ThreadId) (ws : List (Nat × Word)) : (s.fillWords t ws).mem = s.mem := by
  simp [State.fillWords]

@[simp] theorem State.writeRegs_mem (s : State) (t : ThreadId) (rs : List (Nat × Word)) : (s.writeRegs t rs).mem = s.mem := by
  unfold State.writeRegs
  split <;> simp

@[simp] theorem State.emptyRegs_mem (s : State) (t : ThreadId) (r n : Nat) : (s.emptyRegs t r n).mem = s.mem := rfl

@[simp] theorem State.count_mem (s : State) (c : CoreId) (code k : Nat) (who : Name) (gate : Bool) :
    (s.count c code k who gate).mem = s.mem :=
  (count_cacheOnly s c code k who gate).timed.mem

@[simp] theorem State.countFor_mem (s : State) (t : ThreadId) (code k : Nat) : (s.countFor t code k).mem = s.mem := by
  simp [State.countFor]

@[simp] theorem State.setAnomaly_mem (s : State) (t : ThreadId) : (s.setAnomaly t).mem = s.mem := by
  simp [State.setAnomaly]

@[simp] theorem State.leaveGroup_mem (s : State) (t : ThreadId) : (s.leaveGroup t).mem = s.mem := by
  unfold State.leaveGroup
  (repeat' split) <;> simp

@[simp] theorem State.arrive_mem (s : State) (t : ThreadId) (pc : VAddr) : (s.arrive t pc).mem = s.mem := by
  simp [State.arrive]

@[simp] theorem State.report_mem (s : State) (t : ThreadId) (x : Trap) : (s.report t x).mem = s.mem := rfl

@[simp] theorem State.reportNone_mem (s : State) (c : CoreId) (n : Name) (x : Trap) : (s.reportNone c n x).mem = s.mem := by
  simp [State.reportNone]

@[simp] theorem State.stop_mem (s : State) (t : ThreadId) (at_ : Option (Clause × Nat)) : (s.stop t at_).mem = s.mem := by
  simp [State.stop]

@[simp] theorem State.stopFor_mem (s : State) (t : ThreadId) (x : Trap) (inHandler : Bool) : (s.stopFor t x inHandler).mem = s.mem := by
  simp [State.stopFor]

@[simp] theorem State.deliver_mem (s : State) (t : ThreadId) (tr : Trap) (ret : VAddr) (keep : Option (Clause × Nat)) :
    (s.deliver t tr ret keep).mem = s.mem := by
  simp [State.deliver]

@[simp] theorem State.takeTrap_mem (s : State) (t : ThreadId) (tr : Trap) (ret : VAddr) (keep : Option (Clause × Nat)) :
    (s.takeTrap t tr ret keep).mem = s.mem := by
  unfold State.takeTrap
  split <;> simp

@[simp] theorem State.trapAt_mem (s : State) (t : ThreadId) (x : Clause) (k : Nat) (cause : Cause) (aux : List DWord) :
    (s.trapAt t x k cause aux).mem = s.mem := by
  simp [State.trapAt]

@[simp] theorem State.trapHeader_mem (s : State) (t : ThreadId) (header : VAddr) (cause : Cause) (aux : List DWord) :
    (s.trapHeader t header cause aux).mem = s.mem := by
  simp [State.trapHeader]

@[simp] theorem State.machineCheck_mem (s : State) (d kind : Nat) : (s.machineCheck d kind).mem = s.mem := rfl

@[simp] theorem State.lateError_mem (s : State) (c : CoreId) : (s.lateError c).mem = s.mem := by
  simp [State.lateError]

@[simp] theorem State.defer_mem (s : State) (t : ThreadId) (tr : Trap) : (s.defer t tr).mem = s.mem := by
  unfold State.defer
  split <;> simp

@[simp] theorem State.returnTrap_mem (s : State) (t : ThreadId) : (s.returnTrap t).mem = s.mem := by
  unfold State.returnTrap
  split <;> simp

/-! Machine/Driver -/

@[simp] theorem State.endClause_mem (s : State) (n : Nat) (g : Group) : (s.endClause n g).mem = s.mem :=
  State.foldl_mem _ (by simp) g.members s

@[simp] theorem State.passOn_mem (s : State) (n : Nat) : (s.passOn n).mem = s.mem := by
  unfold State.passOn
  split <;> simp

@[simp] theorem State.markDone_mem (s : State) (n t : Nat) : (s.markDone n t).mem = s.mem := rfl

@[simp] theorem State.finish_mem (s : State) (t : ThreadId) : (s.finish t).mem = s.mem := by
  unfold State.finish
  split <;> simp

@[simp] theorem State.progress_mem (s : State) (t : ThreadId) : (s.progress t).mem = s.mem := rfl

@[simp] theorem State.trapIn_mem (s : State) (g : Group) (t : Nat) (cause : Cause) (aux : List DWord) :
    (s.trapIn g t cause aux).mem = s.mem := by
  simp [State.trapIn]

@[simp] theorem State.popFor_mem (s : State) (t : ThreadId) (srcs : List Src) : (s.popFor t srcs).mem = s.mem := rfl

@[simp] theorem State.popQueues_mem (s : State) (t : ThreadId) (pops : List Nat) : (s.popQueues t pops).mem = s.mem := by
  simp [State.popQueues]

@[simp] theorem State.skipOthers_mem (s : State) (n : Nat) (active : List Nat) : (s.skipOthers n active).mem = s.mem := rfl

@[simp] theorem State.holdGroup_mem (s : State) (n : Nat) (h : Hold) : (s.holdGroup n h).mem = s.mem := rfl

@[simp] theorem State.trapEach_mem (s : State) (g : Group) (traps : List (Nat × Cause × List DWord)) :
    (s.trapEach g traps).mem = s.mem := by
  simp [State.trapEach]

/-! A property `P` of memory that each turn keeps is kept by the instruction. -/

section
variable {P : Memory → Prop} {body : State → ThreadId → List DWord → Attempt}
  (hb : ∀ u t vs, P u.mem → P (body u t vs).state.mem)
include hb

theorem State.attempt_keeps {s : State} (h : P s.mem) (n : Nat) (g : Group) (sh : Shape) (t : Nat) : P (s.attempt n g sh body t).1.mem := by
  have h := hb s ⟨g.team, t⟩ (s.valuesOf sh ⟨g.team, t⟩) h
  unfold State.attempt
  dsimp only
  split <;> rename_i hq <;> rw [hq] at h <;> simpa using h

theorem State.attemptAll_keeps (n : Nat) (g : Group) (sh : Shape) (traps : List (Nat × Cause × List DWord)) (ts : List Nat) :
    ∀ {s : State}, P s.mem → P (State.attemptAll n g sh body traps ts s).1.mem := by
  induction ts with
  | nil => exact fun h => h
  | cons t ts ih =>
    intro s h
    have h' := State.attempt_keeps hb h n g sh t
    unfold State.attemptAll
    split
    · exact ih (by simpa using h)
    · split <;> rename_i hq <;> rw [hq] at h'
      · exact ih h'
      · exact h'

theorem State.runIn_keeps {s : State} (h : P s.mem) (n : Nat) (g : Group) (sh : Shape) : P (s.runIn n g sh body).mem := by
  have h' := State.attemptAll_keeps hb n g sh (s.trapsOf g sh (s.activeOf g sh.guard)) (s.activeOf g sh.guard)
    (s := (s.skipOthers n (s.activeOf g sh.guard)).alterGroup n fun g => { g with hold := if g.engaged = [] then none else some .engaged })
    (by simpa using h)
  unfold State.runIn
  dsimp only
  split
  · simpa using h
  · split <;> rename_i hq <;> rw [hq] at h'
    · simpa using h'
    · split
      · simpa using h
      · simpa using h'

/-- What each turn of a group keeps of memory, the instruction keeps. -/
theorem runGroup_keeps {s : State} (h : P s.mem) (sh : Shape) : P (s.after (runGroup s sh body)).mem := by
  unfold runGroup
  split
  · exact h
  · split
    · exact h
    · exact State.runIn_keeps hb h _ _ _

theorem needPriv_keeps (p csr : Nat) (u : State) (t : ThreadId) (vs : List DWord) (h : P u.mem) :
    P (needPriv p csr body u t vs).state.mem := by
  unfold needPriv
  (repeat' split) <;> simp [hb, h]

end

/-- An instruction whose turns leave memory as it is leaves memory as it is. -/
theorem runGroup_mem {body : State → ThreadId → List DWord → Attempt} (hb : ∀ u t vs, (body u t vs).state.mem = u.mem) (s : State)
    (sh : Shape) : (s.after (runGroup s sh body)).mem = s.mem :=
  runGroup_keeps (P := (· = s.mem)) (fun u t vs hu => (hb u t vs).trans hu) rfl sh

theorem runWhole_mem {body : State → Nat → Group → List Nat → State} (hb : ∀ u n g ts, (body u n g ts).mem = u.mem) (s : State)
    (sh : Shape) : (s.after (runWhole s sh body)).mem = s.mem := by
  unfold runWhole
  split
  · rfl
  · split
    · rfl
    · dsimp only
      split <;> simp [hb]

theorem needPriv_mem {body : State → ThreadId → List DWord → Attempt} (hb : ∀ u t vs, (body u t vs).state.mem = u.mem) (p csr : Nat)
    (s : State) (t : ThreadId) (vs : List DWord) : (needPriv p csr body s t vs).state.mem = s.mem :=
  needPriv_keeps (P := (· = s.mem)) (fun u t vs hu => (hb u t vs).trans hu) p csr s t vs rfl

/-! Machine/Memory -/

@[simp] theorem State.useHome_mem (s : State) (a : Asker) (pa : Nat) (u : CacheUse) (cls : Option Nat) (w : Bool) :
    (s.useHome a pa u cls w).mem = s.mem :=
  (useHome_cacheOnly s a pa u cls w).timed.mem

@[simp] theorem State.walk_mem (s : State) (die cn : Nat) (va : VAddr) : (s.walk die cn va).2.mem = s.mem :=
  (walk_keptOnly s die cn va).cacheOnly.timed.mem

@[simp] theorem State.translate_mem (s : State) (die cn : Nat) (need : Need) (va : VAddr) : (s.translate die cn need va).2.mem = s.mem :=
  (translate_keptOnly s die cn need va).cacheOnly.timed.mem

@[simp] theorem State.countPage_mem (s : State) (d pa : Nat) (w : Bool) : (s.countPage d pa w).mem = s.mem :=
  (countPage_cacheOnly s d pa w).timed.mem

@[simp] theorem State.floorHomes_mem (s : State) (die : Nat) (ltime : BitVec 48) : (s.floorHomes die ltime).mem = s.mem := by
  simp [State.floorHomes]

@[simp] theorem State.floorStamps_mem (s : State) (c : CoreId) (ltime : BitVec 48) : (s.floorStamps c ltime).mem = s.mem := by
  simp [State.floorStamps]

@[simp] theorem State.readAt_mem (s : State) (pa : Nat) (ts : BitVec 48) : (s.readAt pa ts).mem = s.mem := rfl

@[simp] theorem State.noteLanding_mem (s : State) (x : Command) : (s.noteLanding x).mem = s.mem := rfl

@[simp] theorem State.copyFor_mem (s : State) (a : Asker) (x : Thread) (pa : Nat) (u : CacheUse) (cls : Option Nat) (renew : Bool) :
    (s.copyFor a x pa u cls renew).2.mem = s.mem :=
  (copyFor_cacheOnly s a x pa u cls renew).timed.mem

@[simp] theorem State.loadCached_mem (s : State) (t : ThreadId) (va : VAddr) (pa : Nat) (u : CacheUse) (cls : Option Nat) (renew : Bool) :
    (s.loadCached t va pa u cls renew).2.mem = s.mem :=
  (loadCached_timed s t va pa u cls renew).mem

@[simp] theorem State.fenceHere_mem (s : State) (t : ThreadId) : (s.fenceHere t).mem = s.mem := rfl

@[simp] theorem State.loadBytes_mem (s : State) (t : ThreadId) (va : VAddr) (pa n : Nat) (u : Option CacheUse) :
    (s.loadBytes t va pa n u).2.2.mem = s.mem :=
  Machine.loadBytes_mem s t va pa n u

@[simp] theorem State.outsideUse_mem (s : State) (cn : Nat) (va : VAddr) (pa : Nat) (write : Bool) :
    (s.outsideUse cn va pa write).mem = s.mem := by
  simp [State.outsideUse]

@[simp] theorem State.issueAccess_mem (s : State) (x : Access) : (s.issueAccess x).mem = s.mem := rfl

/-! Machine/Field -/

@[simp] theorem State.keepCells_mem (s : State) (c : CoreId) (a off n : Nat) : (s.keepCells c a off n).mem = s.mem := rfl

@[simp] theorem State.completeWaiter_mem (s : State) (c : CoreId) (a : Nat) (w : Waiter) (v : DWord) :
    (s.completeWaiter c a w v).mem = s.mem := by
  simp [State.completeWaiter]

@[simp] theorem State.walkArray_mem (s : State) (c : CoreId) (a : Nat) : (s.walkArray c a).mem = s.mem := by
  simp [State.walkArray]

@[simp] theorem State.walkCore_mem (s : State) (c : CoreId) : (s.walkCore c).mem = s.mem := by
  simp [State.walkCore]

@[simp] theorem State.noteWords_mem (s : State) (c : CoreId) (a : Nat) (x : FieldArray) (changed : List (Nat × Bool)) :
    (s.noteWords c a x changed).mem = s.mem := rfl

@[simp] theorem State.writeCells_mem (s : State) (c : CoreId) (a off : Nat) (bs : List Byte) : (s.writeCells c a off bs).mem = s.mem := by
  simp [State.writeCells]

@[simp] theorem State.setWords_mem (s : State) (c : CoreId) (a : Nat) (ws : List Nat) (full : Bool) :
    (s.setWords c a ws full).mem = s.mem := rfl

@[simp] theorem State.prepare_mem (s : State) (c : CoreId) (a : Nat) : (s.prepare c a).mem = s.mem := rfl

@[simp] theorem State.own_mem (s : State) (c : CoreId) (a team : Nat) : (s.own c a team).mem = s.mem := rfl

@[simp] theorem State.releaseArray_mem (s : State) (c : CoreId) (a : Nat) : (s.releaseArray c a).mem = s.mem := rfl

@[simp] theorem State.dueRequest_mem (s : State) (c : CoreId) (a : Nat) : (s.dueRequest c a).mem = s.mem := by
  unfold State.dueRequest
  dsimp only
  split <;> simp

@[simp] theorem State.scrub_mem (s : State) (c : CoreId) (a : Nat) : (s.scrub c a).mem = s.mem := by
  simp [State.scrub]

@[simp] theorem State.completeRequest_mem (s : State) (c : CoreId) (a : Nat) : (s.completeRequest c a).mem = s.mem := by
  unfold State.completeRequest
  dsimp only
  (repeat' split) <;> simp

@[simp] theorem State.requestMode_mem (s : State) (c : CoreId) (a : Nat) (compute : Bool) : (s.requestMode c a compute).mem = s.mem := rfl

@[simp] theorem State.askMode_mem (s : State) (n a r : Nat) : (s.askMode n a r).mem = s.mem := rfl

@[simp] theorem State.answerMode_mem (s : State) (n : Nat) (c : CoreId) (a : Nat) : (s.answerMode n c a).mem = s.mem := rfl

/-! Machine/Engine -/

@[simp] theorem State.tagTile_mem (s : State) (c : CoreId) (base : Nat) (ws : List Word) : (s.tagTile c base ws).mem = s.mem := by
  simp [State.tagTile]

@[simp] theorem State.issueCommand_mem (s : State) (t : ThreadId) (q : Nat) (ws : List Word) (stack : Option Nat) :
    (s.issueCommand t q ws stack).mem = s.mem := by
  unfold State.issueCommand
  split <;> simp

@[simp] theorem State.pushCommand_mem (s : State) (t : ThreadId) (q : Nat) (w : Word) (pops : List Nat) :
    (s.pushCommand t q w pops).state.mem = s.mem := by
  unfold State.pushCommand
  dsimp only
  (repeat' split) <;> simp

@[simp] theorem State.holdPush_mem (s : State) (t : ThreadId) (q : Nat) (w : Word) (stack : Option Nat) (pops : List Nat)
    (preds : List (Nat × Bool)) (anomaly counted : Bool) : (s.holdPush t q w stack pops preds anomaly counted).mem = s.mem := rfl

@[simp] theorem State.acceptPush_mem (s : State) (n : Nat) (h : HeldPush) : (s.acceptPush n h).mem = s.mem := by
  unfold State.acceptPush
  dsimp only
  (repeat' split) <;> simp

theorem execEnginePushAccepted_mem (n : Nat) (s : State) : (s.after (execEnginePushAccepted n s)).mem = s.mem := by
  unfold execEnginePushAccepted
  split <;> simp

@[simp] theorem State.alterCommand_mem (s : State) (e : Nat) (f : Command → Command) : (s.alterCommand e f).mem = s.mem := rfl

theorem Moved.andThen_keeps {α β : Type} {P : Memory → Prop} {s : State} {r : Moved α} {f : α → Command → State → Moved β}
    (h : P s.mem) (hr : P (r.after s).mem) (hf : ∀ v x u, P u.mem → P ((f v x u).after u).mem) : P ((r.andThen f).after s).mem := by
  cases r with
  | ok v x u =>
    have h' := hf v x u hr
    show P ((f v x u).after s).mem
    cases hq : f v x u <;> rw [hq] at h' <;> simp_all
  | fault n u => exact hr
  | later => exact h

theorem Moved.andThen_mem {α β : Type} {s : State} {r : Moved α} {f : α → Command → State → Moved β} (hr : (r.after s).mem = s.mem)
    (hf : ∀ v x u, ((f v x u).after u).mem = u.mem) : ((r.andThen f).after s).mem = s.mem :=
  Moved.andThen_keeps (P := (· = s.mem)) rfl hr fun v x u hu => (hf v x u).trans hu

@[simp] theorem State.engineAt_mem (s : State) (x : Command) (need : Need) (va : VAddr) : ((s.engineAt x need va).after s).mem = s.mem := by
  have h := s.translate_mem x.die x.cn need va
  unfold State.engineAt
  split <;> rename_i hq <;> rw [hq] at h
  · split <;> simpa using h
  · exact h
  · exact h
  · exact h
  · rfl

@[simp] theorem engineReadRuns_mem (va : VAddr) (p : Nat) (rs : List (Nat × Nat)) :
    ∀ (x : Command) (s : State), ((engineReadRuns va p rs x s).after s).mem = s.mem := by
  induction rs with
  | nil => exact fun _ _ => rfl
  | cons r rs ih =>
    intro x s
    refine Moved.andThen_mem (s.engineAt_mem x needRead _) fun pa x u => ?_
    dsimp only
    split
    · rfl
    · exact Moved.andThen_mem (ih _ u) fun _ _ _ => rfl

@[simp] theorem engineRead_mem (field : Bool) (addr : Int) (n p : Nat) (x : Command) (s : State) :
    ((engineRead field addr n p x s).after s).mem = s.mem := by
  unfold engineRead
  dsimp only
  (repeat' split) <;> simp

@[simp] theorem engineWriteRuns_mem (va : VAddr) (n : Nat) (bs : List Byte) (rs : List (Nat × Nat)) :
    ∀ (x : Command) (s : State), ((engineWriteRuns va n bs rs x s).after s).mem = s.mem := by
  induction rs with
  | nil => exact fun _ _ => rfl
  | cons r rs ih => exact fun x s => Moved.andThen_mem (s.engineAt_mem x needWrite _) fun _ _ u => ih _ u

@[simp] theorem engineWrite_mem (field : Bool) (addr : Int) (n : Nat) (bs : List Byte) (x : Command) (s : State) :
    ((engineWrite field addr n bs x s).after s).mem = s.mem := by
  unfold engineWrite
  split <;> simp

theorem moveElement_keeps {P : Memory → Prop} {body : Command → State → Moved Unit} (hb : ∀ x u, P u.mem → P ((body x u).after u).mem)
    (type e n p : Nat) {s : State} (h : P s.mem) : P (s.after (moveElement type e n p body s)).mem := by
  unfold moveElement
  split
  · exact h
  · rename_i x _
    split
    · exact h
    · have h' := hb x s h
      split <;> rename_i hq <;> rw [hq] at h'
      · simpa using h'
      · simpa using h'
      · exact h

theorem moveElement_mem {body : Command → State → Moved Unit} (hb : ∀ x u, ((body x u).after u).mem = u.mem) (type e n p : Nat)
    (s : State) : (s.after (moveElement type e n p body s)).mem = s.mem :=
  moveElement_keeps (P := (· = s.mem)) (fun x u hu => (hb x u).trans hu) type e n p rfl

theorem execEcopy_mem (e n p : Nat) (s : State) : (s.after (execEcopy e n p s)).mem = s.mem :=
  moveElement_mem (fun x u => Moved.andThen_mem (engineRead_mem _ _ _ _ x u) fun _ _ _ => engineWrite_mem _ _ _ _ _ _) 0 e n p s

@[simp] theorem State.writeKreg_mem (s : State) (c : CoreId) (k from_ : Nat) (bs : List Byte) :
    (s.writeKreg c k from_ bs).mem = s.mem := rfl

theorem execEtld_mem (e n p : Nat) (s : State) : (s.after (execEtld e n p s)).mem = s.mem := by
  refine moveElement_mem (fun x u => ?_) 1 e n p s
  dsimp only
  split
  · refine Moved.andThen_mem (engineRead_mem _ _ _ _ x u) fun bs y v => ?_
    simp only [Moved.after_ok]
    split
    · exact v.setAnomaly_mem _
    · rfl
  · split
    · rfl
    · exact Moved.andThen_mem (engineRead_mem _ _ _ _ x u) fun _ _ _ => rfl

theorem execEtst_mem (e n p : Nat) (s : State) : (s.after (execEtst e n p s)).mem = s.mem := by
  refine moveElement_mem (fun x u => ?_) 2 e n p s
  dsimp only
  split
  · exact Moved.andThen_mem (engineRead_mem _ _ _ _ x u) fun _ _ _ => engineWrite_mem _ _ _ _ _ _
  · split <;> exact engineWrite_mem _ _ _ _ _ _

@[simp] theorem readIndex_mem (x : Command) (n p : Nat) (s : State) : ((readIndex x n p s).after s).mem = s.mem :=
  Moved.andThen_mem (engineRead_mem _ _ _ _ x s) fun _ _ _ => rfl

theorem execEgath_mem (e n p : Nat) (s : State) : (s.after (execEgath e n p s)).mem = s.mem :=
  moveElement_mem (fun x u => Moved.andThen_mem (readIndex_mem x n p u) fun _ _ _ =>
    Moved.andThen_mem (engineRead_mem _ _ _ _ _ _) fun _ _ _ => engineWrite_mem _ _ _ _ _ _) 3 e n p s

theorem Moved.after_mem_of {α : Type} {m : Moved α} {u v : State} (hm : (m.after u).mem = u.mem) (hu : u.mem = v.mem) :
    (m.after v).mem = v.mem := by
  cases m with
  | ok a x w => exact Eq.trans hm hu
  | fault n w => exact Eq.trans hm hu
  | later => rfl

theorem execEconv_mem (e n p : Nat) (s : State) : (s.after (execEconv e n p s)).mem = s.mem := by
  refine moveElement_mem (fun x u => Moved.andThen_mem (engineRead_mem _ _ _ _ x u) fun bs y v => ?_) 5 e n p s
  refine Moved.after_mem_of (Moved.andThen_mem (engineWrite_mem _ _ _ _ _ _) fun _ _ _ => engineWrite_mem _ _ _ _ _ _) ?_
  split <;> simp

@[simp] theorem State.refuseWrite_mem (s : State) (e status : Nat) : (s.refuseWrite e status).mem = s.mem := by
  unfold State.refuseWrite
  (repeat' split) <;> simp

@[simp] theorem State.recordTile_mem (s : State) (x : Command) : (s.recordTile x).mem = s.mem := rfl

@[simp] theorem State.meetField_mem (s : State) (c : CoreId) : (s.meetField c).mem = s.mem := rfl

@[simp] theorem State.landWord_mem (s : State) (e : Nat) (x : Command) (a w : Nat) : (s.landWord e x a w).mem = s.mem := by
  simp [State.landWord]

@[simp] theorem State.forget_mem (s : State) (e : Nat) : (s.forget e).mem = s.mem := by
  unfold State.forget
  split <;> simp

@[simp] theorem State.fillTargets_mem (s : State) (x : Command) : (s.fillTargets x).mem = s.mem := by
  simp [State.fillTargets]

@[simp] theorem State.complete_mem (s : State) (e : Nat) (x : Command) : (s.complete e x).mem = s.mem := by
  simp [State.complete]

theorem execEngineCompletion_mem (e : Nat) (s : State) : (s.after (execEngineCompletion e s)).mem = s.mem := by
  unfold execEngineCompletion
  split <;> simp

/-! Machine/Lane -/

@[simp] theorem State.applyEffect_mem (s : State) (t : ThreadId) (e : Effect) : (s.applyEffect t e).mem = s.mem := by
  simp [State.applyEffect]

@[simp] theorem State.attemptEffect_mem (s : State) (t : ThreadId) (pops : List Nat) (counted : Bool) (e : Effect) :
    (s.attemptEffect t pops counted e).state.mem = s.mem := by
  unfold State.attemptEffect
  split
  · simp
  · rename_i p _
    have h := s.pushCommand_mem t p.1 p.2 pops
    split <;> rename_i hq <;> rw [hq] at h <;> simpa using h

theorem laneBody_mem (sh : Shape) (eff : State → ThreadId → Team → Thread → List DWord → Effect) (s : State) (t : ThreadId)
    (vs : List DWord) : (laneBody sh eff s t vs).state.mem = s.mem := by
  unfold laneBody
  split <;> simp

/-- The instructions of the lane families leave memory as it is (R133). -/
@[simp] theorem runLane_mem (sh : Shape) (eff : State → ThreadId → Team → Thread → List DWord → Effect) (s : State) :
    (s.after (runLane sh eff s)).mem = s.mem :=
  runGroup_mem (laneBody_mem sh eff) s sh

@[simp] theorem lane1_mem (f : RF) (op : Word → Word) (a : State) : (a.after (lane1 f op a)).mem = a.mem := runLane_mem _ _ _

@[simp] theorem lane2_mem (f : RF) (op : Word → Word → Word) (a : State) : (a.after (lane2 f op a)).mem = a.mem := runLane_mem _ _ _

@[simp] theorem laneCompare_mem (f : RF) (test : Word → Word → Bool) (a : State) : (a.after (laneCompare f test a)).mem = a.mem := by
  unfold laneCompare
  split <;> simp

theorem execIcmp_mem (f : RF) (s : State) : (s.after (execIcmp f s)).mem = s.mem := by
  simp [execIcmp]

theorem execFcmp_mem (f : RF) (s : State) : (s.after (execFcmp f s)).mem = s.mem := by
  simp [execFcmp]

theorem execAlnb_mem (f : RF) (s : State) : (s.after (execAlnb f s)).mem = s.mem := by
  unfold execAlnb
  split <;> simp

theorem execMov_mem (f : RF) (s : State) : (s.after (execMov f s)).mem = s.mem := by
  unfold execMov
  split <;> simp

theorem execMovc_mem (f : RF) (s : State) : (s.after (execMovc f s)).mem = s.mem := by
  unfold execMovc
  split <;> simp

theorem execMovs_mem (f : RF) (s : State) : (s.after (execMovs f s)).mem = s.mem := by
  unfold execMovs
  split <;> simp

theorem execPmov_mem (f : RF) (s : State) : (s.after (execPmov f s)).mem = s.mem := by
  unfold execPmov
  split <;> simp

/-! Machine/Sync -/

@[simp] theorem State.send_mem (s : State) (m : Msg) : (s.send m).mem = s.mem := rfl

@[simp] theorem State.emit_mem (s : State) (o : Out) : (s.emit o).mem = s.mem := by
  simp [State.emit]

@[simp] theorem State.flush_mem (s : State) : (s.flush).mem = s.mem := rfl

@[simp] theorem State.sendTo_mem (s : State) (h : Handle) (m : Msg) (o : Out) : (s.sendTo h m o).mem = s.mem := by
  simp [State.sendTo]

@[simp] theorem State.flip_mem (s : State) (c : CoreId) (o : Nat) : (s.flip c o).mem = s.mem := by
  unfold State.flip
  split <;> simp

@[simp] theorem State.completePhase_mem (s : State) (c : CoreId) (o : Nat) : (s.completePhase c o).mem = s.mem := by
  unfold State.completePhase
  dsimp only
  split <;> simp

@[simp] theorem State.countArrival_mem (s : State) (c : CoreId) (o n : Nat) : (s.countArrival c o n).mem = s.mem := by
  simp [State.countArrival]

@[simp] theorem State.reachStep_mem (s : State) (t : ThreadId) : (s.reachStep t).mem = s.mem := rfl

@[simp] theorem State.acceptThread_mem (s : State) (c : CoreId) (o k : Nat) (t : ThreadId) (n : Nat) (arm drop : Bool)
    (dest : Option Nat) : (s.acceptThread c o k t n arm drop dest).mem = s.mem := by
  unfold State.acceptThread
  (repeat' split) <;> simp

@[simp] theorem State.trapThread_mem (s : State) (t : ThreadId) (cause : Cause) (aux : List DWord) :
    (s.trapThread t cause aux).mem = s.mem := by
  unfold State.trapThread
  (repeat' split) <;> simp

@[simp] theorem State.acceptWaiting_mem (c : CoreId) (o fuel : Nat) : ∀ s : State, (State.acceptWaiting c o fuel s).mem = s.mem := by
  induction fuel with
  | zero => exact fun _ => rfl
  | succ fuel ih =>
    intro s
    unfold State.acceptWaiting
    dsimp only
    split
    · rfl
    · split
      · rfl
      · rw [ih]
        split <;> (repeat' split) <;> simp

@[simp] theorem State.settleBarrier_mem (s : State) (c : CoreId) (o : Nat) : (s.settleBarrier c o).mem = s.mem :=
  State.acceptWaiting_mem c o _ s

@[simp] theorem State.observe_mem (s : State) (t : ThreadId) (k : Nat) : (s.observe t k).mem = s.mem := by
  unfold State.observe
  split <;> simp

@[simp] theorem State.withdraw_mem (s : State) (t : ThreadId) (k : Nat) : (s.withdraw t k).mem = s.mem := by
  unfold State.withdraw
  (repeat' split) <;> simp

@[simp] theorem State.withdrawAll_mem (s : State) (t : ThreadId) : (s.withdrawAll t).mem = s.mem := by
  unfold State.withdrawAll
  split <;> simp

@[simp] theorem State.breakBarrier_mem (s : State) (c : CoreId) (o : Nat) : (s.breakBarrier c o).mem = s.mem := by
  simp [State.breakBarrier]

theorem withBarrier_mem {body : State → ThreadId → CoreId → Nat → Barrier → List DWord → Attempt}
    (hb : ∀ u t c o b vs, (body u t c o b vs).state.mem = u.mem) (n : Nat) (initial : Bool) (s : State) (t : ThreadId) (vs : List DWord) :
    (withBarrier n initial body s t vs).state.mem = s.mem := by
  unfold withBarrier
  dsimp only
  (repeat' split) <;> simp [hb]

theorem execBarinit_mem (f : SyncF) (s : State) : (s.after (execBarinit f s)).mem = s.mem := by
  refine runGroup_mem (withBarrier_mem (fun _ _ _ _ _ _ => ?_) _ _) _ _
  dsimp only
  (repeat' split) <;> simp

theorem execBarlink_mem (f : SyncF) (s : State) : (s.after (execBarlink f s)).mem = s.mem := by
  refine runGroup_mem (withBarrier_mem (fun _ _ _ _ _ _ => ?_) _ _) _ _
  dsimp only
  (repeat' split) <;> simp

@[simp] theorem arrive_mem (t : ThreadId) (c : CoreId) (o k n : Nat) (arm drop : Bool) (dest pop : Option Nat) (s : State) :
    (arrive t c o k n arm drop dest pop s).state.mem = s.mem := by
  unfold arrive
  dsimp only
  (repeat' split) <;> simp

theorem execBararr_mem (f : SyncF) (s : State) : (s.after (execBararr f s)).mem = s.mem := by
  refine runGroup_mem (withBarrier_mem (fun _ _ _ _ _ _ => ?_) _ _) _ _
  dsimp only
  (repeat' split) <;> simp

theorem execBartry_mem (f : SyncF) (s : State) : (s.after (execBartry f s)).mem = s.mem := by
  refine runGroup_mem (withBarrier_mem (fun _ _ _ _ _ _ => ?_) _ _) _ _
  dsimp only
  (repeat' split) <;> simp

theorem execBarwait_mem (f : SyncF) (s : State) : (s.after (execBarwait f s)).mem = s.mem := by
  refine runGroup_mem (withBarrier_mem (fun _ _ _ _ _ _ => ?_) _ _) _ _
  (repeat' split) <;> simp

theorem execBartest_mem (f : SyncF) (s : State) : (s.after (execBartest f s)).mem = s.mem := by
  refine runGroup_mem (withBarrier_mem (fun _ _ _ _ _ _ => ?_) _ _) _ _
  (repeat' split) <;> simp

theorem execBardrop_mem (f : SyncF) (s : State) : (s.after (execBardrop f s)).mem = s.mem := by
  refine runGroup_mem (withBarrier_mem (fun _ _ _ _ _ _ => ?_) _ _) _ _
  dsimp only
  (repeat' split) <;> simp

@[simp] theorem State.take_mem (s : State) (n : Nat) : (s.take n).mem = s.mem := rfl

@[simp] theorem State.keepFor_mem (s : State) (n : Nat) (m : Msg) : (s.keepFor n m).mem = s.mem := rfl

@[simp] theorem State.takeAnswer_mem (s : State) (child parent : Handle) (ok : Bool) : (s.takeAnswer child parent ok).mem = s.mem := by
  unfold State.takeAnswer
  dsimp only
  split <;> simp

@[simp] theorem State.applyLink_mem (s : State) (parent child : Handle) : (s.applyLink parent child).mem = s.mem := by
  simp [State.applyLink]

@[simp] theorem State.applyArrival_mem (s : State) (p c : Handle) (drop : Bool) : (s.applyArrival p c drop).mem = s.mem := by
  simp [State.applyArrival]

@[simp] theorem State.applyFlip_mem (s : State) (c : Handle) (last : Bool) : (s.applyFlip c last).mem = s.mem := by
  simp [State.applyFlip]

@[simp] theorem State.applyBarrierMsg_mem (s : State) (m : Msg) : (s.applyBarrierMsg m).mem = s.mem := by
  unfold State.applyBarrierMsg
  split <;> simp

@[simp] theorem State.deliverBarrier_mem (s : State) (n : Nat) (m : Msg) : (s.deliverBarrier n m).mem = s.mem := by
  unfold State.deliverBarrier
  (repeat' split) <;> simp

theorem execBarrierLinkMessage_mem (n : Nat) (s : State) : (s.after (execBarrierLinkMessage n s)).mem = s.mem := by
  unfold execBarrierLinkMessage
  split <;> simp

theorem execBarrierArrivalMessage_mem (n : Nat) (s : State) : (s.after (execBarrierArrivalMessage n s)).mem = s.mem := by
  unfold execBarrierArrivalMessage
  split <;> simp

theorem execBarrierFlipMessage_mem (n : Nat) (s : State) : (s.after (execBarrierFlipMessage n s)).mem = s.mem := by
  unfold execBarrierFlipMessage
  split <;> simp

theorem execBarrierWaiterWake_mem (c : CoreId) (o : Nat) (s : State) : (s.after (execBarrierWaiterWake c o s)).mem = s.mem := by
  unfold execBarrierWaiterWake
  split <;> simp

@[simp] theorem State.alterChannel_mem (s : State) (k : Nat × Nat × Nat) (f : Channel → Channel) : (s.alterChannel k f).mem = s.mem := rfl

theorem withChannel_mem {body : State → ThreadId → Team → Channel → Attempt} (hb : ∀ u t m h, (body u t m h).state.mem = u.mem)
    (c : Nat) (send : Bool) (s : State) (t : ThreadId) (vs : List DWord) : (withChannel c send body s t vs).state.mem = s.mem := by
  unfold withChannel
  (repeat' split) <;> simp [hb]

@[simp] theorem State.sendSlot_mem (s : State) (t : ThreadId) (m : Team) (c q : Nat) (h : Channel) :
    (s.sendSlot t m c q h).mem = s.mem := rfl

@[simp] theorem State.receiveSlot_mem (s : State) (t : ThreadId) (m : Team) (c q slot : Nat) (h : Channel) :
    (s.receiveSlot t m c q slot h).mem = s.mem := rfl

theorem execChsend_mem (f : SyncF) (s : State) : (s.after (execChsend f s)).mem = s.mem := by
  refine runGroup_mem (withChannel_mem (fun _ _ _ _ => ?_) _ _) _ _
  dsimp only
  (repeat' split) <;> simp

theorem execChrecv_mem (f : SyncF) (s : State) : (s.after (execChrecv f s)).mem = s.mem := by
  refine runGroup_mem (withChannel_mem (fun _ _ _ _ => ?_) _ _) _ _
  dsimp only
  (repeat' split) <;> simp

theorem execChtry_mem (f : SyncF) (s : State) : (s.after (execChtry f s)).mem = s.mem := by
  unfold execChtry
  dsimp only
  split
  · refine runGroup_mem (withChannel_mem (fun u t m h => ?_) _ _) s _
    (repeat' split) <;> simp
  · refine runGroup_mem (withChannel_mem (fun u t m h => ?_) _ _) s _
    (repeat' split) <;> simp

@[simp] theorem State.landSlot_mem (s : State) (key : Nat × Nat × Nat) (h : Channel) (core : CoreId) (slot : Nat) :
    (s.landSlot key h core slot).mem = s.mem := by
  simp [State.landSlot]

theorem execChannelSlotLanding_mem (n : Nat) (s : State) : (s.after (execChannelSlotLanding n s)).mem = s.mem := by
  unfold execChannelSlotLanding
  (repeat' split) <;> simp

/-! Machine/Control -/

@[simp] theorem State.fetchAt_mem (s : State) (t : ThreadId) (va : VAddr) (renew : Bool) : (s.fetchAt t va renew).1.state.mem = s.mem := by
  have h := s.translate_mem (s.coreOf t).die (s.cnOf t) needFetch va
  unfold State.fetchAt
  dsimp only
  split <;> rename_i hq <;> rw [hq] at h
  · rename_i pa u
    have h' := u.loadCached_mem t va pa (.normal 2) (u.classFor t va) renew
    split <;> rename_i hq' <;> rw [hq'] at h' <;> exact h'.trans h
  all_goals exact h

@[simp] theorem State.fetchWord_mem (s : State) (t : ThreadId) (va : VAddr) : (s.fetchWord t va).state.mem = s.mem :=
  s.fetchAt_mem t va false

@[simp] theorem State.refetchFrom_mem (t : ThreadId) (left : Nat) :
    ∀ (s : State) (x : Clause) (k : Nat), (((s.refetchFrom t x k left).map Prod.snd).getD s).mem = s.mem := by
  induction left with
  | zero => exact fun _ _ _ => rfl
  | succ left ih =>
    intro s x k
    unfold State.refetchFrom
    split
    · have h := s.place.fetchWord_mem t (x.address k)
      split <;> rename_i hq <;> rw [hq] at h
      · rfl
      · rename_i f u
        have h' := ih u { x with words := x.words.set k f } (k + 1)
        cases hr : u.refetchFrom t { x with words := x.words.set k f } (k + 1) left <;> rw [hr] at h'
        · rfl
        · exact h'.trans h
    · exact ih _ _ _

@[simp] theorem State.refetch_mem (s : State) (t : ThreadId) (x : Clause) (k : Nat) :
    (((s.refetch t x k).map Prod.snd).getD s).mem = s.mem := by
  simp [State.refetch]

@[simp] theorem State.checkTarget_mem (s : State) (t : ThreadId) (va : VAddr) : (s.checkTarget t va).state.mem = s.mem := by
  have h := s.fetchWord_mem t va
  unfold State.checkTarget
  split
  · rfl
  · split <;> rename_i hq <;> rw [hq] at h
    · exact h
    · exact h
    · split <;> exact h

@[simp] theorem State.transfer_mem (s : State) (t : ThreadId) (va : VAddr) {move : State → State} (hm : ∀ u, (move u).SameMem u) :
    (s.transfer t va move).state.mem = s.mem := by
  have h := s.checkTarget_mem t va
  unfold State.transfer
  split <;> rename_i hq <;> rw [hq] at h <;> simpa [(hm _).mem] using h

theorem execBr_mem (f : BrF) (s : State) : (s.after (execBr f s)).mem = s.mem := by
  refine runGroup_mem (fun _ _ _ => ?_) _ _
  simp

theorem execBrc_mem (f : BrcF) (s : State) : (s.after (execBrc f s)).mem = s.mem := by
  refine runGroup_mem (fun _ _ _ => ?_) _ _
  dsimp only
  (repeat' split) <;> simp

theorem execBrx_mem (f : RF) (s : State) : (s.after (execBrx f s)).mem = s.mem := by
  refine runGroup_mem (fun _ _ _ => ?_) _ _
  simp

@[simp] theorem State.stepBlocks_mem (s : State) (t : ThreadId) : (s.stepBlocks t).mem = s.mem := by
  unfold State.stepBlocks
  split <;> simp

@[simp] theorem State.callTo_mem (s : State) (t : ThreadId) (va : VAddr) {sign : State → State} (hm : ∀ u, (sign u).SameMem u) :
    (s.callTo t va sign).state.mem = s.mem := by
  have h := s.checkTarget_mem t va
  unfold State.callTo
  split <;> rename_i hq <;> rw [hq] at h
  · exact h
  · exact h
  · split <;> simpa [(hm _).mem] using h

theorem execCall_mem (f : BrF) (s : State) : (s.after (execCall f s)).mem = s.mem := by
  refine runGroup_mem (fun _ _ _ => ?_) _ _
  simp

theorem execCallx_mem (f : RF) (s : State) : (s.after (execCallx f s)).mem = s.mem := by
  refine runGroup_mem (fun _ _ _ => ?_) _ _
  simp

theorem execRet_mem (f : RF) (s : State) : (s.after (execRet f s)).mem = s.mem := by
  refine runGroup_mem (fun _ _ _ => ?_) _ _
  (repeat' split) <;> simp

@[simp] theorem State.breakRendezvous_mem (s : State) (t : ThreadId) : (s.breakRendezvous t).mem = s.mem := by
  unfold State.breakRendezvous
  split <;> simp

@[simp] theorem State.exitThread_mem (s : State) (t : ThreadId) : (s.exitThread t).mem = s.mem := by
  simp [State.exitThread]

theorem execExit_mem (f : RF) (s : State) : (s.after (execExit f s)).mem = s.mem := by
  refine runGroup_mem (fun _ _ _ => ?_) _ _
  simp

theorem execYield_mem (f : RF) (s : State) : (s.after (execYield f s)).mem = s.mem := by
  refine runGroup_mem (fun _ _ _ => ?_) _ _
  simp

theorem execNop_mem (f : RF) (s : State) : (s.after (execNop f s)).mem = s.mem := by
  refine runGroup_mem (fun _ _ _ => ?_) _ _
  simp

theorem execYieldDelayEnd_mem (t : ThreadId) (s : State) : (s.after (execYieldDelayEnd t s)).mem = s.mem := by
  unfold execYieldDelayEnd
  split <;> simp

/-! Machine/Collective -/

@[simp] theorem State.giveResult_mem (s : State) (u : ThreadId) (e : Effect) : (s.giveResult u e).mem = s.mem := by
  have h := s.attemptEffect_mem u [] true e
  unfold State.giveResult
  split <;> rename_i hq <;> rw [hq] at h <;> simpa using h

@[simp] theorem State.joinMembers_mem (s : State) (us : List ThreadId) : (s.joinMembers us).mem = s.mem := by
  simp [State.joinMembers]

@[simp] theorem State.meet_mem (s : State) (t : ThreadId) (m : Team) (d : Option Byte) (pops : List Nat) (a b mask : Word) (f : Combine) :
    (s.meet t m d pops a b mask f).state.mem = s.mem := by
  unfold State.meet
  dsimp only
  (repeat' split) <;> simp

theorem execShfl_mem (f : RF) (s : State) : (s.after (execShfl f s)).mem = s.mem := by
  refine runGroup_mem (fun _ _ _ => ?_) _ _
  (repeat' split) <;> simp

theorem execVote_mem (f : RF) (s : State) : (s.after (execVote f s)).mem = s.mem := by
  refine runGroup_mem (fun _ _ _ => ?_) _ _
  (repeat' split) <;> simp

theorem execGred_mem (f : RF) (s : State) : (s.after (execGred f s)).mem = s.mem := by
  refine runGroup_mem (fun _ _ _ => ?_) _ _
  (repeat' split) <;> simp

theorem execGsync_mem (f : RF) (s : State) : (s.after (execGsync f s)).mem = s.mem := by
  refine runGroup_mem (fun _ _ _ => ?_) _ _
  (repeat' split) <;> simp

/-! Machine/FieldInstr -/

@[simp] theorem State.loadInFlight_mem (s : State) (t : ThreadId) (words : List Nat) (v : DWord) (atomic : Bool) :
    (s.loadInFlight t words v atomic).mem = s.mem := by
  simp [State.loadInFlight]

@[simp] theorem State.performField_mem (s : State) (c : CoreId) (a : Nat) (w : Waiter) (sees : Bool) :
    (s.performField c a w sees).mem = s.mem := by
  unfold State.performField
  split <;> simp

@[simp] theorem State.enqueue_mem (s : State) (c : CoreId) (a : Nat) (w : Waiter) : (s.enqueue c a w).mem = s.mem := rfl

@[simp] theorem State.parkOn_mem (s : State) (c : CoreId) (a : Nat) (w : Waiter) : (s.parkOn c a w).mem = s.mem := by
  simp [State.parkOn]

theorem State.fieldTurn_mem (size : Nat) (ofs : BitVec 24) (access : Thread → List DWord → Waiter) (s : State) (t : ThreadId)
    (vs : List DWord) : (fieldTurn size ofs access s t vs).state.mem = s.mem := by
  unfold fieldTurn
  dsimp only
  (repeat' split) <;> simp

/-- A field instruction is a turn of its group and the walks of its core's arrays, which leave memory as it is (R182, R194). -/
@[simp] theorem runField_mem (size : Nat) (ofs : BitVec 24) (sh : Shape) (access : Thread → List DWord → Waiter) (s : State) :
    (s.after (runField size ofs sh access s)).mem = s.mem := by
  have h := runGroup_mem (State.fieldTurn_mem size ofs access) s sh
  unfold runField
  rcases hq : runGroup s sh (fieldTurn size ofs access) with u | _ | _ <;> rw [hq] at h
  · simp only [State.after_next] at h ⊢
    split <;> simpa using h
  · rfl
  · rfl

theorem execComputeModeLoadServed_mem (c : CoreId) (a : Nat) (s : State) : (s.after (execComputeModeLoadServed c a s)).mem = s.mem := by
  unfold execComputeModeLoadServed
  dsimp only
  split <;> simp

theorem execAmode_mem (f : AmodeF) (s : State) : (s.after (execAmode f s)).mem = s.mem := by
  refine runWhole_mem (fun u n g ts => ?_) s _
  (repeat' split) <;> simp

@[simp] theorem State.wakeAmode_mem (s : State) (c : CoreId) (a r : Nat) : (s.wakeAmode c a r).mem = s.mem := by
  refine State.foldl_mem _ (fun u e => ⟨?_⟩) _ s
  (repeat' split) <;> simp

@[simp] theorem State.letGo_mem (s : State) (c : CoreId) (a : Nat) (w : Waiter) : (s.letGo c a w).mem = s.mem := by
  simp [State.letGo]

@[simp] theorem State.letGoAll_mem (c : CoreId) (a : Nat) (ws : List Waiter) : ∀ s : State, (State.letGoAll c a ws s).mem = s.mem := by
  induction ws with
  | nil => exact fun _ => rfl
  | cons w ws ih =>
    intro s
    unfold State.letGoAll
    simp [ih]

@[simp] theorem State.wakeMode_mem (s : State) (c : CoreId) (a r : Nat) : (s.wakeMode c a r).mem = s.mem := by
  simp [State.wakeMode]

theorem execAmodeComplete_mem (c : CoreId) (a : Nat) (s : State) : (s.after (execAmodeComplete c a s)).mem = s.mem := by
  unfold execAmodeComplete
  split <;> simp

/-! Machine/Scale -/

@[simp] theorem State.setTag_mem (s : State) (c : CoreId) (k : Nat) (tag : Option Tag) : (s.setTag c k tag).mem = s.mem := rfl

theorem withKregs_keeps {P : Memory → Prop} {body : State → ThreadId → CoreId → List Nat → List DWord → Attempt}
    (hb : ∀ u t c ps vs, P u.mem → P (body u t c ps vs).state.mem) (ks : List Nat) (s : State) (t : ThreadId) (vs : List DWord)
    (h : P s.mem) : P (withKregs ks body s t vs).state.mem := by
  unfold withKregs
  (repeat' split) <;> simp [hb, h]

theorem withKregs_mem {body : State → ThreadId → CoreId → List Nat → List DWord → Attempt}
    (hb : ∀ u t c ps vs, (body u t c ps vs).state.mem = u.mem) (ks : List Nat) (s : State) (t : ThreadId) (vs : List DWord) :
    (withKregs ks body s t vs).state.mem = s.mem :=
  withKregs_keeps (P := (· = s.mem)) (fun u t c ps vs hu => (hb u t c ps vs).trans hu) ks s t vs rfl

@[simp] theorem State.writeSlice_mem (s : State) (c : CoreId) (k : Nat) (t : ThreadId) (v : Nat → Byte) :
    (s.writeSlice c k t v).mem = s.mem := rfl

theorem execKmov_mem (f : KF) (s : State) : (s.after (execKmov f s)).mem = s.mem := by
  refine runGroup_mem (withKregs_mem (fun _ _ _ _ _ => ?_) _) _ _
  simp

theorem execKset_mem (f : KF) (s : State) : (s.after (execKset f s)).mem = s.mem := by
  refine runGroup_mem (withKregs_mem (fun _ _ _ _ _ => ?_) _) _ _
  simp

theorem execKmul_mem (f : KF) (s : State) : (s.after (execKmul f s)).mem = s.mem := by
  refine runGroup_mem (withKregs_mem (fun _ _ _ _ _ => ?_) _) _ _
  simp

theorem execKmax_mem (f : KF) (s : State) : (s.after (execKmax f s)).mem = s.mem := by
  refine runGroup_mem (withKregs_mem (fun _ _ _ _ _ => ?_) _) _ _
  simp

theorem execKmin_mem (f : KF) (s : State) : (s.after (execKmin f s)).mem = s.mem := by
  refine runGroup_mem (withKregs_mem (fun _ _ _ _ _ => ?_) _) _ _
  simp

theorem execKrcp_mem (f : KF) (s : State) : (s.after (execKrcp f s)).mem = s.mem := by
  refine runGroup_mem (withKregs_mem (fun _ _ _ _ _ => ?_) _) _ _
  simp

theorem execKcvtf_mem (f : KF) (s : State) : (s.after (execKcvtf f s)).mem = s.mem := by
  refine runGroup_mem (withKregs_mem (fun _ _ _ _ _ => ?_) _) _ _
  simp

theorem execKcvtk_mem (f : KF) (s : State) : (s.after (execKcvtk f s)).mem = s.mem := by
  refine runGroup_mem (withKregs_mem (fun _ _ _ _ _ => ?_) _) _ _
  simp

@[simp] theorem State.giveWhole_mem (s : State) (n : Nat) (g : Group) (t : Nat) (srcs : List Src) (e : Effect) :
    (s.giveWhole n g t srcs e).mem = s.mem := by
  have h := s.attemptEffect_mem ⟨g.team, t⟩ (srcs.filterMap Src.pops) false e
  unfold State.giveWhole
  dsimp only
  split <;> rename_i hq <;> rw [hq] at h <;> simpa using h

theorem runKwhole_mem {body : State → Team → Nat → ThreadId → DWord → Whole} (hb : ∀ u m h t v, ((body u m h t v).after u).mem = u.mem)
    (sh : Shape) (src : Option Src) (s : State) : (s.after (runKwhole sh src body s)).mem = s.mem := by
  refine runWhole_mem (fun u n g ts => ?_) s sh
  dsimp only
  split
  · rfl
  · rename_i m _
    split
    · rfl
    · refine State.foldl_mem _ (fun v h => ⟨?_⟩) _ u
      split <;> rename_i hq
      · simp
      · rfl
      · refine (State.foldl_mem _ (by simp) _ _).trans ?_
        split at hq
        · cases hq
        · cases hq
        · exact (congrArg (fun w : Whole => (w.after v).mem) hq.symm).trans (hb _ _ _ _ _)

theorem wholeK_mem {f : Nat → Whole} {s : State} (hf : ∀ p, ((f p).after s).mem = s.mem) (k : Option Nat) (c : CoreId) (waits : Bool) :
    ((wholeK k c s waits f).after s).mem = s.mem := by
  unfold wholeK
  split
  · rfl
  · split
    · rfl
    · exact hf _

theorem execKclr_mem (f : KF) (s : State) : (s.after (execKclr f s)).mem = s.mem := by
  refine runKwhole_mem (fun u m _ _ _ => wholeK_mem (fun k => ?_) _ _ _) _ _ s
  rw [Whole.after_ok]
  exact (State.setTag_mem _ _ _ _).trans (u.writeKreg_mem _ _ _ _)

theorem execKbind_mem (f : KF) (s : State) : (s.after (execKbind f s)).mem = s.mem := by
  unfold execKbind
  refine runKwhole_mem (fun u m h t v => ?_) _ _ s
  refine wholeK_mem (fun p => ?_) _ _ _
  split
  · simp
  · split <;> simp

theorem execKtag_mem (f : KF) (s : State) : (s.after (execKtag f s)).mem = s.mem :=
  runKwhole_mem (fun _ _ _ _ _ => wholeK_mem (fun _ => by simp) _ _ _) _ _ s

/-! Machine/Access -/

theorem State.withGlobal_keeps {P : Memory → Prop} {body : State → Target → Attempt} (hb : ∀ u p, P u.mem → P (body u p).state.mem)
    {s : State} (h : P s.mem) (t : ThreadId) (va : VAddr) (size : Nat) (mis : Cause) (need : Need) :
    P (s.withGlobal t va size mis need body).state.mem := by
  have h' := s.translate_mem (s.coreOf t).die (s.cnOf t) need va ▸ h
  unfold State.withGlobal
  dsimp only
  split
  · exact h
  · split <;> rename_i hq <;> rw [hq] at h'
    · exact hb _ _ h'
    · exact h'
    · exact h'

theorem State.withMemory_keeps {P : Memory → Prop} {body : State → Place → Attempt} (hb : ∀ u p, P u.mem → P (body u p).state.mem)
    {s : State} (h : P s.mem) (t : ThreadId) (va : VAddr) (size : Nat) (mis : Cause) (need : Need) :
    P (s.withMemory t va size mis need body).state.mem :=
  State.withGlobal_keeps (fun u p hu => by cases p <;> simp [hb, hu]) h t va size mis need

theorem State.withGlobal_mem {body : State → Target → Attempt} (hb : ∀ u p, (body u p).state.mem = u.mem) (s : State) (t : ThreadId)
    (va : VAddr) (size : Nat) (mis : Cause) (need : Need) : (s.withGlobal t va size mis need body).state.mem = s.mem :=
  State.withGlobal_keeps (P := (· = s.mem)) (fun u p hu => (hb u p).trans hu) rfl t va size mis need

theorem State.withMemory_mem {body : State → Place → Attempt} (hb : ∀ u p, (body u p).state.mem = u.mem) (s : State) (t : ThreadId)
    (va : VAddr) (size : Nat) (mis : Cause) (need : Need) : (s.withMemory t va size mis need body).state.mem = s.mem :=
  State.withMemory_keeps (P := (· = s.mem)) (fun u p hu => (hb u p).trans hu) rfl t va size mis need

@[simp] theorem State.loadPlace_mem (s : State) (t : ThreadId) (va : VAddr) (p : Place) (n : Nat) (u : Option CacheUse) :
    (s.loadPlace t va p n u).2.2.mem = s.mem := by
  unfold State.loadPlace
  split <;> simp

@[simp] theorem State.issueLoad_mem (s : State) (t : ThreadId) (va : VAddr) (p : Place) (n : Nat) (u : Option CacheUse) (dest : List Nat)
    (values : List Byte → List Word) (own : Option Nat) : (s.issueLoad t va p n u dest values own).mem = s.mem := by
  simp [State.issueLoad]

@[simp] theorem State.prefetch_mem (s : State) (t : ThreadId) (va : VAddr) (u : CacheUse) : (s.prefetch t va u).state.mem = s.mem := by
  have h := s.translate_mem (s.coreOf t).die (s.cnOf t) needRead va
  unfold State.prefetch
  rcases hq : s.translate (s.coreOf t).die (s.cnOf t) needRead va with ⟨r, v⟩
  rw [hq] at h
  cases s.thread t <;> rcases r with (_ | _ | _) | _ | _ <;> simpa using h

theorem execPf_mem (f : MF) (s : State) : (s.after (execPf f s)).mem = s.mem := by
  refine runGroup_mem (fun _ _ _ => ?_) _ _
  simp

@[simp] theorem State.issueScaleLoad_mem (s : State) (t : ThreadId) (va : VAddr) (p : Place) (n : Nat) (u : Option CacheUse)
    (k at_ : Nat) : (s.issueScaleLoad t va p n u k at_).mem = s.mem := by
  simp [State.issueScaleLoad]

theorem execKld_mem (f : MF) (s : State) : (s.after (execKld f s)).mem = s.mem := by
  refine runGroup_mem (fun u t vs => ?_) s _
  split
  · rfl
  · exact State.withMemory_mem (fun v p => by simp) u t _ _ _ _

@[simp] theorem State.landAccess_mem (s : State) (a : Access) : (s.landAccess a).mem = s.mem := by
  unfold State.landAccess
  split <;> simp

@[simp] theorem State.reply_mem (s : State) (n : Nat) (a : Access) : (s.reply n a).mem = s.mem := by
  unfold State.reply
  (repeat' split) <;> simp

theorem execLoadReply_mem (n : Nat) (s : State) : (s.after (execLoadReply n s)).mem = s.mem := by
  unfold execLoadReply
  split <;> simp

theorem execErrorReply_mem (n : Nat) (s : State) : (s.after (execErrorReply n s)).mem = s.mem := by
  unfold execErrorReply
  split <;> simp

theorem execLeaseExpiry_mem (c : CoreId) (line : Nat) (s : State) : (s.after (execLeaseExpiry c line s)).mem = s.mem := rfl

theorem execPageCounterEpoch_mem (s : State) : (s.after (execPageCounterEpoch s)).mem = s.mem := by
  simp [execPageCounterEpoch]

/-! Machine/Matrix -/

@[simp] theorem State.startMma_mem (s : State) (c : CoreId) (a : Nat) : (s.startMma c a).mem = s.mem := by
  simp [State.startMma]

@[simp] theorem State.tickArrays_mem (s : State) (c : CoreId) : (s.tickArrays c).mem = s.mem := by
  simp [State.tickArrays]

@[simp] theorem State.setLatch_mem (s : State) (m : Team) (t : Nat) (e : Option Latch) : (s.setLatch m t e).mem = s.mem := rfl

@[simp] theorem State.formMma_mem (s : State) (m : Team) (g : Group) (o : MmaOp) (passed : List Nat) :
    (s.formMma m g o passed).mem = s.mem := by
  simp [State.formMma]

@[simp] theorem runMma_mem (o : MmaOp) (s : State) : (s.after (runMma o s)).mem = s.mem := by
  refine runWhole_mem (fun u n g ts => ?_) s _
  dsimp only
  split
  · rfl
  · split
    · split <;> simp
    · refine (State.foldl_mem _ (by simp) _ _).trans ((State.answerMode_mem _ _ _ _).trans
        ((State.foldl_mem _ (fun v c => ⟨?_⟩) _ _).trans ?_))
      · split <;> simp
      · (repeat' split) <;> simp

@[simp] theorem State.analogEvent_mem (s : State) (team : Nat) (pc : VAddr) (t : Option Nat) : (s.analogEvent team pc t).mem = s.mem := by
  unfold State.analogEvent
  split <;> simp

@[simp] theorem State.updateMma_mem (s : State) (c : CoreId) (m : Mma) : (s.updateMma c m).mem = s.mem := by
  simp [State.updateMma]

@[simp] theorem State.wakeUpdates_mem (s : State) : s.wakeUpdates.mem = s.mem := by
  refine State.foldl_mem _ (fun u e => ⟨?_⟩) _ s
  split
  · split
    · rfl
    · exact State.foldl_mem _ (by simp) _ u
  · rfl

theorem execMmaUpdate_mem (c : CoreId) (a : Nat) (s : State) : (s.after (execMmaUpdate c a s)).mem = s.mem := by
  unfold execMmaUpdate
  dsimp only
  split <;> simp

/-! Machine/Accum -/

@[simp] theorem State.queueAcc_mem (s : State) (c : CoreId) (e : AccEffect) : (s.queueAcc c e).mem = s.mem := rfl

theorem withAcc_keeps {P : Memory → Prop} {body : State → ThreadId → Team → Nat → Nat → List DWord → Attempt}
    (hb : ∀ u t m row c vs, P u.mem → P (body u t m row c vs).state.mem) (e : Nat) (s : State) (t : ThreadId) (vs : List DWord)
    (h : P s.mem) : P (withAcc e body s t vs).state.mem := by
  unfold withAcc
  dsimp only
  (repeat' split) <;> simp [hb, h]

theorem withAcc_mem {body : State → ThreadId → Team → Nat → Nat → List DWord → Attempt}
    (hb : ∀ u t m row c vs, (body u t m row c vs).state.mem = u.mem) (e : Nat) (s : State) (t : ThreadId) (vs : List DWord) :
    (withAcc e body s t vs).state.mem = s.mem :=
  withAcc_keeps (P := (· = s.mem)) (fun u t m row c vs hu => (hb u t m row c vs).trans hu) e s t vs rfl

theorem execAcrd_mem (f : AcF) (s : State) : (s.after (execAcrd f s)).mem = s.mem := by
  refine runGroup_mem (withAcc_mem (fun _ _ _ _ _ _ => ?_) _) _ _
  (repeat' split) <;> simp

theorem execAcwr_mem (f : AcF) (s : State) : (s.after (execAcwr f s)).mem = s.mem := by
  refine runGroup_mem (withAcc_mem (fun _ _ _ _ _ _ => ?_) _) _ _
  (repeat' split) <;> simp

theorem execAczero_mem (f : XF) (s : State) : (s.after (execAczero f s)).mem = s.mem := by
  refine runGroup_mem (fun u t vs => ?_) s _
  split
  · rfl
  · split
    · rfl
    · exact u.queueAcc_mem _ _

theorem execAcwin_mem (f : XF) (s : State) : (s.after (execAcwin f s)).mem = s.mem := by
  refine runGroup_mem (fun _ _ _ => ?_) _ _
  dsimp only
  (repeat' split) <;> simp

@[simp] theorem mstatStep_mem (f : XF) (then_ : Team → Word → Team) (s : State) : (s.after (mstatStep f then_ s)).mem = s.mem := by
  refine runGroup_mem (fun _ _ _ => ?_) _ _
  (repeat' split) <;> simp

@[simp] theorem mstatWait_mem (f : XF) (s : State) : (s.after (mstatWait f s)).mem = s.mem := by
  refine runWhole_mem (fun u n g ts => ?_) s _
  dsimp only
  split
  · simp
  · refine State.foldl_mem _ (fun v t => ⟨?_⟩) _ u
    split <;> simp

theorem execMstat_mem (f : XF) (s : State) : (s.after (execMstat f s)).mem = s.mem := by
  unfold execMstat
  split <;> simp

/-! Machine/FieldRole -/

@[simp] theorem State.beginResize_mem (s : State) (team : Nat) (r : Resizing) : (s.beginResize team r).mem = s.mem := rfl

@[simp] theorem State.resizeStatus_mem (s : State) (t : ThreadId) (d : Byte) (v : Word) : (s.resizeStatus t d v).mem = s.mem := by
  simp [State.resizeStatus]

theorem execResize_mem (f : XF) (s : State) : (s.after (execResize f s)).mem = s.mem := by
  refine runGroup_mem (fun _ _ _ => ?_) _ _
  dsimp only
  (repeat' split) <;> simp

@[simp] theorem State.applyResize_mem (s : State) (m : Team) (r : Resizing) : (s.applyResize m r).mem = s.mem := by
  unfold State.applyResize
  split <;> simp

theorem execResizeComplete_mem (team : Nat) (s : State) : (s.after (execResizeComplete team s)).mem = s.mem := by
  unfold execResizeComplete
  (repeat' split) <;> simp

@[simp] theorem State.takeTie_mem (s : State) (cn n a : Nat) : (s.takeTie cn n a).mem = s.mem := by
  unfold State.takeTie
  split <;> simp

@[simp] theorem State.takeTies_mem (s : State) : (s.takeTies).mem = s.mem := by
  simp [State.takeTies]

theorem execClass0TieTake_mem (cn n a : Nat) (s : State) : (s.after (execClass0TieTake cn n a s)).mem = s.mem := by
  simp [execClass0TieTake]

@[simp] theorem State.endTies_mem (s : State) (cn : Nat) : (s.endTies cn).mem = s.mem := rfl

theorem execHndalloc_mem (f : XF) (s : State) : (s.after (execHndalloc f s)).mem = s.mem := by
  refine runGroup_mem (fun _ _ _ => ?_) _ _
  dsimp only
  (repeat' split) <;> simp

theorem execHndpass_mem (f : XF) (s : State) : (s.after (execHndpass f s)).mem = s.mem := by
  refine runGroup_mem (fun _ _ _ => ?_) _ _
  (repeat' split) <;> simp

theorem execHndfree_mem (f : XF) (s : State) : (s.after (execHndfree f s)).mem = s.mem := by
  refine runGroup_mem (fun _ _ _ => ?_) _ _
  (repeat' split) <;> simp

/-! Machine/Launch -/

theorem readPieces_mem {one : State → VAddr → Nat → Piece} (h1 : ∀ u va n, (one u va n).state.mem = u.mem) (fuel : Nat) :
    ∀ (va : VAddr) (n : Nat) (s : State), (readPieces one fuel va n s).state.mem = s.mem := by
  induction fuel with
  | zero => exact fun _ _ _ => rfl
  | succ fuel ih =>
    intro va n s
    unfold readPieces
    split
    · rfl
    · have h := h1 s va (min n 8)
      split
      · rename_i bs u hq
        rw [hq] at h
        have h' := ih (va + 8) (n - 8) u
        split
        · rename_i hr
          rw [hr] at h'
          exact h'.trans h
        · exact h'.trans h
      · exact h

theorem readAsThread_mem (t : ThreadId) (s : State) (va : VAddr) (n : Nat) : (readAsThread t s va n).state.mem = s.mem := by
  have h := s.translate_mem (s.coreOf t).die (s.cnOf t) needRead va
  unfold readAsThread
  split <;> rename_i hq <;> rw [hq] at h
  · rename_i pa u
    have h' := u.loadBytes_mem t va pa n (some (.normal 2))
    split <;> rename_i hr <;> rw [hr] at h' <;> exact h'.trans h
  · exact h
  · exact h

@[simp] theorem State.deviceTranslate_mem (s : State) (die cn : Nat) (need : Need) (va : VAddr) :
    (s.deviceTranslate die cn need va).2.mem = s.mem := by
  simp [State.deviceTranslate]

theorem readAsDevice_mem (die cn : Nat) (s : State) (va : VAddr) (n : Nat) : (readAsDevice die cn s va n).state.mem = s.mem := by
  have h := s.deviceTranslate_mem die cn needRead va
  unfold readAsDevice
  split <;> rename_i hq <;> rw [hq] at h
  · split <;> exact h
  · exact h

theorem readRecord_mem {one : State → VAddr → Nat → Piece} (h1 : ∀ u va n, (one u va n).state.mem = u.mem) (va : VAddr) (s : State) :
    (readRecord one va s).state.mem = s.mem := by
  have hget (va : VAddr) (n : Nat) (u : State) : (readPieces one (n / 8 + 1) va n u).state.mem = u.mem := readPieces_mem h1 _ va n u
  unfold readRecord
  dsimp only
  split
  · rfl
  · have ha := hget va 280 s
    split <;> rename_i hq <;> rw [hq] at ha
    · exact ha
    · exact ha
    · rename_i bs u
      have hb := hget (va + 280) (12 * field bs 38 1) u
      split <;> rename_i hq <;> rw [hq] at hb
      · exact hb.trans ha
      · exact hb.trans ha
      · rename_i cs v
        split
        · exact hb.trans ha
        · split
          · exact hb.trans ha
          · have hc := hget (addressOf (recordOf (bs ++ cs)).range) (8 * (recordOf (bs ++ cs)).nrange) v
            split <;> rename_i hq <;> rw [hq] at hc <;> exact (hc.trans hb).trans ha

@[simp] theorem State.unitDie_mem (s : State) (die cn : Nat) (r : Record) (ranges : List RangeEntry) (b : Nat) :
    (s.unitDie die cn r ranges b).2.mem = s.mem := by
  have h := s.walk_mem die cn (r.affinity b)
  unfold State.unitDie
  split
  · rfl
  · dsimp only
    split <;> rename_i hq <;> rw [hq] at h <;> exact h

@[simp] theorem State.unitDies_mem (die cn : Nat) (r : Record) (ranges : List RangeEntry) (n : Nat) :
    ∀ s : State, (s.unitDies die cn r ranges n).2.mem = s.mem := by
  induction n with
  | zero => exact fun _ => rfl
  | succ n ih => exact fun s => ((State.unitDie_mem _ die cn r ranges (n * r.ct)).trans (ih s))

@[simp] theorem State.pieceFailed_mem (s : State) (die lid : Nat) (va : VAddr) : (s.pieceFailed die lid va).mem = s.mem := by
  simp [State.pieceFailed]

/-! Machine/Start -/

@[simp] theorem State.newLid_mem (s : State) : (s.newLid).2.mem = s.mem := rfl

@[simp] theorem State.newTeamId_mem (s : State) : (s.newTeamId).2.mem = s.mem := rfl

@[simp] theorem State.takeArray_mem (s : State) (c : CoreId) (team a : Nat) : (s.takeArray c team a).mem = s.mem := by
  simp [State.takeArray]

@[simp] theorem State.startTeam_mem (s : State) (x : Birth) (a : Allot) (r : Record) : (s.startTeam x a r).mem = s.mem := by
  simp [State.startTeam]

@[simp] theorem State.buildBarriers_mem (s : State) (r : Record) (as : List Allot) : (s.buildBarriers r as).mem = s.mem := by
  refine State.foldl_mem _ (fun u p => ⟨?_⟩) _ s
  split
  · rfl
  · exact State.foldl_mem _ (by simp) _ u

@[simp] theorem State.buildChannels_mem (s : State) (lid cluster : Nat) (r : Record) (ps : List Nat) :
    (s.buildChannels lid cluster r ps).mem = s.mem := by
  refine State.foldl_mem _ (fun u c => ⟨?_⟩) _ s
  split
  · rfl
  · dsimp only
    split <;> rfl

@[simp] theorem State.startUnit_mem (s : State) (lid b0 : Nat) (g : Grid) (as : List (Nat × Allot)) :
    (s.startUnit lid b0 g as).mem = s.mem := by
  simp [State.startUnit]

@[simp] theorem State.updateDf_mem (s : State) (die : Nat) : (s.updateDf die).mem = s.mem := rfl

@[simp] theorem State.alterBin_mem (s : State) (die bin : Nat) (f : Bin → Bin) : (s.alterBin die bin f).mem = s.mem := rfl

@[simp] theorem State.formBinTeam_mem (s : State) (die bin : Nat) (b : Bin) : (s.formBinTeam die bin b).mem = s.mem := by
  simp [State.formBinTeam]

@[simp] theorem State.formTeams_mem (die bin fuel : Nat) : ∀ s : State, (State.formTeams die bin fuel s).mem = s.mem := by
  induction fuel with
  | zero => exact fun _ => rfl
  | succ fuel ih =>
    intro s
    unfold State.formTeams
    split
    · rfl
    · split <;> simp [ih]

@[simp] theorem State.settleBin_mem (s : State) (die bin : Nat) : (s.settleBin die bin).mem = s.mem :=
  State.formTeams_mem die bin _ s

@[simp] theorem State.settleBins_mem (s : State) (die : Nat) : (s.settleBins die).mem = s.mem := by
  simp [State.settleBins]

@[simp] theorem State.appendRecord_mem (s : State) (die bin : Nat) (bytes : List Byte) (owed : Option DWord) (spawned : Bool) :
    (s.appendRecord die bin bytes owed spawned).mem = s.mem := by
  simp [State.appendRecord]

@[simp] theorem State.claimBuffer_mem (s : State) (team : Nat) (fm : NatSet) (core c : CoreId) (a : Nat) :
    (s.claimBuffer team fm core c a).2.2.mem = s.mem := by
  unfold State.claimBuffer
  split <;> simp

@[simp] theorem State.claimAll_mem (team : Nat) (fm : NatSet) (core : CoreId) (l : List (CoreId × Nat)) :
    ∀ s : State, (s.claimAll team fm core l).2.mem = s.mem := by
  induction l with
  | nil => exact fun _ => rfl
  | cons e l ih => exact fun s => (ih _).trans (s.claimBuffer_mem team fm core e.1 e.2)

@[simp] theorem State.writeRecords_mem (s : State) (c : CoreId) (fm : NatSet) (rs : Nat) (records : List (List Byte)) :
    (s.writeRecords c fm rs records).mem = s.mem := by
  unfold State.writeRecords
  split <;> simp

@[simp] theorem State.startBin_mem (s : State) (die bin : Nat) (p : Pending) (b : Bin) (r : Record) (a : Allot) :
    (s.startBin die bin p b r a).mem = s.mem := by
  simp [State.startBin]

@[simp] theorem State.restartBin_mem (s : State) (t : Team) (g : Grid) (a : Allot) : (s.restartBin t g a).mem = s.mem := by
  simp [State.restartBin]

@[simp] theorem State.startPending_mem (s : State) (die : Nat) (p : Pending) :
    (((s.startPending die p).map Prod.snd).getD s).mem = s.mem := by
  unfold State.startPending
  dsimp only
  split
  · split
    · rfl
    · generalize s.placeUnit die _ _ = as
      cases as <;> simp
  · split
    · rfl
    · generalize s.placePart die _ _ _ _ _ = as
      cases as <;> simp
  · split
    · rfl
    · split
      · rfl
      · generalize s.placeBin die _ _ _ = a
        cases a <;> simp
  · split
    · rfl
    · generalize s.placeUnit die _ _ = as
      rcases as with _ | _ | _ <;> simp
  · rfl

@[simp] theorem State.emptied_mem (s : State) : (s.emptied).mem = s.mem := rfl

theorem startUnits_mem (us : List (Nat × Pending)) : ∀ s : State, ((startUnits us s).getD s).mem = s.mem := by
  induction us with
  | nil => exact fun _ => rfl
  | cons e us ih =>
    intro s
    have h := s.startPending_mem e.1 e.2
    unfold startUnits
    rcases hq : s.startPending e.1 e.2 with _ | r <;> rw [hq] at h
    · rfl
    · have h' := ih r.2
      rcases hr : startUnits us r.2 with _ | u <;> rw [hr] at h'
      · simp [hr]
      · simpa [hr] using h'.trans h

@[simp] theorem State.endBlocking_mem (s : State) (lid : Nat) : (s.endBlocking lid).mem = s.mem := by
  simp [State.endBlocking]

@[simp] theorem State.tryStart_mem (s : State) (die : Nat) (p : Pending) : (((s.tryStart die p).map Prod.snd).getD s).mem = s.mem := by
  unfold State.tryStart
  dsimp only
  split
  · rfl
  · rename_i lid _ _ _
    have h := startUnits_mem (s.unitsOf lid) s
    split <;> rename_i hq
    · rw [hq] at h
      simpa using h
    · rfl
  · exact s.startPending_mem die p

theorem execTeamStart_mem (die n : Nat) (c : CoreId) (s : State) : (s.after (execTeamStart die n c s)).mem = s.mem := by
  unfold execTeamStart
  dsimp only
  split
  · simp
  · rename_i p _
    split
    · simp
    · have h := (s.settleBins die).tryStart_mem die p
      split <;> rename_i hq <;> rw [hq] at h
      · simp only [State.after_next]
        split
        · simpa using h
        · simp
      · simp

theorem execDispatchWait1ms_mem (die n : Nat) (s : State) : (s.after (execDispatchWait1ms die n s)).mem = s.mem := rfl

theorem execCoresPending100us_mem (lid : Nat) (s : State) : (s.after (execCoresPending100us lid s)).mem = s.mem := rfl

theorem execBinTimerExpiry_mem (die bin : Nat) (s : State) : (s.after (execBinTimerExpiry die bin s)).mem = s.mem := by
  simp [execBinTimerExpiry]

/-! Machine/Work -/

@[simp] theorem State.judge_mem (s : State) (die cn : Nat) (bs range : List Byte) : (s.judge die cn bs range).2.2.mem = s.mem := by
  unfold State.judge
  dsimp only
  (repeat' split) <;> simp

@[simp] theorem State.queueUnits_mem (s : State) (lid : Nat) (r : Record) (us : List (Nat × Nat)) : (s.queueUnits lid r us).mem = s.mem :=
  State.foldl_mem _ (by simp) us s

theorem execSpawn_mem (f : XF) (s : State) : (s.after (execSpawn f s)).mem = s.mem := by
  refine runGroup_mem (fun _ _ _ => ?_) _ _
  dsimp only
  (repeat' split) <;> simp

theorem execEdrain_mem (f : XF) (s : State) : (s.after (execEdrain f s)).mem = s.mem := by
  refine runGroup_mem (fun _ _ _ => ?_) _ _
  (repeat' split) <;> simp

@[simp] theorem State.packet_mem (s : State) (conn : Nat) (o : Out) : (s.packet conn o).mem = s.mem := by
  simp [State.packet]

@[simp] theorem State.answerFrom_mem (s : State) (src : Agent) (token : DWord) (status : Nat) (value : Word) (reason : Nat) :
    (s.answerFrom src token status value reason).mem = s.mem := by
  simp [State.answerFrom]

@[simp] theorem State.answer_mem (s : State) (token : DWord) (status : Nat) (value : Word) (reason : Nat) :
    (s.answer token status value reason).mem = s.mem := by
  simp [State.answer]

@[simp] theorem State.landReply_mem (s : State) (team slot t : Nat) (dest : List Nat) (pc : VAddr) (status value : Word) (reason : Nat) :
    (s.landReply team slot t dest pc status value reason).mem = s.mem := by
  simp [State.landReply]

@[simp] theorem State.takeReply_mem (s : State) (team : Nat) (token : DWord) (status value : Word) (reason : Nat) :
    (s.takeReply team token status value reason).mem = s.mem := by
  unfold State.takeReply
  (repeat' split) <;> simp

theorem execRret_mem (f : XF) (s : State) : (s.after (execRret f s)).mem = s.mem := by
  refine runGroup_mem (fun _ _ _ => ?_) _ _
  dsimp only
  (repeat' split) <;> simp

@[simp] theorem State.invoke_mem (s : State) (dev handler pri : Nat) (res : Bool) (token : DWord) (args : List Byte) :
    (s.invoke dev handler pri res token args).mem = s.mem := by
  simp [State.invoke]

@[simp] theorem rinvSend_mem (f : RinvF) (s : State) : (s.after (rinvSend f s)).mem = s.mem := by
  refine runGroup_mem (fun _ _ _ => ?_) _ _
  (repeat' split) <;> simp

@[simp] theorem rinvReply_mem (f : RinvF) (s : State) : (s.after (rinvReply f s)).mem = s.mem := by
  refine runGroup_mem (fun _ _ _ => ?_) _ _
  dsimp only
  (repeat' split) <;> simp

theorem execRinv_mem (f : RinvF) (s : State) : (s.after (execRinv f s)).mem = s.mem := by
  unfold execRinv
  split <;> simp

@[simp] theorem State.result_mem (s : State) (res : Bool) (token : DWord) (v : Nat) : (s.result res token v).mem = s.mem := by
  simp [State.result]

@[simp] theorem State.serveWait_mem (s : State) (res : Bool) (token : DWord) (args : List Byte) :
    (s.serveWait res token args).mem = s.mem := by
  unfold State.serveWait
  dsimp only
  split <;> simp

@[simp] theorem State.serveBin_mem (s : State) (die bin dev pri : Nat) (res : Bool) (token : DWord) (args : List Byte) :
    (s.serveBin die bin dev pri res token args).mem = s.mem := by
  unfold State.serveBin
  split <;> simp

theorem execReplyArrival_mem (n : Nat) (s : State) : (s.after (execReplyArrival n s)).mem = s.mem := by
  unfold execReplyArrival
  dsimp only
  (repeat' split) <;> simp

@[simp] theorem State.loseConnection_mem (s : State) (n : Nat) (c : Connection) : (s.loseConnection n c).mem = s.mem := by
  simp [State.loseConnection]

@[simp] theorem State.resend_mem (s : State) (n seq : Nat) (p : Packet) : (s.resend n seq p).mem = s.mem := by
  simp [State.resend]

theorem execRetransmitTimeout_mem (n : Nat) (s : State) : (s.after (execRetransmitTimeout n s)).mem = s.mem := by
  unfold execRetransmitTimeout
  split <;> simp

theorem State.template_mem (s : State) (die : Nat) (b : Bin) : (((s.template die b).map Prod.snd).getD s).mem = s.mem := by
  have h := readRecord_mem (readAsDevice_mem die b.cn) (addressOf b.tmpl) s
  unfold State.template
  split
  · rfl
  · split
    · rename_i bs range u hq
      rw [hq] at h
      dsimp only
      split
      · exact (u.judge_mem die b.cn bs range).trans h
      · rfl
    · rfl

theorem State.binImage_mem (s : State) (die n pa : Nat) : (((s.binImage die n pa).map Prod.snd).getD s).mem = s.mem := by
  unfold State.binImage
  dsimp only
  split
  · rfl
  · split
    · rfl
    · split
      · rfl
      · split
        · rfl
        · have h := s.place.template_mem die (binOf (s.bytes pa 48) none)
          split <;> rename_i hq
          · rfl
          · split
            · rfl
            · rw [hq] at h
              exact h

@[simp] theorem State.loadBin_mem (s : State) (die : Nat) (v : DWord) : (s.loadBin die v).mem = s.mem := by
  have h := s.binImage_mem die (v.toNat / 2 ^ 56) (v.toNat % 2 ^ 52)
  unfold State.loadBin
  dsimp only
  split <;> rename_i hq <;> rw [hq] at h
  · exact h
  · rfl

theorem execBinload_mem (die : Nat) (v : DWord) (s : State) : (s.after (execBinload die v s)).mem = s.mem := by
  simp [execBinload]

/-! Machine/Session -/

@[simp] theorem State.endSession_mem (s : State) (status refused pass : Nat) : (s.endSession status refused pass).mem = s.mem := rfl

@[simp] theorem State.noteSignature_mem (s : State) (team : Nat) (m : Team) : (s.noteSignature team m).mem = s.mem := by
  unfold State.noteSignature
  split <;> simp

@[simp] theorem State.dropCaches_mem (s : State) : (s.dropCaches).mem = s.mem := rfl

@[simp] theorem State.dropKept_mem (s : State) : (s.dropKept).mem = s.mem := rfl

@[simp] theorem State.zeroCounts_mem (s : State) : (s.zeroCounts).mem = s.mem := rfl

/-! Machine/Held -/

@[simp] theorem State.deliverDeferred_mem (s : State) (t : ThreadId) (x : Thread) (tr : Trap) : (s.deliverDeferred t x tr).mem = s.mem := by
  unfold State.deliverDeferred
  dsimp only
  (repeat' split) <;> simp

/-! Machine/Pause -/

@[simp] theorem State.disengage_mem (s : State) (t : ThreadId) : (s.disengage t).mem = s.mem := by
  unfold State.disengage
  split <;> simp

@[simp] theorem State.takeBack_mem (s : State) (w : Waiter) : (s.takeBack w).mem = s.mem := rfl

@[simp] theorem State.unwind_mem (s : State) (team : Nat) : (s.unwind team).mem = s.mem := by
  unfold State.unwind
  split <;> simp

@[simp] theorem State.dropPushes_mem (s : State) (team : Nat) : (s.dropPushes team).mem = s.mem := by
  simp [State.dropPushes]

@[simp] theorem State.abandon_mem (s : State) (t : ThreadId) : (s.abandon t).mem = s.mem := by
  unfold State.abandon
  split <;> simp

@[simp] theorem State.resumeAlone_mem (s : State) (t : ThreadId) (x : Clause) (k slot : Nat) : (s.resumeAlone t x k slot).mem = s.mem := by
  unfold State.resumeAlone
  split <;> simp

@[simp] theorem State.releaseBrk_mem (s : State) (team : Nat) : (s.releaseBrk team).mem = s.mem := by
  refine State.foldl_mem _ (fun u e => ⟨?_⟩) _ s
  split
  · split <;> simp
  · rfl

@[simp] theorem State.stepStatus_mem (s : State) (die status : Nat) : (s.stepStatus die status).mem = s.mem := rfl

@[simp] theorem State.stepEnter_mem (s : State) (die : Nat) (v : DWord) : (s.stepEnter die v).mem = s.mem := by
  unfold State.stepEnter
  split <;> simp

@[simp] theorem State.stepLeave_mem (s : State) (die : Nat) (v : DWord) : (s.stepLeave die v).mem = s.mem := by
  unfold State.stepLeave
  split <;> simp

theorem execStepEnter_mem (die : Nat) (v : DWord) (s : State) : (s.after (execStepEnter die v s)).mem = s.mem := by
  simp [execStepEnter]

theorem execStepLeave_mem (die : Nat) (v : DWord) (s : State) : (s.after (execStepLeave die v s)).mem = s.mem := by
  simp [execStepLeave]

/-! Machine/Retire -/

@[simp] theorem State.cutLinks_mem (s : State) (c : CoreId) (o : Nat) : (s.cutLinks c o).mem = s.mem :=
  (State.foldl_mem _ (by simp) _ _).trans (State.foldl_mem _ (by simp) _ s)

@[simp] theorem State.freeObjects_mem (s : State) (m : Team) : (s.freeObjects m).mem = s.mem := by
  simp [State.freeObjects]

@[simp] theorem State.freeChannels_mem (s : State) (m : Team) : (s.freeChannels m).mem = s.mem := rfl

@[simp] theorem State.freeArray_mem (s : State) (c : CoreId) (a : Nat) : (s.freeArray c a).mem = s.mem := by
  simp [State.freeArray]

@[simp] theorem State.forgetTeam_mem (s : State) (n : Nat) (m : Team) : (s.forgetTeam n m).mem = s.mem := by
  simp [State.forgetTeam]

@[simp] theorem State.freeTeam_mem (s : State) (n : Nat) (m : Team) : (s.freeTeam n m).mem = s.mem := by
  simp [State.freeTeam]

@[simp] theorem State.abandonReplies_mem (s : State) (m : Team) : (s.abandonReplies m).mem = s.mem := by
  simp [State.abandonReplies]

/-! Machine/Handover -/

@[simp] theorem State.deferLost_mem (s : State) (t : ThreadId) (c : Cause) (va : Nat) : (s.deferLost t c va).mem = s.mem := by
  simp [State.deferLost]

theorem execKvgive_mem (f : XF) (s : State) : (s.after (execKvgive f s)).mem = s.mem := by
  refine runGroup_mem (fun _ _ _ => ?_) _ _
  dsimp only
  (repeat' split) <;> simp

theorem execKvgiveClose_mem (n : Nat) (s : State) : (s.after (execKvgiveClose n s)).mem = s.mem := by
  unfold execKvgiveClose
  (repeat' split) <;> simp

@[simp] theorem State.dropLeaves_mem (s : State) (as : List Nat) : (s.dropLeaves as).mem = s.mem := rfl

@[simp] theorem State.completeParked_mem (s : State) (t : ThreadId) (srcs : List Src) : (s.completeParked t srcs).mem = s.mem := by
  simp [State.completeParked]

@[simp] theorem State.endGive_mem (s : State) (n : Nat) (t : ThreadId) : (s.endGive n t).mem = s.mem := by
  simp [State.endGive]

@[simp] theorem State.takePages_mem (s : State) (t : ThreadId) : (s.takePages t).mem = s.mem := rfl

theorem execKvtake_mem (f : XF) (s : State) : (s.after (execKvtake f s)).mem = s.mem := by
  refine runGroup_mem (fun _ _ _ => ?_) _ _
  (repeat' split) <;> simp

theorem execKvtakeComplete_mem (t : ThreadId) (s : State) : (s.after (execKvtakeComplete t s)).mem = s.mem := by
  unfold execKvtakeComplete
  dsimp only
  (repeat' split) <;> simp

/-! Machine/Preempt -/

@[simp] theorem State.deliverAll_mem (s : State) (n : Nat) : (s.deliverAll n).mem = s.mem := by
  refine State.foldl_mem _ (fun u e => ⟨?_⟩) _ s
  (repeat' split) <;> simp

@[simp] theorem State.requeue_mem (s : State) (die : Nat) (m : Team) (ps : List Nat) : (s.requeue die m ps).mem = s.mem := by
  unfold State.requeue
  split <;> simp

@[simp] theorem State.discard_mem (s : State) (us : List (Nat × Team)) : (s.discard us).mem = s.mem := by
  unfold State.discard
  split <;> simp

@[simp] theorem State.evict_mem (s : State) (n : Nat) (m : Team) : (s.evict n m).mem = s.mem := by
  simp [State.evict]

@[simp] theorem State.contextUse_mem (s : State) (die pa n : Nat) (write : Bool) : (s.contextUse die pa n write).mem = s.mem := by
  simp [State.contextUse]

@[simp] theorem State.queueImages_mem (s : State) (die : Nat) (is : List (Nat × Image)) : (s.queueImages die is).mem = s.mem := by
  unfold State.queueImages
  split <;> simp

@[simp] theorem State.adopt_mem (s : State) (e : Nat × Image) : (s.adopt e).2.mem = s.mem := by
  unfold State.adopt
  dsimp only
  (repeat' split) <;> simp

/-- The images of a restore block are adopted one after another. -/
theorem State.adoptAll_mem (is : List (Nat × Image)) (r : List (Nat × Image) × State) :
    (is.foldl (fun (r : List (Nat × Image) × State) e => let a := r.2.adopt e; (r.1 ++ [a.1], a.2)) r).2.mem = r.2.mem := by
  induction is generalizing r with
  | nil => rfl
  | cons e is ih => exact (ih _).trans (r.2.adopt_mem e)

@[simp] theorem State.restoreWrite_mem (s : State) (die : Nat) (v : DWord) : (s.restoreWrite die v).mem = s.mem := by
  unfold State.restoreWrite
  split
  · simp
  · have h := State.adoptAll_mem
    simp [h]

theorem execRestore_mem (die : Nat) (v : DWord) (s : State) : (s.after (execRestore die v s)).mem = s.mem := by
  rw [execRestore, State.after_next, State.restoreWrite_mem]

@[simp] theorem State.deliverKept_mem (s : State) (team : Nat) (m : Msg) : (s.deliverKept team m).mem = s.mem := by
  unfold State.deliverKept
  split <;> simp

@[simp] theorem State.restoreImage_mem (s : State) (key : Nat) (i : Image) (a : Allot) : (s.restoreImage key i a).mem = s.mem := by
  simp [State.restoreImage]

theorem execTeamRestore_mem (die n : Nat) (c : CoreId) (s : State) : (s.after (execTeamRestore die n c s)).mem = s.mem := by
  unfold execTeamRestore
  dsimp only
  (repeat' split) <;> simp

/-! Machine/System -/

theorem execTrap_mem (f : TrapF) (s : State) : (s.after (execTrap f s)).mem = s.mem := by
  refine runGroup_mem (fun _ _ _ => ?_) _ _
  simp

@[simp] theorem State.returnTo_mem (s : State) (t : ThreadId) (x : Thread) : (s.returnTo t x).state.mem = s.mem := by
  unfold State.returnTo
  dsimp only
  split
  · rename_i c k _ _
    have h := (s.returnTrap t).refetch_mem t c k
    split <;> rename_i hq <;> rw [hq] at h
    · rfl
    · split <;> simpa using h
  · have h := (s.returnTrap t).checkTarget_mem t x.tret
    split <;> rename_i hq <;> rw [hq] at h
    · simpa using h
    · simpa using h
    · rfl

theorem execRfe_mem (f : TrapF) (s : State) : (s.after (execRfe f s)).mem = s.mem := by
  refine runGroup_mem (needPriv_mem (fun _ _ _ => ?_) _ _) _ _
  (repeat' split) <;> simp

theorem Spill.answer_keeps {P : Memory → Prop} {r : Spill} {orig : State} {done : State → State} (hr : P r.state.mem) (ho : P orig.mem)
    (hd : ∀ u, (done u).SameMem u) (t : ThreadId) (va : VAddr) (d : Byte) : P (r.answer t va orig done d).state.mem := by
  unfold Spill.answer
  cases r <;> simpa [(hd _).mem]

theorem State.fillPiece_mem (s : State) (t : ThreadId) (va : VAddr) (n : Nat) : (s.fillPiece t va n).2.state.mem = s.mem := by
  have h := s.translate_mem (s.coreOf t).die (s.cnOf t) needRead va
  unfold State.fillPiece
  split <;> rename_i hq <;> rw [hq] at h
  · rename_i pa u
    have h' := u.loadBytes_mem t va pa n (some (.normal 2))
    split <;> rename_i hr <;> rw [hr] at h' <;> exact h'.trans h
  all_goals exact h

theorem State.fillPieces_mem (t : ThreadId) (base : VAddr) (left : Nat) :
    ∀ (k : Nat) (s : State), (s.fillPieces t base k left).2.2.state.mem = s.mem := by
  induction left with
  | zero => exact fun _ s => s.fillPiece_mem t (base + 224) 8
  | succ left ih =>
    intro k s
    have h := s.fillPiece_mem t (base + BitVec.ofNat 57 (4 * k)) 4
    unfold State.fillPieces
    split <;> rename_i hq <;> rw [hq] at h
    · exact (ih (k + 1) _).trans h
    · exact h

theorem execWfill_mem (f : XF) (s : State) : (s.after (execWfill f s)).mem = s.mem := by
  refine runGroup_mem (needPriv_mem (fun u t vs => ?_) _ _) s _
  split
  · split
    · simp
    · exact Spill.answer_keeps (P := (· = u.mem)) (u.fillPieces_mem t _ 56 0) rfl (by simp) _ _ _
  · rfl

theorem State.readImage_mem (t : ThreadId) (left : Nat) : ∀ (s : State) (va : VAddr), (s.readImage t va left).2.state.mem = s.mem := by
  induction left with
  | zero => exact fun _ _ => rfl
  | succ left ih =>
    intro s va
    have h := s.fillPiece_mem t va 8
    unfold State.readImage
    split <;> rename_i hq <;> rw [hq] at h
    · exact (ih _ (va + 8)).trans h
    · exact h

@[simp] theorem State.setTable_mem (s : State) (t : ThreadId) (x : DecodeTable) : (s.setTable t x).mem = s.mem := rfl

theorem execDtload_mem (f : XF) (s : State) : (s.after (execDtload f s)).mem = s.mem := by
  refine runGroup_mem (fun u t vs => ?_) s _
  split
  · rfl
  · dsimp only
    iterate 5
      split
      · simp
    have h := u.readImage_mem t 256 (addressOf (arg64 vs 0))
    split <;> rename_i hq <;> rw [hq] at h
    · exact h
    · simpa using h
    · simp
    · split <;> simpa using h

@[simp] theorem State.dropContext_mem (s : State) (cn : Nat) : (s.dropContext cn).mem = s.mem := rfl

theorem execTlbinv_mem (f : XF) (s : State) : (s.after (execTlbinv f s)).mem = s.mem := by
  refine runGroup_mem (needPriv_mem (fun _ _ _ => ?_) _ _) _ _
  dsimp only
  (repeat' split) <;> simp

/-! Machine/Reset -/

@[simp] theorem State.writeMst_mem (s : State) (die n : Nat) (v : DWord) : (s.writeMst die n v).mem = s.mem := by
  simp [State.writeMst]

theorem execMstWrite_mem (die n : Nat) (v : DWord) (s : State) : (s.after (execMstWrite die n v s)).mem = s.mem := by
  simp [execMstWrite]

@[simp] theorem State.setSys_mem (s : State) (cn : Nat) (sys : Bool) : (s.setSys cn sys).mem = s.mem := rfl

@[simp] theorem State.dropBuffers_mem (s : State) (cn : Nat) : (s.dropBuffers cn).mem = s.mem := rfl

@[simp] theorem State.rematch_mem (s : State) (cn : Nat) : (s.rematch cn).mem = s.mem := rfl

@[simp] theorem State.endContext_mem (s : State) (cn : Nat) : (s.endContext cn).mem = s.mem := rfl

@[simp] theorem State.writeCtxid_mem (s : State) (cn : Nat) (v : DWord) : (s.writeCtxid cn v).mem = s.mem := by
  unfold State.writeCtxid
  split <;> simp

theorem execCtxidWrite_mem (cn : Nat) (v : DWord) (s : State) : (s.after (execCtxidWrite cn v s)).mem = s.mem := by
  simp [execCtxidWrite]

@[simp] theorem State.writeTrsize_mem (s : State) (die : Nat) (v : DWord) : (s.writeTrsize die v).mem = s.mem := rfl

theorem execTrsizeWrite_mem (die : Nat) (v : DWord) (s : State) : (s.after (execTrsizeWrite die v s)).mem = s.mem := rfl

@[simp] theorem State.abandonBins_mem (s : State) (die : Nat) : (s.abandonBins die).mem = s.mem := by
  simp [State.abandonBins]

@[simp] theorem State.unqueueImages_mem (s : State) (die : Nat) : (s.unqueueImages die).mem = s.mem := rfl

@[simp] theorem State.readmit_mem (s : State) (die : Nat) : (s.readmit die).mem = s.mem := by
  simp [State.readmit]

@[simp] theorem State.flushL2_mem (s : State) (die : Nat) : (s.flushL2 die).mem = s.mem :=
  State.foldl_mem _ (fun u l => ⟨(writeBack_keptOnly u l).cacheOnly.timed.mem⟩) _ s

theorem execDieReadmit_mem (die : Nat) (s : State) : (s.after (execDieReadmit die s)).mem = s.mem := by
  simp [execDieReadmit]

/-! Machine/Csr -/

@[simp] theorem State.writeObs_mem (s : State) (c : CoreId) (r : Nat) (v : DWord) : (s.writeObs c r v).mem = s.mem := by
  simp [State.writeObs]

@[simp] theorem State.writePwm_mem (s : State) (p : Nat) (v : DWord) : (s.writePwm p v).mem = s.mem := rfl

@[simp] theorem State.writeNetcfg_mem (s : State) (v : DWord) : (s.writeNetcfg v).mem = s.mem := rfl

@[simp] theorem State.writeRing_mem (s : State) (d n : Nat) (v : DWord) : (s.writeRing d n v).mem = s.mem := by
  unfold State.writeRing
  split <;> simp

@[simp] theorem State.writeContext_mem (s : State) (cn n : Nat) (v : DWord) : (s.writeContext cn n v).mem = s.mem := by
  unfold State.writeContext
  split <;> simp

@[simp] theorem State.csrPlace_mem (s : State) (t : ThreadId) (n : Nat) : (s.csrPlace t n).mem = s.mem := by
  simp [State.csrPlace]

theorem execCsrr_mem (f : CsrF) (s : State) : (s.after (execCsrr f s)).mem = s.mem := by
  refine runGroup_mem (fun _ _ _ => ?_) _ _
  (repeat' split) <;> simp

/-! Machine/LoadStore -/

@[simp] theorem State.issueWindowLoad_mem (s : State) (t : ThreadId) (va : VAddr) (d off : Nat) (dest : List Nat) :
    (s.issueWindowLoad t va d off dest).mem = s.mem := by
  simp [State.issueWindowLoad]

theorem execLd_mem (f : MF) (s : State) : (s.after (execLd f s)).mem = s.mem := by
  refine runGroup_mem (fun u t vs => ?_) s _
  refine State.withGlobal_mem (fun v g => ?_) u t _ _ _ _
  split
  · rfl
  · cases g <;> simp

@[simp] theorem State.issueScaleWindow_mem (s : State) (t : ThreadId) (va : VAddr) (d off k at_ : Nat) :
    (s.issueScaleWindow t va d off k at_).mem = s.mem := rfl

theorem execLdmx_mem (f : LdmxF) (s : State) : (s.after (execLdmx f s)).mem = s.mem := by
  refine runGroup_mem (fun u t vs => ?_) s _
  split
  · split
    · rfl
    · dsimp only
      split
      · rfl
      · refine State.withMemory_mem (fun v p => State.withGlobal_mem (fun w g => ?_) v t _ _ _ _) u t _ _ _ _
        cases g <;> simp
  · rfl

/-! Machine/HostSide -/

@[simp] theorem State.endMessage_mem (s : State) (n conn : Nat) (o : Out) : (s.endMessage n conn o).mem = s.mem := by
  simp [State.endMessage]

@[simp] theorem State.messagePlace_mem (s : State) (cn : Nat) (need : Need) (va : VAddr) (k : Nat) :
    (s.messagePlace cn need va k).2.mem = s.mem := by
  have h := s.translate_mem 8 cn { need with window := k == 4 && va.toNat % 4 == 0 } va
  unfold State.messagePlace
  split <;> rename_i hq <;> rw [hq] at h <;> exact h

@[simp] theorem State.readPiece_mem (s : State) (cn : Nat) (va : VAddr) (g : Target) (k : Nat) : (s.readPiece cn va g k).2.mem = s.mem := by
  unfold State.readPiece
  split <;> simp

theorem execMemoryReadMessage_mem (n : Nat) (s : State) : (s.after (execMemoryReadMessage n s)).mem = s.mem := by
  unfold execMemoryReadMessage
  split
  · rename_i conn va len got _
    split
    · rfl
    · rename_i cn _
      dsimp only
      split
      · rfl
      · split
        · simp
        · have h := s.messagePlace_mem cn needRead va (pieceLength va len)
          split <;> rename_i hq <;> rw [hq] at h
          · rfl
          · simpa using h
          · simp only [State.after_next]
            split <;> simpa using h
  · rfl

@[simp] theorem State.attest_mem (s : State) (nonce : BitVec 512) : (s.attest nonce).mem = s.mem := by
  simp [State.attest]

theorem execAttestationRequest_mem (nonce : BitVec 512) (s : State) : (s.after (execAttestationRequest nonce s)).mem = s.mem := by
  simp [execAttestationRequest]

theorem execEthernetLinkUp_mem (port : Nat) (s : State) : (s.after (execEthernetLinkUp port s)).mem = s.mem := by
  simp [execEthernetLinkUp]

@[simp] theorem State.acknowledge_mem (s : State) (conn seq : Nat) : (s.acknowledge conn seq).mem = s.mem := rfl

@[simp] theorem State.arriveMsg_mem (s : State) (m : Msg) : (s.arriveMsg m).mem = s.mem := by
  unfold State.arriveMsg
  (repeat' split) <;> simp

@[simp] theorem State.deliverPackets_mem (conn fuel : Nat) : ∀ s : State, (State.deliverPackets conn fuel s).mem = s.mem := by
  induction fuel with
  | zero => exact fun _ => rfl
  | succ fuel ih =>
    intro s
    unfold State.deliverPackets
    dsimp only
    split
    · rfl
    · simp [ih]

@[simp] theorem State.arrivePacket_mem (s : State) (conn : Nat) (seq : BitVec 32) (m : Msg) : (s.arrivePacket conn seq m).mem = s.mem := by
  unfold State.arrivePacket
  dsimp only
  (repeat' split) <;> simp

@[simp] theorem State.correctError_mem (s : State) (die : Nat) : (s.correctError die).mem = s.mem := rfl

@[simp] theorem State.spoilSector_mem (s : State) (sector : Nat) : (s.spoilSector sector).mem = s.mem := by
  simp [State.spoilSector]

@[simp] theorem State.strikeWord_mem (s : State) (c : CoreId) (a w : Nat) (v : Word) : (s.strikeWord c a w v).mem = s.mem := rfl

@[simp] theorem State.reportCheck_mem (s : State) (die : Nat) : (s.reportCheck die).mem = s.mem := by
  simp [State.reportCheck]

theorem execTempFallsBelow96c_mem (die temp : Nat) (s : State) : (s.after (execTempFallsBelow96c die temp s)).mem = s.mem := by
  simp [execTempFallsBelow96c]

theorem execPackagePowerLimitStep_mem (die step : Nat) (s : State) : (s.after (execPackagePowerLimitStep die step s)).mem = s.mem := by
  simp [execPackagePowerLimitStep]

@[simp] theorem State.stopSystem_mem (s : State) (t : ThreadId) (cause : Cause) : (s.stopSystem t cause).mem = s.mem := by
  unfold State.stopSystem
  (repeat' split) <;> simp

@[simp] theorem State.uncorrectable_mem (s : State) (die : Nat) (kind : EccKind) (t : Option ThreadId) (addr : Nat) :
    (s.uncorrectable die kind t addr).mem = s.mem := by
  have hm := s.machineCheck_mem die (kindCode kind)
  unfold State.uncorrectable
  generalize s.machineCheck die (kindCode kind) = u at hm ⊢
  by_cases hp : (kind = .l2 ∨ kind = .dram) ∧ inHbm addr
  · simp only [if_pos hp]
    (repeat' split) <;> simp [hm]
  · simp only [if_neg hp]
    (repeat' split) <;> simp [hm]

theorem execUncorrectableError_mem (die : Nat) (kind : EccKind) (t : Option ThreadId) (addr : Nat) (s : State) :
    (s.after (execUncorrectableError die kind t addr s)).mem = s.mem := by
  simp [execUncorrectableError]

/-! Machine/Issue -/

@[simp] theorem State.settleThread_mem (s : State) (t : ThreadId) (x : Thread) : (s.settleThread t x).mem = s.mem := by
  unfold State.settleThread
  split <;> simp

@[simp] theorem State.settleCore_mem (s : State) (c : CoreId) : (s.settleCore c).mem = s.mem := by
  simp [State.settleCore]

@[simp] theorem State.trapAll_mem (s : State) (n : Nat) (ts : List Nat) (pc : VAddr) (cause : Cause) (aux : List DWord) :
    (s.trapAll n ts pc cause aux).mem = s.mem := by
  simp [State.trapAll]

theorem State.fetchWords_mem (t : ThreadId) (renew : Bool) (n : Nat) :
    ∀ (s : State) (va : VAddr), (((s.fetchWords t va renew n).map fun r => r.2.2).getD s).mem = s.mem := by
  induction n with
  | zero => exact fun _ _ => rfl
  | succ n ih =>
    intro s va
    have h := s.fetchAt_mem t va renew
    unfold State.fetchWords
    split <;> rename_i hq <;> rw [hq] at h
    · rfl
    · rename_i f u p
      have h' := ih u (va + 8)
      rcases hr : u.fetchWords t (va + 8) renew n with _ | r <;> rw [hr] at h'
      · rfl
      · exact h'.trans h

@[simp] theorem State.makeGroup_mem (s : State) (c : CoreId) (k : Nat) (key : CandidateKey) (x : Clause) (ts : List Nat) (who : ThreadId) :
    (s.makeGroup c k key x ts who).mem = s.mem := by
  simp [State.makeGroup]

@[simp] theorem State.holdBack_mem (s : State) (c : CoreId) (k : Nat) (u : Pickable) : ((s.holdBack c k u).getD s).mem = s.mem := by
  unfold State.holdBack
  dsimp only
  split <;> simp

@[simp] theorem State.sendBack_mem (s : State) (n : Nat) (ts : List Nat) : (s.sendBack n ts).mem = s.mem :=
  State.foldl_mem _ (by simp) ts s

@[simp] theorem State.atSlot_mem (s : State) (c : CoreId) (k : Nat) : (s.atSlot c k).mem = s.mem := rfl

theorem State.formWith_mem (s : State) (c : CoreId) (k : Nat) (u : Pickable) (m : Team) (renew : Bool) :
    ((s.formWith c k u m renew).getD s).mem = s.mem := by
  unfold State.formWith
  dsimp only
  split
  · simp
  · generalize (⟨u.key.team, _⟩ : ThreadId) = who
    have h := s.place.fetchAt_mem who u.key.pc renew
    split <;> rename_i hq <;> rw [hq] at h
    · rfl
    · simpa using h
    · rename_i w s' look
      split
      · simpa using h
      · split
        · rename_i v hv
          split at hv
          · have hh := s.holdBack_mem c k u
            rw [hv] at hh
            simpa using hh
          · cases hv
        · split
          · simp
          · have h' := s'.fetchWords_mem who renew (headerOf w).length (u.key.pc + 8)
            split <;> rename_i hr
            · rfl
            · rw [hr] at h'
              split
              · rfl
              · split <;> simpa using h'.trans h

@[simp] theorem State.form_mem (s : State) (c : CoreId) (k : Nat) (u : Pickable) (m : Team) : (s.form c k u m).mem = s.mem := by
  have h (b : Bool) := State.formWith_mem { s.atSlot c k with cur := some s.newId } c k u m b
  have ha : (s.atSlot c k).mem = s.mem := s.atSlot_mem c k
  unfold State.form
  dsimp only
  rcases hf : State.formWith { s.atSlot c k with cur := some s.newId } c k u m false with _ | v
  · exact (h true).trans ha
  · have hv := h false
    rw [hf] at hv
    exact hv.trans ha

theorem execGroupFormation_mem (c : CoreId) (slot : Nat) (s : State) : (s.after (execGroupFormation c slot s)).mem = s.mem := by
  unfold execGroupFormation
  (repeat' split) <;> simp

theorem execRegroupHoldExpiry_mem (c : CoreId) (slot : Nat) (s : State) : (s.after (execRegroupHoldExpiry c slot s)).mem = s.mem := rfl

@[simp] theorem State.promoteUnit_mem (s : State) (clk : Int) (u : Nat × List Nat) : (s.promoteUnit clk u).mem = s.mem :=
  (promoteUnit_quiet s clk u).mem

@[simp] theorem State.promoteUnits_mem (s : State) (c : CoreId) : (s.promoteUnits c).mem = s.mem := by
  simp [State.promoteUnits]

theorem execUnitPromotion_mem (c : CoreId) (s : State) : (s.after (execUnitPromotion c s)).mem = s.mem := by
  simp [execUnitPromotion]

theorem execDeferredCauseDelivery_mem (t : ThreadId) (s : State) : (s.after (execDeferredCauseDelivery t s)).mem = s.mem := by
  unfold execDeferredCauseDelivery
  (repeat' split) <;> simp

@[simp] theorem State.noteCounted_mem (s : State) (n idx : Nat) : (s.noteCounted n idx).mem = s.mem := rfl

@[simp] theorem State.noteProgress_mem (s : State) (c : CoreId) : (s.noteProgress c).mem = s.mem := rfl

/-! Machine/Step -/

@[simp] theorem trapGroup_mem (s : State) (g : Group) (cause : Cause) (aux : List DWord) : (trapGroup s g cause aux).mem = s.mem := by
  simp [trapGroup]

end Sys2Proof.Machine

end

section
/-! SUPPORT. The canonical form through stores, landings, atomics and trace records (O59) -/

namespace Sys2Proof.Machine

/-- A state whose memory has the canonical form. -/
@[simp] abbrev State.Canonical (s : State) : Prop := Memory.wf s.mem = true

theorem State.Canonical.of_mem {s u : State} (h : s.Canonical) (hu : u.mem = s.mem) : u.Canonical := by
  rw [State.Canonical, hu]
  exact h

/-- A fold of updates that each keep the form keeps it. -/
theorem State.foldl_wf {α : Type} {f : State → α → State} (hf : ∀ s a, s.Canonical → (f s a).Canonical) (l : List α) {s : State}
    (h : s.Canonical) : (l.foldl f s).Canonical := by
  induction l generalizing s with
  | nil => exact h
  | cons a l ih => exact ih (hf s a h)

/-! The forms of the rules about turns and elements for canonical memory -/

theorem runGroup_wf {body : State → ThreadId → List DWord → Attempt} (hb : ∀ u t vs, u.Canonical → (body u t vs).state.Canonical)
    {s : State} (h : s.Canonical) (sh : Shape) : (s.after (runGroup s sh body)).Canonical :=
  runGroup_keeps (P := (Memory.wf · = true)) hb h sh

theorem needPriv_wf {body : State → ThreadId → List DWord → Attempt} (hb : ∀ u t vs, u.Canonical → (body u t vs).state.Canonical)
    (p csr : Nat) (u : State) (t : ThreadId) (vs : List DWord) (h : u.Canonical) : (needPriv p csr body u t vs).state.Canonical :=
  needPriv_keeps (P := (Memory.wf · = true)) hb p csr u t vs h

theorem State.withGlobal_wf {body : State → Target → Attempt} (hb : ∀ u p, u.Canonical → (body u p).state.Canonical) {s : State}
    (h : s.Canonical) (t : ThreadId) (va : VAddr) (size : Nat) (mis : Cause) (need : Need) :
    (s.withGlobal t va size mis need body).state.Canonical :=
  State.withGlobal_keeps (P := (Memory.wf · = true)) hb h t va size mis need

theorem State.withMemory_wf {body : State → Place → Attempt} (hb : ∀ u p, u.Canonical → (body u p).state.Canonical) {s : State}
    (h : s.Canonical) (t : ThreadId) (va : VAddr) (size : Nat) (mis : Cause) (need : Need) :
    (s.withMemory t va size mis need body).state.Canonical :=
  State.withMemory_keeps (P := (Memory.wf · = true)) hb h t va size mis need

theorem Moved.andThen_wf {α β : Type} {s : State} {r : Moved α} {f : α → Command → State → Moved β} (h : s.Canonical)
    (hr : (r.after s).Canonical) (hf : ∀ v x u, u.Canonical → ((f v x u).after u).Canonical) : ((r.andThen f).after s).Canonical :=
  Moved.andThen_keeps (P := (Memory.wf · = true)) h hr hf

/-! Stores, atomics and the landings of engine writes -/

@[simp] theorem State.settle_wf {s : State} (h : s.Canonical) (pa n : Nat) : (s.settle pa n).Canonical := (settle_keeps s pa n).1 h

theorem State.settleByte_wf {s : State} (h : s.Canonical) (pa : Nat) : (s.settleByte pa).Canonical := (settleByte_touches s pa).1 h

@[simp] theorem State.performWrite_wf {s : State} (h : s.Canonical) (x : Command) (w : EngineWrite) : (s.performWrite x w).Canonical :=
  (performWrite_touches s x w).1 h

theorem State.issueStore_wf {s : State} (h : s.Canonical) (t : ThreadId) (va : VAddr) (p : Place) (bs : List Byte) (u : Option CacheUse)
    (pc : VAddr) : (s.issueStore t va p bs u pc).Canonical := by
  have h' := storeBytes_wf h t va (placeAddr va p) bs (u.getD .vol)
  unfold State.issueStore
  split <;> dsimp only <;> split <;> simpa using ‹_›

theorem State.deviceStore_wf {s : State} (h : s.Canonical) (pa : Nat) (bs : List Byte) : (s.deviceStore pa bs).Canonical :=
  homeBytes_wf (State.settle_wf (s := s.place) h pa bs.length) pa bs

theorem State.deviceLines_wf (fuel : Nat) :
    ∀ {s : State} (_ : s.Canonical) (pa : Nat) (bs : List Byte), (s.deviceLines pa fuel bs).Canonical := by
  induction fuel with
  | zero => exact fun h _ _ => h
  | succ fuel ih =>
    intro s h pa bs
    unfold State.deviceLines
    split
    · exact h
    · refine ih ?_ _ _
      split
      · exact h
      · exact State.deviceStore_wf h _ _

theorem State.devicePiece_wf {s : State} (h : s.Canonical) (die cn lid : Nat) (va : VAddr) (bs : List Byte) :
    (s.devicePiece die cn lid va bs).Canonical := by
  have h' := h.of_mem (s.deviceTranslate_mem die cn needWrite va)
  unfold State.devicePiece
  split <;> rename_i hq <;> rw [hq] at h'
  · split
    · exact h'.of_mem (State.pieceFailed_mem _ _ _ _)
    · exact State.deviceStore_wf h' _ _
  · exact h'.of_mem (State.pieceFailed_mem _ _ _ _)

theorem State.devicePieces_wf {s : State} (h : s.Canonical) (die cn lid : Nat) (base : VAddr) (ps : List (Nat × List Byte)) :
    (s.devicePieces die cn lid base ps).Canonical :=
  State.foldl_wf (fun _ p hu => State.devicePiece_wf hu die cn lid p.1 p.2) _ h

theorem State.atomicAt_wf {s : State} (h : s.Canonical) (t : ThreadId) (va : VAddr) (pa n op v cmp : Nat) :
    (s.atomicAt t va pa n op v cmp).2.Canonical :=
  writeHere_wf (State.settle_wf (s := s.place) h pa n) t va pa _ .vol

theorem State.issueAtomic_wf {s : State} (h : s.Canonical) (t : ThreadId) (va : VAddr) (p : Place) (n op v cmp : Nat) (dest : List Nat) :
    (s.issueAtomic t va p n op v cmp dest).Canonical := by
  have h' := State.atomicAt_wf h t va (placeAddr va p) n op v cmp
  unfold State.issueAtomic
  dsimp only
  split
  · simpa using h
  · split
    · exact h'
    · simpa using h'

theorem State.landWrite_wf {s : State} (h : s.Canonical) (e : Nat) (x : Command) (w : EngineWrite) : (s.landWrite e x w).Canonical := by
  have h' := State.settleByte_wf (s := s.place) h w.pa
  unfold State.landWrite
  dsimp only
  split
  · simpa using h
  · split
    · simpa using h'
    · exact State.performWrite_wf (by simpa using h') x w

theorem State.landGlobal_wf {s : State} (h : s.Canonical) (e : Nat) (x : Command) (n : Nat) (upTo : Scope) :
    (s.landGlobal e x n upTo).Canonical := by
  unfold State.landGlobal
  split
  · exact State.foldl_wf (fun _ w hu => State.landWrite_wf hu e x w) _ h
  · simpa using h

theorem execEngineWriteLanding_wf {s : State} (h : s.Canonical) (e n : Nat) (upTo : Scope) :
    (s.after (execEngineWriteLanding e n upTo s)).Canonical := by
  unfold execEngineWriteLanding
  split
  · exact h
  · rename_i x _
    split
    · simp only [State.after_next]
      split <;> simpa using h
    · simp only [State.after_next]
      split
      · exact (State.landGlobal_wf h e x n upTo).of_mem (State.forget_mem _ _)
      · exact h

/-! Records of the trace units and of the counters (R388, R389) -/

theorem State.trace_wf {s : State} (h : s.Canonical) (c : CoreId) (n : Name) (pc : VAddr) (kind : Nat) (data : DWord) :
    (s.trace c n pc kind data).Canonical := by
  unfold State.trace
  dsimp only
  split
  · exact h
  · rw [State.Canonical, State.setDie_mem]
    exact State.foldl_wf (fun _ _ hu => rawBytes_wf hu _ _) _ h

theorem State.sample_wf {s : State} (h : s.Canonical) (c : CoreId) (n : Nat) : (s.sample c n).Canonical := by
  unfold State.sample
  dsimp only
  split
  · exact h
  · split
    · exact h
    · exact State.trace_wf (by simpa using h) _ _ _ _ _

theorem State.endCounts_wf {s : State} (h : s.Canonical) (c : CoreId) : (s.endCounts c).Canonical := by
  have hc (l : List Nat) : (l.foldl (fun (s : State) n => if s.clkCounted c n then s.countOne c n 1 Name.none else s) s).Canonical :=
    State.foldl_wf (fun u n hu => by
      split
      · rw [countOne_cores]
        exact hu
      · exact hu) l h
  unfold State.endCounts
  refine State.foldl_wf (fun _ n hu => State.sample_wf hu c n) _ ?_
  split
  · exact hc _
  · exact (hc _).of_mem (State.setCore_mem _ _ _)

theorem State.tickCore_wf {s : State} (h : s.Canonical) (c : CoreId) : (s.tickCore c).Canonical := by
  have h' := State.endCounts_wf (s := (s.settleCore c).promoteUnits c) (by simpa using h) c
  unfold State.tickCore
  simpa using h'

/-- Time keeps the form: what it writes are trace records. -/
theorem State.passTime_wf {s : State} (h : s.Canonical) : s.passTime.Canonical :=
  State.foldl_wf (fun _ c hu => State.tickCore_wf hu c) _ (s := { s with dtime := s.dtime + 1 }) h

theorem execClk_wf {s : State} (h : s.Canonical) (c : CoreId) : (s.after (execClk c s)).Canonical := State.tickCore_wf h c

theorem execCounterSample_wf {s : State} (h : s.Canonical) (c : CoreId) (n : Nat) : (s.after (execCounterSample c n s)).Canonical := by
  unfold execCounterSample
  simp only [State.after_next]
  split
  · exact State.sample_wf h c n
  · exact h

end Sys2Proof.Machine

end

section
/-! SUPPORT. The canonical form through launches, teams that leave, replay sessions, resets and register writes (O59) -/

namespace Sys2Proof.Machine

/-! Launches, teams that leave, replay sessions and die resets -/

theorem State.acceptGrid_wf {s : State} (h : s.Canonical) (die cn : Nat) (r : Record) (ds : List Nat) (pass : Option Nat) :
    (s.acceptGrid die cn r ds pass).2.Canonical := by
  have h' := h.of_mem s.newLid_mem
  unfold State.acceptGrid
  dsimp only
  rw [State.Canonical, State.queueUnits_mem]
  split
  · simpa using h'
  · exact State.devicePieces_wf (by simpa using h') _ _ _ _ _

theorem State.launchBy_wf {one : State → VAddr → Nat → Piece} (h1 : ∀ u va n, (one u va n).state.mem = u.mem) {s : State}
    (h : s.Canonical) (die cn : Nat) (va : VAddr) (pass : Option Nat) :
    (((s.launchBy one die cn va pass).map fun r => r.2.2).getD s).Canonical := by
  have hr := h.of_mem (readRecord_mem h1 va s)
  unfold State.launchBy
  split <;> rename_i hq <;> rw [hq] at hr
  · exact h
  · exact hr
  · rename_i bs range u
    have hj := hr.of_mem (u.judge_mem die cn bs range)
    dsimp only
    split
    · exact hj
    · exact State.acceptGrid_wf hj _ _ _ _ _

theorem State.endStep_wf {s : State} (h : s.Canonical) (n : Nat) : (s.endStep n).Canonical := by
  unfold State.endStep
  split
  · exact h
  · split
    · exact State.trace_wf (by simpa using h) _ _ _ _ _
    · exact h

theorem State.writeOutcome_wf {s : State} (h : s.Canonical) (c : CoreId) (lid : Nat) (p : Preempt) (choice image size : Nat) :
    (s.writeOutcome c lid p choice image size).Canonical :=
  State.devicePieces_wf h _ _ _ _ _

theorem State.retireOutcome_wf {s : State} (h : s.Canonical) (m : Team) : (s.retireOutcome m).Canonical := by
  unfold State.retireOutcome
  split
  · exact h
  · split
    · exact h
    · exact State.writeOutcome_wf h _ _ _ _ _ _

theorem State.restartTeam_wf {s : State} (h : s.Canonical) (die n : Nat) (m : Team) : (s.restartTeam die n m).Canonical := by
  have hs (l : List (Nat × Team)) : (l.foldl (fun (s : State) e => s.endStep e.1) s).Canonical :=
    State.foldl_wf (fun _ e hu => State.endStep_wf hu e.1) l h
  have hf (l us : List (Nat × Team)) (ps : List Nat) :
      ((us.foldl (fun (s : State) e => (s.freeTeam e.1 e.2).abandonReplies e.2)
        (l.foldl (fun (s : State) e => s.endStep e.1) s)).requeue die m ps).Canonical :=
    (hs l).of_mem (by simp)
  unfold State.restartTeam
  dsimp only
  split
  · split
    · exact State.writeOutcome_wf (hf _ _ _) _ _ _ _ _ _
    · exact hf _ _ _
  · exact hf _ _ _

theorem State.keepSignatures_wf {s : State} (h : s.Canonical) (r : Replay) (teams : Nat) : (s.keepSignatures r teams).Canonical := by
  unfold State.keepSignatures
  dsimp only
  split
  · exact h
  · split
    · exact h
    · exact State.foldl_wf (fun _ _ hu => rawBytes_wf hu _ _) _ h

theorem State.passResult_wf {s : State} (h : s.Canonical) (r : Replay) : (s.passResult r).Canonical :=
  State.trace_wf (State.devicePieces_wf h _ _ _ _ _) _ _ _ _ _

theorem State.restorePages_wf {s : State} (h : s.Canonical) (r : Replay) : (s.restorePages r).Canonical := by
  refine State.foldl_wf (fun u i hu => ?_) _ h
  split
  · exact hu
  · exact State.deviceLines_wf 256 hu _ _

theorem State.beginPass_wf {s : State} (h : s.Canonical) (r : Replay) (p : Nat) : (s.beginPass r p).Canonical := by
  have hl := State.launchBy_wf (readAsDevice_mem 8 r.cn) h 8 r.cn (addressOf r.lrec) (some p)
  unfold State.beginPass
  dsimp only
  split <;> rename_i hq
  · split at hq
    · cases hq
    · rw [hq] at hl
      simpa using hl
  · split at hq
    · cases hq
      simpa using h
    · rw [hq] at hl
      simpa using hl
  · simpa using h

theorem State.startReplay_wf {s : State} (h : s.Canonical) (v : DWord) : (s.startReplay v).Canonical := by
  unfold State.startReplay
  split
  · exact h
  · split
    · exact h
    · exact State.beginPass_wf (s := s.place) h _ _

theorem State.endPass_wf {s : State} (h : s.Canonical) (teams : Nat) : (s.endPass teams).Canonical := by
  unfold State.endPass
  split
  · exact h
  · rename_i r _
    have hk : (if r.pass = 0 then s.keepSignatures r teams else s).Canonical := by
      split
      · exact State.keepSignatures_wf h _ _
      · exact h
    dsimp only
    generalize (if r.pass = 0 then s.keepSignatures r teams else s) = u at hk ⊢
    have hp := State.passResult_wf hk (u.replay.getD r)
    split
    · simpa using hp
    · split
      · refine State.beginPass_wf ?_ _ _
        simpa using State.restorePages_wf hp _
      · simpa using hp

theorem State.completeGrid_wf {s : State} (h : s.Canonical) (die lid : Nat) (g : Grid) : (s.completeGrid die lid g).Canonical := by
  have hd (va : VAddr) (ps : List (Nat × List Byte)) :
      (({ s with grids := Table.drop s.grids lid } : State).devicePieces die g.cn lid va ps).Canonical :=
    State.devicePieces_wf (s := { s with grids := Table.drop s.grids lid }) h _ _ _ _ _
  have ha (u : State) (hu : u.Canonical) :
      (g.waiters.foldl (fun (s : State) t => s.answer t 0 (if g.failed then 1 else 0) 0) u).Canonical :=
    hu.of_mem (by simp)
  unfold State.completeGrid
  dsimp only
  split
  · refine State.endPass_wf (ha _ ?_) _
    split
    · exact h
    · exact hd _ _
  · refine ha _ ?_
    split
    · exact h
    · exact hd _ _

theorem State.leaveGrid_wf {s : State} (h : s.Canonical) (die lid b : Nat) (failed : Bool) : (s.leaveGrid die lid b failed).Canonical := by
  unfold State.leaveGrid
  split
  · exact h
  · split
    · exact h
    · dsimp only
      split
      · exact State.completeGrid_wf (by simpa using h) _ _ _
      · exact h

theorem State.removeTeam_wf {s : State} (h : s.Canonical) (n : Nat) (m : Team) : (s.removeTeam n m).Canonical :=
  State.retireOutcome_wf (State.leaveGrid_wf (by simpa using State.endStep_wf h n) _ _ _ _) m

theorem State.retire_wf {s : State} (h : s.Canonical) (n : Nat) (m : Team) : (s.retire n m).Canonical :=
  State.retireOutcome_wf (State.leaveGrid_wf (by simpa using State.endStep_wf h n) _ _ _ _) m

theorem State.quiesce_wf {s : State} (h : s.Canonical) (die : Nat) : (s.quiesce die).Canonical := by
  refine State.foldl_wf (fun u n hu => ?_) _ h
  split
  · exact hu
  · split
    · exact State.restartTeam_wf hu _ _ _
    · exact State.removeTeam_wf hu _ _

theorem State.startReset_wf {s : State} (h : s.Canonical) (v : DWord) : (s.startReset v).Canonical := by
  unfold State.startReset
  dsimp only
  split
  · exact h
  · exact State.quiesce_wf (by simpa using h) _

/-! Writes of registers -/

theorem State.writePackage_wf {s : State} (h : s.Canonical) (n : Nat) (v : DWord) : (s.writePackage n v).Canonical := by
  unfold State.writePackage
  split
  · simpa using h
  · split
    · exact h
    · exact State.startReplay_wf h v
    · exact h

theorem State.writeVetch_wf {s : State} (h : s.Canonical) (n : Nat) (v : DWord) : (s.writeVetch n v).Canonical := by
  unfold State.writeVetch
  split
  · exact h
  · exact h
  · simpa using h
  · split
    · exact h
    · simpa using h
  · exact State.startReset_wf h v
  · exact h

theorem State.stepStep_wf {s : State} (h : s.Canonical) (die : Nat) (v : DWord) : (s.stepStep die v).Canonical := by
  unfold State.stepStep
  split
  · simpa using h
  · split
    · simpa using h
    · exact h
    · dsimp only
      split
      · exact State.endStep_wf (by simpa using h) _
      · simpa using h

theorem State.stepCommand_wf {s : State} (h : s.Canonical) (die : Nat) (v : DWord) : (s.stepCommand die v).Canonical := by
  unfold State.stepCommand
  split
  · simpa using h
  · exact State.stepStep_wf h die v
  · simpa using h
  · exact h

theorem State.writeDie_wf {s : State} (h : s.Canonical) (d n : Nat) (v : DWord) : (s.writeDie d n v).Canonical := by
  unfold State.writeDie
  split
  · simpa using h
  · split
    case h_9 => exact State.stepCommand_wf h d v
    all_goals simpa using h

theorem State.writeRegister_wf {s : State} (h : s.Canonical) (d n : Nat) (v : DWord) : (s.writeRegister d n v).Canonical := by
  unfold State.writeRegister
  split
  · simpa using h
  · exact State.writePackage_wf h n v
  · exact State.writeVetch_wf h n v
  · simpa using h
  · exact State.writeDie_wf h d n v
  · exact h

theorem State.writeWindow_wf {s : State} (h : s.Canonical) (c : CoreId) (d off : Nat) (w : Word) : (s.writeWindow c d off w).Canonical := by
  unfold State.writeWindow
  split
  · exact h
  · exact State.writeRegister_wf h _ _ _

theorem State.writeCsr_wf {s : State} (h : s.Canonical) (t : ThreadId) (n : Nat) (v : DWord) : (s.writeCsr t n v).Canonical := by
  unfold State.writeCsr
  split
  · simpa using h
  · simpa using h
  · simpa using h
  · exact State.writeRegister_wf h _ _ _
  · exact h

end Sys2Proof.Machine

end

section
/-! SUPPORT. The canonical form through the instructions and events that write memory (O59) -/

namespace Sys2Proof.Machine

/-! Instructions that write memory -/

theorem execSt_wf {s : State} (h : s.Canonical) (f : MF) : (s.after (execSt f s)).Canonical := by
  refine runGroup_wf (fun u t vs hu => State.withGlobal_wf (fun v p hv => ?_) hu t _ _ _ _) h _
  split
  · exact hv
  · cases p with
    | hbm pa => exact State.issueStore_wf hv _ _ _ _ _ _
    | failed c =>
      rw [Attempt.state_done]
      exact State.issueStore_wf hv _ _ _ _ _ _
    | window d off => exact State.writeWindow_wf (by simpa using hv) _ _ _ _

theorem execAtom_wf {s : State} (h : s.Canonical) (f : MF) : (s.after (execAtom f s)).Canonical := by
  refine runGroup_wf (fun u t vs hu => State.withMemory_wf (fun v p hv => ?_) hu t _ _ _ _) h _
  split
  · exact hv
  · exact State.issueAtomic_wf hv _ _ _ _ _ _ _ _

theorem execRed_wf {s : State} (h : s.Canonical) (f : MF) : (s.after (execRed f s)).Canonical := by
  refine runGroup_wf (fun u t vs hu => State.withMemory_wf (fun v p hv => ?_) hu t _ _ _ _) h _
  exact State.issueAtomic_wf hv _ _ _ _ _ _ _ _

theorem execKst_wf {s : State} (h : s.Canonical) (f : MF) : (s.after (execKst f s)).Canonical := by
  refine runGroup_wf (withKregs_keeps (P := (Memory.wf · = true)) (fun u t c ps vs hu =>
    State.withMemory_wf (fun v p hv => ?_) hu t _ _ _ _) _) h _
  exact State.issueStore_wf hv _ _ _ _ _ _

theorem execAcst_wf {s : State} (h : s.Canonical) (f : AcF) : (s.after (execAcst f s)).Canonical := by
  refine runGroup_wf (fun u t vs hu =>
    withAcc_keeps (P := (Memory.wf · = true)) (fun v t m row c ws hv =>
      State.withGlobal_wf (fun w p hw => ?_) hv t _ _ _ _) _ u t _ hu) h _
  cases p with
  | hbm pa => simpa using hw
  | window d off => simpa using hw
  | failed cause =>
    dsimp only
    rw [Attempt.state_done]
    exact State.issueStore_wf hw _ _ _ _ _ _

theorem execLaunch_wf {s : State} (h : s.Canonical) (f : XF) : (s.after (execLaunch f s)).Canonical := by
  refine runGroup_wf (fun u t vs hu => ?_) h _
  have hl := State.launchBy_wf (readAsThread_mem t) hu (u.coreOf t).die (u.cnOf t) (addressOf (arg64 vs 0)) none
  dsimp only
  split <;> rename_i hq
  · simpa using hu
  · rename_i st lid v
    have hv : v.Canonical := by
      split at hq
      · cases hq
        exact hu
      · rw [hq] at hl
        exact hl
    split
    · exact hv
    · simpa using hv

theorem execCsrw_wf {s : State} (h : s.Canonical) (f : CsrF) : (s.after (execCsrw f s)).Canonical := by
  refine runGroup_wf (fun u t vs hu => ?_) h _
  split
  · split
    · exact hu
    · exact State.writeCsr_wf (by simpa using hu) _ _ _
  · exact hu

theorem State.beginPreempt_wf {s : State} (h : s.Canonical) (us : List (Nat × Team)) (p : Preempt) (places : List (Nat × Nat)) (ns : Nat) :
    (s.beginPreempt us p places ns).Canonical := by
  refine State.foldl_wf (fun u k hu => ?_) _ h
  split
  · exact hu
  · rename_i e _
    have he := State.endStep_wf hu e.1
    dsimp only
    rw [State.Canonical, State.alterTeam_mem]
    split
    · exact hu
    · simpa using he

theorem State.request_wf {s : State} (h : s.Canonical) (f : PreqF) (t : ThreadId) (b : DWord) (lid ns : Nat) (rec : DWord) :
    (s.request f t b lid ns rec).2.Canonical := by
  unfold State.request
  dsimp only
  split
  · exact h
  · split
    · exact h
    · rename_i m _
      have hb (u : State) (hu : u.mem = s.mem) (us : List (Nat × Team)) (p : Preempt) (places : List (Nat × Nat)) :
          (u.beginPreempt us p places ns).Canonical := State.beginPreempt_wf (h.of_mem hu) us p places ns
      (repeat' split) <;> simp [h, hb]

theorem execPreq_wf {s : State} (h : s.Canonical) (f : PreqF) : (s.after (execPreq f s)).Canonical := by
  refine runGroup_wf (needPriv_wf (fun u t vs hu => ?_) _ _) h _
  simpa using State.request_wf hu f t (arg64 vs 0) (arg vs 1).toNat (arg vs 2).toNat (arg64 vs 3)

theorem State.spillPiece_wf {s : State} (h : s.Canonical) (t : ThreadId) (va : VAddr) (bs : List Byte) :
    (s.spillPiece t va bs).state.Canonical := by
  have h' := h.of_mem (s.translate_mem (s.coreOf t).die (s.cnOf t) needWrite va)
  unfold State.spillPiece
  split <;> rename_i hq <;> rw [hq] at h'
  · split
    · exact h'
    · exact storeBytes_wf h' _ _ _ _ _
  all_goals exact h'

theorem State.spillPieces_wf (t : ThreadId) (base : VAddr) (ps : List (Nat × List Byte)) :
    ∀ {s : State}, s.Canonical → (s.spillPieces t base ps).state.Canonical := by
  induction ps with
  | nil => exact fun h => h
  | cons p ps ih =>
    intro s h
    have h' := State.spillPiece_wf h t (base + BitVec.ofNat 57 p.1) p.2
    unfold State.spillPieces
    split <;> rename_i hq
    · rw [hq] at h'
      exact ih h'
    · exact h'

theorem execWspill_wf {s : State} (h : s.Canonical) (f : XF) : (s.after (execWspill f s)).Canonical := by
  refine runGroup_wf (needPriv_wf (fun u t vs hu => ?_) _ _) h _
  split
  · split
    · simpa using hu
    · dsimp only
      split
      · exact hu
      · exact Spill.answer_keeps (P := (Memory.wf · = true)) (State.spillPieces_wf t _ _ hu) hu (by simp) _ _ _
  · exact hu

theorem execBrk_wf {s : State} (h : s.Canonical) (f : XF) : (s.after (execBrk f s)).Canonical := by
  refine runGroup_wf (fun u t vs hu => ?_) h _
  split
  · dsimp only
    split
    · simpa using hu
    · split
      · simpa using State.trace_wf (s := u.countFor t 0x0E 1) (by simpa using hu) _ _ _ _ _
      · exact hu
  · exact hu

theorem execMark_wf {s : State} (h : s.Canonical) (f : MarkF) : (s.after (execMark f s)).Canonical := by
  refine runGroup_wf (fun u t vs hu => ?_) h _
  split
  · exact State.trace_wf hu _ _ _ _ _
  · simpa using hu

/-- escat reads its index and its element, and changes the bytes of one element of its array (R276). -/
theorem execEscat_wf {s : State} (h : s.Canonical) (e n p : Nat) : (s.after (execEscat e n p s)).Canonical := by
  refine moveElement_keeps (P := (Memory.wf · = true)) (fun x u (hu : u.Canonical) => ?_) 4 e n p h
  split
  · exact hu
  · refine Moved.andThen_wf hu (hu.of_mem (readIndex_mem x n p u)) fun i x v hv => ?_
    refine Moved.andThen_wf hv (hv.of_mem (engineRead_mem _ _ _ _ x v)) fun b x w hw => ?_
    refine Moved.andThen_wf hw (hw.of_mem (w.engineAt_mem x needAtomic _)) fun pa x y hy => ?_
    rw [Moved.after_ok, State.Canonical, State.noteLanding_mem]
    exact homeBytes_wf (capture_wf (State.settle_wf (s := y.place) hy _ _) _ _) _ _

theorem State.performAcst_wf {s : State} (h : s.Canonical) (t : ThreadId) (va : VAddr) (pa : Nat) (bs : List Byte) (pc : VAddr) :
    (s.performAcst t va pa bs pc).Canonical := by
  unfold State.performAcst
  split
  · exact State.writeWindow_wf (by simpa using h) _ _ _ _
  · exact State.issueStore_wf h _ _ _ _ _ _

theorem State.performAcc_wf {s : State} (h : s.Canonical) (c : CoreId) (e : AccEffect) : (s.performAcc c e).Canonical := by
  cases e with
  | read =>
    simp only [State.performAcc]
    split
    · simpa using h
    · exact h
  | write => simpa [State.performAcc] using h
  | store => exact State.performAcst_wf h _ _ _ _ _
  | update => exact h

theorem execAccumulatorAccessPerformed_wf {s : State} (h : s.Canonical) (c : CoreId) (n : Nat) :
    (s.after (execAccumulatorAccessPerformed c n s)).Canonical := by
  have hp (e : AccEffect) : ((s.alterCore c fun k => { k with accq := Table.drop k.accq n }).performAcc c e).Canonical :=
    State.performAcc_wf (by simpa using h) c e
  unfold execAccumulatorAccessPerformed
  simp only [State.after_next]
  split
  · exact h
  · rename_i e _ _
    split
    · split
      · unfold State.orLater
        split
        · exact h
        · exact hp _
      · exact hp _
    · exact h
  · exact h

theorem execTeamRetire_wf {s : State} (h : s.Canonical) (n : Nat) : (s.after (execTeamRetire n s)).Canonical := by
  unfold execTeamRetire
  split
  · simp only [State.after_next]
    split
    · exact State.retire_wf h _ _
    · exact h
  · exact h

theorem State.serveLaunch_wf {s : State} (h : s.Canonical) (res : Bool) (token : DWord) (args : List Byte) :
    (s.serveLaunch res token args).Canonical := by
  have hl := State.launchBy_wf (readAsDevice_mem 8 (field args 0 4)) h 8 (field args 0 4) (BitVec.ofNat 57 (field args 8 8)) none
  unfold State.serveLaunch
  dsimp only
  split <;> rename_i hq
  · split at hq
    · cases hq
    · rw [hq] at hl
      simpa using hl
  · split at hq
    · cases hq
      simpa using h
    · rw [hq] at hl
      simpa using hl
  · simpa using h

theorem State.serve_wf {s : State} (h : s.Canonical) (n dev hd pri : Nat) (res : Bool) (token : DWord) (args : List Byte) :
    (s.serve n dev hd pri res token args).Canonical := by
  have ht : (s.take n).Canonical := by simpa using h
  unfold State.serve
  dsimp only
  split
  · simpa using ht
  · split
    · simpa using ht
    · exact State.serveLaunch_wf ht _ _ _
    · simpa using ht
    · split
      · exact h
      · simpa using ht

theorem execInvocationArrival_wf {s : State} (h : s.Canonical) (n : Nat) : (s.after (execInvocationArrival n s)).Canonical := by
  unfold execInvocationArrival
  split
  · simp only [State.after_next]
    split
    · exact State.serve_wf h _ _ _ _ _ _ _
    · exact h
  · exact h

theorem State.setOwn_wf {s : State} (h : s.Canonical) (lid cn addr : Nat) : (s.setOwn lid cn addr).Canonical :=
  homeBytes_wf (capture_wf (State.settle_wf h _ _) _ _) _ _

theorem execOwnershipChange_wf {s : State} (h : s.Canonical) (n : Nat) : (s.after (execOwnershipChange n s)).Canonical := by
  unfold execOwnershipChange
  split
  · exact h
  · rename_i g _
    have hs (l : List Nat) (lid : Nat) : (l.foldl (fun (s : State) a => s.setOwn lid g.owner a) s.place).Canonical :=
      State.foldl_wf (fun _ a hu => State.setOwn_wf hu _ _ a) l (s := s.place) h
    dsimp only
    split
    · exact h
    · split
      · simpa using h
      · simpa using h
      · simpa using hs _ _

theorem execPreqDeadline_wf {s : State} (h : s.Canonical) (n : Nat) : (s.after (execPreqDeadline n s)).Canonical := by
  unfold execPreqDeadline
  split
  · exact h
  · split
    · exact h
    · dsimp only
      rename_i m _ _ _ _
      split
      · exact h
      · have hd : ({ s with drawn := s.drawn + (s.unitTeams m).length } : State).Canonical := h
        exact State.beginPreempt_wf hd _ _ _ _

theorem State.settleFor_wf {s : State} (h : s.Canonical) (team : Nat) : (s.settleFor team).Canonical :=
  State.foldl_wf (fun _ pa hu => State.settleByte_wf hu pa) _ h

theorem State.saveUnit_wf {s : State} (h : s.Canonical) (us : List (Nat × Team)) : (s.saveUnit us).Canonical := by
  have hs : (us.foldl (fun (s : State) e => s.settleFor e.1) s.place).Canonical :=
    State.foldl_wf (fun _ e hu => State.settleFor_wf hu e.1) us (s := s.place) h
  unfold State.saveUnit
  dsimp only
  rw [State.Canonical, State.foldl_mem _ (by simp)]
  refine State.foldl_wf (fun v e hv => ?_) _ ?_
  · exact State.deviceLines_wf (e.2.size / 256 + 1) (s := v.contextUse e.1.die e.1.pa e.2.size true) (by simpa using hv) e.1.pa e.2.bytes
  · exact hs

theorem execTeamSaveComplete_wf {s : State} (h : s.Canonical) (n : Nat) : (s.after (execTeamSaveComplete n s)).Canonical := by
  have hu (us : List (Nat × Team)) := State.saveUnit_wf h us
  unfold execTeamSaveComplete
  split
  · exact h
  · split
    · exact h
    · dsimp only
      split
      · exact h
      · split
        · exact State.writeOutcome_wf (by simpa using h) _ _ _ _ _ _
        · refine State.writeOutcome_wf ?_ _ _ _ _ _ _
          split
          · exact hu _
          · simpa using hu _

theorem execStepEnd_wf {s : State} (h : s.Canonical) (n : Nat) : (s.after (execStepEnd n s)).Canonical := by
  unfold execStepEnd
  split
  · exact h
  · split
    · rw [State.after_next]
      generalize (_ || _ : Bool) = b
      cases b
      · exact h
      · exact State.endStep_wf h n
    · exact h

theorem State.writePiece_wf {s : State} (h : s.Canonical) (cn : Nat) (va : VAddr) (g : Target) (bs : List Byte) :
    (s.writePiece cn va g bs).Canonical := by
  cases g with
  | hbm pa => exact State.deviceStore_wf (by simpa using h) _ _
  | window d off => exact State.writeWindow_wf (by simpa using h) _ _ _ _
  | failed c => exact h

theorem execMemoryWriteMessage_wf {s : State} (h : s.Canonical) (n : Nat) : (s.after (execMemoryWriteMessage n s)).Canonical := by
  unfold execMemoryWriteMessage
  split
  · rename_i conn va bs _
    split
    · exact h
    · rename_i cn _
      split
      · exact h
      · split
        · simpa using h
        · have h' := h.of_mem (s.messagePlace_mem cn needWrite va (pieceLength va bs.length))
          dsimp only
          split <;> rename_i hq <;> rw [hq] at h'
          · exact h
          · simpa using h'
          · rename_i g u
            have hw := State.writePiece_wf h' cn va g (bs.take (pieceLength va bs.length))
            simp only [State.after_next]
            split
            · simpa using hw
            · exact hw
  · exact h

/-! A start, and what a management message asks for (R397, R400) -/

theorem State.coldStarted_wf (s : State) (i : StartInput) : (s.coldStarted i).Canonical := rfl

theorem State.warmStarted_wf {s : State} (h : s.Canonical) (i : StartInput) (clear : Bool) : (s.warmStarted i clear).Canonical := by
  unfold State.warmStarted
  dsimp only
  split
  · rfl
  · exact h

theorem State.manage_wf {s : State} (h : s.Canonical) (r : Request) : (s.manage r).Canonical := by
  cases r with
  | straps => exact h
  | coldStart i => exact State.coldStarted_wf s i
  | warmStart i clear => exact State.warmStarted_wf h i clear
  | dieReset d =>
    simp only [State.manage]
    split
    · exact State.startReset_wf h _
    · exact h
  | powerLimit => exact h
  | attest nonce => simpa [State.manage] using h
  | bind conn cn =>
    simp only [State.manage]
    split <;> exact h

theorem execManagementMessage_wf {s : State} (h : s.Canonical) (n : Nat) : (s.after (execManagementMessage n s)).Canonical := by
  unfold execManagementMessage
  split
  · simp only [State.after_next]
    split
    · simpa using h
    · exact State.manage_wf (s := { s with msgs := Table.drop s.msgs n }) h _
  · exact h

theorem execThermalStep_wf {s : State} (h : s.Canonical) (die temp : Nat) : (s.after (execThermalStep die temp s)).Canonical := by
  unfold execThermalStep
  simp only [State.after_next]
  split
  · simpa using h
  · split
    · exact State.startReset_wf (by simpa using h) _
    · simpa using h

/-! A turn of a slot, and a step -/

theorem State.countIssue_mem (t s : State) (c : CoreId) (g : Group) (active : List Nat) : (t.countIssue s c g active).mem = t.mem := by
  unfold State.countIssue
  dsimp only
  (repeat' split) <;> simp

theorem State.afterIssue_wf {t s : State} (ht : t.Canonical) (hs : s.Canonical) (c : CoreId) (k n : Nat) (g : Group) (guard : Guard) :
    (t.afterIssue s c k n g guard).Canonical := by
  unfold State.afterIssue
  dsimp only
  split
  · simpa using hs
  · split
    · simpa using ht
    · simpa [State.countIssue_mem] using ht

theorem afterTurn_wf {s u : State} {r : Result} (h : (s.after r).Canonical) (hr : afterTurn r = .next u) : u.Canonical := by
  cases r with
  | next t =>
    cases hr
    simpa using h
  | fault => cases hr
  | refused => cases hr

end Sys2Proof.Machine

end

section
/-! SUPPORT. The canonical form through every instruction, every turn and every step; O59 -/

namespace Sys2Proof.Machine

/-! Every instruction and every event, a turn of a slot, and a step; O59 -/

/-- Most rows leave memory as it is; those that write it, the last of the list, write it through operations that keep the form. -/
theorem exec_wf {s : State} (h : s.Canonical) (i : Instr) : (s.after (exec i s)).Canonical := by
  cases i with
  | iadd | iaddI | isub | isubI | imul | imulI | imulh | imulhI | imad | idiv | idivI | irem | iremI | iabs | ineg | imin | iminI | imax
  | imaxI | and | andI | or | orI | xor | xorI | andn | andnI | not | shl | shlI | shr | shrI | sar | sarI | rotl | rotlI | popc | clz
  | ctz | brev | bfe | bfi | sel | icmpI | iaddc | add64 | sub64 | lea | leaI | lea64 | fadd | faddI | fsub | fsubI | fmul | fmulI | ffma
  | fmin | fminI | fmax | fmaxI | fabs | fneg | fcmpI | fclass | frnd | fscale | rcpe | rsqrte | fsqrt | exp2e | log2e | hadd2 | hmul2
  | hfma2 | bfadd2 | bfmul2 | bffma2 | cvt | pk | upk | movi | movh | pand | por | pxor | pnot =>
    exact h.of_mem (runLane_mem _ _ _)
  | mmaI4x | mmaI4 | mmaI8 | mmaE4m3 | mmaE5m2 | mmaE2m1 | mmaBf16 =>
    exact h.of_mem (runMma_mem _ _)
  | fld | fst | fatom | feset | feclr | fetest =>
    exact h.of_mem (runField_mem _ _ _ _ _)
  | icmp f => exact h.of_mem (execIcmp_mem f s)
  | fcmp f => exact h.of_mem (execFcmp_mem f s)
  | alnb f => exact h.of_mem (execAlnb_mem f s)
  | mov f => exact h.of_mem (execMov_mem f s)
  | movc f => exact h.of_mem (execMovc_mem f s)
  | movs f => exact h.of_mem (execMovs_mem f s)
  | pmov f => exact h.of_mem (execPmov_mem f s)
  | br f => exact h.of_mem (execBr_mem f s)
  | brc f => exact h.of_mem (execBrc_mem f s)
  | brx f => exact h.of_mem (execBrx_mem f s)
  | call f => exact h.of_mem (execCall_mem f s)
  | callx f => exact h.of_mem (execCallx_mem f s)
  | ret f => exact h.of_mem (execRet_mem f s)
  | exit f => exact h.of_mem (execExit_mem f s)
  | yield f => exact h.of_mem (execYield_mem f s)
  | nop f => exact h.of_mem (execNop_mem f s)
  | shfl f => exact h.of_mem (execShfl_mem f s)
  | vote f => exact h.of_mem (execVote_mem f s)
  | gred f => exact h.of_mem (execGred_mem f s)
  | gsync f => exact h.of_mem (execGsync_mem f s)
  | ld f => exact h.of_mem (execLd_mem f s)
  | pf f => exact h.of_mem (execPf_mem f s)
  | kmov f => exact h.of_mem (execKmov_mem f s)
  | kset f => exact h.of_mem (execKset_mem f s)
  | kmul f => exact h.of_mem (execKmul_mem f s)
  | kmax f => exact h.of_mem (execKmax_mem f s)
  | kmin f => exact h.of_mem (execKmin_mem f s)
  | krcp f => exact h.of_mem (execKrcp_mem f s)
  | kcvtf f => exact h.of_mem (execKcvtf_mem f s)
  | kcvtk f => exact h.of_mem (execKcvtk_mem f s)
  | kbind f => exact h.of_mem (execKbind_mem f s)
  | ktag f => exact h.of_mem (execKtag_mem f s)
  | kld f => exact h.of_mem (execKld_mem f s)
  | kclr f => exact h.of_mem (execKclr_mem f s)
  | ldmx f => exact h.of_mem (execLdmx_mem f s)
  | acwin f => exact h.of_mem (execAcwin_mem f s)
  | acrd f => exact h.of_mem (execAcrd_mem f s)
  | acwr f => exact h.of_mem (execAcwr_mem f s)
  | aczero f => exact h.of_mem (execAczero_mem f s)
  | mstat f => exact h.of_mem (execMstat_mem f s)
  | amode f => exact h.of_mem (execAmode_mem f s)
  | resize f => exact h.of_mem (execResize_mem f s)
  | barinit f => exact h.of_mem (execBarinit_mem f s)
  | barlink f => exact h.of_mem (execBarlink_mem f s)
  | bararr f => exact h.of_mem (execBararr_mem f s)
  | bartry f => exact h.of_mem (execBartry_mem f s)
  | barwait f => exact h.of_mem (execBarwait_mem f s)
  | bartest f => exact h.of_mem (execBartest_mem f s)
  | bardrop f => exact h.of_mem (execBardrop_mem f s)
  | chsend f => exact h.of_mem (execChsend_mem f s)
  | chrecv f => exact h.of_mem (execChrecv_mem f s)
  | chtry f => exact h.of_mem (execChtry_mem f s)
  | spawn f => exact h.of_mem (execSpawn_mem f s)
  | rinv f => exact h.of_mem (execRinv_mem f s)
  | rret f => exact h.of_mem (execRret_mem f s)
  | hndalloc f => exact h.of_mem (execHndalloc_mem f s)
  | hndpass f => exact h.of_mem (execHndpass_mem f s)
  | hndfree f => exact h.of_mem (execHndfree_mem f s)
  | kvgive f => exact h.of_mem (execKvgive_mem f s)
  | kvtake f => exact h.of_mem (execKvtake_mem f s)
  | edrain f => exact h.of_mem (execEdrain_mem f s)
  | trap f => exact h.of_mem (execTrap_mem f s)
  | rfe f => exact h.of_mem (execRfe_mem f s)
  | csrr f => exact h.of_mem (execCsrr_mem f s)
  | dtload f => exact h.of_mem (execDtload_mem f s)
  | tlbinv f => exact h.of_mem (execTlbinv_mem f s)
  | wfill f => exact h.of_mem (execWfill_mem f s)
  | ecopy e n at_ => exact h.of_mem (execEcopy_mem e n at_ s)
  | etld e n at_ => exact h.of_mem (execEtld_mem e n at_ s)
  | etst e n at_ => exact h.of_mem (execEtst_mem e n at_ s)
  | egath e n at_ => exact h.of_mem (execEgath_mem e n at_ s)
  | econv e n at_ => exact h.of_mem (execEconv_mem e n at_ s)
  | enginePushAccepted e => exact h.of_mem (execEnginePushAccepted_mem e s)
  | engineCompletion e => exact h.of_mem (execEngineCompletion_mem e s)
  | mmaUpdate c a => exact h.of_mem (execMmaUpdate_mem c a s)
  | computeModeLoadServed c a => exact h.of_mem (execComputeModeLoadServed_mem c a s)
  | amodeComplete c a => exact h.of_mem (execAmodeComplete_mem c a s)
  | resizeComplete team => exact h.of_mem (execResizeComplete_mem team s)
  | class0TieTake cn n a => exact h.of_mem (execClass0TieTake_mem cn n a s)
  | barrierLinkMessage n => exact h.of_mem (execBarrierLinkMessage_mem n s)
  | barrierArrivalMessage n => exact h.of_mem (execBarrierArrivalMessage_mem n s)
  | barrierFlipMessage n => exact h.of_mem (execBarrierFlipMessage_mem n s)
  | barrierWaiterWake c o => exact h.of_mem (execBarrierWaiterWake_mem c o s)
  | channelSlotLanding n => exact h.of_mem (execChannelSlotLanding_mem n s)
  | loadReply n => exact h.of_mem (execLoadReply_mem n s)
  | errorReply n => exact h.of_mem (execErrorReply_mem n s)
  | leaseExpiry c line => exact h.of_mem (execLeaseExpiry_mem c line s)
  | pageCounterEpoch => exact h.of_mem (execPageCounterEpoch_mem s)
  | groupFormation c slot => exact h.of_mem (execGroupFormation_mem c slot s)
  | unitPromotion c => exact h.of_mem (execUnitPromotion_mem c s)
  | regroupHoldExpiry c slot => exact h.of_mem (execRegroupHoldExpiry_mem c slot s)
  | yieldDelayEnd t => exact h.of_mem (execYieldDelayEnd_mem t s)
  | teamStart die n c => exact h.of_mem (execTeamStart_mem die n c s)
  | dispatchWait1ms die n => exact h.of_mem (execDispatchWait1ms_mem die n s)
  | coresPending100us lid => exact h.of_mem (execCoresPending100us_mem lid s)
  | binTimerExpiry die bin => exact h.of_mem (execBinTimerExpiry_mem die bin s)
  | replyArrival n => exact h.of_mem (execReplyArrival_mem n s)
  | kvgiveClose n => exact h.of_mem (execKvgiveClose_mem n s)
  | kvtakeComplete t => exact h.of_mem (execKvtakeComplete_mem t s)
  | deferredCauseDelivery t => exact h.of_mem (execDeferredCauseDelivery_mem t s)
  | teamRestore die n c => exact h.of_mem (execTeamRestore_mem die n c s)
  | binload die v => exact h.of_mem (execBinload_mem die v s)
  | restore die v => exact h.of_mem (execRestore_mem die v s)
  | dieReadmit die => exact h.of_mem (execDieReadmit_mem die s)
  | mstWrite die n v => exact h.of_mem (execMstWrite_mem die n v s)
  | ctxidWrite cn v => exact h.of_mem (execCtxidWrite_mem cn v s)
  | trsizeWrite die v => exact h.of_mem (execTrsizeWrite_mem die v s)
  | stepEnter die v => exact h.of_mem (execStepEnter_mem die v s)
  | stepLeave die v => exact h.of_mem (execStepLeave_mem die v s)
  | memoryReadMessage n => exact h.of_mem (execMemoryReadMessage_mem n s)
  | attestationRequest nonce => exact h.of_mem (execAttestationRequest_mem nonce s)
  | retransmitTimeout n => exact h.of_mem (execRetransmitTimeout_mem n s)
  | ethernetLinkUp port => exact h.of_mem (execEthernetLinkUp_mem port s)
  | coldStart inp => exact State.coldStarted_wf s inp
  | warmStart inp clear => exact State.warmStarted_wf h inp clear
  | tempFallsBelow96c die temp => exact h.of_mem (execTempFallsBelow96c_mem die temp s)
  | packagePowerLimitStep die step => exact h.of_mem (execPackagePowerLimitStep_mem die step s)
  | uncorrectableError die kind t addr => exact h.of_mem (execUncorrectableError_mem die kind t addr s)
  | st f => exact execSt_wf h f
  | atom f => exact execAtom_wf h f
  | red f => exact execRed_wf h f
  | kst f => exact execKst_wf h f
  | acst f => exact execAcst_wf h f
  | launch f => exact execLaunch_wf h f
  | csrw f => exact execCsrw_wf h f
  | preq f => exact execPreq_wf h f
  | wspill f => exact execWspill_wf h f
  | brk f => exact execBrk_wf h f
  | mark f => exact execMark_wf h f
  | escat e n at_ => exact execEscat_wf h e n at_
  | engineWriteLanding e n upTo => exact execEngineWriteLanding_wf h e n upTo
  | accumulatorAccessPerformed c n => exact execAccumulatorAccessPerformed_wf h c n
  | clk c => exact execClk_wf h c
  | teamRetire team => exact execTeamRetire_wf h team
  | invocationArrival n => exact execInvocationArrival_wf h n
  | ownershipChange n => exact execOwnershipChange_wf h n
  | preqDeadline team => exact execPreqDeadline_wf h team
  | teamSaveComplete team => exact execTeamSaveComplete_wf h team
  | dierst v => exact State.startReset_wf h v
  | rpstart v => exact State.startReplay_wf h v
  | stepStep die v => exact State.stepStep_wf h die v
  | stepEnd team => exact execStepEnd_wf h team
  | counterSample c n => exact execCounterSample_wf h c n
  | memoryWriteMessage n => exact execMemoryWriteMessage_wf h n
  | managementMessage n => exact execManagementMessage_wf h n
  | thermalStep die temp => exact execThermalStep_wf h die temp
theorem issueGroup_wf {s : State} (h : s.Canonical) (c : CoreId) (k n : Nat) (g : Group) : (s.after (issueGroup s c k n g)).Canonical := by
  unfold issueGroup
  split
  · split
    · rename_i i _
      have he := exec_wf (s := { s with cur := some n }) h i
      cases hq : exec i { s with cur := some n } with
      | next t =>
        rw [hq] at he
        exact State.afterIssue_wf he h _ _ _ _ _
      | fault => exact h
      | refused => exact h
    · simpa using h
  · simpa using h
  · exact h

theorem stepSlot_wf {s : State} (h : s.Canonical) (c : CoreId) (k : Nat) : (s.after (stepSlot s c k)).Canonical := by
  have hd (i : Instr) : (s.after (exec i (s.atSlot c k))).Canonical := by
    have he := exec_wf (s := s.atSlot c k) (by simpa using h) i
    cases hq : exec i (s.atSlot c k) with
    | next u =>
      rw [hq] at he
      exact he
    | fault => exact h
    | refused => exact h
  unfold stepSlot
  split
  · exact h
  · split
    · exact h
    · split
      · split
        · exact hd _
        · exact exec_wf h _
      · split
        · exact h
        · split
          · exact hd _
          · exact issueGroup_wf h _ _ _ _

theorem step_wf {s u : State} (h : s.Canonical) (hu : step s = .next u) : u.Canonical := by
  unfold step at hu
  split at hu
  · exact afterTurn_wf (s := s) (r := .next s.passTime) (State.passTime_wf h) hu
  · rename_i turn rest _
    have h' : ({ s with sched := rest, cur := none } : State).Canonical := h
    refine afterTurn_wf (s := { s with sched := rest, cur := none }) ?_ hu
    cases turn with
    | slot c k => exact stepSlot_wf h' c k
    | event i =>
      dsimp only
      split
      · exact exec_wf h' i
      · exact h'
    | tick => exact h'
    | arrive m => simpa using h
    | packet conn seq m => simpa using h
    | spoil n => simpa using h
    | correct d => simpa using h
    | strike c a w v => simpa using h

end Sys2Proof.Machine

namespace Sys2Proof

/-- Settles O59: `step_wf`, over every turn and every instruction; memory is written a byte, a list of bytes or a copied range at a time, and each keeps the form. -/
theorem everyStepKeepsMemoryCanonical : Obligations.EveryStepKeepsMemoryCanonical := by
  unfold Obligations.EveryStepKeepsMemoryCanonical
  exact fun _ _ h hu => Machine.step_wf h hu

end Sys2Proof

end

namespace Sys2Proof

/-- Settles O3: each word decodes by evaluation. -/
theorem workedWordsDecode : Obligations.WorkedWordsDecode := by
  unfold Obligations.WorkedWordsDecode
  exact ⟨rfl, rfl, rfl, rfl, rfl, rfl, rfl, rfl⟩

end Sys2Proof

section
/-! SUPPORT. A group of one thread: what an instruction comes to, by what its body answers (R53, R81). -/

namespace Sys2Proof.Machine

/-- What an instruction whose body answers `a` comes to in the one thread of a group. -/
structure Answers (i : Instr) (s : State) (n : Nat) (g : Group) (t : ThreadId) (sh : Shape) (a : Attempt) : Prop where
  commits : ∀ {u}, a = .done u → Commits i s n t sh u
  traps   : ∀ {c aux u}, a = .trap c aux u → Traps i s n g t c aux u
  waits   : ∀ {w u}, a = .wait w u → w.undoes = false ∨ u = s.resumed n → Waits i s n w u
  undone  : ∀ {w u}, a = .wait w u → w.undoes = true → Waits i s n w (s.resumed n)
  engages : ∀ {u}, a = .engage u → Engages i s n t sh u
  stays   : ∀ {u}, a = .park u → Stays i s n t u
  leaves  : ∀ {u}, a = .left u → exec i s = .next (u.passOn n)

theorem Solo.answers {i : Instr} {s : State} {n : Nat} {g : Group} {t : ThreadId} {x : Thread} {m : Team} {sh : Shape}
    {body : State → ThreadId → List DWord → Attempt} (h : Solo s n g t x m sh) (hi : exec i s = runGroup s sh body) :
    Answers i s n g t sh (body (s.resumed n) t (s.valuesOf sh t)) := by
  refine ⟨fun ha => hi.trans (runGroup_solo_done h ha), fun ha => hi.trans (runGroup_solo_trap h ha), fun {w u} ha hw => ?_,
    fun {w u} ha hw => (hi.trans (runGroup_solo_wait h ha)).trans (by rw [if_pos hw]), fun ha => hi.trans (runGroup_solo_engage h ha), fun ha => hi.trans (runGroup_solo_park h ha),
    fun ha => hi.trans (runGroup_solo_left h ha)⟩
  have hu : (if w.undoes then s.resumed n else u) = u := by
    rcases hw with hw | rfl
    · simp [hw]
    · exact ite_self _
  exact (hi.trans (runGroup_solo_wait h ha)).trans (by rw [hu])

/-- The group of the one thread as its instruction executes. -/
theorem Solo.groupOf {s : State} {n : Nat} {g : Group} {t : ThreadId} {x : Thread} {m : Team} {sh : Shape} (h : Solo s n g t x m sh) :
    (s.resumed n).groupOf t = some { g with hold := none } := by
  unfold State.groupOf
  simp only [State.resumed_thread, h.thread, Option.map_some, h.status]
  simp [State.resumed, h.group]

end Sys2Proof.Machine
end

section
/-! SUPPORT. Barrier instructions (R286 to R303) in a group of one thread: the checks of their object, and what each does with it; O30, O31 and O32. -/

namespace Sys2Proof.Machine

theorem exec_barinit (f : SyncF) (s : State) : exec (.barinit f) s = execBarinit f s := rfl
theorem exec_barlink (f : SyncF) (s : State) : exec (.barlink f) s = execBarlink f s := rfl
theorem exec_bararr (f : SyncF) (s : State) : exec (.bararr f) s = execBararr f s := rfl
theorem exec_bartry (f : SyncF) (s : State) : exec (.bartry f) s = execBartry f s := rfl
theorem exec_barwait (f : SyncF) (s : State) : exec (.barwait f) s = execBarwait f s := rfl
theorem exec_bartest (f : SyncF) (s : State) : exec (.bartest f) s = execBartest f s := rfl
theorem exec_bardrop (f : SyncF) (s : State) : exec (.bardrop f) s = execBardrop f s := rfl

@[simp] theorem State.resumed_barrier (s : State) (n : Nat) (c : CoreId) (o : Nat) : (s.resumed n).barrier c o = s.barrier c o := rfl

@[simp] theorem State.setBarrier_barrier (s : State) (c : CoreId) (o : Nat) (b : Barrier) : (s.setBarrier c o b).barrier c o = b := by
  simp [State.barrier, State.setBarrier]

/-! The checks of the object -/

section
variable {i : Instr} {s : State} {n k : Nat} {g : Group} {t : ThreadId} {x : Thread} {m : Team} {sh : Shape} {initial : Bool}
  {body : State → ThreadId → CoreId → Nat → Barrier → List DWord → Attempt}

theorem withBarrier_outside (hm : s.teamOf t = some m) (hk : m.nbar ≤ k) (vs : List DWord) :
    withBarrier k initial body s t vs = .trap 0x145 [] s := by
  simp only [withBarrier, hm, if_pos hk]

theorem withBarrier_broken (hm : s.teamOf t = some m) (hk : k < m.nbar) (hb : (s.barrier m.core (m.barBase + k)).broken = true)
    (vs : List DWord) : withBarrier k false body s t vs = .trap 0x14B [] s := by
  simp only [withBarrier, hm, if_neg (Nat.not_le.mpr hk), hb, Bool.not_false, Bool.and_self, if_true]

theorem withBarrier_runs (hm : s.teamOf t = some m) (hk : k < m.nbar)
    (hb : initial = true ∨ (s.barrier m.core (m.barBase + k)).broken = false) (vs : List DWord) :
    withBarrier k initial body s t vs = body s t m.core (m.barBase + k) (s.barrier m.core (m.barBase + k)) vs := by
  have hgo : ((s.barrier m.core (m.barBase + k)).broken && !initial) = false := by
    rcases hb with rfl | hb <;> simp [*]
  simp only [withBarrier, hm, if_neg (Nat.not_le.mpr hk), hgo, Bool.false_eq_true, if_false]

variable (h : Solo s n g t x m sh)
include h

/-- A number outside the allotment raises 0x145 (R286). -/
theorem barrier_traps_outside (hi : exec i s = runGroup s sh (withBarrier k initial body)) (hk : m.nbar ≤ k) :
    Traps i s n g t 0x145 [] (s.resumed n) :=
  (h.answers hi).traps (withBarrier_outside (s := s.resumed n) h.teamOf hk _)

/-- A broken link raises 0x14B, but in barinit (R296). -/
theorem barrier_traps_broken (hi : exec i s = runGroup s sh (withBarrier k false body)) (hk : k < m.nbar)
    (hb : (s.barrier m.core (m.barBase + k)).broken = true) : Traps i s n g t 0x14B [] (s.resumed n) :=
  (h.answers hi).traps (withBarrier_broken (s := s.resumed n) h.teamOf hk hb _)

/-- Past those checks the body of the instruction answers. -/
theorem barrier_answers (hi : exec i s = runGroup s sh (withBarrier k initial body)) (hk : k < m.nbar)
    (hb : initial = true ∨ (s.barrier m.core (m.barBase + k)).broken = false) :
    Answers i s n g t sh (body (s.resumed n) t m.core (m.barBase + k) (s.barrier m.core (m.barBase + k)) (s.valuesOf sh t)) := by
  have hrun := withBarrier_runs (s := s.resumed n) (body := body) h.teamOf hk hb (s.valuesOf sh t)
  exact hrun ▸ h.answers hi

end

/-! barinit -/

/-- The state in which barinit has cleared a broken link of its object (R296). -/
def State.mendBarrier (s : State) (c : CoreId) (o : Nat) : State :=
  if (s.barrier c o).broken then s.setBarrier c o (s.barrier c o).mended else s

theorem Barrier.mended_of_broken {b : Barrier} (hb : b.broken = true) : b.mended = { b with broken := false, parent := none, child := [] } :=
  if_pos hb

theorem Barrier.mended_idle (b : Barrier) : b.mended.idle = b.idle := by
  unfold Barrier.mended
  split <;> rfl

/-- What barinit makes of an idle object (R300). -/
def Barrier.initial (b : Barrier) (count : Nat) : Barrier :=
  { b with
    exp := count, cnt := 0, ph := false, waitp := false, wreg := 0, unobs := 0, drops := 0, dropped := []
    broken := false, parent := if b.broken then none else b.parent, child := if b.broken then [] else b.child }

theorem Barrier.mended_initial (b : Barrier) (count : Nat) :
    { b.mended with exp := count, cnt := 0, ph := false, waitp := false, wreg := 0, unobs := 0, drops := 0, dropped := [] }
      = b.initial count := by
  unfold Barrier.mended Barrier.initial
  cases hb : b.broken <;> simp [hb]

/-- The handle of its object written to the pair D of barinit, where that is a register (R300). -/
def State.handGiven (s : State) (t : ThreadId) (d : Byte) (h : Handle) : State :=
  if d.toNat < 0x40 then s.writeRegs t (writePair d h.bits).regs else s

/-- barinit on an object of the allotment: the count, then idleness, then the start values (R296, R300). -/
theorem barinit_spec {f : SyncF} {s : State} {n : Nat} {g : Group} {t : ThreadId} {x : Thread} {m : Team}
    (h : Solo s n g t x m { guard := f.g, srcs := [.one f.a f.bta], dsts := [.pair f.d] }) (hk : f.n.toNat < m.nbar) {o count : Nat}
    (ho : m.barBase + f.n.toNat = o)
    (hc : (arg (s.valuesOf { guard := f.g, srcs := [.one f.a f.bta], dsts := [.pair f.d] } t) 0).toNat = count) :
    (count = 0 ∨ 65535 < count → Traps (.barinit f) s n g t 0x147 [] ((s.resumed n).mendBarrier m.core o))
    ∧ (¬ (count = 0 ∨ 65535 < count) → (s.barrier m.core o).idle = false →
        Traps (.barinit f) s n g t 0x146 [] ((s.resumed n).mendBarrier m.core o))
    ∧ (¬ (count = 0 ∨ 65535 < count) → (s.barrier m.core o).idle = true →
        Commits (.barinit f) s n t { guard := f.g, srcs := [.one f.a f.bta], dsts := [.pair f.d] }
          ((((s.resumed n).mendBarrier m.core o).setBarrier m.core o ((s.barrier m.core o).initial count)).handGiven t f.d
            (s.handleOf m.core o))) := by
  subst ho hc
  have ha := barrier_answers h (exec_barinit f s) hk (.inl rfl)
  refine ⟨fun hcount => ha.traps ?_, fun hcount hidle => ha.traps ?_, fun hcount hidle => ha.commits ?_⟩
  · simp only [if_pos hcount]
    rfl
  · simp only [if_neg hcount, Barrier.mended_idle, hidle, Bool.not_false, if_true]
    rfl
  · simp only [if_neg hcount, Barrier.mended_idle, hidle, Bool.not_true, Bool.false_eq_true, if_false, Barrier.mended_initial]
    have hown : ∀ v : State, v.devnum = s.devnum → v.handleOf m.core (m.barBase + f.n.toNat) = s.handleOf m.core (m.barBase + f.n.toNat) := by
      intro v hv
      simp only [State.handleOf, State.deviceNumber, hv]
    unfold State.handGiven State.mendBarrier
    rw [hown _ (by simp only [State.setBarrier]; split <;> rfl)]
    rfl

theorem mendBarrier_eq (s : State) (c : CoreId) (o : Nat) : s.mendBarrier c o =
    if (s.barrier c o).broken then s.setBarrier c o { s.barrier c o with broken := false, parent := none, child := [] } else s := by
  unfold State.mendBarrier
  split
  · rw [Barrier.mended_of_broken ‹_›]
  · rfl

/-! barlink -/

/-- barlink on an object of the allotment whose link is not broken (R294). -/
theorem barlink_spec {f : SyncF} {s : State} {n : Nat} {g : Group} {t : ThreadId} {x : Thread} {m : Team}
    (h : Solo s n g t x m { guard := f.g, srcs := [.pair f.a f.bta] }) (hk : f.n.toNat < m.nbar) {o : Nat}
    (ho : m.barBase + f.n.toNat = o) (hb : (s.barrier m.core o).broken = false) {v : DWord}
    (hv : arg64 (s.valuesOf { guard := f.g, srcs := [.pair f.a f.bta] } t) 0 = v) :
    let b := s.barrier m.core o
    let own := s.handleOf m.core o
    let r := s.resumed n
    let sh : Shape := { guard := f.g, srcs := [.pair f.a f.bta] }
    (b.idle = false → Traps (.barlink f) s n g t 0x146 [] r)
    ∧ (b.idle = true →
      (v = 0xFFFFFFFFFFFFFFFF →
        (b.parent = none → Commits (.barlink f) s n t sh (r.setBarrier m.core o { b with parent := none }))
        ∧ ∀ p, b.parent = some p →
            Commits (.barlink f) s n t sh ((r.setBarrier m.core o { b with parent := none }).sendTo p (.unlink p own) (.unlink p own)))
      ∧ (v ≠ 0xFFFFFFFFFFFFFFFF →
        (handleOfBits v = none ∨ handleOfBits v = some own → Traps (.barlink f) s n g t 0x14A [] r)
        ∧ ∀ p, handleOfBits v = some p → p ≠ own →
            Engages (.barlink f) s n t sh
              ((r.setBarrier m.core o { b with linking := b.linking ++ [(p, t)] }).sendTo p (.link p own) (.link p own)))) := by
  subst ho hv
  intro b own r sh
  have ha := barrier_answers h (exec_barlink f s) hk (.inr hb)
  have hown : r.handleOf m.core (m.barBase + f.n.toNat) = own := rfl
  refine ⟨fun hidle => ha.traps ?_, fun hidle => ⟨fun hv => ⟨fun hp => ha.commits ?_, fun p hp => ha.commits ?_⟩,
    fun hv => ⟨fun hp => ha.traps ?_, fun p hp hne => ha.engages ?_⟩⟩⟩
  · simp only [b, hidle, Bool.not_false, if_true]
    rfl
  · simp only [b, hidle, hv, hp, Bool.not_true, Bool.false_eq_true, if_false, if_true, r]
  · simp only [b, hidle, hv, hp, Bool.not_true, Bool.false_eq_true, if_false, if_true]
    rfl
  · rcases hp with hp | hp
    · simp only [b, hidle, hv, hp, r, Bool.not_true, Bool.false_eq_true, if_false]
    · simp only [b, hidle, hv, hp, hown, r, Bool.not_true, Bool.false_eq_true, if_false, if_true]
  · simp only [b, hidle, hv, hp, hown, hne, r, Bool.not_true, Bool.false_eq_true, if_false]

/-- Settles O30: `barinit_spec` and `barlink_spec`, after the checks of the object. -/
theorem barriersAreInitialisedAndLinked : Obligations.BarriersAreInitialisedAndLinked := by
  unfold Obligations.BarriersAreInitialisedAndLinked
  intro f s n g t x m o r b own init link
  refine ⟨fun h => ⟨fun hk => barrier_traps_outside h (exec_barinit f s) hk, fun hk => ?_⟩,
    fun h => ⟨fun hk => barrier_traps_outside h (exec_barlink f s) hk, fun hk hb => barrier_traps_broken h (exec_barlink f s) hk hb,
      fun hk hb hidle => (barlink_spec h hk rfl hb rfl).1 hidle, fun hk hb hidle => ?_⟩⟩
  · intro count q
    obtain ⟨hcount, hbusy, hgo⟩ := barinit_spec h hk rfl rfl
    rw [mendBarrier_eq] at hcount hbusy hgo
    have hin : 1 ≤ count → count ≤ 65535 → ¬ (count = 0 ∨ 65535 < count) :=
      fun h1 h2 => not_or.mpr ⟨Nat.ne_of_gt h1, Nat.not_lt.mpr h2⟩
    exact ⟨hcount, fun h1 h2 => hbusy (hin h1 h2), fun h1 h2 => hgo (hin h1 h2)⟩
  · obtain ⟨hunlink, hlink⟩ := (barlink_spec h hk rfl hb rfl).2 hidle
    exact ⟨fun hv => (hunlink hv).1, fun hv => (hunlink hv).2, fun hv => (hlink hv).1, fun hv => (hlink hv).2⟩

/-! barwait and bartest -/

/-- Settles O32: the registration of the thread decides, after the checks of the object. -/
theorem waitsAndTestsFollowTheFlip : Obligations.WaitsAndTestsFollowTheFlip := by
  unfold Obligations.WaitsAndTestsFollowTheFlip
  intro f s n g t x m k o r sh put h
  refine ⟨fun hk => ⟨barrier_traps_outside h (exec_barwait f s) hk, barrier_traps_outside h (exec_bartest f s) hk⟩,
    fun hk hb => ⟨barrier_traps_broken h (exec_barwait f s) hk hb, barrier_traps_broken h (exec_bartest f s) hk hb⟩, fun hk hb => ?_⟩
  have hwait := barrier_answers h (exec_barwait f s) hk (.inr hb)
  have htest := barrier_answers h (exec_bartest f s) hk (.inr hb)
  simp only [State.resumed_thread, h.thread, Option.bind_some] at hwait htest
  refine ⟨fun hreg => ?_, fun hreg => ?_, fun hreg => ?_⟩ <;> rw [show x.regOf f.n.toNat = _ from hreg] at hwait htest
  · exact ⟨hwait.commits rfl, htest.commits rfl⟩
  · exact ⟨hwait.stays rfl, htest.commits rfl⟩
  · exact ⟨hwait.traps rfl, htest.traps rfl⟩

/-! bararr, bartry and bardrop -/

/-- The state once a flip that the thread has not seen is observed (R301). -/
def State.seen (s : State) (t : ThreadId) (x : Thread) (k : Nat) : State :=
  if x.regOf k = some Registration.flipped then s.observe t k else s

/-- The state in which bardrop arrives: the flip observed, or the registration of an armed thread withdrawn (R303). -/
def State.outOf (s : State) (t : ThreadId) (x : Thread) (k : Nat) : State :=
  if x.regOf k = some Registration.armed then s.withdraw t k else s.seen t x k

/-- Step 3 to 5 of R301: the arrival is refused, passes EXP, or is accepted. -/
theorem arrive_spec (s : State) (t : ThreadId) (c : CoreId) (o k n : Nat) (arm drop : Bool) (dest pop : Option Nat) :
    ((s.barrier c o).refused = true → Machine.arrive t c o k n arm drop dest pop s =
        .park (s.setBarrier c o { s.barrier c o with queue := (s.barrier c o).queue ++ [.thread t n arm drop dest pop] }))
    ∧ ((s.barrier c o).refused = false → (s.barrier c o).exp < (s.barrier c o).cnt + n →
        Machine.arrive t c o k n arm drop dest pop s = .trap 0x147 [] s)
    ∧ ((s.barrier c o).refused = false → (s.barrier c o).cnt + n ≤ (s.barrier c o).exp →
        Machine.arrive t c o k n arm drop dest pop s = .done (s.acceptThread c o k t n arm drop dest)) := by
  unfold Machine.arrive
  refine ⟨fun hr => if_pos hr, fun hr hlt => ?_, fun hr hle => ?_⟩
  · simp only [hr, Bool.false_eq_true, if_false, if_pos hlt]
  · simp only [hr, Bool.false_eq_true, if_false, if_neg (Nat.not_lt.mpr hle)]

section
variable {f : SyncF} {s : State} {n : Nat} {g : Group} {t : ThreadId} {x : Thread} {m : Team} {o c : Nat}
  (hk : f.n.toNat < m.nbar) (ho : m.barBase + f.n.toNat = o) (hb : (s.barrier m.core o).broken = false)
include hk ho hb

/-- What bararr and bartry read and write before their own meaning. -/
abbrev bararrShape (f : SyncF) : Shape := { guard := f.g, srcs := [.one f.a f.bta], dsts := [.one f.d] }
abbrev bartryShape (f : SyncF) : Shape := { guard := f.g, srcs := [.one f.a f.bta] }

/-- What bararr answers on an object that it may use: its count, its arming, and then steps 3 to 5 (R301). -/
theorem bararr_answers (h : Solo s n g t x m (bararrShape f)) (hc : (arg (s.valuesOf (bararrShape f) t) 0).toNat = c) :
    Answers (.bararr f) s n g t (bararrShape f)
      (if (s.barrier m.core o).exp = 0 ∨ c = 0 then .trap 0x147 [] (s.resumed n)
      else if f.var = 0 ∧ x.regOf f.n.toNat = some Registration.armed then .trap 0x149 [] (s.resumed n)
      else Machine.arrive t m.core o f.n.toNat c (f.var = 0) false (x.destWord f.d) (queueOf f.a) ((s.resumed n).seen t x f.n.toNat)) := by
  subst ho hc
  have ha := barrier_answers h (exec_bararr f s) hk (.inr hb)
  simp only [State.resumed_thread, h.thread] at ha
  exact ha

theorem bartry_answers (h : Solo s n g t x m (bartryShape f)) (hc : (arg (s.valuesOf (bartryShape f) t) 0).toNat = c) :
    let seen := (s.resumed n).seen t x f.n.toNat
    let b := seen.barrier m.core o
    let put (v : Bool) (w : State) : State := w.alterThread t fun x => x.setPred (f.d.toNat % 8) v
    Answers (.bartry f) s n g t (bartryShape f)
      (if (s.barrier m.core o).exp = 0 ∨ c = 0 then .trap 0x147 [] (s.resumed n)
      else if f.var = 0 ∧ x.regOf f.n.toNat = some Registration.armed then .trap 0x149 [] (s.resumed n)
      else if b.refused then .done (put false seen)
      else if b.exp < b.cnt + c then .trap 0x147 [] seen
      else .done (put true (seen.acceptThread m.core o f.n.toNat t c (f.var = 0) false none))) := by
  subst ho hc
  have ha := barrier_answers h (exec_bartry f s) hk (.inr hb)
  simp only [State.resumed_thread, h.thread] at ha
  exact ha

theorem bardrop_answers (h : Solo s n g t x m { guard := f.g }) :
    Answers (.bardrop f) s n g t { guard := f.g }
      (if x.regOf f.n.toNat = some Registration.armed ∧ (s.barrier m.core o).refused = false
          ∧ (s.barrier m.core o).exp < (s.barrier m.core o).cnt + 1 then .trap 0x147 [] (s.resumed n)
      else Machine.arrive t m.core o f.n.toNat 1 false true none none ((s.resumed n).outOf t x f.n.toNat)) := by
  subst ho
  have ha := barrier_answers h (exec_bardrop f s) hk (.inr hb)
  simp only [State.resumed_thread, h.thread] at ha
  simp only [State.outOf, State.seen]
  rcases hr : x.regOf f.n.toNat with _ | _ | _ <;> simpa [hr] using ha

end

/-- The withdrawal of an armed registration changes WREG of the object, which no arrival depends on (R290, R303). -/
theorem withdraw_armed_barrier {s : State} {t : ThreadId} {x : Thread} {m : Team} {k : Nat} (hx : s.thread t = some x)
    (hm : s.teamOf t = some m) (hr : x.regOf k = some Registration.armed) :
    (s.withdraw t k).barrier m.core (m.barBase + k)
      = { s.barrier m.core (m.barBase + k) with wreg := (s.barrier m.core (m.barBase + k)).wreg - 1 } := by
  simp only [State.withdraw, hx, hm, hr, State.setBarrier_barrier]

/-- The state in which bardrop's 0x147 is raised: the observation of a flip stands, a withdrawal does not (R301, R310). -/
def State.keptOut (s : State) (t : ThreadId) (x : Thread) (k : Nat) : State :=
  if x.regOf k = some Registration.armed then s else s.seen t x k

/-- What bardrop answers, by the state in which it arrives (R303). -/
theorem bardrop_spec {f : SyncF} {s : State} {n : Nat} {g : Group} {t : ThreadId} {x : Thread} {m : Team} {o : Nat} {out : State}
    (hk : f.n.toNat < m.nbar) (ho : m.barBase + f.n.toNat = o) (hb : (s.barrier m.core o).broken = false)
    (h : Solo s n g t x m { guard := f.g }) (hout : (s.resumed n).outOf t x f.n.toNat = out) :
    ((out.barrier m.core o).refused = false → (out.barrier m.core o).exp < (out.barrier m.core o).cnt + 1 →
      Traps (.bardrop f) s n g t 0x147 [] ((s.resumed n).keptOut t x f.n.toNat))
    ∧ ((out.barrier m.core o).refused = true ∨ (out.barrier m.core o).cnt + 1 ≤ (out.barrier m.core o).exp →
      Answers (.bardrop f) s n g t { guard := f.g } (Machine.arrive t m.core o f.n.toNat 1 false true none none out)) := by
  have ha := bardrop_answers hk ho hb h
  rw [hout] at ha
  by_cases hr : x.regOf f.n.toNat = some Registration.armed
  · have hobj := withdraw_armed_barrier (s := s.resumed n) h.thread h.teamOf hr
    rw [← show out = (s.resumed n).withdraw t f.n.toNat from hout.symm.trans (if_pos hr), ho] at hobj
    rw [hobj]
    refine ⟨fun hfree hover => ?_, fun hgo => ?_⟩
    · rw [State.keptOut, if_pos hr]
      exact ha.traps (if_pos ⟨hr, hfree, hover⟩)
    · rwa [if_neg] at ha
      rintro ⟨-, hfree, hover⟩
      rcases hgo with hgo | hgo
      · exact absurd (hfree.symm.trans hgo) (by simp)
      · exact absurd hover (Nat.not_lt.mpr hgo)
  · rw [if_neg fun hc => hr hc.1] at ha
    refine ⟨fun hfree hover => ?_, fun _ => ha⟩
    have hseen : (s.resumed n).keptOut t x f.n.toNat = out :=
      (if_neg hr).trans ((if_neg hr).symm.trans hout)
    rw [hseen]
    exact ha.traps ((arrive_spec ..).2.1 hfree hover)

/-- The steps of R301 from the object's count on, for bararr and bartry alike: 0x147, 0x149, and then what follows. -/
theorem arrival_checks {i : Instr} {s r : State} {n : Nat} {g : Group} {t : ThreadId} {sh : Shape} {none_ armed : Prop} [Decidable none_]
    [Decidable armed] {a : Attempt}
    (ha : Answers i s n g t sh (if none_ then .trap 0x147 [] r else if armed then .trap 0x149 [] r else a)) :
    (none_ → Traps i s n g t 0x147 [] r) ∧ (¬ none_ → armed → Traps i s n g t 0x149 [] r)
      ∧ (¬ none_ → ¬ armed → Answers i s n g t sh a) := by
  refine ⟨fun h => ha.traps (if_pos h), fun h h' => ha.traps ((if_neg h).trans (if_pos h')), fun h h' => ?_⟩
  rwa [if_neg h, if_neg h'] at ha

/-! The arrival counted -/

@[simp] theorem State.emit_cores (s : State) (o : Out) : (s.emit o).cores = s.cores := by
  unfold State.emit
  split <;> rfl

@[simp] theorem State.sendTo_cores (s : State) (h : Handle) (m : Msg) (o : Out) : (s.sendTo h m o).cores = s.cores := by
  unfold State.sendTo
  split
  · rfl
  · exact s.emit_cores o

theorem State.barrier_congr {s u : State} (h : u.cores = s.cores) (c : CoreId) (o : Nat) : u.barrier c o = s.barrier c o := by
  unfold State.barrier State.core
  rw [h]

theorem foldl_sendTo_cores (msg : State → Handle → Msg) (out : State → Handle → Out) (hs : List Handle) (s : State) :
    (hs.foldl (fun (s : State) h => s.sendTo h (msg s h) (out s h)) s).cores = s.cores := by
  induction hs generalizing s with
  | nil => rfl
  | cons h hs ih => exact (ih _).trans (s.sendTo_cores ..)

/-- What a flip makes of its object (R290, R293). -/
def Barrier.flipped (b : Barrier) : Barrier :=
  { b with
    ph := !b.ph, cnt := 0, waitp := false, unobs := b.wreg, wreg := 0, exp := b.exp - b.drops, drops := 0
    child := b.child.filter fun h => !b.dropped.contains h, dropped := [] }

theorem flip_barrier (s : State) (c : CoreId) (o : Nat) : (s.flip c o).barrier c o = (s.barrier c o).flipped := by
  unfold State.flip
  dsimp only
  rw [State.barrier_congr (foldl_sendTo_cores (fun s h => .flip h (s.handleOf c o) _) (fun s h => .flip h (s.handleOf c o) _) _ _),
    State.setBarrier_barrier]
  rfl

theorem completePhase_root {s : State} {c : CoreId} {o : Nat} (hp : (s.barrier c o).parent = none) : s.completePhase c o = s.flip c o := by
  simp only [State.completePhase, hp]

/-- A message to an object of this device is on its way; one to another device's leaves by the ports where it can be sent (R295). -/
theorem sendTo_reaches (s : State) (h : Handle) (m : Msg) (o : Out) :
    (h.dev = s.deviceNumber → Table.find (s.sendTo h m o).msgs s.newId = some m)
    ∧ (h.dev ≠ s.deviceNumber → s.sends o = true → (s.sendTo h m o).outbox = s.outbox ++ [o]) := by
  refine ⟨fun hd => ?_, fun hd ho => ?_⟩
  · simp [State.sendTo, if_pos hd, State.send]
  · simp [State.sendTo, if_neg hd, State.emit, ho]

/-- The end of a phase at a linked object: WAITP, and one arrival on its way to the parent (R290, R293). -/
theorem completePhase_linked {s : State} {c : CoreId} {o : Nat} {b : Barrier} {p : Handle} (hb : s.barrier c o = b) (hp : b.parent = some p) :
    let drop := decide (b.exp - b.drops = 0)
    let u := s.completePhase c o
    u.barrier c o = { b with waitp := true }
    ∧ (p.dev = s.deviceNumber → Table.find u.msgs s.newId = some (.arrival p (s.handleOf c o) drop))
    ∧ (p.dev ≠ s.deviceNumber → s.sends (.arrival p (s.handleOf c o) drop) = true →
        u.outbox = s.outbox ++ [.arrival p (s.handleOf c o) drop]) := by
  subst hb
  intro drop u
  have hu : u = (s.setBarrier c o { s.barrier c o with waitp := true }).sendTo p (.arrival p (s.handleOf c o) drop)
      (.arrival p (s.handleOf c o) drop) := by
    simp only [u, drop, State.completePhase, hp]
  rw [hu]
  obtain ⟨hnear, hfar⟩ := sendTo_reaches (s.setBarrier c o { s.barrier c o with waitp := true }) p
    (.arrival p (s.handleOf c o) drop) (.arrival p (s.handleOf c o) drop)
  refine ⟨?_, hnear, hfar⟩
  rw [State.barrier_congr (State.sendTo_cores ..), State.setBarrier_barrier]

/-- An arrival counted: below EXP the count alone; at EXP a root flips, and a linked object tells its parent (R290, R293). -/
theorem countArrival_spec (s : State) (c : CoreId) (o k : Nat) :
    let b := s.barrier c o
    let u := s.countArrival c o k
    (b.cnt + k ≠ b.exp → u.barrier c o = { b with cnt := b.cnt + k })
    ∧ (b.cnt + k = b.exp → b.parent = none → u.barrier c o = b.flipped)
    ∧ (b.cnt + k = b.exp → ∀ p, b.parent = some p →
      let a := Msg.arrival p (s.handleOf c o) (decide (b.exp - b.drops = 0))
      let a' := Out.arrival p (s.handleOf c o) (decide (b.exp - b.drops = 0))
      u.barrier c o = { b with cnt := b.cnt + k, waitp := true }
      ∧ (p.dev = s.deviceNumber → Table.find u.msgs s.newId = some a)
      ∧ (p.dev ≠ s.deviceNumber → s.sends a' = true → u.outbox = s.outbox ++ [a'])) := by
  intro b u
  have hcount : u = if b.cnt + k = b.exp then (s.setBarrier c o { b with cnt := b.cnt + k }).completePhase c o
      else s.setBarrier c o { b with cnt := b.cnt + k } := rfl
  refine ⟨fun hne => ?_, fun he hp => ?_, fun he p hp => ?_⟩
  · rw [hcount, if_neg hne, State.setBarrier_barrier]
  · rw [hcount, if_pos he, completePhase_root (by rw [State.setBarrier_barrier]; exact hp), flip_barrier, State.setBarrier_barrier]
    rfl
  · rw [hcount, if_pos he]
    exact completePhase_linked (State.setBarrier_barrier ..) hp

/-- Settles O31: `bararr_answers`, `bartry_answers` and `bardrop_answers` after the checks of the object, and `countArrival_spec` for the arrival counted. -/
theorem arrivalsAreAcceptedInOrder : Obligations.ArrivalsAreAcceptedInOrder := by
  unfold Obligations.ArrivalsAreAcceptedInOrder
  refine ⟨?_, countArrival_spec⟩
  intro f s n g t x m k o r seen stops
  refine ⟨?_, ?_, ?_, fun hk hb => ⟨?_, ?_, ?_⟩⟩
  · exact fun h => ⟨barrier_traps_outside h (exec_bararr f s), barrier_traps_broken h (exec_bararr f s)⟩
  · exact fun h => ⟨barrier_traps_outside h (exec_bartry f s), barrier_traps_broken h (exec_bartry f s)⟩
  · exact fun h => ⟨barrier_traps_outside h (exec_bardrop f s), barrier_traps_broken h (exec_bardrop f s)⟩
  · intro sh h c b
    obtain ⟨h147, h149, hgo⟩ := arrival_checks (bararr_answers hk rfl hb h rfl)
    obtain ⟨hrefused, hover, haccept⟩ := arrive_spec seen t m.core o k c (f.var = 0) false (x.destWord f.d) (queueOf f.a)
    refine ⟨h147, fun he hc hv hr => h149 (not_or.mpr ⟨he, hc⟩) ⟨hv, hr⟩, fun he hc hr => ?_⟩
    have ha := hgo (not_or.mpr ⟨he, hc⟩) (fun hvr => hr hvr.1 hvr.2)
    exact ⟨fun hb => ha.stays (hrefused hb), fun hb hlt => ha.traps (hover hb hlt), fun hb hle => ha.commits (haccept hb hle)⟩
  · intro sh h c b put
    obtain ⟨h147, h149, hgo⟩ := arrival_checks (bartry_answers hk rfl hb h rfl)
    refine ⟨h147, fun he hc hv hr => h149 (not_or.mpr ⟨he, hc⟩) ⟨hv, hr⟩, fun he hc hr => ?_⟩
    have ha := hgo (not_or.mpr ⟨he, hc⟩) (fun hvr => hr hvr.1 hvr.2)
    have hno : b.refused = false → ¬ b.refused = true := fun hb => by simp [hb]
    exact ⟨fun hb => ha.commits (if_pos hb), fun hb hlt => ha.traps ((if_neg (hno hb)).trans (if_pos hlt)),
      fun hb hle => ha.commits ((if_neg (hno hb)).trans (if_neg (Nat.not_lt.mpr hle)))⟩
  · intro sh h out b
    obtain ⟨hover, hgo⟩ := bardrop_spec hk rfl hb h rfl
    obtain ⟨hrefused, -, haccept⟩ := arrive_spec out t m.core o k 1 false true none none
    exact ⟨fun hb => (hgo (.inl hb)).stays (hrefused hb), hover, fun hb hle => (hgo (.inr hle)).commits (haccept hb hle)⟩

end Sys2Proof.Machine
end

section
/-! SUPPORT. Channel instructions (R305 to R309, R314) in a group of one thread, and O34 from them. -/

namespace Sys2Proof.Machine

theorem exec_chsend (f : SyncF) (s : State) : exec (.chsend f) s = execChsend f s := rfl
theorem exec_chrecv (f : SyncF) (s : State) : exec (.chrecv f) s = execChrecv f s := rfl

theorem exec_chtry_send {f : SyncF} (hv : f.var = 0) (s : State) : exec (.chtry f) s =
    runGroup s { guard := f.g } (withChannel f.n.toNat true fun s t m h =>
      if h.dstGone then .trap 0x14E [] s
      else match (s.receiverCore m h).filter fun _ => !s.lineClear t m h with
        | some c => .wait (.sync m.core c s.fresh) s
        | none =>
          if s.sendReady t m (queueNumber f.a) h then
            .done ((s.sendSlot t m f.n.toNat (queueNumber f.a) h).alterThread t fun x => x.setPred (f.d.toNat % 8) true)
          else .done (s.alterThread t fun x => x.setPred (f.d.toNat % 8) false)) := if_pos hv

theorem exec_chtry_recv {f : SyncF} (hv : f.var ≠ 0) (s : State) : exec (.chtry f) s =
    runGroup s { guard := f.g } (withChannel f.n.toNat false fun s t m h =>
      if h.closedForRecv then .trap 0x14E [] s
      else match s.recvReady t (queueNumber f.a) h with
        | some slot =>
          .done ((s.receiveSlot t m f.n.toNat (queueNumber f.a) slot h).alterThread t fun x => x.setPred (f.d.toNat % 8) true)
        | none => .done (s.alterThread t fun x => x.setPred (f.d.toNat % 8) false)) := if_neg hv

/-! The checks of a channel -/

section
variable {i : Instr} {s : State} {n k : Nat} {g : Group} {t : ThreadId} {x : Thread} {m : Team} {sh : Shape} {send : Bool} {h : Channel}
  {body : State → ThreadId → Team → Channel → Attempt} (hs : Solo s n g t x m sh)
  (hi : exec i s = runGroup s sh (withChannel k send body))
include hs hi

/-- A channel that is not declared raises 0x14C (R307). -/
theorem channel_traps_undeclared (hf : Table.find s.channels (m.channelKey k) = none) : Traps i s n g t 0x14C [] (s.resumed n) := by
  have hf' : Table.find (s.resumed n).channels (m.channelKey k) = none := hf
  refine (hs.answers hi).traps ?_
  simp only [withChannel, State.resumed_teamOf, hs.teamOf, hf']

variable (hf : Table.find s.channels (m.channelKey k) = some h)
include hf

/-- The wrong end of a channel raises 0x14D (R307). -/
theorem channel_traps_elsewhere (hend : (if send then h.src else h.dst) ≠ m.pos) : Traps i s n g t 0x14D [] (s.resumed n) := by
  have hf' : Table.find (s.resumed n).channels (m.channelKey k) = some h := hf
  refine (hs.answers hi).traps ?_
  simp only [withChannel, State.resumed_teamOf, hs.teamOf, hf', if_neg hend]

/-- At its own end of a declared channel the body of the instruction answers. -/
theorem channel_answers (hend : (if send then h.src else h.dst) = m.pos) : Answers i s n g t sh (body (s.resumed n) t m h) := by
  have hf' : Table.find (s.resumed n).channels (m.channelKey k) = some h := hf
  have ha := hs.answers hi
  simpa only [withChannel, State.resumed_teamOf, hs.teamOf, hf', if_pos hend] using ha

end

/-! The rendezvous of a send -/

/-- Every sync message that a core had sent another below number `k` has arrived, or waits at its target (R314). -/
def State.Arrived (s : State) (a b : CoreId) (k : Nat) : Prop :=
  ∀ e ∈ s.msgs, e.1 < k → s.pathOf e.2 = some (.sync, .core a, .core b) → s.waitsAtTarget e.2 = true

theorem pathClear_iff (s : State) (a b : CoreId) (k : Nat) : s.pathClear a b k = true ↔ s.Arrived a b k := by
  simp only [State.pathClear, State.Arrived, List.all_eq_true, Bool.or_eq_true, decide_eq_true_eq]
  refine forall₂_congr fun e _ => ?_
  constructor
  · rintro ((h | h) | h) hk hp
    · omega
    · exact absurd hp h
    · exact h
  · intro h
    by_cases hk : e.1 < k
    · by_cases hp : s.pathOf e.2 = some (.sync, .core a, .core b)
      · exact .inr (h hk hp)
      · exact .inl (.inr hp)
    · exact .inl (.inl (Nat.not_lt.mp hk))

/-- What the two cores of a send had sent each other has arrived, each as far as its message of the rendezvous follows it (R314). -/
def State.SendLine (s : State) (t : ThreadId) (m : Team) (h : Channel) (c : CoreId) : Prop :=
  s.Arrived m.core c (Table.findD h.senders t s.fresh) ∧ s.Arrived c m.core s.fresh

theorem lineClear_iff {s : State} {t : ThreadId} {m : Team} {h : Channel} {e : Nat × Team}
    (he : s.clusterTeam m.lid m.cluster h.dst = some e) : s.lineClear t m h = true ↔ s.SendLine t m h e.2.core := by
  simp only [State.lineClear, State.receiverCore, he, Option.map_some, State.pathsClear, Bool.and_eq_true, pathClear_iff, State.SendLine]

/-- A send can take effect: its words are there, a slot is free, it is its turn, the receiver accepts, and the line between the cores is clear (R305 to R308, R314). -/
def State.CanSend (s : State) (t : ThreadId) (x : Thread) (m : Team) (q : Nat) (h : Channel) : Prop :=
  h.sw ≤ (x.queue q).length ∧ 0 < h.free ∧ firstOf (Table.keys h.senders) t = true
    ∧ ∃ e, s.clusterTeam m.lid m.cluster h.dst = some e ∧ (s.array e.2.core (fieldArrayOf h.ring)).compute = false
      ∧ (∀ r ∈ (s.array e.2.core (fieldArrayOf h.ring)).requests, r.compute = false) ∧ s.SendLine t m h e.2.core

theorem sendReady_iff {s : State} {t : ThreadId} {x : Thread} (hx : s.thread t = some x) (m : Team) (q : Nat) (h : Channel) :
    s.sendReady t m q h = true ↔ s.CanSend t x m q h := by
  unfold State.sendReady State.CanSend State.acceptsSend
  rcases he : s.clusterTeam m.lid m.cluster h.dst with _ | e
  · simp
  · have hline := lineClear_iff (t := t) he
    simp only [hx, Option.map_some, Option.getD_some, Bool.and_eq_true, decide_eq_true_eq, List.all_eq_true, Bool.not_eq_true', hline,
      Option.some.injEq, exists_eq_left']
    tauto

/-- A receive can take the oldest slot: it is full, the queue has room, and it is the thread's turn (R305, R307). -/
def Channel.CanReceive (h : Channel) (t : ThreadId) (x : Thread) (q slot : Nat) : Prop :=
  (∃ ws rest, h.slots = (slot, ws, true) :: rest) ∧ (x.queue q).length + h.sw ≤ 16 ∧ firstOf h.receivers t = true

theorem recvReady_iff {s : State} {t : ThreadId} {x : Thread} (hx : s.thread t = some x) (q : Nat) (h : Channel) (slot : Nat) :
    s.recvReady t q h = some slot ↔ h.CanReceive t x q slot := by
  unfold State.recvReady Channel.CanReceive
  simp only [hx, Option.map_some, Option.getD_some]
  rcases hs : h.slots with _ | ⟨⟨k, ws, _ | _⟩, rest⟩
  · simp
  · simp
  · simp only [Option.ite_none_right_eq_some, Option.some.injEq, List.cons.injEq, Prod.mk.injEq, and_true]
    constructor
    · rintro ⟨⟨hq, hfirst⟩, rfl⟩
      exact ⟨⟨ws, rest, ⟨rfl, rfl⟩, rfl⟩, hq, hfirst⟩
    · rintro ⟨⟨_, _, ⟨rfl, _⟩, _⟩, hq, hfirst⟩
      exact ⟨⟨hq, hfirst⟩, rfl⟩

theorem recvReady_none_iff {s : State} {t : ThreadId} {x : Thread} (hx : s.thread t = some x) (q : Nat) (h : Channel) :
    s.recvReady t q h = none ↔ ∀ slot, ¬ h.CanReceive t x q slot := by
  rw [Option.eq_none_iff_forall_ne_some]
  exact forall_congr' fun slot => not_congr (recvReady_iff hx q h slot)

/-! The lines of those who wait -/

/-- A group of one thread alone waits. -/
theorem Solo.restOf {s : State} {n : Nat} {g : Group} {t : ThreadId} {x : Thread} {m : Team} {sh : Shape} (h : Solo s n g t x m sh) :
    (s.resumed n).restOf t sh.guard = [t] := by
  have hactive : (s.resumed n).activeOf { g with hold := none } sh.guard = [t.t] := h.activeOf
  have hid : (⟨g.team, t.t⟩ : ThreadId) = t := by rw [h.ofTeam]
  simp only [State.restOf, h.groupOf, hactive, List.map_cons, List.map_nil, hid]

theorem joinSenders_one (l : Table ThreadId Nat) (t : ThreadId) (k : Nat) :
    joinSenders l [t] k = if (Table.find l t).isSome then l else l ++ [(t, k)] := by
  unfold joinSenders
  cases hf : Table.find l t <;> simp [hf]

/-! chsend, chrecv and chtry -/

section
variable {f : SyncF} {s : State} {n : Nat} {g : Group} {t : ThreadId} {x : Thread} {m : Team} {h : Channel}
  (hs : Solo s n g t x m { guard := f.g }) (hf : Table.find s.channels (m.channelKey f.n.toNat) = some h)
include hs hf

section
variable (hend : h.src = m.pos)
include hend

theorem chsend_traps_gone (hgone : h.dstGone = true) : Traps (.chsend f) s n g t 0x14E [] (s.resumed n) :=
  (channel_answers hs (exec_chsend f s) hf hend).traps (if_pos hgone)

theorem chtrySend_traps_gone (hv : f.var = 0) (hgone : h.dstGone = true) : Traps (.chtry f) s n g t 0x14E [] (s.resumed n) :=
  (channel_answers hs (exec_chtry_send hv s) hf hend).traps (if_pos hgone)

variable (hlive : h.dstGone = false)
include hlive

/-- chsend sends where it can, and otherwise joins the line of senders and waits (R307). -/
theorem chsend_spec :
    (s.CanSend t x m (queueNumber f.a) h →
      Commits (.chsend f) s n t { guard := f.g } ((s.resumed n).sendSlot t m f.n.toNat (queueNumber f.a) h))
    ∧ (¬ s.CanSend t x m (queueNumber f.a) h → Waits (.chsend f) s n (.channel t f.n.toNat (queueNumber f.a) true)
        ((s.resumed n).alterChannel (m.channelKey f.n.toNat) fun h =>
          { h with senders := if (Table.find h.senders t).isSome then h.senders else h.senders ++ [(t, s.fresh)] })) := by
  have ha := channel_answers hs (exec_chsend f s) hf hend
  have hready := sendReady_iff (s := s.resumed n) hs.thread m (queueNumber f.a) h
  have hrest : (s.resumed n).restOf t f.g = [t] := hs.restOf
  simp only [hlive, Bool.false_eq_true, if_false, hrest, joinSenders_one] at ha
  exact ⟨fun hgo => ha.commits (if_pos (hready.mpr hgo)), fun hno => ha.waits (if_neg fun hgo => hno (hready.mp hgo)) (.inl rfl)⟩

/-- chtry of a send: it waits for the messages before it, and then sends or writes false (R307, R314). -/
theorem chtrySend_spec (hv : f.var = 0) :
    (s.CanSend t x m (queueNumber f.a) h → Commits (.chtry f) s n t { guard := f.g }
      (((s.resumed n).sendSlot t m f.n.toNat (queueNumber f.a) h).alterThread t fun x => x.setPred (f.d.toNat % 8) true))
    ∧ (¬ s.CanSend t x m (queueNumber f.a) h →
        (∀ e, s.clusterTeam m.lid m.cluster h.dst = some e → s.SendLine t m h e.2.core) →
        Commits (.chtry f) s n t { guard := f.g } ((s.resumed n).alterThread t fun x => x.setPred (f.d.toNat % 8) false))
    ∧ ∀ e, s.clusterTeam m.lid m.cluster h.dst = some e → ¬ s.SendLine t m h e.2.core →
        Waits (.chtry f) s n (.sync m.core e.2.core s.fresh) (s.resumed n) := by
  have ha := channel_answers hs (exec_chtry_send hv s) hf hend
  have hready := sendReady_iff (s := s.resumed n) hs.thread m (queueNumber f.a) h
  simp only [hlive, Bool.false_eq_true, if_false] at ha
  have hclear : (∀ e, s.clusterTeam m.lid m.cluster h.dst = some e → s.SendLine t m h e.2.core) →
      (((s.resumed n).receiverCore m h).filter fun _ => !(s.resumed n).lineClear t m h) = none := by
    intro hline
    rcases he : s.clusterTeam m.lid m.cluster h.dst with _ | e
    · have hnone : (s.resumed n).receiverCore m h = none := congrArg (Option.map fun e : Nat × Team => e.2.core) he
      rw [hnone]
      rfl
    · have hok : (s.resumed n).lineClear t m h = true := (lineClear_iff (s := s.resumed n) he).mpr (hline e he)
      simp [hok]
  refine ⟨fun hgo => ?_, fun hno hline => ?_, fun e he hline => ?_⟩
  · obtain ⟨-, -, -, e, he, -, -, hl⟩ := id hgo
    rw [hclear fun e' he' => by obtain rfl := Option.some.inj (he.symm.trans he'); exact hl] at ha
    exact ha.commits (if_pos (hready.mpr hgo))
  · rw [hclear hline] at ha
    exact ha.commits (if_neg fun hgo => hno (hready.mp hgo))
  · have hno : (s.resumed n).lineClear t m h = false := by
      rw [Bool.eq_false_iff]
      exact fun hok => hline ((lineClear_iff (s := s.resumed n) he).mp hok)
    have hcore : (s.resumed n).receiverCore m h = some e.2.core := congrArg (Option.map fun e : Nat × Team => e.2.core) he
    simp only [hno, hcore, Bool.not_false, Option.filter_some, if_true] at ha
    exact ha.waits rfl (.inl rfl)

end

section
variable (hend : h.dst = m.pos)
include hend

theorem chrecv_traps_gone (hgone : h.closedForRecv = true) : Traps (.chrecv f) s n g t 0x14E [] (s.resumed n) :=
  (channel_answers hs (exec_chrecv f s) hf hend).traps (if_pos hgone)

theorem chtryRecv_traps_gone (hv : f.var ≠ 0) (hgone : h.closedForRecv = true) : Traps (.chtry f) s n g t 0x14E [] (s.resumed n) :=
  (channel_answers hs (exec_chtry_recv hv s) hf hend).traps (if_pos hgone)

variable (hopen : h.closedForRecv = false)
include hopen

/-- chrecv takes the oldest slot where it can, and otherwise joins the line of receivers and waits (R307). -/
theorem chrecv_spec :
    (∀ slot, h.CanReceive t x (queueNumber f.d) slot →
      Commits (.chrecv f) s n t { guard := f.g } ((s.resumed n).receiveSlot t m f.n.toNat (queueNumber f.d) slot h))
    ∧ ((∀ slot, ¬ h.CanReceive t x (queueNumber f.d) slot) → Waits (.chrecv f) s n (.channel t f.n.toNat (queueNumber f.d) false)
        ((s.resumed n).alterChannel (m.channelKey f.n.toNat) fun h => { h with receivers := joinLine h.receivers [t] })) := by
  have ha := channel_answers hs (exec_chrecv f s) hf hend
  have hrest : (s.resumed n).restOf t f.g = [t] := hs.restOf
  simp only [hopen, Bool.false_eq_true, if_false, hrest] at ha
  refine ⟨fun slot hgo => ?_, fun hno => ?_⟩
  · rw [(recvReady_iff (s := s.resumed n) hs.thread _ h slot).mpr hgo] at ha
    exact ha.commits rfl
  · rw [(recvReady_none_iff (s := s.resumed n) hs.thread _ h).mpr hno] at ha
    exact ha.waits rfl (.inl rfl)

/-- chtry of a receive takes the oldest slot where it can, and otherwise writes false (R307). -/
theorem chtryRecv_spec (hv : f.var ≠ 0) :
    (∀ slot, h.CanReceive t x (queueNumber f.a) slot → Commits (.chtry f) s n t { guard := f.g }
      (((s.resumed n).receiveSlot t m f.n.toNat (queueNumber f.a) slot h).alterThread t fun x => x.setPred (f.d.toNat % 8) true))
    ∧ ((∀ slot, ¬ h.CanReceive t x (queueNumber f.a) slot) →
        Commits (.chtry f) s n t { guard := f.g } ((s.resumed n).alterThread t fun x => x.setPred (f.d.toNat % 8) false)) := by
  have ha := channel_answers hs (exec_chtry_recv hv s) hf hend
  simp only [hopen, Bool.false_eq_true, if_false] at ha
  refine ⟨fun slot hgo => ?_, fun hno => ?_⟩
  · rw [(recvReady_iff (s := s.resumed n) hs.thread _ h slot).mpr hgo] at ha
    exact ha.commits rfl
  · rw [(recvReady_none_iff (s := s.resumed n) hs.thread _ h).mpr hno] at ha
    exact ha.commits rfl

end

end

theorem Channel.closedForRecv_iff (h : Channel) : h.closedForRecv = true ↔ h.slots = [] ∧ h.srcGone = true := by
  simp [Channel.closedForRecv]

theorem Channel.open_of {h : Channel} (ho : h.slots ≠ [] ∨ h.srcGone = false) : h.closedForRecv = false := by
  rw [Bool.eq_false_iff]
  intro hc
  obtain ⟨hs, hg⟩ := h.closedForRecv_iff.mp hc
  rcases ho with ho | ho
  · exact ho hs
  · exact absurd (ho.symm.trans hg) (by simp)

/-- chtry takes one of its two forms (R307). -/
theorem exec_chtry_form (f : SyncF) (s : State) : ∃ send body, exec (.chtry f) s = runGroup s { guard := f.g } (withChannel f.n.toNat send body) := by
  by_cases hv : f.var = 0
  · exact ⟨_, _, exec_chtry_send hv s⟩
  · exact ⟨_, _, exec_chtry_recv hv s⟩

/-- Settles O34: the checks of the channel, and then the two forms of each of its ends. -/
theorem channelsMoveWholeSlots : Obligations.ChannelsMoveWholeSlots := by
  unfold Obligations.ChannelsMoveWholeSlots
  intro f s n g t x m sh r key qa qd put arrived hs
  refine ⟨fun hf => ⟨channel_traps_undeclared hs (exec_chsend f s) hf, channel_traps_undeclared hs (exec_chrecv f s) hf, ?_⟩,
    fun h hf => ⟨?_, ?_, ?_, ?_, ?_, ?_⟩⟩
  · obtain ⟨_, _, hi⟩ := exec_chtry_form f s
    exact channel_traps_undeclared hs hi hf
  · intro hend hlive line ready
    obtain ⟨hsend, hwait⟩ := chsend_spec hs hf hend hlive
    exact ⟨hsend, hwait, fun hv => (chtrySend_spec hs hf hend hlive hv).1, fun hv => (chtrySend_spec hs hf hend hlive hv).2.1,
      fun hv => (chtrySend_spec hs hf hend hlive hv).2.2⟩
  · intro hend hopen ready
    obtain ⟨hrecv, hwait⟩ := chrecv_spec hs hf hend (Channel.open_of hopen)
    exact ⟨hrecv, hwait, fun hv => (chtryRecv_spec hs hf hend (Channel.open_of hopen) hv).1,
      fun hv => (chtryRecv_spec hs hf hend (Channel.open_of hopen) hv).2⟩
  · exact fun hend => ⟨channel_traps_elsewhere hs (exec_chsend f s) hf hend,
      fun hv => channel_traps_elsewhere hs (exec_chtry_send hv s) hf hend⟩
  · exact fun hend => ⟨channel_traps_elsewhere hs (exec_chrecv f s) hf hend,
      fun hv => channel_traps_elsewhere hs (exec_chtry_recv hv s) hf hend⟩
  · exact fun hend hgone => ⟨chsend_traps_gone hs hf hend hgone, fun hv => chtrySend_traps_gone hs hf hend hv hgone⟩
  · intro hend hgone hempty
    have hclosed := h.closedForRecv_iff.mpr ⟨hempty, hgone⟩
    exact ⟨chrecv_traps_gone hs hf hend hclosed, fun hv => chtryRecv_traps_gone hs hf hend hv hclosed⟩

end Sys2Proof.Machine
end

section
/-! SUPPORT. Barrier messages (R290, R294 to R296, R298, R314), the wake of a waiter (R302) and the landing of a slot (R306); O33. -/

namespace Sys2Proof.Machine

theorem exec_barrierLinkMessage (i : Nat) (s : State) : exec (.barrierLinkMessage i) s = execBarrierLinkMessage i s := rfl
theorem exec_barrierArrivalMessage (i : Nat) (s : State) : exec (.barrierArrivalMessage i) s = execBarrierArrivalMessage i s := rfl
theorem exec_barrierFlipMessage (i : Nat) (s : State) : exec (.barrierFlipMessage i) s = execBarrierFlipMessage i s := rfl
theorem exec_barrierWaiterWake (c : CoreId) (o : Nat) (s : State) : exec (.barrierWaiterWake c o) s = execBarrierWaiterWake c o s := rfl
theorem exec_channelSlotLanding (i : Nat) (s : State) : exec (.channelSlotLanding i) s = execChannelSlotLanding i s := rfl

/-! What waits for the next clk where it must -/

/-- An event reaches a state, and waits for the next clk where a generation that it steps has been read by a check of this one (R156, R159). -/
def Reaches (i : Instr) (s u : State) : Prop :=
  exec i s = .next (s.orLater u) ∧ ((∀ e ∈ u.cores, e.2.checked = []) → exec i s = .next u)

theorem reaches_of {i : Instr} {s u : State} (h : exec i s = .next (s.orLater u)) : Reaches i s u :=
  ⟨h, fun hc => h.trans (congrArg _ (orLater_of_unchecked s hc))⟩

/-! Barrier messages -/

/-- A message is the next of its queue, waits at no target, and is for no saved team (R298, R314). -/
structure NextFor (s : State) (i : Nat) (h p : Handle) (msg : Msg) : Prop where
  ends    : msg.ends = some (p, h)
  found   : Table.find s.msgs i = some msg
  arrives : s.waitsAtTarget msg = false
  first   : s.firstInLine i msg = true
  live    : s.savedOwner h p = none

theorem NextFor.delivered {s : State} {i : Nat} {h p : Handle} {msg : Msg} (hn : NextFor s i h p msg) :
    s.deliverBarrier i msg = s.orLater ((s.take i).applyBarrierMsg msg) := by
  simp only [State.deliverBarrier, hn.ends, hn.arrives, hn.first, hn.live, Bool.not_true, Bool.or_self, Bool.false_eq_true, if_false]

section
variable {s : State} {i : Nat} {h p : Handle}

theorem link_reaches (hn : NextFor s i h p (.link h p)) : Reaches (.barrierLinkMessage i) s ((s.take i).applyLink h p) := by
  refine reaches_of ?_
  rw [exec_barrierLinkMessage, execBarrierLinkMessage, hn.found]
  exact congrArg _ hn.delivered

theorem unlink_reaches (hn : NextFor s i h p (.unlink h p)) (hc : (s.barrier h.core h.obj).child.contains p = true) :
    Reaches (.barrierLinkMessage i) s ((s.take i).setBarrier h.core h.obj
      { s.barrier h.core h.obj with child := (s.barrier h.core h.obj).child.filter (· ≠ p) }) := by
  refine reaches_of ?_
  rw [exec_barrierLinkMessage, execBarrierLinkMessage, hn.found]
  refine congrArg _ (hn.delivered.trans (congrArg s.orLater (if_pos hc)))

theorem linkReply_reaches {ok : Bool} (hn : NextFor s i h p (.linkReply h p ok)) :
    Reaches (.barrierLinkMessage i) s ((s.take i).takeAnswer h p ok) := by
  refine reaches_of ?_
  rw [exec_barrierLinkMessage, execBarrierLinkMessage, hn.found]
  exact congrArg _ hn.delivered

theorem broken_reaches (hn : NextFor s i h p (.broken h p)) (hp : (s.barrier h.core h.obj).parent = some p) :
    Reaches (.barrierLinkMessage i) s ((s.take i).breakBarrier h.core h.obj) := by
  refine reaches_of ?_
  rw [exec_barrierLinkMessage, execBarrierLinkMessage, hn.found]
  exact congrArg _ (hn.delivered.trans (congrArg s.orLater (if_pos hp)))

theorem arrival_reaches {d : Bool} (hn : NextFor s i h p (.arrival h p d)) (hb : (s.barrier h.core h.obj).broken = false)
    (hc : (s.barrier h.core h.obj).child.contains p = true) :
    Reaches (.barrierArrivalMessage i) s (((s.take i).setBarrier h.core h.obj
      { s.barrier h.core h.obj with queue := (s.barrier h.core h.obj).queue ++ [.child p d] }).settleBarrier h.core h.obj) := by
  refine reaches_of ?_
  rw [exec_barrierArrivalMessage, execBarrierArrivalMessage, hn.found]
  have happly : (s.take i).applyBarrierMsg (.arrival h p d) = (s.take i).applyArrival h p d := if_pos hc
  have hqueue : (s.take i).applyArrival h p d = _ := if_neg (by
    show ¬ (s.barrier h.core h.obj).broken = true
    simp [hb])
  exact congrArg _ (hn.delivered.trans (congrArg s.orLater (happly.trans hqueue)))

theorem flip_reaches (hn : NextFor s i h p (.flip h p false)) (hp : (s.barrier h.core h.obj).parent = some p) :
    Reaches (.barrierFlipMessage i) s (((s.take i).flip h.core h.obj).settleBarrier h.core h.obj) := by
  refine reaches_of ?_
  rw [exec_barrierFlipMessage, execBarrierFlipMessage, hn.found]
  exact congrArg _ (hn.delivered.trans (congrArg s.orLater (if_pos hp)))

/-- The wake of the one held thread of an object whose phase has flipped (R295, R302). -/
theorem wake_reaches {c : CoreId} {o : Nat} {e : Nat × Team} {t : ThreadId} {x : Thread} (ho : s.objectOwner c o = some e)
    (hs : (s.barrier c o).sleepers = [t]) (hx : s.thread t = some x) (hr : x.regOf (o - e.2.barBase) = some Registration.flipped) :
    Reaches (.barrierWaiterWake c o) s ((((s.setBarrier c o { s.barrier c o with sleepers := [] }).observe t (o - e.2.barBase)).progress
      t).finish t) := by
  have hup : ((s.thread t).bind fun x => x.regOf (o - e.2.barBase)) = some Registration.flipped := by rw [hx]; exact hr
  refine reaches_of ?_
  simp [exec_barrierWaiterWake, execBarrierWaiterWake, ho, hs, hup]

end

/-! The landing of a slot -/

/-- An array without waiters serves none, whatever words have changed (R182). -/
theorem walks_of_no_waiters {x : FieldArray} (hw : x.waiters = []) (fuel : Nat) (ch : List (Nat × Bool)) (served : List (Waiter × DWord)) :
    x.walks fuel ch served = (x, served) := by
  induction fuel generalizing ch with
  | zero => rfl
  | succ fuel ih =>
    cases ch with
    | nil => rfl
    | cons e ch => simp only [FieldArray.walks, hw, List.find?_nil, ih]

/-- The walks of an array without waiters are over, and nothing else changes but in its core (R182). -/
theorem walkArray_of_no_waiters {s : State} {c : CoreId} {a : Nat} (hw : (s.array c a).waiters = []) :
    (s.walkArray c a).array c a = { s.array c a with walk := [] } ∧ ∃ cores, s.walkArray c a = { s with cores := cores } := by
  unfold State.walkArray
  dsimp only
  split
  · rename_i hwalk
    exact ⟨by rw [← hwalk], _, rfl⟩
  · have hset : ({ s.array c a with walk := [] } : FieldArray).settle (s.array c a).walk = ({ s.array c a with walk := [] }, []) :=
      walks_of_no_waiters (x := { s.array c a with walk := [] }) hw _ _ _
    rw [hset]
    exact ⟨State.setArray_array_self .., _, rfl⟩

/-- An array without waiters, replaced with words that changed: it stands as given once its walks are over. -/
theorem noteWords_walked {c : CoreId} {a : Nat} {x : FieldArray} (hw : x.waiters = []) (s : State) (ch : List (Nat × Bool)) :
    ((s.noteWords c a x ch).walkArray c a).array c a = { x with walk := [] }
      ∧ ∃ cores, (s.noteWords c a x ch).walkArray c a = { s with cores := cores } := by
  have hset : (s.noteWords c a x ch).array c a = { x with walk := x.walk ++ ch } := State.setArray_array_self ..
  obtain ⟨harr, cores, hcores⟩ := walkArray_of_no_waiters (s := s.noteWords c a x ch) (by rw [hset]; exact hw)
  exact ⟨by rw [harr, hset], cores, hcores⟩

/-- A channel once the words of a slot have landed. -/
def Channel.landed (h : Channel) (slot : Nat) : Channel :=
  { h with slots := h.slots.map fun x => if x.1 = slot then (x.1, x.2.1, true) else x }

/-- The words of a slot written at its place where nobody is parked on the array: the array's cells, and beside the core the channel alone (R306). -/
theorem landSlot_spec {s : State} {h : Channel} {core : CoreId} {slot : Nat} {ws : List Word}
    (hw : ((h.slots.find? fun x => x.1 == slot).map fun x => x.2.1).getD [] = ws) {p : Nat} (hp : h.ring + 4 * h.sw * slot = p)
    (hidle : (s.array core (fieldArrayOf p)).waiters = []) (key : Nat × Nat × Nat) :
    ((s.landSlot key h core slot).array core (fieldArrayOf p)).cells
        = (s.array core (fieldArrayOf p)).cells.setList (fieldOffset p) (ws.flatMap fun w => bytesOf w 4)
    ∧ ∃ cores hist, s.landSlot key h core slot =
        { s with cores := cores, hist := hist, channels := Table.alter s.channels key fun h => h.landed slot } := by
  subst hp hw
  refine ⟨(congrArg FieldArray.cells (noteWords_walked ?_ _ _).1).trans rfl, (noteWords_walked ?_ _ _).2.imp fun _ h => ⟨_, h⟩⟩
  · exact hidle
  · exact hidle

theorem length_slotBytes (ws : List Word) : (ws.flatMap fun w => bytesOf w 4).length = 4 * ws.length := by
  induction ws with
  | nil => rfl
  | cons w ws ih =>
    have hw : (bytesOf w 4).length = 4 := by simp [bytesOf]
    rw [List.flatMap_cons, List.length_append, ih, hw, List.length_cons]
    omega

/-- The next slot of its queue, to a resident team that does not stop, lands (R306, R308, R314). -/
theorem slot_reaches {s : State} {i lid cluster ch slot : Nat} {src dst : CoreId} {h : Channel} {e : Nat × Team}
    (hf : Table.find s.msgs i = some (.slot lid cluster ch slot src dst)) (hc : Table.find s.channels (lid, cluster, ch) = some h)
    (he : s.clusterTeam lid cluster h.dst = some e) (hrun : e.2.frozen = false)
    (hfirst : s.firstInLine i (.slot lid cluster ch slot src dst) = true) :
    Reaches (.channelSlotLanding i) s ((s.take i).landSlot (lid, cluster, ch) h e.2.core slot) := by
  have hgo : s.waitsAtTarget (.slot lid cluster ch slot src dst) = false := by simp only [State.waitsAtTarget, hc, he, hrun]
  refine reaches_of ?_
  simp only [exec_channelSlotLanding, execChannelSlotLanding, hf, hgo, hfirst, hc, he, Option.bind_some, Bool.not_true, Bool.or_self,
    Bool.false_eq_true, if_false]

/-- Settles O33: each message and the wake reach their state (`Reaches`), and a slot that lands is in its cells (`landSlot_spec`). -/
theorem barrierMessagesAndSlotsAreDelivered : Obligations.BarrierMessagesAndSlotsAreDelivered := by
  unfold Obligations.BarrierMessagesAndSlotsAreDelivered
  refine ⟨?_, ?_⟩
  · intro s i h p r b next acts
    have hnext : ∀ {msg : Msg}, msg.ends = some (p, h) → next msg → NextFor s i h p msg :=
      fun hends ⟨hf, hw, hl, ho⟩ => ⟨hends, hf, hw, hl, ho⟩
    exact ⟨fun hn => link_reaches (hnext rfl hn), fun hn hc => unlink_reaches (hnext rfl hn) hc, fun ok hn => linkReply_reaches (hnext rfl hn),
      fun hn hp => broken_reaches (hnext rfl hn) hp, fun d hn hb hc => arrival_reaches (hnext rfl hn) hb hc,
      fun hn hp => flip_reaches (hnext rfl hn) hp, fun e t x ho hs hx hr => wake_reaches ho hs hx hr⟩
  · intro s i lid cluster ch slot src dst h e ws hf hc he hrun hfirst hslot hlen a hidle
    obtain ⟨hexec, hnow⟩ := slot_reaches hf hc he hrun hfirst
    obtain ⟨hcells, cores, hist, hrest⟩ := landSlot_spec (s := s.take i) (core := e.2.core) (ws := ws) (by rw [hslot]; rfl)
      (rfl : _ = a) hidle (lid, cluster, ch)
    have hbytes : (ws.flatMap fun w => bytesOf w 4).length = 4 * h.sw := by rw [length_slotBytes, hlen]
    refine ⟨_, hexec, hnow, ?_, fun k hk => ?_, fun k hk => ?_, ?_, ?_⟩
    · rw [hrest]
      have hput : Table.find (Table.alter s.channels (lid, cluster, ch) fun h => h.landed slot) (lid, cluster, ch) = some (h.landed slot) := by
        simp [hc]
      exact hput
    · rw [hcells, Sparse.get_setList, if_pos (by omega), Nat.add_sub_cancel_left]
    · rw [hcells, Sparse.get_setList, if_neg (by omega)]
      rfl
    · rw [hrest]
      rfl
    · rw [hrest]
      simp [State.take]

end Sys2Proof.Machine
end

section
/-! SUPPORT. A cause taken (R360 to R362): the entry of the handler, the wait to enter, and the stop with its report; O39. -/

namespace Sys2Proof.Machine

theorem Sparse.get_setRange {w : Nat} (f : Nat → BitVec w) (n : Nat) (m : Sparse w) {k : Nat} (hk : k < n) :
    ((List.range n).foldl (fun m k => m.set k (f k)) m).get k = f k := by
  induction n with
  | zero => omega
  | succ n ih =>
    rw [List.range_succ, List.foldl_append, List.foldl_cons, List.foldl_nil, Sparse.get_set]
    split
    · rename_i h
      rw [h]
    · exact ih (by omega)

/-- What of the state a cause leaves as it was, beside its thread (R361, R362). -/
structure Undisturbed (s u : State) (t : ThreadId) : Prop where
  others   : ∀ id, id ≠ t → u.thread id = s.thread id
  teams    : u.teams = s.teams
  mem      : u.mem = s.mem
  contexts : u.contexts = s.contexts

theorem leaveGroup_undisturbed (s : State) (t : ThreadId) (f : Thread → Thread) :
    Undisturbed s ((s.leaveGroup t).alterThread t f) t
      ∧ ((s.leaveGroup t).alterThread t f).thread t = (s.thread t).map f
      ∧ ((s.leaveGroup t).alterThread t f).reports = s.reports := by
  obtain ⟨_, _, _, h⟩ := leaveGroup_changes s t
  rw [h]
  refine ⟨⟨fun id hid => ?_, rfl, rfl, rfl⟩, ?_, rfl⟩
  · rw [State.alterThread_thread, if_neg hid]
    rfl
  · rw [State.alterThread_thread, if_pos rfl]
    rfl

/-- Counting the event of a cause leaves what a cause leaves, its thread, and the handler of its context (R387). -/
theorem countFor_undisturbed (s : State) (t : ThreadId) (code k : Nat) :
    Undisturbed s (s.countFor t code k) t ∧ (s.countFor t code k).thread t = s.thread t ∧ (s.countFor t code k).hvecOf t = s.hvecOf t
      ∧ (s.countFor t code k).reports = s.reports := by
  have hc := countFor_coreOnly s t code k
  have hq := hc.quiet.1
  refine ⟨⟨fun id _ => hc.thread id, hc.teams, by rw [hq], by rw [hq]⟩, hc.thread t, ?_, by rw [hq]⟩
  have hcn : (s.countFor t code k).cnOf t = s.cnOf t := by
    unfold State.cnOf State.teamOf
    rw [hc.team]
  unfold State.hvecOf
  rw [hcn, hq]

theorem Undisturbed.trans {s u v : State} {t : ThreadId} (h : Undisturbed s u t) (h' : Undisturbed u v t) : Undisturbed s v t :=
  ⟨fun id hid => (h'.others id hid).trans (h.others id hid), h'.teams.trans h.teams, h'.mem.trans h.mem, h'.contexts.trans h.contexts⟩

section
variable {s : State} {t : ThreadId} {x : Thread} {tr : Trap} {ret : VAddr} {keep : Option (Clause × Nat)} (hx : s.thread t = some x)
include hx

/-- A cause outside a handler, with one to enter, changes its thread as `deliver` does (R361). -/
theorem takeTrap_delivers (hin : x.inHandler = false) (hv : s.hvecOf t ≠ 0) :
    Undisturbed s (s.takeTrap t tr ret keep) t
    ∧ (s.takeTrap t tr ret keep).thread t = some (if x.shadowReady then
        { x with resume := keep }.enterHandler tr ret ((s.hvecOf t).truncate 57) else { x with resume := keep, status := .entering tr ret }) := by
  obtain ⟨hcount, hthread, hhvec, -⟩ := countFor_undisturbed s t 0x0E 1
  have htake : s.takeTrap t tr ret keep = (s.countFor t 0x0E 1).deliver t tr ret keep := by
    simp only [State.takeTrap, hx, hin, hhvec, if_neg hv, Bool.false_eq_true, if_false]
  obtain ⟨hleave, hset, -⟩ := leaveGroup_undisturbed (s.countFor t 0x0E 1) t fun y =>
    if { y with resume := keep }.shadowReady then { y with resume := keep }.enterHandler tr ret ((s.hvecOf t).truncate 57)
    else { y with resume := keep, status := .entering tr ret }
  rw [htake, State.deliver, hhvec]
  refine ⟨hcount.trans hleave, hset.trans ?_⟩
  rw [hthread, hx]
  rfl

/-- A cause in a handler, or without a handler to enter, stops its thread and is the last report (R362). -/
theorem takeTrap_stops (hstop : x.inHandler = true ∨ s.hvecOf t = 0) :
    (s.takeTrap t tr ret keep).thread t = some { x with status := .stopped none } ∧ (s.takeTrap t tr ret keep).mem = s.mem
    ∧ ((s.takeTrap t tr ret keep).reports.getLast?.map Report.trap) = some (if x.inHandler then
        ⟨0x1E2, tr.pc, tr.cause.zeroExtend 64 :: (auxWords tr.aux).take 3⟩ else { tr with aux := auxWords tr.aux }) := by
  obtain ⟨hcount, hthread, hhvec, -⟩ := countFor_undisturbed s t 0x0E 1
  have htake : s.takeTrap t tr ret keep = (s.countFor t 0x0E 1).stopFor t tr x.inHandler := by
    cases hin : x.inHandler with
    | true => simp only [State.takeTrap, hx, hin, if_true]
    | false =>
      have hv : s.hvecOf t = 0 := hstop.resolve_left (by simp [hin])
      simp only [State.takeTrap, hx, hin, hhvec, hv, Bool.false_eq_true, if_false, if_true]
  rw [htake]
  unfold State.stopFor State.stop
  generalize (if x.inHandler then (⟨0x1E2, tr.pc, tr.cause.zeroExtend 64 :: (auxWords tr.aux).take 3⟩ : Trap)
    else { tr with aux := auxWords tr.aux }) = told
  obtain ⟨hleave, hset, hreports⟩ := leaveGroup_undisturbed ((s.countFor t 0x0E 1).report t told) t fun y => { y with status := .stopped none }
  refine ⟨hset.trans ?_, hleave.mem.trans ((State.report_mem ..).trans hcount.mem), ?_⟩
  · rw [report_thread, hthread, hx]
    rfl
  · rw [hreports]
    simp [State.report]

end

/-- Settles O39: `takeTrap_delivers` for the entry and the wait to enter, `takeTrap_stops` for the stop and its report. -/
theorem causesEnterTheHandlerOrStop : Obligations.CausesEnterTheHandlerOrStop := by
  unfold Obligations.CausesEnterTheHandlerOrStop
  refine ⟨fun s t x tr ret keep hx hin hv => ?_, fun s t x tr ret keep hx => ?_⟩
  · obtain ⟨hrest, hthread⟩ := takeTrap_delivers (tr := tr) (ret := ret) (keep := keep) hx hin hv
    refine ⟨fun hready => ?_, fun hready => ?_, hrest.others, hrest.teams, hrest.mem, hrest.contexts⟩
    · rw [if_pos hready] at hthread
      refine ⟨_, hthread, rfl, rfl, rfl, rfl, rfl, fun k hk => ?_, fun k hk => ?_, rfl, rfl, rfl, rfl, rfl, rfl, rfl, rfl, rfl, rfl, rfl, rfl,
        fun _ => rfl, rfl⟩
      · exact Sparse.get_setRange (fun k => tr.aux.getD k 0) 4 x.taux hk
      · exact Sparse.get_setRange (fun k => (x.reg (56 + k)).zeroExtend 64) 8 x.tshw hk
    · rwa [if_neg (by simp [hready])] at hthread
  · refine ⟨fun hstop => ?_, fun hin => ?_, fun hin hv => ?_⟩
    · obtain ⟨hthread, hmem, -⟩ := takeTrap_stops (tr := tr) (ret := ret) (keep := keep) hx hstop
      exact ⟨hthread, hmem⟩
    · obtain ⟨-, -, hlast⟩ := takeTrap_stops (tr := tr) (ret := ret) (keep := keep) hx (.inl hin)
      exact hlast.trans (congrArg some (if_pos hin))
    · obtain ⟨-, -, hlast⟩ := takeTrap_stops (tr := tr) (ret := ret) (keep := keep) hx (.inr hv)
      exact hlast.trans (congrArg some (if_neg (by simp [hin])))

end Sys2Proof.Machine
end

section
/-! SUPPORT. System instructions (R365 to R367, R373, R393, R395) in a group of one thread; O41, O42, O45, and the refutation of O44. -/

namespace Sys2Proof.Machine

theorem exec_csrr (f : CsrF) (s : State) : exec (.csrr f) s = execCsrr f s := rfl
theorem exec_csrw (f : CsrF) (s : State) : exec (.csrw f) s = execCsrw f s := rfl
theorem exec_trap (f : TrapF) (s : State) : exec (.trap f) s = execTrap f s := rfl
theorem exec_rfe (f : TrapF) (s : State) : exec (.rfe f) s = execRfe f s := rfl
theorem exec_tlbinv (f : XF) (s : State) : exec (.tlbinv f) s = execTlbinv f s := rfl
theorem exec_brk (f : XF) (s : State) : exec (.brk f) s = execBrk f s := rfl
theorem exec_mark (f : MarkF) (s : State) : exec (.mark f) s = execMark f s := rfl

/-! Control registers -/

@[simp] theorem State.resumed_csrCheck (s : State) (n : Nat) (t : ThreadId) (x : Thread) (k : Nat) (w : Option DWord) :
    (s.resumed n).csrCheck t x k w = s.csrCheck t x k w := rfl

/-- A register of a thread or a team is reached from every core, at the privilege of its row (R364, R367). -/
theorem csrCheck_own (s : State) (t : ThreadId) (x : Thread) {k : Nat} {row : CsrRow} (hrow : csrRow k = some row)
    (hscope : row.scope = .thread ∨ row.scope = .team) (w : Option DWord) :
    s.csrCheck t x k w = if (if w.isSome then row.write else row.read) ≤ x.priv then none else some 0x1E1 := by
  have hcontext : row.scope ≠ .context := by rcases hscope with h | h <;> rw [h] <;> decide
  have hreached : row.scope.reached (s.coreOf t) = true := by rcases hscope with h | h <;> rw [h] <;> rfl
  simp only [State.csrCheck, hrow, hcontext, hreached, Thread.mayDo, if_false, false_and, Bool.not_true, Bool.false_eq_true]
  split <;> split <;> simp_all

/-- Settles O42: the checks are in the order of `csrCheck`, which `csrCheck_own` reads for the scopes of a thread and a team. -/
theorem controlRegistersAreReadAndWritten : Obligations.ControlRegistersAreReadAndWritten := by
  unfold Obligations.ControlRegistersAreReadAndWritten
  intro f s n g t x m k r shr shw
  refine ⟨fun h => ?_, fun h => ?_, fun hrow w => by simp only [State.csrCheck, hrow], fun row hrow hscope => ?_⟩
  · have hx : (s.resumed n).thread t = some x := h.thread
    have hm : (s.resumed n).teamOf t = some m := h.teamOf
    have ha := h.answers (exec_csrr f s)
    refine ⟨fun hc => ha.commits ?_, fun c hc => ha.traps ?_⟩
    · simp only [hx, hm, State.resumed_csrCheck, show s.csrCheck t x f.csr.toNat none = none from hc]
      rfl
    · simp only [hx, hm, State.resumed_csrCheck, show s.csrCheck t x f.csr.toNat none = some c from hc]
      rfl
  · have hx : (s.resumed n).thread t = some x := h.thread
    have ha := h.answers (exec_csrw f s)
    intro v
    refine ⟨fun hc => ha.commits ?_, fun c hc => ha.traps ?_⟩
    · simp only [hx, State.resumed_csrCheck, show s.csrCheck t x f.csr.toNat (some (arg64 (s.valuesOf shw t) 0)) = none from hc]
      rfl
    · simp only [hx, State.resumed_csrCheck, show s.csrCheck t x f.csr.toNat (some (arg64 (s.valuesOf shw t) 0)) = some c from hc]
      rfl
  · simp only [csrCheck_own s t x hrow hscope, Option.isSome_none, Option.isSome_some, Bool.false_eq_true, if_true, if_false, ite_eq_left_iff,
      ite_eq_right_iff, Nat.not_le]
    refine ⟨fun h => ?_, fun h => ?_, fun v => ⟨fun h => ?_, fun h => ?_⟩⟩ <;> omega

/-! Returns from a handler -/

/-- Consecutive places set one after another. -/
theorem Sparse.get_setFrom {w : Nat} (f : Nat → BitVec w) (a n : Nat) (m : Sparse w) (j : Nat) :
    (((List.range n).map fun k => (a + k, f k)).foldl (fun m e => m.set e.1 e.2) m).get j
      = if a ≤ j ∧ j < a + n then f (j - a) else m.get j := by
  induction n with
  | zero => exact (if_neg (by omega)).symm
  | succ n ih =>
    rw [List.range_succ, List.map_append, List.foldl_append, List.map_cons, List.map_nil, List.foldl_cons, List.foldl_nil, Sparse.get_set, ih]
    by_cases hj : j = a + n
    · subst hj
      rw [if_pos rfl, if_pos (by omega), Nat.add_sub_cancel_left]
    · rw [if_neg hj]
      exact if_congr (by omega) rfl rfl

/-- The return from a handler writes w56 to w63 from TSHW and no other register (R365). -/
theorem Thread.leaveHandler_reg (x : Thread) (r : Nat) (hr : r < 64) :
    x.leaveHandler.reg r = if 56 ≤ r then (x.tshw.get (r - 56)).truncate 32 else x.reg r := by
  have hregs := Sparse.get_setFrom (fun k => (x.tshw.get k).truncate 32) (56 * x.depth + 56) 8 x.regs (x.word r)
  simp only [Nat.add_assoc] at hregs
  refine hregs.trans ?_
  by_cases h : 56 ≤ r
  · rw [if_pos h, if_pos (by simp only [Thread.word]; omega), show x.word r - (56 * x.depth + 56) = r - 56 by simp only [Thread.word]; omega]
  · rw [if_neg h, if_neg (by simp only [Thread.word]; omega)]
    rfl

/-- The return from a handler writes p1 to p7 from TSHP; p0 stays true (R12, R365). -/
theorem Thread.leaveHandler_preds (x : Thread) (k : Nat) (hk : k < 8) :
    x.leaveHandler.preds.getLsbD k = (decide (k = 0) || x.tshp.getLsbD k) := by
  have h : x.leaveHandler.preds = (x.tshp.truncate 8 &&& 0xFE) ||| 1 := rfl
  rw [h]
  interval_cases k <;> simp

@[simp] theorem State.setThread_thread (s : State) (t id : ThreadId) (x : Thread) :
    (s.setThread t x).thread id = if id = t then some x else s.thread id := by
  simp only [State.thread, State.setThread, Table.find_put]

theorem returnTrap_changes {s : State} {t : ThreadId} {x : Thread} (hx : s.thread t = some x) :
    CoreOnly (s.setThread t x.leaveHandler) (s.returnTrap t) := by
  simp only [State.returnTrap, hx]
  exact stepGens_coreOnly _ _ _

section
variable {f : TrapF} {s : State} {n : Nat} {g : Group} {t : ThreadId} {x : Thread} {m : Team} (h : Solo s n g t x m { guard := f.g })
include h

theorem rfe_answers (hp : 1 ≤ x.priv) (hin : x.inHandler = true) (hd : x.depth = x.edepth) (hready : x.shadowReady = true) :
    Answers (.rfe f) s n g t { guard := f.g } ((s.resumed n).returnTo t x) := by
  have hx : (s.resumed n).thread t = some x := h.thread
  have ha := h.answers (exec_rfe f s)
  simpa only [needPriv_of_le hx hp, hx, hin, hready, hd, Bool.not_true, Bool.false_eq_true, if_false, ne_eq, not_true_eq_false] using ha

end

section
variable {s : State} {t : ThreadId} {x : Thread}

/-- The return goes to TRET where it was written, and where the cause left no clause (R365). -/
theorem returnTo_tret (h : x.resume = none ∨ x.tretWritten = true) :
    (∀ u, (s.returnTrap t).checkTarget t x.tret = .ok u →
      s.returnTo t x = .done ((u.alterThread t fun y => { y with resume := none, brkPass := none }).arrive t x.tret))
    ∧ (∀ c aux u, (s.returnTrap t).checkTarget t x.tret = .trap c aux u → s.returnTo t x = .trap c aux u)
    ∧ ∀ u, (s.returnTrap t).checkTarget t x.tret = .closed u → s.returnTo t x = .wait (s.closedHold t x.tret) s := by
  rcases h with h | h
  · refine ⟨fun u hu => ?_, fun c aux u hu => ?_, fun u hu => ?_⟩ <;> simp only [State.returnTo, h, hu]
  · cases hr : x.resume
    all_goals refine ⟨fun u hu => ?_, fun c aux u hu => ?_, fun u hu => ?_⟩ <;> simp only [State.returnTo, h, hr, hu]

/-- The return into the clause that the cause left, whose words not read yet it reads (R87, R365). -/
theorem returnTo_clause {c : Clause} {k : Nat} {g : Group} (hc : x.resume = some (c, k)) (htret : x.tretWritten = false)
    (hg : s.groupOf t = some g) :
    ((s.returnTrap t).refetch t c k = none → s.returnTo t x = .wait (s.closedHold t (c.address k)) s)
    ∧ (∀ c' u, (s.returnTrap t).refetch t c k = some (c', u) → c'.late = none →
        s.returnTo t x = .done (((u.leaveGroup t).alterThread t fun y => { y with
          brkPass := if x.tcause = 0x1C0 ∨ x.brkPass = some (c.address k) then some (c.address k) else none, resume := none }).resumeAlone
            t c' k g.slot))
    ∧ ∀ c' u cause j, (s.returnTrap t).refetch t c k = some (c', u) → c'.late = some (cause, j) →
        s.returnTo t x =
          .done (((u.leaveGroup t).alterThread t fun y => { y with resume := none }).trapHeader t c'.header cause [BitVec.ofNat 64 j]) := by
  refine ⟨fun hu => ?_, fun c' u hu hlate => ?_, fun c' u cause j hu hlate => ?_⟩
  · simp only [State.returnTo, hc, htret, hu]
  · simp only [State.returnTo, hc, htret, hu, hlate, hg, Option.map_some, Option.getD_some]
  · simp only [State.returnTo, hc, htret, hu, hlate]

end

/-- Settles O41: `returnTo` by where the thread goes on, `leaveHandler` for what it restores. -/
theorem trapsAndReturnsExecute : Obligations.TrapsAndReturnsExecute := by
  unfold Obligations.TrapsAndReturnsExecute
  refine ⟨fun f s n g t x m h => ?_, fun s t x hx => ?_⟩
  · have hx : (s.resumed n).thread t = some x := h.thread
    have ha := h.answers (exec_rfe f s)
    intro r sh
    refine ⟨(h.answers (exec_trap f s)).traps rfl, fun hp => traps_of_needPriv h (exec_rfe f s) (by omega), fun hp hin => ha.traps ?_,
      fun hp hin hd => ha.traps ?_, fun hp hin hd hready => ha.waits ?_ (.inr rfl), fun hp hin hd hready => ?_⟩
    · simp only [needPriv_of_le hx hp, hx, hin, Bool.not_false, if_true]
      rfl
    · simp only [needPriv_of_le hx hp, hx, hin, Bool.not_true, Bool.false_eq_true, if_false, ne_eq, hd, not_false_eq_true, if_true]
      rfl
    · simp only [needPriv_of_le hx hp, hx, hin, Bool.not_true, Bool.false_eq_true, if_false, ne_eq, hd, not_true_eq_false, hready,
        Bool.not_false, if_true]
      rfl
    · have hto := rfe_answers h hp hin hd hready
      refine ⟨fun htret => ?_, fun c k hc htret => ?_⟩
      · obtain ⟨hok, htrap, hclosed⟩ := returnTo_tret (s := s.resumed n) (t := t) htret
        exact ⟨fun u hu => hto.commits (hok u hu), fun c aux u hu => hto.traps (htrap c aux u hu),
          fun u hu => hto.waits (hclosed u hu) (.inr rfl)⟩
      · obtain ⟨hclosed, hok, hlate⟩ := returnTo_clause (s := s.resumed n) hc htret h.groupOf
        exact ⟨fun hu => hto.waits (hclosed hu) (.inr rfl), fun c' u hu hl => hto.commits (hok c' u hu hl),
          fun c' u cause j hu hl => hto.commits (hlate c' u cause j hu hl)⟩
  · have hthread := returnTrap_changes hx
    refine ⟨x.leaveHandler, (hthread.thread t).trans (by simp), fun k hk => ?_, fun k hk h0 => ?_, ?_, fun r hr => ?_, rfl, rfl, rfl, rfl, rfl,
      s.returnTrap_mem t, fun id hid => (hthread.thread id).trans (by simp [hid])⟩
    · rw [x.leaveHandler_reg _ (by omega), if_pos (by omega), Nat.add_sub_cancel_left]
    · rw [x.leaveHandler_preds k hk, decide_eq_false h0, Bool.false_or]
    · rw [x.leaveHandler_preds 0 (by omega)]
      rfl
    · rw [x.leaveHandler_reg r (by omega), if_neg (by omega)]

/-! brk and mark -/

/-- A trace record changes its die and bytes of memory, and no thread or team (R388). -/
theorem trace_keeps (s : State) (c : CoreId) (n : Name) (pc : VAddr) (kind : Nat) (data : DWord) :
    (s.trace c n pc kind data).threads = s.threads ∧ (s.trace c n pc kind data).teams = s.teams := by
  have hbytes (pa : Nat → Nat) (bs : Nat → List Byte) (l : List Nat) : ∀ u : State,
      (l.foldl (fun (u : State) k => u.rawBytes (pa k) (bs k)) u).threads = u.threads
        ∧ (l.foldl (fun (u : State) k => u.rawBytes (pa k) (bs k)) u).teams = u.teams := by
    induction l with
    | nil => exact fun _ => ⟨rfl, rfl⟩
    | cons k l ih => exact fun u => ih _
  unfold State.trace
  dsimp only
  split
  · exact ⟨rfl, rfl⟩
  · exact ⟨(State.setDie_threads ..).trans (hbytes _ _ _ _).1, (State.setDie_teams ..).trans (hbytes _ _ _ _).2⟩

theorem stop_passOn_teams (s : State) (t : ThreadId) (p : Option (Clause × Nat)) (n : Nat) : ((s.stop t p).passOn n).teams = s.teams := by
  have hstop : (s.stop t p).teams = s.teams := by
    obtain ⟨_, _, _, h⟩ := leaveGroup_changes s t
    simp only [State.stop, h, State.alterThread_teams]
  obtain h | ⟨g, -, hp⟩ := passOn_cases (s.stop t p) n
  · rw [h, hstop]
  · rw [hp.teams, hstop]

/-- The state in which a thread has been told that it stops at a brk: its record and its report (R388, R393). -/
def State.toldBreak (s : State) (t : ThreadId) (c : CoreId) (pc : VAddr) (code : DWord) : State :=
  ((s.countFor t 0x0E 1).trace c (s.nameOf t) pc 2 code).report t ⟨0x1C0, pc, auxWords [code]⟩

theorem toldBreak_keeps (s : State) (t : ThreadId) (c : CoreId) (pc : VAddr) (code : DWord) :
    (s.toldBreak t c pc code).threads = s.threads ∧ (s.toldBreak t c pc code).teams = s.teams
      ∧ ((s.toldBreak t c pc code).reports.getLast?.map Report.trap) = some ⟨0x1C0, pc, auxWords [code]⟩ := by
  have hcount := countFor_coreOnly s t 0x0E 1
  obtain ⟨hthreads, hteams⟩ := trace_keeps (s.countFor t 0x0E 1) c (s.nameOf t) pc 2 code
  simp only [State.toldBreak, State.report, hthreads, hteams, hcount.threads, hcount.teams, List.getLast?_concat, Option.map_some, true_and]

theorem countFor_nameOf (s : State) (t : ThreadId) (code k : Nat) : (s.countFor t code k).nameOf t = s.nameOf t := by
  simp only [State.nameOf, State.teamOf, (countFor_coreOnly s t code k).team]

theorem countFor_coreOf (s : State) (t : ThreadId) (code k : Nat) : (s.countFor t code k).coreOf t = s.coreOf t := by
  simp only [State.coreOf, State.teamOf, (countFor_coreOnly s t code k).team]

section
variable {f : XF} {s : State} {n : Nat} {g : Group} {t : ThreadId} {x : Thread} {m : Team} (h : Solo s n g t x m { guard := f.g })
include h

/-- brk stops its thread with a record and a report where BRKSTOP holds for it (R393). -/
theorem brk_stops (hpass : x.brkPass ≠ some g.pc) (hstop : s.brkStops t = true) :
    exec (.brk f) s = .next ((((s.resumed n).toldBreak t m.core g.pc (f.d.zeroExtend 64)).stop t (some (g.clause, g.idx))).passOn n) := by
  have hx : (s.resumed n).thread t = some x := h.thread
  have hcore : (s.resumed n).coreOf t = m.core := h.coreOf
  have hs : (s.resumed n).brkStops t = true := hstop
  refine (h.answers (exec_brk f s)).leaves ?_
  simp only [hx, h.groupOf]
  refine (if_neg hpass).trans ((if_pos hs).trans ?_)
  rw [countFor_nameOf, countFor_coreOf, hcore]
  rfl

end

/-- Settles O45: `brk_stops` with what a stop leaves, and `trace` or the gate for mark. -/
theorem breaksAndMarksExecute : Obligations.BreaksAndMarksExecute := by
  unfold Obligations.BreaksAndMarksExecute
  intro s n g t x m r
  constructor
  · intro f sh h code told u
    have hx : (s.resumed n).thread t = some x := h.thread
    have ha := h.answers (exec_brk f s)
    simp only [hx, h.groupOf] at ha
    refine ⟨fun hpass => ha.commits (if_pos hpass), fun hpass hs => ha.traps ?_, fun hpass hs => ⟨brk_stops h hpass hs, ?_⟩⟩
    · exact (if_neg hpass).trans (if_neg (by simp [show (s.resumed n).brkStops t = false from hs]))
    · obtain ⟨hthreads, hteams, hreports⟩ := toldBreak_keeps (s.resumed n) t m.core g.pc (f.d.zeroExtend 64)
      have hthread : ((s.resumed n).toldBreak t m.core g.pc (f.d.zeroExtend 64)).thread t = some x := by
        rw [State.thread, hthreads]
        exact hx
      refine ⟨?_, ?_, ?_⟩
      · exact (stop_passOn_thread hthread h.status _).trans ((stop_thread ..).trans (by rw [hthread]; rfl))
      · have hkept := (stop_passOn_teams ((s.resumed n).toldBreak t m.core g.pc (f.d.zeroExtend 64)) t (some (g.clause, g.idx)) n).trans hteams
        exact (congrArg (Table.find · t.team) hkept).trans h.team
      · exact (congrArg (fun l => l.getLast?.map Report.trap) ((passOn_reports ..).trans (stop_reports ..))).trans hreports
  · intro f sh h
    have hcore : (s.resumed n).coreOf t = m.core := h.coreOf
    have ha := h.answers (exec_mark f s)
    rw [hcore, h.pcAt] at ha
    refine ⟨fun hv => ha.commits (if_pos hv), fun hv => ha.commits ?_, fun h0 h1 => ha.commits ?_⟩
    · simp only [hv]
      rfl
    · simp only [h0, if_false, beq_false_of_ne h1]
      rfl

/-! tlbinv -/

/-- A translation of another context kept on die 0. -/
def keptDie : Die := { Die.init with kept := [⟨2, 0, 0⟩] }

/-- The sample state with that translation kept. -/
def keptState : State := { Tests.state0 { Tests.thread0 with priv := 2 } Tests.team0 with dies := [(0, keptDie)] }

/-- A tlbinv whose third byte is none of the three that R373 names. -/
def oddTlbinv : XF := ⟨Tests.always, 0, 0, 0, 0, 3⟩

theorem keptState_solo : Solo keptState 0 Tests.group0 Tests.t0 { Tests.thread0 with priv := 2 } Tests.team0 { guard := Tests.always, inS := true } :=
  Tests.solo_in ⟨rfl, rfl, rfl, rfl, rfl⟩ ⟨by decide, by decide⟩

/-- What the instruction comes to in the model: the third byte is not 2, so only the selected context's translations go. -/
theorem oddTlbinv_commits : Commits (.tlbinv oddTlbinv) keptState 0 Tests.t0 { guard := Tests.always, inS := true }
    (((keptState.resumed 0).dropContext 1).place.fenceHere Tests.t0) :=
  (keptState_solo.answers (exec_tlbinv oddTlbinv keptState)).commits rfl

theorem commit_dies (s : State) (n : Nat) (t : ThreadId) (srcs : List Src) : (s.commit n t srcs).dies = s.dies := by
  have hq := passOn_quiet (((s.popFor t srcs).progress t).markDone n t.t) n
  rw [State.commit, hq.1]
  rfl

/-- Refutes O44: its last clause for tlbinv lets every third byte other than 0 and 1 drop the translations of all contexts, but the model does so for 2 alone; under `oddTlbinv`, whose byte is 3, `keptState` keeps the translation of context 2 (R373). -/
theorem not_tablesTranslationsAndRequests : ¬ Obligations.TablesTranslationsAndRequests := by
  unfold Obligations.TablesTranslationsAndRequests
  intro hall
  obtain ⟨-, htlbinv, -⟩ := hall keptState 0 Tests.group0 Tests.t0 { Tests.thread0 with priv := 2 } Tests.team0
  obtain ⟨-, hrange⟩ := htlbinv oddTlbinv keptState_solo
  obtain ⟨-, -, -, hdrops⟩ := hrange (by decide)
  obtain ⟨-, hcommits⟩ := hdrops (by decide) (by decide)
  have hsame := congrArg State.dies (Host.Outcome.next.inj ((hcommits (by decide)).symm.trans oddTlbinv_commits))
  rw [commit_dies, commit_dies] at hsame
  exact absurd (congrArg (List.map fun e => e.2.kept.length) hsame) (by decide)

end Sys2Proof.Machine
end

section
/-! SUPPORT. What a write by the device changes (R241, R253, R427). -/

namespace Sys2Proof.Machine

/-- A change by writes to memory: bytes, their history, timestamps, engine writes that land before them, caches, counts and reports; no team, context, grid, channel or message. -/
def WriteOnly (s u : State) : Prop :=
  u = { s with mem := u.mem, hist := u.hist, seq := u.seq, leases := u.leases, wmax := u.wmax, past := u.past, threads := u.threads,
               commands := u.commands, replay := u.replay, cores := u.cores, dies := u.dies, llc := u.llc, drawn := u.drawn, reports := u.reports }

theorem WriteOnly.refl (s : State) : WriteOnly s s := rfl

theorem WriteOnly.trans {s u v : State} (h : WriteOnly s u) (h' : WriteOnly u v) : WriteOnly s v := by
  unfold WriteOnly at *
  rw [h', h]

theorem WriteOnly.grids {s u : State} (h : WriteOnly s u) : u.grids = s.grids := by rw [h]
theorem WriteOnly.teams {s u : State} (h : WriteOnly s u) : u.teams = s.teams := by rw [h]

theorem WriteOnly.foldl {α : Type} {f : State → α → State} (hf : ∀ u a, WriteOnly u (f u a)) (l : List α) (s : State) :
    WriteOnly s (l.foldl f s) := by
  induction l generalizing s with
  | nil => exact WriteOnly.refl s
  | cons a l ih => exact (hf s a).trans (ih _)

theorem WriteOnly.stamps (s : State) (l : Table Nat (BitVec 48 × BitVec 48)) (w : BitVec 48) :
    WriteOnly s { s with leases := l, wmax := w } := rfl
theorem WriteOnly.commands (s : State) (l : Table Nat Command) : WriteOnly s { s with commands := l } := rfl
theorem WriteOnly.landed (s : State) (l : List Landing) (ts : Table ThreadId Thread) : WriteOnly s { s with past := l, threads := ts } := rfl
theorem place_writeOnly (s : State) : WriteOnly s s.place := rfl

theorem putBytes_writeOnly (bs : List Byte) : ∀ (s : State) (pa : Nat), WriteOnly s (s.putBytes pa bs) := by
  induction bs with
  | nil => exact fun s _ => WriteOnly.refl s
  | cons b bs ih => exact fun s pa => WriteOnly.trans (rfl : WriteOnly s (s.putByte pa b)) (ih _ _)

theorem homeBytes_writeOnly (s : State) (pa : Nat) (bs : List Byte) : WriteOnly s (s.homeBytes pa bs) :=
  (WriteOnly.stamps s _ _).trans (putBytes_writeOnly bs _ pa)

theorem capture_writeOnly (s : State) (lid pa : Nat) : WriteOnly s (s.capture lid pa) := by
  unfold State.capture
  dsimp only
  repeat' split
  all_goals exact rfl

theorem noteLanding_writeOnly (s : State) (x : Command) : WriteOnly s (s.noteLanding x) := rfl

theorem performWrite_writeOnly (s : State) (x : Command) (w : EngineWrite) : WriteOnly s (s.performWrite x w) := by
  have hbytes := (capture_writeOnly s (s.nameOf x.t).lid w.pa).trans (homeBytes_writeOnly _ w.pa [w.byte])
  have hnote := hbytes.trans (noteLanding_writeOnly _ x)
  unfold State.performWrite
  exact hnote.trans (WriteOnly.landed _ _ _)

theorem settleByte_writeOnly (s : State) (pa : Nat) : WriteOnly s (s.settleByte pa) := by
  unfold State.settleByte
  dsimp only
  split
  · exact WriteOnly.refl s
  · have hf (u : State) (e : Command × EngineWrite) : WriteOnly u (u.performWrite e.1 e.2) := performWrite_writeOnly u e.1 e.2
    exact (WriteOnly.commands s _).trans (WriteOnly.foldl hf _ _)

theorem settle_writeOnly (s : State) (pa n : Nat) : WriteOnly s (s.settle pa n) :=
  WriteOnly.foldl (fun u k => settleByte_writeOnly u (pa + k)) _ s

theorem deviceStore_writeOnly (s : State) (pa : Nat) (bs : List Byte) : WriteOnly s (s.deviceStore pa bs) :=
  ((place_writeOnly s).trans (settle_writeOnly s.place pa bs.length)).trans (homeBytes_writeOnly _ pa bs)

theorem pieceFailed_writeOnly (s : State) (die lid : Nat) (va : VAddr) : WriteOnly s (s.pieceFailed die lid va) := by
  have hcount := (count_coreOnly (s.machineCheck die 9) (checkCore die) 0x0E 1 { Name.none with lid := lid } false).quiet.1
  unfold State.pieceFailed State.reportNone WriteOnly
  rw [count_cores]
  rfl

theorem deviceTranslate_writeOnly (s : State) (die cn : Nat) (need : Need) (va : VAddr) :
    WriteOnly s (s.deviceTranslate die cn need va).2 := by
  have h := (translate_keptOnly { s with gives := [] } die cn need va).1
  unfold State.deviceTranslate WriteOnly
  dsimp only
  rw [h]

theorem devicePiece_writeOnly (s : State) (die cn lid : Nat) (va : VAddr) (bs : List Byte) : WriteOnly s (s.devicePiece die cn lid va bs) := by
  have h := deviceTranslate_writeOnly s die cn needWrite va
  unfold State.devicePiece
  split <;> rename_i hq <;> rw [hq] at h
  · split
    · exact h.trans (pieceFailed_writeOnly _ _ _ _)
    · exact h.trans (deviceStore_writeOnly _ _ _)
  · exact h.trans (pieceFailed_writeOnly _ _ _ _)

theorem devicePieces_writeOnly (s : State) (die cn lid : Nat) (base : VAddr) (ps : List (Nat × List Byte)) :
    WriteOnly s (s.devicePieces die cn lid base ps) := by
  have hf (u : State) (p : VAddr × List Byte) : WriteOnly u (u.devicePiece die cn lid p.1 p.2) := devicePiece_writeOnly u die cn lid p.1 p.2
  exact WriteOnly.foldl hf _ s

end Sys2Proof.Machine
end

section
/-! SUPPORT. Work, invocations and result buffers (R283, R328 to R348) in a group of one thread; O35, O36 and O37. -/

namespace Sys2Proof.Machine

theorem exec_launch (f : XF) (s : State) : exec (.launch f) s = execLaunch f s := rfl
theorem exec_spawn (f : XF) (s : State) : exec (.spawn f) s = execSpawn f s := rfl
theorem exec_edrain (f : XF) (s : State) : exec (.edrain f) s = execEdrain f s := rfl
theorem exec_rret (f : XF) (s : State) : exec (.rret f) s = execRret f s := rfl
theorem exec_rinv_reply {f : RinvF} (hv : f.var = 2) (s : State) : exec (.rinv f) s = rinvReply f s := if_pos hv
theorem exec_rinv_send {f : RinvF} (hv : f.var ≠ 2) (s : State) : exec (.rinv f) s = rinvSend f s := if_neg hv
theorem exec_hndalloc (f : XF) (s : State) : exec (.hndalloc f) s = execHndalloc f s := rfl
theorem exec_hndpass (f : XF) (s : State) : exec (.hndpass f) s = handOver 2 f s := rfl
theorem exec_hndfree (f : XF) (s : State) : exec (.hndfree f) s = handOver 3 f s := rfl

/-! Invocations -/

/-- Settles O36: the bodies of rinv and rret, by the free slot, the owed token and the named slot. -/
theorem invocationsAndRepliesExecute : Obligations.InvocationsAndRepliesExecute := by
  unfold Obligations.InvocationsAndRepliesExecute
  intro s n g t x m r
  refine ⟨fun f hv => ?_, fun f hv => ?_, fun f => ?_⟩
  · intro sh h receiver
    have hx : (s.resumed n).thread t = some x := h.thread
    have hm : (s.resumed n).teamOf t = some m := h.teamOf
    have ha := h.answers (exec_rinv_send hv s)
    simp only [hx, hm] at ha
    refine ⟨fun k hk => ha.commits ?_, fun hk => ha.traps ?_⟩
    · simp only [hk]
      rfl
    · simp only [hk]
      rfl
  · intro sh h token
    have hx : (s.resumed n).thread t = some x := h.thread
    have hm : (s.resumed n).teamOf t = some m := h.teamOf
    have hcore : (s.resumed n).coreOf t = m.core := h.coreOf
    have ha := h.answers (exec_rinv_reply hv s)
    simp only [hx, hm, hcore, List.contains_iff_mem] at ha
    exact ⟨fun hmem => ha.commits (if_pos hmem), fun hmem => ha.traps (if_neg hmem)⟩
  · intro sh h token slot dest named
    have hx : (s.resumed n).thread t = some x := h.thread
    have hm : (s.resumed n).teamOf t = some m := h.teamOf
    have ha := h.answers (exec_rret f s)
    simp only [hx, hm, h.pcAt] at ha
    have hunclaimed : (named.filter fun q => q.claim.isNone) = (m.slotFor (s.resumed n).deviceNumber t.team
        (arg64 (s.valuesOf sh t) 0)).filter fun q => q.claim.isNone := rfl
    refine ⟨fun hnamed => ha.traps ?_, fun q hq hclaim => ⟨fun hreply => ha.commits ?_, fun st v why hreply => ha.commits ?_⟩⟩
    · have hnone : (named.filter fun q => q.claim.isNone) = none := by
        rcases hnamed with hnamed | ⟨q, hnamed, hq⟩
        · rw [hnamed]
          rfl
        · rw [hnamed, Option.filter_some, if_neg (by simpa using Option.isSome_iff_ne_none.mp hq)]
      simp only [← hunclaimed, hnone]
      rfl
    · have hsome : (named.filter fun q => q.claim.isNone) = some q := by rw [hq, Option.filter_some, if_pos (by simp [hclaim])]
      simp only [← hunclaimed, hsome, hreply]
      rfl
    · have hsome : (named.filter fun q => q.claim.isNone) = some q := by rw [hq, Option.filter_some, if_pos (by simp [hclaim])]
      simp only [← hunclaimed, hsome, hreply]
      rfl

/-! Result buffers -/

/-- A buffer named with the passed ones left out is one of the team's own field role. -/
theorem bufferNamed_own {s : State} {m : Team} {h : DWord} {a : Nat} {p : Bool} (hn : s.bufferNamed m h false = some (a, p)) : p = false := by
  unfold State.bufferNamed at hn
  split at hn
  · cases hn
  · dsimp only at hn
    split at hn
    · cases hn
    · split at hn
      · exact (congrArg Prod.snd (Option.some.inj hn)).symm
      · simp at hn

section
variable {f : XF} {s : State} {n : Nat} {g : Group} {t : ThreadId} {x : Thread} {m : Team}

theorem handOver_answers (h : Solo s n g t x m { guard := f.g, srcs := [.pair f.a false] }) {i : Instr} {kind : Nat}
    (hi : exec i s = handOver kind f s) :
    (s.bufferNamed m (arg64 (s.valuesOf { guard := f.g, srcs := [.pair f.a false] } t) 0) (kind == 3) = none →
      Traps i s n g t 0x182 [] (s.resumed n))
    ∧ (∀ a p, s.bufferNamed m (arg64 (s.valuesOf { guard := f.g, srcs := [.pair f.a false] } t) 0) (kind == 3) = some (a, p) →
      let without := (s.resumed n).alterTeam t.team fun m => { m with fm := m.fm.filter fun b => decide (b ≠ a) }
      Engages i s n t { guard := f.g, srcs := [.pair f.a false] }
        ((if p then without.setArray m.core a { s.array m.core a with buffer := false } else without).beginResize t.team ⟨t.t, kind, [a], none⟩)) := by
  have hm : (s.resumed n).teamOf t = some m := h.teamOf
  have ha := h.answers hi
  have hnamed (v : DWord) (b : Bool) : (s.resumed n).bufferNamed m v b = s.bufferNamed m v b := rfl
  simp only [hm, hnamed] at ha
  refine ⟨fun hn => ha.traps ?_, fun a p hn => ha.engages ?_⟩
  · simp only [hn]
  · simp only [hn]
    rfl

end

/-- Settles O37: hndalloc by the conditions of its array, hndpass and hndfree by `handOver_answers`. -/
theorem resultBuffersAreHanded : Obligations.ResultBuffersAreHanded := by
  unfold Obligations.ResultBuffersAreHanded
  intro f s n g t x m r
  constructor
  · intro sh h a y fits
    have hm : (s.resumed n).teamOf t = some m := h.teamOf
    have ha := h.answers (exec_hndalloc f s)
    simp only [hm] at ha
    have hfits : (!m.inField a || y.tie.isSome || y.compute || decide (y.requests ≠ []) || y.buffer) = false ↔ fits := by
      simp [fits, and_assoc]
    refine ⟨fun hf => ha.commits (if_neg (Bool.eq_false_iff.mp (hfits.mpr hf))), fun hf => ha.traps (if_pos ?_)⟩
    exact (Bool.not_eq_false _).mp fun hn => hf (hfits.mp hn)
  · intro sh h v out without hidden
    obtain ⟨hpassNone, hpass⟩ := handOver_answers h (exec_hndpass f s)
    obtain ⟨hfreeNone, hfree⟩ := handOver_answers h (exec_hndfree f s)
    refine ⟨fun a p hn => ?_, hpassNone, fun a => hfree a false, fun a => hfree a true, hfreeNone⟩
    obtain rfl := bufferNamed_own hn
    exact hpass a false hn

/-! launch -/

theorem queueUnits_grids (s : State) (lid : Nat) (r : Record) (us : List (Nat × Nat)) : (s.queueUnits lid r us).grids = s.grids := by
  unfold State.queueUnits
  induction us generalizing s with
  | nil => rfl
  | cons u us ih => exact ih _

/-- An accepted grid is live under its LID, in the context that launched it (R329). -/
theorem acceptGrid_grid (s : State) (die cn : Nat) (r : Record) (ds : List Nat) (pass : Option Nat) :
    ∃ gr, Table.find (s.acceptGrid die cn r ds pass).2.grids (s.acceptGrid die cn r ds pass).1 = some gr ∧ gr.cn = cn := by
  refine ⟨gridOf cn r s.newLid.2.dtime pass, ?_, rfl⟩
  unfold State.acceptGrid
  dsimp only
  rw [queueUnits_grids]
  split
  · simp only [State.alterContext_grids, Table.find_put, if_true]
  · rw [(devicePieces_writeOnly _ _ _ _ _ _).grids]
    simp only [State.alterContext_grids, Table.find_put, if_true]

/-- A launch of status 0 leaves a live grid of the context that launched it under the LID that it writes (R331). -/
theorem launchBy_grid {s u : State} {one : State → VAddr → Nat → Piece} {die cn lid : Nat} {va : VAddr} {pass : Option Nat}
    (h : s.launchBy one die cn va pass = some (0, lid, u)) : ∃ gr, Table.find u.grids lid = some gr ∧ gr.cn = cn := by
  unfold State.launchBy at h
  split at h
  · cases h
  · cases h
  · dsimp only at h
    split at h
    · rename_i hst
      exact absurd (congrArg Prod.fst (Option.some.inj h)) hst
    · cases h
      exact acceptGrid_grid _ _ _ _ _ _

/-- Settles O35: the bodies of the three instructions by their branches, and `launchBy_grid` for the grid of a launch. -/
theorem workIsLaunchedSpawnedAndDrained : Obligations.WorkIsLaunchedSpawnedAndDrained := by
  unfold Obligations.WorkIsLaunchedSpawnedAndDrained
  refine ⟨⟨?_, ?_⟩, ?_⟩
  · intro f s n g t x m sh h va r read given
    have hcore : (s.resumed n).coreOf t = m.core := h.coreOf
    have hcn : (s.resumed n).cnOf t = m.cn := h.cnOf
    have ha := h.answers (exec_launch f s)
    simp only [hcore, hcn] at ha
    refine ⟨fun hodd => ?_, fun heven hread => ha.waits (u := s.resumed n) ?_ (.inr rfl), fun heven st lid u hread => ?_⟩
    · simp only [if_pos (show (arg64 (s.valuesOf sh t) 0).toNat % 8 ≠ 0 from hodd)] at ha
      exact ⟨fun hlo => ha.commits (if_neg fun hn => Bool.false_ne_true (hlo.symm.trans hn.2)), fun hlo => ha.traps (if_pos ⟨by decide, hlo⟩)⟩
    · rw [if_neg (not_not.mpr heven)]
      simp only [show (s.resumed n).launchBy (readAsThread t) m.core.die m.cn (addressOf (arg64 (s.valuesOf sh t) 0)) none = none from hread,
        State.closedHold, hcn]
      rfl
    · rw [if_neg (not_not.mpr heven)] at ha
      simp only [show (s.resumed n).launchBy (readAsThread t) m.core.die m.cn (addressOf (arg64 (s.valuesOf sh t) 0)) none = some (st, lid, u)
        from hread] at ha
      refine ⟨fun hgo => ha.commits (if_neg ?_), fun hst hlo => ha.traps (if_pos ⟨hst, hlo⟩), fun hst => launchBy_grid (hst ▸ hread)⟩
      rintro ⟨hst, hlo⟩
      exact hgo.elim hst fun hn => Bool.false_ne_true (hn.symm.trans hlo)
  · intro f s n g t x m sh h k d entry paid given refuses
    have hx : (s.resumed n).thread t = some x := h.thread
    have hm : (s.resumed n).teamOf t = some m := h.teamOf
    have hk : (s.resumed n).core m.core = s.core m.core := rfl
    have hd : (s.resumed n).die m.core.die = s.die m.core.die := rfl
    have ha := h.answers (exec_spawn f s)
    simp only [hx, hm, hk, hd] at ha
    refine ⟨fun hearly => ha.waits (if_pos hearly) (.inr rfl), fun hdue => ?_⟩
    rw [if_neg (show ¬ (s.core m.core).clk < (s.core m.core).spawnAt from Nat.not_lt.mpr hdue)] at ha
    have hrefuse {st : Nat} (hr : Answers (.spawn f) s n g t sh (if f.lo.getLsbD 0 = true then .trap 0x181 [BitVec.ofNat 64 st] paid
        else .done (given paid st))) : refuses st :=
      ⟨fun hlo => hr.commits (if_neg fun hn => Bool.false_ne_true (hlo.symm.trans hn)), fun hlo => hr.traps (if_pos hlo)⟩
    refine ⟨fun hbin => ?_, fun i bin hbin => ?_⟩
    · simp only [show (s.die m.core.die).binFor m.cn (addressOf (arg64 (s.valuesOf sh t) 0)) = none from hbin] at ha
      exact hrefuse ha
    · simp only [show (s.die m.core.die).binFor m.cn (addressOf (arg64 (s.valuesOf sh t) 0)) = some (i, bin) from hbin] at ha
      refine ⟨fun hbig => ?_, fun hfits => ?_⟩
      · rw [if_pos hbig] at ha
        exact hrefuse ha
      rw [if_neg (Nat.not_lt.mpr hfits)] at ha
      refine ⟨fun hempty => ha.waits (if_pos (by simp [hempty])) (.inr rfl), fun hready hfull => ?_, fun hready hroom => ha.commits ?_⟩
      · rw [if_neg (by simp [hready]), if_pos hfull] at ha
        exact hrefuse ha
      · rw [if_neg (by simp [hready]), if_neg (by simp [hroom])]
        rfl
  · intro f s n g t x m sh r placed h
    have hx : (s.resumed n).thread t = some x := h.thread
    have ha := h.answers (exec_edrain f s)
    simp only [hx] at ha
    refine ⟨fun hbusy => ha.waits (if_pos hbusy) (.inr rfl), fun hdone hlo hcount => ?_, fun hdone hgo => ?_⟩
    · rw [if_neg (fun hn => Bool.false_ne_true ((show (s.resumed n).undrained t = false from hdone).symm.trans hn))] at ha
      exact ha.traps (if_pos ⟨hlo, hcount⟩)
    · rw [if_neg (fun hn => Bool.false_ne_true ((show (s.resumed n).undrained t = false from hdone).symm.trans hn))] at ha
      refine ha.commits (if_neg ?_)
      rintro ⟨hlo, hcount⟩
      exact hgo.elim (fun hn => Bool.false_ne_true (hn.symm.trans hlo)) hcount

end Sys2Proof.Machine
end

section
/-! SUPPORT. Atomic operations (R195, R257 to R261): what a write leaves of the threads' registers, the bytes and the reply of an atomic, the new words; O18. -/

namespace Sys2Proof.Machine

/-! The registers of threads under writes to memory -/

/-- The registers and predicates of a thread, and which registers are empty. -/
def Thread.file (x : Thread) : Sparse 32 × BitVec 8 × List Nat := (x.regs, x.preds, x.empties)

/-- No register or predicate of any thread changes. -/
def FilesKept (s u : State) : Prop := ∀ id, (u.thread id).map Thread.file = (s.thread id).map Thread.file

theorem FilesKept.refl (s : State) : FilesKept s s := fun _ => rfl

theorem FilesKept.trans {s u v : State} (h : FilesKept s u) (h' : FilesKept u v) : FilesKept s v := fun id => (h' id).trans (h id)

theorem FilesKept.of_threads {s u : State} (h : u.threads = s.threads) : FilesKept s u := fun id => by rw [State.thread, h]; rfl

theorem FilesKept.foldl {α : Type} {f : State → α → State} (hf : ∀ u a, FilesKept u (f u a)) (l : List α) (s : State) :
    FilesKept s (l.foldl f s) := by
  induction l generalizing s with
  | nil => exact FilesKept.refl s
  | cons a l ih => exact (hf s a).trans (ih _)

theorem FilesKept.of_alter {s u : State} {t : ThreadId} {f : Thread → Thread} (hu : u.threads = Table.alter s.threads t f)
    (hf : ∀ x, (f x).file = x.file) : FilesKept s u := by
  intro id
  have hfind : u.thread id = (s.alterThread t f).thread id := by rw [State.thread, hu]; rfl
  rw [hfind, State.alterThread_thread]
  split
  next h =>
    rw [Option.map_map, h]
    exact congrArg (fun h => Option.map h (s.thread t)) (funext hf)
  next => rfl

theorem CacheAndTime.filesKept {s u : State} (h : CacheAndTime s u) : FilesKept s u := by
  intro id
  obtain ⟨f, hf⟩ := h.2 id
  rw [hf, Option.map_map]
  rfl

theorem putBytes_threads (bs : List Byte) : ∀ (s : State) (pa : Nat), (s.putBytes pa bs).threads = s.threads := by
  induction bs with
  | nil => exact fun _ _ => rfl
  | cons b bs ih => exact fun s pa => (ih (s.putByte pa b) (pa + 1)).trans rfl

theorem capture_threads (s : State) (lid pa : Nat) : (s.capture lid pa).threads = s.threads := by
  unfold State.capture
  dsimp only
  repeat' split
  all_goals rfl

theorem Table.find_mapKeyed {κ ν : Type} [DecidableEq κ] (l : Table κ ν) (f : κ → ν → ν) (k : κ) :
    Table.find (l.map fun e => (e.1, f e.1 e.2)) k = (Table.find l k).map (f k) := by
  induction l with
  | nil => rfl
  | cons e l ih =>
    obtain ⟨k', v⟩ := e
    simp only [List.map_cons, Table.find]
    split
    next h => rw [h]; rfl
    next => exact ih

/-- The threads for which an engine write had landed see no older copy any more: their timestamps change (R253). -/
theorem FilesKept.stamped (s : State) (l : List Landing) (f : ThreadId → Thread → Thread) (hf : ∀ id x, (f id x).file = x.file) :
    FilesKept s { s with past := l, threads := s.threads.map fun e => (e.1, f e.1 e.2) } := by
  intro id
  refine (congrArg (Option.map Thread.file) (Table.find_mapKeyed s.threads f id)).trans ?_
  rw [Option.map_map]
  exact congrArg (fun h => Option.map h (s.thread id)) (funext (hf id))

theorem noteLanding_filesKept (s : State) (x : Command) : FilesKept s (s.noteLanding x) :=
  FilesKept.of_alter rfl fun _ => rfl

theorem performWrite_filesKept (s : State) (x : Command) (w : EngineWrite) : FilesKept s (s.performWrite x w) := by
  have hbytes : FilesKept s ((s.capture (s.nameOf x.t).lid w.pa).homeBytes w.pa [w.byte]) :=
    FilesKept.of_threads ((putBytes_threads _ _ _).trans (capture_threads _ _ _))
  have hnote := hbytes.trans (noteLanding_filesKept _ x)
  unfold State.performWrite
  refine hnote.trans (FilesKept.stamped _ _ (fun id y => if State.landedFor _ x w _ id then { y with ts := tsMax y.ts _ } else y) fun id y => ?_)
  split <;> rfl

theorem settleByte_filesKept (s : State) (pa : Nat) : FilesKept s (s.settleByte pa) := by
  have hf (u : State) (e : Command × EngineWrite) : FilesKept u (u.performWrite e.1 e.2) := performWrite_filesKept u e.1 e.2
  unfold State.settleByte
  dsimp only
  split
  · exact FilesKept.refl s
  · refine FilesKept.trans ?_ (FilesKept.foldl hf _ _)
    exact FilesKept.of_threads rfl

theorem settle_filesKept (s : State) (pa n : Nat) : FilesKept s (s.settle pa n) :=
  FilesKept.foldl (fun u k => settleByte_filesKept u (pa + k)) _ s

theorem homeWrite_filesKept (s : State) (t : ThreadId) (va : VAddr) (pa : Nat) (u : CacheUse) : FilesKept s (s.homeWrite t va pa u) := by
  unfold State.homeWrite
  split
  next => exact FilesKept.refl s
  next x _ =>
    have hcache (r w : BitVec 48) := ((countPage_cacheOnly s (s.asker t va).core.die pa true).trans
      ((useHome_cacheOnly _ (s.asker t va) pa u (s.classFor t va) true).trans (storeL1_cacheOnly _ (s.asker t va).core pa u r w))).timed.filesKept
    refine (hcache (s.leaseOf pa).1 (tsMax x.ts (tsMax (s.leaseOf pa).1 (s.leaseOf pa).2 + 1))).trans ?_
    exact FilesKept.of_alter rfl fun _ => rfl

theorem writeHere_filesKept (s : State) (t : ThreadId) (va : VAddr) (pa : Nat) (bs : List Byte) (u : CacheUse) :
    FilesKept s (s.writeHere t va pa bs u) :=
  ((FilesKept.of_threads (capture_threads s _ pa)).trans (homeWrite_filesKept _ t va pa u)).trans (FilesKept.of_threads (putBytes_threads bs _ pa))

/-! The bytes and the reply of an atomic -/

/-- Where no engine write to a byte has landed for some threads alone, settling it changes nothing (R253). -/
theorem settleByte_of_none {s : State} {pa : Nat} (h : ∀ e ∈ s.commands, ∀ w ∈ e.2.writes, w.pa = pa → w.lands = []) : s.settleByte pa = s := by
  have hany : (s.commands.any fun e => e.2.writes.any fun w => w.pa == pa && !w.lands.isEmpty) = false := by
    simp only [List.any_eq_false, Bool.and_eq_true, beq_iff_eq, Bool.not_eq_true', List.any_eq_true, not_exists, not_and, Bool.not_eq_false]
    intro e he w hw hpa
    rw [h e he w hw hpa]
    rfl
  unfold State.settleByte
  dsimp only
  rw [hany]

theorem settle_of_none {s : State} {pa n : Nat} (h : ∀ e ∈ s.commands, ∀ w ∈ e.2.writes, pa ≤ w.pa → w.pa < pa + n → w.lands = []) :
    s.settle pa n = s := by
  unfold State.settle
  suffices hl : ∀ l : List Nat, (∀ k ∈ l, k < n) → l.foldl (fun (s : State) k => s.settleByte (pa + k)) s = s from
    hl _ fun k hk => List.mem_range.mp hk
  intro l hl
  induction l with
  | nil => rfl
  | cons k l ih =>
    have hk := hl k List.mem_cons_self
    rw [List.foldl_cons, settleByte_of_none fun e he w hw hpa => h e he w hw (by omega) (by omega)]
    exact ih fun j hj => hl j (List.mem_cons_of_mem _ hj)

/-- The new word of an atomic on `n` bytes, which are 4 or 8 (R257). -/
def atomicWord (n op old v cmp : Nat) : DWord :=
  if n = 4 then (atomicNew op (BitVec.ofNat 32 old) (BitVec.ofNat 32 v) (BitVec.ofNat 32 cmp)).zeroExtend 64
  else atomicNew op (BitVec.ofNat 64 old) (BitVec.ofNat 64 v) (BitVec.ofNat 64 cmp)

theorem atomicAt_eq (s : State) (t : ThreadId) (va : VAddr) (pa n op v cmp : Nat) :
    s.atomicAt t va pa n op v cmp = ((s.place.settle pa n).mem.num pa n, (s.place.settle pa n).writeHere t va pa
      (bytesOf (atomicWord n op ((s.place.settle pa n).mem.num pa n) v cmp) n) .vol) := by
  unfold State.atomicAt atomicWord
  dsimp only
  split
  · rw [BitVec.ofNat_toNat]
  · rw [BitVec.ofNat_toNat, BitVec.setWidth_eq]

section
variable {s : State} {t : ThreadId} {x : Thread} {va : VAddr} {pa n op v cmp : Nat} {dest : List Nat} (he : s.errorAt pa = none)
include he

theorem issueAtomic_of_none : s.issueAtomic t va (.ok pa) n op v cmp [] = (s.atomicAt t va pa n op v cmp).2 := by
  simp only [State.issueAtomic, State.errorOf, he, if_true, placeAddr]

theorem issueAtomic_of_dest (hd : dest ≠ []) : s.issueAtomic t va (.ok pa) n op v cmp dest =
    ((s.atomicAt t va pa n op v cmp).2.alterThread t fun x => x.markEmpty dest).issueAccess
      ⟨t, (s.atomicAt t va pa n op v cmp).2.coreOf t, splitWords dest (BitVec.ofNat 64 (s.atomicAt t va pa n op v cmp).1), none, [], none,
        s.pcAt t, va, pa, true, none⟩ := by
  simp only [State.issueAtomic, State.errorOf, he, if_neg hd, placeAddr]

theorem issueAtomic_byte (a : Nat) : (s.issueAtomic t va (.ok pa) n op v cmp dest).byte a = (s.atomicAt t va pa n op v cmp).2.byte a := by
  by_cases hd : dest = []
  · rw [hd, issueAtomic_of_none he]
  · rw [issueAtomic_of_dest he hd]
    rfl

end

/-- The bytes of an atomic become those of the new word; no other byte changes (R259). -/
theorem atomicAt_byte {s : State} (hr : s.replay = none) (t : ThreadId) (va : VAddr) (pa n op v cmp a : Nat) :
    (s.atomicAt t va pa n op v cmp).2.byte a = if pa ≤ a ∧ a < pa + n
      then byteOf (atomicWord n op ((s.place.settle pa n).mem.num pa n) v cmp) (a - pa) else s.byte a := by
  obtain ⟨hreplay, hbyte⟩ := (settle_keeps s.place pa n).2 hr
  rw [atomicAt_eq, writeHere_byte hreplay]
  have hlen : (bytesOf (atomicWord n op ((s.place.settle pa n).mem.num pa n) v cmp) n).length = n := by simp [bytesOf]
  rw [hlen]
  split
  · rename_i h
    simp [bytesOf, List.getD_eq_getElem?_getD, List.getElem?_range (show a - pa < n by omega)]
  · rename_i h
    exact hbyte a h

/-- The reply of an atomic carries the old value to its registers, which are empty until then (R119, R259). -/
theorem issueAtomic_reply {s : State} {t : ThreadId} {x : Thread} {va : VAddr} {pa n op v cmp : Nat} {dest : List Nat}
    (he : s.errorAt pa = none) (hx : s.thread t = some x) (hd : dest ≠ []) :
    ∃ y k a, (s.issueAtomic t va (.ok pa) n op v cmp dest).thread t = some y ∧ y.regs = x.regs ∧ y.preds = x.preds
      ∧ y.empties = NatSet.addAll x.empties dest ∧ Table.find (s.issueAtomic t va (.ok pa) n op v cmp dest).accesses k = some a
      ∧ a.t = t ∧ a.err = none ∧ a.words = splitWords dest (BitVec.ofNat 64 ((s.place.settle pa n).mem.num pa n)) := by
  have hfile : FilesKept s (s.atomicAt t va pa n op v cmp).2 := by
    rw [atomicAt_eq]
    exact (FilesKept.of_threads (u := s.place) rfl).trans ((settle_filesKept s.place pa n).trans (writeHere_filesKept _ t va pa _ _))
  have hfile := hfile t
  rw [hx] at hfile
  obtain ⟨y, hy, hkept⟩ := Option.map_eq_some_iff.mp hfile
  obtain ⟨hregs, hpreds, hempties⟩ : y.regs = x.regs ∧ y.preds = x.preds ∧ y.empties = x.empties := by
    simpa only [Thread.file, Prod.mk.injEq] using hkept
  rw [issueAtomic_of_dest he hd]
  refine ⟨y.markEmpty dest, (s.atomicAt t va pa n op v cmp).2.fresh, _, ?_, hregs, hpreds, ?_, (Table.find_put ..).trans (if_pos rfl), rfl, rfl, ?_⟩
  · refine (State.alterThread_thread (s.atomicAt t va pa n op v cmp).2 t t _).trans ?_
    rw [if_pos rfl, hy]
    rfl
  · rw [Thread.markEmpty, hempties]
  · rw [atomicAt_eq]

/-! atom and red -/

theorem memory_commits {i : Instr} {s : State} {n : Nat} {g : Group} {t : ThreadId} {x : Thread} {m : Team} {sh : Shape}
    {body : State → ThreadId → List DWord → Attempt} {va : VAddr} {size : Nat} {mis : Cause} {need : Need} {rest : State → Place → Attempt}
    (h : Solo s n g t x m sh) (hi : exec i s = runGroup s sh body)
    (hbody : body (s.resumed n) t (s.valuesOf sh t) = (s.resumed n).withMemory t va size mis need rest)
    (ha : va.toNat % size = 0) {q : Place} {r : Translation} (hq : q.Given r) {u v : State}
    (htr : (s.resumed n).translate m.core.die m.cn need va = (r, u)) (hdone : rest u q = .done v) : Commits i s n t sh v :=
  hi.trans (runGroup_solo_done h (hbody.trans ((withMemory_of_place (s := s.resumed n) h.coreOf h.cnOf ha hq htr).trans hdone)))

theorem atomicNew_add {w : Nat} (old v cmp : BitVec w) : atomicNew 0 old v cmp = BitVec.ofNat w (old.toNat + v.toNat) := by
  refine BitVec.eq_of_toNat_eq ?_
  rw [BitVec.toNat_ofNat]
  exact BitVec.toNat_add old v

/-- The orders, signed and unsigned, give the lesser or the greater of the two (R257). -/
theorem atomicNew_orders {w : Nat} (old v cmp : BitVec w) :
    (atomicNew 2 old v cmp).toInt = min old.toInt v.toInt ∧ (atomicNew 3 old v cmp).toNat = min old.toNat v.toNat
    ∧ (atomicNew 4 old v cmp).toInt = max old.toInt v.toInt ∧ (atomicNew 5 old v cmp).toNat = max old.toNat v.toNat := by
  refine ⟨?_, ?_, ?_, ?_⟩
  all_goals
    simp only [atomicNew]
    split
    all_goals omega

/-- Settles O18: `memory_commits` for the two instructions, `atomicAt_byte` and `issueAtomic_reply` for what an atomic leaves, and the words of `atomicNew`. -/
theorem atomicsExecute : Obligations.AtomicsExecute := by
  unfold Obligations.AtomicsExecute
  refine ⟨fun f s n g t x m => ?_, fun s t x va pa n op v cmp dest hn hx he hr => ?_, fun old v cmp => rfl, fun w old v cmp hw => ?_⟩
  · intro size w r cas atomShape redShape
    constructor
    · intro h va value ha p u htr issued
      have hx : u.thread t = some x := (translate_thread htr t).trans h.thread
      have hrun {q : Place} (hq : q.Given (.ok p)) : Commits (.atom f) s n t atomShape (issued q) := by
        refine memory_commits h (exec_atom f s) rfl ha hq htr ?_
        simp only [hx]
        rfl
      exact ⟨fun pa hp => hrun (hp ▸ .hbm pa), fun c hp => hrun (hp ▸ .failed c)⟩
    · intro h vs va ha p u htr issued
      have hrun {q : Place} (hq : q.Given (.ok p)) : Commits (.red f) s n t redShape (issued q) :=
        memory_commits h (exec_red f s) rfl ha hq htr rfl
      exact ⟨fun pa hp => hrun (hp ▸ .hbm pa), fun c hp => hrun (hp ▸ .failed c)⟩
  · intro old new u
    have hbyte (a : Nat) := (issueAtomic_byte (dest := dest) he a).trans (atomicAt_byte hr t va pa n op v cmp a)
    refine ⟨fun k hk => ?_, fun a ha => ?_, fun hland => ?_, fun hd => issueAtomic_reply he hx hd⟩
    · refine (hbyte (pa + k)).trans ?_
      rw [if_pos ⟨by omega, by omega⟩, Nat.add_sub_cancel_left]
      rfl
    · exact (hbyte a).trans (if_neg (by omega))
    · exact (congrArg (fun u : State => u.mem.num pa n) (settle_of_none (s := s.place) hland)).trans rfl
  · obtain ⟨hmin, hminu, hmax, hmaxu⟩ := atomicNew_orders old v cmp
    exact ⟨atomicNew_add old v cmp, hmin, hminu, hmax, hmaxu, rfl, rfl, rfl, rfl, rfl⟩

end Sys2Proof.Machine
end

section
/-! SUPPORT. Pending teams, bins and retirement (R91, R333 to R337); O51. -/

namespace Sys2Proof.Machine

theorem exec_teamStart (die n : Nat) (c : CoreId) (s : State) : exec (.teamStart die n c) s = execTeamStart die n c s := rfl
theorem exec_teamRetire (n : Nat) (s : State) : exec (.teamRetire n) s = execTeamRetire n s := rfl
theorem exec_coresPending100us (n : Nat) (s : State) : exec (.coresPending100us n) s = execCoresPending100us n s := rfl
theorem exec_binTimerExpiry (die n : Nat) (s : State) : exec (.binTimerExpiry die n) s = .next (s.settleBin die n) := rfl
theorem exec_binload (die : Nat) (v : DWord) (s : State) : exec (.binload die v) s = .next (s.loadBin die v) := rfl

/-! Pending teams -/

section
variable {s : State} {die n : Nat} {p : Pending} {c : CoreId}
  (hq : ((s.settleBins die).die die).queue.find? (fun p => p.n == n) = some p)
include hq

theorem teamStart_of_later (ht : (s.settleBins die).turnOf die p = false) : exec (.teamStart die n c) s = .next (s.settleBins die) := by
  rw [exec_teamStart]
  simp only [execTeamStart, hq, ht, Bool.not_false, if_true]

theorem teamStart_of_turn (ht : (s.settleBins die).turnOf die p = true) : exec (.teamStart die n c) s =
    .next (((s.settleBins die).tryStart die p).elim (s.settleBins die) fun r => if r.1 = c then r.2 else s.settleBins die) := by
  rw [exec_teamStart]
  simp only [execTeamStart, hq, ht, Bool.not_true, Bool.false_eq_true, if_false]
  cases (s.settleBins die).tryStart die p <;> rfl

end

/-- The unit of a grid that need not start at once starts at the places found for its teams (R324, R335). -/
theorem tryStart_of_unit {s : State} {die lid b0 : Nat} {p : Pending} {g : Grid} {a : Allot} {as : List Allot}
    (ho : p.origin = .grid lid b0) (hg : Table.find s.grids lid = some g) (hcor : g.record.cor = false)
    (hplace : s.placeUnit die g.cn g.record = some (a :: as)) :
    s.tryStart die p = some (a.core, (s.alterDie die fun d => { d with queue := d.queue.filter fun q => q.n != p.n }).startUnit
      lid b0 g ((List.range (as.length + 1)).zip (a :: as))) := by
  have hlid : s.lidOf p = some lid := by simp only [State.lidOf, ho]
  simp only [State.tryStart, hlid, ho, Option.bind_some, hg, Option.any_some, hcor, State.startPending, hplace, Option.map_some,
    List.head?_cons, Option.getD_some, List.length_cons]

/-- A team with a thread that has not exited cannot retire (R91). -/
theorem retirable_of_live {s : State} {n t : Nat} {m : Team} {x : Thread} (hx : s.thread ⟨n, t⟩ = some x) (hlive : x.gone = false) :
    s.retirable n m = false := by
  have hall : (s.threads.all fun e => decide (e.1.team ≠ n) || e.2.gone) = false := by
    rw [List.all_eq_false]
    exact ⟨_, Table.mem_of_find hx, by simp [hlive]⟩
  rw [State.retirable, hall]
  rfl

/-! Grids and bins -/

theorem longPending_iff (s : State) (n : Nat) : s.longPending n = true ↔
    ∃ d ∈ s.dies, ∃ p ∈ d.2.queue, s.lidOf p = some n ∧ s.pendingSince p + 100000 ≤ s.dtime := by
  simp [State.longPending]

/-- A wait of 1 ms is noted with the time at which it was reached (R335). -/
theorem dispatchWait1ms_notes (s : State) (die n : Nat) : exec (.dispatchWait1ms die n) s =
    .next (s.alterDie die fun d => { d with queue := d.queue.map fun p =>
      if p.n = n ∧ p.since + 1000000 ≤ s.dtime then { p with aged := some (p.since + 1000000) } else p }) := by
  have hrun : exec (.dispatchWait1ms die n) s = execDispatchWait1ms die n s := rfl
  rw [hrun]
  simp only [execDispatchWait1ms, Bool.and_eq_true, beq_iff_eq, decide_eq_true_eq]

/-- Only a co-resident grid that has been pending for 100 µs begins to hold the dispatchers back (R337). -/
theorem coresPending100us_grid {s : State} {n : Nat} {g : Grid} (hg : Table.find s.grids n = some g) :
    ∃ u, exec (.coresPending100us n) s = .next u
      ∧ Table.find u.grids n = some { g with blocking := g.blocking || (g.record.cor && s.longPending n) }
      ∧ (∀ k, k ≠ n → Table.find u.grids k = Table.find s.grids k) ∧ u.threads = s.threads ∧ u.dies = s.dies := by
  refine ⟨_, exec_coresPending100us n s, (Table.find_alter ..).trans ?_, fun k hk => (Table.find_alter ..).trans (if_neg hk), rfl, rfl⟩
  rw [if_pos rfl, hg]
  rfl

section
variable {s : State} {die n : Nat} {b : Bin} (hb : Table.find (s.die die).bins n = some b)
include hb

theorem settleBin_of_unready (hr : (b.v && b.ready s.dtime) = false) : s.settleBin die n = s := by
  simp only [State.settleBin, hb, Option.map_some, Option.getD_some]
  cases b.held.length with
  | zero => rfl
  | succ k => simp only [State.formTeams, hb, hr, Bool.false_eq_true, if_false]

theorem settleBin_of_one (hlen : b.held.length = 1) (hv : b.v = true) (hr : b.ready s.dtime = true) :
    s.settleBin die n = s.formBinTeam die n b := by
  simp only [State.settleBin, hb, Option.map_some, Option.getD_some, hlen, State.formTeams, hv, hr, Bool.and_self, if_true]

end

/-- Settles O51: `teamStart_of_later` and `teamStart_of_turn` for a pending team, and the bodies of the other events. -/
theorem teamsStartAndRetire : Obligations.TeamsStartAndRetire := by
  unfold Obligations.TeamsStartAndRetire
  intro s die n r
  refine ⟨fun p c hq => ⟨teamStart_of_later hq, fun ht hstart => ?_, fun u ht hstart => ?_, fun lid b0 g as a ho hg hcor ht hplace hc => ?_⟩,
    fun m hm => ⟨fun hret => ?_, fun hret => ?_, fun t x => retirable_of_live⟩, ?_, fun g hg => ?_, fun b hb hr => ?_,
    fun b hb hlen hv hr => ?_, fun v => ⟨fun b u hb => ?_, fun hb => ?_⟩⟩
  · rw [teamStart_of_turn hq ht, show (s.settleBins die).tryStart die p = none from hstart]
    rfl
  · rw [teamStart_of_turn hq ht, show (s.settleBins die).tryStart die p = some (c, u) from hstart]
    exact congrArg Host.Outcome.next (if_pos rfl)
  · rw [teamStart_of_turn hq ht, tryStart_of_unit ho hg hcor hplace]
    exact congrArg Host.Outcome.next (if_pos hc)
  · rw [exec_teamRetire]
    simp only [execTeamRetire, hm, hret, if_true]
  · rw [exec_teamRetire]
    simp only [execTeamRetire, hm, hret, Bool.false_eq_true, if_false]
  · exact dispatchWait1ms_notes s die n
  · intro old
    obtain ⟨u, hu, hgrid, hothers, hthreads, hdies⟩ := coresPending100us_grid hg
    have hold : s.longPending n = true ↔ old := longPending_iff s n
    refine ⟨u, hu, fun hcor ho => ?_, fun hno => ?_, hothers, hthreads, hdies⟩
    · rw [hgrid, hcor, hold.mpr ho, Bool.and_self, Bool.or_true]
    · have hfalse : (g.record.cor && s.longPending n) = false := by
        rcases hno with hcor | ho
        · rw [hcor, Bool.false_and]
        · rw [Bool.eq_false_iff.mpr fun h => ho (hold.mp h), Bool.and_false]
      rw [hgrid, hfalse, Bool.or_false]
  · rw [exec_binTimerExpiry, settleBin_of_unready hb hr]
  · rw [exec_binTimerExpiry, settleBin_of_one hb hlen hv hr]
  · rw [exec_binload, State.loadBin, hb]
  · rw [exec_binload, State.loadBin, hb]

end Sys2Proof.Machine
end

section
/-! SUPPORT. Invocations and replies that arrive, and packets sent again (R342 to R348, R397); O52. -/

namespace Sys2Proof.Machine

/-! Invocations -/

section
variable {s : State} {n dev h pri : Nat} {res : Bool} {token : DWord} {args : List Byte}
  (hm : Table.find s.msgs n = some (.invocation dev h pri res token args))
include hm

theorem invocationArrival_waits (hno : s.rejected = true ∨ s.nextInvocation n dev h pri = false) :
    exec (.invocationArrival n) s = .next s := by
  have hrun : exec (.invocationArrival n) s = execInvocationArrival n s := rfl
  have hgo : (!s.rejected && s.nextInvocation n dev h pri) = false := by rcases hno with hr | hn <;> simp [*]
  rw [hrun]
  simp only [execInvocationArrival, hm, hgo, Bool.false_eq_true, if_false]

theorem invocationArrival_served (hr : s.rejected = false) (hn : s.nextInvocation n dev h pri = true) :
    exec (.invocationArrival n) s = .next (s.serve n dev h pri res token args) := by
  have hrun : exec (.invocationArrival n) s = execInvocationArrival n s := rfl
  rw [hrun]
  simp only [execInvocationArrival, hm, hr, hn, Bool.not_false, Bool.and_self, if_true]

end

theorem serve_of_unnumbered {s : State} (hd : s.deviceNumber = 0) (n dev h pri : Nat) (res : Bool) (token : DWord) (args : List Byte) :
    s.serve n dev h pri res token args = (s.take n).answer token 3 0 0 := if_pos hd

/-- What serves an invocation, by what its handler names (R342, R343). -/
theorem serve_of_handler {s : State} (hd : s.deviceNumber ≠ 0) (n dev h pri : Nat) (res : Bool) (token : DWord) (args : List Byte) :
    (∀ why, s.handler h = .error why → s.serve n dev h pri res token args = (s.take n).answer token 4 0 why)
    ∧ (s.handler h = .service 0 → s.serve n dev h pri res token args = (s.take n).serveLaunch res token args)
    ∧ (∀ k, k ≠ 0 → s.handler h = .service k → s.serve n dev h pri res token args = (s.take n).serveWait res token args)
    ∧ ∀ d b, s.handler h = .bin d b →
        s.serve n dev h pri res token args = if (s.die d).out then s else (s.take n).serveBin d b dev pri res token args := by
  refine ⟨fun why hh => ?_, fun hh => ?_, fun k hk hh => ?_, fun d b hh => ?_⟩
  all_goals simp only [State.serve, hd, if_false, hh]

/-! Replies -/

section
variable {s : State} {n : Nat} {src : Agent} {token : DWord} {st v : Word} {why : Nat}
  (hm : Table.find s.msgs n = some (.reply src token st v why))
include hm

theorem replyArrival_waits (hn : s.firstInLine n (.reply src token st v why) = false) : exec (.replyArrival n) s = .next s := by
  have hrun : exec (.replyArrival n) s = execReplyArrival n s := rfl
  rw [hrun]
  simp only [execReplyArrival, hm, hn, Bool.not_false, if_true]

variable (hn : s.firstInLine n (.reply src token st v why) = true)
include hn

theorem replyArrival_resident {x : Team} (hx : s.team (tokenTeam token) = some x) :
    exec (.replyArrival n) s = .next (s.orLater ((s.take n).takeReply (tokenTeam token) token st v why)) := by
  have hrun : exec (.replyArrival n) s = execReplyArrival n s := rfl
  rw [hrun]
  simp only [execReplyArrival, hm, hn, hx, Bool.not_true, Bool.false_eq_true, if_false, Option.isSome_some, if_true]

variable (hx : s.team (tokenTeam token) = none)
include hx

theorem replyArrival_kept {e : Nat × Image} (hi : s.images.find? (fun e => e.2.teamId == tokenTeam token) = some e) :
    exec (.replyArrival n) s = .next ((s.take n).keepFor e.1 (.reply src token st v why)) := by
  have hrun : exec (.replyArrival n) s = execReplyArrival n s := rfl
  rw [hrun]
  simp only [execReplyArrival, hm, hn, hx, hi, Bool.not_true, Bool.false_eq_true, if_false, Option.isSome_none]

theorem replyArrival_discarded (hi : s.images.find? (fun e => e.2.teamId == tokenTeam token) = none) :
    exec (.replyArrival n) s = .next (s.take n) := by
  have hrun : exec (.replyArrival n) s = execReplyArrival n s := rfl
  rw [hrun]
  simp only [execReplyArrival, hm, hn, hx, hi, Bool.not_true, Bool.false_eq_true, if_false, Option.isSome_none]

end

/-! Packets sent again -/

theorem resend_dtime (s : State) (n seq : Nat) (p : Packet) : (s.resend n seq p).dtime = s.dtime := by
  unfold State.resend State.emit
  dsimp only
  repeat' split
  all_goals rfl

/-- Packets sent again one after another, as of one time (R397). -/
theorem foldl_resend {n now : Nat} (l : List (Nat × Packet)) : ∀ s : State, s.dtime = now →
    l.foldl (fun (s : State) e => s.resend n e.1 e.2) s = l.foldl (fun (v : State) e =>
      let w := { v with conns := Table.alter v.conns n fun d => { d with packets := Table.put d.packets e.1 { e.2 with sent := e.2.sent + 1, last := now } } }
      if v.unsent.contains (.packet n (BitVec.ofNat 32 e.1) e.2.out) then w else w.emit (.packet n (BitVec.ofNat 32 e.1) e.2.out)) s := by
  induction l with
  | nil => exact fun _ _ => rfl
  | cons e l ih =>
    intro s hs
    subst hs
    exact ih _ (resend_dtime s n e.1 e.2)

theorem retransmitTimeout_of_conn {s : State} {n : Nat} {c : Connection} (hc : Table.find s.conns n = some c) :
    exec (.retransmitTimeout n) s = .next (if c.lost then s
      else if (c.packets.filter fun e => e.2.due s.dtime).any fun e => decide (8 ≤ e.2.sent) then s.loseConnection n c
      else (c.packets.filter fun e => e.2.due s.dtime).foldl (fun (s : State) e => s.resend n e.1 e.2) s) := by
  have hrun : exec (.retransmitTimeout n) s = execRetransmitTimeout n s := rfl
  rw [hrun]
  simp only [execRetransmitTimeout, hc]

/-- Settles O52: `serve_of_handler` for an invocation, the four ends of a reply, and `foldl_resend` for packets. -/
theorem invocationsAndRepliesArrive : Obligations.InvocationsAndRepliesArrive := by
  unfold Obligations.InvocationsAndRepliesArrive
  intro s n
  refine ⟨fun dev h pri res token args hm => ⟨invocationArrival_waits hm, fun hr hn => ?_⟩, fun src token st v why hm => ?_, fun c hc => ?_⟩
  · rw [invocationArrival_served hm hr hn]
    refine ⟨fun hd => congrArg _ (serve_of_unnumbered hd ..), fun hd => ?_⟩
    obtain ⟨herror, hlaunch, hwait, hbin⟩ := serve_of_handler hd n dev h pri res token args
    refine ⟨fun why hh => congrArg _ (herror why hh), fun hh => congrArg _ (hlaunch hh), fun k hk hh => congrArg _ (hwait k hk hh),
      fun d b hh => ?_⟩
    rw [hbin d b hh]
    exact ⟨fun hout => by rw [hout]; rfl, fun hout => by rw [hout]; rfl⟩
  · exact ⟨replyArrival_waits hm, fun hn => ⟨fun x hx => replyArrival_resident hm hn hx, fun e hx hi => replyArrival_kept hm hn hx hi,
      fun hx hi => replyArrival_discarded hm hn hx hi⟩⟩
  · intro due
    have hdue : (c.packets.filter fun e => e.2.due s.dtime) = due := rfl
    rw [retransmitTimeout_of_conn hc, hdue]
    refine ⟨fun hno => ?_, fun hlive hfew => ?_, fun hlive hmany => ?_⟩
    · rcases hno with hlost | hempty
      · rw [hlost]
        rfl
      · simp only [hempty, List.any_nil, Bool.false_eq_true, if_false, List.foldl_nil, ite_self]
    · have hany : (due.any fun e => decide (8 ≤ e.2.sent)) = false := by
        simpa [List.any_eq_false] using hfew
      rw [hlive, hany, foldl_resend (now := s.dtime) due s rfl]
      rfl
    · have hany : (due.any fun e => decide (8 ≤ e.2.sent)) = true := by
        simpa [List.any_eq_true] using hmany
      rw [hlive, hany]
      exact ⟨fun hn => congrArg Host.Outcome.next (if_pos hn), fun hn => congrArg Host.Outcome.next (if_neg (not_not.mpr hn))⟩

end Sys2Proof.Machine
end

section
/-! SUPPORT. The events of pre-emption (R377 to R383); O53. -/

namespace Sys2Proof.Machine

/-! Deadlines and saves -/

section
variable {s : State} {n : Nat} {m : Team} {p : Preempt} (hm : s.team n = some m) (hp : m.preempt = some p)
include hm hp

theorem preqDeadline_early (h : ¬ (p.choice = 0 ∧ p.missed = false ∧ p.deadline ≤ (s.core m.core).clk)) :
    exec (.preqDeadline n) s = .next s := by
  have hrun : exec (.preqDeadline n) s = execPreqDeadline n s := rfl
  have hearly : p.choice ≠ 0 ∨ p.missed = true ∨ (s.core m.core).clk < p.deadline := by
    simpa only [not_and_or, Bool.not_eq_false, Nat.not_le] using h
  rw [hrun]
  simp only [execPreqDeadline, hm, hp, hearly, if_true]

theorem preqDeadline_due (h : p.choice = 0 ∧ p.missed = false ∧ p.deadline ≤ (s.core m.core).clk) {st choice : Nat}
    {places : List (Nat × Nat)}
    (hw : s.weigh (s.unitTeams m) p.die 0 0 (drawSizes s.drawn (s.unitTeams m)) false (s.restartable m.lid) = (st, choice, places)) :
    exec (.preqDeadline n) s = .next ({ s with drawn := s.drawn + (s.unitTeams m).length }.beginPreempt (s.unitTeams m)
      { p with choice := if st = 0 then choice else if s.restartable m.lid then 1 else 0, missed := true } places 0) := by
  have hrun : exec (.preqDeadline n) s = execPreqDeadline n s := rfl
  obtain ⟨hchoice, hmissed, hclk⟩ := h
  have hdue : ¬ (p.choice ≠ 0 ∨ p.missed = true ∨ (s.core m.core).clk < p.deadline) := by simp [hchoice, hmissed, hclk]
  rw [hrun]
  simp only [execPreqDeadline, hm, hp, hdue, if_false, hw]

theorem teamSaveComplete_early (h : ¬ (p.choice ≠ 0 ∧ ((s.unitTeams m).all fun e => s.quiet e.1 e.2) = true)) :
    exec (.teamSaveComplete n) s = .next s := by
  have hrun : exec (.teamSaveComplete n) s = execTeamSaveComplete n s := rfl
  have hearly : p.choice = 0 ∨ (!(s.unitTeams m).all fun e => s.quiet e.1 e.2) = true := by
    simpa only [not_and_or, not_not, Bool.not_eq_true, Bool.not_eq_true'] using h
  rw [hrun]
  simp only [execTeamSaveComplete, hm, hp, if_pos hearly]

theorem teamSaveComplete_ready (h : p.choice ≠ 0 ∧ ((s.unitTeams m).all fun e => s.quiet e.1 e.2) = true) :
    exec (.teamSaveComplete n) s = .next (if p.choice = 1 then (s.discard (s.unitTeams m)).writeOutcome m.core m.lid p 1 0 0
      else
        let span := blockSpan ((s.unitTeams m).filterMap fun e => e.2.preempt.map fun p => (p.pa, p.size))
        let saved := s.saveUnit (s.unitTeams m)
        (if p.hold then saved else saved.queueImages p.die (saved.placesAt span.1)).writeOutcome m.core m.lid p 2 span.1 span.2) := by
  have hrun : exec (.teamSaveComplete n) s = execTeamSaveComplete n s := rfl
  have hready : ¬ (p.choice = 0 ∨ (!(s.unitTeams m).all fun e => s.quiet e.1 e.2) = true) := by
    rintro (hc | hq)
    · exact h.1 hc
    · rw [h.2] at hq
      cases hq
  rw [hrun]
  simp only [execTeamSaveComplete, hm, hp, if_neg hready]
  split <;> rfl

end

/-! Restores -/

theorem exec_restore (die : Nat) (v : DWord) (s : State) : exec (.restore die v) s = .next (s.restoreWrite die v) := rfl
theorem exec_teamRestore (die n : Nat) (c : CoreId) (s : State) : exec (.teamRestore die n c) s = execTeamRestore die n c s := rfl

section
variable {s : State} {die n pa : Nat} {c : CoreId} {p : Pending}
  (hq : ((s.settleBins die).die die).queue.find? (fun p => p.n == n) = some p) (ho : p.origin = .image pa)
include hq ho

/-- What becomes of a queued block: back where it fits once its turn has come, and otherwise still queued (R379, R382, R401). -/
theorem teamRestore_of_image {r : State} (hr : s.settleBins die = r) : exec (.teamRestore die n c) s =
    .next (if !r.turnOf die p then r else (r.placeImages die ((r.placesAt pa).map Prod.snd)).elim r fun as =>
      if as.head?.map Allot.core ≠ some c ∨ (r.placesAt pa).any (fun e => (r.die (homeDie e.1)).out) then r
      else (r.lidOf p).elim id (fun lid (u : State) => u.endBlocking lid) (((r.placesAt pa).zip as).foldl
        (fun (s : State) e => s.restoreImage e.1.1 e.1.2 e.2) (r.alterDie die fun d => { d with queue := d.queue.filter fun q => q.n != n }))) := by
  subst hr
  rw [exec_teamRestore]
  simp only [execTeamRestore, hq, ho]
  split
  · rfl
  · cases (s.settleBins die).placeImages die (((s.settleBins die).placesAt pa).map Prod.snd) with
    | none => rfl
    | some as =>
      dsimp only [Option.elim]
      split
      · rfl
      · cases (s.settleBins die).lidOf p <;> rfl

end

/-- Settles O53: each event by whether its conditions hold, `teamRestore_of_image` for a queued block. -/
theorem preemptionEventsTakeEffect : Obligations.PreemptionEventsTakeEffect := by
  unfold Obligations.PreemptionEventsTakeEffect
  intro s n die
  refine ⟨fun m p hm hp => ?_, fun m p hm hp => ?_, fun v => ⟨fun st hst => ?_, fun is his => ?_⟩, ?_⟩
  · intro us rst due
    exact ⟨preqDeadline_early hm hp, fun hdue st choice places hw => preqDeadline_due hm hp hdue hw⟩
  · intro us ready span saved
    refine ⟨teamSaveComplete_early hm hp, fun hready hc => ?_, fun hready hc hhold => ?_, fun hready hc hhold => ?_⟩
    all_goals rw [teamSaveComplete_ready hm hp hready]
    · rw [if_pos hc]
    · rw [if_neg hc, hhold]
      rfl
    · rw [if_neg hc, hhold]
      rfl
  · rw [exec_restore, State.restoreWrite, hst]
  · rw [exec_restore, State.restoreWrite, his]
    simp
  · intro r p pa c hq ho is places
    rw [teamRestore_of_image hq ho rfl]
    refine ⟨fun hno => ?_, fun a as hplaces hc => ?_, fun a as ht hplaces hc hout lid hlid => ?_⟩
    · refine congrArg Host.Outcome.next (ite_eq_left_iff.mpr fun hturn => ?_)
      obtain hno | hnone | ⟨e, he, hout⟩ := hno
      · exact absurd (by rw [hno]; rfl) hturn
      · rw [show r.placeImages die ((r.placesAt pa).map Prod.snd) = none from hnone]
        rfl
      · have hany : (r.placesAt pa).any (fun e => (r.die (homeDie e.1)).out) = true := List.any_eq_true.mpr ⟨e, he, hout⟩
        cases r.placeImages die ((r.placesAt pa).map Prod.snd) with
        | none => rfl
        | some as => exact if_pos (.inr hany)
    · refine congrArg Host.Outcome.next (ite_eq_left_iff.mpr fun _ => ?_)
      rw [show r.placeImages die ((r.placesAt pa).map Prod.snd) = some (a :: as) from hplaces]
      exact if_pos (.inl fun h => hc (Option.some.inj h))
    · have hnone : ¬ ((a :: as).head?.map Allot.core ≠ some c ∨ (r.placesAt pa).any (fun e => (r.die (homeDie e.1)).out) = true) := by
        rintro (h | h)
        · exact h (congrArg some hc)
        · obtain ⟨e, he, h⟩ := List.any_eq_true.mp h
          exact Bool.false_ne_true ((hout e he).symm.trans h)
      rw [if_neg (by simp [show (s.settleBins die).turnOf die p = true from ht]), show r.placeImages die ((r.placesAt pa).map Prod.snd) = some (a :: as) from hplaces, hlid]
      exact congrArg Host.Outcome.next (if_neg hnone)

end Sys2Proof.Machine
end

section
/-! CERTIFICATES. O54: a step command of a state in which two teams stand under one identifier (R389). -/

namespace Sys2Proof.Machine

/-- The stopped team that the step command names, on core 1 of die 0. -/
def stoppedTwin : Team := { placedTeam with lid := 0x200, b := 0, core := ⟨0, 1⟩, stepMode := .stopped }

/-- Two teams under identifier 1, the first on core 0, whose clk is 0, and the stopped one on core 1, whose clk is 5. -/
def twinState : State :=
  { State.reset with teams := [(1, { placedTeam with lid := 0x100, core := ⟨0, 0⟩ }), (1, stoppedTwin)], cores := [(⟨0, 1⟩, { Core.init with clk := 5 })] }

/-- A step of the team of grid 0x200, bounded by 1024 clk. -/
def boundedStep : DWord := 0x0000020000010002

theorem twinState_target : twinState.stepTarget 0 boundedStep = some (1, stoppedTwin) := rfl

/-- In the model the bound counts from the clk of the core of the team that the command names. -/
theorem twinState_bounds : (twinState.stepStep 0 boundedStep).teams.map (fun e => e.2.stepMode) = [.running (some 1029) [], .stopped] := by
  decide

/-- Refutes O54: its clause for a step takes the clk at which the step ends from the core of the team that stands under the identifier, and the model from the core of the team that the command has named; in `twinState`, where two teams stand under one identifier, which no run reaches, these are different teams on different cores (R389). -/
theorem not_registerWritesWithRowsTakeEffect : ¬ Obligations.RegisterWritesWithRowsTakeEffect := by
  unfold Obligations.RegisterWritesWithRowsTakeEffect
  intro hall
  obtain ⟨-, -, -, -, -, -, -, -, hsteps, -⟩ := hall twinState 0 0 boundedStep
  obtain ⟨-, hstopped, -⟩ := hsteps 1 stoppedTwin twinState_target
  obtain ⟨-, ⟨hfree, -⟩, -⟩ := hstopped rfl
  have hsame := congrArg (fun u : State => u.teams.map fun e => e.2.stepMode) (Host.Outcome.next.inj (hfree rfl))
  exact absurd (twinState_bounds.symm.trans hsame) (by decide)

end Sys2Proof.Machine
end

section
/-! SUPPORT. The moves of engine elements: what a move does once its body is known (R252, R268, R274). -/

namespace Sys2Proof.Machine

/-- When an element of a command may move at a place of S (R252, R268). -/
def State.MayMove (s : State) (x : Command) (n p : Nat) : Prop :=
  x.completed = false ∧ x.failed = false ∧ x.moved.contains n = false ∧ n < elements x.words x.format
    ∧ s.ordOk x = true ∧ s.placeOk x p = true

/-- What becomes of an element whose move comes to `m`: it counts as moved, the command fails with the fault's status, or nothing changes. -/
def MoveEnds (i : Instr) (s : State) (e n p type : Nat) (x : Command) (m : Moved Unit) : Prop :=
  (cmdType x.words = type ∧ s.MayMove x n p →
    (∀ y v, m = .ok () y v → exec i s = .next (v.alterCommand e fun _ => { y with moved := NatSet.add y.moved n }))
    ∧ (∀ st v, m = .fault st v → exec i s = .next (v.alterCommand e fun x => x.fail st))
    ∧ (m = .later → exec i s = .next s))
  ∧ (¬ (cmdType x.words = type ∧ s.MayMove x n p) → exec i s = .next s)

/-- The guard of `moveElement` refuses exactly the elements that may not move. -/
theorem moveGuard_iff (s : State) (x : Command) (type n p : Nat) :
    (cmdType x.words ≠ type ∨ x.completed ∨ x.failed ∨ x.moved.contains n
        ∨ elements x.words x.format ≤ n ∨ !s.ordOk x ∨ !s.placeOk x p)
      ↔ ¬ (cmdType x.words = type ∧ s.MayMove x n p) := by
  simp only [State.MayMove, not_and_or, Bool.not_eq_false, Bool.not_eq_true, Bool.not_eq_true', not_lt, ne_eq]

section
variable {i : Instr} {s : State} {e n p type : Nat} {x : Command} {body : Command → State → Moved Unit}

/-- An instruction that moves an element by a body ends as the body does. -/
theorem moveElement_ends {m : Moved Unit} (hx : Table.find s.commands e = some x)
    (hrun : exec i s = moveElement type e n p body s) (hm : body x s = m) : MoveEnds i s e n p type x m := by
  unfold moveElement at hrun
  rw [hx] at hrun
  refine ⟨fun hcan => ?_, fun hno => hrun.trans (if_pos ((moveGuard_iff ..).mpr hno))⟩
  have hgo := hrun.trans (if_neg fun h => (moveGuard_iff ..).mp h hcan)
  rw [hm] at hgo
  refine ⟨fun y v hm => ?_, fun st v hm => ?_, fun hm => ?_⟩ <;> rw [hgo, hm]

/-- A body that can do nothing yet leaves the state. -/
theorem MoveEnds.of_later (h : MoveEnds i s e n p type x .later) : exec i s = .next s := by
  by_cases hcan : cmdType x.words = type ∧ s.MayMove x n p
  · exact (h.1 hcan).2.2 rfl
  · exact h.2 hcan

end

/-- The test of a row for two outliers, as a proposition. -/
theorem twoOutliers_iff (f : TileFormat) (bs : List Byte) :
    (f == .i4x && doubleMarker bs) = true ↔ f = .i4x ∧ doubleMarker bs = true := by
  rw [Bool.and_eq_true, beq_iff_eq]

/-- Settles O46: each command type's element is `moveElement` of its own body, which the guards on the row number select. -/
theorem engineElementsMove : Obligations.EngineElementsMove := by
  unfold Obligations.EngineElementsMove
  intro s e n p x hx ws can ends word
  have move {i type body m} (hrun : exec i s = moveElement type e n p body s) (hm : body x s = m) : ends i type m :=
    moveElement_ends hx hrun hm
  have copies : exec (.ecopy e n p) s = execEcopy e n p s := rfl
  have loads : exec (.etld e n p) s = execEtld e n p s := rfl
  have stores : exec (.etst e n p) s = execEtst e n p s := rfl
  have gathers : exec (.egath e n p) s = execEgath e n p s := rfl
  have scatters : exec (.escat e n p) s = execEscat e n p s := rfl
  have converts : exec (.econv e n p) s = execEconv e n p s := rfl
  refine ⟨?_, fun hn => ?_, fun hn => ?_, ?_, ?_, fun hn => ?_, fun hn => ?_, ?_⟩
  · exact move (copies.trans rfl) rfl
  · refine move (loads.trans rfl) ((if_pos hn).trans ?_)
    simp only [twoOutliers_iff]
    rfl
  · intro k reg
    refine ⟨fun hc => move (loads.trans rfl) ?_, fun hc => move (loads.trans rfl) ?_⟩
    · exact (if_neg (Nat.not_lt.mpr hn)).trans (if_pos hc)
    · exact (if_neg (Nat.not_lt.mpr hn)).trans (if_neg (Bool.eq_false_iff.mp hc))
  · intro f
    refine ⟨fun hn => move (stores.trans rfl) ?_, fun hrow hreg => move (stores.trans rfl) ?_, fun hn => move (stores.trans rfl) ?_⟩
    · exact if_pos hn
    · exact (if_neg (Nat.not_lt.mpr hrow)).trans (if_pos hreg)
    · exact (if_neg (Nat.not_lt.mpr ((Nat.le_add_right _ _).trans hn))).trans (if_neg (Nat.not_lt.mpr hn))
  · exact move (gathers.trans rfl) rfl
  · exact move (scatters.trans rfl) (if_neg (not_not.mpr hn))
  · exact (moveElement_ends hx (scatters.trans rfl) (if_pos hn)).of_later
  · exact move (converts.trans rfl) rfl

end Sys2Proof.Machine
end

section
/-! SUPPORT. The events of an engine that do not move elements: held pushes, landings and completions (R251, R253, R265, R266). -/

namespace Sys2Proof.Machine

/-- An event that comes to `u`, unless that would step a generation which a check of the same clk has read. -/
def Happens (i : Instr) (s u : State) : Prop :=
  (u.clash = false ∨ s.clash = true → exec i s = .next u) ∧ (u.clash = true → s.clash = false → exec i s = .next s)

/-- An event that is put off by a clash happens in that sense. -/
theorem happens_of_orLater {i : Instr} {s u : State} (h : exec i s = .next (s.orLater u)) : Happens i s u := by
  refine ⟨fun hc => h.trans (congrArg _ ?_), fun hu hs => h.trans (congrArg _ ?_)⟩
  · rcases hc with hc | hc <;> simp [State.orLater, hc]
  · simp [State.orLater, hu, hs]

section
variable {s : State} {n : Nat} {h : HeldPush}

/-- What a held push comes to, ready or not. -/
theorem exec_enginePushAccepted (hh : Table.find s.heldPushes n = some h) :
    exec (.enginePushAccepted n) s = .next (if s.pushReady n h then s.orLater (s.acceptPush n h) else s) := by
  have hrun : exec (.enginePushAccepted n) s = execEnginePushAccepted n s := rfl
  rw [hrun, execEnginePushAccepted, hh]

/-- A held push that is not ready stays. -/
theorem heldPush_stays (hh : Table.find s.heldPushes n = some h) (hr : s.pushReady n h = false) :
    exec (.enginePushAccepted n) s = .next s :=
  (exec_enginePushAccepted hh).trans (congrArg _ (if_neg (Bool.eq_false_iff.mp hr)))

/-- A ready push happens as it is accepted. -/
theorem heldPush_happens {u : State} (hh : Table.find s.heldPushes n = some h) (hr : s.pushReady n h = true)
    (hu : s.acceptPush n h = u) : Happens (.enginePushAccepted n) s u :=
  happens_of_orLater ((exec_enginePushAccepted hh).trans (congrArg _ (hu ▸ if_pos hr)))

variable {x : Thread}

/-- A push whose checks pass issues its command, pops and writes what its instruction does, and its thread goes on (R265). -/
theorem acceptPush_of_pass (hx : s.thread h.t = some x)
    (hc : State.lastCause { s with heldPushes := Table.drop s.heldPushes n } h.t h.queue (x.queue h.queue ++ [h.word]) h.pops = none) :
    s.acceptPush n h =
      (let r : State := { s with heldPushes := Table.drop s.heldPushes n }
       let given := ((r.issueCommand h.t h.queue (x.queue h.queue ++ [h.word]) h.stack).popQueues h.t h.pops).alterThread h.t
         fun x => x.setPreds h.preds
       let marked := if h.anomaly then given.setAnomaly h.t else given
       (if h.counted then marked else marked.progress h.t).finish h.t) := by
  simp only [State.acceptPush, hx, hc]

/-- A push that a check refuses by now raises its cause in its group's thread, with the assembly discarded (R270). -/
theorem acceptPush_of_cause {c : Cause} {k : Nat} {g : Group} (hx : s.thread h.t = some x)
    (hc : State.lastCause { s with heldPushes := Table.drop s.heldPushes n } h.t h.queue (x.queue h.queue ++ [h.word]) h.pops = some c)
    (hk : x.status = .member k) (hg : s.group k = some g) :
    s.acceptPush n h =
      ((State.alterThread { s with heldPushes := Table.drop s.heldPushes n } h.t fun x => x.setQueue h.queue []).trapIn g h.t.t c []).passOn k := by
  have hg' : State.group { s with heldPushes := Table.drop s.heldPushes n } k = some g := hg
  simp only [State.acceptPush, hx, hc, hk, State.alterThread_group, hg']

end

section
variable {s : State} {e n : Nat} {x : Command} {upTo : Scope}

/-- A landing of a command that writes global memory. -/
theorem globalLanding_exec (hx : Table.find s.commands e = some x) (hf : x.toField = false) :
    exec (.engineWriteLanding e n upTo) s = .next (if s.landable x n upTo then (s.landGlobal e x n upTo).forget e else s) := by
  have hrun : exec (.engineWriteLanding e n upTo) s = execEngineWriteLanding e n upTo s := rfl
  simp only [hrun, execEngineWriteLanding, hx, hf, Bool.false_eq_true, if_false]

/-- A landing of a command that writes field memory. -/
theorem fieldLanding_exec (hx : Table.find s.commands e = some x) (hf : x.toField = true) :
    exec (.engineWriteLanding e n upTo) s =
      .next (if x.wordReady (n / 4096) (n % 4096) = true ∧ s.landingHeld e x (n / 4096) = false ∧ x.completed = false
        then s.orLater (s.landWord e x (n / 4096) (n % 4096)) else s) := by
  have hrun : exec (.engineWriteLanding e n upTo) s = execEngineWriteLanding e n upTo s := rfl
  simp only [hrun, execEngineWriteLanding, hx, hf, if_true, Bool.and_eq_true, Bool.not_eq_true', and_assoc]

/-- A completion, due or not. -/
theorem completion_exec (hx : Table.find s.commands e = some x) :
    exec (.engineCompletion e) s = .next (if x.mayComplete then s.orLater (s.complete e x) else s) := by
  have hrun : exec (.engineCompletion e) s = execEngineCompletion e s := rfl
  rw [hrun, execEngineCompletion, hx]

end

/-! What a completion leaves alone -/

/-- The queue of completion words of a command (R263). -/
def Command.wordsQueue (x : Command) : Nat := if cmdType x.words < 3 then 1 else 3

/-- A thread as the completion of a command of its leaves it: the word pushed, and a failure counted (R266, R273). -/
def Thread.completed (y : Thread) (x : Command) : Thread :=
  { y.setQueue x.wordsQueue (y.queue x.wordsQueue ++ [completionWord x.words x.status]) with
    pending := Table.put y.pending x.wordsQueue (Table.findD y.pending x.wordsQueue 0 - 1)
    failures := if x.status ≠ 0 ∧ y.failures ≠ 0xFFFFFFFF then y.failures + 1 else y.failures }

/-- To forget a command changes only the commands. -/
theorem forget_threads (s : State) (e : Nat) : (s.forget e).threads = s.threads := by
  unfold State.forget
  split
  · split <;> rfl
  · rfl

theorem forget_mem (s : State) (e : Nat) : (s.forget e).mem = s.mem := by
  unfold State.forget
  split
  · split <;> rfl
  · rfl

/-- With no field word left a command has none to fill. -/
theorem fillTargets_of_nil (s : State) {x : Command} (h : x.targets = []) : s.fillTargets x = s := by
  simp [State.fillTargets, h]

section
variable (s : State) (e : Nat) {x : Command}

/-- A completion with no field word left changes no thread but its own. -/
theorem complete_threads (h : x.targets = []) :
    (s.complete e x).threads = Table.alter s.threads x.t fun y => y.completed x := by
  simp only [State.complete, forget_threads, fillTargets_of_nil _ h]
  split <;> rfl

/-- A completion with no field word left changes no byte of memory. -/
theorem complete_mem (h : x.targets = []) : (s.complete e x).mem = s.mem := by
  simp only [State.complete, forget_mem, fillTargets_of_nil _ h]
  split <;> rfl

end

/-- What a completed command leaves of the thread's queues. -/
theorem completed_queue (y : Thread) (x : Command) (k : Nat) : (y.completed x).queue k =
    if k = x.wordsQueue then y.queue k ++ [completionWord x.words x.status] else y.queue k := by
  show Table.findD (Table.put y.queues _ _) k [] = _
  rw [Table.findD_put]
  split
  next h => rw [h]
  next => rfl

/-- Settles O47: a push, a landing and a completion each come to their state unless it clashes; with no field word left a completion alters its own thread alone. -/
theorem engineEventsTakeEffect : Obligations.EngineEventsTakeEffect := by
  unfold Obligations.EngineEventsTakeEffect
  intro s n e happens
  refine ⟨fun h hh => ⟨heldPush_stays hh, ?_⟩, fun x upTo hx => ?_, fun x y hx hy => ?_⟩
  · intro x hr hx ws r given marked
    exact ⟨fun hc => heldPush_happens hh hr (acceptPush_of_pass hx hc),
      fun c k g hc hk hg => heldPush_happens hh hr (acceptPush_of_cause hx hc hk hg)⟩
  · intro a w lands
    refine ⟨fun hf => ⟨fun hl => ?_, fun hl => ?_⟩, fun hf => ⟨fun hl => ?_, fun hl => ?_⟩⟩
    · exact (globalLanding_exec hx hf).trans (congrArg _ (if_pos hl))
    · exact (globalLanding_exec hx hf).trans (congrArg _ (if_neg (Bool.eq_false_iff.mp hl)))
    · exact happens_of_orLater ((fieldLanding_exec hx hf).trans (congrArg _ (if_pos hl)))
    · exact (fieldLanding_exec hx hf).trans (congrArg _ (if_neg hl))
  · intro q u
    refine ⟨fun hm => ?_, fun hm => ?_, fun _ ht => ⟨⟨y.completed x, ?_, ?_, rfl, rfl, fun k hk => ?_⟩, fun id hid => ?_, ?_⟩⟩
    · exact (completion_exec hx).trans (congrArg _ (if_neg (Bool.eq_false_iff.mp hm)))
    · exact happens_of_orLater ((completion_exec hx).trans (congrArg _ (if_pos hm)))
    · show Table.find (s.complete e x).threads x.t = _
      rw [complete_threads s e ht, Table.find_alter, if_pos rfl, show Table.find s.threads x.t = some y from hy]
      rfl
    · exact (completed_queue y x q).trans (if_pos rfl)
    · exact (completed_queue y x k).trans (if_neg hk)
    · show Table.find (s.complete e x).threads id = Table.find s.threads id
      rw [complete_threads s e ht, Table.find_alter, if_neg hid]
    · exact complete_mem s e ht

end Sys2Proof.Machine
end

section
/-! CERTIFICATES. Integer arithmetic (R135, R136): the results of the model's integer operations as the rules give them; O6 and O7. -/

namespace Sys2Proof.Machine

/-! Sums, products and orders (R135) -/

/-- The magnitude of an integer, by its sign. -/
theorem natAbs_eq_ite (i : Int) : (i.natAbs : Int) = if i < 0 then -i else i := by
  split <;> omega

/-- The lesser of two values is the first unless the second is below it. -/
theorem iminOp_eq (un : Bool) (a b : Word) : iminOp un a b = if intOf un a ≤ intOf un b then a else b := by
  unfold iminOp
  split
  case isTrue h => rw [if_neg (Int.not_le.mpr h)]
  case isFalse h => rw [if_pos (Int.not_lt.mp h)]

theorem imaxOp_eq (un : Bool) (a b : Word) : imaxOp un a b = if intOf un b ≤ intOf un a then a else b := by
  unfold imaxOp
  split
  case isTrue h => rw [if_neg (Int.not_le.mpr h)]
  case isFalse h => rw [if_pos (Int.not_lt.mp h)]

theorem iabsOp_eq (sat : Bool) (a : Word) : iabsOp sat a = writeInt sat false (if a.toInt < 0 then -a.toInt else a.toInt) :=
  congrArg _ (natAbs_eq_ite _)

/-- Settles O6: each instruction runs one operation of the model in its members (`computes2_of_lane2` and its kin), which is the rule's own but for the orders and iabs, written the other way about (`iminOp_eq`, `imaxOp_eq`, `iabsOp_eq`). -/
theorem integerArithmeticWritesTheExactResult : Obligations.IntegerArithmeticWritesTheExactResult := by
  unfold Obligations.IntegerArithmeticWritesTheExactResult
  refine ⟨fun f => ⟨computes2_of_lane2 fun _ => rfl, computes2_of_lane2 fun _ => rfl, computes2_of_lane2 fun _ => rfl,
    computes2_of_lane2 fun _ => rfl, computes3_of_lane3 fun _ => rfl, ?_, computes1_of_lane1 fun _ => rfl, ?_, ?_⟩,
    fun f => ⟨computesI_of_laneI fun _ => rfl, computesI_of_laneI fun _ => rfl, computesI_of_laneI fun _ => rfl,
    computesI_of_laneI fun _ => rfl, ?_, ?_⟩⟩
  · rw [← funext (iabsOp_eq f.sat)]
    exact computes1_of_lane1 fun _ => rfl
  · rw [← funext₂ (iminOp_eq f.un)]
    exact computes2_of_lane2 fun _ => rfl
  · rw [← funext₂ (imaxOp_eq f.un)]
    exact computes2_of_lane2 fun _ => rfl
  · exact funext₂ (iminOp_eq false) ▸ computesI_of_laneI (op := iminOp false) fun _ => rfl
  · exact funext₂ (imaxOp_eq false) ▸ computesI_of_laneI (op := imaxOp false) fun _ => rfl

/-! Division and remainder (R136) -/

/-- -2^31 and -1 are the words 0x80000000 and 0xFFFFFFFF. -/
theorem overflowing_division_iff (un : Bool) (a b : Word) :
    (!un && a == 0x80000000 && b == 0xFFFFFFFF) = true ↔ un = false ∧ a.toInt = -2 ^ 31 ∧ b.toInt = -1 := by
  have ha : a.toInt = -2 ^ 31 ↔ a = 0x80000000 := ⟨fun h => BitVec.eq_of_toInt_eq h, fun h => h ▸ rfl⟩
  have hb : b.toInt = -1 ↔ b = 0xFFFFFFFF := ⟨fun h => BitVec.eq_of_toInt_eq h, fun h => h ▸ rfl⟩
  rw [ha, hb]
  simp [and_assoc]

/-- The quotient as the rule gives it (R136). -/
def quotientOf (sat un : Bool) (a b : Word) : Word :=
  if b = 0 then (if un then 0xFFFFFFFF else if 0 ≤ a.toInt then 0x7FFFFFFF else 0x80000000)
  else if un = false ∧ a.toInt = -2 ^ 31 ∧ b.toInt = -1 then (if sat then 0x7FFFFFFF else 0x80000000)
  else BitVec.ofInt 32 ((intOf un a).tdiv (intOf un b))

/-- The remainder as the rule gives it (R136). -/
def remainderOf (un : Bool) (a b : Word) : Word :=
  if b = 0 then a
  else if un = false ∧ a.toInt = -2 ^ 31 ∧ b.toInt = -1 then 0
  else BitVec.ofInt 32 (intOf un a - intOf un b * (intOf un a).tdiv (intOf un b))

theorem idivOp_eq (sat un : Bool) (a b : Word) : idivOp sat un a b = quotientOf sat un a b := by
  simp only [idivOp, quotientOf, overflowing_division_iff]

theorem iremOp_eq (un : Bool) (a b : Word) : iremOp un a b = remainderOf un a b := by
  unfold iremOp remainderOf
  split
  case isTrue => rfl
  case isFalse =>
    split
    case isTrue h =>
      obtain ⟨rfl, ha, hb⟩ := h
      simp only [intOf, Bool.false_eq_true, if_false, ha, hb]
      rfl
    case isFalse => rw [Int.tmod_def]

/-- Settles O7: `idivOp_eq` and `iremOp_eq` read the corners off the words, and the remainder off the quotient. -/
theorem integerDivisionNeverTraps : Obligations.IntegerDivisionNeverTraps := by
  unfold Obligations.IntegerDivisionNeverTraps
  intro quotient remainder
  have hq : ∀ sat un, quotient sat un = idivOp sat un := fun sat un => (funext₂ (idivOp_eq sat un)).symm
  have hr : ∀ un, remainder un = iremOp un := fun un => (funext₂ (iremOp_eq un)).symm
  simp only [hq, hr]
  exact ⟨fun f => ⟨computes2_of_lane2 fun _ => rfl, computes2_of_lane2 fun _ => rfl⟩,
    fun f => ⟨computesI_of_laneI fun _ => rfl, computesI_of_laneI fun _ => rfl⟩⟩

end Sys2Proof.Machine
end

section
/-! CERTIFICATES. Logic, shifts, bit counts and bit fields (R137, R138): the results of the model's operations as the rules give them; O8. -/

namespace Sys2Proof.Machine

/-! Shifts (R137) -/

theorem shlOp_eq (a b : Word) : shlOp a b = if 32 ≤ b.toNat then 0 else BitVec.ofNat 32 (a.toNat * 2 ^ b.toNat) := by
  unfold shlOp
  split
  · rfl
  · exact BitVec.eq_of_toNat_eq (by rw [BitVec.toNat_shiftLeft, BitVec.toNat_ofNat, Nat.shiftLeft_eq])

theorem shrOp_eq (a b : Word) : shrOp a b = if 32 ≤ b.toNat then 0 else BitVec.ofNat 32 (a.toNat / 2 ^ b.toNat) := by
  unfold shrOp
  split
  · rfl
  · refine BitVec.eq_of_toNat_eq ?_
    rw [BitVec.toNat_ushiftRight, BitVec.toNat_ofNat, Nat.shiftRight_eq_div_pow,
      Nat.mod_eq_of_lt (Nat.lt_of_le_of_lt (Nat.div_le_self ..) a.isLt)]

/-- A shift of 32 leaves copies of the sign, as one of 31 does. -/
theorem sarOp_eq (a b : Word) : sarOp a b = BitVec.ofInt 32 (a.toInt / 2 ^ min b.toNat 31) := by
  have hlow := BitVec.le_toInt a
  have hhigh := BitVec.toInt_lt (x := a)
  unfold sarOp BitVec.sshiftRight
  rw [Int.shiftRight_eq_div_pow]
  obtain h | h := Nat.lt_or_ge b.toNat 32
  · rw [Nat.min_eq_left (by omega), Nat.min_eq_left (by omega)]
    simp
  · rw [Nat.min_eq_right h, Nat.min_eq_right (by omega)]
    congr 1
    omega

/-! Bit counts (R137) -/

theorem clzOp_spec {a : Word} (h : a ≠ 0) : ∃ k, k < 32 ∧ clzOp a = BitVec.ofNat 32 k ∧ a.getLsbD (31 - k) = true
    ∧ ∀ j, j < k → a.getLsbD (31 - j) = false := by
  have hne : a.toNat ≠ 0 := fun h0 => h (BitVec.eq_of_toNat_eq h0)
  have hlog : a.toNat.log2 < 32 := (Nat.log2_lt hne).mpr a.isLt
  refine ⟨31 - a.toNat.log2, by omega, by rw [clzOp, if_neg h], ?_, fun j hj => ?_⟩
  · rw [Nat.sub_sub_self (by omega)]
    exact Nat.testBit_log2 hne
  · exact Nat.testBit_lt_two_pow ((Nat.log2_lt hne).mp (by omega))

theorem ctzOp_spec {a : Word} (h : a ≠ 0) : ∃ k, k < 32 ∧ ctzOp a = BitVec.ofNat 32 k ∧ a.getLsbD k = true
    ∧ ∀ j, j < k → a.getLsbD j = false := by
  cases hfind : (List.range 32).find? fun k => a.getLsbD k with
  | none =>
    have hall := List.find?_eq_none.mp hfind
    exact absurd (BitVec.eq_of_getLsbD_eq fun k hk => by simpa using hall k (List.mem_range.mpr hk)) h
  | some k =>
    obtain ⟨hbit, hk, hbefore⟩ := List.find?_range_eq_some.mp hfind
    refine ⟨k, by simpa using hk, by rw [ctzOp, hfind]; rfl, hbit, fun j hj => by simpa using hbefore j hj⟩

theorem brevOp_getLsbD (a : Word) {k : Nat} (hk : k < 32) : (brevOp a).getLsbD k = a.getLsbD (31 - k) := by
  rw [brevOp, BitVec.getLsbD_reverse, BitVec.getMsbD, decide_eq_true hk, Bool.true_and]

/-! Bit fields (R138) -/

/-- The mask of the `n` bits from bit `pos` on. -/
theorem fieldMask_getLsbD (n pos : Nat) {k : Nat} (hk : k < 32) :
    (BitVec.ofNat 32 ((2 ^ n - 1) * 2 ^ pos)).getLsbD k = decide (pos ≤ k ∧ k < pos + n) := by
  rw [BitVec.getLsbD_ofNat, Nat.testBit_mul_two_pow, Nat.testBit_two_pow_sub_one]
  simp only [hk, decide_true, Bool.true_and, ← Bool.decide_and, decide_eq_decide]
  omega

theorem bfiOp_getLsbD (d a b c : Word) {k : Nat} (hk : k < 32) : (bfiOp d a b c).getLsbD k
    = if (fieldRange b c).1 ≤ k ∧ k < (fieldRange b c).1 + (fieldRange b c).2 then a.getLsbD (k - (fieldRange b c).1) else d.getLsbD k := by
  simp only [bfiOp, BitVec.getLsbD_or, BitVec.getLsbD_and, BitVec.getLsbD_not, fieldMask_getLsbD _ _ hk, BitVec.getLsbD_shiftLeft, hk,
    decide_true, Bool.true_and]
  split
  case isTrue h => simp [h, Nat.not_lt.mpr h.1]
  case isFalse h => simp [h]

/-- The bits of the `n` bits of `a` from bit `pos` on. -/
theorem field_testBit (a : Word) (pos n k : Nat) : (a.toNat / 2 ^ pos % 2 ^ n).testBit k = (decide (k < n) && a.getLsbD (pos + k)) := by
  rw [Nat.testBit_mod_two_pow, Nat.testBit_div_two_pow, Nat.add_comm]
  rfl

/-- A number of `n` bits less 2^n has the bits of that number, and 1 above them. -/
theorem ofInt_sub_two_pow_getLsbD {f n : Nat} (hf : f < 2 ^ n) (hn : n ≤ 32) {k : Nat} (hk : k < 32) :
    (BitVec.ofInt 32 ((f : Int) - 2 ^ n)).getLsbD k = if k < n then f.testBit k else true := by
  have hle : 2 ^ n ≤ 2 ^ 32 := Nat.pow_le_pow_right (by decide) hn
  have hpow : 2 ^ n * (2 ^ (32 - n) - 1) + 2 ^ n = 2 ^ 32 := by
    rw [← Nat.mul_succ, Nat.succ_eq_add_one, Nat.sub_add_cancel (Nat.two_pow_pos _), ← Nat.pow_add, Nat.add_sub_cancel' hn]
  have hvalue : (BitVec.ofInt 32 ((f : Int) - 2 ^ n)).toNat = 2 ^ n * (2 ^ (32 - n) - 1) + f := by
    rw [BitVec.toNat_ofInt, ← Nat.cast_ofNat (n := 2), ← Int.natCast_pow 2 n]
    omega
  rw [BitVec.getLsbD, hvalue, Nat.testBit_two_pow_mul_add _ hf, Nat.testBit_two_pow_sub_one]
  split
  case isTrue => rfl
  case isFalse => exact decide_eq_true (by omega)

theorem bfeOp_unsigned_getLsbD (a b c : Word) {k : Nat} (hk : k < 32) :
    (bfeOp true a b c).getLsbD k = (decide (k < (fieldRange b c).2) && a.getLsbD ((fieldRange b c).1 + k)) := by
  unfold bfeOp
  dsimp only
  split
  case isTrue h => simp [h]
  case isFalse h =>
    simp only [Bool.not_true, Bool.false_and, Bool.false_eq_true, if_false, BitVec.getLsbD_ofNat, hk, decide_true, Bool.true_and]
    exact field_testBit ..

theorem fieldRange_le (b c : Word) : (fieldRange b c).1 + (fieldRange b c).2 ≤ 32 := by
  simp only [fieldRange]
  omega

theorem bfeOp_signed_getLsbD (a b c : Word) {k : Nat} (hk : k < 32) : (bfeOp false a b c).getLsbD k
    = (decide (0 < (fieldRange b c).2) && a.getLsbD ((fieldRange b c).1 + min k ((fieldRange b c).2 - 1))) := by
  have hrange := fieldRange_le b c
  unfold bfeOp
  dsimp only
  generalize (fieldRange b c).1 = pos at hrange
  generalize (fieldRange b c).2 = n at hrange
  split
  case isTrue h => simp [h]
  case isFalse h =>
    have hsign : (a.toNat / 2 ^ pos % 2 ^ n).testBit (n - 1) = a.getLsbD (pos + (n - 1)) := by
      rw [field_testBit, decide_eq_true (by omega : n - 1 < n), Bool.true_and]
    rw [hsign, decide_eq_true (by omega : 0 < n), Bool.not_false, Bool.true_and, Bool.true_and]
    split
    case isTrue hneg =>
      rw [ofInt_sub_two_pow_getLsbD (Nat.mod_lt _ (Nat.two_pow_pos n)) (by omega) hk]
      split
      case isTrue hkn => rw [field_testBit, decide_eq_true hkn, Bool.true_and, Nat.min_eq_left (by omega)]
      case isFalse hkn => rw [Nat.min_eq_right (by omega), hneg]
    case isFalse hneg =>
      rw [BitVec.getLsbD_ofNat, field_testBit, decide_eq_true hk, Bool.true_and]
      obtain hkn | hkn := Nat.lt_or_ge k n
      · rw [decide_eq_true hkn, Bool.true_and, Nat.min_eq_left (by omega)]
      · rw [decide_eq_false (by omega), Bool.false_and, Nat.min_eq_right (by omega)]
        exact (Bool.eq_false_iff.mpr hneg).symm

/-- Settles O8: each instruction runs one operation of the model; the shifts are the rule's by `shlOp_eq`, `shrOp_eq` and `sarOp_eq`, and the counts and fields go bit by bit. -/
theorem logicShiftsAndBitFields : Obligations.LogicShiftsAndBitFields := by
  unfold Obligations.LogicShiftsAndBitFields
  refine ⟨?_, ⟨rfl, rfl, fun a => clzOp_spec, fun a => ctzOp_spec, fun a k => brevOp_getLsbD a⟩,
    fun f => ⟨computes3_of_lane3 fun _ => rfl, executes_of_runLane (fun _ => rfl) (fun _ _ _ _ _ _ _ _ _ _ => rfl)
      fun _ _ _ _ _ => writeDst_pushes _ _⟩, fun a b c d => ⟨fun k => bfiOp_getLsbD d a b c, fun k => bfeOp_unsigned_getLsbD a b c,
      fun k => bfeOp_signed_getLsbD a b c⟩⟩
  intro shl shr sar rotl
  rw [show shl = shlOp from (funext₂ shlOp_eq).symm, show shr = shrOp from (funext₂ shrOp_eq).symm,
    show sar = sarOp from (funext₂ sarOp_eq).symm]
  exact ⟨fun f => ⟨computes2_of_lane2 fun _ => rfl, computes2_of_lane2 fun _ => rfl, computes2_of_lane2 fun _ => rfl,
      computes2_of_lane2 fun _ => rfl, computes1_of_lane1 fun _ => rfl, computes2_of_lane2 fun _ => rfl, computes2_of_lane2 fun _ => rfl,
      computes2_of_lane2 fun _ => rfl, computes2_of_lane2 fun _ => rfl, computes1_of_lane1 fun _ => rfl, computes1_of_lane1 fun _ => rfl,
      computes1_of_lane1 fun _ => rfl, computes1_of_lane1 fun _ => rfl⟩,
    fun f => ⟨computesI_of_laneI fun _ => rfl, computesI_of_laneI fun _ => rfl, computesI_of_laneI fun _ => rfl,
      computesI_of_laneI fun _ => rfl, computesI_of_laneI fun _ => rfl, computesI_of_laneI fun _ => rfl, computesI_of_laneI fun _ => rfl,
      computesI_of_laneI fun _ => rfl⟩⟩

end Sys2Proof.Machine
end

section
/-! CERTIFICATES. Select, compare, add with carry, 64-bit sums and address arithmetic (R139, R140); O9. -/

namespace Sys2Proof.Machine

/-! What shows that a comparison executes (R139, R143) -/

theorem tests2_of_laneCompare {i : Instr} {f : RF} {test : Word → Word → Bool} (h : ∀ s, exec i s = laneCompare f test s)
    (hv : f.var ≠ 1) : Tests2 i f test :=
  executes_of_runLane (fun s => (h s).trans (congrFun (if_neg hv) s)) (fun _ _ _ _ _ _ _ _ _ _ => rfl) fun _ _ _ _ _ => writePred_pushes _ _

theorem computes2_of_laneCompare {i : Instr} {f : RF} {test : Word → Word → Bool} (h : ∀ s, exec i s = laneCompare f test s)
    (hv : f.var = 1) : Computes2 i f fun a b => if test a b then 1 else 0 :=
  computes2_of_lane2 fun s => (h s).trans (congrFun (if_pos hv) s)

theorem testsI_of_laneCompareI {i : Instr} {f : IF} {test : Word → Word → Bool} (h : ∀ s, exec i s = laneCompareI f test s) :
    TestsI i f test :=
  executes_of_runLane h (fun _ _ _ _ _ _ _ _ _ _ => rfl) fun _ _ _ _ _ => writePred_pushes _ _

/-! Addresses (R140) -/

theorem leaOp_eq (s : Nat) (a b : Word) : leaOp s a b = BitVec.ofNat 32 (a.toNat + b.toNat * 2 ^ s) := by
  refine BitVec.eq_of_toNat_eq ?_
  rw [leaOp, BitVec.toNat_add, BitVec.toNat_shiftLeft, BitVec.toNat_ofNat, Nat.shiftLeft_eq, Nat.add_mod_mod]

/-- The address of lea64 is that of B extended to 64 bits. -/
theorem lea64Op_eq (un : Bool) (s : Nat) (a : DWord) (b : Word) :
    lea64Op un s a b = BitVec.ofInt 64 (a.toNat + intOf un b * 2 ^ s) := by
  have hext : (if un then b.zeroExtend 64 else b.signExtend 64) = BitVec.ofInt 64 (intOf un b) := by
    cases un with
    | true => simp [intOf]
    | false => rfl
  have hpow : BitVec.twoPow 64 s = BitVec.ofInt 64 (2 ^ s) := by
    rw [← Nat.cast_ofNat (n := 2), ← Int.natCast_pow, BitVec.ofInt_natCast]
    exact BitVec.eq_of_toNat_eq (by simp)
  rw [lea64Op, hext, BitVec.ofInt_add, BitVec.ofInt_natCast, BitVec.ofNat_toNat, BitVec.setWidth_eq, BitVec.ofInt_mul,
    BitVec.shiftLeft_eq_mul_twoPow, hpow]

/-- Settles O9: each instruction runs one operation of the model in its members, and the addresses are the rule's by `leaOp_eq` and `lea64Op_eq`. -/
theorem selectsComparesAndWideSums : Obligations.SelectsComparesAndWideSums := by
  unfold Obligations.SelectsComparesAndWideSums
  refine ⟨⟨fun f => ?_, fun f => ⟨tests2_of_laneCompare fun _ => rfl, computes2_of_laneCompare fun _ => rfl⟩, fun f => ?_, fun f => ?_⟩,
    fun f => ⟨?_, ?_, ?_, ?_⟩, fun f => ?_⟩
  · exact executes_of_runLane (fun _ => rfl) (fun _ _ _ _ _ _ _ _ _ _ => rfl) fun _ _ _ _ _ => writeDst_pushes _ _
  · exact testsI_of_laneCompareI fun _ => rfl
  · exact executes_of_runLane (fun _ => rfl) (fun _ _ _ _ _ _ _ _ _ _ => rfl) fun _ _ _ _ _ => writeDst_pushes _ _
  · exact executes_of_runLane (fun _ => rfl) (fun _ _ _ _ _ _ _ _ _ _ => rfl) fun _ _ _ _ _ => writePair_pushes _ _
  · exact executes_of_runLane (fun _ => rfl) (fun _ _ _ _ _ _ _ _ _ _ => rfl) fun _ _ _ _ _ => writePair_pushes _ _
  · rw [← funext₂ (leaOp_eq f.var.toNat)]
    exact computes2_of_lane2 fun _ => rfl
  · simp only [← lea64Op_eq]
    exact executes_of_runLane (fun _ => rfl) (fun _ _ _ _ _ _ _ _ _ _ => rfl) fun _ _ _ _ _ => writePair_pushes _ _
  · have hlea : leaOp 0 = fun a b => a + b := funext₂ fun a b => by simp [leaOp]
    exact hlea ▸ computesI_of_laneI (op := leaOp 0) fun _ => rfl

end Sys2Proof.Machine
end

section
/-! SUPPORT. The order of values (R142, R143): dyadic numbers of one precision in order, and `ltNum`, `eqNum` and `beforeNum` as the order of exact values. -/

namespace Sys2Proof.Machine

/-! Dyadic numbers in order -/

theorem ofIntWithPrec_le_iff (a b p : Int) : Dyadic.ofIntWithPrec a p ≤ Dyadic.ofIntWithPrec b p ↔ a ≤ b := by
  rw [← Dyadic.toRat_le_toRat_iff, Dyadic.toRat_ofIntWithPrec_eq_mul_two_pow, Dyadic.toRat_ofIntWithPrec_eq_mul_two_pow,
    mul_le_mul_iff_left₀ (Rat.zpow_pos (by decide))]
  exact Rat.intCast_le_intCast

theorem ofIntWithPrec_lt_iff (a b p : Int) : Dyadic.ofIntWithPrec a p < Dyadic.ofIntWithPrec b p ↔ a < b := by
  rw [← Dyadic.not_lt, ofIntWithPrec_le_iff, Int.not_le]

/-- Zero beside a number of any precision. -/
theorem zero_lt_ofIntWithPrec_iff (a p : Int) : 0 < Dyadic.ofIntWithPrec a p ↔ 0 < a :=
  ofIntWithPrec_lt_iff 0 a p

theorem ofIntWithPrec_lt_zero_iff (a p : Int) : Dyadic.ofIntWithPrec a p < 0 ↔ a < 0 :=
  ofIntWithPrec_lt_iff a 0 p

theorem dyadic_eq_iff_not_lt (x y : Dyadic) : x = y ↔ ¬ x < y ∧ ¬ y < x := by
  rw [Dyadic.not_le, Dyadic.not_le]
  exact ⟨fun h => h ▸ ⟨Dyadic.le_refl x, Dyadic.le_refl x⟩, fun h => Dyadic.le_antisymm h.2 h.1⟩

/-! Values in order (R142, R143) -/

/-- The difference of two mantissas at a common exponent has the sign of the difference of the numbers. -/
theorem addFin_neg_iff (m1 e1 m2 e2 : Int) :
    (addFin m1 e1 (-m2) e2).1 < 0 ↔ Dyadic.ofIntWithPrec m1 (-e1) < Dyadic.ofIntWithPrec m2 (-e2) := by
  rw [← Num.Holds.lowered m1 (Int.min_le_left e1 e2), ← Num.Holds.lowered m2 (Int.min_le_right e1 e2), ofIntWithPrec_lt_iff]
  simp only [addFin, Int.neg_mul]
  omega

/-- `ltNum` orders finite values as their exact numbers. -/
theorem ltNum_eq {x y : Num} (hx : x.finite = true) (hy : y.finite = true) : ltNum x y = decide (x.exact < y.exact) := by
  cases x with
  | nan | inf => exact nomatch hx
  | zero a =>
    cases y with
    | nan | inf => exact nomatch hy
    | zero b => exact (decide_eq_false (Std.lt_irrefl)).symm
    | fin m e => exact decide_eq_decide.mpr (zero_lt_ofIntWithPrec_iff m (-e)).symm
  | fin m1 e1 =>
    cases y with
    | nan | inf => exact nomatch hy
    | zero b => exact decide_eq_decide.mpr (ofIntWithPrec_lt_zero_iff m1 (-e1)).symm
    | fin m2 e2 => exact decide_eq_decide.mpr (addFin_neg_iff m1 e1 m2 e2)

theorem isNan_of_finite {x : Num} (h : x.finite = true) : x.isNan = false := by
  cases x with
  | nan => exact nomatch h
  | inf | zero | fin => rfl

theorem eqNum_eq {x y : Num} (hx : x.finite = true) (hy : y.finite = true) : eqNum x y = decide (x.exact = y.exact) := by
  rw [eqNum, isNan_of_finite hx, isNan_of_finite hy, ltNum_eq hx hy, ltNum_eq hy hx, Bool.eq_iff_iff, decide_eq_true_iff,
    dyadic_eq_iff_not_lt]
  simp

/-- `beforeNum` is that order, with -0 before +0. -/
theorem beforeNum_iff {x y : Num} (hx : x.finite = true) (hy : y.finite = true) :
    beforeNum x y = true ↔ x.exact < y.exact ∨ (x = .zero true ∧ y = .zero false) := by
  have hother : beforeNum x y = ltNum x y → ¬ (x = .zero true ∧ y = .zero false) →
      (beforeNum x y = true ↔ x.exact < y.exact ∨ (x = .zero true ∧ y = .zero false)) := fun h hne => by
    rw [h, ltNum_eq hx hy, decide_eq_true_iff, or_iff_left hne]
  cases x with
  | nan | inf => exact nomatch hx
  | zero a =>
    cases y with
    | nan | inf => exact nomatch hy
    | zero b =>
      refine Iff.trans ?_ (or_iff_right (Std.lt_irrefl)).symm
      cases a <;> cases b <;> simp [beforeNum]
    | fin m e => exact hother rfl (by simp)
  | fin m1 e1 =>
    cases y with
    | nan | inf => exact nomatch hy
    | zero | fin => exact hother rfl (by simp)

/-- An infinity beside a finite value. -/
theorem order_inf_left (p : Bool) {y : Num} (hy : y.finite = true) :
    ltNum (.inf p) y = p ∧ beforeNum (.inf p) y = p ∧ eqNum (.inf p) y = false := by
  cases y with
  | nan | inf => exact nomatch hy
  | zero | fin => cases p <;> exact ⟨rfl, rfl, rfl⟩

theorem order_inf_right {x : Num} (p : Bool) (hx : x.finite = true) :
    ltNum x (.inf p) = !p ∧ beforeNum x (.inf p) = !p ∧ eqNum x (.inf p) = false := by
  cases x with
  | nan | inf => exact nomatch hx
  | zero | fin => cases p <;> exact ⟨rfl, rfl, rfl⟩

theorem order_inf_inf (p q : Bool) :
    ltNum (.inf p) (.inf q) = (p && !q) ∧ beforeNum (.inf p) (.inf q) = (p && !q) ∧ eqNum (.inf p) (.inf q) = (p == q) := by
  cases p <;> cases q <;> exact ⟨rfl, rfl, rfl⟩

/-! Sums and products of NaN and of infinities (R142) -/

theorem addNum_nan_right (m : RoundMode) (x : Num) : addNum m x .nan = .nan := by cases x <;> rfl
theorem mulNum_nan_right (x : Num) : mulNum x .nan = .nan := by cases x <;> rfl

theorem addNum_inf_finite (m : RoundMode) (p : Bool) {x : Num} (hx : x.finite = true) :
    addNum m (.inf p) x = .inf p ∧ addNum m x (.inf p) = .inf p := by
  cases x with
  | nan | inf => exact nomatch hx
  | zero | fin => exact ⟨rfl, rfl⟩

theorem addNum_inf_inf (m : RoundMode) (p : Bool) : addNum m (.inf p) (.inf (!p)) = .nan ∧ addNum m (.inf p) (.inf p) = .inf p := by
  cases p <;> exact ⟨rfl, rfl⟩

theorem mulNum_inf_fin (p : Bool) (k e : Int) :
    mulNum (.inf p) (.fin k e) = .inf (p != decide (k < 0)) ∧ mulNum (.fin k e) (.inf p) = .inf (p != decide (k < 0)) :=
  ⟨rfl, congrArg Num.inf bne_comm⟩

end Sys2Proof.Machine
end

section
/-! SUPPORT. Rounding a quotient to an integer (R29, R144): the integer that each mode selects, for a magnitude and for a value with its sign. -/

namespace Sys2Proof.Machine

/-! The magnitude -/

section
variable {mode : RoundMode} {neg : Bool} (n : Nat) {d : Nat} (hd : 0 < d)
include hd

theorem roundQuot_inward (hmode : mode.Inward neg) :
    roundQuot mode neg n d * d ≤ n ∧ n < roundQuot mode neg n d * d + d := by
  have hstay : ∀ odd lo hi, mode.away neg odd lo hi = false := by
    obtain rfl | ⟨rfl, rfl⟩ | ⟨rfl, rfl⟩ := hmode <;> exact fun _ _ _ => rfl
  have hmod : n % d < d := Nat.mod_lt n hd
  have hdiv : n / d * d + n % d = n := Nat.div_add_mod' n d
  rw [roundQuot_eq _ _ _ hd, hstay, Bool.toNat_false, Nat.add_zero]
  omega

theorem roundQuot_outward (hmode : mode.Outward neg) :
    n ≤ roundQuot mode neg n d * d ∧ roundQuot mode neg n d * d < n + d := by
  have hup : ∀ odd lo hi, mode.away neg odd lo hi = decide (lo ≠ 0) := by
    obtain ⟨rfl, rfl⟩ | ⟨rfl, rfl⟩ := hmode <;> exact fun _ _ _ => rfl
  have hmod : n % d < d := Nat.mod_lt n hd
  have hdiv : n / d * d + n % d = n := Nat.div_add_mod' n d
  rw [roundQuot_eq _ _ _ hd, hup]
  by_cases h : n % d = 0
  · rw [decide_eq_false (not_not_intro h), Bool.toNat_false, Nat.add_zero]
    omega
  · rw [decide_eq_true h, Bool.toNat_true, Nat.add_mul, Nat.one_mul]
    omega

/-- To nearest: within half of `d`, and at just half even. -/
theorem roundQuot_nearest :
    2 * (roundQuot .rne neg n d * d) ≤ 2 * n + d ∧ 2 * n ≤ 2 * (roundQuot .rne neg n d * d) + d
    ∧ (2 * (roundQuot .rne neg n d * d) = 2 * n + d ∨ 2 * n = 2 * (roundQuot .rne neg n d * d) + d → roundQuot .rne neg n d % 2 = 0) := by
  have hmod : n % d < d := Nat.mod_lt n hd
  have hdiv : n / d * d + n % d = n := Nat.div_add_mod' n d
  rw [roundQuot_eq _ _ _ hd]
  cases hup : RoundMode.away .rne neg (decide (n / d % 2 = 1)) (n % d) (d - n % d) with
  | true =>
    simp only [RoundMode.away, Bool.or_eq_true, Bool.and_eq_true, decide_eq_true_eq] at hup
    rw [Bool.toNat_true, Nat.add_mul, Nat.one_mul]
    omega
  | false =>
    simp only [RoundMode.away, Bool.or_eq_false_iff, Bool.and_eq_false_iff, decide_eq_false_iff_not] at hup
    rw [Bool.toNat_false, Nat.add_zero]
    omega

/-- A quotient rounds to one of the two integers about it. -/
theorem roundQuot_between : n / d ≤ roundQuot mode neg n d ∧ roundQuot mode neg n d ≤ n / d + 1 := by
  rw [roundQuot_eq _ _ _ hd]
  have := Bool.toNat_le (mode.away neg (decide (n / d % 2 = 1)) (n % d) (d - n % d))
  omega
end

/-! A value with its sign -/

/-- The quotient of a magnitude, with the sign of its mantissa. -/
def signedQuot (k : Int) (n : Nat) : Int := if k < 0 then -(n : Int) else n

theorem quotOf_cases (k e : Int) :
    (∃ t : Nat, e = t ∧ quotOf k e = (k.natAbs * 2 ^ t, 1)) ∨ ∃ t : Nat, e = -((t + 1 : Nat) : Int) ∧ quotOf k e = (k.natAbs, 2 ^ (t + 1)) := by
  obtain ⟨t, rfl | rfl⟩ := e.eq_nat_or_neg
  · exact .inl ⟨t, rfl, quotOf_natCast k t⟩
  · cases t with
    | zero => exact .inl ⟨0, rfl, quotOf_natCast k 0⟩
    | succ t => exact .inr ⟨t, rfl, quotOf_neg_natCast k (Nat.succ_pos t)⟩

theorem quotOf_pos {k e : Int} (hk : k ≠ 0) {n d : Nat} (h : quotOf k e = (n, d)) : 0 < n ∧ 0 < d := by
  have hne : 0 < k.natAbs := Int.natAbs_pos.mpr hk
  obtain ⟨t, -, hq⟩ | ⟨t, -, hq⟩ := quotOf_cases k e
  all_goals
    obtain ⟨rfl, rfl⟩ := Prod.mk.inj (hq.symm.trans h)
  · exact ⟨Nat.mul_pos hne (Nat.two_pow_pos t), Nat.one_pos⟩
  · exact ⟨hne, Nat.two_pow_pos _⟩

theorem signedQuot_natAbs (k : Int) : signedQuot k k.natAbs = k := by
  unfold signedQuot
  split <;> omega

theorem signedQuot_mul (k : Int) (n c : Nat) : signedQuot k (n * c) = signedQuot k n * c := by
  unfold signedQuot
  split <;> simp

theorem Num.exact_fin (k e : Int) : (Num.fin k e).exact = Dyadic.ofIntWithPrec k (-e) := rfl

/-- The number of a finite value beside `a` halves. -/
theorem halves_le_exact_iff {k e : Int} {n d : Nat} (h : quotOf k e = (n, d)) (a : Int) :
    (Dyadic.ofIntWithPrec a 1 ≤ (Num.fin k e).exact ↔ a * d ≤ 2 * signedQuot k n)
    ∧ ((Num.fin k e).exact ≤ Dyadic.ofIntWithPrec a 1 ↔ 2 * signedQuot k n ≤ a * d) := by
  obtain ⟨t, rfl, hq⟩ | ⟨t, rfl, hq⟩ := quotOf_cases k e
  all_goals
    obtain ⟨rfl, rfl⟩ := Prod.mk.inj (hq.symm.trans h)
    rw [Num.exact_fin]
  · have hx : Dyadic.ofIntWithPrec k (-t) = Dyadic.ofIntWithPrec (2 * signedQuot k (k.natAbs * 2 ^ t)) 1 := by
      rw [signedQuot_mul, signedQuot_natAbs, Int.mul_left_comm, Nat.cast_pow, Nat.cast_ofNat, ← Int.pow_succ', ofIntWithPrec_mul_two_pow]
      congr 1
      omega
    rw [hx, ofIntWithPrec_le_iff, ofIntWithPrec_le_iff]
    simp
  · have ha : Dyadic.ofIntWithPrec a 1 = Dyadic.ofIntWithPrec (a * 2 ^ t) (- -((t + 1 : Nat) : Int)) := by
      rw [ofIntWithPrec_mul_two_pow]
      congr 1
      omega
    have hd : a * (2 ^ (t + 1) : Nat) = 2 * (a * 2 ^ t) := by
      rw [Nat.pow_succ]
      push_cast
      grind
    rw [ha, ofIntWithPrec_le_iff, ofIntWithPrec_le_iff, signedQuot_natAbs, hd]
    omega

/-- Integers, and integers with a half, as halves. -/
theorem ofIntWithPrec_zero_eq_halves (i : Int) : Dyadic.ofIntWithPrec i 0 = Dyadic.ofIntWithPrec (2 * i) 1 := by
  rw [Int.mul_comm]
  exact (ofIntWithPrec_mul_two_pow i 1 1).symm

theorem add_half_eq_halves (i : Int) : Dyadic.ofIntWithPrec i 0 + Dyadic.ofIntWithPrec 1 1 = Dyadic.ofIntWithPrec (2 * i + 1) 1 := by
  rw [ofIntWithPrec_add, ofIntWithPrec_zero_eq_halves]

theorem sub_half_eq_halves (i : Int) : Dyadic.ofIntWithPrec i 0 - Dyadic.ofIntWithPrec 1 1 = Dyadic.ofIntWithPrec (2 * i - 1) 1 := by
  have h := add_half_eq_halves (i - 1)
  have hadd : Dyadic.ofIntWithPrec (i - 1) 0 + Dyadic.ofIntWithPrec 1 0 = Dyadic.ofIntWithPrec i 0 := by
    rw [← ofIntWithPrec_add, Int.sub_add_cancel]
  have hone : Dyadic.ofIntWithPrec 1 0 = Dyadic.ofIntWithPrec 1 1 + Dyadic.ofIntWithPrec 1 1 := by decide
  have hexp : 2 * (i - 1) + 1 = 2 * i - 1 := by omega
  rw [hexp] at h
  rw [← h, ← hadd, hone]
  grind

/-! An integer beside a value, by its quotient -/

section
variable {k e : Int} {n d : Nat} (hq : quotOf k e = (n, d)) {r : Int}
include hq

theorem exact_in_floor (h : r * d ≤ signedQuot k n ∧ signedQuot k n < r * d + d) :
    Dyadic.ofIntWithPrec r 0 ≤ (Num.fin k e).exact ∧ (Num.fin k e).exact < Dyadic.ofIntWithPrec (r + 1) 0 := by
  have hle := fun a => (halves_le_exact_iff hq a).1
  rw [ofIntWithPrec_zero_eq_halves, ofIntWithPrec_zero_eq_halves, ← Dyadic.not_lt, hle, hle, Int.mul_assoc, Int.mul_assoc, Int.add_mul]
  omega

theorem exact_in_ceil (h : signedQuot k n ≤ r * d ∧ r * d - d < signedQuot k n) :
    Dyadic.ofIntWithPrec (r - 1) 0 < (Num.fin k e).exact ∧ (Num.fin k e).exact ≤ Dyadic.ofIntWithPrec r 0 := by
  have hge := fun a => (halves_le_exact_iff hq a).2
  rw [ofIntWithPrec_zero_eq_halves, ofIntWithPrec_zero_eq_halves, ← Dyadic.not_lt, hge, hge, Int.mul_assoc, Int.mul_assoc, Int.sub_mul]
  omega

theorem mul_eq_of_exact_eq_halves {a : Int} (h : (Num.fin k e).exact = Dyadic.ofIntWithPrec a 1) : a * d = 2 * signedQuot k n :=
  Int.le_antisymm ((halves_le_exact_iff hq a).1.mp (h ▸ Dyadic.le_refl _)) ((halves_le_exact_iff hq a).2.mp (h ▸ Dyadic.le_refl _))

theorem exact_near (hlow : 2 * (r * d) - d ≤ 2 * signedQuot k n) (hhigh : 2 * signedQuot k n ≤ 2 * (r * d) + d)
    (htie : 2 * signedQuot k n = 2 * (r * d) - d ∨ 2 * signedQuot k n = 2 * (r * d) + d → r % 2 = 0) :
    Dyadic.ofIntWithPrec r 0 - Dyadic.ofIntWithPrec 1 1 ≤ (Num.fin k e).exact ∧ (Num.fin k e).exact ≤ Dyadic.ofIntWithPrec r 0 + Dyadic.ofIntWithPrec 1 1
    ∧ ((Num.fin k e).exact = Dyadic.ofIntWithPrec r 0 - Dyadic.ofIntWithPrec 1 1 ∨ (Num.fin k e).exact = Dyadic.ofIntWithPrec r 0 + Dyadic.ofIntWithPrec 1 1
      → r % 2 = 0) := by
  have hless : (2 * r - 1) * d = 2 * (r * d) - d := by rw [Int.sub_mul, Int.mul_assoc, Int.one_mul]
  have hmore : (2 * r + 1) * d = 2 * (r * d) + d := by rw [Int.add_mul, Int.mul_assoc, Int.one_mul]
  rw [sub_half_eq_halves, add_half_eq_halves, (halves_le_exact_iff hq _).1, (halves_le_exact_iff hq _).2, hless, hmore]
  exact ⟨hlow, hhigh, fun h => htie (h.imp (fun h => (mul_eq_of_exact_eq_halves hq h).symm.trans hless)
    fun h => (mul_eq_of_exact_eq_halves hq h).symm.trans hmore)⟩
end

/-! The integer that a mode selects (R29, R144) -/

theorem roundInt_eq (m : RoundMode) {k e : Int} {n d : Nat} (h : quotOf k e = (n, d)) :
    roundInt m (.fin k e) = signedQuot k (roundQuot m (decide (k < 0)) n d) := by
  show (if k < 0 then _ else _) = _
  rw [h]
  rfl

theorem signedQuot_of_neg {k : Int} (h : k < 0) (n : Nat) : signedQuot k n = -n := if_pos h
theorem signedQuot_of_pos {k : Int} (h : 0 < k) (n : Nat) : signedQuot k n = n := if_neg (by omega)

section
variable {m : RoundMode} {k e : Int} {n d : Nat} (hq : quotOf k e = (n, d)) (hd : 0 < d)
include hq hd

/-- A mode that rounds toward 0 gives the integer below a positive value and the one above a negative value. -/
theorem roundInt_inward (hm : m.Inward (decide (k < 0))) :
    (0 < k → roundInt m (.fin k e) * d ≤ signedQuot k n ∧ signedQuot k n < roundInt m (.fin k e) * d + d)
    ∧ (k < 0 → signedQuot k n ≤ roundInt m (.fin k e) * d ∧ roundInt m (.fin k e) * d - d < signedQuot k n) := by
  obtain ⟨hlow, hhigh⟩ := roundQuot_inward n hd hm
  rw [roundInt_eq m hq, ← signedQuot_mul]
  exact ⟨fun h => by rw [signedQuot_of_pos h, signedQuot_of_pos h]; omega, fun h => by rw [signedQuot_of_neg h, signedQuot_of_neg h]; omega⟩

theorem roundInt_outward (hm : m.Outward (decide (k < 0))) :
    (0 < k → signedQuot k n ≤ roundInt m (.fin k e) * d ∧ roundInt m (.fin k e) * d - d < signedQuot k n)
    ∧ (k < 0 → roundInt m (.fin k e) * d ≤ signedQuot k n ∧ signedQuot k n < roundInt m (.fin k e) * d + d) := by
  obtain ⟨hlow, hhigh⟩ := roundQuot_outward n hd hm
  rw [roundInt_eq m hq, ← signedQuot_mul]
  exact ⟨fun h => by rw [signedQuot_of_pos h, signedQuot_of_pos h]; omega, fun h => by rw [signedQuot_of_neg h, signedQuot_of_neg h]; omega⟩

/-- To nearest: within half, and at just half even. -/
theorem roundInt_nearest (hk : k ≠ 0) :
    2 * (roundInt .rne (.fin k e) * d) - d ≤ 2 * signedQuot k n ∧ 2 * signedQuot k n ≤ 2 * (roundInt .rne (.fin k e) * d) + d
    ∧ (2 * signedQuot k n = 2 * (roundInt .rne (.fin k e) * d) - d ∨ 2 * signedQuot k n = 2 * (roundInt .rne (.fin k e) * d) + d
      → roundInt .rne (.fin k e) % 2 = 0) := by
  obtain ⟨hhigh, hlow, htie⟩ := roundQuot_nearest (neg := decide (k < 0)) n hd
  rw [roundInt_eq .rne hq, ← signedQuot_mul]
  obtain h | h : k < 0 ∨ 0 < k := by omega
  · simp only [signedQuot_of_neg h]
    omega
  · simp only [signedQuot_of_pos h]
    omega
end

/-- The integer that the mode selects for a value `k * 2^e` (R29, R144). -/
theorem roundInt_selects (m : RoundMode) {k : Int} (hk : k ≠ 0) (e : Int) :
    let x : Num := .fin k e
    let r := roundInt m x
    match m with
    | .rtz => if 0 < k then Dyadic.ofIntWithPrec r 0 ≤ x.exact ∧ x.exact < Dyadic.ofIntWithPrec (r + 1) 0
        else Dyadic.ofIntWithPrec (r - 1) 0 < x.exact ∧ x.exact ≤ Dyadic.ofIntWithPrec r 0
    | .rdn => Dyadic.ofIntWithPrec r 0 ≤ x.exact ∧ x.exact < Dyadic.ofIntWithPrec (r + 1) 0
    | .rup => Dyadic.ofIntWithPrec (r - 1) 0 < x.exact ∧ x.exact ≤ Dyadic.ofIntWithPrec r 0
    | .rne => Dyadic.ofIntWithPrec r 0 - Dyadic.ofIntWithPrec 1 1 ≤ x.exact ∧ x.exact ≤ Dyadic.ofIntWithPrec r 0 + Dyadic.ofIntWithPrec 1 1
        ∧ (x.exact = Dyadic.ofIntWithPrec r 0 - Dyadic.ofIntWithPrec 1 1 ∨ x.exact = Dyadic.ofIntWithPrec r 0 + Dyadic.ofIntWithPrec 1 1
          → r % 2 = 0) := by
  obtain ⟨⟨n, d⟩, hq⟩ : ∃ q, quotOf k e = q := ⟨_, rfl⟩
  have hd := (quotOf_pos hk hq).2
  obtain hneg | hpos : k < 0 ∨ 0 < k := by omega
  · have hsign : decide (k < 0) = true := decide_eq_true hneg
    cases m with
    | rtz => exact (if_neg (by omega)).mpr (exact_in_ceil hq ((roundInt_inward hq hd (.inl rfl)).2 hneg))
    | rdn => exact exact_in_floor hq ((roundInt_outward hq hd (.inr ⟨rfl, hsign⟩)).2 hneg)
    | rup => exact exact_in_ceil hq ((roundInt_inward hq hd (.inr (.inl ⟨rfl, hsign⟩))).2 hneg)
    | rne =>
      obtain ⟨hlow, hhigh, htie⟩ := roundInt_nearest hq hd hk
      exact exact_near hq hlow hhigh htie
  · have hsign : decide (k < 0) = false := decide_eq_false (by omega)
    cases m with
    | rtz => exact (if_pos hpos).mpr (exact_in_floor hq ((roundInt_inward hq hd (.inl rfl)).1 hpos))
    | rdn => exact exact_in_floor hq ((roundInt_inward hq hd (.inr (.inr ⟨rfl, hsign⟩))).1 hpos)
    | rup => exact exact_in_ceil hq ((roundInt_outward hq hd (.inl ⟨rfl, hsign⟩)).1 hpos)
    | rne =>
      obtain ⟨hlow, hhigh, htie⟩ := roundInt_nearest hq hd hk
      exact exact_near hq hlow hhigh htie

end Sys2Proof.Machine
end

section
/-! SUPPORT. Patterns of special values, and rounding far outside the range of a format (R22, R29): a pattern from its value, and results that depend on the sign alone. -/

namespace Sys2Proof.Machine

/-! A pattern from its value (R22) -/

theorem eq_withSign (f : FloatFormat) (hw : 0 < f.width) {b : Nat} (h : b < 2 ^ f.width) :
    b = withSign f (b.testBit (f.width - 1)) (b % 2 ^ (f.width - 1)) := by
  have hpow : 2 ^ f.width = 2 ^ (f.width - 1) * 2 := by rw [← Nat.pow_succ, Nat.succ_eq_add_one, Nat.sub_add_cancel hw]
  have hdiv : b / 2 ^ (f.width - 1) < 2 := Nat.div_lt_of_lt_mul (hpow ▸ h)
  have hsplit := Nat.div_add_mod' b (2 ^ (f.width - 1))
  have hbit : b.testBit (f.width - 1) = decide (b / 2 ^ (f.width - 1) = 1) := by
    rw [Nat.testBit_eq_decide_div_mod_eq, Nat.mod_eq_of_lt hdiv]
  rw [withSign, hbit]
  generalize b / 2 ^ (f.width - 1) = top at hdiv hsplit
  obtain rfl | rfl : top = 0 ∨ top = 1 := by omega
  · rw [Nat.zero_mul, Nat.zero_add] at hsplit
    exact hsplit.symm
  · rw [Nat.one_mul, Nat.add_comm] at hsplit
    exact hsplit.symm

/-- What a value says of its pattern: the magnitude of a zero and of an infinity, and the mantissa and the exponent of a number. -/
theorem valOf_inv (f : FloatFormat) (b : Nat) :
    match valOf f b with
    | .nan => True
    | .inf neg => b.testBit (f.width - 1) = neg ∧ f.inf = some (b % 2 ^ (f.width - 1))
    | .zero neg => b.testBit (f.width - 1) = neg ∧ b % 2 ^ (f.width - 1) = 0
    | .fin k e => b.testBit (f.width - 1) = decide (k < 0) ∧ k.natAbs < 2 ^ (f.m + 1) ∧ 1 - (f.bias : Int) - f.m ≤ e
        ∧ e ≤ max 1 ((f.max / 2 ^ f.m : Nat) : Int) - f.bias - f.m := by
  have hpos : 0 < 2 ^ f.m := Nat.two_pow_pos f.m
  have hpow : 2 ^ (f.m + 1) = 2 ^ f.m + 2 ^ f.m := by omega
  unfold valOf
  generalize b % 2 ^ (f.width - 1) = mag
  generalize b.testBit (f.width - 1) = neg
  by_cases hzero : mag = 0
  · simp [hzero]
  by_cases hmax : mag ≤ f.max
  · have hdiv : mag / 2 ^ f.m ≤ f.max / 2 ^ f.m := Nat.div_le_div_right hmax
    have hmod : mag % 2 ^ f.m < 2 ^ f.m := Nat.mod_lt _ hpos
    have hsig : 0 < (if mag / 2 ^ f.m = 0 then mag else mag % 2 ^ f.m + 2 ^ f.m)
        ∧ (if mag / 2 ^ f.m = 0 then mag else mag % 2 ^ f.m + 2 ^ f.m) < 2 ^ (f.m + 1) := by
      split
      case isTrue h => have := Nat.lt_of_div_eq_zero hpos h; omega
      case isFalse => omega
    simp only [hzero, hmax, if_true, if_false]
    generalize (if mag / 2 ^ f.m = 0 then mag else mag % 2 ^ f.m + 2 ^ f.m) = sig at hsig
    generalize mag / 2 ^ f.m = j at hdiv
    generalize f.max / 2 ^ f.m = last at hdiv
    refine ⟨?_, ?_, ?_, ?_⟩
    · cases neg
      · exact (decide_eq_false (by simp)).symm
      · exact (decide_eq_true (by simp; omega)).symm
    · split <;> omega
    · split <;> omega
    · split <;> omega
  · by_cases hinf : f.inf = some mag
    · simp [hzero, hmax, hinf]
    · simp [hzero, hmax, hinf]

theorem eq_of_valF32_inf {a : Word} {p : Bool} (h : valF32 a = .inf p) : a = inf32 p := by
  have hinv := valOf_inv fp32 a.toNat
  rw [show valOf fp32 a.toNat = .inf p from h] at hinv
  obtain ⟨hsign, hmag⟩ := hinv
  refine BitVec.eq_of_toNat_eq ?_
  rw [eq_withSign fp32 (by decide) a.isLt, hsign, ← Option.some.inj hmag]
  cases p <;> rfl

theorem eq_of_valF32_zero {a : Word} {p : Bool} (h : valF32 a = .zero p) : a = zero32 p := by
  have hinv := valOf_inv fp32 a.toNat
  rw [show valOf fp32 a.toNat = .zero p from h] at hinv
  obtain ⟨hsign, hmag⟩ := hinv
  refine BitVec.eq_of_toNat_eq ?_
  rw [eq_withSign fp32 (by decide) a.isLt, hsign, hmag]
  cases p <;> rfl

/-- The mantissa and the exponent of a number of FP32. -/
theorem valF32_fin_bounds {a : Word} {k e : Int} (h : valF32 a = .fin k e) : k ≠ 0 ∧ k.natAbs < 2 ^ 24 ∧ -149 ≤ e ∧ e ≤ 104 := by
  have hinv := valOf_inv fp32 a.toNat
  rw [show valOf fp32 a.toNat = .fin k e from h] at hinv
  obtain ⟨-, hk, hlow, hhigh⟩ := hinv
  have hmin : 1 - (fp32.bias : Int) - fp32.m = -149 := by decide
  have hmax : max 1 ((fp32.max / 2 ^ fp32.m : Nat) : Int) - fp32.bias - fp32.m = 104 := by decide
  exact ⟨valOf_mantissa_ne_zero h, hk, hmin ▸ hlow, hmax ▸ hhigh⟩

/-! Rounding beyond the range (R29) -/

/-- Patterns that have overflowed round alike. -/
theorem roundRat_congr_of_overflow {f : FloatFormat} {mode : RoundMode} {neg : Bool} {n d n' d' : Nat}
    (h : f.max < roundMag f mode neg n d) (h' : f.max < roundMag f mode neg n' d') : roundRat f mode neg n d = roundRat f mode neg n' d' :=
  (if_neg (Nat.not_le.mpr h)).trans (if_neg (Nat.not_le.mpr h')).symm

/-- A quotient below half the smallest step rounds as any other does. -/
theorem roundMag_of_tiny {f : FloatFormat} (hm : 0 < f.m) (hb : 0 < f.bias) (mode : RoundMode) (neg : Bool) {n d : Nat} (hn : 0 < n)
    (hd : 2 * f.scaled n < d) : roundMag f mode neg n d = (mode.away neg false 1 2).toNat := by
  have hzero : f.steps 0 = 0 := by simp [FloatFormat.steps]
  have hone : f.steps 1 = 1 := by
    have : 1 / 2 ^ f.m = 0 := Nat.div_eq_of_lt (Nat.one_lt_two_pow (by omega))
    simp [FloatFormat.steps, this]
  have hscaled : 0 < f.scaled n := Nat.mul_pos hn (Nat.two_pow_pos _)
  obtain ⟨a, ⟨hlow, -⟩, hround⟩ := roundMag_spec f hm hb mode neg hn (by omega : 0 < d)
  obtain rfl : a = 0 := by
    refine Nat.lt_one_iff.mp ((steps_mul_lt_iff f (by omega : 0 < d)).mp ?_)
    rw [hone]
    omega
  rw [hround, hzero, hone, Nat.zero_add]
  congr 1
  cases mode with
  | rne => simp [RoundMode.away]; omega
  | rtz => rfl
  | rup => simp [RoundMode.away]; omega
  | rdn => simp [RoundMode.away]; omega

theorem round32_congr_of_large (m : RoundMode) {k e e' : Int} (hk : k ≠ 0) (he : 128 ≤ e) (he' : 128 ≤ e') :
    round32 m (.fin k e) = round32 m (.fin k e') := by
  have hover : ∀ e : Int, 128 ≤ e → fp32.max < roundMag fp32 m (decide (k < 0)) (quotOf k e).1 (quotOf k e).2 := fun e he => by
    obtain ⟨t, rfl⟩ := Int.eq_ofNat_of_zero_le (by omega : 0 ≤ e)
    have hkpos : 1 ≤ k.natAbs := Int.natAbs_pos.mpr hk
    have hlast : fp32.steps 0x7F800000 = 2 ^ 128 * 2 ^ 149 := by decide
    rw [quotOf_natCast]
    refine le_roundMag_of_steps_le (by decide) (by decide) (Nat.mul_pos hkpos (Nat.two_pow_pos t)) Nat.one_pos ?_
    rw [show fp32.max.succ = 0x7F800000 from rfl, hlast, Nat.mul_one]
    refine Nat.mul_le_mul_right _ (Nat.le_trans (Nat.pow_le_pow_right (by decide) (by omega : 128 ≤ t)) ?_)
    exact Nat.le_mul_of_pos_left _ hkpos
  exact congrArg (BitVec.ofNat 32) (roundRat_congr_of_overflow (hover e he) (hover e' he'))

theorem round32_congr_of_tiny (m : RoundMode) {k e e' : Int} (hk : k ≠ 0) (hlt : k.natAbs < 2 ^ 24) (he : e ≤ -200) (he' : e' ≤ -200) :
    round32 m (.fin k e) = round32 m (.fin k e') := by
  have htiny : ∀ e : Int, e ≤ -200 →
      roundMag fp32 m (decide (k < 0)) (quotOf k e).1 (quotOf k e).2 = (m.away (decide (k < 0)) false 1 2).toNat := fun e he => by
    obtain ⟨t, rfl⟩ : ∃ t : Nat, e = -t := ⟨e.natAbs, by omega⟩
    rw [quotOf_neg_natCast k (by omega)]
    refine roundMag_of_tiny (by decide) (by decide) m _ (Int.natAbs_pos.mpr hk) ?_
    calc 2 * (k.natAbs * 2 ^ 149) < 2 ^ 200 := by omega
      _ ≤ 2 ^ t := Nat.pow_le_pow_right (by decide) (by omega)
  simp only [round32, round, roundRat, htiny e he, htiny e' he']

end Sys2Proof.Machine
end

section
/-! SUPPORT. Roots and estimates (R142, R145): the integer root behind `sqrtQuot`, the 12 bits of `sig12`, and the powers and logarithms that are exact. -/

namespace Sys2Proof.Machine

/-! The exponent of a scaled quotient (R29) -/

theorem scaleQuot_natCast (n d t : Nat) : scaleQuot n d t = (n * 2 ^ t, d) := by simp [scaleQuot]

theorem scaleQuot_neg_natCast (n d : Nat) {t : Nat} (ht : 0 < t) : scaleQuot n d (-t) = (n, d * 2 ^ t) := by
  simp [scaleQuot, Nat.ne_of_gt ht]

/-- A scaled quotient reaches 2^p just where its exponent does. -/
theorem two_pow_le_scaleQuot_iff {n d : Nat} (hn : 0 < n) (hd : 0 < d) (p : Nat) (j : Int) :
    2 ^ p * (scaleQuot n d j).2 ≤ (scaleQuot n d j).1 ↔ (p : Int) - j ≤ expoQuot n d := by
  obtain ⟨t, rfl | rfl⟩ := j.eq_nat_or_neg
  · rw [scaleQuot_natCast]
    exact (le_expoQuot_iff hn hd p t).symm
  · obtain rfl | ht := Nat.eq_zero_or_pos t
    · rw [Int.natCast_zero, Int.neg_zero, ← Int.natCast_zero, scaleQuot_natCast]
      exact (le_expoQuot_iff hn hd p 0).symm
    · have h := le_expoQuot_iff hn hd (p + t) 0
      rw [scaleQuot_neg_natCast n d ht, Nat.mul_left_comm, ← Nat.pow_add, Nat.mul_comm d]
      rw [Nat.pow_zero, Nat.mul_one] at h
      rw [← h]
      omega

theorem scaleQuot_snd_pos (n : Nat) {d : Nat} (hd : 0 < d) (j : Int) : 0 < (scaleQuot n d j).2 := by
  unfold scaleQuot
  split
  · exact hd
  · exact Nat.mul_pos hd (Nat.two_pow_pos _)

theorem scaleQuot_mul_right (n d c : Nat) (j : Int) :
    scaleQuot (n * c) (d * c) j = ((scaleQuot n d j).1 * c, (scaleQuot n d j).2 * c) := by
  unfold scaleQuot
  split
  · rw [Nat.mul_right_comm]
  · rw [Nat.mul_right_comm d]

theorem expoQuot_eq {n d a b : Nat} (hn : 0 < n) (hd : 0 < d) (hlow : 2 ^ a * d ≤ n * 2 ^ b) (hhigh : n * 2 ^ b < 2 ^ (a + 1) * d) :
    expoQuot n d = (a : Int) - b := by
  have h1 := (le_expoQuot_iff hn hd a b).mpr hlow
  have h2 := mt (le_expoQuot_iff hn hd (a + 1) b).mp (Nat.not_le.mpr hhigh)
  omega

/-- A common factor does not change an exponent. -/
theorem expoQuot_mul_right {n d c : Nat} (hn : 0 < n) (hd : 0 < d) (hc : 0 < c) : expoQuot (n * c) (d * c) = expoQuot n d := by
  refine eq_of_forall_le_iff fun j => ?_
  obtain ⟨a, b, rfl⟩ : ∃ a b : Nat, j = (a : Int) - b := ⟨j.toNat, (-j).toNat, by omega⟩
  rw [le_expoQuot_iff hn hd, le_expoQuot_iff (Nat.mul_pos hn hc) (Nat.mul_pos hd hc), ← Nat.mul_assoc, Nat.mul_right_comm n]
  exact Nat.mul_le_mul_right_iff hc

/-! Square roots (R142) -/

/-- The bits of the root, from an approximation from below. -/
theorem isqrtFrom_spec (n k acc : Nat) (hlow : acc * acc ≤ n) (hhigh : n < (acc + 2 ^ k) * (acc + 2 ^ k)) :
    isqrtFrom n k acc * isqrtFrom n k acc ≤ n ∧ n < (isqrtFrom n k acc + 1) * (isqrtFrom n k acc + 1) := by
  induction k generalizing acc with
  | zero => exact ⟨hlow, hhigh⟩
  | succ k ih =>
    unfold isqrtFrom
    split
    case isTrue h =>
      refine ih _ h ?_
      rwa [Nat.add_assoc, ← Nat.mul_two, ← Nat.pow_succ]
    case isFalse h => exact ih _ hlow (Nat.not_le.mp h)

theorem isqrt_spec (n : Nat) : isqrt n * isqrt n ≤ n ∧ n < (isqrt n + 1) * (isqrt n + 1) := by
  refine isqrtFrom_spec n _ 0 (Nat.zero_le n) ?_
  calc n < 2 ^ (n.log2 + 1) := Nat.lt_log2_self
    _ ≤ 2 ^ (n.log2 / 2 + 1 + (n.log2 / 2 + 1)) := Nat.pow_le_pow_right (by decide) (by omega)
    _ = (0 + 2 ^ (n.log2 / 2 + 1)) * (0 + 2 ^ (n.log2 / 2 + 1)) := by rw [Nat.pow_add, Nat.zero_add]

/-- The root of a quotient is known exactly or to within a part in 2^80. -/
theorem sqrtQuot_spec {n d : Nat} (hn : 0 < n) (hd : 0 < d) : ∃ s k : Nat, 2 ^ 80 ≤ s ∧ s * s * d ≤ n * 4 ^ k ∧ n * 4 ^ k < (s + 1) * (s + 1) * d
    ∧ sqrtQuot n d = if s * s * d = n * 4 ^ k then (s, 2 ^ k) else (2 * s + 1, 2 ^ (k + 1)) := by
  obtain ⟨k, hk⟩ : ∃ k, ((200 - expoQuot n d) / 2).toNat = k := ⟨_, rfl⟩
  obtain ⟨hlow, hhigh⟩ := isqrt_spec (n * 4 ^ k / d)
  have hlarge : 2 ^ 160 ≤ n * 4 ^ k / d := by
    rw [Nat.le_div_iff_mul_le hd, show 4 ^ k = 2 ^ (2 * k) from Nat.pow_mul 2 2 k ▸ rfl, ← le_expoQuot_iff hn hd]
    omega
  refine ⟨isqrt (n * 4 ^ k / d), k, ?_, (Nat.le_div_iff_mul_le hd).mp hlow, (Nat.div_lt_iff_lt_mul hd).mp hhigh, by rw [sqrtQuot, hk]⟩
  by_contra hsmall
  have hsq : (isqrt (n * 4 ^ k / d) + 1) * (isqrt (n * 4 ^ k / d) + 1) ≤ 2 ^ 80 * 2 ^ 80 :=
    Nat.mul_le_mul (Nat.lt_of_not_le hsmall) (Nat.lt_of_not_le hsmall)
  omega

/-! Twelve bits (R145) -/

/-- `sig12` is the nearest number of 12 bits, ties to even. -/
theorem sig12_spec {n d : Nat} (hn : 0 < n) (hd : 0 < d) : ∃ (k : Nat) (j : Int), 2 ^ 11 ≤ k ∧ k ≤ 2 ^ 12 ∧ sig12 n d = scaleQuot k 1 j
    ∧ (2 * (((k * (scaleQuot n d (-j)).2 : Nat) : Int) - (scaleQuot n d (-j)).1)).natAbs ≤ (scaleQuot n d (-j)).2
    ∧ ((2 * (((k * (scaleQuot n d (-j)).2 : Nat) : Int) - (scaleQuot n d (-j)).1)).natAbs = (scaleQuot n d (-j)).2 → k % 2 = 0) := by
  have hpos := scaleQuot_snd_pos n hd (11 - expoQuot n d)
  have hlow := (two_pow_le_scaleQuot_iff hn hd 11 (11 - expoQuot n d)).mpr (by omega)
  have hhigh := mt (two_pow_le_scaleQuot_iff hn hd 12 (11 - expoQuot n d)).mp (by omega)
  refine ⟨_, expoQuot n d - 11, ?_, ?_, rfl, ?_⟩
  · exact Nat.le_trans ((Nat.le_div_iff_mul_le hpos).mpr hlow) (roundQuot_between _ hpos).1
  · exact Nat.le_trans (roundQuot_between _ hpos).2 ((Nat.div_lt_iff_lt_mul hpos).mpr (Nat.lt_of_not_le hhigh))
  · obtain ⟨h1, h2, h3⟩ := roundQuot_nearest (neg := false) (scaleQuot n d (11 - expoQuot n d)).1 hpos
    rw [Int.neg_sub]
    omega

theorem sig12_mul_right {n d c : Nat} (hn : 0 < n) (hd : 0 < d) (hc : 0 < c) : sig12 (n * c) (d * c) = sig12 n d := by
  simp only [sig12, expoQuot_mul_right hn hd hc, scaleQuot_mul_right, roundQuot_mul_right _ _ _ _ hc]

theorem estimate_mul_right (neg : Bool) {n d c : Nat} (hn : 0 < n) (hd : 0 < d) (hc : 0 < c) :
    estimate neg (n * c) (d * c) = estimate neg n d := by
  simp only [estimate, sig12_mul_right hn hd hc]

/-! Powers of integers, and logarithms of powers of two (R145) -/

theorem exp2Finite_of_large {k e : Int} {n d : Nat} (hq : quotOf k e = (n, d)) (hk : ¬ k < 0) (h : 128 * d ≤ n) :
    exp2Finite k e = 0x7F800000 := by
  simp [exp2Finite, hq, hk, h]
  rfl

theorem exp2Finite_of_int {k e : Int} {n d i : Nat} (hq : quotOf k e = (n, d)) (hd : 0 < d) (hn : n = i * d) (hi : i < 128) :
    exp2Finite k e = if k < 0 then estimate false 1 (2 ^ i) else estimate false (2 ^ i) 1 := by
  have hdiv : i * d / d = i := Nat.mul_div_cancel i hd
  have hup : (i * d + d - 1) / d = i := by
    rw [Nat.add_sub_assoc hd, Nat.mul_comm, Nat.mul_add_div hd, Nat.div_eq_of_lt (by omega), Nat.add_zero]
  have hlarge : ∀ c, i < c → ¬ c * d ≤ i * d := fun c hc => Nat.not_le.mpr (Nat.mul_lt_mul_of_pos_right hc hd)
  have hfix : 0 < 2 ^ fixBits := Nat.two_pow_pos _
  subst hn
  unfold exp2Finite
  generalize 2 ^ fixBits = c at hfix
  simp only [hq, hlarge 128 hi, hlarge 300 (by omega), decide_false, Bool.and_false, Bool.false_eq_true, if_false, Nat.mul_mod_left, hdiv, hup,
    Nat.sub_zero, Nat.mod_self, ite_self, if_true, decide_eq_true_eq]
  have hpow : ∀ t : Nat, 0 < 2 ^ t := fun t => Nat.two_pow_pos t
  split
  · have hscale : scaleQuot c c (-(i : Int)) = (1 * c, 2 ^ i * c) := by
      obtain rfl | hpos := Nat.eq_zero_or_pos i
      · simp [scaleQuot]
      · rw [scaleQuot_neg_natCast c c hpos, Nat.one_mul, Nat.mul_comm]
    rw [hscale, estimate_mul_right false Nat.one_pos (hpow i) hfix]
  · have hscale : scaleQuot c c (i : Int) = (2 ^ i * c, 1 * c) := by
      rw [scaleQuot_natCast, Nat.one_mul, Nat.mul_comm]
    rw [hscale, estimate_mul_right false (hpow i) Nat.one_pos hfix]

/-- log2e of a quotient that is 2^j exactly, for an exponent `j` other than 0. -/
theorem log2Finite_of_exponent {n d : Nat} {j : Int} (hj : j ≠ 0) (he : expoQuot n d = j) (hs : (scaleQuot n d (-j)).1 = (scaleQuot n d (-j)).2) :
    log2Finite n d = estimate (decide (j < 0)) j.natAbs 1 := by
  have hfix : 0 < 2 ^ fixBits := Nat.two_pow_pos _
  have hcast : (2 : Int) ^ fixBits = (2 ^ fixBits : Nat) := by rw [Int.natCast_pow]; rfl
  unfold log2Finite
  simp only [he, hs, if_true, Int.add_zero, hcast]
  generalize 2 ^ fixBits = c at hfix
  have hsign : j * (c : Int) < 0 ↔ j < 0 := ⟨fun h => neg_of_mul_neg_left h (by omega), fun h => Int.mul_neg_of_neg_of_pos h (by omega)⟩
  have hne : j * (c : Int) ≠ 0 := Int.mul_ne_zero hj (by omega)
  rw [if_neg hne, decide_eq_decide.mpr hsign, Int.natAbs_mul, Int.natAbs_natCast]
  conv => lhs; arg 3; rw [← Nat.one_mul c]
  exact estimate_mul_right _ (Int.natAbs_pos.mpr hj) Nat.one_pos hfix

theorem log2Finite_of_pow {n d i : Nat} (hd : 0 < d) (hi : 0 < i) (hn : n = 2 ^ i * d) : log2Finite n d = estimate false i 1 := by
  have hpos : 0 < n := hn ▸ Nat.mul_pos (Nat.two_pow_pos i) hd
  have he : expoQuot n d = i := by
    refine (expoQuot_eq (b := 0) hpos hd (by omega) ?_).trans (Int.sub_zero _)
    rw [hn, Nat.pow_zero, Nat.mul_one]
    exact Nat.mul_lt_mul_of_pos_right (Nat.pow_lt_pow_right (by decide) (Nat.lt_succ_self i)) hd
  have h := log2Finite_of_exponent (by omega) he (by rw [scaleQuot_neg_natCast n d hi, hn, Nat.mul_comm])
  rwa [decide_eq_false (by omega), Int.natAbs_natCast] at h

theorem log2Finite_of_inv_pow {n d i : Nat} (hn : 0 < n) (hi : 0 < i) (hd : n * 2 ^ i = d) : log2Finite n d = estimate true i 1 := by
  have hpos : 0 < d := hd ▸ Nat.mul_pos hn (Nat.two_pow_pos i)
  have he : expoQuot n d = -(i : Int) := by
    refine (expoQuot_eq (a := 0) (b := i) hn hpos (by omega) ?_).trans (Int.zero_sub _)
    omega
  have h := log2Finite_of_exponent (by omega) he (by rw [Int.neg_neg, scaleQuot_natCast]; exact hd)
  rwa [decide_eq_true (by omega), Int.natAbs_neg, Int.natAbs_natCast] at h

end Sys2Proof.Machine
end

section
/-! SUPPORT. The FP32 and packed operations (R142 to R146): each by the class of its operand. -/

namespace Sys2Proof.Machine

/-! Choices and comparisons (R142, R143) -/

theorem pickOp_cases (max : Bool) (a b : Word) :
    ((valF32 a).isNan = true → (valF32 b).isNan = true → pickOp max a b = 0x7FC00000)
    ∧ ((valF32 a).isNan = true → (valF32 b).isNan = false → pickOp max a b = b)
    ∧ ((valF32 a).isNan = false → (valF32 b).isNan = true → pickOp max a b = a)
    ∧ ((valF32 a).isNan = false → (valF32 b).isNan = false → pickOp true a b = (if beforeNum (valF32 a) (valF32 b) then b else a)
      ∧ pickOp false a b = if beforeNum (valF32 b) (valF32 a) then b else a) := by
  unfold pickOp
  refine ⟨fun ha hb => ?_, fun ha hb => ?_, fun ha hb => ?_, fun ha hb => ?_⟩
  all_goals simp only [ha, hb]
  · rfl
  · rfl
  · rfl
  · exact ⟨rfl, rfl⟩

/-- Of a NaN `.ne` alone holds. -/
theorem fcmpOp_nan (cmp : BitVec 3) {a b : Word} (h : (valF32 a).isNan = true ∨ (valF32 b).isNan = true) :
    fcmpOp cmp a b = decide (cmp = 1) := by
  unfold fcmpOp
  exact if_pos (by rwa [Bool.or_eq_true])

theorem cmpOp_eq_getD (cmp : BitVec 3) (lt eq : Bool) (h : cmp.toNat < 6) :
    cmpOp cmp lt eq = [eq, !eq, lt, lt || eq, !lt && !eq, !lt].getD cmp.toNat false := by
  unfold cmpOp
  generalize cmp.toNat = c at h
  match c, h with
  | 0, _ | 1, _ | 2, _ | 3, _ | 4, _ | 5, _ => rfl

theorem fcmpOp_number {cmp : BitVec 3} {a b : Word} (ha : (valF32 a).isNan = false) (hb : (valF32 b).isNan = false) :
    fcmpOp cmp a b = cmpOp cmp (ltNum (valF32 a) (valF32 b)) (eqNum (valF32 a) (valF32 b)) := by
  unfold fcmpOp
  exact if_neg (by rw [ha, hb]; decide)

/-! Classes (R143) -/

/-- The class of a pattern, by its magnitude. -/
def classBit (f : FloatFormat) (neg : Bool) (mag : Nat) : Nat :=
  if mag = 0 then (if neg then 3 else 4) else if mag < 2 ^ f.m then (if neg then 2 else 5)
  else if mag ≤ f.max then (if neg then 1 else 6) else if f.inf = some mag then (if neg then 0 else 7)
  else if mag.testBit (f.m - 1) then 9 else 8

theorem fclassBit_eq {f : FloatFormat} (hf : 2 ^ f.m ≤ f.max) (b : Nat) :
    fclassBit f b = classBit f (b.testBit (f.width - 1)) (b % 2 ^ (f.width - 1)) := by
  unfold fclassBit valOf classBit
  generalize b % 2 ^ (f.width - 1) = mag
  generalize b.testBit (f.width - 1) = neg
  by_cases hzero : mag = 0
  · simp only [hzero, if_true]
  by_cases hmax : mag ≤ f.max
  · simp only [hzero, hmax, if_true, if_false]
  have hlow : ¬ mag < 2 ^ f.m := by omega
  by_cases hinf : f.inf = some mag
  · simp only [hzero, hmax, hlow, hinf, if_true, if_false]
  · simp only [hzero, hmax, hlow, hinf, if_false]

theorem classFormat_eq (t : BitVec 4) : classFormat t = if t = 5 then fp16 else if t = 6 then bf16 else fp32 := by
  simp [classFormat]

theorem two_pow_le_max_classFormat (t : BitVec 4) : 2 ^ (classFormat t).m ≤ (classFormat t).max := by
  rw [classFormat_eq]
  split
  · decide
  · split <;> decide

/-! Integers and scales (R144) -/

theorem frndOp_fscaleOp_nan (m : RoundMode) {a : Word} (b : Word) (h : (valF32 a).isNan = true) :
    frndOp m a = 0x7FC00000 ∧ fscaleOp m a b = 0x7FC00000 := by
  unfold frndOp fscaleOp
  cases hx : valF32 a with
  | nan => exact ⟨rfl, rfl⟩
  | inf | zero | fin => rw [hx] at h; exact nomatch h

theorem frndOp_fscaleOp_special (m : RoundMode) {a : Word} (b : Word) {p : Bool} (h : valF32 a = .inf p ∨ valF32 a = .zero p) :
    frndOp m a = a ∧ fscaleOp m a b = a := by
  unfold frndOp fscaleOp
  obtain h | h := h
  · rw [h]
    exact ⟨(eq_of_valF32_inf h).symm, (eq_of_valF32_inf h).symm⟩
  · rw [h]
    exact ⟨(eq_of_valF32_zero h).symm, (eq_of_valF32_zero h).symm⟩

/-- A shift limited to 1000 either way rounds as the whole shift does. -/
theorem fscaleOp_fin (m : RoundMode) {a : Word} (b : Word) {k e : Int} (h : valF32 a = .fin k e) :
    fscaleOp m a b = round32 m (.fin k (e + b.toInt)) := by
  obtain ⟨hk, hlt, hlow, hhigh⟩ := valF32_fin_bounds h
  have hclamp : clampInt b.toInt (-1000) 1000 = max (-1000) (min b.toInt 1000) := clampInt_eq _ (by decide)
  unfold fscaleOp
  rw [h]
  show round32 m (.fin k (e + clampInt b.toInt (-1000) 1000)) = _
  rw [hclamp]
  obtain hin | habove | hbelow : max (-1000) (min b.toInt 1000) = b.toInt ∨ 1000 < b.toInt ∨ b.toInt < -1000 := by omega
  · rw [hin]
  · exact round32_congr_of_large m hk (by omega) (by omega)
  · exact round32_congr_of_tiny m hk hlt (by omega) (by omega)

theorem frndOp_fin (m : RoundMode) {a : Word} {k e : Int} (h : valF32 a = .fin k e) :
    frndOp m a = round32 m (if roundInt m (.fin k e) = 0 then .zero (decide (k < 0)) else .fin (roundInt m (.fin k e)) 0) := by
  unfold frndOp
  rw [h]

/-! Special operands of roots and estimates (R142, R145) -/

/-- The results of an operation for NaN, the infinities and the zeros. -/
structure SpecialResults (f : Word → Word) (pinf ninf pzero nzero : Word) : Prop where
  nan   : ∀ a, (valF32 a).isNan = true → f a = 0x7FC00000
  pinf  : ∀ a, valF32 a = .inf false → f a = pinf
  ninf  : ∀ a, valF32 a = .inf true → f a = ninf
  pzero : ∀ a, valF32 a = .zero false → f a = pzero
  nzero : ∀ a, valF32 a = .zero true → f a = nzero

theorem SpecialResults.values {f : Word → Word} {pinf ninf pzero nzero : Word} (h : SpecialResults f pinf ninf pzero nzero) (a : Word) :
    ((valF32 a).isNan = true → f a = 0x7FC00000) ∧ (valF32 a = .inf false → f a = pinf) ∧ (valF32 a = .inf true → f a = ninf)
    ∧ (valF32 a = .zero false → f a = pzero) ∧ (valF32 a = .zero true → f a = nzero) :=
  ⟨h.nan a, h.pinf a, h.ninf a, h.pzero a, h.nzero a⟩

theorem eq_nan_of_isNan {x : Num} (h : x.isNan = true) : x = .nan := by
  cases x with
  | nan => rfl
  | inf | zero | fin => exact nomatch h

theorem fsqrtOp_special (m : RoundMode) : SpecialResults (fsqrtOp m) 0x7F800000 0x7FC00000 0 0x80000000 := by
  refine ⟨fun a h => ?_, fun a h => ?_, fun a h => ?_, fun a h => ?_, fun a h => ?_⟩
  all_goals unfold fsqrtOp
  · rw [eq_nan_of_isNan h]; rfl
  · rw [h]; exact eq_of_valF32_inf h
  · rw [h]; rfl
  · rw [h]; exact eq_of_valF32_zero h
  · rw [h]; exact eq_of_valF32_zero h

theorem rcpeOp_special : SpecialResults rcpeOp 0 0x80000000 0x7F800000 0xFF800000 := by
  refine ⟨fun a h => ?_, fun a h => ?_, fun a h => ?_, fun a h => ?_, fun a h => ?_⟩
  all_goals unfold rcpeOp
  · rw [eq_nan_of_isNan h]; rfl
  all_goals rw [h]; rfl

theorem rsqrteOp_special : SpecialResults rsqrteOp 0 0x7FC00000 0x7F800000 0xFF800000 := by
  refine ⟨fun a h => ?_, fun a h => ?_, fun a h => ?_, fun a h => ?_, fun a h => ?_⟩
  all_goals unfold rsqrteOp
  · rw [eq_nan_of_isNan h]; rfl
  all_goals rw [h]; rfl

theorem exp2eOp_special : SpecialResults exp2eOp 0x7F800000 0 0x3F800000 0x3F800000 := by
  refine ⟨fun a h => ?_, fun a h => ?_, fun a h => ?_, fun a h => ?_, fun a h => ?_⟩
  all_goals unfold exp2eOp
  · rw [eq_nan_of_isNan h]; rfl
  · rw [h]; exact eq_of_valF32_inf h
  · rw [h]; rfl
  · rw [h]
  · rw [h]

theorem log2eOp_special : SpecialResults log2eOp 0x7F800000 0x7FC00000 0xFF800000 0xFF800000 := by
  refine ⟨fun a h => ?_, fun a h => ?_, fun a h => ?_, fun a h => ?_, fun a h => ?_⟩
  all_goals unfold log2eOp
  · rw [eq_nan_of_isNan h]; rfl
  · rw [h]; exact eq_of_valF32_inf h
  all_goals rw [h]; rfl

/-- A negative number has no root and no logarithm. -/
theorem roots_of_negative (m : RoundMode) {a : Word} (hneg : (valF32 a).neg = true) (hfin : (valF32 a).finite = true)
    (hzero : valF32 a ≠ .zero true) : fsqrtOp m a = 0x7FC00000 ∧ rsqrteOp a = 0x7FC00000 ∧ log2eOp a = 0x7FC00000 := by
  unfold fsqrtOp rsqrteOp log2eOp
  cases hx : valF32 a with
  | nan | inf => rw [hx] at hfin; exact nomatch hfin
  | zero p =>
    rw [hx] at hneg hzero
    exact absurd (congrArg Num.zero hneg) hzero
  | fin k e =>
    rw [hx] at hneg
    have hk : k < 0 := of_decide_eq_true hneg
    exact ⟨if_pos hk, if_pos hk, if_pos hk⟩

/-! Packed halves (R146) -/

theorem withSign_lt (f : FloatFormat) (neg : Bool) {mag : Nat} (hw : 0 < f.width) (h : mag < 2 ^ (f.width - 1)) : withSign f neg mag < 2 ^ f.width := by
  have hpow : 2 ^ f.width = 2 ^ (f.width - 1) * 2 := by rw [← Nat.pow_succ, Nat.succ_eq_add_one, Nat.sub_add_cancel hw]
  unfold withSign
  split <;> omega

/-- What a format with infinities needs for its patterns to fit its width. -/
def FloatFormat.Fits (f : FloatFormat) : Prop :=
  0 < f.width ∧ f.inf = some (f.max + 1) ∧ f.max + 1 < 2 ^ (f.width - 1) ∧ f.qnan < 2 ^ (f.width - 1)

theorem RoundMode.inward_or_outward (mode : RoundMode) (neg : Bool) : mode = .rne ∨ mode.Inward neg ∨ mode.Outward neg := by
  unfold RoundMode.Inward RoundMode.Outward
  cases mode <;> cases neg <;> decide

theorem roundRat_eq_withSign {f : FloatFormat} (hinf : f.inf = some (f.max + 1)) (mode : RoundMode) (neg : Bool) (n d : Nat) :
    ∃ k, k ≤ f.max + 1 ∧ roundRat f mode neg n d = withSign f neg k := by
  obtain rfl | h | h := mode.inward_or_outward neg
  · exact ⟨_, Nat.min_le_right .., roundRat_rne n d hinf⟩
  · exact ⟨_, Nat.le_succ_of_le (Nat.min_le_right ..), roundRat_inward n d h⟩
  · exact ⟨_, Nat.min_le_right .., roundRat_outward n d hinf h⟩

/-- A rounded pattern fits the width of its format. -/
theorem round_lt {f : FloatFormat} (hf : f.Fits) (mode : RoundMode) (x : Num) : round f mode x < 2 ^ f.width := by
  obtain ⟨hw, hinf, hmax, hqnan⟩ := hf
  cases x with
  | nan => exact Nat.lt_of_lt_of_le hqnan (Nat.pow_le_pow_right (by decide) (Nat.sub_le ..))
  | inf neg =>
    rw [round, infOf, hinf]
    exact withSign_lt f neg hw hmax
  | zero neg => exact withSign_lt f neg hw (Nat.two_pow_pos _)
  | fin k e =>
    obtain ⟨mag, hmag, hround⟩ := roundRat_eq_withSign hinf mode (decide (k < 0)) (quotOf k e).1 (quotOf k e).2
    rw [round, hround]
    exact withSign_lt f _ hw (by omega)

theorem wide_fits : ∀ f ∈ [fp32, fp16, bf16], f.Fits := by
  unfold FloatFormat.Fits
  decide

/-- The halves of a packed result. -/
theorem packedOp_halves {f : FloatFormat} (hf : f.Fits) (hw : f.width = 16) (m : RoundMode) (var : BitVec 2) (op : Num → Num → Num → Num)
    (d a b c : Word) (hi : Bool) : halfOf (packedOp f m var op d a b c) hi
      = if var = (if hi then 1 else 2) then halfOf d hi else round f m (op (valOf f (halfOf a hi)) (valOf f (halfOf b hi)) (valOf f (halfOf c hi))) := by
  have hround : ∀ x, round f m x < 65536 := fun x => by
    have := round_lt hf m x
    rwa [hw] at this
  have hold : ∀ hi, halfOf d hi < 65536 := fun hi => by
    have := d.isLt
    cases hi <;> simp only [halfOf, Bool.false_eq_true, if_false, if_true] <;> omega
  have hhalves : ∀ lo hi : Nat, lo < 65536 → hi < 65536 →
      halfOf (BitVec.ofNat 32 (hi * 65536 + lo)) false = lo ∧ halfOf (BitVec.ofNat 32 (hi * 65536 + lo)) true = hi := fun lo hi hlo hhi => by
    simp only [halfOf, BitVec.toNat_ofNat, Bool.false_eq_true, if_false, if_true]
    omega
  unfold packedOp
  obtain ⟨hfalse, htrue⟩ := hhalves
    (if var == 2 then halfOf d false else round f m (op (valOf f (halfOf a false)) (valOf f (halfOf b false)) (valOf f (halfOf c false))))
    (if var == 1 then halfOf d true else round f m (op (valOf f (halfOf a true)) (valOf f (halfOf b true)) (valOf f (halfOf c true))))
    (by split; exacts [hold _, hround _]) (by split; exacts [hold _, hround _])
  cases hi with
  | false => exact hfalse.trans (by simp)
  | true => exact htrue.trans (by simp)

end Sys2Proof.Machine
end

section
/-! CERTIFICATES. The FP32 and packed instructions (R141 to R146); O10. -/

namespace Sys2Proof.Machine

/-- A packed instruction of two or of three sources executes (R146). -/
theorem executes_of_lanePacked {i : Instr} {f : RF} {three : Bool} {fmt : FloatFormat} {op : Num → Num → Num → Num}
    (h : ∀ s, exec i s = lanePacked f three fmt op s) : Executes i (if three then shape3 f else shape2 f) fun _ _ _ x vs =>
      writeDst f.d (packedOp fmt (roundModeOf f.rnd) f.var op (oldD x f.d) (arg vs 0) (arg vs 1) (arg vs 2)) := by
  cases three
  all_goals exact executes_of_runLane h (fun _ _ _ _ _ _ _ _ _ _ => rfl) fun _ _ _ _ _ => writeDst_pushes _ _

/-- Each FP32 instruction runs one operation of the model in its members. -/
theorem fp32_instructions_execute (f : RF) :
    let m := roundModeOf f.rnd
    Computes2 (.fadd f) f (faddOp m) ∧ Computes2 (.fsub f) f (fsubOp m) ∧ Computes2 (.fmul f) f (fmulOp m)
    ∧ Computes3 (.ffma f) f (ffmaOp m) ∧ Computes2 (.fmin f) f (pickOp false) ∧ Computes2 (.fmax f) f (pickOp true)
    ∧ Computes1 (.fabs f) f fabsOp ∧ Computes1 (.fneg f) f fnegOp
    ∧ (f.var ≠ 1 → Tests2 (.fcmp f) f (fcmpOp f.cmp))
    ∧ (f.var = 1 → Computes2 (.fcmp f) f fun a b => if fcmpOp f.cmp a b then 1 else 0)
    ∧ Computes1 (.fclass f) f (fclassOp f.type) ∧ Computes1 (.frnd f) f (frndOp m) ∧ Computes2 (.fscale f) f (fscaleOp m)
    ∧ Computes1 (.rcpe f) f rcpeOp ∧ Computes1 (.rsqrte f) f rsqrteOp ∧ Computes1 (.fsqrt f) f (fsqrtOp m)
    ∧ Computes1 (.exp2e f) f exp2eOp ∧ Computes1 (.log2e f) f log2eOp :=
  ⟨computes2_of_lane2 fun _ => rfl, computes2_of_lane2 fun _ => rfl, computes2_of_lane2 fun _ => rfl, computes3_of_lane3 fun _ => rfl,
    computes2_of_lane2 fun _ => rfl, computes2_of_lane2 fun _ => rfl, computes1_of_lane1 fun _ => rfl, computes1_of_lane1 fun _ => rfl,
    tests2_of_laneCompare fun _ => rfl, computes2_of_laneCompare fun _ => rfl, computes1_of_lane1 fun _ => rfl,
    computes1_of_lane1 fun _ => rfl, computes2_of_lane2 fun _ => rfl, computes1_of_lane1 fun _ => rfl, computes1_of_lane1 fun _ => rfl,
    computes1_of_lane1 fun _ => rfl, computes1_of_lane1 fun _ => rfl, computes1_of_lane1 fun _ => rfl⟩

/-- The FP32 instructions of format I round to nearest (R131). -/
theorem fp32_immediate_instructions_execute (f : IF) :
    ComputesI (.faddI f) f (faddOp .rne) ∧ ComputesI (.fsubI f) f (fsubOp .rne) ∧ ComputesI (.fmulI f) f (fmulOp .rne)
    ∧ ComputesI (.fminI f) f (pickOp false) ∧ ComputesI (.fmaxI f) f (pickOp true) ∧ TestsI (.fcmpI f) f (fcmpOp 0) :=
  ⟨computesI_of_laneI fun _ => rfl, computesI_of_laneI fun _ => rfl, computesI_of_laneI fun _ => rfl, computesI_of_laneI fun _ => rfl,
    computesI_of_laneI fun _ => rfl, testsI_of_laneCompareI fun _ => rfl⟩

/-- R144: frnd and fscale by the class of their operand. -/
theorem frndOp_fscaleOp_values (m : RoundMode) (a b : Word) :
    ((valF32 a).isNan = true → frndOp m a = 0x7FC00000 ∧ fscaleOp m a b = 0x7FC00000)
    ∧ (∀ p, valF32 a = .inf p ∨ valF32 a = .zero p → frndOp m a = a ∧ fscaleOp m a b = a)
    ∧ ∀ k e, valF32 a = .fin k e → fscaleOp m a b = round32 m (.fin k (e + b.toInt))
      ∧ frndOp m a = round32 m (if roundInt m (.fin k e) = 0 then .zero (decide (k < 0)) else .fin (roundInt m (.fin k e)) 0) :=
  ⟨frndOp_fscaleOp_nan m b, fun _ => frndOp_fscaleOp_special m b, fun _ _ h => ⟨fscaleOp_fin m b h, frndOp_fin m h⟩⟩

/-- R142, R145: roots and estimates of a finite number that is not 0, as those of its quotient. -/
theorem estimates_of_number (m : RoundMode) {a : Word} {k e : Int} {n d : Nat} (hx : valF32 a = .fin k e) (hq : quotOf k e = (n, d)) :
    (¬ k < 0 → fsqrtOp m a = BitVec.ofNat 32 (roundRat fp32 m false (sqrtQuot n d).1 (sqrtQuot n d).2)
      ∧ rsqrteOp a = estimate false (sqrtQuot d n).1 (sqrtQuot d n).2 ∧ log2eOp a = log2Finite n d)
    ∧ rcpeOp a = (if n * 2 ^ 128 < d then inf32 (decide (k < 0)) else estimate (decide (k < 0)) d n)
    ∧ exp2eOp a = exp2Finite k e := by
  unfold fsqrtOp rsqrteOp log2eOp rcpeOp exp2eOp
  simp only [hx, hq]
  exact ⟨fun hk => ⟨if_neg hk, if_neg hk, if_neg hk⟩, trivial, trivial⟩

/-- Settles O10: each instruction runs its operation of the model in its members; the operations go by the class of their operand, numbers by `ltNum_eq`, `roundInt_selects`, `fscaleOp_fin`, `sig12_spec`, `sqrtQuot_spec` and `estimates_of_number`, and packed words by their halves (`packedOp_halves`). -/
theorem floatInstructionsExecute : Obligations.FloatInstructionsExecute := by
  unfold Obligations.FloatInstructionsExecute
  refine ⟨⟨fp32_instructions_execute, fp32_immediate_instructions_execute⟩, ⟨fun m a b c => ⟨rfl, rfl, rfl, rfl⟩, fun m x p => ?_, fun x y hx hy => ?_,
    pickOp_cases, fun cmp a b => ⟨fcmpOp_nan cmp, fun ha hb hc => (fcmpOp_number ha hb).trans (cmpOp_eq_getD cmp _ _ hc)⟩, fun type a => ?_,
    fun m a b => ?_, fun m a => ?_, fun n d hn hd => ?_, fun n d hn hd => sqrtQuot_spec hn hd, fun m a n d neg hn hd h => ?_⟩, fun f => ?_,
    fun f m var op d a b c hf => ?_, fun m x y z => ⟨rfl, rfl, rfl⟩⟩
  · obtain ⟨hopposite, hsame⟩ := addNum_inf_inf m p
    exact ⟨rfl, addNum_nan_right m x, rfl, mulNum_nan_right x, rfl, rfl, rfl, fun _ _ => rfl, hopposite, hsame, addNum_inf_finite m p,
      fun _ => ⟨rfl, rfl, rfl⟩, mulNum_inf_fin p⟩
  · refine ⟨ltNum_eq hx hy, eqNum_eq hx hy, beforeNum_iff hx hy, fun p => ?_⟩
    obtain ⟨hlt, hbefore, heq⟩ := order_inf_left p hy
    obtain ⟨hlt', hbefore', heq'⟩ := order_inf_right p hx
    exact ⟨hlt, hlt', hbefore, hbefore', heq, heq', order_inf_inf p⟩
  · rw [← classFormat_eq]
    exact congrArg (fun k => BitVec.ofNat 32 (2 ^ k)) (fclassBit_eq (two_pow_le_max_classFormat type) a.toNat)
  · obtain ⟨hnan, hspecial, hfin⟩ := frndOp_fscaleOp_values m a b
    refine ⟨hnan, hspecial, fun k e hx => ?_⟩
    obtain ⟨hscale, hround⟩ := hfin k e hx
    refine ⟨hscale, roundInt m (.fin k e), hround, ?_⟩
    rw [show valF32 a = .fin k e from hx]
    exact roundInt_selects m (valF32_fin_bounds hx).1 e
  · exact ⟨(fsqrtOp_special m).values a, rcpeOp_special.values a, rsqrteOp_special.values a, exp2eOp_special.values a,
      log2eOp_special.values a, roots_of_negative m, by decide⟩
  · obtain ⟨k, j, hlow, hhigh, hsig, hnear, htie⟩ := sig12_spec hn hd
    exact ⟨k, j, hlow, hhigh, hsig, hnear, htie⟩
  · obtain ⟨k, e, hx, rfl, hq⟩ := h
    obtain ⟨hpos, hrcp, hexp⟩ := estimates_of_number m hx hq
    refine ⟨fun hneg => ?_, ?_, fun hneg h => ?_, fun i hi hlt => ?_, fun i hi hneg => ⟨fun h => ?_, fun h => ?_⟩⟩
    · obtain ⟨hsqrt, hrsqrt, -⟩ := hpos (of_decide_eq_false hneg)
      exact ⟨hsqrt, hrsqrt⟩
    · rw [hrcp]
      cases decide (k < 0) <;> rfl
    · exact hexp.trans (exp2Finite_of_large hq (of_decide_eq_false hneg) h)
    · rw [hexp, exp2Finite_of_int hq hd hi hlt]
      exact if_congr decide_eq_true_iff.symm rfl rfl
    · obtain ⟨-, -, hlog⟩ := hpos (of_decide_eq_false hneg)
      exact hlog.trans (log2Finite_of_pow hd hi h)
    · obtain ⟨-, -, hlog⟩ := hpos (of_decide_eq_false hneg)
      exact hlog.trans (log2Finite_of_inv_pow hn hi h)
  · exact ⟨executes_of_lanePacked (three := false) fun _ => rfl, executes_of_lanePacked (three := false) fun _ => rfl,
      executes_of_lanePacked (three := true) fun _ => rfl, executes_of_lanePacked (three := false) fun _ => rfl,
      executes_of_lanePacked (three := false) fun _ => rfl, executes_of_lanePacked (three := true) fun _ => rfl⟩
  · have hfits : f.Fits ∧ f.width = 16 := by
      obtain rfl | rfl := hf
      · exact ⟨wide_fits fp16 (by decide), rfl⟩
      · exact ⟨wide_fits bf16 (by decide), rfl⟩
    have hhalf := packedOp_halves hfits.1 hfits.2 m var op d a b c
    exact ⟨hhalf false, hhalf true⟩

end Sys2Proof.Machine
end

section
/-! SUPPORT. Conversions (R31, R33, R147 to R151): integers of a few bits in a word, subfields of a word, and the exponent and alignment of a number. -/

namespace Sys2Proof.Machine

/-! Integers of `n` bits (R29, R148) -/

/-- The range of the integer type of `n` bits. -/
def InRange (n : Nat) (un : Bool) (v : Int) : Prop := intLo n un ≤ v ∧ v ≤ intHi n un

theorem two_pow_eq_double {n : Nat} (hn : 0 < n) : (2 : Int) ^ n = 2 * 2 ^ (n - 1) := by
  rw [← Int.pow_succ', Nat.sub_add_cancel hn]

theorem inRange_iff {n : Nat} (hn : 0 < n) (un : Bool) (v : Int) :
    InRange n un v ↔ (if un then 0 else -2 ^ (n - 1)) ≤ v ∧ v < (if un then 0 else -2 ^ (n - 1)) + 2 ^ n := by
  have := two_pow_eq_double hn
  cases un <;> simp only [InRange, intLo, intHi, Bool.false_eq_true, if_false, if_true] <;> omega

/-- Two integers of the range that agree modulo 2^n are one. -/
theorem eq_of_inRange {n : Nat} (hn : 0 < n) {un : Bool} {v w : Int} (hv : InRange n un v) (hw : InRange n un w)
    (h : v % 2 ^ n = w % 2 ^ n) : v = w := by
  rw [inRange_iff hn] at hv hw
  refine Int.sub_eq_zero.mp (Int.eq_zero_of_abs_lt_dvd (Int.dvd_of_emod_eq_zero (Int.emod_eq_emod_iff_emod_sub_eq_zero.mp h)) ?_)
  exact abs_lt.mpr ⟨by omega, by omega⟩

theorem zero_inRange {n : Nat} (hn : 0 < n) (un : Bool) : InRange n un 0 := by
  have hdouble := two_pow_eq_double hn
  have hpos : (0 : Int) < 2 ^ (n - 1) := Int.pow_pos (by decide)
  rw [inRange_iff hn]
  split <;> omega

theorem intLo_le_intHi {n : Nat} (hn : 0 < n) (un : Bool) : intLo n un ≤ intHi n un :=
  Int.le_trans (zero_inRange hn un).1 (zero_inRange hn un).2

theorem satInt_inRange {n : Nat} (hn : 0 < n) (un : Bool) (v : Int) : InRange n un (satInt n un v) :=
  clampInt_bounds v (intLo_le_intHi hn un)

/-- The top bit of `n` bits says whether they reach half of 2^n. -/
theorem testBit_top {n v : Nat} (hn : 0 < n) (hv : v < 2 ^ n) : v.testBit (n - 1) = decide (2 ^ (n - 1) ≤ v) := by
  obtain h | h := Nat.lt_or_ge v (2 ^ (n - 1))
  · rw [Nat.testBit_lt_two_pow h, decide_eq_false (Nat.not_le.mpr h)]
  · rw [Nat.testBit_of_two_pow_le_and_two_pow_add_one_gt h (by rwa [Nat.sub_add_cancel hn]), decide_eq_true h]

theorem lowInt_inRange {n : Nat} (hn : 0 < n) (un : Bool) (a : Nat) : InRange n un (lowInt n un a) := by
  have hdouble := two_pow_eq_double hn
  have hlt : a % 2 ^ n < 2 ^ n := Nat.mod_lt _ (Nat.two_pow_pos n)
  have hcast : ((2 ^ n : Nat) : Int) = 2 ^ n := Int.natCast_pow 2 n
  have hcast' : ((2 ^ (n - 1) : Nat) : Int) = 2 ^ (n - 1) := Int.natCast_pow 2 (n - 1)
  rw [inRange_iff hn]
  unfold lowInt
  simp only [testBit_top hn hlt]
  cases un with
  | true => simp only [Bool.not_true, Bool.false_and, Bool.false_eq_true, if_false, if_true]; omega
  | false =>
    simp only [Bool.not_false, Bool.true_and, decide_eq_true_eq, Bool.false_eq_true, if_false]
    split <;> omega

theorem lowInt_emod (n : Nat) (un : Bool) (a : Nat) : lowInt n un a % 2 ^ n = (a : Int) % 2 ^ n := by
  have hself : ((a % 2 ^ n : Nat) : Int) % 2 ^ n = (a : Int) % 2 ^ n := by
    rw [Int.natCast_mod, Int.natCast_pow]
    exact Int.emod_emod ..
  unfold lowInt
  dsimp only
  split
  · rw [Int.sub_emod_right, hself]
  · exact hself

/-- A word that holds an integer of `n` bits gives it back (R148). -/
theorem intOf_ofInt_of_inRange {n : Nat} (hn : 0 < n) (hle : n ≤ 32) {un : Bool} {v : Int} (hv : InRange n un v) :
    intOf un (BitVec.ofInt 32 v) = v := by
  obtain ⟨hlow, hhigh⟩ := hv
  have hpow : (2 : Int) ^ n ≤ 2 ^ 32 := pow_le_pow_right₀ (by decide) hle
  have hdouble := two_pow_eq_double hn
  cases un with
  | true =>
    simp only [intLo, intHi, if_true] at hlow hhigh
    simp only [intOf, if_true, BitVec.toNat_ofInt]
    omega
  | false =>
    simp only [intLo, intHi, Bool.false_eq_true, if_false] at hlow hhigh
    exact BitVec.toInt_ofInt_eq_self (by decide) (by omega) (by omega)

/-- What `extendInt` writes is the integer of the range that agrees modulo 2^n. -/
theorem extendInt_spec {n : Nat} (hn : 0 < n) (hle : n ≤ 32) (un : Bool) (v : Int) :
    InRange n un (intOf un (extendInt n un v)) ∧ intOf un (extendInt n un v) % 2 ^ n = v % 2 ^ n := by
  have hlow := lowInt_inRange hn un (v % 2 ^ n).toNat
  have hpos : 0 ≤ v % 2 ^ n := Int.emod_nonneg v (Int.pow_ne_zero (by decide))
  unfold extendInt
  rw [intOf_ofInt_of_inRange hn hle hlow, lowInt_emod, Int.toNat_of_nonneg hpos, Int.emod_emod]
  exact ⟨hlow, rfl⟩

theorem intOf_extendInt_of_inRange {n : Nat} (hn : 0 < n) (hle : n ≤ 32) {un : Bool} {v : Int} (hv : InRange n un v) :
    intOf un (extendInt n un v) = v :=
  eq_of_inRange hn (extendInt_spec hn hle un v).1 hv (extendInt_spec hn hle un v).2

/-- The saturated integer in the rule's own terms. -/
theorem satInt_eq_max_min {n : Nat} (hn : 0 < n) (un : Bool) (v : Int) : satInt n un v = max (intLo n un) (min v (intHi n un)) :=
  clampInt_eq v (intLo_le_intHi hn un)

/-! Subfields (R149, R150) -/

theorem narrow_lt {f : FloatFormat} (hw : 0 < f.width) (hmax : f.max < 2 ^ (f.width - 1)) (hqnan : f.qnan < 2 ^ (f.width - 1)) (x : Num) :
    narrow f x < 2 ^ f.width := by
  cases x with
  | nan => exact Nat.lt_of_lt_of_le hqnan (Nat.pow_le_pow_right (by decide) (Nat.sub_le ..))
  | inf neg => exact withSign_lt f neg hw hmax
  | zero neg => exact withSign_lt f neg hw (Nat.two_pow_pos _)
  | fin k e => exact withSign_lt f _ hw (Nat.lt_of_le_of_lt (Nat.min_le_right ..) hmax)

theorem toFloat_wide {f : FloatFormat} (hf : f ∈ [fp32, fp16, bf16]) (m : RoundMode) (x : Num) : toFloat f m x = round f m x := by
  have hwide : ∀ f ∈ [fp32, fp16, bf16], f.narrow? = false := by decide
  unfold toFloat
  exact if_neg (by rw [hwide f hf]; decide)

theorem toFloat_narrowed {f : FloatFormat} (hf : f ∈ [e4m3, e5m2, e2m1]) (m : RoundMode) (x : Num) : toFloat f m x = narrow f x := by
  have hnarrow : ∀ f ∈ [e4m3, e5m2, e2m1], f.narrow? = true := by decide
  unfold toFloat
  exact if_pos (hnarrow f hf)

theorem toFloat_lt {f : FloatFormat} (hf : f ∈ [fp32, fp16, bf16] ++ [e4m3, e5m2, e2m1]) (m : RoundMode) (x : Num) : toFloat f m x < 2 ^ f.width := by
  obtain hwide | hnarrow := List.mem_append.mp hf
  · rw [toFloat_wide hwide]
    exact round_lt (wide_fits f hwide) m x
  · have hfits : ∀ f ∈ [e4m3, e5m2, e2m1], 0 < f.width ∧ f.max < 2 ^ (f.width - 1) ∧ f.qnan < 2 ^ (f.width - 1) := by decide
    obtain ⟨hw, hmax, hqnan⟩ := hfits f hnarrow
    rw [toFloat_narrowed hnarrow]
    exact narrow_lt hw hmax hqnan x

theorem narrowAnomaly_eq (f : FloatFormat) (x : Num) : narrowAnomaly f x = decide (f = e2m1 ∧ x = .nan) := by
  unfold narrowAnomaly
  rw [Bool.eq_iff_iff, Bool.and_eq_true, beq_iff_eq, decide_eq_true_iff]
  exact and_congr_right fun _ => ⟨eq_nan_of_isNan, fun h => h ▸ rfl⟩

/-- The types that pk and upk take. -/
def packTypes : List ElemType :=
  [.int 8, .int 16, .float fp16, .float bf16, .float e4m3, .float e5m2, .float e2m1, .i4x]

theorem elemType_mem_packTypes : ∀ code ∈ [1, 2, 5, 6, 7, 8, 9, 10], elemType (BitVec.ofNat 4 code) ∈ packTypes
    ∧ (elemType (BitVec.ofNat 4 code)).bits = if code = 2 ∨ code = 5 ∨ code = 6 then 16 else if code = 9 ∨ code = 10 then 4 else 8 := by
  decide

theorem int_of_mem_packTypes {n : Nat} (h : .int n ∈ packTypes) : 0 < n ∧ n ≤ 32 := by
  simp only [packTypes, List.mem_cons, ElemType.int.injEq, reduceCtorEq, List.not_mem_nil, or_false] at h
  omega

theorem float_of_mem_packTypes {f : FloatFormat} (h : .float f ∈ packTypes) : f ∈ [fp32, fp16, bf16] ++ [e4m3, e5m2, e2m1] := by
  simp only [packTypes, List.mem_cons, ElemType.float.injEq, reduceCtorEq, List.not_mem_nil, or_false, false_or] at h
  exact List.mem_cons_of_mem _ (by simpa using h)

theorem pkElem_lt {t : ElemType} (ht : t ∈ packTypes) (sat un : Bool) (m : RoundMode) (a : Word) : (pkElem t sat un m a).1 < 2 ^ t.bits := by
  have hint : ∀ (n : Nat) (v : Int), (v % 2 ^ n).toNat < 2 ^ n := fun n v => by
    have hlt := Int.emod_lt_of_pos v (Int.pow_pos (by decide) : (0 : Int) < 2 ^ n)
    have hcast : ((2 ^ n : Nat) : Int) = 2 ^ n := Int.natCast_pow 2 n
    have hpos := Nat.two_pow_pos n
    omega
  cases t with
  | int n => exact hint n _
  | float f => exact toFloat_lt (float_of_mem_packTypes ht) m _
  | i4x => exact hint 4 _

/-- Where a subfield lies in its word. -/
theorem subfield_bounds {t : ElemType} (ht : t ∈ packTypes) (b : Word) : t.bits * (b.toNat % (32 / t.bits)) + t.bits ≤ 32 := by
  have hbits : ∀ t ∈ packTypes, t.bits = 4 ∨ t.bits = 8 ∨ t.bits = 16 := by decide
  obtain h | h | h := hbits t ht
  all_goals
    rw [h]
    omega

/-- The bits of a packed word: those of the element in its subfield, those of D elsewhere (R149). -/
theorem pkOp_getLsbD {t : ElemType} (ht : t ∈ packTypes) (sat un : Bool) (m : RoundMode) (d a b : Word) {p : Nat}
    (hp : t.bits * (b.toNat % (32 / t.bits)) = p) {j : Nat} (hj : j < 32) : (pkOp t sat un m d a b).1.getLsbD j
      = if p ≤ j ∧ j < p + t.bits then (pkElem t sat un m a).1.testBit (j - p) else d.getLsbD j := by
  have hlt := pkElem_lt ht sat un m a
  simp only [pkOp, hp, BitVec.getLsbD_or, BitVec.getLsbD_and, BitVec.getLsbD_not, fieldMask_getLsbD _ _ hj, BitVec.getLsbD_ofNat,
    Nat.testBit_mul_two_pow, hj, decide_true, Bool.true_and]
  split
  case isTrue h => simp [h]
  case isFalse h =>
    have hout : (decide (j ≥ p) && (pkElem t sat un m a).1.testBit (j - p)) = false := by
      by_cases hpj : j ≥ p
      · rw [Nat.testBit_lt_two_pow (Nat.lt_of_lt_of_le hlt (Nat.pow_le_pow_right (by decide) (by omega))), Bool.and_false]
      · rw [decide_eq_false hpj, Bool.false_and]
    rw [hout, decide_eq_false h, Bool.not_false, Bool.and_true, Bool.or_false]

theorem pkOp_field {t : ElemType} (ht : t ∈ packTypes) (sat un : Bool) (m : RoundMode) (d a b : Word) :
    (pkOp t sat un m d a b).1.toNat / 2 ^ (t.bits * (b.toNat % (32 / t.bits))) % 2 ^ t.bits = (pkElem t sat un m a).1 := by
  have hbounds := subfield_bounds ht b
  have hlt := pkElem_lt ht sat un m a
  refine Nat.eq_of_testBit_eq fun j => ?_
  rw [field_testBit]
  obtain hj | hj := Nat.lt_or_ge j t.bits
  · rw [decide_eq_true hj, Bool.true_and, pkOp_getLsbD ht sat un m d a b rfl (by omega), if_pos (by omega), Nat.add_sub_cancel_left]
  · rw [decide_eq_false (by omega), Bool.false_and, Nat.testBit_lt_two_pow (Nat.lt_of_lt_of_le hlt (Nat.pow_le_pow_right (by decide) hj))]

/-! The exponent and the alignment of a number (R29, R33, R151) -/

/-- The magnitude of a number as a quotient, multiplied out. -/
theorem quotOf_cross (k : Int) {A L n d : Nat} (h : quotOf k ((A : Int) - L) = (n, d)) : n * 2 ^ L = k.natAbs * 2 ^ A * d := by
  obtain ⟨t, ht, hq⟩ | ⟨t, ht, hq⟩ := quotOf_cases k ((A : Int) - L)
  all_goals obtain ⟨rfl, rfl⟩ := Prod.mk.inj (hq.symm.trans h)
  · obtain rfl : A = t + L := by omega
    rw [Nat.pow_add, Nat.mul_one, Nat.mul_assoc]
  · obtain rfl : L = A + (t + 1) := by omega
    rw [Nat.pow_add, Nat.mul_assoc]

/-- A power of two beside the magnitude of a number. -/
theorem two_pow_le_magnitude_iff {k e : Int} (hk : k ≠ 0) {n d : Nat} (h : quotOf k e = (n, d)) (p : Int) :
    Dyadic.ofIntWithPrec 1 (-p) ≤ Dyadic.ofIntWithPrec k.natAbs (-e) ↔ p ≤ expoQuot n d := by
  obtain ⟨hn, hd⟩ := quotOf_pos hk h
  obtain ⟨A, B, L, rfl, rfl⟩ : ∃ A B L : Nat, p = (A : Int) - L ∧ e = (B : Int) - L :=
    ⟨(p + (p.natAbs + e.natAbs)).toNat, (e + (p.natAbs + e.natAbs)).toNat, p.natAbs + e.natAbs, by omega, by omega⟩
  have hcross := quotOf_cross k h
  rw [le_expoQuot_iff hn hd, hcross, Nat.mul_le_mul_right_iff hd, Int.neg_sub, Int.neg_sub, ← ofIntWithPrec_mul_two_pow, ← ofIntWithPrec_mul_two_pow,
    ofIntWithPrec_le_iff, Int.one_mul]
  exact_mod_cast Iff.rfl

theorem roundInt_of_tiny {k e : Int} (hlt : k.natAbs < 2 ^ 24) (he : e ≤ -25) : roundInt .rne (.fin k e) = 0 := by
  obtain ⟨t, rfl⟩ : ∃ t : Nat, e = -t := ⟨e.natAbs, by omega⟩
  have hpow : 2 ^ 25 ≤ 2 ^ t := Nat.pow_le_pow_right (by decide) (by omega)
  have hzero : roundQuot .rne (decide (k < 0)) k.natAbs (2 ^ t) = 0 := by
    obtain ⟨hhigh, -, -⟩ := roundQuot_nearest (neg := decide (k < 0)) k.natAbs (Nat.two_pow_pos t)
    by_contra hne
    have := Nat.le_mul_of_pos_left (2 ^ t) (Nat.pos_of_ne_zero hne)
    omega
  rw [roundInt_eq .rne (quotOf_neg_natCast k (by omega)), hzero]
  exact ite_self _

theorem roundInt_of_large {k e : Int} (hk : k ≠ 0) (he : 7 ≤ e) :
    max (-127) (min (roundInt .rne (.fin k e)) 127) = if k < 0 then -127 else 127 := by
  obtain ⟨t, rfl⟩ := Int.eq_ofNat_of_zero_le (by omega : 0 ≤ e)
  have hlarge : 1 * 2 ^ 7 ≤ k.natAbs * 2 ^ t := Nat.mul_le_mul (Int.natAbs_pos.mpr hk) (Nat.pow_le_pow_right (by decide) (by omega))
  obtain ⟨hhigh, hlow, -⟩ := roundQuot_nearest (neg := decide (k < 0)) (k.natAbs * 2 ^ t) Nat.one_pos
  rw [roundInt_eq .rne (quotOf_natCast k t)]
  unfold signedQuot
  split <;> omega

/-- A shift limited to 1000 either way aligns as the whole shift does. -/
theorem alignQ_fin {k e : Int} (hk : k ≠ 0) (hlt : k.natAbs < 2 ^ 24) (hlow : -149 ≤ e) (hhigh : e ≤ 120) (b : Int) :
    alignQ (.fin k e) b = max (-127) (min (roundInt .rne (.fin k (e + (6 - b)))) 127) := by
  have hclamp : clampInt (6 - b) (-1000) 1000 = max (-1000) (min (6 - b) 1000) := clampInt_eq _ (by decide)
  show clampInt (roundInt .rne (.fin k (e + clampInt (6 - b) (-1000) 1000))) (-127) 127 = _
  rw [clampInt_eq _ (by decide), hclamp]
  obtain hin | habove | hbelow : max (-1000) (min (6 - b) 1000) = 6 - b ∨ 1000 < 6 - b ∨ 6 - b < -1000 := by omega
  · rw [hin]
  · rw [roundInt_of_large hk (by omega), roundInt_of_large hk (by omega)]
  · rw [roundInt_of_tiny hlt (by omega), roundInt_of_tiny hlt (by omega)]

end Sys2Proof.Machine
end

section
/-! CERTIFICATES. Conversions, moves, special values and predicates (R124 to R128, R147 to R151); O11. -/

namespace Sys2Proof.Machine

/-! The conversions execute -/

theorem conversions_execute :
    (∀ f : CvtF, Executes (.cvt f) { guard := f.g, srcs := [.one f.a f.bta], dsts := [.one f.d] } fun _ _ _ _ vs =>
      let r := cvtOp (elemType f.type) (elemType f.stype) f.sat f.un f.sun (roundModeOf f.rnd) (arg vs 0)
      { writeDst f.d r.1 with anomaly := r.2 })
    ∧ ∀ f : RF,
      Executes (.pk f) (shape2 f) (fun _ _ _ x vs =>
        let r := pkOp (elemType f.type) f.sat f.un (roundModeOf f.rnd) (oldD x f.d) (arg vs 0) (arg vs 1)
        { writeDst f.d r.1 with anomaly := r.2 })
      ∧ Computes2 (.upk f) f (upkOp (elemType f.type) f.un)
      ∧ (f.var = 1 → Computes1 (.alnb f) f (alnbExpOp f.type)) ∧ (f.var ≠ 1 → Computes2 (.alnb f) f (alnbQOp f.type)) :=
  ⟨fun _ => executes_of_runLane (fun _ => rfl) (fun _ _ _ _ _ _ _ _ _ _ => rfl) fun _ _ _ _ _ => writeDst_pushes _ _,
    fun _ => ⟨executes_of_runLane (fun _ => rfl) (fun _ _ _ _ _ _ _ _ _ _ => rfl) fun _ _ _ _ _ => writeDst_pushes _ _,
      computes2_of_lane2 fun _ => rfl, fun hv => computes1_of_lane1 fun _ => if_pos hv, fun hv => computes2_of_lane2 fun _ => if_neg hv⟩⟩

/-! Their values, in the terms of the rules -/

/-- The range of an integer type as the rules write it. -/
def rangeOf (n : Nat) (un : Bool) : Int × Int := if un then (0, 2 ^ n - 1) else (-2 ^ (n - 1), 2 ^ (n - 1) - 1)

theorem rangeOf_eq (n : Nat) (un : Bool) : rangeOf n un = (intLo n un, intHi n un) := by
  cases un <;> rfl

/-- A word holds the integer `v` of `n` bits, extended by sign or zeros (R148). -/
def Written (n : Nat) (un : Bool) (w : Word) (v : Int) : Prop :=
  (if un then (w.toNat : Int) else w.toInt) = v ∧ (rangeOf n un).1 ≤ v ∧ v ≤ (rangeOf n un).2

/-- The low `n` bits of a word are the integer `v` (R148). -/
def LowBitsAre (n : Nat) (un : Bool) (a : Word) (v : Int) : Prop :=
  (a.toNat : Int) % 2 ^ n = v % 2 ^ n ∧ (rangeOf n un).1 ≤ v ∧ v ≤ (rangeOf n un).2

/-- A value limited to the range (SAT). -/
def limited (n : Nat) (un : Bool) (v : Int) : Int := max (rangeOf n un).1 (min v (rangeOf n un).2)

theorem limited_eq {n : Nat} (hn : 0 < n) (un : Bool) (v : Int) : limited n un v = satInt n un v := by
  rw [limited, rangeOf_eq, satInt_eq_max_min hn un v]

theorem lowInt_eq_of_lowBitsAre {n : Nat} (hn : 0 < n) {un : Bool} {a : Word} {v : Int} (h : LowBitsAre n un a v) : lowInt n un a.toNat = v := by
  obtain ⟨hmod, hrange⟩ := h
  rw [rangeOf_eq] at hrange
  exact eq_of_inRange hn (lowInt_inRange hn un _) hrange ((lowInt_emod n un _).trans hmod)

theorem written_extendInt {n : Nat} (hn : 0 < n) (hle : n ≤ 32) (un : Bool) (v : Int) :
    ∃ r, Written n un (extendInt n un v) r ∧ r % 2 ^ n = v % 2 ^ n := by
  obtain ⟨hrange, hmod⟩ := extendInt_spec hn hle un v
  refine ⟨intOf un (extendInt n un v), ⟨rfl, ?_⟩, hmod⟩
  rwa [rangeOf_eq]

theorem written_extendInt_of_inRange {n : Nat} (hn : 0 < n) (hle : n ≤ 32) {un : Bool} {v : Int} (h : InRange n un v) :
    Written n un (extendInt n un v) v := by
  refine ⟨intOf_extendInt_of_inRange hn hle h, ?_⟩
  rwa [rangeOf_eq]

theorem int_widths : ∀ n ∈ [8, 16, 32], 0 < n ∧ n ≤ 32 := by decide

/-- R148: cvt of an integer. -/
theorem cvtOp_of_int (m : RoundMode) (sat un sun : Bool) (a : Word) {n sn : Nat} (hn : n ∈ [8, 16, 32]) (hsn : sn ∈ [8, 16, 32]) {v : Int}
    (hv : LowBitsAre sn sun a v) :
    (∃ w, cvtOp (.int n) (.int sn) sat un sun m a = (w, false)
      ∧ ∃ r, Written n un w r ∧ (sat = true → r = limited n un v) ∧ (sat = false → r % 2 ^ n = v % 2 ^ n))
    ∧ (∀ f ∈ [fp32, fp16, bf16], cvtOp (.float f) (.int sn) sat un sun m a = (BitVec.ofNat 32 (round f m (Num.of v 0)), false))
    ∧ ∀ f ∈ [e4m3, e5m2, e2m1], cvtOp (.float f) (.int sn) sat un sun m a = (BitVec.ofNat 32 (narrow f (Num.of v 0)), false) := by
  obtain ⟨hpos, hle⟩ := int_widths n hn
  have hlow := lowInt_eq_of_lowBitsAre (int_widths sn hsn).1 hv
  unfold cvtOp
  simp only [hlow]
  refine ⟨⟨_, rfl, ?_⟩, fun f hf => by rw [toFloat_wide hf]; rfl, fun f hf => by rw [toFloat_narrowed hf]; rfl⟩
  cases sat with
  | true =>
    exact ⟨_, written_extendInt_of_inRange hpos hle (satInt_inRange hpos un v), fun _ => (limited_eq hpos un v).symm, nofun⟩
  | false =>
    obtain ⟨r, hw, hmod⟩ := written_extendInt hpos hle un v
    exact ⟨r, hw, nofun, fun _ => hmod⟩

/-- R148: the integer that a float gives. -/
theorem floatToInt_eq {n : Nat} (hn : 0 < n) (un : Bool) (m : RoundMode) (x : Num) : floatToInt n un m x =
    match x with
    | .nan => 0
    | .inf neg => if neg then (rangeOf n un).1 else (rangeOf n un).2
    | y => limited n un (roundInt m y) := by
  unfold floatToInt
  cases x with
  | nan => rfl
  | inf neg => rw [rangeOf_eq]
  | zero neg => exact (limited_eq hn un _).symm
  | fin k e => exact (limited_eq hn un _).symm

theorem floatToInt_inRange {n : Nat} (hn : 0 < n) (un : Bool) (m : RoundMode) (x : Num) : InRange n un (floatToInt n un m x) := by
  have hends := intLo_le_intHi hn un
  cases x with
  | nan => exact zero_inRange hn un
  | inf neg =>
    cases neg with
    | true => exact ⟨Int.le_refl _, hends⟩
    | false => exact ⟨hends, Int.le_refl _⟩
  | zero neg => exact satInt_inRange hn un _
  | fin k e => exact satInt_inRange hn un _

/-- R148: cvt of a float. -/
theorem cvtOp_of_float (m : RoundMode) (sat un sun : Bool) (a : Word) (sf : FloatFormat) :
    (∀ f ∈ [fp32, fp16, bf16], cvtOp (.float f) (.float sf) sat un sun m a = (BitVec.ofNat 32 (round f m (valOf sf a.toNat)), false))
    ∧ (∀ f ∈ [e4m3, e5m2, e2m1], cvtOp (.float f) (.float sf) sat un sun m a
        = (BitVec.ofNat 32 (narrow f (valOf sf a.toNat)), decide (f = e2m1 ∧ valOf sf a.toNat = .nan)))
    ∧ ∀ n ∈ [8, 16, 32], ∃ w, cvtOp (.int n) (.float sf) sat un sun m a = (w, false) ∧ Written n un w
        (match valOf sf a.toNat with
        | .nan => 0
        | .inf neg => if neg then (rangeOf n un).1 else (rangeOf n un).2
        | y => limited n un (roundInt m y)) := by
  have hother : ∀ f ∈ [fp32, fp16, bf16], f ≠ e2m1 := by decide
  refine ⟨fun f hf => ?_, fun f hf => ?_, fun n hn => ⟨_, rfl, ?_⟩⟩
  · unfold cvtOp
    simp only [toFloat_wide hf, narrowAnomaly_eq, hother f hf, false_and, decide_false]
  · unfold cvtOp
    simp only [toFloat_narrowed hf, narrowAnomaly_eq]
  · obtain ⟨hpos, hle⟩ := int_widths n hn
    rw [← floatToInt_eq hpos]
    exact written_extendInt_of_inRange hpos hle (floatToInt_inRange hpos un m _)

/-- R149: the subfield that pk writes. -/
theorem pkElem_int {n : Nat} (hn : 0 < n) (sat un : Bool) (m : RoundMode) (a : Word) : pkElem (.int n) sat un m a
    = (((if sat then limited n un (if un then (a.toNat : Int) else a.toInt) else (a.toNat : Int)) % 2 ^ n).toNat, false) := by
  rw [limited_eq hn]
  rfl

theorem pkElem_i4x (sat un : Bool) (m : RoundMode) (a : Word) : pkElem .i4x sat un m a
    = (((if sat then max (-7) (min a.toInt 7) else a.toInt) % 16).toNat, false) := by
  rw [← clampInt_eq a.toInt (by decide)]
  rfl

theorem pkElem_float {f : FloatFormat} (hf : f ∈ [fp32, fp16, bf16] ++ [e4m3, e5m2, e2m1]) (sat un : Bool) (m : RoundMode) (a : Word) :
    pkElem (.float f) sat un m a
      = (if f ∈ [fp32, fp16, bf16] then round f m (valF32 a) else narrow f (valF32 a), decide (f = e2m1 ∧ valF32 a = .nan)) := by
  refine Prod.ext ?_ (narrowAnomaly_eq f (valF32 a))
  split
  case isTrue h => exact toFloat_wide h m (valF32 a)
  case isFalse h => exact toFloat_narrowed ((List.mem_append.mp hf).resolve_left h) m (valF32 a)

/-- R150: the integer that upk gives. -/
theorem written_upkOp_int {n : Nat} (hn : 0 < n) (hle : n ≤ 32) (un : Bool) (a b : Word) :
    ∃ v, Written n un (upkOp (.int n) un a b) v ∧ v % 2 ^ n = (a.toNat / 2 ^ (n * (b.toNat % (32 / n))) % 2 ^ n : Nat) := by
  obtain ⟨v, hw, hmod⟩ := written_extendInt hn hle un (lowInt n un (a.toNat / 2 ^ (n * (b.toNat % (32 / n))) % 2 ^ n))
  refine ⟨v, hw, ?_⟩
  rw [hmod, lowInt_emod, Int.natCast_mod _ (2 ^ n), Int.natCast_pow]
  exact Int.emod_emod ..

/-- R151: the formats that alnb takes. -/
theorem alnbFormat_eq {type : BitVec 4} {f : FloatFormat} (h32 : type = 0 ∨ type = 4 → f = fp32) (hb : type = 6 → f = bf16)
    (h4 : type = 7 → f = e4m3) (h5 : type = 8 → f = e5m2) (ht : type = 0 ∨ type = 4 ∨ type = 6 ∨ type = 7 ∨ type = 8) :
    alnbFormat type = f ∧ f ∈ [fp32, bf16, e4m3, e5m2] := by
  obtain rfl | rfl | rfl | rfl | rfl := ht
  · rw [h32 (.inl rfl)]; decide
  · rw [h32 (.inr rfl)]; decide
  · rw [hb rfl]; decide
  · rw [h4 rfl]; decide
  · rw [h5 rfl]; decide

theorem alnb_fin_bounds {f : FloatFormat} (hf : f ∈ [fp32, bf16, e4m3, e5m2]) {b : Nat} {k e : Int} (h : valOf f b = .fin k e) :
    k ≠ 0 ∧ k.natAbs < 2 ^ 24 ∧ -149 ≤ e ∧ e ≤ 120 := by
  have hlimits : ∀ f ∈ [fp32, bf16, e4m3, e5m2], f.m + 1 ≤ 24 ∧ -149 ≤ 1 - (f.bias : Int) - f.m
      ∧ max 1 ((f.max / 2 ^ f.m : Nat) : Int) - f.bias - f.m ≤ 120 := by decide
  obtain ⟨hm, hmin, hmax⟩ := hlimits f hf
  have hinv := valOf_inv f b
  rw [h] at hinv
  obtain ⟨-, hk, hlow, hhigh⟩ := hinv
  exact ⟨valOf_mantissa_ne_zero h, Nat.lt_of_lt_of_le hk (Nat.pow_le_pow_right (by decide) hm), Int.le_trans hmin hlow, Int.le_trans hhigh hmax⟩

/-- R33, R151: the exponent and the alignment of a number that is not 0. -/
theorem alnb_of_number {type : BitVec 4} {f : FloatFormat} (hf : alnbFormat type = f ∧ f ∈ [fp32, bf16, e4m3, e5m2]) (a b : Word) {k e : Int}
    (hx : valOf f a.toNat = .fin k e) : ∃ q r : Int, alnbExpOp type a = BitVec.ofInt 32 q
      ∧ (Dyadic.ofIntWithPrec 1 (-q) ≤ Dyadic.ofIntWithPrec k.natAbs (-e) ∧ Dyadic.ofIntWithPrec k.natAbs (-e) < Dyadic.ofIntWithPrec 1 (-(q + 1)))
      ∧ alnbQOp type a b = BitVec.ofInt 32 (max (-127) (min r 127)) ∧ r = roundInt .rne (.fin k (e + (6 - b.toInt))) := by
  obtain ⟨hformat, hmem⟩ := hf
  obtain ⟨hk, hlt, hlow, hhigh⟩ := alnb_fin_bounds hmem hx
  obtain ⟨⟨n, d⟩, hq⟩ : ∃ q, quotOf k e = q := ⟨_, rfl⟩
  refine ⟨expoQuot n d, _, ?_, ⟨?_, ?_⟩, ?_, rfl⟩
  · unfold alnbExpOp
    rw [hformat, hx]
    simp only [expoOf, hq]
  · exact (two_pow_le_magnitude_iff hk hq _).mpr (Int.le_refl _)
  · exact Dyadic.not_lt.mp (mt (two_pow_le_magnitude_iff hk hq _).mp (by omega))
  · unfold alnbQOp
    rw [hformat, hx, alignQ_fin hk hlt hlow hhigh]

theorem alnb_of_other {type : BitVec 4} {f : FloatFormat} (hformat : alnbFormat type = f) (a b : Word)
    (hx : ∀ k e, valOf f a.toNat ≠ .fin k e) : alnbExpOp type a = 0x80000000 ∧ alnbQOp type a b = 0 := by
  unfold alnbExpOp alnbQOp
  rw [hformat]
  cases h : valOf f a.toNat with
  | fin k e => exact absurd h (hx k e)
  | nan | inf | zero => exact ⟨rfl, rfl⟩

/-! Moves, special values and predicates (R124 to R128) -/

theorem moves_execute (f : RF) :
    let wide : Shape := { guard := f.g, srcs := [.pair f.a f.bta], dsts := [.pair f.d] }
    let constant (m : Team) (k : Nat) : Word := m.consts.getD k 0
    (f.var ≠ 1 → Computes1 (.mov f) f fun a => a)
    ∧ (f.var = 1 → Executes (.mov f) wide fun _ _ _ _ vs => writePair f.d (arg64 vs 0))
    ∧ (f.var ≠ 1 → Executes (.movc f) (shape1 f) fun _ _ m _ vs => writeDst f.d (constant m ((arg vs 0).toNat % 16)))
    ∧ (f.var = 1 → Executes (.movc f) { guard := f.g, srcs := [srcA f], dsts := [.pair f.d] } fun _ _ m _ vs =>
        let k := 2 * ((arg vs 0).toNat % 8)
        writePair f.d (constant m (k + 1) ++ constant m k))
    ∧ (f.var ≠ 1 → Executes (.movs f) { guard := f.g, dsts := [.one f.d] } fun s t m x _ =>
        writeDst f.d ((special s t m x (f.a.toNat % 16)).truncate 32))
    ∧ (f.var = 1 → Executes (.movs f) { guard := f.g, dsts := [.pair f.d] } fun s t m x _ =>
        writePair f.d (special s t m x (f.a.toNat % 16))) := by
  intro wide constant
  refine ⟨fun hv => ?_, fun hv => ?_, fun hv => ?_, fun hv => ?_, fun hv => ?_, fun hv => ?_⟩
  · exact computes1_of_lane1 fun _ => if_neg hv
  · exact executes_of_runLane (fun _ => if_pos hv) (fun _ _ _ _ _ _ _ _ _ _ => rfl) fun _ _ _ _ _ => writePair_pushes _ _
  · exact executes_of_runLane (fun _ => if_neg hv) (fun _ _ _ _ _ _ _ _ _ _ => rfl) fun _ _ _ _ _ => writeDst_pushes _ _
  · exact executes_of_runLane (fun _ => if_pos hv) (fun _ _ _ _ _ _ _ _ _ _ => rfl) fun _ _ _ _ _ => writePair_pushes _ _
  · exact executes_of_runLane (fun _ => if_neg hv)
      (fun s v id m x _ a b hd hl => congrArg (fun w => writeDst f.d (BitVec.truncate 32 w)) (special_local s v id m x a b _ hd hl))
      fun _ _ _ _ _ => writeDst_pushes _ _
  · exact executes_of_runLane (fun _ => if_pos hv)
      (fun s v id m x _ a b hd hl => congrArg (writePair f.d) (special_local s v id m x a b _ hd hl)) fun _ _ _ _ _ => writePair_pushes _ _

theorem immediate_moves_execute (f : IF) :
    Executes (.movi f) { guard := f.g, dsts := [.one f.d] } (fun _ _ _ _ _ => writeDst f.d f.imm)
    ∧ Executes (.movh f) { guard := f.g, srcs := [.one f.a false], dsts := [.pair f.d] } fun _ _ _ _ vs =>
        writePair f.d (f.imm ++ arg vs 0) :=
  ⟨executes_of_runLane (fun _ => rfl) (fun _ _ _ _ _ _ _ _ _ _ => rfl) fun _ _ _ _ _ => writeDst_pushes _ _,
    executes_of_runLane (fun _ => rfl) (fun _ _ _ _ _ _ _ _ _ _ => rfl) fun _ _ _ _ _ => writePair_pushes _ _⟩

/-- An instruction that writes a predicate from the predicates of its thread executes (R128). -/
theorem executes_of_predicates {i : Instr} {f : RF} (op : Thread → Bool)
    (h : ∀ s, exec i s = runLane { guard := f.g } (fun _ _ _ x _ => writePred f.d (op x)) s) :
    Executes i { guard := f.g } fun _ _ _ x _ => writePred f.d (op x) :=
  executes_of_runLane h (fun _ _ _ _ _ _ _ _ _ _ => rfl) fun _ _ _ _ _ => writePred_pushes _ _

/-- pmov in its four forms (R128). -/
theorem pmov_executes (f : RF) :
    (f.var = 0 → Executes (.pmov f) { guard := f.g, srcs := [srcA f] } fun _ _ _ _ vs => writePred f.d (arg vs 0 != 0))
    ∧ (f.var = 1 → Executes (.pmov f) { guard := f.g, dsts := [.one f.d] } fun _ _ _ x _ => writeDst f.d (if x.select f.a then 1 else 0))
    ∧ (f.var = 2 → Executes (.pmov f) { guard := f.g, dsts := [.one f.d] } fun _ _ _ x _ =>
        writeDst f.d (BitVec.ofNat 32 (maskOf ((List.range 8).filter x.pred))))
    ∧ (f.var = 3 → Executes (.pmov f) { guard := f.g, srcs := [srcA f] } fun _ _ _ _ vs =>
        { preds := (List.range 7).map fun k => (k + 1, (arg vs 0).getLsbD (k + 1)) }) := by
  have hform : ∀ s, exec (.pmov f) s = execPmov f s := fun _ => rfl
  refine ⟨fun hv => ?_, fun hv => ?_, fun hv => ?_, fun hv => ?_⟩
  all_goals
    unfold execPmov at hform
    rw [hv] at hform
  · exact executes_of_runLane hform (fun _ _ _ _ _ _ _ _ _ _ => rfl) fun _ _ _ _ _ => writePred_pushes _ _
  · exact executes_of_runLane hform (fun _ _ _ _ _ _ _ _ _ _ => rfl) fun _ _ _ _ _ => writeDst_pushes _ _
  · exact executes_of_runLane hform (fun _ _ _ _ _ _ _ _ _ _ => rfl) fun _ _ _ _ _ => writeDst_pushes _ _
  · exact executes_of_runLane hform (fun _ _ _ _ _ _ _ _ _ _ => rfl) fun _ _ _ _ _ => Nat.zero_le _

/-- A predicate written is read back, and p0 stays true (R12, R128). -/
theorem Thread.setPred_pred (x : Thread) {n k : Nat} (hn : n < 8) (hk : k < 8) (v : Bool) :
    (x.setPred n v).pred k = if k = 0 then true else if k = n then v else x.pred k := by
  by_cases hk0 : k = 0
  · subst hk0
    rfl
  rw [if_neg hk0]
  by_cases hn0 : n = 0
  · subst hn0
    rw [if_neg hk0]
    rfl
  have hbit : (1#8 <<< n).getLsbD k = decide (k = n) := by
    rw [← BitVec.twoPow_eq, BitVec.getLsbD_twoPow, decide_eq_true hn, Bool.true_and, decide_eq_decide]
    exact eq_comm
  rw [Thread.setPred, if_neg hn0]
  unfold Thread.pred
  rw [beq_eq_false_iff_ne.mpr hk0, Bool.false_or, Bool.false_or]
  cases v with
  | true =>
    rw [if_pos rfl, BitVec.getLsbD_or, hbit]
    by_cases h : k = n <;> simp [h]
  | false =>
    rw [if_neg (by decide), BitVec.getLsbD_and, BitVec.getLsbD_not, hbit]
    by_cases h : k = n <;> simp [h, hk]

/-- Settles O11: each instruction runs one operation of the model in its members; cvt by the type of its source (`cvtOp_of_int`, `cvtOp_of_float`), pk and upk by the subfield (`pkOp_getLsbD`, `pkOp_field`), alnb by `alnb_of_number`, and predicates by `Thread.setPred_pred`. -/
theorem conversionsMovesAndPredicatesExecute : Obligations.ConversionsMovesAndPredicatesExecute := by
  unfold Obligations.ConversionsMovesAndPredicatesExecute
  refine ⟨conversions_execute, ⟨⟨rfl, rfl, rfl, rfl, rfl, rfl, rfl, rfl, rfl, rfl⟩, ?_, ?_, ?_, ?_⟩, ⟨moves_execute, immediate_moves_execute⟩, ?_, ?_, ?_⟩
  · exact fun m sat un sun a n hn sn hsn v hv => cvtOp_of_int m sat un sun a hn hsn hv
  · exact fun m sat un sun a sf _ => cvtOp_of_float m sat un sun a sf
  · intro m sat un d a b code hcode
    obtain ⟨ht, hw⟩ := elemType_mem_packTypes code hcode
    generalize elemType (BitVec.ofNat 4 code) = t at ht hw
    rw [← hw]
    intro t' w k r
    refine ⟨fun j hj hout => ?_, ?_, ?_⟩
    · have hp : w * k = t.bits * (b.toNat % (32 / t.bits)) := rfl
      have hw' : w = t.bits := rfl
      exact (pkOp_getLsbD ht sat un m d a b rfl hj).trans (if_neg (by omega))
    · have hfield : r.1.toNat / 2 ^ (w * k) % 2 ^ w = (pkElem t sat un m a).1 := pkOp_field ht sat un m d a b
      have hanomaly : r.2 = (pkElem t sat un m a).2 := rfl
      intro field
      cases t with
      | int n =>
        rw [pkElem_int (int_of_mem_packTypes ht).1] at hfield hanomaly
        exact ⟨hfield, hanomaly⟩
      | i4x =>
        rw [pkElem_i4x] at hfield hanomaly
        exact ⟨hfield, hanomaly⟩
      | float f =>
        rw [pkElem_float (float_of_mem_packTypes ht)] at hfield hanomaly
        exact ⟨hfield, hanomaly⟩
    · intro field
      cases t with
      | int n =>
        obtain ⟨hpos, hle⟩ := int_of_mem_packTypes ht
        exact written_upkOp_int hpos hle un a b
      | i4x => rfl
      | float f => rfl
  · intro type a b f h32 hb h4 h5 ht x
    have hf := alnbFormat_eq h32 hb h4 h5 ht
    exact ⟨fun k e hx => alnb_of_number hf a b hx, alnb_of_other hf.1 a b⟩
  · intro s t m x v
    have hkind : v 5 = BitVec.ofNat 64 (((m.roleOf t.t).map Role.kind).getD 0) := rfl
    exact ⟨rfl, rfl, rfl, rfl, rfl, fun r hr => hkind.trans (by rw [hr]; rfl), rfl, rfl, rfl, rfl, rfl⟩
  · intro f value both
    obtain ⟨hin, hout, hget, hset⟩ := pmov_executes f
    exact ⟨executes_of_predicates _ fun _ => rfl, executes_of_predicates _ fun _ => rfl, executes_of_predicates _ fun _ => rfl,
      executes_of_predicates _ fun _ => rfl, hin, hout, hget, hset⟩
  · exact fun x n k v hn hk => x.setPred_pred hn hk v

end Sys2Proof.Machine
end
